-- ==== Sys2Proof/Word.lean ====
section
/-! DEFINITION. The words of the machine: bit vectors of the widths the manual names (R6, R39, R60, R143, R169),
and the sparse table by number that every register file and every collection keyed by a number uses. -/
namespace Sys2Proof

/-- A 64-bit value: a g register, a position of sq, an address. -/
abbrev Word := BitVec 64
/-- A byte of memory. -/
abbrev Byte := BitVec 8
/-- A vector of 64 lanes of 32 bits (R143). -/
abbrev Vec := BitVec 2048
/-- A row of an accumulator tile or of a tile queue: 64 ACC48 elements, element c at bits 48c + 47 : 48c (R60, R184). -/
abbrev Row := BitVec 3072
/-- A row of an operand slot: 128 bytes (R169). -/
abbrev ObRow := BitVec 1024

/-- A sparse table: entries by number, the numbers strictly rising. -/
abbrev Tab (α : Type) := List (Nat × α)

/-- The bytes of a memory that something has written, by address, the addresses strictly rising. -/
abbrev Mem := List (Nat × Byte)

end Sys2Proof
end

