-- ==== Sys2Proof/Syntax.lean ====
section
/-! DEFINITION. The syntax of the machine's steps: the operands of the slot operations by the source maps of their
slots (R49, R50, R53), and the one inductive of all steps. -/
namespace Sys2Proof

/-- A source of the B, S and K slots that denotes a 64-bit value (R49). -/
inductive Src where
  /-- 0x00..0x0F: the value of that age in sq. -/
  | sq (a : Fin 16)
  /-- 0x10..0x1F: g0..g15. -/
  | g (n : Fin 16)
  /-- 0x20, 0x21: position of the core in its team. -/
  | tx
  | ty
  /-- 0x22, 0x23: width and height of the team. -/
  | tw
  | th
  /-- 0x24: the microbatch tag. -/
  | tag
  /-- 0x25: bits 31:0 of the step number. -/
  | step
  /-- 0x26: a word of the stochastic-rounding generator (R52). -/
  | rng
  /-- 0x27. -/
  | zero
  /-- 0x28..0x2F: p0..p7. -/
  | p (n : Fin 8)
  /-- 0x80..0xFF: a two's-complement value of 7 bits. -/
  | imm (v : BitVec 7)
  deriving DecidableEq, Repr

/-- The source of a `send` (R101): a value, or a row popped from a tile queue. -/
inductive SendSrc where
  | src (s : Src)
  /-- 0x30..0x33: pops one row. -/
  | tq (q : Fin 4)
  deriving DecidableEq, Repr

/-- A source that is an sq age or a g register: the scalar operands of the V, M, C0, C1 slots. -/
inductive SqG where
  | sq (a : Fin 16)
  | g (n : Fin 16)
  deriving DecidableEq, Repr

/-- A source of the V0 and V1 slots (R50). -/
inductive SrcV where
  | vq (a : Fin 16)
  | v (n : Fin 32)
  /-- 0x30..0x3F and 0x40..0x4F: a scalar, broadcast. -/
  | sq (a : Fin 16)
  | g (n : Fin 16)
  /-- 0x50..0x57: a lane mask. -/
  | p (n : Fin 8)
  /-- 0x58: lane i holds i. -/
  | lane
  /-- 0x59: the generator word, rotated per lane (R52). -/
  | rng
  | tx
  | ty
  | tag
  | zero
  /-- 0x60..0x63: pops one row (R167). -/
  | tq (q : Fin 4)
  /-- 0xE0..0xFF: a two's-complement value of 5 bits, broadcast. -/
  | imm (v : BitVec 5)
  deriving DecidableEq, Repr

/-- A vector of indices (R159, R161): from vq, a v register or a tile queue. -/
inductive IdxV where
  | vq (a : Fin 16)
  | v (n : Fin 32)
  | tq (q : Fin 4)
  deriving DecidableEq, Repr

/-- The second source of a V memory operation (R160): a scalar, an immediate or zero. -/
inductive OffV where
  | sq (a : Fin 16)
  | g (n : Fin 16)
  | imm (v : BitVec 5)
  | zero
  deriving DecidableEq, Repr

/-- A count or selector of `bcast`, `lrot` and `wrow` (R159, R168): a scalar or an immediate. -/
inductive CntV where
  | sq (a : Fin 16)
  | g (n : Fin 16)
  | imm (v : BitVec 5)
  deriving DecidableEq, Repr

/-- The vector pipes (R13). -/
inductive Pipe where
  | v0
  | v1
  deriving DecidableEq, Repr

/-- The copy engines, and the slots C0 and C1 (R13). -/
inductive Eng where
  | c0
  | c1
  deriving DecidableEq, Repr

/-- The units whose latch ports are 0xFE and 0xFF (R39). -/
inductive MckUnit where
  | m
  | c0
  | c1
  | k
  deriving DecidableEq, Repr

/-- The scopes of a fence (R125). -/
inductive FenceScope where
  | core
  | die
  | mod
  | sys
  deriving DecidableEq, Repr

/-- The widths of a scalar store (R136). -/
inductive StW where
  | n8
  | n16
  | n32
  | n64
  deriving DecidableEq, Repr

/-- The orders of an atomic (R139). -/
inductive AmoOrd where
  | rlx
  | acq
  | rel
  | sc
  deriving DecidableEq, Repr

/-- The rounding modes by their codes (R95). -/
inductive Mode where
  | dflt
  | rn
  | rna
  | rz
  | sr
  deriving DecidableEq, Repr

/-- The targets d of a conversion from FP32 (R98). -/
inductive CvtFmt where
  | bf16
  | f16
  | e4m3
  | e5m2
  | i32
  | i8
  deriving DecidableEq, Repr

/-- The operators of a reduction or scan (R94). -/
inductive RedOp where
  | add
  | max
  | min
  deriving DecidableEq, Repr

/-- The formats f of the matrix operations (R95). -/
inductive Fmt where
  | bf16
  | f16
  | e4m3
  | e5m2
  | i8
  | nx7
  | nx4
  | nx2
  deriving DecidableEq, Repr

/-- A core, by its module index `x + 32·y` on the graticule (R4). -/
abbrev CoreId := Fin 512
/-- A die (R4). -/
abbrev Die := Fin 4
/-- A context (R449). -/
abbrev CtxId := Fin 8
/-- A port of the module (R370, R373). -/
abbrev PortId := Fin 14

/-- A message of a channel (R226): its kind and its contents. -/
inductive Msg where
  /-- A 64-bit scalar. -/
  | scalar (v : Word)
  /-- A row of 64 lanes. -/
  | vector (v : Vec)
  /-- A segment of bytes for circular buffer `cb` of the receiver (R234). -/
  | segment (cb : Nat) (data : List Byte)
  /-- A Gazetteer record for another die or module (R240). -/
  | record (key : BitVec 48) (idx : BitVec 16) (payload : BitVec 512)
  deriving DecidableEq, Repr

/-- What a step of the patrol scrubber reads (R415). -/
inductive ScrubTarget where
  | global (a : BitVec 48)
  | scratchpad (c : CoreId) (off : BitVec 19)
  | operandSlot (c : CoreId) (n : Fin 32)
  | tile (c : CoreId) (n : Fin 64)
  | weightStore (d : Die) (off : BitVec 31)
  /-- The registers, queues and latches of a core, and its instruction cache. -/
  | registers (c : CoreId)
  | icache (c : CoreId)
  /-- A line in an L2 slice. -/
  | l2 (line : BitVec 41)
  /-- An entry of a Gazetteer, by its number, or its staging. -/
  | gazetteer (d : Die) (entry : Nat)
  deriving DecidableEq, Repr

/-- What the scrubber finds (R415). -/
inductive ScrubResult where
  | clean
  | corrected
  | uncorrectable
  deriving DecidableEq, Repr

/-- The role of the party that opens a session (R429). -/
inductive PeerRole where
  | verifier
  | neighbour
  | switch
  | host
  deriving DecidableEq, Repr

/-- Why a switch is withdrawn (R436): heartbeat periods that have passed without an answer, a later measurement, or the wish of the verifier or system
software. -/
inductive WithdrawCause where
  | heartbeats (missed : Nat)
  | measured (idx : BitVec 8) (digest : BitVec 512)
  | asked
  deriving DecidableEq, Repr

/-- A switch to withdraw, and why. -/
structure Withdrawal where
  serial : Word
  cause  : WithdrawCause
  deriving DecidableEq, Repr

/-- What the host does by DMA at an address (R393, R434): it reads or writes through a window, and system software opens and closes windows. -/
inductive DmaOp where
  | read
  | write (l : List Byte)
  | openWindow
  | closeWindow
  deriving DecidableEq, Repr

/-- What a peer offers for the key exchange, the encryption and the key schedule of its sessions (R429). -/
structure SessOffer where
  dhe   : Bool
  aead  : Bool
  sched : Bool
  deriving DecidableEq, Repr

/-- FINISH of a session (R429): the peer's signature and the MAC of the exchange, and the measurements that a neighbour or switch then answers. -/
structure FinishMsg where
  sess : Nat
  sig  : BitVec 4096
  mac  : BitVec 512
  meas : List (Nat × BitVec 512)
  deriving DecidableEq, Repr

/-- What comes of power-on (R444): a module reset, with which bring-up begins; the next step of bring-up done; or that step failing, for a cause. -/
inductive BootEvent where
  | start
  | done
  | fails (cause : BitVec 32)
  deriving DecidableEq, Repr

/-- A read of a die's agent, and whether it meets an uncorrectable error (R416). -/
structure DieRead where
  die : Die
  ue  : Bool
  deriving DecidableEq, Repr

/-- What becomes of a frame (R374, R432): the `n`-th of those that have left by a port does not arrive, or one arrives that is sealed under key `k`. -/
inductive FrameFate where
  | lost (n : Nat)
  | arrives (k : Nat)
  deriving DecidableEq, Repr

/-- A chunk of a collective, and whether what is read for its step has an uncorrectable error (R416). -/
structure ChunkRead where
  chunk : Nat
  ue    : Bool
  deriving DecidableEq, Repr

/-- The sender of an abort token (R419): the session of its job, and its member index. -/
structure TokenFrom where
  job    : Nat
  member : Nat
  deriving DecidableEq, Repr

/-- The words of a context's doorbell page and of the management ring that the host writes whole (R394, R447). -/
inductive HostReg where
  | nrBase (x : CtxId)
  | nrSize (x : CtxId)
  | nrHead (x : CtxId)
  | cwin (x : CtxId)
  | mcBase
  | mcSize
  | mcMsi
  /-- Eight bytes of the staging window from an offset (R426). -/
  | staging (off : Word)
  deriving DecidableEq, Repr

/-- The steps of the part: one constructor for every row of the table of operations and events. A slot operation
acts on the core whose bundle is in issue; an event names the unit it acts on. -/
inductive Instr where
  -- Slot B
  /-- NOP (R96). -/
  | nop
  /-- BR (R113). -/
  | br (d : BitVec 16)
  /-- BZ (R113). -/
  | bz (d : BitVec 16)
  /-- BNZ (R113). -/
  | bnz (d : BitVec 16)
  /-- CALL (R113). -/
  | call (d : BitVec 16)
  /-- RET (R113). -/
  | ret (a : Src)
  /-- JR (R113). -/
  | jr (a : Src)
  /-- LOOP (R115). -/
  | loop (a : Src)
  /-- LOOPN (R115). -/
  | loopn (a : Src)
  /-- WAIT_LT (R119). -/
  | waitLt (k : Fin 16) (b : Src)
  /-- WAIT_BAR (R120). -/
  | waitBar (a b : Src)
  /-- WAIT_WAKE (R121). -/
  | waitWake
  /-- HALT (R122). -/
  | halt
  /-- TRAP (R123). -/
  | trap (code : BitVec 8)
  /-- SYSRET (R124). -/
  | sysret
  /-- FENCE (R125). -/
  | fence (sc : FenceScope)
  /-- SBAR (R126). -/
  | sbar (rd wr mem : Bool)
  /-- CKPT (R127). -/
  | ckpt (a : Src)
  /-- NEXT_TILE (R128). -/
  | nextTile
  /-- LAUNCH (R129). -/
  | launch (a : Src)
  /-- SYSRD (R130). -/
  | sysrd (w : Fin 64)
  /-- SYSWR (R130). -/
  | syswr (w : Fin 64) (b : Src)
  -- Slot S
  /-- LI (R54). -/
  | li (imm : BitVec 16)
  /-- LIH (R54). -/
  | lih (imm : BitVec 16)
  /-- S_MOV (R131). -/
  | sMov (a : Src)
  /-- S_SEL (R131). -/
  | sSel (a b : Src)
  /-- ADD_I64 (R132). -/
  | addI64 (a b : Src)
  /-- SUB_I64 (R132). -/
  | subI64 (a b : Src)
  /-- MUL_I64 (R132). -/
  | mulI64 (a b : Src)
  /-- MULH_I64 (R132). -/
  | mulhI64 (a b : Src)
  /-- MULH_N64 (R132). -/
  | mulhN64 (a b : Src)
  /-- DIV_I64 (R132). -/
  | divI64 (a b : Src)
  /-- DIV_N64 (R132). -/
  | divN64 (a b : Src)
  /-- S_AND (R132). -/
  | sAnd (a b : Src)
  /-- S_OR (R132). -/
  | sOr (a b : Src)
  /-- S_XOR (R132). -/
  | sXor (a b : Src)
  /-- S_ANDN (R132). -/
  | sAndn (a b : Src)
  /-- S_SHL (R132). -/
  | sShl (a b : Src)
  /-- SHR_N64 (R132). -/
  | shrN64 (a b : Src)
  /-- SHR_I64 (R132). -/
  | shrI64 (a b : Src)
  /-- ROTL (R132). -/
  | rotl (a b : Src)
  /-- CLZ (R133). -/
  | clz (a : Src)
  /-- POPC (R133). -/
  | popc (a : Src)
  /-- MIN_I64 (R132). -/
  | minI64 (a b : Src)
  /-- MIN_N64 (R132). -/
  | minN64 (a b : Src)
  /-- MAX_I64 (R132). -/
  | maxI64 (a b : Src)
  /-- MAX_N64 (R132). -/
  | maxN64 (a b : Src)
  /-- CEQ (R132). -/
  | ceq (a b : Src)
  /-- CNE (R132). -/
  | cne (a b : Src)
  /-- CLT_I64 (R132). -/
  | cltI64 (a b : Src)
  /-- CLT_N64 (R132). -/
  | cltN64 (a b : Src)
  /-- CLE_I64 (R132). -/
  | cleI64 (a b : Src)
  /-- CLE_N64 (R132). -/
  | cleN64 (a b : Src)
  /-- ST (R136). -/
  | st (w : StW) (a b : Src) (inc : Bool)
  /-- AMO_ADD_I64 (R138). -/
  | amoAddI64 (o : AmoOrd) (a : Src) (r : Option (Fin 16))
  /-- AMO_AND (R138). -/
  | amoAnd (o : AmoOrd) (a : Src) (r : Option (Fin 16))
  /-- AMO_OR (R138). -/
  | amoOr (o : AmoOrd) (a : Src) (r : Option (Fin 16))
  /-- AMO_XOR (R138). -/
  | amoXor (o : AmoOrd) (a : Src) (r : Option (Fin 16))
  /-- AMO_MIN_I64 (R138). -/
  | amoMinI64 (o : AmoOrd) (a : Src) (r : Option (Fin 16))
  /-- AMO_MAX_I64 (R138). -/
  | amoMaxI64 (o : AmoOrd) (a : Src) (r : Option (Fin 16))
  /-- AMO_MIN_N64 (R138). -/
  | amoMinN64 (o : AmoOrd) (a : Src) (r : Option (Fin 16))
  /-- AMO_MAX_N64 (R138). -/
  | amoMaxN64 (o : AmoOrd) (a : Src) (r : Option (Fin 16))
  /-- AMO_SWAP (R138). -/
  | amoSwap (o : AmoOrd) (a : Src) (r : Option (Fin 16))
  /-- AMO_CAS (R138). -/
  | amoCas (o : AmoOrd) (a : Src) (r : Option (Fin 16))
  /-- AMO_FADD_F32 (R138). -/
  | amoFaddF32 (o : AmoOrd) (a : Src) (r : Option (Fin 16))
  /-- LOCK_L2 (R141). -/
  | lockL2 (a b : Src)
  /-- UNLOCK_L2 (R142). -/
  | unlockL2 (a b : Src)
  /-- PREF (R142). -/
  | pref (a : Src)
  /-- LD_I8 (R135). -/
  | ldI8 (n : Fin 16) (a b : Src) (inc : Bool)
  /-- LD_N8 (R135). -/
  | ldN8 (n : Fin 16) (a b : Src) (inc : Bool)
  /-- LD_I16 (R135). -/
  | ldI16 (n : Fin 16) (a b : Src) (inc : Bool)
  /-- LD_N16 (R135). -/
  | ldN16 (n : Fin 16) (a b : Src) (inc : Bool)
  /-- LD_I32 (R135). -/
  | ldI32 (n : Fin 16) (a b : Src) (inc : Bool)
  /-- LD_N32 (R135). -/
  | ldN32 (n : Fin 16) (a b : Src) (inc : Bool)
  /-- LD_N64 (R135). -/
  | ldN64 (n : Fin 16) (a b : Src) (inc : Bool)
  /-- S_LAT_A (R39). -/
  | sLatA (a : Src)
  /-- S_LAT_AB (R39). -/
  | sLatAb (a b : Src)
  /-- S_MOV_P (R40). -/
  | sMovP (n : Fin 8) (a : Src)
  /-- MOV_G (R40). -/
  | movG (n : Fin 16) (a : Src)
  -- Slots V0 and V1
  /-- ADD_F32 (R147). -/
  | addF32 (u : Pipe) (a b : SrcV)
  /-- ADD_BF16 (R147). -/
  | addBf16 (u : Pipe) (a b : SrcV)
  /-- ADD_F16 (R147). -/
  | addF16 (u : Pipe) (a b : SrcV)
  /-- SUB_F32 (R147). -/
  | subF32 (u : Pipe) (a b : SrcV)
  /-- SUB_BF16 (R147). -/
  | subBf16 (u : Pipe) (a b : SrcV)
  /-- SUB_F16 (R147). -/
  | subF16 (u : Pipe) (a b : SrcV)
  /-- MUL_F32 (R147). -/
  | mulF32 (u : Pipe) (a b : SrcV)
  /-- MUL_BF16 (R147). -/
  | mulBf16 (u : Pipe) (a b : SrcV)
  /-- MUL_F16 (R147). -/
  | mulF16 (u : Pipe) (a b : SrcV)
  /-- FMA_F32 (R147). -/
  | fmaF32 (u : Pipe) (a b : SrcV)
  /-- FMA_BF16 (R147). -/
  | fmaBf16 (u : Pipe) (a b : SrcV)
  /-- FMA_F16 (R147). -/
  | fmaF16 (u : Pipe) (a b : SrcV)
  /-- MIN_F32 (R147). -/
  | minF32 (u : Pipe) (a b : SrcV)
  /-- MIN_BF16 (R147). -/
  | minBf16 (u : Pipe) (a b : SrcV)
  /-- MIN_F16 (R147). -/
  | minF16 (u : Pipe) (a b : SrcV)
  /-- MAX_F32 (R147). -/
  | maxF32 (u : Pipe) (a b : SrcV)
  /-- MAX_BF16 (R147). -/
  | maxBf16 (u : Pipe) (a b : SrcV)
  /-- MAX_F16 (R147). -/
  | maxF16 (u : Pipe) (a b : SrcV)
  /-- RCP_F32 (R148). -/
  | rcpF32 (u : Pipe) (a : SrcV)
  /-- RSQRT_F32 (R148). -/
  | rsqrtF32 (u : Pipe) (a : SrcV)
  /-- EXP2_F32 (R148). -/
  | exp2F32 (u : Pipe) (a : SrcV)
  /-- LOG2_F32 (R148). -/
  | log2F32 (u : Pipe) (a : SrcV)
  /-- ADD_I32 (R149). -/
  | addI32 (u : Pipe) (a b : SrcV)
  /-- SUB_I32 (R149). -/
  | subI32 (u : Pipe) (a b : SrcV)
  /-- MUL_I32 (R149). -/
  | mulI32 (u : Pipe) (a b : SrcV)
  /-- ADD_SAT_I32 (R149). -/
  | addSatI32 (u : Pipe) (a b : SrcV)
  /-- SUB_SAT_I32 (R149). -/
  | subSatI32 (u : Pipe) (a b : SrcV)
  /-- MIN_I32 (R149). -/
  | minI32 (u : Pipe) (a b : SrcV)
  /-- MIN_N32 (R149). -/
  | minN32 (u : Pipe) (a b : SrcV)
  /-- MAX_I32 (R149). -/
  | maxI32 (u : Pipe) (a b : SrcV)
  /-- MAX_N32 (R149). -/
  | maxN32 (u : Pipe) (a b : SrcV)
  /-- V_AND (R149). -/
  | vAnd (u : Pipe) (a b : SrcV)
  /-- V_OR (R149). -/
  | vOr (u : Pipe) (a b : SrcV)
  /-- V_XOR (R149). -/
  | vXor (u : Pipe) (a b : SrcV)
  /-- V_ANDN (R149). -/
  | vAndn (u : Pipe) (a b : SrcV)
  /-- V_SHL (R149). -/
  | vShl (u : Pipe) (a b : SrcV)
  /-- SHR_N32 (R149). -/
  | shrN32 (u : Pipe) (a b : SrcV)
  /-- SHR_I32 (R149). -/
  | shrI32 (u : Pipe) (a b : SrcV)
  /-- CEQ_F32 (R150). -/
  | ceqF32 (u : Pipe) (a b : SrcV)
  /-- CLT_F32 (R150). -/
  | cltF32 (u : Pipe) (a b : SrcV)
  /-- CLE_F32 (R150). -/
  | cleF32 (u : Pipe) (a b : SrcV)
  /-- CEQ_I32 (R150). -/
  | ceqI32 (u : Pipe) (a b : SrcV)
  /-- CLT_I32 (R150). -/
  | cltI32 (u : Pipe) (a b : SrcV)
  /-- CLT_N32 (R150). -/
  | cltN32 (u : Pipe) (a b : SrcV)
  /-- V_SEL (R151). -/
  | vSel (u : Pipe) (a b : SrcV)
  /-- V_MOV (R152). -/
  | vMov (u : Pipe) (a : SrcV)
  /-- CVT (R153). -/
  | cvt (u : Pipe) (d : CvtFmt) (a : SrcV)
  /-- CVT_BF16_F32_MODE (R153). -/
  | cvtBf16F32Mode (u : Pipe) (a : SrcV) (m : Mode) (sat : Bool)
  /-- CVT_F16_F32_MODE (R153). -/
  | cvtF16F32Mode (u : Pipe) (a : SrcV) (m : Mode) (sat : Bool)
  /-- CVT_E4M3_F32_MODE (R153). -/
  | cvtE4m3F32Mode (u : Pipe) (a : SrcV) (m : Mode) (sat : Bool)
  /-- CVT_E5M2_F32_MODE (R153). -/
  | cvtE5m2F32Mode (u : Pipe) (a : SrcV) (m : Mode) (sat : Bool)
  /-- CVT_I32_F32_MODE (R153). -/
  | cvtI32F32Mode (u : Pipe) (a : SrcV) (m : Mode) (sat : Bool)
  /-- CVT_I8_F32_MODE (R153). -/
  | cvtI8F32Mode (u : Pipe) (a : SrcV) (m : Mode) (sat : Bool)
  /-- CVT_F32_BF16 (R154). -/
  | cvtF32Bf16 (u : Pipe) (a : SrcV)
  /-- CVT_F32_F16 (R154). -/
  | cvtF32F16 (u : Pipe) (a : SrcV)
  /-- CVT_F32_E4M3 (R154). -/
  | cvtF32E4m3 (u : Pipe) (a : SrcV)
  /-- CVT_F32_E5M2 (R154). -/
  | cvtF32E5m2 (u : Pipe) (a : SrcV)
  /-- CVT_F32_I32 (R154). -/
  | cvtF32I32 (u : Pipe) (a : SrcV)
  /-- CVT_F32_I8 (R154). -/
  | cvtF32I8 (u : Pipe) (a : SrcV)
  /-- PACK_NX2 (R156). -/
  | packNx2 (u : Pipe) (a : SrcV)
  /-- PACK_NX4 (R156). -/
  | packNx4 (u : Pipe) (a : SrcV)
  /-- PACK_NX7 (R156). -/
  | packNx7 (u : Pipe) (a : SrcV)
  /-- PACK_NX2_MODE (R156). -/
  | packNx2Mode (u : Pipe) (a : SrcV) (m : Mode) (sat : Bool)
  /-- PACK_NX4_MODE (R156). -/
  | packNx4Mode (u : Pipe) (a : SrcV) (m : Mode) (sat : Bool)
  /-- PACK_NX7_MODE (R156). -/
  | packNx7Mode (u : Pipe) (a : SrcV) (m : Mode) (sat : Bool)
  /-- UNPK_NX2 (R156). -/
  | unpkNx2 (u : Pipe) (a : SrcV)
  /-- UNPK_NX4 (R156). -/
  | unpkNx4 (u : Pipe) (a : SrcV)
  /-- UNPK_NX7 (R156). -/
  | unpkNx7 (u : Pipe) (a : SrcV)
  /-- RED_F32 (R157). -/
  | redF32 (u : Pipe) (a : SrcV) (op : RedOp)
  /-- RED_I32 (R157). -/
  | redI32 (u : Pipe) (a : SrcV) (op : RedOp)
  /-- SCAN_F32 (R158). -/
  | scanF32 (u : Pipe) (a : SrcV) (op : RedOp) (ex : Bool)
  /-- SCAN_I32 (R158). -/
  | scanI32 (u : Pipe) (a : SrcV) (op : RedOp) (ex : Bool)
  /-- PERM (R159). -/
  | perm (u : Pipe) (a : SrcV) (i : IdxV)
  /-- VLD (R160). -/
  | vld (u : Pipe) (n : Fin 32) (a : SqG) (i : OffV) (inc : Bool)
  /-- VLD_S (R160). -/
  | vldS (u : Pipe) (n : Fin 32) (a : SqG) (i : OffV) (inc : Bool)
  /-- VLD_X (R161). -/
  | vldX (u : Pipe) (n : Fin 32) (a : SqG) (i : IdxV)
  /-- LD_TR (R163). -/
  | ldTr (u : Pipe) (n : Fin 32) (a : SqG) (i : OffV) (inc : Bool)
  /-- BCAST (R159). -/
  | bcast (u : Pipe) (a : SrcV) (n : CntV)
  /-- LROT (R159). -/
  | lrot (u : Pipe) (a : SrcV) (n : CntV)
  /-- VST (R160). -/
  | vst (u : Pipe) (a : SqG) (i : OffV) (inc : Bool)
  /-- VST_S (R160). -/
  | vstS (u : Pipe) (a : SqG) (i : OffV) (inc : Bool)
  /-- VST_X (R161). -/
  | vstX (u : Pipe) (a : SqG) (i : IdxV)
  /-- WROW (R168). -/
  | wrow (u : Pipe) (a : SrcV) (sel : CntV)
  /-- V_LAT_A (R39). -/
  | vLatA (u : Pipe) (a : SrcV)
  /-- V_LAT_AB (R39). -/
  | vLatAb (u : Pipe) (a b : SrcV)
  /-- V_MOV_P (R40). -/
  | vMovP (u : Pipe) (n : Fin 8) (a : SrcV)
  /-- MOV_V (R40). -/
  | movV (u : Pipe) (n : Fin 32) (a : SrcV)
  -- Slot M, and the operand latches of the M, C and K units
  /-- OCLAIM (R171). -/
  | oclaim (n : Fin 32)
  /-- OREL (R171). -/
  | orel (n : Fin 32)
  /-- AZERO (R180). -/
  | azero (n : Fin 64)
  /-- ASCALE (R181). -/
  | ascale (n : Fin 64) (b : SqG)
  /-- APIN (R182). -/
  | apin (n : Fin 64)
  /-- AUNPIN (R182). -/
  | aunpin (n : Fin 64)
  /-- ADRAIN (R185). -/
  | adrain (n : Fin 64) (q : Fin 4)
  /-- ASTAT (R187). -/
  | astat (n : Fin 64)
  /-- MMA (R178). -/
  | mma (f : Fmt) (n : Fin 64) (a b : Fin 32)
  /-- MMZ (R178). -/
  | mmz (f : Fmt) (n : Fin 64) (a b : Fin 32)
  /-- ATO (R183). -/
  | ato (f : Fmt) (m : Mode) (sat : Bool) (o : Fin 32) (n : Fin 64)
  /-- MCK_LAT_A (R39). -/
  | mckLatA (u : MckUnit) (a : Src)
  /-- MCK_LAT_AB (R39). -/
  | mckLatAb (u : MckUnit) (a b : Src)
  -- Slots C0 and C1
  /-- CP_NEST (R194). -/
  | cpNest (e : Eng) (a : SqG)
  /-- CP_MCAST (R200). -/
  | cpMcast (e : Eng) (a : SqG)
  /-- CB_CLAIM (R207). -/
  | cbClaim (e : Eng) (n : Fin 8) (b : SqG)
  /-- CB_COMMIT (R207). -/
  | cbCommit (e : Eng) (n : Fin 8) (b : SqG)
  /-- CB_AWAIT (R207). -/
  | cbAwait (e : Eng) (n : Fin 8) (b : SqG)
  /-- CB_RETIRE (R207). -/
  | cbRetire (e : Eng) (n : Fin 8) (b : SqG)
  /-- BAR_INIT (R211). -/
  | barInit (e : Eng) (a b : SqG)
  /-- BAR_ARRIVE_REL (R212). -/
  | barArriveRel (e : Eng) (a b : SqG)
  /-- BAR_ARRIVE_RLX (R212). -/
  | barArriveRlx (e : Eng) (a b : SqG)
  /-- BAR_DROP (R212). -/
  | barDrop (e : Eng) (a : SqG)
  /-- BAR_TEST (R216). -/
  | barTest (e : Eng) (a : SqG)
  /-- K_SET (R192). -/
  | kSet (e : Eng) (n : Fin 16) (b : SqG)
  /-- K_ADD (R192). -/
  | kAdd (e : Eng) (n : Fin 16) (b : SqG)
  /-- WK_ARM (R218). -/
  | wkArm (e : Eng) (w : Fin 8) (a b : SqG)
  /-- WK_DISARM (R218). -/
  | wkDisarm (e : Eng) (w : Fin 8)
  /-- STASH_PUT (R328). -/
  | stashPut (e : Eng) (a b : SqG)
  /-- STASH_GET (R328). -/
  | stashGet (e : Eng) (a b : SqG)
  /-- STASH_PF (R328). -/
  | stashPf (e : Eng) (a b : SqG)
  /-- STASH_DROP (R328). -/
  | stashDrop (e : Eng) (a b : SqG)
  /-- STASH_FREE (R328). -/
  | stashFree (e : Eng) (a b : SqG)
  /-- WV_COMMIT (R221). -/
  | wvCommit (e : Eng) (a b : SqG)
  -- Slot K
  /-- SEND (R233). -/
  | send (c : Fin 11) (s : SendSrc)
  /-- SEND_M (R234). -/
  | sendM (c : Fin 11) (a : Src)
  /-- CHWIN (R230). -/
  | chwin (c : Fin 11) (b : Src)
  /-- COL_GO (R238). -/
  | colGo (a : Src)
  /-- COL_ABORT (R239). -/
  | colAbort (a : Src)
  /-- GZ_PUT (R240). -/
  | gzPut (a b : Src)
  /-- GZ_DONE (R242). -/
  | gzDone (a : Src)
  /-- TRUST_Q (R243). -/
  | trustQ (a : Src)
  /-- RECV_V (R235). -/
  | recvV (n : Fin 32) (c : Fin 11)
  /-- RECV_G (R235). -/
  | recvG (n : Fin 16) (c : Fin 11)
  /-- GZ_RD (R241). -/
  | gzRd (n : Fin 16) (a : Src)
  /-- RECVADD_F32 (R236). -/
  | recvaddF32 (n : Fin 32) (c : Fin 11)
  -- Events
  /-- INSTRUCTION_FETCH (R113). -/
  | instructionFetch (c : CoreId) (ue : Bool)
  /-- BUNDLE_DECODE (R37). -/
  | bundleDecode (c : CoreId)
  /-- GROUP_ISSUE (R24). -/
  | groupIssue (c : CoreId)
  /-- DEFERRED_SLOT_ACCEPTANCE (R110). -/
  | deferredSlotAcceptance (c : CoreId)
  /-- RESULT_READY (R44). -/
  | resultReady (c : CoreId)
  /-- LOAD_DATA_ARRIVAL (R48). -/
  | loadDataArrival (c : CoreId) (ue : Bool)
  /-- BUNDLE_COMPLETE (R18). -/
  | bundleComplete (c : CoreId)
  /-- TEAM_SAVE (R362). -/
  | teamSave (o : CoreId)
  /-- WATCHDOG_PERIOD (R303). -/
  | watchdogPeriod (c : CoreId)
  /-- WATCHDOG (R303). -/
  | watchdog (c : CoreId)
  /-- MMA_START (R176). -/
  | mmaStart (c : CoreId)
  /-- MMA_FINISH (R178). -/
  | mmaFinish (c : CoreId)
  /-- TILE_OPERATION_FINISH (R175). -/
  | tileOperationFinish (c : CoreId)
  /-- ADRAIN_ROW_PRESENT (R185). -/
  | adrainRowPresent (c : CoreId)
  /-- WROW_LAND (R168). -/
  | wrowLand (c : CoreId)
  /-- ENGINE_COMMAND_START (R195). -/
  | engineCommandStart (c : CoreId) (e : Eng)
  /-- ENGINE_TRANSFER (R198). -/
  | engineTransfer (c : CoreId) (e : Eng) (ue : Bool)
  /-- ENGINE_CB_CLAIM (R208). -/
  | engineCbClaim (c : CoreId) (e : Eng)
  /-- UNIT_COMPLETE (R193). -/
  | unitComplete (c : CoreId) (e : Eng)
  /-- BARRIER_BANK_UPDATE (R213). -/
  | barrierBankUpdate (c : CoreId) (off : BitVec 19)
  /-- MESH_ACCESS_ARRIVAL (R251). -/
  | meshAccessArrival (c : CoreId)
  /-- WAKE_TOKEN_ENQUEUE (R219). -/
  | wakeTokenEnqueue (c : CoreId)
  /-- HOME_ACCESS (R340). -/
  | homeAccess (sl : Fin 1024)
  /-- L2_FILL (R340). -/
  | l2Fill (sl : Fin 1024)
  /-- DIRTY_WRITEBACK (R340). -/
  | dirtyWriteback (line : BitVec 41) (ue : Bool)
  /-- ROUTER_COMBINE (R341). -/
  | routerCombine (sl : Fin 1024) (ia ib : Fin 6)
  /-- PAGE_WALK_START (R349). -/
  | pageWalkStart (d : Die)
  /-- PAGE_WALK_DONE (R349). -/
  | pageWalkDone (d : Die) (ue : Option (Fin 4))
  /-- TLB_INVAL_COMPLETE (R350). -/
  | tlbInvalComplete (x : CtxId)
  /-- LCLK_TICK (R278). -/
  | lclkTick
  /-- HORIZON_ROUND (R279). -/
  | horizonRound
  /-- SC_ATOMIC_PERFORM (R279). -/
  | scAtomicPerform
  /-- WEIGHT_REFRESH_SLOT (R260). -/
  | weightRefreshSlot
  /-- CREDIT_FORWARD (R229). -/
  | creditForward (b : Nat)
  /-- CHANNEL_MESSAGE_DEPART (R232). -/
  | channelMessageDepart (c : CoreId) (ue : Bool)
  /-- MESSAGE_ARRIVAL (R229). -/
  | messageArrival (b ti : Nat) (m : Option Msg)
  /-- MESSAGE_LAND (R229). -/
  | messageLand (b ti : Nat)
  /-- RECEIVE_DELIVERY (R235). -/
  | receiveDelivery (c : CoreId) (ue : Bool)
  /-- BINDING_MEET (R371). -/
  | bindingMeet (b lw lh : Nat)
  /-- FLIT_RETRANSMIT (R373). -/
  | flitRetransmit (p : PortId)
  /-- LINK_RETRAIN (R373). -/
  | linkRetrain (p : PortId)
  /-- LINK_RETRAIN_DONE (R373). -/
  | linkRetrainDone (p : PortId)
  /-- LINK_DOWN (R373). -/
  | linkDown (p : PortId)
  /-- FRAME_RETRANSMIT (R374). -/
  | frameRetransmit (p : PortId) (fate : FrameFate)
  /-- LINK_REKEY (R432). -/
  | linkRekey (p : PortId)
  /-- CHUNK_START (R392). -/
  | chunkStart (x : CtxId) (id : Nat) (chunk : ChunkRead)
  /-- CONTRIBUTION_ARRIVAL (R381). -/
  | contributionArrival (x : CtxId) (id member chunk : Nat) (data : List Byte) (agrees : Bool)
  /-- CHUNK_SUM (R380). -/
  | chunkSum (x : CtxId) (id : Nat) (chunk : ChunkRead)
  /-- CHUNK_RESULT_ARRIVAL (R380). -/
  | chunkResultArrival (x : CtxId) (id chunk : Nat) (data : List Byte) (lost : List Nat)
  /-- MEMBER_LOST (R384). -/
  | memberLost (x : CtxId) (id member : Nat)
  /-- COMPLETION_RECORD_WRITE (R386). -/
  | completionRecordWrite (x : CtxId) (id : Nat)
  /-- ABORT_TOKEN_RECEIVE (R419). -/
  | abortTokenReceive (x : CtxId) (g : Fin 64) (sender : TokenFrom) (step : Word)
  /-- GAZETTEER_CYCLE (R319). -/
  | gazetteerCycle (d : Die)
  /-- ORDERED_FOLD_SWEEP (R318). -/
  | orderedFoldSweep (d : Die)
  /-- RECORD_AGE_PROMOTION (R305). -/
  | recordAgePromotion (d : Die)
  /-- LAUNCH_DISPATCH (R296). -/
  | launchDispatch (d : Die)
  /-- STAGE_REMOVAL (R297). -/
  | stageRemoval (d : Die)
  /-- TEAM_HALT_COMPLETE (R299). -/
  | teamHaltComplete (o : CoreId)
  /-- NOTICE_INTERRUPT (R308). -/
  | noticeInterrupt (x : CtxId)
  /-- DOORBELL (R394). -/
  | doorbell (x : CtxId) (desc : BitVec 512)
  /-- DOORBELL_ENQUEUE (R394). -/
  | doorbellEnqueue (x : CtxId)
  /-- STASH_ACCEPT (R325). -/
  | stashAccept (c : CoreId)
  /-- STASH_SOURCE_READ_DONE (R328). -/
  | stashSourceReadDone (d : Die) (ue : Bool)
  /-- STASH_STORE_DONE (R326). -/
  | stashStoreDone (d : Die)
  /-- STASH_GET_DONE (R327). -/
  | stashGetDone (d : Die) (ue : Bool)
  /-- STASH_FETCH_DONE (R333). -/
  | stashFetchDone (d : DieRead)
  /-- STASH_RECORD_INSERT (R331). -/
  | stashRecordInsert (d : Die)
  /-- WV_COMMIT_APPLY (R336). -/
  | wvCommitApply (c : CoreId)
  /-- PATROL_SCRUB (R415). -/
  | patrolScrub (d : Die) (t : ScrubTarget) (r : ScrubResult)
  /-- POWER_ON (R444). -/
  | powerOn (b : BootEvent)
  /-- ISLAND_FREQ_CHANGE_DONE (R440). -/
  | islandFreqChangeDone (i : Fin 128)
  /-- POWER_MANAGER_PERIOD (R442). -/
  | powerManagerPeriod (watts : Nat)
  /-- DROOP_STRETCH (R443). -/
  | droopStretch (i : Fin 128) (depthMv : Nat)
  /-- THERMAL_CAP (R443). -/
  | thermalCap (i : Fin 128)
  /-- ISLAND_COOLS (R443). -/
  | islandCools (i : Fin 128)
  /-- THERMAL_TRIP (R443). -/
  | thermalTrip
  /-- SURVEY_HOURLY (R445). -/
  | surveyHourly
  /-- SURVEY_SHUTDOWN (R445). -/
  | surveyShutdown
  /-- POWER_FAIL (R445). -/
  | powerFail
  /-- HOST_DMA (R434). -/
  | hostDma (pa : BitVec 48) (len : Nat) (op : DmaOp)
  /-- LOAD (R427): the host's request, or, with no offset, the end of the load in progress. -/
  | load (off : Option Word) (len : Word)
  /-- GET_VERSION (R429). -/
  | getVersion
  /-- GET_CAPABILITIES (R429). -/
  | getCapabilities
  /-- NEGOTIATE_ALGORITHMS (R429). -/
  | negotiateAlgorithms (peer : Nat) (rsa sha : Bool) (offer : SessOffer)
  /-- GET_DIGESTS (R429). -/
  | getDigests
  /-- GET_CERTIFICATE (R423). -/
  | getCertificate (slot : Fin 8)
  /-- CHALLENGE (R429). -/
  | challenge (nonce : BitVec 256)
  /-- GET_MEASUREMENTS (R428). -/
  | getMeasurements (idx : BitVec 8) (signed : Bool)
  /-- KEY_EXCHANGE (R429): with the peer's certificate chain where both sides authenticate. -/
  | keyExchange (peer : Nat) (role : PeerRole) (auth : Option (List Byte))
  /-- FINISH (R429). -/
  | finish (m : FinishMsg)
  /-- HEARTBEAT (R429). -/
  | heartbeat (sess : Nat)
  /-- KEY_UPDATE (R432). -/
  | keyUpdate (sess : Nat)
  /-- END_SESSION (R429). -/
  | endSession (sess : Nat)
  /-- SPDM_UNSUPPORTED_REQUEST (R429). -/
  | spdmUnsupportedRequest (code : BitVec 8)
  /-- SET_JOB_KEY (R430). -/
  | setJobKey (sess : Nat) (key : BitVec 256)
  /-- SET_IMAGE_KEY (R430). -/
  | setImageKey (sess : Nat) (slot : Fin 4) (key : BitVec 4096)
  /-- SET_TRUST_ANCHOR (R430). -/
  | setTrustAnchor (sess : Nat) (cert : List Byte)
  /-- SET_REFERENCE (R430). -/
  | setReference (sess : Nat) (idx : BitVec 8) (digest : BitVec 512)
  /-- RELEASE (R430). -/
  | release (sess : Nat)
  /-- SWITCH_ADMIT (R435). -/
  | switchAdmit (serial : Word) (root : List Byte) (meas : List (Nat × BitVec 512)) (ack : Bool)
  /-- PATH_FIRST_EVALUATION (R438). -/
  | pathFirstEvaluation (p : Fin 1024)
  /-- SWITCH_WITHDRAW (R436). -/
  | switchWithdraw (w : Withdrawal)
  /-- SWITCH_SESSION_CLOSE (R436). -/
  | switchSessionClose (serial : Word)
  /-- MCTAIL_WRITE (R447). -/
  | mctailWrite (v : Word)
  /-- MC_RING_CONFIG_WRITE (R447). -/
  | mcRingConfigWrite (size : Bool) (v : Word)
  /-- HOST_REGISTER_WRITE (R394). -/
  | hostRegisterWrite (r : HostReg) (v : Word)
  /-- MC_UNKNOWN_COMMAND (R449). -/
  | mcUnknownCommand
  /-- CTX_CREATE (R449). -/
  | ctxCreate
  /-- CTX_DESTROY (R449). -/
  | ctxDestroy
  /-- CTX_SET_PAGE_TABLE_ROOT (R347). -/
  | ctxSetPageTableRoot
  /-- CTX_SET_SAVE_REGION (R364). -/
  | ctxSetSaveRegion
  /-- CTX_SET_STASH_REGION (R324). -/
  | ctxSetStashRegion
  /-- CTX_SET_SPILL_REGION (R324). -/
  | ctxSetSpillRegion
  /-- CTX_SET_UNDO_REGION (R420). -/
  | ctxSetUndoRegion
  /-- CTX_SET_POL (R417). -/
  | ctxSetPol
  /-- CTX_SET_WATCHDOG_LIMIT (R303). -/
  | ctxSetWatchdogLimit
  /-- CTX_SET_LOCK_QUOTA (R342). -/
  | ctxSetLockQuota
  /-- CTX_SET_TVEC (R355). -/
  | ctxSetTvec
  /-- CTX_SET_SAVE_STRIDE (R364). -/
  | ctxSetSaveStride
  /-- DIE_SET_WAY_QUOTA (R343). -/
  | dieSetWayQuota
  /-- DIE_SET_SCRUB_RATE (R415). -/
  | dieSetScrubRate
  /-- FWIN_WRITE (R344). -/
  | fwinWrite
  /-- BIND (R371). -/
  | bind
  /-- UNBIND (R371). -/
  | unbind
  /-- GROUP_WRITE (R377). -/
  | groupWrite
  /-- PATH_DEFINE (R438). -/
  | pathDefine
  /-- PATH_REMOVE (R438). -/
  | pathRemove
  /-- TLB_INVAL (R350). -/
  | tlbInval
  /-- WV_SET (R335). -/
  | wvSet
  /-- STOP (R360). -/
  | stop
  /-- RESUME (R367). -/
  | resume
  /-- FATAL (R418). -/
  | fatal
  /-- ABORT_CLOSE (R419). -/
  | abortClose
  /-- DISCARD (R449). -/
  | discard
  /-- GZ_PURGE (R297). -/
  | gzPurge
  /-- STASH_PURGE (R449). -/
  | stashPurge
  /-- LOCK_PURGE (R342). -/
  | lockPurge
  /-- FLOG_READ (R414). -/
  | flogRead
  /-- FLOG_CLEAR (R414). -/
  | flogClear
  /-- SURVEY_READ (R446). -/
  | surveyRead
  /-- SURVEY_SNAPSHOT (R446). -/
  | surveySnapshot
  /-- ISL_FREQ (R440). -/
  | islFreq
  /-- PLIM_SET (R442). -/
  | plimSet
  /-- PORT_SET_RING_MODE (R374). -/
  | portSetRingMode
  /-- PORT_SET_UDP_PORT (R374). -/
  | portSetUdpPort
  /-- PORT_SET_RTT_TIMER (R374). -/
  | portSetRttTimer
  /-- PORT_SET_REKEY_INTERVAL (R432). -/
  | portSetRekeyInterval
  /-- PORT_SET_OVERFLOW_STAGING (R381). -/
  | portSetOverflowStaging
  /-- PORT_SET_HEARTBEAT (R436). -/
  | portSetHeartbeat
  /-- LINK_RESET (R373). -/
  | linkReset
  /-- MODULE_RESET (R444). -/
  | moduleReset
  /-- CBDEF_WRITE (R206). -/
  | cbdefWrite (c : CoreId) (n : Fin 8) (v : Word)
  /-- CBPTR_WRITE (R206). -/
  | cbptrWrite (c : CoreId) (n : Fin 8) (v : Word)
  /-- ESTAT_WRITE (R204). -/
  | estatWrite (c : CoreId) (e : Eng) (v : Word)
  /-- STSTAT_WRITE (R329). -/
  | ststatWrite (c : CoreId) (v : Word)
  /-- SEED_WRITE (R55). -/
  | seedWrite (c : CoreId) (v : Word)
  deriving DecidableEq, Repr

end Sys2Proof
end

