-- ==== Sys2Proof/Decode.lean ====
section
/-! DEFINITION. Bundles and slot fields as bits: what each port accepts (R92 to R101), the checks of a bundle in their
four stages (R37), the instructions that fields stand for, and the encoder, from the same tables. -/
namespace Sys2Proof

/-! ### Bytes and fields -/

/-- Little-endian value of a list of bytes (R6). -/
def leNat : List Byte → Nat
  | [] => 0
  | b :: bs => b.toNat + 256 * leNat bs

/-- The `n` little-endian bytes of a number. -/
def leBytes : Nat → Nat → List Byte
  | 0, _ => []
  | n + 1, x => BitVec.ofNat 8 x :: leBytes n (x / 256)

/-- PORT, SA and SB of a field (R16). -/
def portOf (f : BitVec 24) : BitVec 8 := f.extractLsb' 0 8
/-- See `portOf`. -/
def saOf (f : BitVec 24) : BitVec 8 := f.extractLsb' 8 8
/-- See `portOf`. -/
def sbOf (f : BitVec 24) : BitVec 8 := f.extractLsb' 16 8
/-- A field from its three bytes (R16). -/
def mkField (port sa sb : BitVec 8) : BitVec 24 := sb ++ sa ++ port

/-! ### What a source byte is -/

/-- A value of the B, S and K map (R49). -/
inductive SpecS where
  | src (s : Src)
  | tq (q : Fin 4)
  | ch (c : Fin 11)
  | reserved
  deriving DecidableEq, Repr

/-- A value of the V map (R50). -/
inductive SpecV where
  | src (s : SrcV)
  | reserved
  deriving DecidableEq, Repr

/-- A value of the M and C map (R53). -/
inductive SpecM where
  | ac (n : Fin 64)
  | ob (n : Fin 32)
  | k (n : Fin 16)
  | cb (n : Fin 8)
  | tq (n : Fin 4)
  | sg (s : SqG)
  | reserved
  deriving DecidableEq, Repr

/-- The low bits of a byte as a number below `n`. -/
def lowFin (n : Nat) [NeZero n] (b : BitVec 8) : Fin n := Fin.ofNat n b.toNat

/-- The map of R49. -/
def specS (b : BitVec 8) : SpecS :=
  let x := b.toNat
  if x < 0x10 then .src (.sq (lowFin 16 b))
  else if x < 0x20 then .src (.g (lowFin 16 b))
  else if x < 0x28 then
    match x with
    | 0x20 => .src .tx
    | 0x21 => .src .ty
    | 0x22 => .src .tw
    | 0x23 => .src .th
    | 0x24 => .src .tag
    | 0x25 => .src .step
    | 0x26 => .src .rng
    | _ => .src .zero
  else if x < 0x30 then .src (.p (lowFin 8 b))
  else if x < 0x34 then .tq (lowFin 4 b)
  else if x < 0x3F then .ch (Fin.ofNat 11 (x - 0x34))
  else if x < 0x80 then .reserved
  else .src (.imm (b.extractLsb' 0 7))

/-- The map of R50. -/
def specV (b : BitVec 8) : SpecV :=
  let x := b.toNat
  if x < 0x10 then .src (.vq (lowFin 16 b))
  else if x < 0x30 then .src (.v (Fin.ofNat 32 (x - 0x10)))
  else if x < 0x40 then .src (.sq (lowFin 16 b))
  else if x < 0x50 then .src (.g (lowFin 16 b))
  else if x < 0x58 then .src (.p (lowFin 8 b))
  else if x < 0x5E then
    match x with
    | 0x58 => .src .lane
    | 0x59 => .src .rng
    | 0x5A => .src .tx
    | 0x5B => .src .ty
    | 0x5C => .src .tag
    | _ => .src .zero
  else if x < 0x60 then .reserved
  else if x < 0x64 then .src (.tq (lowFin 4 b))
  else if x < 0xE0 then .reserved
  else .src (.imm (b.extractLsb' 0 5))

/-- The map of R53. -/
def specM (b : BitVec 8) : SpecM :=
  let x := b.toNat
  if x < 0x40 then .ac (lowFin 64 b)
  else if x < 0x60 then .ob (lowFin 32 b)
  else if x < 0x70 then .k (lowFin 16 b)
  else if x < 0x78 then .cb (lowFin 8 b)
  else if x < 0x7C then .tq (lowFin 4 b)
  else if x < 0x80 then .reserved
  else if x < 0x90 then .sg (.sq (lowFin 16 b))
  else if x < 0xA0 then .sg (.g (lowFin 16 b))
  else .reserved

/-! ### What a port accepts -/

/-- What a source field of an operation holds (R93, R94, R144, R223). -/
inductive FK where
  /-- Not used (R16). -/
  | ign
  /-- A literal with every value legal. -/
  | lit
  | litCounter
  | litWord
  | litStreams
  | litReturn
  | litMode
  | litRed
  | litScan
  /-- B, S and K values; `kval` in slot K, where tile queues and channels are another kind. -/
  | val
  | kval
  | klat
  | ch
  | send
  /-- V fields. -/
  | vval
  | vbase
  | voff
  | vidx
  | vcnt
  /-- M and C fields. -/
  | ac
  | ob
  | kctr
  | cb
  | tq
  | sg
  deriving DecidableEq, Repr

/-- What mode 11 does to an operation (R22). -/
inductive Delta where
  | none
  /-- The name in SA, or in SB, steps by one. -/
  | sa
  | sb
  /-- The base g register is increased by the access size. -/
  | mem
  deriving DecidableEq, Repr

/-- The fields and delta of a port. -/
structure PortInfo where
  a : FK := .ign
  b : FK := .ign
  d : Delta := .none
  deriving DecidableEq, Repr

/-- R96; `sysret` is decoded only in a handler (R124). -/
def infoB (tm : Bool) (p : Nat) : Option PortInfo :=
  if p = 0 then some {}
  else if p ≤ 4 then some { a := .lit, b := .lit }
  else if p ≤ 6 then some { a := .val }
  else if p = 8 ∨ p = 9 then some { a := .val }
  else if p = 0x10 then some { a := .litCounter, b := .val }
  else if p = 0x11 then some { a := .val, b := .val }
  else if p = 0x12 ∨ p = 0x18 then some {}
  else if p = 0x19 then some { a := .lit }
  else if p = 0x1A then (if tm then some {} else none)
  else if 0x20 ≤ p ∧ p ≤ 0x23 then some {}
  else if p = 0x24 then some { a := .litStreams }
  else if p = 0x28 ∨ p = 0x2A then some { a := .val }
  else if p = 0x29 then some {}
  else if p = 0x30 then some { a := .litWord }
  else if p = 0x31 then some { a := .litWord, b := .val }
  else none

/-- R97. -/
def infoS (p : Nat) : Option PortInfo :=
  if p = 0 then none
  else if p ≤ 2 then some { a := .lit, b := .lit }
  else if p = 3 then some { a := .val }
  else if p = 4 then some { a := .val, b := .val }
  else if 0x08 ≤ p ∧ p ≤ 0x0E then some { a := .val, b := .val }
  else if 0x10 ≤ p ∧ p ≤ 0x17 then some { a := .val, b := .val }
  else if p = 0x18 ∨ p = 0x19 then some { a := .val }
  else if 0x1C ≤ p ∧ p ≤ 0x25 then some { a := .val, b := .val }
  else if 0x30 ≤ p ∧ p ≤ 0x33 then some { a := .val, b := .val, d := .mem }
  else if 0x40 ≤ p ∧ p ≤ 0x6B then some { a := .val, b := .litReturn }
  else if p = 0x6C ∨ p = 0x6D then some { a := .val, b := .val }
  else if p = 0x6E then some { a := .val }
  else if 0x70 ≤ p ∧ p ≤ 0xDF then some { a := .val, b := .val, d := .mem }
  else if p = 0xE6 then some { a := .val }
  else if p = 0xE7 then some { a := .val, b := .val }
  else if 0xE8 ≤ p ∧ p ≤ 0xFF then some { a := .val }
  else none

/-- R98. -/
def infoV (p : Nat) : Option PortInfo :=
  if p = 0 then none
  else if p ≤ 0x12 then some { a := .vval, b := .vval }
  else if p ≤ 0x16 then some { a := .vval }
  else if p = 0x17 then none
  else if p ≤ 0x2E then some { a := .vval, b := .vval }
  else if p ≤ 0x35 then some { a := .vval }
  else if p ≤ 0x3B then some { a := .vval, b := .litMode }
  else if p ≤ 0x44 then some { a := .vval }
  else if p ≤ 0x47 then some { a := .vval, b := .litMode }
  else if p ≤ 0x4A then some { a := .vval }
  else if p ≤ 0x4C then some { a := .vval, b := .litRed }
  else if p ≤ 0x4E then some { a := .vval, b := .litScan }
  else if p = 0x4F then some { a := .vval, b := .vidx }
  else if p ≤ 0x8F then some { a := .vbase, b := .voff, d := .mem }
  else if p ≤ 0xAF then some { a := .vbase, b := .vidx }
  else if p ≤ 0xCF then some { a := .vbase, b := .voff, d := .mem }
  else if p ≤ 0xD1 then some { a := .vval, b := .vcnt }
  else if p ≤ 0xD3 then some { a := .vbase, b := .voff, d := .mem }
  else if p = 0xD4 then some { a := .vbase, b := .vidx }
  else if p = 0xD5 then some { a := .vval, b := .vcnt }
  else if p = 0xD6 then some { a := .vval }
  else if p = 0xD7 then some { a := .vval, b := .vval }
  else some { a := .vval }

/-- R99. -/
def infoM (p : Nat) : Option PortInfo :=
  if p = 1 ∨ p = 2 then some { a := .ob, d := .sa }
  else if p = 0x08 ∨ p = 0x0A ∨ p = 0x0B ∨ p = 0x0D then some { a := .ac, d := .sa }
  else if p = 0x09 then some { a := .ac, b := .sg, d := .sa }
  else if p = 0x0C then some { a := .ac, b := .tq, d := .sa }
  else if 0x40 ≤ p ∧ p ≤ 0x7F then some { a := .ac, b := .lit, d := .sa }
  else if 0x80 ≤ p ∧ p ≤ 0xCF then some { a := .ac, b := .ob, d := .sb }
  else if p = 0xFE then some { a := .sg }
  else if p = 0xFF then some { a := .sg, b := .sg }
  else none

/-- R100. -/
def infoC (p : Nat) : Option PortInfo :=
  if p = 1 ∨ p = 2 then some { a := .sg }
  else if 0x08 ≤ p ∧ p ≤ 0x0B then some { a := .cb, b := .sg, d := .sa }
  else if 0x10 ≤ p ∧ p ≤ 0x12 then some { a := .sg, b := .sg }
  else if p = 0x13 ∨ p = 0x14 then some { a := .sg }
  else if p = 0x18 ∨ p = 0x19 then some { a := .kctr, b := .sg, d := .sa }
  else if 0x20 ≤ p ∧ p ≤ 0x27 then some { a := .sg, b := .sg }
  else if 0x28 ≤ p ∧ p ≤ 0x2F then some {}
  else if 0x30 ≤ p ∧ p ≤ 0x34 then some { a := .sg, b := .sg }
  else if p = 0x38 then some { a := .sg, b := .sg }
  else if p = 0xFE then some { a := .sg }
  else if p = 0xFF then some { a := .sg, b := .sg }
  else none

/-- R101. DEDUCED (log entry 86): `send` and `send.m` take the sources that R223 gives them, where the table lists fewer kinds. -/
def infoK (p : Nat) : Option PortInfo :=
  if p = 1 then some { a := .ch, b := .send }
  else if p = 2 then some { a := .ch, b := .kval }
  else if p = 8 then some { a := .ch, b := .kval }
  else if p = 0x10 ∨ p = 0x11 ∨ p = 0x19 ∨ p = 0x1A then some { a := .kval }
  else if p = 0x18 then some { a := .kval, b := .kval }
  else if 0x40 ≤ p ∧ p ≤ 0x6F then some { a := .ch }
  else if 0x70 ≤ p ∧ p ≤ 0x7F then some { a := .kval }
  else if 0x80 ≤ p ∧ p ≤ 0x9F then some { a := .ch }
  else if p = 0xFE then some { a := .klat }
  else if p = 0xFF then some { a := .klat, b := .klat }
  else none

/-- The port of a slot (R13). -/
def portInfo (tm : Bool) (slot p : Nat) : Option PortInfo :=
  match slot with
  | 0 => infoB tm p
  | 1 => infoS p
  | 2 => infoV p
  | 3 => infoV p
  | 4 => infoM p
  | 5 => infoC p
  | 6 => infoC p
  | 7 => infoK p
  | _ => none

/-- The code a field fails with, 0x04 or 0x05, if it does (R37, R94). -/
def fieldErr (fk : FK) (b : BitVec 8) : Option (BitVec 8) :=
  let lit (ok : Bool) : Option (BitVec 8) := if ok then none else some 0x04
  let sMap (ok : SpecS → Bool) : Option (BitVec 8) :=
    if specS b = .reserved then some 0x04 else if ok (specS b) then none else some 0x05
  let vMap (ok : SrcV → Bool) : Option (BitVec 8) :=
    match specV b with
    | .reserved => some 0x04
    | .src s => if ok s then none else some 0x05
  let mMap (ok : SpecM → Bool) : Option (BitVec 8) :=
    if specM b = .reserved then some 0x04 else if ok (specM b) then none else some 0x05
  match fk with
  | .ign => none
  | .lit => none
  | .litCounter => lit (b.toNat < 16)
  | .litWord => lit (b.toNat < 64)
  | .litStreams => lit (1 ≤ b.toNat && b.toNat < 8)
  | .litReturn => lit (b.toNat < 32)
  | .litMode => lit (b.toNat < 16 && b.toNat % 8 < 5)
  | .litRed => lit (b.toNat < 3)
  | .litScan => lit (b.toNat < 8 && b.toNat % 4 < 3)
  | .val => match specS b with
    | .src _ => none
    | _ => some 0x04
  | .kval => sMap fun s => match s with
    | .src _ => true
    | _ => false
  | .klat => sMap fun s => match s with
    | .src (.p _) => false
    | .src _ => true
    | _ => false
  | .ch => sMap fun s => match s with
    | .ch _ => true
    | _ => false
  | .send => sMap fun s => match s with
    | .ch _ => false
    | _ => true
  | .vval => vMap fun _ => true
  | .vbase => vMap fun s => match s with
    | .sq _ => true
    | .g _ => true
    | _ => false
  | .voff => vMap fun s => match s with
    | .sq _ => true
    | .g _ => true
    | .imm _ => true
    | .zero => true
    | _ => false
  | .vidx => vMap fun s => match s with
    | .vq _ => true
    | .v _ => true
    | .tq _ => true
    | _ => false
  | .vcnt => vMap fun s => match s with
    | .sq _ => true
    | .g _ => true
    | .imm _ => true
    | _ => false
  | .ac => mMap fun s => match s with
    | .ac _ => true
    | _ => false
  | .ob => mMap fun s => match s with
    | .ob _ => true
    | _ => false
  | .kctr => mMap fun s => match s with
    | .k _ => true
    | _ => false
  | .cb => mMap fun s => match s with
    | .cb _ => true
    | _ => false
  | .tq => mMap fun s => match s with
    | .tq _ => true
    | _ => false
  | .sg => mMap fun s => match s with
    | .sg _ => true
    | _ => false

/-- The first of the codes 0x03, 0x04 and 0x05 that a field of a slot fails with (R37). -/
def slotErr (tm : Bool) (slot : Nat) (f : BitVec 24) : Option (BitVec 8) :=
  match portInfo tm slot (portOf f).toNat with
  | none => some 0x03
  | some i =>
    match fieldErr i.a (saOf f), fieldErr i.b (sbOf f) with
    | some 0x04, _ => some 0x04
    | _, some 0x04 => some 0x04
    | some c, _ => some c
    | none, e => e

/-! ### The instruction of a legal field -/

/-- See `specS`; zero where the byte is no value. -/
def srcOf (b : BitVec 8) : Src :=
  match specS b with
  | .src s => s
  | _ => .zero

/-- The source of a `send`. -/
def sendOf (b : BitVec 8) : SendSrc :=
  match specS b with
  | .src s => .src s
  | .tq q => .tq q
  | _ => .src .zero

/-- The channel of a K field. -/
def chOf (b : BitVec 8) : Fin 11 :=
  match specS b with
  | .ch c => c
  | _ => 0

/-- See `specV`. -/
def srcVOf (b : BitVec 8) : SrcV :=
  match specV b with
  | .src s => s
  | .reserved => .zero

/-- The base of a V memory operation. -/
def vbaseOf (b : BitVec 8) : SqG :=
  match specV b with
  | .src (.g n) => .g n
  | _ => .sq (lowFin 16 b)

/-- The index, stride or pitch of a V memory operation. -/
def voffOf (b : BitVec 8) : OffV :=
  match specV b with
  | .src (.sq a) => .sq a
  | .src (.g n) => .g n
  | .src (.imm v) => .imm v
  | _ => .zero

/-- An index vector. -/
def vidxOf (b : BitVec 8) : IdxV :=
  match specV b with
  | .src (.v n) => .v n
  | .src (.tq q) => .tq q
  | _ => .vq (lowFin 16 b)

/-- A lane count or selector. -/
def vcntOf (b : BitVec 8) : CntV :=
  match specV b with
  | .src (.g n) => .g n
  | .src (.imm v) => .imm v
  | _ => .sq (lowFin 16 b)

/-- The scalar of an M or C field. -/
def sgOf (b : BitVec 8) : SqG :=
  match specM b with
  | .sg s => s
  | _ => .sq 0

/-- The scalar of an M or C latch write, as a value of the common type. -/
def sgSrc (b : BitVec 8) : Src :=
  match sgOf b with
  | .sq a => .sq a
  | .g n => .g n

/-- The mode and `.sat` of a mode literal (R94, R95). -/
def modeOf (n : Nat) : Mode :=
  match n with
  | 0 => .dflt
  | 1 => .rn
  | 2 => .rna
  | 3 => .rz
  | _ => .sr

/-- Format f of R95. -/
def fmtOf (n : Nat) : Fmt :=
  match n with
  | 0 => .bf16
  | 1 => .f16
  | 2 => .e4m3
  | 3 => .e5m2
  | 4 => .i8
  | 5 => .nx7
  | 6 => .nx4
  | _ => .nx2

/-- The operator of a reduce literal (R94). -/
def redOf (b : BitVec 8) : RedOp :=
  match b.toNat % 4 with
  | 0 => .add
  | 1 => .max
  | _ => .min

/-- The order of an atomic (R97). -/
def ordOf (n : Nat) : AmoOrd :=
  match n with
  | 0 => .rlx
  | 1 => .acq
  | 2 => .rel
  | _ => .sc

/-- The register a `return` literal names (R94). -/
def retOf (b : BitVec 8) : Option (Fin 16) := if 16 ≤ b.toNat then some (lowFin 16 b) else none

/-- The operation of a legal field of slot B. -/
def instrB (p : Nat) (sa sb : BitVec 8) : Instr :=
  match p with
  | 0x01 => .br (sb ++ sa)
  | 0x02 => .bz (sb ++ sa)
  | 0x03 => .bnz (sb ++ sa)
  | 0x04 => .call (sb ++ sa)
  | 0x05 => .ret (srcOf sa)
  | 0x06 => .jr (srcOf sa)
  | 0x08 => .loop (srcOf sa)
  | 0x09 => .loopn (srcOf sa)
  | 0x10 => .waitLt (lowFin 16 sa) (srcOf sb)
  | 0x11 => .waitBar (srcOf sa) (srcOf sb)
  | 0x12 => .waitWake
  | 0x18 => .halt
  | 0x19 => .trap sa
  | 0x1A => .sysret
  | 0x20 => .fence .core
  | 0x21 => .fence .die
  | 0x22 => .fence .mod
  | 0x23 => .fence .sys
  | 0x24 => .sbar (sa.getLsbD 0) (sa.getLsbD 1) (sa.getLsbD 2)
  | 0x28 => .ckpt (srcOf sa)
  | 0x29 => .nextTile
  | 0x2A => .launch (srcOf sa)
  | 0x30 => .sysrd (lowFin 64 sa)
  | 0x31 => .syswr (lowFin 64 sa) (srcOf sb)
  | _ => .nop

/-- The atomics of ports 0x40..0x6B (R97). -/
def instrAmo (k : Nat) (sa sb : BitVec 8) : Instr :=
  let o := ordOf (k % 4)
  let a := srcOf sa
  let r := retOf sb
  match k / 4 with
  | 0 => .amoAddI64 o a r
  | 1 => .amoAnd o a r
  | 2 => .amoOr o a r
  | 3 => .amoXor o a r
  | 4 => .amoMinI64 o a r
  | 5 => .amoMaxI64 o a r
  | 6 => .amoMinN64 o a r
  | 7 => .amoMaxN64 o a r
  | 8 => .amoSwap o a r
  | 9 => .amoCas o a r
  | _ => .amoFaddF32 o a r

/-- The loads of ports 0x70..0xDF (R97). -/
def instrLd (k : Nat) (sa sb : BitVec 8) (inc : Bool) : Instr :=
  let n : Fin 16 := Fin.ofNat 16 (k % 16)
  let a := srcOf sa
  let b := srcOf sb
  match k / 16 with
  | 0 => .ldI8 n a b inc
  | 1 => .ldN8 n a b inc
  | 2 => .ldI16 n a b inc
  | 3 => .ldN16 n a b inc
  | 4 => .ldI32 n a b inc
  | 5 => .ldN32 n a b inc
  | _ => .ldN64 n a b inc

/-- The operation of a legal field of slot S. -/
def instrS (p : Nat) (sa sb : BitVec 8) (inc : Bool) : Instr :=
  let a := srcOf sa
  let b := srcOf sb
  if 0xF0 ≤ p then .movG (Fin.ofNat 16 (p - 0xF0)) a
  else if 0xE8 ≤ p then .sMovP (Fin.ofNat 8 (p - 0xE8)) a
  else if p = 0xE7 then .sLatAb a b
  else if p = 0xE6 then .sLatA a
  else if 0x70 ≤ p then instrLd (p - 0x70) sa sb inc
  else if p = 0x6E then .pref a
  else if p = 0x6D then .unlockL2 a b
  else if p = 0x6C then .lockL2 a b
  else if 0x40 ≤ p then instrAmo (p - 0x40) sa sb
  else
    match p with
    | 0x01 => .li (sb ++ sa)
    | 0x02 => .lih (sb ++ sa)
    | 0x04 => .sSel a b
    | 0x08 => .addI64 a b
    | 0x09 => .subI64 a b
    | 0x0A => .mulI64 a b
    | 0x0B => .mulhI64 a b
    | 0x0C => .mulhN64 a b
    | 0x0D => .divI64 a b
    | 0x0E => .divN64 a b
    | 0x10 => .sAnd a b
    | 0x11 => .sOr a b
    | 0x12 => .sXor a b
    | 0x13 => .sAndn a b
    | 0x14 => .sShl a b
    | 0x15 => .shrN64 a b
    | 0x16 => .shrI64 a b
    | 0x17 => .rotl a b
    | 0x18 => .clz a
    | 0x19 => .popc a
    | 0x1C => .minI64 a b
    | 0x1D => .minN64 a b
    | 0x1E => .maxI64 a b
    | 0x1F => .maxN64 a b
    | 0x20 => .ceq a b
    | 0x21 => .cne a b
    | 0x22 => .cltI64 a b
    | 0x23 => .cltN64 a b
    | 0x24 => .cleI64 a b
    | 0x25 => .cleN64 a b
    | 0x30 => .st .n8 a b inc
    | 0x31 => .st .n16 a b inc
    | 0x32 => .st .n32 a b inc
    | 0x33 => .st .n64 a b inc
    | _ => .sMov a

/-- The operations of V ports 0x01..0x2E: two sources, but for 0x13..0x16. -/
def instrVArith (u : Pipe) (p : Nat) (a b : SrcV) : Instr :=
  match p with
  | 0x01 => .addF32 u a b
  | 0x02 => .addBf16 u a b
  | 0x03 => .addF16 u a b
  | 0x04 => .subF32 u a b
  | 0x05 => .subBf16 u a b
  | 0x06 => .subF16 u a b
  | 0x07 => .mulF32 u a b
  | 0x08 => .mulBf16 u a b
  | 0x09 => .mulF16 u a b
  | 0x0A => .fmaF32 u a b
  | 0x0B => .fmaBf16 u a b
  | 0x0C => .fmaF16 u a b
  | 0x0D => .minF32 u a b
  | 0x0E => .minBf16 u a b
  | 0x0F => .minF16 u a b
  | 0x10 => .maxF32 u a b
  | 0x11 => .maxBf16 u a b
  | 0x12 => .maxF16 u a b
  | 0x13 => .rcpF32 u a
  | 0x14 => .rsqrtF32 u a
  | 0x15 => .exp2F32 u a
  | 0x16 => .log2F32 u a
  | 0x18 => .addI32 u a b
  | 0x19 => .subI32 u a b
  | 0x1A => .mulI32 u a b
  | 0x1B => .addSatI32 u a b
  | 0x1C => .subSatI32 u a b
  | 0x1D => .minI32 u a b
  | 0x1E => .minN32 u a b
  | 0x1F => .maxI32 u a b
  | 0x20 => .maxN32 u a b
  | 0x21 => .vAnd u a b
  | 0x22 => .vOr u a b
  | 0x23 => .vXor u a b
  | 0x24 => .vAndn u a b
  | 0x25 => .vShl u a b
  | 0x26 => .shrN32 u a b
  | 0x27 => .shrI32 u a b
  | 0x28 => .ceqF32 u a b
  | 0x29 => .cltF32 u a b
  | 0x2A => .cleF32 u a b
  | 0x2B => .ceqI32 u a b
  | 0x2C => .cltI32 u a b
  | 0x2D => .cltN32 u a b
  | 0x2E => .vSel u a b
  | _ => .vMov u a

/-- The conversions, packs, reductions and scans of V ports 0x2F..0x4F. -/
def instrVConv (u : Pipe) (p : Nat) (a : SrcV) (sb : BitVec 8) : Instr :=
  let m := modeOf (sb.toNat % 8)
  let s := sb.getLsbD 3
  match p with
  | 0x30 => .cvt u .bf16 a
  | 0x31 => .cvt u .f16 a
  | 0x32 => .cvt u .e4m3 a
  | 0x33 => .cvt u .e5m2 a
  | 0x34 => .cvt u .i32 a
  | 0x35 => .cvt u .i8 a
  | 0x36 => .cvtBf16F32Mode u a m s
  | 0x37 => .cvtF16F32Mode u a m s
  | 0x38 => .cvtE4m3F32Mode u a m s
  | 0x39 => .cvtE5m2F32Mode u a m s
  | 0x3A => .cvtI32F32Mode u a m s
  | 0x3B => .cvtI8F32Mode u a m s
  | 0x3C => .cvtF32Bf16 u a
  | 0x3D => .cvtF32F16 u a
  | 0x3E => .cvtF32E4m3 u a
  | 0x3F => .cvtF32E5m2 u a
  | 0x40 => .cvtF32I32 u a
  | 0x41 => .cvtF32I8 u a
  | 0x42 => .packNx2 u a
  | 0x43 => .packNx4 u a
  | 0x44 => .packNx7 u a
  | 0x45 => .packNx2Mode u a m s
  | 0x46 => .packNx4Mode u a m s
  | 0x47 => .packNx7Mode u a m s
  | 0x48 => .unpkNx2 u a
  | 0x49 => .unpkNx4 u a
  | 0x4A => .unpkNx7 u a
  | 0x4B => .redF32 u a (redOf sb)
  | 0x4C => .redI32 u a (redOf sb)
  | 0x4D => .scanF32 u a (redOf sb) (sb.getLsbD 2)
  | 0x4E => .scanI32 u a (redOf sb) (sb.getLsbD 2)
  | 0x4F => .perm u a (vidxOf sb)
  | _ => .vMov u a

/-- The operation of a legal field of slot V0 or V1. -/
def instrV (u : Pipe) (p : Nat) (sa sb : BitVec 8) (inc : Bool) : Instr :=
  if p < 0x2F then instrVArith u p (srcVOf sa) (srcVOf sb)
  else if p < 0x50 then instrVConv u p (srcVOf sa) sb
  else if p < 0x70 then .vld u (Fin.ofNat 32 (p - 0x50)) (vbaseOf sa) (voffOf sb) inc
  else if p < 0x90 then .vldS u (Fin.ofNat 32 (p - 0x70)) (vbaseOf sa) (voffOf sb) inc
  else if p < 0xB0 then .vldX u (Fin.ofNat 32 (p - 0x90)) (vbaseOf sa) (vidxOf sb)
  else if p < 0xD0 then .ldTr u (Fin.ofNat 32 (p - 0xB0)) (vbaseOf sa) (voffOf sb) inc
  else if p = 0xD0 then .bcast u (srcVOf sa) (vcntOf sb)
  else if p = 0xD1 then .lrot u (srcVOf sa) (vcntOf sb)
  else if p = 0xD2 then .vst u (vbaseOf sa) (voffOf sb) inc
  else if p = 0xD3 then .vstS u (vbaseOf sa) (voffOf sb) inc
  else if p = 0xD4 then .vstX u (vbaseOf sa) (vidxOf sb)
  else if p = 0xD5 then .wrow u (srcVOf sa) (vcntOf sb)
  else if p = 0xD6 then .vLatA u (srcVOf sa)
  else if p = 0xD7 then .vLatAb u (srcVOf sa) (srcVOf sb)
  else if p < 0xE0 then .vMovP u (Fin.ofNat 8 (p - 0xD8)) (srcVOf sa)
  else .movV u (Fin.ofNat 32 (p - 0xE0)) (srcVOf sa)

/-- The operation of a legal field of slot M. -/
def instrM (p : Nat) (sa sb : BitVec 8) : Instr :=
  let n : Fin 64 := lowFin 64 sa
  let o : Fin 32 := lowFin 32 sa
  if p = 0xFF then .mckLatAb .m (sgSrc sa) (sgSrc sb)
  else if p = 0xFE then .mckLatA .m (sgSrc sa)
  else if 0x80 ≤ p then
    let k := p - 0x80
    .ato (fmtOf (k / 10)) (modeOf (k % 10 / 2)) (k % 2 = 1) (lowFin 32 sb) n
  else if 0x40 ≤ p then
    let k := p % 32
    let a : Fin 32 := Fin.ofNat 32 (k / 2 % 2 * 16 + sb.toNat % 16)
    let b : Fin 32 := Fin.ofNat 32 (k % 2 * 16 + sb.toNat / 16)
    if p < 0x60 then .mma (fmtOf (k / 4)) n a b else .mmz (fmtOf (k / 4)) n a b
  else
    match p with
    | 0x01 => .oclaim o
    | 0x02 => .orel o
    | 0x08 => .azero n
    | 0x09 => .ascale n (sgOf sb)
    | 0x0A => .apin n
    | 0x0B => .aunpin n
    | 0x0C => .adrain n (lowFin 4 sb)
    | _ => .astat n

/-- The operation of a legal field of slot C0 or C1. -/
def instrC (e : Eng) (p : Nat) (sa sb : BitVec 8) : Instr :=
  let a := sgOf sa
  let b := sgOf sb
  let u : MckUnit := match e with
    | .c0 => .c0
    | .c1 => .c1
  match p with
  | 0x01 => .cpNest e a
  | 0x02 => .cpMcast e a
  | 0x08 => .cbClaim e (lowFin 8 sa) b
  | 0x09 => .cbCommit e (lowFin 8 sa) b
  | 0x0A => .cbAwait e (lowFin 8 sa) b
  | 0x0B => .cbRetire e (lowFin 8 sa) b
  | 0x10 => .barInit e a b
  | 0x11 => .barArriveRel e a b
  | 0x12 => .barArriveRlx e a b
  | 0x13 => .barDrop e a
  | 0x14 => .barTest e a
  | 0x18 => .kSet e (lowFin 16 sa) b
  | 0x19 => .kAdd e (lowFin 16 sa) b
  | 0x30 => .stashPut e a b
  | 0x31 => .stashGet e a b
  | 0x32 => .stashPf e a b
  | 0x33 => .stashDrop e a b
  | 0x34 => .stashFree e a b
  | 0x38 => .wvCommit e a b
  | 0xFE => .mckLatA u (sgSrc sa)
  | 0xFF => .mckLatAb u (sgSrc sa) (sgSrc sb)
  | _ => if p < 0x28 then .wkArm e (Fin.ofNat 8 p) a b else .wkDisarm e (Fin.ofNat 8 p)

/-- The operation of a legal field of slot K. -/
def instrK (p : Nat) (sa sb : BitVec 8) : Instr :=
  if p = 0xFF then .mckLatAb .k (srcOf sa) (srcOf sb)
  else if p = 0xFE then .mckLatA .k (srcOf sa)
  else if 0x80 ≤ p then .recvaddF32 (Fin.ofNat 32 (p - 0x80)) (chOf sa)
  else if 0x70 ≤ p then .gzRd (Fin.ofNat 16 (p - 0x70)) (srcOf sa)
  else if 0x60 ≤ p then .recvG (Fin.ofNat 16 (p - 0x60)) (chOf sa)
  else if 0x40 ≤ p then .recvV (Fin.ofNat 32 (p - 0x40)) (chOf sa)
  else
    match p with
    | 0x01 => .send (chOf sa) (sendOf sb)
    | 0x02 => .sendM (chOf sa) (srcOf sb)
    | 0x08 => .chwin (chOf sa) (srcOf sb)
    | 0x10 => .colGo (srcOf sa)
    | 0x11 => .colAbort (srcOf sa)
    | 0x18 => .gzPut (srcOf sa) (srcOf sb)
    | 0x19 => .gzDone (srcOf sa)
    | _ => .trustQ (srcOf sa)

/-- The instruction of a legal field of a slot. -/
def instrOf (slot : Nat) (f : BitVec 24) (inc : Bool) : Instr :=
  let p := (portOf f).toNat
  match slot with
  | 0 => instrB p (saOf f) (sbOf f)
  | 1 => instrS p (saOf f) (sbOf f) inc
  | 2 => instrV .v0 p (saOf f) (sbOf f) inc
  | 3 => instrV .v1 p (saOf f) (sbOf f) inc
  | 4 => instrM p (saOf f) (sbOf f)
  | 5 => instrC .c0 p (saOf f) (sbOf f)
  | 6 => instrC .c1 p (saOf f) (sbOf f)
  | _ => instrK p (saOf f) (sbOf f)

/-- One slot's field as an instruction, or the code it traps with (R37). -/
def decodeField (tm : Bool) (slot : Nat) (f : BitVec 24) (inc : Bool) : Except (BitVec 8) Instr :=
  match slotErr tm slot f with
  | some c => .error c
  | none => .ok (instrOf slot f inc)

/-! ### Names, read ports and deltas -/

/-- The names of R27. -/
inductive Name where
  | g (n : Nat)
  | v (n : Nat)
  | p (n : Nat)
  | ac (n : Nat)
  | ob (n : Nat)
  | k (n : Nat)
  | cb (n : Nat)
  | tq (n : Nat)
  deriving DecidableEq, Repr

/-- Whether the field kind is read through the B, S and K map, the V map or the M and C map. -/
inductive MapClass where
  | s
  | v
  | m
  | none
  deriving DecidableEq, Repr

/-- See `MapClass`. -/
def FK.mapClass : FK → MapClass
  | .val | .kval | .klat | .ch | .send => .s
  | .vval | .vbase | .voff | .vidx | .vcnt => .v
  | .ac | .ob | .kctr | .cb | .tq | .sg => .m
  | .ign | .lit | .litCounter | .litWord | .litStreams | .litReturn | .litMode | .litRed | .litScan => .none

/-- The register or object that a source field names. -/
def fieldName (fk : FK) (b : BitVec 8) : Option Name :=
  match fk.mapClass with
  | .none => none
  | .s => match specS b with
    | .src (.g n) => some (.g n)
    | .src (.p n) => some (.p n)
    | .tq q => some (.tq q)
    | _ => none
  | .v => match specV b with
    | .src (.g n) => some (.g n)
    | .src (.v n) => some (.v n)
    | .src (.p n) => some (.p n)
    | .src (.tq q) => some (.tq q)
    | _ => none
  | .m => match specM b with
    | .ac n => some (.ac n)
    | .ob n => some (.ob n)
    | .k n => some (.k n)
    | .cb n => some (.cb n)
    | .tq q => some (.tq q)
    | .sg (.g n) => some (.g n)
    | _ => none

/-- A source field of a tile queue pops it, which is a write of the name (R27); other source fields read theirs. -/
def splitNames (l : List (Option Name)) : List Name × List Name :=
  l.foldr (fun o (r, w) =>
    match o with
    | none => (r, w)
    | some (.tq q) => (r, .tq q :: w)
    | some n => (n :: r, w)) ([], [])

/-- The names an operation reads and writes beyond what its source fields say: its destination register, and the
objects of R188, R222 and R246. -/
def extraNames (slot p : Nat) (sa sb : BitVec 8) : List Name × List Name :=
  let x := sa.toNat
  match slot with
  | 0 => if p = 0x10 then ([.k (x % 16)], []) else ([], [])
  | 1 =>
    if 0xF0 ≤ p then ([], [.g (p - 0xF0)])
    else if 0xE8 ≤ p then ([], [.p (p - 0xE8)])
    else if 0x70 ≤ p ∧ p ≤ 0xDF then ([], [.g ((p - 0x70) % 16)])
    else if 0x40 ≤ p ∧ p ≤ 0x6B ∧ 16 ≤ sb.toNat then ([], [.g (sb.toNat % 16)])
    else ([], [])
  | 4 =>
    if p = 1 ∨ p = 2 then ([], [.ob (x % 32)])
    else if p = 8 ∨ p = 9 ∨ p = 0x0A ∨ p = 0x0B then ([], [.ac x])
    else if 0x40 ≤ p ∧ p ≤ 0x7F then
      let k := p % 32
      let a := k / 2 % 2 * 16 + sb.toNat % 16
      let b := k % 2 * 16 + sb.toNat / 16
      (if p < 0x60 then [.ob a, .ob b, .ac x] else [.ob a, .ob b], [.ac x])
    else if 0x80 ≤ p ∧ p ≤ 0xCF then ([], [.ob (sb.toNat % 32)])
    else ([], [])
  | 7 =>
    if 0x40 ≤ p ∧ p ≤ 0x5F then ([], [.v (p - 0x40)])
    else if 0x60 ≤ p ∧ p ≤ 0x6F then ([], [.g (p - 0x60)])
    else if 0x70 ≤ p ∧ p ≤ 0x7F then ([], [.g (p - 0x70)])
    else if 0x80 ≤ p ∧ p ≤ 0x9F then ([.v (p - 0x80)], [.v (p - 0x80)])
    else ([], [])
  | _ =>
    if slot = 5 ∨ slot = 6 then
      if 0x08 ≤ p ∧ p ≤ 0x0B then ([], [.cb (x % 8)])
      else if p = 0x18 ∨ p = 0x19 then ([], [.k (x % 16)])
      else ([], [])
    else
      if 0xE0 ≤ p then ([], [.v (p - 0xE0)])
      else if 0xD8 ≤ p then ([], [.p (p - 0xD8)])
      else if 0x50 ≤ p ∧ p ≤ 0xCF then ([], [.v ((p - 0x50) % 32)])
      else ([], [])

/-- The names a field reads and writes in its slot (R27, R188, R222, R246). A name that an operation only writes through
its own specifier is in both lists, which adds no conflict. -/
def namesOf (tm : Bool) (slot : Nat) (f : BitVec 24) (inc : Bool) : List Name × List Name :=
  match portInfo tm slot (portOf f).toNat with
  | none => ([], [])
  | some i =>
    let na := fieldName i.a (saOf f)
    let nb := fieldName i.b (sbOf f)
    let (r, w) := splitNames [na, nb]
    let (r', w') := extraNames slot (portOf f).toNat (saOf f) (sbOf f)
    let wi := if inc then na.toList else []
    let own := w ++ w' ++ wi
    (r ++ r', own)

/-- The field of mode 11 with its delta applied, or the code 0x07 or 0x08 (R22). -/
def deltaField (slot : Nat) (f : BitVec 24) : Except (BitVec 8) (BitVec 24 × Bool) :=
  let step (b : BitVec 8) : Option (BitVec 8) :=
    let x := b.toNat
    if x = 0x3F ∨ x = 0x5F ∨ x = 0x6F ∨ x = 0x77 ∨ x = 0x7B then none else some (b + 1)
  match portInfo true slot (portOf f).toNat with
  | none => .error 0x07
  | some i =>
    match i.d with
    | .none => .error 0x07
    | .sa => match step (saOf f) with
      | none => .error 0x08
      | some a => .ok (mkField (portOf f) a (sbOf f), false)
    | .sb => match step (sbOf f) with
      | none => .error 0x08
      | some b => .ok (mkField (portOf f) (saOf f) b, false)
    | .mem => match fieldName i.a (saOf f) with
      | some (.g _) => .ok (f, true)
      | _ => .error 0x07

/-! ### Bundles -/

/-- Why bytes are no bundle: too few of them, or an illegal encoding with its code and slot (R37). -/
inductive DecodeErr where
  | short
  | illegal (code : BitVec 8) (slot : Nat)
  deriving DecidableEq, Repr

/-- The header's fields (R15). -/
def hdrMode (h : Word) (i : Nat) : Nat := (h >>> (2 * i)).toNat % 4
/-- STOP before slot `i`, for `i` in 1..7. -/
def hdrStop (h : Word) (i : Nat) : Bool := 1 ≤ i && h.getLsbD (15 + i)
/-- VP0..VP3. -/
def hdrVp (h : Word) (i : Nat) : Nat := (h >>> (24 + 3 * i)).toNat % 8
/-- SP0..SP2. -/
def hdrSp (h : Word) (i : Nat) : Nat := (h >>> (36 + 3 * i)).toNat % 8
/-- STALL. -/
def hdrStall (h : Word) : Nat := (h >>> 45).toNat % 16
/-- YLD and LEND. -/
def hdrYld (h : Word) : Bool := h.getLsbD 23
/-- See `hdrYld`. -/
def hdrLend (h : Word) : Bool := h.getLsbD 49

/-- The slot numbers. -/
def slots8 : List Nat := [0, 1, 2, 3, 4, 5, 6, 7]

/-- How many fields follow a header (R14). -/
def hdrNew (h : Word) : Nat := (slots8.filter fun i => hdrMode h i == 1).length

/-- The length of a bundle (R14). -/
def bundleLen (h : Word) : Nat := 8 + 3 * hdrNew h

/-- A slot after substitution: its field and whether its base is post-incremented. -/
structure SlotField where
  slot  : Nat
  field : BitVec 24
  inc   : Bool
  op    : Instr
  deriving DecidableEq, Repr

/-- Stage 2 for one slot (R37): its stop bit, its mode and history, and its field. `fs` are the fields that follow the
header and are not used yet. -/
def decodeSlot (tm : Bool) (h : Word) (hist : List (Option (BitVec 24))) (i : Nat) (fs : List (BitVec 24)) :
    Except DecodeErr (Option SlotField × List (BitVec 24)) :=
  let lower := (slots8.filter fun j => j < i && hdrMode h j != 0).length
  if hdrStop h i && (hdrMode h i == 0 || lower == 0) then .error (.illegal 0x02 i)
  else
    let finish (f : BitVec 24) (inc : Bool) (rest : List (BitVec 24)) :
        Except DecodeErr (Option SlotField × List (BitVec 24)) :=
      match decodeField tm i f inc with
      | .error c => .error (.illegal c i)
      | .ok op => .ok (some { slot := i, field := f, inc := inc, op := op }, rest)
    match hdrMode h i with
    | 0 => .ok (none, fs)
    | 1 => match fs with
      | [] => .error .short
      | f :: rest => finish f false rest
    | 2 => match hist.getD i none with
      | none => .error (.illegal 0x06 i)
      | some f => finish f false fs
    | _ => match hist.getD i none with
      | none => .error (.illegal 0x06 i)
      | some f => match deltaField i f with
        | .error c => .error (.illegal c i)
        | .ok (f', inc) => finish f' inc fs

/-- Stage 2 for the slots in ascending order. -/
def decodeSlots (tm : Bool) (h : Word) (hist : List (Option (BitVec 24))) :
    List Nat → List (BitVec 24) → Except DecodeErr (List SlotField)
  | [], _ => .ok []
  | i :: is, fs =>
    match decodeSlot tm h hist i fs with
    | .error e => .error e
    | .ok (o, rest) =>
      match decodeSlots tm h hist is rest with
      | .error e => .error e
      | .ok l => .ok (o.toList ++ l)

/-- The source fields that name a g register, by slot in order (R29), and those that name a v register, with slot and
field (R28). -/
def portUse (tm : Bool) (l : List SlotField) : List Nat × List (Nat × Nat × Nat) :=
  l.foldr (fun s (gs, vs) =>
    match portInfo tm s.slot (portOf s.field).toNat with
    | none => (gs, vs)
    | some i =>
      let one (fk : FK) (b : BitVec 8) (k : Nat) (r : List Nat × List (Nat × Nat × Nat)) :=
        match fieldName fk b with
        | some (.g _) => (s.slot :: r.1, r.2)
        | some (.v n) => (r.1, (s.slot, k, n) :: r.2)
        | _ => r
      one i.a (saOf s.field) 0 (one i.b (sbOf s.field) 1 (gs, vs))) ([], [])

/-- Whether the fields VP of one bank allot exactly the reads of it (R28): no read without a port, no port without a
read, no read with two. -/
def bankOk (vp : List Nat) (reads : List (Nat × Nat × Nat)) : Bool :=
  let codes := reads.map fun (s, k, _) => 4 + 2 * (s - 2) + k
  let used := vp.filter (4 ≤ ·)
  vp.all (fun c => c == 0 || 4 ≤ c) && used.all (codes.contains ·) && codes.all (used.contains ·)
    && used.length == codes.length

/-- Stage 3: the read-port allotment (R28, R29, R30). -/
def portErr (tm : Bool) (h : Word) (l : List SlotField) : Option (BitVec 8) :=
  let (gs, vs) := portUse tm l
  let even := vs.filter fun x => x.2.2 % 2 == 0
  let odd := vs.filter fun x => x.2.2 % 2 == 1
  if 3 < gs.length ∨ 2 < even.length ∨ 2 < odd.length then some 0x09
  else if [hdrSp h 0, hdrSp h 1, hdrSp h 2] ≠ gs ++ List.replicate (3 - gs.length) 0 then some 0x0A
  else if bankOk [hdrVp h 0, hdrVp h 1] even && bankOk [hdrVp h 2, hdrVp h 3] odd then none
  else some 0x0A

/-- The slots of a bundle in their groups (R23). -/
def groupsOf (h : Word) : List SlotField → List (List SlotField)
  | [] => []
  | s :: l =>
    match groupsOf h l with
    | [] => [[s]]
    | g :: gs =>
      match g with
      | [] => [s] :: gs
      | t :: _ => if hdrStop h t.slot then [s] :: g :: gs else (s :: g) :: gs

/-- Stage 4 for one group: the lowest slot that reads a name which a lower slot writes, or writes one which a lower slot
reads or writes (R27). -/
def groupErr (tm : Bool) (lower : List (List Name × List Name)) : List SlotField → Option Nat
  | [] => none
  | s :: l =>
    let (r, w) := namesOf tm s.slot s.field s.inc
    if lower.any fun (r', w') => r.any (w'.contains ·) || w.any (r'.contains ·) || w.any (w'.contains ·) then
      some s.slot
    else groupErr tm ((r, w) :: lower) l

/-- Three little-endian bytes at a time (R16). -/
def fieldsOf : List Byte → List (BitVec 24)
  | b0 :: b1 :: b2 :: l => mkField b0 b1 b2 :: fieldsOf l
  | _ => []

/-- A decoded bundle. -/
structure Decoded where
  len    : Nat
  lend   : Bool
  yld    : Bool
  stall  : Nat
  fields : List (Option (BitVec 24))
  groups : List (List (Nat × Instr))
  deriving DecidableEq, Repr

/-- The bundle of some bytes, checked whole (R37). -/
def decodeBundle (tm : Bool) (hist : List (Option (BitVec 24))) (bytes : List Byte) : Except DecodeErr Decoded :=
  if bytes.length < 8 then .error .short
  else
    let h : Word := BitVec.ofNat 64 (leNat (bytes.take 8))
    if (h >>> 50).toNat ≠ 0 then .error (.illegal 0x01 8)
    else
      match decodeSlots tm h hist slots8 (fieldsOf (bytes.drop 8)) with
      | .error e => .error e
      | .ok l =>
        match portErr tm h l with
        | some c => .error (.illegal c 8)
        | none =>
          let gs := groupsOf h l
          match gs.findSome? (groupErr tm []) with
          | some n => .error (.illegal 0x0B n)
          | none => .ok {
              len := bundleLen h
              lend := hdrLend h
              yld := hdrYld h
              stall := hdrStall h
              fields := slots8.map fun i => (l.find? fun s => s.slot == i).map (·.field)
              groups := if gs.isEmpty then [[]] else gs.map fun g => g.map fun s => (s.slot, s.op) }

/-! ### The encoder -/

/-- The byte of a B, S or K value (R49). -/
def encSrc : Src → BitVec 8
  | .sq a => BitVec.ofNat 8 a
  | .g n => BitVec.ofNat 8 (0x10 + n)
  | .tx => 0x20
  | .ty => 0x21
  | .tw => 0x22
  | .th => 0x23
  | .tag => 0x24
  | .step => 0x25
  | .rng => 0x26
  | .zero => 0x27
  | .p n => BitVec.ofNat 8 (0x28 + n)
  | .imm v => (1 : BitVec 1) ++ v

/-- The byte of the source of a `send`. -/
def encSend : SendSrc → BitVec 8
  | .src s => encSrc s
  | .tq q => BitVec.ofNat 8 (0x30 + q)

/-- The byte of a channel. -/
def encCh (c : Fin 11) : BitVec 8 := BitVec.ofNat 8 (0x34 + c)

/-- The byte of a V value (R50). -/
def encSrcV : SrcV → BitVec 8
  | .vq a => BitVec.ofNat 8 a
  | .v n => BitVec.ofNat 8 (0x10 + n)
  | .sq a => BitVec.ofNat 8 (0x30 + a)
  | .g n => BitVec.ofNat 8 (0x40 + n)
  | .p n => BitVec.ofNat 8 (0x50 + n)
  | .lane => 0x58
  | .rng => 0x59
  | .tx => 0x5A
  | .ty => 0x5B
  | .tag => 0x5C
  | .zero => 0x5D
  | .tq q => BitVec.ofNat 8 (0x60 + q)
  | .imm v => (0b111 : BitVec 3) ++ v

/-- The byte of a base of a V access. -/
def encBase : SqG → BitVec 8
  | .sq a => BitVec.ofNat 8 (0x30 + a)
  | .g n => BitVec.ofNat 8 (0x40 + n)

/-- The byte of an index, stride or pitch. -/
def encOff : OffV → BitVec 8
  | .sq a => BitVec.ofNat 8 (0x30 + a)
  | .g n => BitVec.ofNat 8 (0x40 + n)
  | .imm v => (0b111 : BitVec 3) ++ v
  | .zero => 0x5D

/-- The byte of an index vector. -/
def encIdx : IdxV → BitVec 8
  | .vq a => BitVec.ofNat 8 a
  | .v n => BitVec.ofNat 8 (0x10 + n)
  | .tq q => BitVec.ofNat 8 (0x60 + q)

/-- The byte of a lane count or selector. -/
def encCnt : CntV → BitVec 8
  | .sq a => BitVec.ofNat 8 (0x30 + a)
  | .g n => BitVec.ofNat 8 (0x40 + n)
  | .imm v => (0b111 : BitVec 3) ++ v

/-- The byte of a scalar in an M or C field (R53). -/
def encSg : SqG → BitVec 8
  | .sq a => BitVec.ofNat 8 (0x80 + a)
  | .g n => BitVec.ofNat 8 (0x90 + n)

/-- The byte of the source of an M or C latch write. -/
def encSgSrc : Src → BitVec 8
  | .sq a => BitVec.ofNat 8 (0x80 + a)
  | .g n => BitVec.ofNat 8 (0x90 + n)
  | _ => 0x80

/-- The codes of modes and formats (R95), of orders, reductions and returns (R94, R97). -/
def Mode.code : Mode → Nat
  | .dflt => 0
  | .rn => 1
  | .rna => 2
  | .rz => 3
  | .sr => 4
/-- See `Mode.code`. -/
def Fmt.code : Fmt → Nat
  | .bf16 => 0
  | .f16 => 1
  | .e4m3 => 2
  | .e5m2 => 3
  | .i8 => 4
  | .nx7 => 5
  | .nx4 => 6
  | .nx2 => 7
/-- See `Mode.code`. -/
def AmoOrd.code : AmoOrd → Nat
  | .rlx => 0
  | .acq => 1
  | .rel => 2
  | .sc => 3
/-- See `Mode.code`. -/
def RedOp.code : RedOp → Nat
  | .add => 0
  | .max => 1
  | .min => 2
/-- See `Mode.code`. -/
def CvtFmt.code : CvtFmt → Nat
  | .bf16 => 0
  | .f16 => 1
  | .e4m3 => 2
  | .e5m2 => 3
  | .i32 => 4
  | .i8 => 5
/-- A mode literal. -/
def encMode (m : Mode) (sat : Bool) : BitVec 8 := BitVec.ofNat 8 (m.code + if sat then 8 else 0)
/-- A reduce literal. -/
def encRed (o : RedOp) (ex : Bool) : BitVec 8 := BitVec.ofNat 8 (o.code + if ex then 4 else 0)
/-- A return literal. -/
def encRet : Option (Fin 16) → BitVec 8
  | none => 0
  | some n => BitVec.ofNat 8 (16 + n)
/-- A field whose port is a number. -/
def fld (p : Nat) (sa sb : BitVec 8) : BitVec 24 := mkField (BitVec.ofNat 8 p) sa sb
/-- The slot of a pipe, of an engine and of a latch unit (R13). -/
def Pipe.slot : Pipe → Nat
  | .v0 => 2
  | .v1 => 3
/-- See `Pipe.slot`. -/
def Eng.slot : Eng → Nat
  | .c0 => 5
  | .c1 => 6
/-- See `Pipe.slot`. -/
def MckUnit.slot : MckUnit → Nat
  | .m => 4
  | .c0 => 5
  | .c1 => 6
  | .k => 7

/-- The slot and the field of a slot operation, written from the tables of R96 to R101; ignored fields hold zero (R16).
An event has no encoding. -/
def encode : Instr → Option (Nat × BitVec 24)
  | .nop => some (0, fld 0x00 0 0)
  | .br d => some (0, fld 0x01 (d.extractLsb' 0 8) (d.extractLsb' 8 8))
  | .bz d => some (0, fld 0x02 (d.extractLsb' 0 8) (d.extractLsb' 8 8))
  | .bnz d => some (0, fld 0x03 (d.extractLsb' 0 8) (d.extractLsb' 8 8))
  | .call d => some (0, fld 0x04 (d.extractLsb' 0 8) (d.extractLsb' 8 8))
  | .ret a => some (0, fld 0x05 (encSrc a) 0)
  | .jr a => some (0, fld 0x06 (encSrc a) 0)
  | .loop a => some (0, fld 0x08 (encSrc a) 0)
  | .loopn a => some (0, fld 0x09 (encSrc a) 0)
  | .waitLt k b => some (0, fld 0x10 (BitVec.ofNat 8 k) (encSrc b))
  | .waitBar a b => some (0, fld 0x11 (encSrc a) (encSrc b))
  | .waitWake => some (0, fld 0x12 0 0)
  | .halt => some (0, fld 0x18 0 0)
  | .trap c => some (0, fld 0x19 c 0)
  | .sysret => some (0, fld 0x1A 0 0)
  | .fence .core => some (0, fld 0x20 0 0)
  | .fence .die => some (0, fld 0x21 0 0)
  | .fence .mod => some (0, fld 0x22 0 0)
  | .fence .sys => some (0, fld 0x23 0 0)
  | .sbar r w m => some (0, fld 0x24 (BitVec.ofNat 8 ((if r then 1 else 0) + (if w then 2 else 0) + (if m then 4 else 0))) 0)
  | .ckpt a => some (0, fld 0x28 (encSrc a) 0)
  | .nextTile => some (0, fld 0x29 0 0)
  | .launch a => some (0, fld 0x2A (encSrc a) 0)
  | .sysrd w => some (0, fld 0x30 (BitVec.ofNat 8 w) 0)
  | .syswr w b => some (0, fld 0x31 (BitVec.ofNat 8 w) (encSrc b))
  | .li i => some (1, fld 0x01 (i.extractLsb' 0 8) (i.extractLsb' 8 8))
  | .lih i => some (1, fld 0x02 (i.extractLsb' 0 8) (i.extractLsb' 8 8))
  | .sMov a => some (1, fld 0x03 (encSrc a) 0)
  | .sSel a b => some (1, fld 0x04 (encSrc a) (encSrc b))
  | .addI64 a b => some (1, fld 0x08 (encSrc a) (encSrc b))
  | .subI64 a b => some (1, fld 0x09 (encSrc a) (encSrc b))
  | .mulI64 a b => some (1, fld 0x0A (encSrc a) (encSrc b))
  | .mulhI64 a b => some (1, fld 0x0B (encSrc a) (encSrc b))
  | .mulhN64 a b => some (1, fld 0x0C (encSrc a) (encSrc b))
  | .divI64 a b => some (1, fld 0x0D (encSrc a) (encSrc b))
  | .divN64 a b => some (1, fld 0x0E (encSrc a) (encSrc b))
  | .sAnd a b => some (1, fld 0x10 (encSrc a) (encSrc b))
  | .sOr a b => some (1, fld 0x11 (encSrc a) (encSrc b))
  | .sXor a b => some (1, fld 0x12 (encSrc a) (encSrc b))
  | .sAndn a b => some (1, fld 0x13 (encSrc a) (encSrc b))
  | .sShl a b => some (1, fld 0x14 (encSrc a) (encSrc b))
  | .shrN64 a b => some (1, fld 0x15 (encSrc a) (encSrc b))
  | .shrI64 a b => some (1, fld 0x16 (encSrc a) (encSrc b))
  | .rotl a b => some (1, fld 0x17 (encSrc a) (encSrc b))
  | .minI64 a b => some (1, fld 0x1C (encSrc a) (encSrc b))
  | .minN64 a b => some (1, fld 0x1D (encSrc a) (encSrc b))
  | .maxI64 a b => some (1, fld 0x1E (encSrc a) (encSrc b))
  | .maxN64 a b => some (1, fld 0x1F (encSrc a) (encSrc b))
  | .ceq a b => some (1, fld 0x20 (encSrc a) (encSrc b))
  | .cne a b => some (1, fld 0x21 (encSrc a) (encSrc b))
  | .cltI64 a b => some (1, fld 0x22 (encSrc a) (encSrc b))
  | .cltN64 a b => some (1, fld 0x23 (encSrc a) (encSrc b))
  | .cleI64 a b => some (1, fld 0x24 (encSrc a) (encSrc b))
  | .cleN64 a b => some (1, fld 0x25 (encSrc a) (encSrc b))
  | .lockL2 a b => some (1, fld 0x6C (encSrc a) (encSrc b))
  | .unlockL2 a b => some (1, fld 0x6D (encSrc a) (encSrc b))
  | .clz a => some (1, fld 0x18 (encSrc a) 0)
  | .popc a => some (1, fld 0x19 (encSrc a) 0)
  | .st .n8 a b _ => some (1, fld 0x30 (encSrc a) (encSrc b))
  | .st .n16 a b _ => some (1, fld 0x31 (encSrc a) (encSrc b))
  | .st .n32 a b _ => some (1, fld 0x32 (encSrc a) (encSrc b))
  | .st .n64 a b _ => some (1, fld 0x33 (encSrc a) (encSrc b))
  | .amoAddI64 o a r => some (1, fld (0x40 + o.code) (encSrc a) (encRet r))
  | .amoAnd o a r => some (1, fld (0x44 + o.code) (encSrc a) (encRet r))
  | .amoOr o a r => some (1, fld (0x48 + o.code) (encSrc a) (encRet r))
  | .amoXor o a r => some (1, fld (0x4c + o.code) (encSrc a) (encRet r))
  | .amoMinI64 o a r => some (1, fld (0x50 + o.code) (encSrc a) (encRet r))
  | .amoMaxI64 o a r => some (1, fld (0x54 + o.code) (encSrc a) (encRet r))
  | .amoMinN64 o a r => some (1, fld (0x58 + o.code) (encSrc a) (encRet r))
  | .amoMaxN64 o a r => some (1, fld (0x5c + o.code) (encSrc a) (encRet r))
  | .amoSwap o a r => some (1, fld (0x60 + o.code) (encSrc a) (encRet r))
  | .amoCas o a r => some (1, fld (0x64 + o.code) (encSrc a) (encRet r))
  | .amoFaddF32 o a r => some (1, fld (0x68 + o.code) (encSrc a) (encRet r))
  | .pref a => some (1, fld 0x6E (encSrc a) 0)
  | .ldI8 n a b _ => some (1, fld (0x70 + n) (encSrc a) (encSrc b))
  | .ldN8 n a b _ => some (1, fld (0x80 + n) (encSrc a) (encSrc b))
  | .ldI16 n a b _ => some (1, fld (0x90 + n) (encSrc a) (encSrc b))
  | .ldN16 n a b _ => some (1, fld (0xa0 + n) (encSrc a) (encSrc b))
  | .ldI32 n a b _ => some (1, fld (0xb0 + n) (encSrc a) (encSrc b))
  | .ldN32 n a b _ => some (1, fld (0xc0 + n) (encSrc a) (encSrc b))
  | .ldN64 n a b _ => some (1, fld (0xd0 + n) (encSrc a) (encSrc b))
  | .sLatA a => some (1, fld 0xE6 (encSrc a) 0)
  | .sLatAb a b => some (1, fld 0xE7 (encSrc a) (encSrc b))
  | .sMovP n a => some (1, fld (0xE8 + n) (encSrc a) 0)
  | .movG n a => some (1, fld (0xF0 + n) (encSrc a) 0)
  | .addF32 u a b => some (u.slot, fld 0x01 (encSrcV a) (encSrcV b))
  | .addBf16 u a b => some (u.slot, fld 0x02 (encSrcV a) (encSrcV b))
  | .addF16 u a b => some (u.slot, fld 0x03 (encSrcV a) (encSrcV b))
  | .subF32 u a b => some (u.slot, fld 0x04 (encSrcV a) (encSrcV b))
  | .subBf16 u a b => some (u.slot, fld 0x05 (encSrcV a) (encSrcV b))
  | .subF16 u a b => some (u.slot, fld 0x06 (encSrcV a) (encSrcV b))
  | .mulF32 u a b => some (u.slot, fld 0x07 (encSrcV a) (encSrcV b))
  | .mulBf16 u a b => some (u.slot, fld 0x08 (encSrcV a) (encSrcV b))
  | .mulF16 u a b => some (u.slot, fld 0x09 (encSrcV a) (encSrcV b))
  | .fmaF32 u a b => some (u.slot, fld 0x0A (encSrcV a) (encSrcV b))
  | .fmaBf16 u a b => some (u.slot, fld 0x0B (encSrcV a) (encSrcV b))
  | .fmaF16 u a b => some (u.slot, fld 0x0C (encSrcV a) (encSrcV b))
  | .minF32 u a b => some (u.slot, fld 0x0D (encSrcV a) (encSrcV b))
  | .minBf16 u a b => some (u.slot, fld 0x0E (encSrcV a) (encSrcV b))
  | .minF16 u a b => some (u.slot, fld 0x0F (encSrcV a) (encSrcV b))
  | .maxF32 u a b => some (u.slot, fld 0x10 (encSrcV a) (encSrcV b))
  | .maxBf16 u a b => some (u.slot, fld 0x11 (encSrcV a) (encSrcV b))
  | .maxF16 u a b => some (u.slot, fld 0x12 (encSrcV a) (encSrcV b))
  | .addI32 u a b => some (u.slot, fld 0x18 (encSrcV a) (encSrcV b))
  | .subI32 u a b => some (u.slot, fld 0x19 (encSrcV a) (encSrcV b))
  | .mulI32 u a b => some (u.slot, fld 0x1A (encSrcV a) (encSrcV b))
  | .addSatI32 u a b => some (u.slot, fld 0x1B (encSrcV a) (encSrcV b))
  | .subSatI32 u a b => some (u.slot, fld 0x1C (encSrcV a) (encSrcV b))
  | .minI32 u a b => some (u.slot, fld 0x1D (encSrcV a) (encSrcV b))
  | .minN32 u a b => some (u.slot, fld 0x1E (encSrcV a) (encSrcV b))
  | .maxI32 u a b => some (u.slot, fld 0x1F (encSrcV a) (encSrcV b))
  | .maxN32 u a b => some (u.slot, fld 0x20 (encSrcV a) (encSrcV b))
  | .vAnd u a b => some (u.slot, fld 0x21 (encSrcV a) (encSrcV b))
  | .vOr u a b => some (u.slot, fld 0x22 (encSrcV a) (encSrcV b))
  | .vXor u a b => some (u.slot, fld 0x23 (encSrcV a) (encSrcV b))
  | .vAndn u a b => some (u.slot, fld 0x24 (encSrcV a) (encSrcV b))
  | .vShl u a b => some (u.slot, fld 0x25 (encSrcV a) (encSrcV b))
  | .shrN32 u a b => some (u.slot, fld 0x26 (encSrcV a) (encSrcV b))
  | .shrI32 u a b => some (u.slot, fld 0x27 (encSrcV a) (encSrcV b))
  | .ceqF32 u a b => some (u.slot, fld 0x28 (encSrcV a) (encSrcV b))
  | .cltF32 u a b => some (u.slot, fld 0x29 (encSrcV a) (encSrcV b))
  | .cleF32 u a b => some (u.slot, fld 0x2A (encSrcV a) (encSrcV b))
  | .ceqI32 u a b => some (u.slot, fld 0x2B (encSrcV a) (encSrcV b))
  | .cltI32 u a b => some (u.slot, fld 0x2C (encSrcV a) (encSrcV b))
  | .cltN32 u a b => some (u.slot, fld 0x2D (encSrcV a) (encSrcV b))
  | .vSel u a b => some (u.slot, fld 0x2E (encSrcV a) (encSrcV b))
  | .vLatAb u a b => some (u.slot, fld 0xD7 (encSrcV a) (encSrcV b))
  | .rcpF32 u a => some (u.slot, fld 0x13 (encSrcV a) 0)
  | .rsqrtF32 u a => some (u.slot, fld 0x14 (encSrcV a) 0)
  | .exp2F32 u a => some (u.slot, fld 0x15 (encSrcV a) 0)
  | .log2F32 u a => some (u.slot, fld 0x16 (encSrcV a) 0)
  | .vMov u a => some (u.slot, fld 0x2F (encSrcV a) 0)
  | .cvtF32Bf16 u a => some (u.slot, fld 0x3C (encSrcV a) 0)
  | .cvtF32F16 u a => some (u.slot, fld 0x3D (encSrcV a) 0)
  | .cvtF32E4m3 u a => some (u.slot, fld 0x3E (encSrcV a) 0)
  | .cvtF32E5m2 u a => some (u.slot, fld 0x3F (encSrcV a) 0)
  | .cvtF32I32 u a => some (u.slot, fld 0x40 (encSrcV a) 0)
  | .cvtF32I8 u a => some (u.slot, fld 0x41 (encSrcV a) 0)
  | .packNx2 u a => some (u.slot, fld 0x42 (encSrcV a) 0)
  | .packNx4 u a => some (u.slot, fld 0x43 (encSrcV a) 0)
  | .packNx7 u a => some (u.slot, fld 0x44 (encSrcV a) 0)
  | .unpkNx2 u a => some (u.slot, fld 0x48 (encSrcV a) 0)
  | .unpkNx4 u a => some (u.slot, fld 0x49 (encSrcV a) 0)
  | .unpkNx7 u a => some (u.slot, fld 0x4A (encSrcV a) 0)
  | .vLatA u a => some (u.slot, fld 0xD6 (encSrcV a) 0)
  | .cvt u d a => some (u.slot, fld (0x30 + d.code) (encSrcV a) 0)
  | .cvtBf16F32Mode u a m s => some (u.slot, fld 0x36 (encSrcV a) (encMode m s))
  | .cvtF16F32Mode u a m s => some (u.slot, fld 0x37 (encSrcV a) (encMode m s))
  | .cvtE4m3F32Mode u a m s => some (u.slot, fld 0x38 (encSrcV a) (encMode m s))
  | .cvtE5m2F32Mode u a m s => some (u.slot, fld 0x39 (encSrcV a) (encMode m s))
  | .cvtI32F32Mode u a m s => some (u.slot, fld 0x3A (encSrcV a) (encMode m s))
  | .cvtI8F32Mode u a m s => some (u.slot, fld 0x3B (encSrcV a) (encMode m s))
  | .packNx2Mode u a m s => some (u.slot, fld 0x45 (encSrcV a) (encMode m s))
  | .packNx4Mode u a m s => some (u.slot, fld 0x46 (encSrcV a) (encMode m s))
  | .packNx7Mode u a m s => some (u.slot, fld 0x47 (encSrcV a) (encMode m s))
  | .redF32 u a o => some (u.slot, fld 0x4B (encSrcV a) (encRed o false))
  | .redI32 u a o => some (u.slot, fld 0x4C (encSrcV a) (encRed o false))
  | .scanF32 u a o x => some (u.slot, fld 0x4D (encSrcV a) (encRed o x))
  | .scanI32 u a o x => some (u.slot, fld 0x4E (encSrcV a) (encRed o x))
  | .perm u a i => some (u.slot, fld 0x4F (encSrcV a) (encIdx i))
  | .vld u n a i _ => some (u.slot, fld (0x50 + n) (encBase a) (encOff i))
  | .vldS u n a i _ => some (u.slot, fld (0x70 + n) (encBase a) (encOff i))
  | .vldX u n a i => some (u.slot, fld (0x90 + n) (encBase a) (encIdx i))
  | .ldTr u n a i _ => some (u.slot, fld (0xB0 + n) (encBase a) (encOff i))
  | .bcast u a n => some (u.slot, fld 0xD0 (encSrcV a) (encCnt n))
  | .lrot u a n => some (u.slot, fld 0xD1 (encSrcV a) (encCnt n))
  | .vst u a i _ => some (u.slot, fld 0xD2 (encBase a) (encOff i))
  | .vstS u a i _ => some (u.slot, fld 0xD3 (encBase a) (encOff i))
  | .vstX u a i => some (u.slot, fld 0xD4 (encBase a) (encIdx i))
  | .wrow u a s => some (u.slot, fld 0xD5 (encSrcV a) (encCnt s))
  | .vMovP u n a => some (u.slot, fld (0xD8 + n) (encSrcV a) 0)
  | .movV u n a => some (u.slot, fld (0xE0 + n) (encSrcV a) 0)
  | .oclaim n => some (4, fld 0x01 (BitVec.ofNat 8 (0x40 + n)) 0)
  | .orel n => some (4, fld 0x02 (BitVec.ofNat 8 (0x40 + n)) 0)
  | .azero n => some (4, fld 0x08 (BitVec.ofNat 8 n) 0)
  | .ascale n b => some (4, fld 0x09 (BitVec.ofNat 8 n) (encSg b))
  | .apin n => some (4, fld 0x0A (BitVec.ofNat 8 n) 0)
  | .aunpin n => some (4, fld 0x0B (BitVec.ofNat 8 n) 0)
  | .adrain n q => some (4, fld 0x0C (BitVec.ofNat 8 n) (BitVec.ofNat 8 (0x78 + q)))
  | .astat n => some (4, fld 0x0D (BitVec.ofNat 8 n) 0)
  | .mma f n a b => some (4, fld (0x40 + 4 * f.code + 2 * (a / 16) + b / 16) (BitVec.ofNat 8 n) (BitVec.ofNat 8 (a % 16 + 16 * (b % 16))))
  | .mmz f n a b => some (4, fld (0x60 + 4 * f.code + 2 * (a / 16) + b / 16) (BitVec.ofNat 8 n) (BitVec.ofNat 8 (a % 16 + 16 * (b % 16))))
  | .ato f m s o n => some (4, fld (0x80 + 10 * f.code + 2 * m.code + if s then 1 else 0) (BitVec.ofNat 8 n) (BitVec.ofNat 8 (0x40 + o)))
  | .mckLatA .k a => some (7, fld 0xFE (encSrc a) 0)
  | .mckLatA u a => some (u.slot, fld 0xFE (encSgSrc a) 0)
  | .mckLatAb .k a b => some (7, fld 0xFF (encSrc a) (encSrc b))
  | .mckLatAb u a b => some (u.slot, fld 0xFF (encSgSrc a) (encSgSrc b))
  | .cpNest e a => some (e.slot, fld 0x01 (encSg a) 0)
  | .cpMcast e a => some (e.slot, fld 0x02 (encSg a) 0)
  | .cbClaim e n b => some (e.slot, fld 0x08 (BitVec.ofNat 8 (0x70 + n)) (encSg b))
  | .cbCommit e n b => some (e.slot, fld 0x09 (BitVec.ofNat 8 (0x70 + n)) (encSg b))
  | .cbAwait e n b => some (e.slot, fld 0x0A (BitVec.ofNat 8 (0x70 + n)) (encSg b))
  | .cbRetire e n b => some (e.slot, fld 0x0B (BitVec.ofNat 8 (0x70 + n)) (encSg b))
  | .barInit e a b => some (e.slot, fld 0x10 (encSg a) (encSg b))
  | .barArriveRel e a b => some (e.slot, fld 0x11 (encSg a) (encSg b))
  | .barArriveRlx e a b => some (e.slot, fld 0x12 (encSg a) (encSg b))
  | .stashPut e a b => some (e.slot, fld 0x30 (encSg a) (encSg b))
  | .stashGet e a b => some (e.slot, fld 0x31 (encSg a) (encSg b))
  | .stashPf e a b => some (e.slot, fld 0x32 (encSg a) (encSg b))
  | .stashDrop e a b => some (e.slot, fld 0x33 (encSg a) (encSg b))
  | .stashFree e a b => some (e.slot, fld 0x34 (encSg a) (encSg b))
  | .wvCommit e a b => some (e.slot, fld 0x38 (encSg a) (encSg b))
  | .barDrop e a => some (e.slot, fld 0x13 (encSg a) 0)
  | .barTest e a => some (e.slot, fld 0x14 (encSg a) 0)
  | .kSet e n b => some (e.slot, fld 0x18 (BitVec.ofNat 8 (0x60 + n)) (encSg b))
  | .kAdd e n b => some (e.slot, fld 0x19 (BitVec.ofNat 8 (0x60 + n)) (encSg b))
  | .wkArm e w a b => some (e.slot, fld (0x20 + w) (encSg a) (encSg b))
  | .wkDisarm e w => some (e.slot, fld (0x28 + w) 0 0)
  | .send c s => some (7, fld 0x01 (encCh c) (encSend s))
  | .sendM c a => some (7, fld 0x02 (encCh c) (encSrc a))
  | .chwin c b => some (7, fld 0x08 (encCh c) (encSrc b))
  | .colGo a => some (7, fld 0x10 (encSrc a) 0)
  | .colAbort a => some (7, fld 0x11 (encSrc a) 0)
  | .gzDone a => some (7, fld 0x19 (encSrc a) 0)
  | .trustQ a => some (7, fld 0x1A (encSrc a) 0)
  | .gzPut a b => some (7, fld 0x18 (encSrc a) (encSrc b))
  | .recvV n c => some (7, fld (0x40 + n) (encCh c) 0)
  | .recvG n c => some (7, fld (0x60 + n) (encCh c) 0)
  | .gzRd n a => some (7, fld (0x70 + n) (encSrc a) 0)
  | .recvaddF32 n c => some (7, fld (0x80 + n) (encCh c) 0)
  | _ => none
/-- The first of these slots whose class has the field as a legal operation. -/
def decodeIn (f : BitVec 24) : List Nat → Option (Nat × Instr)
  | [] => none
  | i :: l =>
    match decodeField true i f false with
    | .ok op => some (i, op)
    | .error _ => decodeIn f l

/-- The slot and operation of a field whose class is not known: classes B, S, V, M, C, K in this order (log entry 6). -/
def decodeAnySlot (f : BitVec 24) : Option (Nat × Instr) := decodeIn f [0, 1, 2, 4, 5, 7]

/-- The instruction read from a field whose bits are `w`. -/
def decodeTableWord (_nbits w : Nat) : Option Instr := (decodeAnySlot (BitVec.ofNat 24 w)).map (·.2)

end Sys2Proof
end

