-- ==== Sys2Proof/Machine/Tab.lean ====
section
/-! DEFINITION. Sparse tables and memories as lists with strictly rising keys, and the bytes of words. -/
namespace Sys2Proof.Machine

/-- The entry of a number. -/
def tabGet? {α : Type} : Tab α → Nat → Option α
  | [], _ => none
  | (k, v) :: t, n => if k = n then some v else if n < k then none else tabGet? t n

/-- The entry of a number, or what a number without an entry has. -/
def tabGet {α : Type} (d : α) (t : Tab α) (n : Nat) : α := (tabGet? t n).getD d

/-- Sets the entry of a number. -/
def tabSet {α : Type} : Tab α → Nat → α → Tab α
  | [], n, v => [(n, v)]
  | (k, w) :: t, n, v =>
    if n < k then (n, v) :: (k, w) :: t else if k = n then (n, v) :: t else (k, w) :: tabSet t n v

/-- Removes the entry of a number. -/
def tabErase {α : Type} : Tab α → Nat → Tab α
  | [], _ => []
  | (k, w) :: t, n => if n < k then (k, w) :: t else if k = n then t else (k, w) :: tabErase t n

/-- Changes the entry of a number. -/
def tabMod {α : Type} (d : α) (t : Tab α) (n : Nat) (f : α → α) : Tab α := tabSet t n (f (tabGet d t n))

/-- Keys strictly rising, all at least `lo`. -/
def keysFrom {α : Type} : Nat → Tab α → Bool
  | _, [] => true
  | lo, (k, _) :: t => decide (lo ≤ k) && keysFrom (k + 1) t

/-- The canonical form of a memory: addresses strictly rising. An unlisted address has no value, so no entry equals what
it reads as. -/
def Memory.wf (m : Mem) : Bool := keysFrom 0 m

/-- The byte of an address, if something has written it. -/
def memByte (m : Mem) (a : Nat) : Option Byte := tabGet? m a

/-- Writes one byte. -/
def memPut (m : Mem) (a : Nat) (b : Byte) : Mem := tabSet m a b

/-- Writes bytes at rising addresses. -/
def memWrite (m : Mem) (a : Nat) : List Byte → Mem
  | [] => m
  | b :: bs => memWrite (memPut m a b) (a + 1) bs

/-- Restores a byte to what it was, which may be no value. -/
def memRestore (m : Mem) (a : Nat) : Option Byte → Mem
  | some b => memPut m a b
  | none => tabErase m a

/-- The numbers `a .. a + n - 1`. -/
def rangeFrom : Nat → Nat → List Nat
  | _, 0 => []
  | a, n + 1 => a :: rangeFrom (a + 1) n

/-- Little-endian value of bytes. -/
def bytesNat : List Byte → Nat
  | [] => 0
  | b :: bs => b.toNat + 256 * bytesNat bs

/-- The `n` low bytes of a number, little-endian. -/
def natBytes : Nat → Nat → List Byte
  | 0, _ => []
  | n + 1, x => BitVec.ofNat 8 x :: natBytes n (x / 256)

/-- The 8 bytes of a 64-bit value. -/
def wordBytes (w : Word) : List Byte := natBytes 8 w.toNat

/-- Bits `hi` down to `lo` of a word as a number. -/
def bitsOf (w : Nat) (hi lo : Nat) : Nat := w / 2 ^ lo % 2 ^ (hi + 1 - lo)

/-- Whether bit `i` of a number is set. -/
def bitOf (w i : Nat) : Bool := w / 2 ^ i % 2 == 1

/-- The n-th element of a list, counted from zero, replaced. -/
def listSet {α : Type} : List α → Nat → α → List α
  | [], _, _ => []
  | _ :: l, 0, v => v :: l
  | a :: l, n + 1, v => a :: listSet l n v

/-- Inserts before the first element for which `lt new old` holds. -/
def insertBy {α : Type} (lt : α → α → Bool) (x : α) : List α → List α
  | [] => [x]
  | y :: l => if lt x y then x :: y :: l else y :: insertBy lt x l

/-- Removes the first element that satisfies `p`. -/
def eraseFirst {α : Type} (p : α → Bool) : List α → List α
  | [] => []
  | y :: l => if p y then l else y :: eraseFirst p l

/-- Replaces the first element that satisfies `p`. -/
def modFirst {α : Type} (p : α → Bool) (f : α → α) : List α → List α
  | [] => []
  | y :: l => if p y then f y :: l else y :: modFirst p f l

end Sys2Proof.Machine
end

