-- ==== Sys2Proof/Machine/Crypto.lean ====
section
/-! DEFINITION. The algorithms that the Cartouche and the memory controllers use (R424, R426, R429 to R434): SHA-512, HMAC and HKDF, MGF1 and RSASSA-PSS,
AES-256 with GCM, and XTS. Digests, keys and signatures are numbers whose little-endian bytes are their bytes in order. -/
namespace Sys2Proof.Machine

/-! ### SHA-512 -/

/-- The round constants: four tables, so that no list is long. -/
def sha512K : List Word :=
  [0x428a2f98d728ae22, 0x7137449123ef65cd, 0xb5c0fbcfec4d3b2f, 0xe9b5dba58189dbbc] ++
  [0x3956c25bf348b538, 0x59f111f1b605d019, 0x923f82a4af194f9b, 0xab1c5ed5da6d8118] ++
  [0xd807aa98a3030242, 0x12835b0145706fbe, 0x243185be4ee4b28c, 0x550c7dc3d5ffb4e2] ++
  [0x72be5d74f27b896f, 0x80deb1fe3b1696b1, 0x9bdc06a725c71235, 0xc19bf174cf692694] ++
  [0xe49b69c19ef14ad2, 0xefbe4786384f25e3, 0x0fc19dc68b8cd5b5, 0x240ca1cc77ac9c65] ++
  [0x2de92c6f592b0275, 0x4a7484aa6ea6e483, 0x5cb0a9dcbd41fbd4, 0x76f988da831153b5] ++
  [0x983e5152ee66dfab, 0xa831c66d2db43210, 0xb00327c898fb213f, 0xbf597fc7beef0ee4] ++
  [0xc6e00bf33da88fc2, 0xd5a79147930aa725, 0x06ca6351e003826f, 0x142929670a0e6e70] ++
  [0x27b70a8546d22ffc, 0x2e1b21385c26c926, 0x4d2c6dfc5ac42aed, 0x53380d139d95b3df] ++
  [0x650a73548baf63de, 0x766a0abb3c77b2a8, 0x81c2c92e47edaee6, 0x92722c851482353b] ++
  [0xa2bfe8a14cf10364, 0xa81a664bbc423001, 0xc24b8b70d0f89791, 0xc76c51a30654be30] ++
  [0xd192e819d6ef5218, 0xd69906245565a910, 0xf40e35855771202a, 0x106aa07032bbd1b8] ++
  [0x19a4c116b8d2d0c8, 0x1e376c085141ab53, 0x2748774cdf8eeb99, 0x34b0bcb5e19b48a8] ++
  [0x391c0cb3c5c95a63, 0x4ed8aa4ae3418acb, 0x5b9cca4f7763e373, 0x682e6ff3d6b2b8a3] ++
  [0x748f82ee5defb2fc, 0x78a5636f43172f60, 0x84c87814a1f0ab72, 0x8cc702081a6439ec] ++
  [0x90befffa23631e28, 0xa4506cebde82bde9, 0xbef9a3f7b2c67915, 0xc67178f2e372532b] ++
  [0xca273eceea26619c, 0xd186b8c721c0c207, 0xeada7dd6cde0eb1e, 0xf57d4f7fee6ed178] ++
  [0x06f067aa72176fba, 0x0a637dc5a2c898a6, 0x113f9804bef90dae, 0x1b710b35131c471b] ++
  [0x28db77f523047d84, 0x32caab7b40c72493, 0x3c9ebe0a15c9bebc, 0x431d67c49c100d4c] ++
  [0x4cc5d4becb3e42b6, 0x597f299cfc657e2a, 0x5fcb6fab3ad6faec, 0x6c44198c4a475817]

/-- The initial hash value. -/
def sha512Init : List Word :=
  [0x6a09e667f3bcc908, 0xbb67ae8584caa73b, 0x3c6ef372fe94f82b, 0xa54ff53a5f1d36f1] ++
  [0x510e527fade682d1, 0x9b05688c2b3e6c1f, 0x1f83d9abfb41bd6b, 0x5be0cd19137e2179]

/-- Big-endian bytes of a number. -/
def beBytes (n x : Nat) : List Byte := (natBytes n x).reverse

/-- The number that big-endian bytes make. -/
def beNat (l : List Byte) : Nat := bytesNat l.reverse

/-- Two lists of bytes added without carry. -/
def xorBytes (a b : List Byte) : List Byte := List.zipWith (· ^^^ ·) a b

/-- The next `n` words of a message schedule whose last sixteen words are given. -/
def shaExpand : Nat → List Word → List Word
  | 0, _ => []
  | n + 1, w =>
    let a := w.getD 14 0
    let b := w.getD 1 0
    let x := (a.rotateRight 19 ^^^ a.rotateRight 61 ^^^ (a >>> 6)) + w.getD 9 0
      + (b.rotateRight 1 ^^^ b.rotateRight 8 ^^^ (b >>> 7)) + w.getD 0 0
    x :: shaExpand n (w.drop 1 ++ [x])

/-- One round. -/
def shaRound (h : List Word) (kw : Word) : List Word :=
  let a := h.getD 0 0
  let b := h.getD 1 0
  let c := h.getD 2 0
  let e := h.getD 4 0
  let f := h.getD 5 0
  let g := h.getD 6 0
  let t1 := h.getD 7 0 + (e.rotateRight 14 ^^^ e.rotateRight 18 ^^^ e.rotateRight 41) + ((e &&& f) ^^^ (~~~e &&& g)) + kw
  let t2 := (a.rotateRight 28 ^^^ a.rotateRight 34 ^^^ a.rotateRight 39) + ((a &&& b) ^^^ (a &&& c) ^^^ (b &&& c))
  [t1 + t2, a, b, c, h.getD 3 0 + t1, e, f, g]

/-- The compression of a block of 128 bytes. -/
def shaBlock (h : List Word) (blk : List Byte) : List Word :=
  let w := (rangeFrom 0 16).map fun t => BitVec.ofNat 64 (beNat ((blk.drop (8 * t)).take 8))
  let ws := w ++ shaExpand 64 w
  List.zipWith (· + ·) h ((List.zipWith (· + ·) sha512K ws).foldl shaRound h)

/-- The padded message: a bit 1, zeros, and the length in bits. -/
def shaPad (m : List Byte) : List Byte :=
  m ++ [0x80] ++ List.replicate ((239 - m.length % 128) % 128) 0 ++ beBytes 16 (8 * m.length)

/-- The 64 bytes of a SHA-512 digest. -/
def sha512Bytes (m : List Byte) : List Byte :=
  let p := shaPad m
  ((rangeFrom 0 (p.length / 128)).foldl (fun h k => shaBlock h ((p.drop (128 * k)).take 128)) sha512Init).flatMap fun x => beBytes 8 x.toNat

/-- SHA-512 (R424, R428). -/
def sha512 (m : List Byte) : BitVec 512 := BitVec.ofNat 512 (bytesNat (sha512Bytes m))

/-! ### HMAC and HKDF -/

/-- HMAC with SHA-512, for keys of at most a block. -/
def hmac512 (key m : List Byte) : List Byte :=
  let k := key ++ List.replicate (128 - key.length) 0
  sha512Bytes (k.map (· ^^^ 0x5C) ++ sha512Bytes (k.map (· ^^^ 0x36) ++ m))

/-- The blocks of HKDF-Expand from block `i` on. -/
def hkdfBlocks (prk info : List Byte) : Nat → Nat → List Byte → List Byte
  | 0, _, _ => []
  | n + 1, i, prev =>
    let t := hmac512 prk (prev ++ info ++ [BitVec.ofNat 8 i])
    t ++ hkdfBlocks prk info n (i + 1) t

/-- HKDF-Expand with SHA-512 (R431): `n` bytes. -/
def hkdfExpand (prk info : List Byte) (n : Nat) : List Byte := (hkdfBlocks prk info ((n + 63) / 64) 1 []).take n

/-! ### RSASSA-PSS -/

/-- MGF1 with SHA-512. -/
def mgf1 (seed : List Byte) (n : Nat) : List Byte :=
  ((rangeFrom 0 ((n + 63) / 64)).flatMap fun i => sha512Bytes (seed ++ beBytes 4 i)).take n

/-- The first byte of a list with its top bit cleared. -/
def clearTop : List Byte → List Byte
  | [] => []
  | b :: l => (b &&& 0x7F) :: l

/-- EMSA-PSS with a salt of 64 bytes, encoded for 4,095 bits (R424). -/
def pssEncode (m salt : List Byte) : List Byte :=
  let h := sha512Bytes (List.replicate 8 0 ++ sha512Bytes m ++ salt)
  clearTop (xorBytes (List.replicate 382 0 ++ [1] ++ salt) (mgf1 h 447)) ++ h ++ [0xBC]

/-- The check of an encoded message (R424): any other form fails. -/
def pssOk (m em : List Byte) : Bool :=
  let h := (em.drop 447).take 64
  let db := clearTop (xorBytes (em.take 447) (mgf1 h 447))
  em.length == 512 && em.getD 511 0 == 0xBC && (em.getD 0 0).getLsbD 7 == false && db.take 383 == List.replicate 382 0 ++ [1]
    && h == sha512Bytes (List.replicate 8 0 ++ sha512Bytes m ++ db.drop 383)

/-- Powers modulo `n`: `f` bits of the exponent. -/
def powMod (n : Nat) : Nat → Nat → Nat → Nat
  | 0, _, _ => 1 % n
  | f + 1, b, e => (if e % 2 = 1 then b else 1) * powMod n f (b * b % n) (e / 2) % n

/-- A signature of a message with a private exponent (R424). -/
def pssSign (n d : Nat) (salt m : List Byte) : BitVec 4096 :=
  BitVec.ofNat 4096 (bytesNat (beBytes 512 (powMod n 4096 (beNat (pssEncode m salt)) d)))

/-- Whether a signature checks under a public key (R424): a modulus of 4,096 bits, in the bytes of the key, and the exponent. -/
def pssVerify (key : BitVec 4096) (e : Nat) (m : List Byte) (sig : BitVec 4096) : Bool :=
  let n := beNat (natBytes 512 key.toNat)
  let x := beNat (natBytes 512 sig.toNat)
  decide (2 ^ 4095 ≤ n ∧ x < n) && pssOk m (beBytes 512 (powMod n 4096 x e))

/-! ### AES-256 -/

/-- The substitution of AES, 32 entries a number, and its inverse. -/
def aesSbox : List Nat :=
  [0xc072a49cafa2d4adf04759fa7dc982ca76abd7fe2b670130c56f6bf27b777c63, 0x75b227ebe28012079a059618c323c7041531d871f1e5a534ccf73f362693fdb7] ++
  [0xcf584c4a39becb6a5bb1fc20ed00d153842fe329b3d63b52a05a6e1b1a2c8309, 0xd2f3ff1021dab6bcf5389d928f40a351a89f3c507f02f94585334d43fbaaefd0] ++
  [0xdb0b5ede14b8ee4688902a22dc4f816073195d643d7ea7c41744975fec130ccd, 0x08ae7a65eaf4566ca94ed58d6d37c8e779e4959162acd3c25c2406490a3a32e0] ++
  [0x9e1dc186b95735610ef6034866b53e708a8bbd4b1f74dde8c6b4a61c2e2578ba, 0x16bb54b00f2d99416842e6bf0d89a18cdf2855cee9871e9b948ed9691198f8e1]
/-- See `aesSbox`. -/
def aesInvSbox : List Nat :=
  [0xcbe9dec444438e3487ff2f9b8239e37cfbd7f3819ea340bf38a53630d56a0952, 0x25d18b6d49a25b76b224d92866a12e084ec3fa420b954cee3d23c2a632947b54] ++
  [0x849d8da75746155edab9edfd5048706c92b6655dcc5ca4d41698688664f6f872, 0x6b8a130103bdafc1020f3fca8f1e2cd00645b3b80558e4f70ad3bc8c00abd890] ++
  [0x6edf751ce837f9e28535ade72274ac9673e6b4f0cecff297eadc674f4111913a, 0xf45acd78fec0db9a2079d2c64b3e56fc1bbe18aa0e62b76f89c5291d711af147] ++
  [0xef9cc9939f7ae52d0d4ab519a97f51605fec8027591012b131c7078833a8dd1f, 0x7d0c2155631469e126d677ba7e042b17619953833cbbebc8b0f52aae4d3be0a0]

/-- An entry of a substitution. -/
def boxAt (t : List Nat) (b : Byte) : Byte := BitVec.ofNat 8 (t.getD (b.toNat / 32) 0 / 2 ^ (8 * (b.toNat % 32)))

/-- A byte doubled in AES's field. -/
def aesDouble (b : Byte) : Byte := (b <<< 1) ^^^ (if b.getLsbD 7 then 0x1B else 0)

/-- A product in AES's field with a number below 16. -/
def aesMul (n : Nat) (b : Byte) : Byte :=
  let b2 := aesDouble b
  let b4 := aesDouble b2
  (if bitOf n 0 then b else 0) ^^^ (if bitOf n 1 then b2 else 0) ^^^ (if bitOf n 2 then b4 else 0) ^^^ if bitOf n 3 then aesDouble b4 else 0

/-- The next `n` words of a key schedule, from word `i` on, whose last eight words are given. -/
def aesExpand : Nat → Nat → Byte → List (List Byte) → List (List Byte)
  | 0, _, _, _ => []
  | n + 1, i, rc, w =>
    let t := w.getD 7 []
    let u := if i % 8 = 0 then xorBytes ((t.drop 1 ++ t.take 1).map (boxAt aesSbox)) [rc, 0, 0, 0]
      else if i % 8 = 4 then t.map (boxAt aesSbox) else t
    let x := xorBytes (w.getD 0 []) u
    x :: aesExpand n (i + 1) (if i % 8 = 0 then aesDouble rc else rc) (w.drop 1 ++ [x])

/-- The fifteen round keys of a key of 32 bytes. -/
def aesKeys (key : List Byte) : List (List Byte) :=
  let w := (rangeFrom 0 8).map fun i => (key.drop (4 * i)).take 4
  let ws := (w ++ aesExpand 52 8 1 w).flatMap id
  (rangeFrom 0 15).map fun r => (ws.drop (16 * r)).take 16

/-- The columns of a state mixed with the coefficients of one row. -/
def aesMix (c : List Nat) (x : List Byte) : List Byte :=
  (rangeFrom 0 16).map fun i =>
    (rangeFrom 0 4).foldl (fun r k => r ^^^ aesMul (c.getD ((k + 4 - i % 4) % 4) 0) (x.getD (i / 4 * 4 + k) 0)) 0

/-- The rows of a state moved: `m` is 1 to encrypt and 3 to decrypt. -/
def aesShift (m : Nat) (x : List Byte) : List Byte := (rangeFrom 0 16).map fun i => x.getD ((i + 4 * m * (i % 4)) % 16) 0

/-- AES-256 of a block of 16 bytes under its round keys. -/
def aesEnc (ks : List (List Byte)) (b : List Byte) : List Byte :=
  let x := (rangeFrom 1 13).foldl (fun x r => xorBytes (aesMix [2, 3, 1, 1] (aesShift 1 (x.map (boxAt aesSbox)))) (ks.getD r []))
    (xorBytes b (ks.getD 0 []))
  xorBytes (aesShift 1 (x.map (boxAt aesSbox))) (ks.getD 14 [])

/-- The inverse of `aesEnc`. -/
def aesDec (ks : List (List Byte)) (b : List Byte) : List Byte :=
  let x := (rangeFrom 1 13).foldl (fun x r => aesMix [14, 11, 13, 9] (xorBytes ((aesShift 3 x).map (boxAt aesInvSbox)) (ks.getD (14 - r) [])))
    (xorBytes b (ks.getD 14 []))
  xorBytes ((aesShift 3 x).map (boxAt aesInvSbox)) (ks.getD 0 [])

/-- Blocks of 16 bytes. -/
def blocks16 (l : List Byte) : List (List Byte) := (rangeFrom 0 ((l.length + 15) / 16)).map fun k => (l.drop (16 * k)).take 16

/-! ### GCM -/

/-- The product of GCM's field, from bit `n - 1` of the big-endian number `x` down. -/
def ghashMul (x : Nat) : Nat → Nat → Nat → Nat
  | 0, z, _ => z
  | n + 1, z, v =>
    ghashMul x n (if bitOf x n then z ^^^ v else z) (if v % 2 = 1 then v / 2 ^^^ (0xE1 * 2 ^ 120) else v / 2)

/-- GHASH of bytes that fill whole blocks. -/
def ghash (h : Nat) (l : List Byte) : Nat := (blocks16 l).foldl (fun y b => ghashMul (y ^^^ beNat b) 128 0 h) 0

/-- Bytes padded with zeros to whole blocks. -/
def pad16 (l : List Byte) : List Byte := l ++ List.replicate ((16 - l.length % 16) % 16) 0

/-- The counter stream from counter `c` on, over bytes. -/
def gcmCtr (ks : List (List Byte)) (nonce : List Byte) (c : Nat) (l : List Byte) : List Byte :=
  ((blocks16 l).zipIdx).flatMap fun p => xorBytes p.1 (aesEnc ks (nonce ++ beBytes 4 (c + p.2)))

/-- The tag of associated data and ciphertext. -/
def gcmTag (ks : List (List Byte)) (nonce aad ct : List Byte) : List Byte :=
  let h := beNat (aesEnc ks (List.replicate 16 0))
  let g := ghash h (pad16 aad ++ pad16 ct ++ beBytes 8 (8 * aad.length) ++ beBytes 8 (8 * ct.length))
  xorBytes (beBytes 16 g) (aesEnc ks (nonce ++ beBytes 4 1))

/-- AES-256-GCM (R426, R430): ciphertext and tag. -/
def gcmSeal (key nonce aad pt : List Byte) : List Byte :=
  let ks := aesKeys key
  let ct := gcmCtr ks nonce 2 pt
  ct ++ gcmTag ks nonce aad ct

/-- The plaintext, if the tag authenticates. -/
def gcmOpen (key nonce aad ct tag : List Byte) : Option (List Byte) :=
  let ks := aesKeys key
  if gcmTag ks nonce aad ct = tag then some (gcmCtr ks nonce 2 ct) else none

/-! ### XTS -/

/-- A tweak multiplied by the primitive element: a little-endian number. -/
def xtsDouble (t : Nat) : Nat := (2 * t % 2 ^ 128) ^^^ if bitOf t 127 then 0x87 else 0

/-- A data unit of whole blocks under the first half of a key, with tweaks from the second half on. -/
def xtsUnit (f : List (List Byte) → List Byte → List Byte) (key : BitVec 512) (unit : Nat) (l : List Byte) : List Byte :=
  let k1 := aesKeys (natBytes 32 key.toNat)
  let k2 := aesKeys (natBytes 32 (key.toNat / 2 ^ 256))
  let t0 := bytesNat (aesEnc k2 (natBytes 16 unit))
  ((blocks16 l).foldl (fun (acc : List Byte × Nat) b =>
    let t := natBytes 16 acc.2
    (acc.1 ++ xorBytes (f k1 (xorBytes b t)) t, xtsDouble acc.2)) ([], t0)).1

/-- AES-XTS-256 of a data unit (R433). -/
def xtsEnc (key : BitVec 512) (unit : Nat) (l : List Byte) : List Byte := xtsUnit aesEnc key unit l
/-- The inverse. -/
def xtsDec (key : BitVec 512) (unit : Nat) (l : List Byte) : List Byte := xtsUnit aesDec key unit l

end Sys2Proof.Machine
end

