-- ==== Sys2Proof/Machine/Cert.lean ====
section
/-! DEFINITION. Certificate chains of peers and switches (R424, R431, R435): X.509 v3 in DER. PRESUMED (log entry 82): the fields of a certificate and the
form of a public key are those of X.509 as the author knows it. -/
namespace Sys2Proof.Machine

/-! ### DER -/

/-- An element: its tag, its contents, and all of its bytes. -/
structure DerEl where
  tag   : Byte
  body  : List Byte
  whole : List Byte
  deriving DecidableEq, Repr

/-- The length at the head of some bytes, and the bytes after it. -/
def derLen : List Byte → Option (Nat × List Byte)
  | [] => none
  | b :: l =>
    let k := b.toNat - 128
    if b.toNat < 128 then some (b.toNat, l)
    else if 1 ≤ k ∧ k ≤ 4 ∧ k ≤ l.length then some (beNat (l.take k), l.drop k) else none

/-- The first element of some bytes, and what follows it. -/
def derFirst : List Byte → Option (DerEl × List Byte)
  | [] => none
  | t :: r => match derLen r with
    | none => none
    | some (n, b) =>
      if n ≤ b.length then some ({ tag := t, body := b.take n, whole := (t :: r).take (1 + (r.length - b.length) + n) }, b.drop n) else none

/-- The elements of some bytes, up to `n` of them. -/
def derList : Nat → List Byte → List DerEl
  | 0, _ => []
  | n + 1, l => match derFirst l with
    | none => []
    | some (e, r) => e :: derList n r

/-! ### Certificates -/

/-- What a certificate says: its signed part, issuer and subject, the subject's key with its exponent, and the signature. -/
structure X509 where
  raw     : List Byte
  signed  : List Byte
  issuer  : List Byte
  subject : List Byte
  key     : BitVec 4096
  exp     : Nat
  sig     : BitVec 4096
  deriving DecidableEq, Repr

/-- 512 bytes as a key or a signature. -/
def rsaWord (l : List Byte) : BitVec 4096 := BitVec.ofNat 4096 (bytesNat l)

/-- The modulus and exponent of a public key's bits: an element of two numbers. -/
def rsaKey (bits : List Byte) : Option (BitVec 4096 × Nat) :=
  match derFirst (bits.drop 1) with
  | some (q, _) => match derList 2 q.body with
    | [n, e] => if beNat n.body < 2 ^ 4096 then some (rsaWord (beBytes 512 (beNat n.body)), beNat e.body) else none
    | _ => none
  | none => none

/-- A certificate's parts, if it has the form of one. -/
def x509Of (c : DerEl) : Option X509 :=
  match derList 3 c.body with
  | [t, _, s] => match derList 7 t.body with
    | [_, _, _, i, _, u, k] => match derList 2 k.body with
      | [_, b] => (rsaKey b.body).map fun p =>
          { raw := c.whole, signed := t.whole, issuer := i.whole, subject := u.whole, key := p.1, exp := p.2, sig := rsaWord (s.body.drop 1) }
      | _ => none
    | _ => none
  | _ => none

/-- The certificates of a chain, up to 16. -/
def x509List (l : List Byte) : Option (List X509) := (derList 16 l).mapM x509Of

/-- Whether each certificate is signed by the one before it, the first under the given one (R424). -/
def signedFrom (a : X509) : List X509 → Bool
  | [] => true
  | c :: l => c.issuer == a.subject && pssVerify a.key a.exp c.signed c.sig && signedFrom c l

/-- Whether a certificate chain leads to a trust anchor (R431, R435): it starts with the anchor, or with a certificate that the anchor has signed. -/
def chains (anchor chain : List Byte) : Bool :=
  match (derFirst anchor).bind (fun p => x509Of p.1), x509List chain with
  | some a, some (c :: l) => if c.raw = a.raw then signedFrom a l else signedFrom a (c :: l)
  | _, _ => false

/-- The key of the last certificate of a chain, with its exponent. -/
def leafKey (chain : List Byte) : Option (BitVec 4096 × Nat) := ((x509List chain).bind List.getLast?).map fun c => (c.key, c.exp)

end Sys2Proof.Machine
end

