-- ==== Sys2Proof/Config.lean ====
section
/-! DEFINITION. What the manual leaves open: constants and functions without a body, of which nothing can be proved but
that they are what they are (log entries 2 and 11). -/
namespace Sys2Proof.Config

/-- The value of a byte of memory that nothing has written, by the memory's fill and the address (R254, R338). -/
opaque freeByte (fill addr : Nat) : Byte
/-- The contents of a row of a tile that nothing has written (R174). -/
opaque freeRow (fill row : Nat) : Row
/-- The contents of a row of an operand slot that nothing has written (R170). -/
opaque freeObRow (fill row : Nat) : ObRow
/-- A 64-bit value that the manual leaves unspecified, by the counter of free values. -/
opaque freeWord (n : Nat) : Word

/-- The fault code, and the unit number, that a fault-log record of an agent holds where the manual states none, by SRC (R414). -/
opaque unitCode (src : Nat) : BitVec 16
/-- See `unitCode`. -/
opaque unitNo (src : Nat) : BitVec 16
/-- The fused voltage curve of an island: an offset for a frequency (R439). -/
opaque islandVolt (island mhz : Nat) : Nat
/-- The salt of a signature, by the counter of free values (R424). -/
opaque salt (n : Nat) : BitVec 512
/-- The device identity key (R423): its modulus, as the bytes of the public key, and the private exponent. -/
opaque idKey : BitVec 4096
/-- See `idKey`. -/
opaque idPriv : Nat
/-- The public exponent of the RSA-4096 keys, which the manual does not state (R424). -/
opaque rsaExp : Nat
/-- The two keys that the Cartouche draws for a context, by the number of the drawing (R433). -/
opaque memKey (n : Nat) : BitVec 512
/-- How many copies of a payload leave a member's ports in the hierarchical algorithm, whose planes the manual leaves to the group's
set-up: members, member, place of the sum, and the member whose contribution it is, or the number of members for a result (R379, R407). -/
opaque hierCopies (n member place payload : Nat) : Nat
/-- The port by which a member's payloads of a chunk pass where no ring is their route: algorithm, members, member and chunk (R379). -/
opaque colPort (algo n member chunk : Nat) : Nat
/-- The part of a certificate that its issuer signs, by its position in the chain, its subject's public key and the module's serial number, and the
certificate with its signature, both in DER (R423). -/
opaque certBody (pos : Nat) (key : BitVec 4096) (serial : Word) : List Byte
/-- See `certBody`. -/
opaque certDer (body : List Byte) (sig : BitVec 4096) : List Byte
/-- The keys of the root and of the product intermediate, with their private exponents, and the salts of the chain's signatures (R423). -/
opaque caKey (k : Nat) : BitVec 4096
/-- See `caKey`. -/
opaque caPriv (k : Nat) : Nat
/-- See `caKey`. -/
opaque certSalt (pos : Nat) : BitVec 512
/-- The module's serial number (R423). -/
opaque serial : Word
/-- The two vendor keys in the boot ROM (R425). -/
opaque vendorKey (k : Nat) : BitVec 4096
/-- The Cartouche (1), management (2) and link firmware (3) that the module holds, with their signatures (R425, R428). -/
opaque fwImage (n : Nat) : List Byte
/-- See `fwImage`. -/
opaque fwSig (n : Nat) : BitVec 4096
/-- The master secret of a session's key exchange, and the digest of its transcript, by the session's number (R429). -/
opaque sessSecret (n : Nat) : BitVec 512
/-- See `sessSecret`. -/
opaque sessHash (n : Nat) : BitVec 512
/-- The bytes of a response that the negotiated transfer size lets pass at once, less one (R429). -/
opaque doeSize : Nat
/-- The frames that one link key may seal before a nonce would repeat, less 2^32 (R432), and the payload bytes of a frame of the wide-area mode, less 64 and
within the limit of a frame (R374). -/
opaque nonceLimit : Nat
/-- See `nonceLimit`. -/
opaque frameCut : Nat
/-- The key of a port's frames that no binding keys, by the port and the key's number (R374). -/
opaque portKey (port keyNo : Nat) : BitVec 256
/-- The key of the MAC that ends a session's exchange, by the session's number (R429). -/
opaque finishKey (n : Nat) : BitVec 512
/-- Whether the Cartouche refuses a key step, and a step that it does not refuse, by the counter of free values (R450). -/
opaque keyRefusal (n : Nat) : Bool
/-- See `keyRefusal`. -/
opaque keyStep : Nat
/-- By how many mV the rail rises above 400 mV while an island runs above 3.0 GHz (R439). -/
opaque railRise : Nat
/-- The cause that a step of bring-up reports for a signature that does not check (R444). -/
opaque bootCause (step : Nat) : BitVec 32
/-- The place that the loader chooses for a section (R107), by the counter of free values. -/
opaque loadAddr (n : Nat) : BitVec 48

end Sys2Proof.Config
end

