-- ==== Sys2Proof/Machine/Numbers.lean ====
section
/-! DEFINITION. Number formats and arithmetic (R59 to R83): exact dyadic values, their rounding into each format, the NX
blocks, and the correctly rounded elementary functions. -/
namespace Sys2Proof.Machine

/-! ### Exact values -/

/-- A value as the arithmetic units see it: NaN, an infinity, or an exact number `±m·2^e`, with the sign of a zero. -/
inductive FpNum where
  | nan
  | inf (neg : Bool)
  | fin (neg : Bool) (m : Nat) (e : Int)
  deriving DecidableEq, Repr

/-- The sign of a value; a NaN counts as positive. -/
def FpNum.neg : FpNum → Bool
  | .nan => false
  | .inf n => n
  | .fin n _ _ => n

/-- Whether a value is finite. -/
def FpNum.isFin : FpNum → Bool
  | .fin _ _ _ => true
  | _ => false

/-- The value of opposite sign. -/
def FpNum.negate : FpNum → FpNum
  | .nan => .nan
  | .inf n => .inf !n
  | .fin n m e => .fin (!n) m e

/-- A significand as a signed integer. -/
def signed (neg : Bool) (m : Nat) : Int := if neg then -(m : Int) else (m : Int)

/-- A natural number times a power of two that is not negative. -/
def shiftUp (m : Nat) (k : Int) : Nat := m * 2 ^ k.toNat

/-- The exact sum. A zero sum is negative only where both terms are negative zeros (R63). -/
def FpNum.add : FpNum → FpNum → FpNum
  | .nan, _ => .nan
  | _, .nan => .nan
  | .inf a, .inf b => if a = b then .inf a else .nan
  | .inf a, _ => .inf a
  | _, .inf b => .inf b
  | .fin na ma ea, .fin nb mb eb =>
    let e := min ea eb
    let x := signed na (shiftUp ma (ea - e)) + signed nb (shiftUp mb (eb - e))
    if x = 0 then .fin (na && nb && ma == 0 && mb == 0) 0 e else .fin (decide (x < 0)) x.natAbs e

/-- The exact product; infinity times zero is NaN (R79). -/
def FpNum.mul : FpNum → FpNum → FpNum
  | .nan, _ => .nan
  | _, .nan => .nan
  | .inf a, .inf b => .inf (a != b)
  | .inf a, .fin b m _ => if m = 0 then .nan else .inf (a != b)
  | .fin b m _, .inf a => if m = 0 then .nan else .inf (a != b)
  | .fin na ma ea, .fin nb mb eb => .fin (na != nb) (ma * mb) (ea + eb)

/-- The exact sum of a list of products (R77, R79): zero terms that are all negative leave a negative zero. -/
def FpNum.sum : List FpNum → FpNum
  | [] => .fin true 0 0
  | [x] => x
  | x :: l => x.add (FpNum.sum l)

/-- The order of two numbers that are not NaN, with -0 equal to +0: negative, zero or positive. -/
def FpNum.cmp : FpNum → FpNum → Int
  | .inf a, .inf b => if a = b then 0 else if a then -1 else 1
  | .inf a, _ => if a then -1 else 1
  | _, .inf b => if b then 1 else -1
  | .fin na ma ea, .fin nb mb eb =>
    let e := min ea eb
    let x := signed na (shiftUp ma (ea - e)) - signed nb (shiftUp mb (eb - e))
    if x < 0 then -1 else if x = 0 then 0 else 1
  | _, _ => 0

/-- IEEE equality: false for a NaN (R150). -/
def FpNum.eqB (a b : FpNum) : Bool := a != .nan && b != .nan && a.cmp b == 0
/-- IEEE less-than (R150). -/
def FpNum.ltB (a b : FpNum) : Bool := a != .nan && b != .nan && a.cmp b < 0
/-- IEEE less-or-equal (R150). -/
def FpNum.leB (a b : FpNum) : Bool := a != .nan && b != .nan && a.cmp b ≤ 0

/-- The larger operand; NaN if either is, and -0 below +0 (R82). -/
def FpNum.max (a b : FpNum) : FpNum :=
  if a = .nan ∨ b = .nan then .nan
  else if 0 < a.cmp b then a
  else if a.cmp b < 0 then b
  else if a.neg then b else a

/-- The smaller operand (R82). -/
def FpNum.min (a b : FpNum) : FpNum :=
  if a = .nan ∨ b = .nan then .nan
  else if a.cmp b < 0 then a
  else if 0 < a.cmp b then b
  else if a.neg then a else b

/-! ### Rounding -/

/-- A rounding mode with the word it uses, if it is stochastic (R69, R73). -/
inductive Rnd where
  | rne
  | rna
  | rz
  | sr (w : BitVec 32)
  deriving DecidableEq, Repr

/-- Whether a fraction `r / d` with `0 < r < d` above an integer part of that parity rounds up. -/
def roundUp (mode : Rnd) (odd : Bool) (r d : Nat) : Bool :=
  match mode with
  | .rne => d < 2 * r || (2 * r == d && odd)
  | .rna => d ≤ 2 * r
  | .rz => false
  | .sr w => decide (w.toNat < r * 2 ^ 32 / d)

/-- `n / d` rounded to a natural number. -/
def roundDiv (mode : Rnd) (n d : Nat) : Nat :=
  let q := n / d
  let r := n % d
  if r ≠ 0 ∧ roundUp mode (q % 2 == 1) r d = true then q + 1 else q

/-- `m·2^e` rounded to a natural multiple of `2^q`. -/
def roundAt (mode : Rnd) (m : Nat) (e q : Int) : Nat :=
  if q ≤ e then shiftUp m (e - q) else roundDiv mode m (2 ^ (q - e).toNat)

/-- A floating format: exponent and fraction bits, the largest biased exponent of a finite number and the largest
fraction there, and whether it has infinities (R59). -/
structure FF where
  eb   : Nat
  fb   : Nat
  bias : Int
  /-- The largest finite pattern without its sign. -/
  maxp : Nat
  inf  : Option Nat
  nan  : Nat
  deriving DecidableEq, Repr

/-- FP32 (R59). -/
def ffF32 : FF := { eb := 8, fb := 23, bias := 127, maxp := 0x7F7FFFFF, inf := some 0x7F800000, nan := 0x7FC00000 }
/-- ACC48 (R60). -/
def ffAcc : FF :=
  { eb := 8, fb := 39, bias := 127, maxp := 0x7F7FFFFFFFFF, inf := some 0x7F8000000000, nan := 0x7FC000000000 }
/-- BF16 (R59). -/
def ffBf16 : FF := { eb := 8, fb := 7, bias := 127, maxp := 0x7F7F, inf := some 0x7F80, nan := 0x7FC0 }
/-- FP16 (R59). -/
def ffF16 : FF := { eb := 5, fb := 10, bias := 15, maxp := 0x7BFF, inf := some 0x7C00, nan := 0x7E00 }
/-- FP8 E5M2 (R59). -/
def ffE5m2 : FF := { eb := 5, fb := 2, bias := 15, maxp := 0x7B, inf := some 0x7C, nan := 0x7F }
/-- FP8 E4M3 (R59): no infinity. -/
def ffE4m3 : FF := { eb := 4, fb := 3, bias := 7, maxp := 0x7E, inf := none, nan := 0x7F }

/-- The width of a format without its sign. -/
def FF.bits (f : FF) : Nat := f.eb + f.fb

/-- The value of a pattern (R59). -/
def FF.value (f : FF) (x : Nat) : FpNum :=
  let neg := bitOf x f.bits
  let p := x % 2 ^ f.bits
  if p ≤ f.maxp then
    let ex := p / 2 ^ f.fb
    let fr := p % 2 ^ f.fb
    if ex = 0 then .fin neg fr (1 - f.bias - f.fb)
    else .fin neg (fr + 2 ^ f.fb) (ex - f.bias - f.fb)
  else if f.inf = some p then .inf neg
  else .nan

/-- The number of bits of a natural number. -/
def bitLen (n : Nat) : Nat := if n = 0 then 0 else n.log2 + 1

/-- What a result does: its pattern, and whether it was clamped (R71). -/
structure Conv where
  bits  : Nat
  clamp : Bool := false
  deriving DecidableEq, Repr

/-- A pattern with a sign. -/
def FF.withSign (f : FF) (neg : Bool) (p : Nat) : Nat := if neg then p + 2 ^ f.bits else p

/-- An overflow or infinity of a floating target (R71). -/
def FF.over (f : FF) (mode : Rnd) (sat : Bool) (neg source : Bool) : Conv :=
  if sat then { bits := f.withSign neg f.maxp, clamp := true }
  else
    match f.inf with
    | none => { bits := f.nan }
    | some p => if mode = .rz ∧ source = false then { bits := f.withSign neg f.maxp } else { bits := f.withSign neg p }

/-- A value rounded into a floating format (R61 to R63, R69, R71). `keep` marks a conversion that R72 names exact, which
keeps an infinity whatever `.sat` says. -/
def FF.round (f : FF) (mode : Rnd) (sat keep : Bool) (x : FpNum) : Conv :=
  match x with
  | .nan => { bits := f.nan }
  | .inf neg => f.over mode (sat && !keep) neg true
  | .fin neg m e =>
    if m = 0 then { bits := f.withSign neg 0 }
    else
      let qmin : Int := 1 - f.bias - f.fb
      let q : Int := Max.max qmin ((bitLen m : Int) + e - (f.fb + 1))
      let n := roundAt mode m e q
      -- the pattern of n·2^q: adding the significand carries into the exponent
      let p : Nat := ((q - qmin).toNat) * 2 ^ f.fb + n
      if p ≤ f.maxp then { bits := f.withSign neg p } else f.over mode sat neg false

/-- The default rounding of an arithmetic result (R70). -/
def FF.rne (f : FF) (x : FpNum) : Nat := (f.round .rne false false x).bits

/-- A value rounded to an integer in a mode, and clamped to a range (R71, R72). -/
def toInt (mode : Rnd) (lo hi : Int) (x : FpNum) : Int × Bool :=
  match x with
  | .nan => (0, true)
  | .inf neg => (if neg then lo else hi, true)
  | .fin neg m e =>
    let v := signed neg (roundAt mode m e 0)
    if v < lo then (lo, true) else if hi < v then (hi, true) else (v, false)

/-- An integer as an exact value. -/
def numOfInt (v : Int) : FpNum := .fin (decide (v < 0)) v.natAbs 0

/-- The two's-complement value of the low `n` bits. -/
def sintOf (n x : Nat) : Int := if bitOf x (n - 1) then (x % 2 ^ n : Nat) - (2 ^ n : Nat) else (x % 2 ^ n : Nat)

/-- The low `n` bits of an integer. -/
def intBits (n : Nat) (v : Int) : Nat := (v % (2 ^ n : Nat)).toNat

/-! ### FP32 arithmetic on patterns -/

/-- The value of an FP32 pattern. -/
def f32 (x : Nat) : FpNum := ffF32.value x
/-- An FP32 sum (R83). -/
def f32Add (a b : Nat) : Nat := ffF32.rne ((f32 a).add (f32 b))
/-- The larger of two FP32 values (R82). -/
def f32Max (a b : Nat) : Nat := ffF32.rne ((f32 a).max (f32 b))
/-- The smaller of two FP32 values (R82). -/
def f32Min (a b : Nat) : Nat := ffF32.rne ((f32 a).min (f32 b))

/-! ### NX blocks -/

/-- The value of an NX element (R66). -/
def nxValue (k E sigma : Nat) (s : Bool) (m : Nat) : FpNum :=
  if E = 255 ∨ (s = true ∧ m = 0) then .nan
  else .fin s m ((E : Int) - 127 - sigma - ((k : Int) - 1))

/-- The bits of an NX block (R65). -/
def nxBits (k : Nat) : Nat := 16 + 16 * (k + 1)

/-- Element `i` of an NX block (R65, R66). -/
def nxElem (k blk i : Nat) : FpNum :=
  let lo := 16 + (k + 1) * i
  nxValue k (bitsOf blk 7 0) (bitsOf blk (9 + 2 * (i / 4)) (8 + 2 * (i / 4))) (bitOf blk (lo + k)) (bitsOf blk (lo + k - 1) lo)

/-- Whether `|x| ≤ n·2^q` for a finite value. -/
def absLe (x : FpNum) (n : Nat) (q : Int) : Bool :=
  match x with
  | .fin _ m e => let b := min e q; shiftUp m (e - b) ≤ shiftUp n (q - b)
  | _ => false

/-- The smallest `E` in `E, E+1, …` (at most `fuel` tries) whose scale holds every finite element. -/
def nxExp (k : Nat) (xs : List FpNum) : Nat → Nat → Nat
  | 0, E => E
  | fuel + 1, E => if xs.all (fun x => absLe x (2 ^ k - 1) ((E : Int) - 127 - ((k : Int) - 1))) then E else nxExp k xs fuel (E + 1)

/-- The quad's shift (R68). -/
def nxShift (k E : Nat) (xs : List FpNum) : Nat :=
  let ok (s : Nat) : Bool := xs.all (fun x => absLe x (2 ^ k - 1) ((E : Int) - 127 - s - ((k : Int) - 1)))
  if xs.isEmpty then 3 else if ok 3 then 3 else if ok 2 then 2 else if ok 1 then 1 else 0

/-- An NX block: its pattern and the elements that were clamped (R68). `mode i` gives the rounding of element `i`. -/
def nxEncode (k : Nat) (mode : Nat → Rnd) (xs : List FpNum) : Nat × List Nat :=
  let fin := xs.filter (·.isFin)
  let zero := fin.all fun x => absLe x 0 0
  let E := if zero then 0 else nxExp k fin 254 0
  let top := 2 ^ k - 1
  let shift (q : Nat) : Nat := nxShift k E (((xs.drop (4 * q)).take 4).filter (·.isFin))
  let elem (i : Nat) (x : FpNum) : Nat × Bool :=
    match x with
    | .fin neg m e =>
      let n := roundAt (mode i) m e ((E : Int) - 127 - shift (i / 4) - ((k : Int) - 1))
      let c := Min.min n top
      ((if neg && c != 0 then 2 ^ k else 0) + c, decide (top < n))
    | _ => (2 ^ k, false)
  let es := xs.zipIdx.map fun (x, i) => elem i x
  let body := es.foldr (fun (b, _) acc => b + 2 ^ (k + 1) * acc) 0
  let sh := shift 0 + 4 * shift 1 + 16 * shift 2 + 64 * shift 3
  (E + 256 * sh + 65536 * body, (es.zipIdx.filter fun (e, _) => e.2).map (·.2))

/-! ### Elementary functions -/

/-- The integer square root, bit by bit from `2^i` downward. -/
def isqrtGo (n : Nat) : Nat → Nat → Nat
  | 0, r => r
  | i + 1, r => let t := r + 2 ^ i; if t * t ≤ n then isqrtGo n i t else isqrtGo n i r

/-- The integer square root. -/
def isqrt (n : Nat) : Nat := isqrtGo n (bitLen n / 2 + 1) 0

/-- A value known to lie strictly between `m·2^e` and `(m+1)·2^e`, as one more bit that no rounding mistakes. -/
def sticky (neg : Bool) (m : Nat) (exact : Bool) (e : Int) : FpNum :=
  if exact then .fin neg m e else .fin neg (2 * m + 1) (e - 1)

/-- 1/x (R148). -/
def numRcp : FpNum → FpNum
  | .nan => .nan
  | .inf n => .fin n 0 0
  | .fin n m e =>
    if m = 0 then .inf n
    else
      let k := bitLen m + 40
      let q := 2 ^ k / m
      sticky n q (q * m == 2 ^ k) (-e - k)

/-- 1/sqrt(x) (R148). -/
def numRsqrt : FpNum → FpNum
  | .nan => .nan
  | .inf n => if n then .nan else .fin false 0 0
  | .fin n m e =>
    if m = 0 then .inf n
    else if n then .nan
    else
      -- make the exponent even, then 2^k / sqrt(m') with k large
      let m' := if e % 2 = 0 then m else 2 * m
      let e' := if e % 2 = 0 then e else e - 1
      let k := bitLen m' + 40
      let q := isqrt (2 ^ (2 * k) / m')
      sticky false q (q * q * m' == 2 ^ (2 * k)) (-(e' / 2) - k)

/-- `2^(2^-i)` in fixed point with 320 bits, truncated, for `i` from 1: repeated square roots of 2. -/
def exp2Roots : Nat → Nat → List Nat
  | 0, _ => []
  | n + 1, x => let r := isqrt (x * 2 ^ 320); r :: exp2Roots n r

/-- The product of the roots whose bits are set in `f`, bit `n - 1` standing for `2^(1/2)`. -/
def exp2Frac (f : Nat) : Nat → List Nat → Nat → Nat
  | _, [], acc => acc
  | 0, _, acc => acc
  | n + 1, r :: rs, acc => exp2Frac f n rs (if bitOf f n then acc * r / 2 ^ 320 else acc)

/-- 2^x (R148). A magnitude up to 2^-26 rounds to 1; a magnitude of 256 or more is beyond the range. -/
def numExp2 : FpNum → FpNum
  | .nan => .nan
  | .inf n => if n then .fin false 0 0 else .inf false
  | .fin n m e =>
    if m = 0 then .fin false 1 0
    else if absLe (.fin n m e) 1 (-26) then .fin false 1 0
    else if !absLe (.fin n m e) 1 8 then (if n then .fin false 0 0 else .inf false)
    else
      -- |x| ≥ 2^-26 and x is an FP32 value, so x is a multiple of 2^-49
      let x : Int := signed n (roundAt .rz m e (-49))
      let i := x / 2 ^ 49
      let f := (x % 2 ^ 49).toNat
      if f = 0 then .fin false 1 i
      else sticky false (exp2Frac f 49 (exp2Roots 49 (2 ^ 321)) (2 ^ 320)) false (i - 320)

/-- Binary digits of log2 of a number in [1, 2), held with 400 bits: squaring and halving. -/
def log2Digits : Nat → Nat → Nat → Nat
  | 0, _, acc => acc
  | n + 1, x, acc =>
    let y := x * x / 2 ^ 400
    if 2 ^ 401 ≤ y then log2Digits n (y / 2) (2 * acc + 1) else log2Digits n y (2 * acc)

/-- log2(x) (R148): the exact integer for a power of two. -/
def numLog2 : FpNum → FpNum
  | .nan => .nan
  | .inf n => if n then .nan else .inf false
  | .fin n m e =>
    if m = 0 then .inf true
    else if n then .nan
    else
      let l := bitLen m
      let i : Int := e + l - 1
      if m = 2 ^ (l - 1) then numOfInt i
      else
        let d : Int := i * 2 ^ 120 + log2Digits 120 (m * 2 ^ (401 - l)) 0
        -- d·2^-120 < log2 < (d+1)·2^-120
        if d < 0 then .fin true (2 * d.natAbs - 1) (-121) else .fin false (2 * d.toNat + 1) (-121)

/-! ### The generator -/

/-- The generator's step (R76). -/
def advance (s : Word) : Word :=
  let a := s ^^^ (s <<< 13)
  let b := a ^^^ (a >>> 7)
  b ^^^ (b <<< 17)

/-- The generator's word (R52). -/
def genWord (s : Word) : BitVec 32 := (advance s).setWidth 32

/-- The states after `n` advances, and the words on the way (R76). -/
def genWords : Nat → Word → List (BitVec 32) × Word
  | 0, s => ([], s)
  | n + 1, s => let (l, t) := genWords n (advance s); (genWord s :: l, t)

end Sys2Proof.Machine
end

