-- ==== Sys2Proof/Machine/State.lean ====
section
/-! DEFINITION. The state of the machine as plain data, the reasons a step can stop, and the state after reset.
Every piece of state the manual names is a field here; INVENTORY.md lists them with their rules and reset values. -/
namespace Sys2Proof.Machine

/-! ### Result queues, latches and loops -/

/-- A position of sq (R41, R44). The value is fixed when the operation issues; it may be read once `ready` is set. -/
structure SqPos where
  id    : Nat := 0
  val   : Word := 0
  ready : Bool := true
  deriving DecidableEq, Repr

/-- A position of vq (R41, R44). -/
structure VqPos where
  id    : Nat := 0
  val   : Vec := 0
  ready : Bool := true
  deriving DecidableEq, Repr

/-- The operand latches A and B of the units (R39). -/
structure Latches where
  sA  : Word := 0
  sB  : Word := 0
  mA  : Word := 0
  mB  : Word := 0
  c0A : Word := 0
  c0B : Word := 0
  c1A : Word := 0
  c1B : Word := 0
  kA  : Word := 0
  kB  : Word := 0
  v0A : Vec := 0
  v0B : Vec := 0
  v1A : Vec := 0
  v1B : Vec := 0
  deriving DecidableEq, Repr

/-- The loop state of the sequencer: LOOPC.REM and the fields of LBODY (R118). -/
structure LoopState where
  rem   : Word := 0
  act   : Bool := false
  pos   : BitVec 4 := 0
  start : BitVec 48 := 0
  deriving DecidableEq, Repr

/-- What a core holds twice, once for the program and once for its trap handler (R45, R117). -/
structure Bank where
  sq  : List SqPos := List.replicate 24 {}
  vq  : List VqPos := List.replicate 18 {}
  lat : Latches := {}
  lp  : LoopState := {}
  deriving DecidableEq, Repr

/-- Why a g or v register has its scoreboard bit set (R48): data are awaited, or have come with an uncorrectable
error (R111), or as a message of the wrong kind (R237). -/
inductive RegMark where
  | awaited
  | uncorrectable (addr : Word)
  | wrongKind
  deriving DecidableEq, Repr

/-! ### Traps and bundles -/

/-- A cause as a core takes it (R357): its class and code, INFO and the address for FADDR. -/
structure Trap where
  cls   : BitVec 4
  code  : BitVec 8
  info  : BitVec 32 := 0
  faddr : Word := 0
  deriving DecidableEq, Repr

/-- A committed effect of slot B that is applied when its bundle completes (R114): PKIND and PTGT. -/
structure Pend where
  kind : BitVec 2
  arg  : Word
  deriving DecidableEq, Repr

/-- A bundle whose groups are issuing (R17, R24). -/
structure Bundle where
  /-- Address of the bundle that follows in sequence (R14). -/
  npc    : Word
  /-- LEND and YLD (R15). -/
  lend   : Bool
  yld    : Bool
  /-- Stall count (R31). -/
  stall  : Nat
  /-- The field each slot executes, `none` for an empty slot: the history of the next bundle (R18). -/
  fields : List (Option (BitVec 24))
  /-- The groups that have not issued, each slot with its number. -/
  groups : List (List (Nat × Instr))
  deriving DecidableEq, Repr

/-- Where the data of a load, receive or returning atomic go (R48, R135, R138). -/
inductive Dest where
  | drop
  /-- A g register, from so many low bytes, sign-extended or not. -/
  | g (n : Fin 16) (bytes : Nat) (sext : Bool)
  | v (n : Fin 32)
  deriving DecidableEq, Repr

/-- One element of an access: its effective address and size, the place of its data in the destination, and the bytes it
stores. -/
structure Elem where
  ea   : Word
  /-- The address a fault of it reports: its own, or its row's (R163, R164). -/
  rep  : Word
  len  : Nat
  dst  : Nat := 0
  data : List Byte := []
  /-- Its index is not a multiple of 4 (R161). -/
  bad  : Bool := false
  deriving DecidableEq, Repr

/-- The operator of an atomic (R138). -/
inductive AmoOp where
  | addI64
  | and
  | or
  | xor
  | minI64
  | maxI64
  | minN64
  | maxN64
  | swap
  | cas
  | faddF32
  deriving DecidableEq, Repr

/-- The operands of an atomic. -/
structure Amo where
  op  : AmoOp
  ord : AmoOrd
  v   : Word
  c   : Word
  /-- The timestamp of a `.sc` atomic, and the clock that a `.rel` atomic carries (R278). -/
  ts  : Word := 0
  deriving DecidableEq, Repr

/-- What an access does. -/
inductive AccKind where
  | read
  | write
  | atomic (a : Amo)
  deriving DecidableEq, Repr

/-- A space of effective addresses without a place in it (R247). -/
inductive SpaceClass where
  | local
  | peer
  | global
  | weight
  | none
  deriving DecidableEq, Repr

/-- An access of the core's S or V slot. -/
structure Access where
  kind  : AccKind
  elems : List Elem
  /-- The space that it must lie in and its alignment (R109, R163, R164). -/
  cls   : SpaceClass := .local
  align : Nat := 1
  dest  : Dest := .drop
  /-- What commits with its slot (R22, R52, R167): the base register's new value, a pop, a draw of the generator. -/
  inc   : Option (Fin 16 × Word) := none
  pop   : Option (Fin 4) := none
  draws : Bool := false
  deriving DecidableEq, Repr

/-- An arrival or drop at a barrier object (R212, R213). -/
inductive ArrKind where
  | drop
  | core (rel : Bool)
  | engine (e : Eng)
  deriving DecidableEq, Repr

/-- A slot of the issuing group that waits to be checked at its home (R26, R110, R212). -/
inductive DeferOp where
  | access (a : Access)
  /-- A barrier arrival or drop at an object address, with its count. -/
  | barrier (k : ArrKind) (addr : Word) (n : BitVec 32)
  /-- A `gz.put` above a deferred slot of its group that waits for the Gazetteer (R240): key, source index and payload, and
  whether it draws from the generator when it commits. -/
  | gzPut (key : BitVec 48) (idx : BitVec 16) (payload : BitVec 512) (draws : Bool)
  deriving DecidableEq, Repr

/-- The deferred slot, whether it has been sent to its bank or walker, and what came back. -/
structure Defer where
  slot  : Nat
  op    : DeferOp
  sent  : Bool := false
  /-- The bank's answer: applied, or refused with the object's trap bit set. -/
  ans   : Option Bool := none
  deriving DecidableEq, Repr

/-- Why the last slot operation or group did not issue (R24, R32, R34): a clear queue ready bit, or another reason. -/
structure Held where
  queue : Bool := false
  other : Bool := false
  deriving DecidableEq, Repr

/-- What a core is doing (R122, R356, R360, R361, R418). -/
inductive RunState where
  | idle
  | running
  /-- Holds at an honoured yield with a stop request until its work has drained. -/
  | stopping
  | halted
  /-- Its context is contained, or the chip has tripped. -/
  | frozen
  /-- Stopped by a double trap. -/
  | double
  deriving DecidableEq, Repr

/-! ### Race tags, vectors and accesses in flight -/

/-- A race tag (R271). -/
structure RaceTag where
  ctx   : BitVec 3 := 0
  hs    : BitVec 2 := 0
  wcore : BitVec 9 := 0
  ent   : BitVec 16 := 0
  wser  : BitVec 24 := 0
  deriving DecidableEq, Repr

/-- A clock vector with the Lamport clock that a release carries (R272, R278), by team index. -/
structure Clocks where
  v   : Tab (BitVec 24) := []
  clk : Word := 0
  deriving DecidableEq, Repr

/-- The vectors of a barrier object: of its open phase and of its completed phases (R272). -/
structure BarVec where
  opened : Clocks := {}
  done   : Clocks := {}
  deriving DecidableEq, Repr

/-- A granule of a scratchpad, or a global line, whose tag a unit's completion writes (R273). -/
inductive TagLoc where
  | granule (core : Nat) (g : Nat)
  | line (l : Nat)
  deriving DecidableEq, Repr

/-- A part of an access as it goes to one home or bank (R340, R251). -/
structure Req where
  /-- The access it belongs to. -/
  flight : Nat
  core   : Nat
  kind   : AccKind
  /-- Elements with their physical address or scratchpad offset in `ea`. -/
  elems  : List Elem
  /-- Whether the line is checked and its class and NCMB bit (R347). -/
  chk    : Bool := false
  cls    : BitVec 2 := 0
  ncmb   : Bool := false
  /-- The core whose scratchpad it goes to; none for global memory. -/
  spad   : Option Nat := none
  /-- Its group has not committed whole: a write of it waits, so that the group's loads see memory before it (R166). -/
  grp    : Bool := false
  /-- Bytes of the core's own scratchpad that its group had written before a load of the group went there by a peer address,
  as they stood when the group began (R25, R166, R248). -/
  before : List (Nat × Option Byte) := []
  /-- Further atomics that a router merged into this one (R341): their cores and flights. -/
  merged : List (Nat × Nat) := []
  deriving DecidableEq, Repr

/-- An access accepted and not yet returned (R48, R110). -/
structure Flight where
  id    : Nat
  dest  : Dest
  addr  : Word
  write : Bool
  /-- It reads: a load, or an atomic (R126). -/
  read  : Bool := true
  glob  : Bool
  /-- Weight-store banks in whose refresh slot it reached them, and where it still waits (R262). -/
  banks : List Nat := []
  /-- The order of an atomic. -/
  ord   : AmoOrd := .rlx
  /-- Requests that have not been performed. -/
  left  : Nat
  /-- The bytes read, by place in the destination. -/
  data  : Mem := []
  ue    : Bool := false
  thome : Word := 0
  deriving DecidableEq, Repr

/-! ### Units of a core -/

/-- A tile's element format and counts (R187); the busy fields follow from the operations outstanding. -/
structure Tile where
  /-- The key of the free values of rows that nothing has written. -/
  fill : Nat := 0
  rows : Tab Row := []
  mcnt : BitVec 16 := 0
  fv   : Bool := false
  fmt  : BitVec 3 := 0
  sat  : Bool := false
  nf   : Bool := false
  pin  : Bool := false
  deriving DecidableEq, Repr

/-- The state of an operand slot (R170). -/
inductive ObState where
  | free
  | claimed
  | releasing
  deriving DecidableEq, Repr

/-- An operand slot (R169, R170). -/
structure ObSlot where
  fill : Nat := 0
  rows : Tab ObRow := []
  st   : ObState := .free
  deriving DecidableEq, Repr

/-- An issued multiply (R176, R178): waiting for the array, or running on the rows it reads. -/
structure MmaOp where
  /-- Its place among the core's commands (R173). -/
  id    : Nat := 0
  f     : Fmt
  tile  : Fin 64
  a     : Fin 32
  b     : Fin 32
  zero  : Bool
  start : Nat
  rows  : Option (List ObRow × List ObRow) := none
  deriving DecidableEq, Repr

/-- What comes about in a core at a fixed number of cycles after issue (R108, R146, R175, R185, R252). -/
inductive CalEv where
  /-- A queue position of the program's or the handler's bank becomes ready. -/
  | sqReady (handler : Bool) (id : Nat)
  | vqReady (handler : Bool) (id : Nat)
  /-- The data of a local load, receive or record read reach their register. -/
  | gData (n : Fin 16) (v : Word) (addr : Word)
  | vData (n : Fin 32) (v : Vec) (addr : Word)
  | mmaStart
  | mmaFinish
  | azero (n : Fin 64)
  | ascale (n : Fin 64) (s : BitVec 32)
  | ato (f : Fmt) (m : Mode) (sat : Bool) (o : Fin 32) (n : Fin 64) (h : BitVec 2) (words : List (BitVec 32))
  /-- Row `q` of an `adrain` is present; 64 stands for its end. -/
  | drain (n : Fin 64) (q : Fin 4) (row : Nat)
  | wrow (n : Fin 64) (row : Fin 64) (v : Vec)
  /-- A local `.acq` atomic returns: the clock that it acquires (R278). -/
  | clock (t : Word)
  deriving DecidableEq, Repr

/-- A tile queue: the rows present, oldest first (R184), and behind them the positions that `adrain` operations have reserved, in issue
order: the row of the tile, and its contents once they have come (R185). -/
structure TileQueue where
  rows : List Row := []
  due  : List (Nat × Option Row) := []
  deriving DecidableEq, Repr

/-- A command of a copy engine: the copy of its block, and how far it has gone (R194, R198). -/
structure EngCmd where
  blk     : BitVec 1024
  /-- Its place among the core's commands (R173). -/
  id      : Nat := 0
  started : Bool := false
  /-- Granule, counted from BASE, at which the awaited or claimed region begins (R208). -/
  srcReg  : Option Nat := none
  dstReg  : Option Nat := none
  /-- Elements done and units completed. -/
  pos     : Nat := 0
  units   : Nat := 0
  /-- The counted arrivals of the unit in progress that wait for their banks, once they have been made, and whether an object with its trap bit set
  has refused one (R201). -/
  arrs    : Option Nat := none
  ovr     : Bool := false
  /-- The tile-queue row in use (R198). -/
  row     : Option Row := none
  /-- Written by the unit in progress: tag places and bytes by core (R201, R273). -/
  touched : List TagLoc := []
  bytes   : Tab Nat := []
  /-- Global lines written by the unit in progress, and the bytes that wait for the whole-row writes of an operand slot, by row (R199, R265). -/
  lines   : List Nat := []
  obRows  : Tab Mem := []
  deriving DecidableEq, Repr

/-- A copy engine and its fields of ESTAT (R195, R203, R204). -/
structure Engine where
  q     : List EngCmd := []
  frz   : Bool := false
  fctr  : BitVec 4 := 0
  fcode : BitVec 8 := 0
  faddr : Word := 0
  sat   : Bool := false
  satc  : BitVec 16 := 0
  deriving DecidableEq, Repr

/-- Who waits to claim or to await granules of a buffer (R208): an engine, or a C slot of the owner. -/
inductive CbWho where
  | eng (core : Nat) (e : Eng)
  | own
  deriving DecidableEq, Repr

/-- A circular buffer: CBDEF, CBPTR (R206), its vector (R272), and who waits to claim or to await, in the order of their coming (R208). -/
structure CircBuf where
  en     : Bool := false
  size   : BitVec 13 := 0
  base   : BitVec 13 := 0
  clm    : BitVec 13 := 0
  cmt    : BitVec 13 := 0
  awt    : BitVec 13 := 0
  head   : BitVec 13 := 0
  vec    : Clocks := {}
  claims : List CbWho := []
  awaits : List CbWho := []
  deriving DecidableEq, Repr

/-- An arrival that has reached the bank of a barrier object (R213). -/
structure BarArr where
  off  : Nat
  kind : ArrKind
  who  : Nat
  /-- The object's address as the arriving core names it (R215). -/
  addr : Word := 0
  /-- The command of an engine's arrival (R201). -/
  cmd  : Nat := 0
  n    : BitVec 32
  deriving DecidableEq, Repr

/-- A wake comparator (R218, R219). -/
structure Comparator where
  armed : Bool := false
  /-- The core cycle from which it matches writes (R219). -/
  since : Nat := 0
  lo    : Nat := 0
  hi    : Nat := 0
  pend  : Option (BitVec 13) := none
  deriving DecidableEq, Repr

/-- The commands of the stash queue (R220, R221). -/
inductive StashOp where
  | put
  | get
  | pf
  | drop
  | free
  | wvCommit
  deriving DecidableEq, Repr

/-- A stash or `wv.commit` command: its descriptor and its tag or version. -/
structure StashCmd where
  op   : StashOp
  desc : BitVec 256
  tag  : BitVec 16
  /-- Its number, and whether it has been handed to the die's stash engine (R325). -/
  id   : Nat := 0
  sent : Bool := false
  deriving DecidableEq, Repr

/-- A core's stash queue and its fault (R329, R330). -/
structure StashQueue where
  q     : List StashCmd := []
  frz   : Bool := false
  fctr  : BitVec 4 := 0
  fcode : BitVec 8 := 0
  faddr : Word := 0
  /-- The number of the first command that the fault discards (R330). -/
  fid   : Nat := 0
  deriving DecidableEq, Repr

/-- A command of the channel queue (R232). -/
inductive ChanCmd where
  | send (ch : Fin 11) (m : Msg)
  /-- `send.m`: source address, length, source index, landing word and bytes already sent (R228, R234). -/
  | sendM (ch : Fin 11) (addr : Word) (len idx : Nat) (land : Word) (sent : Nat)
  deriving DecidableEq, Repr

/-- A core's channel queue and its fault (R245). -/
structure ChanQueue where
  q     : List ChanCmd := []
  frz   : Bool := false
  info  : BitVec 32 := 0
  faddr : Word := 0
  /-- The cycle from which its head can leave (R224). -/
  first : Nat := 0
  deriving DecidableEq, Repr

/-- A receive that waits for its message (R235, R236). -/
structure RecvReq where
  ch   : Fin 11
  dest : Dest
  /-- The old value that a `recvadd.f32` adds to. -/
  add  : Option Vec := none
  /-- The cycle of its issue, where its message was parked by then (R224). -/
  due  : Option Nat := none
  deriving DecidableEq, Repr

/-- A collective that a core started and whose recorded fault it has not taken (R238, R387). -/
structure ColFault where
  kctr : BitVec 4
  code : BitVec 32
  cnt  : Nat
  deriving DecidableEq, Repr

/-- Who looks pages up (R348): the slots and the fetch of a core, a copy engine, a die's stash engine and collective controller, and its other
agents, which have no TLB before the die's. -/
inductive Seeker where
  | slot (core : Nat)
  | fetch (core : Nat)
  | eng (core : Nat) (e : Eng)
  | stash (die : Nat)
  | coll (die : Nat)
  | agent (die : Nat)
  deriving DecidableEq, Repr

/-- What an access needs of a page (R347). -/
structure Perm where
  r : Bool := false
  w : Bool := false
  x : Bool := false
  deriving DecidableEq, Repr

/-- A translation fault's reason and level (R352, R353). -/
structure TFault where
  reason : BitVec 4
  level  : BitVec 4 := 0xF
  deriving DecidableEq, Repr

/-- A fault that a walk has delivered and its miss has not yet taken (R349). -/
structure WalkFault where
  who  : Seeker
  ctx  : BitVec 3
  page : Nat
  f    : TFault
  deriving DecidableEq, Repr

/-- A page in a TLB (R347, R348). -/
structure TlbEnt where
  ctx  : BitVec 3
  /-- log2 of the page size: 16, 21 or 30. -/
  lg   : Nat
  vpn  : Nat
  base : Nat
  r    : Bool
  w    : Bool
  x    : Bool
  chk  : Bool
  cls  : BitVec 2
  ncmb : Bool
  deriving DecidableEq, Repr

/-! ### A core -/

/-- The operand memory, the accumulator store and what was under way on them when the group in issue began, for the slots of the
group that look at what they do not name by a specifier (R25, R187, R202). -/
structure Snap where
  ob   : Tab ObSlot := []
  ac   : Tab Tile := []
  mmas : List MmaOp := []
  cal  : List (Nat × CalEv) := []
  deriving DecidableEq, Repr

/-- Who enqueued a launch: a core, with the address it named (R129), or the host's doorbell (R394). -/
inductive LaunchBy where
  | core (c : Nat) (a : Word)
  | host
  deriving DecidableEq, Repr

/-- A descriptor of the launch queue with the stage block read with it (R293, R298). -/
structure Launch where
  desc : BitVec 512
  blk  : BitVec 2560 := 0
  by_  : LaunchBy
  /-- The context whose addresses it names and the die of the queue. -/
  ctx  : BitVec 3
  die  : Nat
  /-- The clock of the core that enqueued it (R278). -/
  clk  : Word := 0
  deriving DecidableEq, Repr

/-- A request that a team stops at a yield (R360): who made it and the place and slot it reserves. -/
structure StopReq where
  byRule : Bool
  bySoft : Bool
  slot   : Nat
  deriving DecidableEq, Repr

/-- A dispatched team (R289, R291, R299). -/
structure Team where
  die    : Nat
  x0     : Nat
  y0     : Nat
  lw     : Nat
  lh     : Nat
  ctx    : BitVec 3
  ent    : BitVec 16
  /-- 0 forward, 1 backward, 2 weight-gradient, 3 kernel. -/
  kind   : BitVec 2
  stage  : BitVec 8 := 0
  tag    : BitVec 16 := 0
  step   : Word := 0
  rcmp   : Bool := false
  /-- The current-record image (R241), if a record started the entry. -/
  crec   : Option (BitVec 1024) := none
  retired : Bool := false
  sched  : Word := 0
  /-- Versions of weight-store tensors resolved at dispatch (R258). -/
  wver   : Tab Nat := []
  /-- The entry address of a core at a dispatch, by team index: cores in no role have none (R299). -/
  entries : Tab Word := []
  /-- The Gazetteer entry whose record is current (R241). -/
  recId  : Option Nat := none
  /-- The launch that started a kernel (R293). -/
  launch : Option Launch := none
  /-- The team saw an honoured yield of core (0, 0) with YEVAL set (R306). -/
  yeval  : Bool := false
  /-- The cores that run. -/
  cores  : List Nat
  stop   : Option StopReq := none
  /-- The record that its channel bindings need the same die (R364, SFL bit 3). -/
  bindsDie : Bool := false
  /-- The clock that the launch or the record which started it carries (R278). -/
  clk    : Word := 0
  deriving DecidableEq, Repr

/-- A core with its units (R3, R13). -/
structure Core where
  run   : RunState := .idle
  /-- Origin core of its team (R289). -/
  team  : Option Nat := none
  /-- The team of the entry that ended on it last, by which its channels still read (R399). -/
  was   : Option Team := none
  /-- Core cycles since reset; results are due at fixed cycles (R108). -/
  cyc   : Nat := 0
  /-- Number of the next queue position or access. -/
  nextId : Nat := 1
  -- named files (R47, R48)
  g     : Tab Word := []
  v     : Tab Vec := []
  p     : Tab Word := []
  gsb   : Tab RegMark := []
  vsb   : Tab RegMark := []
  prog  : Bank := {}
  hand  : Bank := {}
  -- sequencer
  pc    : Word := 0
  hist  : List (Option (BitVec 24)) := List.replicate 8 none
  /-- The program's history, kept while its handler runs (R354). -/
  savedHist : List (Option (BitVec 24)) := List.replicate 8 none
  /-- The bytes of the bundle at `pc`, fetched and not yet decoded. -/
  fetched : Option (List Byte) := none
  bun   : Option Bundle := none
  pend  : Option Pend := none
  /-- The next bundle is entered again at this slot with these pushes counted (R20, R46). -/
  reent : Option (BitVec 3 × BitVec 3 × BitVec 2) := none
  /-- No bundle has been decoded since a redirect, an entry, or a `sysret` with RSM clear: the fetch is that of a target (R113). -/
  redir : Bool := true
  -- the group in issue
  issuing : Bool := false
  /-- The slot whose operation is taking its effect. -/
  slot  : Nat := 0
  grpSq : Nat := 0
  grpVq : Nat := 0
  rest  : List (Nat × Instr) := []
  defer : Option Defer := none
  /-- Bytes of the local scratchpad that the group has written, as they stood when it began (R25, R166). -/
  grpOld : List (Nat × Option Byte) := []
  /-- System-state writes of the group that later slots must not see (R130). -/
  grpSys : List (Nat × Word) := []
  /-- Bank accesses of the group so far: cycles by bank (R251). -/
  grpBanks : Tab Nat := []
  snap  : Snap := {}
  /-- Stash commands in the slots of the group below the one being tried (R24, R220). -/
  grpStash : Nat := 0
  /-- The group is held for nothing but the Gazetteer's acceptance of its `gz.put`: the record's key and source index. And the
  Gazetteer takes it in this cycle (R240, R319). -/
  gzAsk : Option (BitVec 48 × BitVec 16) := none
  gzGrant : Bool := false
  /-- The key of a record for which the Gazetteer keeps room: its group has issued, and its `gz.put` waits for an access of a lower slot (R240, R311,
  log entry 64). -/
  gzKeep : Option (BitVec 48) := none
  held  : Held := {}
  /-- A `sysret` has committed and takes effect when its bundle completes (R124). -/
  sret  : Bool := false
  /-- Cycles that the `wait.bar` in issue has waited (R120). -/
  wbT   : Nat := 0
  -- system state words
  sct   : Bool := false
  moved : Bool := false
  tm    : Bool := false
  prd   : Bool := false
  pkind : BitVec 2 := 0
  rsm   : Bool := false
  sres  : BitVec 3 := 0
  qas   : BitVec 3 := 0
  qav   : BitVec 2 := 0
  cause : Word := 0
  epc   : Word := 0
  faddr : Word := 0
  ptgt  : Word := 0
  sfall : BitVec 32 := 0
  seed  : Word := 1
  cvsat : Word := 0
  tout  : Bool := false
  wval  : Bool := false
  wcmp  : BitVec 3 := 0
  wgrn  : BitVec 13 := 0
  kund  : BitVec 16 := 0
  lclk  : Word := 0
  wdCount : BitVec 32 := 0
  wdLimit : BitVec 32 := 0
  /-- The watchdog trap is due before the next group, and the mesh cycle at which the period in progress began (R303). -/
  wdDue : Bool := false
  wdFrom : Nat := 0
  slen  : BitVec 9 := 0
  spos  : BitVec 9 := 0
  tvec  : Word := 0
  dcause : Word := 0
  -- units
  spFill : Nat := 0
  sp    : Mem := []
  tags  : Tab RaceTag := []
  rs    : BitVec 24 := 0
  vclk  : Tab (BitVec 24) := []
  barVecs : Tab BarVec := []
  barArrs : List BarArr := []
  ob    : Tab ObSlot := []
  ac    : Tab Tile := []
  mmas  : List MmaOp := []
  lastMma : Option Nat := none
  tqs   : Tab TileQueue := []
  k     : Tab (BitVec 32) := []
  /-- The clock that the last decrement of a counter carries (R278). -/
  kclk  : Tab Word := []
  e0    : Engine := {}
  e1    : Engine := {}
  cbs   : Tab CircBuf := []
  binds : List (Word × BitVec 4) := []
  wcs   : Tab Comparator := []
  wakeq : List (BitVec 3 × BitVec 13) := []
  stash : StashQueue := {}
  chq   : ChanQueue := {}
  recvs : List RecvReq := []
  colFaults : List ColFault := []
  /-- Counters whose next `wait.lt` takes the non-finite trap of a collective (R389). -/
  nft   : List (BitVec 4) := []
  sched : List Word := []
  tlb   : List TlbEnt := []
  etlb0 : List TlbEnt := []
  etlb1 : List TlbEnt := []
  /-- Faults that walks have delivered to the core's slots, its fetch and its engines. -/
  wflt  : List WalkFault := []
  cal   : List (Nat × CalEv) := []
  flights : List Flight := []
  /-- Requests that the mesh brings to this core's scratchpad, in the order they arrived (R251). -/
  mesh  : List Req := []
  /-- An abort token is to be taken (R419). -/
  token : Bool := false
  /-- One of its registers, queues or latches has an uncorrectable error (R416). -/
  regUe : Bool := false
  deriving DecidableEq, Repr

/-! ### Teams, contexts and memory -/

/-- A line resident in L2 (R340, R342, R343): whose it is, its class, whether it is dirty, the contents that external
memory holds while it is dirty (R265), the contexts that lock it, and its race tag. -/
structure L2Line where
  line  : Nat
  ctx   : BitVec 3
  cls   : BitVec 2 := 0
  dirty : Bool := false
  old   : Mem := []
  /-- `old` is what external memory holds of it, which is not what the copy says: it is dirty, or host DMA has written the line (R265, R434). The
  number of the key under which that lies there. -/
  apart : Bool := false
  okey  : Nat := 0
  /-- Its data have an uncorrectable error (R416). -/
  ue    : Bool := false
  /-- Cores whose accesses have written it since its last write-back (R125, R238, R265). -/
  by_   : List Nat := []
  locks : List (BitVec 3) := []
  tag   : RaceTag := {}
  deriving DecidableEq, Repr

/-- A miss that waits for a walk: whose it is, its address and what it needs of the page. -/
structure Miss where
  who  : Seeker
  va   : Nat
  perm : Perm
  deriving DecidableEq, Repr

/-- A page walk (R349): the page's VA bits 47:16 and the misses that wait for it. -/
structure Walk where
  ctx     : BitVec 3
  page    : Nat
  started : Bool := false
  waiters : List Miss
  deriving DecidableEq, Repr

/-- A record of a fault log (R414). -/
structure FaultRec where
  seq   : BitVec 32
  src   : BitVec 8
  ctx   : BitVec 8
  flags : BitVec 8 := 0
  unit  : BitVec 16
  cause : BitVec 16
  info  : BitVec 32 := 0
  addr  : Word := 0
  time  : Word := 0
  deriving DecidableEq, Repr

/-- A record of an undo log (R420): a line, and what external memory held of it, with the number of its key. -/
structure UndoRec where
  line : Nat
  key  : Nat
  old  : Mem
  deriving DecidableEq, Repr

/-- An abort token (R419): the session of the job, the context, the group, and the sender's member index and step. -/
structure Token where
  job    : Nat
  ctx    : BitVec 3
  group  : Nat
  member : Nat
  step   : Word
  deriving DecidableEq, Repr

/-- A region of physical memory: base and size in bytes. -/
structure Region where
  base : Nat := 0
  size : Nat := 0
  deriving DecidableEq, Repr

/-- A group-table entry (R377, R449). -/
structure Group where
  n      : Nat
  member : Nat
  wide   : Bool := false
  west   : Nat := 0
  east   : Nat := 0
  torus  : List Nat := []
  paths  : List Nat := []
  deriving DecidableEq, Repr

/-- A context's doorbell page and notice ring (R308, R394). -/
structure Doorbell where
  pend   : Option (BitVec 512) := none
  /-- STATUS of the descriptor that the host wrote last. -/
  status : BitVec 32 := 0
  nrBase : Word := 0
  nrSize : Word := 0
  nrHead : Word := 0
  nrTail : Word := 0
  cwin   : Word := 0
  /-- Notices that wait for room in the ring. -/
  held   : List (BitVec 128) := []
  seq    : BitVec 16 := 0
  window : Bool := false
  deriving DecidableEq, Repr

/-- An entry of a loaded image: its address, its kind (0 forward, 1 backward, 2 weight-gradient, 3 main) and the TW and TH of
the image (R103, R104). -/
structure ImgEntry where
  addr : Word
  kind : Nat
  img  : Nat
  tw   : Nat
  th   : Nat
  deriving DecidableEq, Repr

/-- The scratchpad-image section of a loaded image (R292). -/
structure SpImage where
  img   : Nat
  base  : Nat
  bytes : List Byte
  deriving DecidableEq, Repr

/-- A chunk of a collective (R379, R380, R384): whether this member has started it and by which algorithm, and at its summing place
the contributions by member, the mesh cycle of the first, and the result. -/
structure Chunk where
  sent    : Bool := false
  /-- The switches on the paths of the group as it was when the chunk started in-network (R392, R436). -/
  via     : List Word := []
  /-- Members whose contributions have passed this member's ports on their way (R379, R407). -/
  fwd     : List Nat := []
  algo    : Nat := 0
  parts   : Tab (List Byte) := []
  since   : Option Nat := none
  result  : Option (List Byte) := none
  written : Bool := false
  deriving DecidableEq, Repr

/-- A collective of this module (R238, R375): its block, and what its record will say (R386). -/
structure Coll where
  id     : Nat
  core   : Nat
  /-- The team that the core belonged to at `col.go` (R377). -/
  team   : Option Nat := none
  die    : Nat
  blk    : BitVec 1024
  baddr  : Word
  n      : Nat
  member : Nat
  chunks : Tab Chunk := []
  lost   : List Nat := []
  status : BitVec 32 := 0
  fcode  : BitVec 32 := 0
  /-- It has stopped: nothing but its record is still to come. -/
  ended  : Bool := false
  algo   : Nat := 0
  fbk    : Bool := false
  nnf    : Nat := 0
  fnf    : Option Nat := none
  wire   : Nat := 0
  epoch  : BitVec 32 := 0
  /-- Members whose `col.go` is known to have been issued. -/
  seen   : List Nat := []
  /-- The contribution as it stood at `col.go`, kept where DBUF would overwrite it (R390). -/
  snap   : Option (List Byte) := none
  /-- Checked lines that its results have written (R273). -/
  lines  : List Nat := []
  deriving DecidableEq, Repr

/-- A context (R449) and the state the module keeps for it. -/
structure Ctx where
  live     : Bool := false
  /-- The session of the job to which it belongs (R2, R294). -/
  job      : Option Nat := none
  ptRoot   : Nat := 0
  /-- Lines that a walk of the context has read as page-table lines (R420). -/
  ptLines  : List Nat := []
  tvec     : Word := 0
  wdLimit  : BitVec 32 := 0
  lquota   : BitVec 24 := 0
  lways    : BitVec 4 := 0
  entSer   : BitVec 16 := 0
  -- containment (R417 to R421)
  pol      : BitVec 2 := 0
  astep    : Word := 0
  cstep    : Word := 0
  ufull    : Bool := false
  rbk      : Bool := false
  abp      : Bool := false
  adone    : Bool := false
  /-- A fatal fault has sent the episode's tokens (R418). -/
  fatal    : Bool := false
  acnt     : BitVec 12 := 0
  /-- The episode's group and the members heard from (R419). -/
  epGroup  : Option Nat := none
  heard    : List Nat := []
  undo     : Region := {}
  /-- Save region and slot stride (R364). -/
  save     : Region := {}
  stride   : Nat := 0
  /-- The undo log of the open interval, newest first (R420). -/
  ulog     : List UndoRec := []
  /-- Stash and spill regions (R324). -/
  stash    : Region := {}
  spill    : Region := {}
  groups   : Tab Group := []
  db       : Doorbell := {}
  /-- What the loader has placed for the context (R104, R107): entries with their kind and the image they belong to, and
  scratchpad-image sections. -/
  entries  : List ImgEntry := []
  images   : List SpImage := []
  /-- Number of the next collective. -/
  colNext  : Nat := 0
  colls    : List Coll := []
  /-- The number of the memory key that the Cartouche has installed (R433). -/
  memKey   : Option Nat := none
  deriving DecidableEq, Repr

/-- A format window (R344). -/
structure Fwin where
  en    : Bool := false
  sfmt  : BitVec 3 := 0
  ebase : Nat := 0
  esize : Nat := 0
  sbase : Nat := 0
  xbase : Nat := 0
  deriving DecidableEq, Repr

/-- A version of a weight-store tensor (R257, R335): what it is, where it lies and the tag from which it is used. -/
structure WVer where
  st   : BitVec 2 := 0
  base : Nat := 0
  len  : Nat := 0
  ftag : BitVec 16 := 0
  deriving DecidableEq, Repr

/-- The state of a Gazetteer entry (R316). -/
inductive GzState where
  | waiting
  | dispatched
  | retired
  deriving DecidableEq, Repr

/-- An entry of a Gazetteer (R310 to R318): its value in the form it is folded in, its staging slots and flags. -/
structure GzEnt where
  id    : Nat
  key   : BitVec 48
  st    : GzState := .waiting
  val   : BitVec 1024 := 0
  slots : Tab (BitVec 512) := []
  ncon  : BitVec 32 := 1
  late  : Bool := false
  ovf   : Bool := false
  nf    : Bool := false
  prom  : Bool := false
  /-- Mesh cycle of its creation. -/
  born  : Nat := 0
  /-- Mesh cycle from which it is eligible; none before an ordered entry is complete. -/
  elig  : Option Nat := none
  /-- The next slot of the ordered sweep. -/
  sweep : Nat := 0
  /-- It has been recomputed (R334). -/
  rcmp  : Bool := false
  /-- The entry slots that it uses and the staging slots that it has reserved, from its creation on (R311). -/
  width  : Nat := 1
  staged : Nat := 0
  /-- The latest clock that a `gz.put` folded into it carries (R278). -/
  clk   : Word := 0
  deriving DecidableEq, Repr

/-- A record that a die agent inserts (R312): the stash engine for a core's command, or the collective controller. -/
structure AgentRec where
  coll : Bool
  core : Nat
  key  : BitVec 48
  idx  : Nat
  payload : BitVec 512
  /-- The counter of a stash command, for the fault of a refused record (R331). -/
  kctr : BitVec 4 := 0
  /-- What a stash command's record tells of: the context, stage, tag and SID of its entry, the command's code, and its number. Its payload is
  made when it is inserted (R331). -/
  want : Option (BitVec 3 × BitVec 8 × BitVec 16 × BitVec 16 × Nat × Nat) := none
  /-- Its class refuses it, which has been reported (R320). -/
  told : Bool := false
  deriving DecidableEq, Repr

/-- A registered stage (R297). -/
structure Stage where
  num   : BitVec 8
  ctx   : BitVec 3
  x0    : Nat
  y0    : Nat
  lw    : Nat
  lh    : Nat
  blk   : BitVec 2560
  fly   : BitVec 16 := 0
  step  : Word := 0
  /-- Weight-gradient retirements of the step (R307). -/
  wg    : Nat := 0
  /-- The removals that have left the queue. -/
  removing : List Launch := []
  /-- An evaluation is due (R306). -/
  due   : Bool := false
  /-- The record chosen at the yield that made a stop, with its rule and whether it is recomputed (R302, R362). -/
  winner : Option (Nat × Word × Bool) := none
  /-- The record that an evaluation has chosen, with its rule, whether it is recomputed first and whether its age has promoted it, until the arbiter
  dispatches its entry (R296, R319). -/
  pick : Option (Nat × Word × Bool × Bool) := none
  deriving DecidableEq, Repr

/-- A registered collective that its stage has still to start (R307): the team, the block's address and the step number. -/
structure RegCol where
  team : Team
  addr : Word
  step : Word
  deriving DecidableEq, Repr

/-- A suspended entry (R362): its team as it stopped and the save slot of its record. -/
structure Susp where
  team : Team
  slot : Nat
  soft : Bool
  deriving DecidableEq, Repr

/-- The state of a stash entry (R324). -/
inductive StashState where
  | writing
  | resident
  | spilled
  | fetching
  | dropped
  deriving DecidableEq, Repr

/-- A stash entry (R323, R326). -/
structure StashEnt where
  ctx    : BitVec 3
  stage  : BitVec 8
  tag    : BitVec 16
  sid    : BitVec 16
  st     : StashState
  policy : Nat := 0
  coding : Nat := 0
  bytes  : Nat := 0
  fmt    : Nat := 0
  /-- The lengths of its tiles' stored forms, and the stored form until it has been written to its region. -/
  lens   : List Nat := []
  data   : List Byte := []
  /-- Where its stored form lies in its context's region: addresses and lengths (R324). -/
  place  : List (Nat × Nat) := []
  /-- The source of its put has been read. -/
  read   : Bool := false
  /-- The core whose put it is, while its stored form is still to be written (R126). -/
  by_    : Option Nat := none
  /-- The record to insert when it leaves WRITING: the issuing core, NKEY, the command's counter and its number (R331). -/
  nrec   : Option (Nat × Word × BitVec 4 × Nat) := none
  deriving DecidableEq, Repr

/-- A command that the stash engine has accepted (R325). -/
structure StashJob where
  core  : Nat
  ctx   : BitVec 3
  stage : BitVec 8
  op    : StashOp
  desc  : BitVec 256
  tag   : BitVec 16
  /-- The number of the command in its core's queue. -/
  id    : Nat
  /-- It has been applied to its entry and its data are moving. -/
  moving : Bool := false
  deriving DecidableEq, Repr

/-- A contribution or result in a die controller's staging (R381): group word, step, chunk and member. -/
structure ColStage where
  ctx    : BitVec 3
  team   : Option Nat := none
  group  : BitVec 32
  step   : Word
  chunk  : Nat
  member : Nat
  /-- The room that the chunk takes up while it is staged. -/
  room   : Nat
  /-- Members that have taken a result. -/
  took   : List Nat := []
  data   : List Byte
  deriving DecidableEq, Repr

/-- What the members of a subgroup that have still to issue a collective learn when they do: it has failed (R377, R384). -/
structure ColFail where
  ctx    : BitVec 3
  team   : Option Nat
  group  : BitVec 32
  step   : Word
  status : BitVec 32
  fcode  : BitVec 32
  /-- The members that have not issued it. -/
  left   : List Nat
  deriving DecidableEq, Repr

/-- A die: its TLB and walker, launch queue, stages, Gazetteer, stash engine and fault log. -/
structure DieSt where
  tlb   : List TlbEnt := []
  walks : List Walk := []
  /-- The TLBs of the stash engine and of the collective controller (R348), and the faults that walks have delivered to them. -/
  stTlb : List TlbEnt := []
  coTlb : List TlbEnt := []
  wflt  : List WalkFault := []
  /-- Way quotas by class (R343). -/
  wq    : Tab (BitVec 5) := []
  /-- Fault log (R414). -/
  flog  : List FaultRec := []
  fseq  : BitVec 32 := 0
  flost : BitVec 32 := 0
  /-- Weight store (R257): bytes, and the directory by tensor and version (4 times the tensor plus the version). -/
  ws    : Mem := []
  wdir  : Tab WVer := []
  /-- The newest forward tag (R336). -/
  newTag : Option (BitVec 16) := none
  /-- Launch queue, stage table and suspended entries (R295, R297, R362). -/
  lq    : List Launch := []
  stages : List Stage := []
  susp  : List Susp := []
  /-- Registered collectives to be started (R307), and whether the arbiter has made its dispatch of this mesh cycle (R296). -/
  regCols : List RegCol := []
  arb   : Bool := false
  -- Gazetteer (R310 to R322)
  classTab : Tab Word := []
  gz    : List GzEnt := []
  gzNext : Nat := 0
  /-- Entries to retire in the next cycle, and records of die agents. -/
  gzRet : List Nat := []
  gzAgent : List AgentRec := []
  -- stash engine (R323 to R334)
  stash : List StashEnt := []
  jobs  : List StashJob := []
  /-- Records that completed commands will insert. -/
  stRecs : List AgentRec := []
  colStage : List ColStage := []
  /-- Collectives of subgroups that have failed before every member issued them (R377). -/
  colFails : List ColFail := []
  /-- Scrub rate in lines per second (R415). -/
  scrub : Word := 0
  /-- Words of 32 bytes of the weight store, and entries of the Gazetteer, in which there is an uncorrectable error (R415, R416). -/
  ueWs  : List Nat := []
  ueGz  : List Nat := []
  deriving DecidableEq, Repr

/-! ### Channels and links -/

/-- One end of a binding (R371): a stage or a rectangle, with its shape. -/
structure ChEnd where
  rect  : Bool := false
  stage : BitVec 8 := 0
  die   : Nat := 0
  x0    : Nat := 0
  y0    : Nat := 0
  lw    : Nat := 0
  lh    : Nat := 0
  deriving DecidableEq, Repr

/-- A channel binding (R371) with its window counts (R229), its early-arrival area and the messages on their way to it. -/
structure Binding where
  ctx    : BitVec 3
  ch     : Fin 11
  loc    : ChEnd
  rem    : ChEnd := {}
  remNum : BitVec 32 := 0
  /-- Stored with BND clear: its shapes disagree, or its port is full. -/
  refused : Bool := false
  /-- The two ends of ch0..ch7 have met with equal shapes. -/
  met    : Bool := false
  cred   : Nat := 0
  pend   : Nat := 0
  infl   : Nat := 0
  park   : Nat := 0
  parked : Tab (List Msg) := []
  wire   : List (Nat × Msg) := []
  /-- Streams whose oldest message is a record that its class refuses and that has been reported (R320). -/
  told   : List Nat := []
  deriving DecidableEq, Repr

/-- A rekeying in progress (R432). -/
inductive Rekey where
  | none
  | installed
  | sending
  deriving DecidableEq, Repr

/-- A port (R370, R373, R374). -/
structure PortSt where
  wide     : Bool := false
  retrain  : Bool := false
  down     : Bool := false
  /-- Retransmissions of the flit in transmission. -/
  retx     : Nat := 0
  /-- The binding that was served last, and for each binding whose message has been begun the core and the units sent (R372). -/
  last     : Nat := 0
  served   : Tab (Nat × Nat) := []
  udp      : Word := 0
  rtt      : Word := 0
  interval : Word := 0
  rekey    : Rekey := .none
  keyNo    : Nat := 0
  /-- Flits, and frames, sent under the present key (R432). -/
  flits    : Nat := 0
  frames   : Nat := 0
  ovBase   : Word := 0
  ovSize   : Word := 0
  hbeat    : Word := 0
  deriving DecidableEq, Repr

/-- What a payload of a collective on a link is (R379, R384): a contribution, a result, the control flit of a barrier, or the notice that the
collective has failed. -/
inductive ColKind where
  | part
  | result
  | flit
  | notice (status fcode : BitVec 32)
  deriving DecidableEq, Repr

/-- What a frame says of its payload (R227 to R229, R234, R371, R377 to R379, R384): a grant of credit; a message with its team index; or a payload of a
collective: the group, step and chunk, the member whose contribution it is, the route, and the members that are excluded. -/
inductive FrameHead where
  | credit
  | scalar (ti : Nat)
  | vector (ti : Nat)
  | segment (ti n : Nat)
  | record (ti : Nat) (key : BitVec 48) (idx : BitVec 16)
  | chunk (kind : ColKind) (ctx : BitVec 3) (group : BitVec 32) (step : Word) (chunk member algo : Nat) (lost : List Nat)
  deriving DecidableEq, Repr

/-- A frame that has left the module by a port (R374, R432): the binding whose key seals it, the numbers of the key and of the frame under it, whether it
is a frame of the wide-area mode, to which UDP port, which part of the payload it carries, the ciphertext with its tag, the mesh cycle in
which it was last put on the wire, and how often it has been. -/
structure Frame where
  port  : Nat
  bind  : Option Nat := none
  keyNo : Nat
  ctr   : Nat
  udp   : Option Word := none
  head  : FrameHead
  part  : Nat := 0
  data  : List Byte
  time  : Nat
  tries : Nat := 1
  deriving DecidableEq, Repr

/-! ### The Cartouche -/

/-- A session (R429, R430): its number, the role and name of the peer and its certificate chain, whether FINISH has completed it, the updates of its keys,
the numbers of the next response and of the next request that it secures, and the measurements that the peer has answered. -/
structure Sess where
  id    : Nat
  role  : PeerRole
  peer  : Nat
  chain : List Byte := []
  open_ : Bool := false
  keyNo : Nat := 0
  seq   : Nat := 0
  rseq  : Nat := 0
  meas  : List (Nat × BitVec 512) := []
  deriving DecidableEq, Repr

/-- A request that the Cartouche sends to a neighbour or a switch (R429, R436): its code, in the clear or secured in a session. -/
structure SpdmReq where
  role : PeerRole
  peer : Nat
  sess : Option Nat
  code : Nat
  data : List Byte
  deriving DecidableEq, Repr

/-- A switch known to the Cartouche (R435, R436): admitted, or withdrawn and waiting for the end of its session, with the measurements that it answered and the
job key that it acknowledged. -/
structure Switch where
  serial   : Word
  admitted : Bool
  meas     : List (Nat × BitVec 512) := []
  key      : Option (BitVec 256) := none
  deriving DecidableEq, Repr

/-- A path definition with its trust word's ATT (R435, R438). -/
structure PathDef where
  switches : List Word
  att      : Bool := false
  /-- It has been evaluated since its definition. -/
  eval     : Bool := false
  deriving DecidableEq, Repr

/-- A response over DOE (R427, R429, R430). -/
inductive DoeResp where
  | error (kind : String)
  | ack (request : String)
  | bytes (request : String) (l : List Byte)
  /-- A secured message of a session: ciphertext and tag (R430). -/
  | secured (sess : Nat) (l : List Byte)
  deriving DecidableEq, Repr

/-- A load in progress (R427): where its sealed form lies in the staging window, and whether those bytes have changed since the request. -/
structure LoadReq where
  off     : Nat
  len     : Nat
  changed : Bool := false
  deriving DecidableEq, Repr

/-- The Cartouche (R423 to R438). -/
structure Cart where
  jobKey   : Option (BitVec 256) := none
  imgKeys  : Tab (BitVec 4096) := []
  anchors  : List (List Byte) := []
  refs     : Tab (BitVec 512) := []
  sessions : List Sess := []
  sessNext : Nat := 1
  meas     : Tab (BitVec 512) := []
  switches : List Switch := []
  paths    : Tab PathDef := []
  epoch    : BitVec 32 := 0
  /-- Paths whose trust words are still to be written, one write each, in this order (R437). -/
  toWrite  : List Nat := []
  /-- Nonces accepted, each with the job key under which it was (R426). -/
  nonces   : List (BitVec 256 × BitVec 96) := []
  /-- The verifier to whose job the module is bound (R430). -/
  job      : Option Nat := none
  /-- The number of the session that bound it (R2, R419). -/
  jobSess  : Nat := 0
  /-- Peers whose last negotiation of algorithms failed, and a large response of which a chunk is still to be fetched (R429). -/
  negFailed : List Nat := []
  large    : Option (List Byte) := none
  /-- Staging window for sealed images, as the host has filled it (R426). -/
  window   : Mem := []
  loading  : Option LoadReq := none
  doe      : List DoeResp := []
  /-- Requests that the Cartouche has sent, oldest first (R429). -/
  asked    : List SpdmReq := []
  imgNext  : Nat := 1
  keyNext  : Nat := 1
  deriving DecidableEq, Repr

/-! ### Power and the Survey -/

/-- An island (R439, R440, R443). -/
structure Island where
  req  : Nat := 600
  /-- Effective frequency and voltage. -/
  freq : Nat := 600
  volt : Nat := 300
  /-- A change is under way. -/
  busy : Bool := false
  hot  : Bool := false
  deriving DecidableEq, Repr

/-- Cumulative counters of the Survey (R445), by index in their tables. -/
structure Counters where
  poh   : Nat := 0
  corr  : Tab Nat := []
  hrs   : Tab Nat := []
  temp  : Tab Nat := []
  droop : Tab Nat := []
  link  : Tab Nat := []
  auth  : Tab Nat := []
  rmarg : Tab Nat := []
  deriving DecidableEq, Repr

/-- A Survey record: its kind, the counters as it was written, the digest of the record before it and its signature (R445). -/
structure SurveyRec where
  seq  : Nat
  kind : Nat
  cnt  : Counters
  prev : BitVec 512
  sig  : BitVec 4096
  deriving DecidableEq, Repr

/-- The Survey log and what a module reset keeps (R444, R445). -/
structure Survey where
  recs : List SurveyRec := []
  seq  : Nat := 0
  cnt  : Counters := {}
  /-- Bins of the frequencies at which an island has run since the counters of time last grew. -/
  ran  : List Nat := []
  deriving DecidableEq, Repr

/-! ### The management interface -/

/-- A ring command that has started and waits (R449, R350). -/
inductive McWait where
  | destroy (x : BitVec 3)
  | inval (x : BitVec 3) (va : Option Nat) (lg : Nat)
  /-- A stop of the team with this origin core; the answer comes with its end or suspension. -/
  | stop (o : Nat)
  /-- A module reset, which completes after ready. -/
  | reset
  deriving DecidableEq, Repr

/-- The step at which bring-up stopped, counted from 1, and its cause (R444). -/
structure BootFail where
  step  : Nat
  cause : BitVec 32
  deriving DecidableEq, Repr

/-- The registers of the command ring (R447). -/
structure Mgmt where
  base : Word := 0
  size : Word := 0
  tail : Word := 0
  head : Word := 0
  msi  : Word := 0
  wait : Option McWait := none
  /-- The step of bring-up that comes next, while it runs. -/
  boot : Option Nat := some 1
  /-- The step at which bring-up stopped, and its cause. -/
  failed : Option BootFail := none
  deriving DecidableEq, Repr

/-! ### What agents do -/

/-- What an agent of the module does of its own accord, as the row of the opcode table with its name: an entry of `State.agenda`. Where a row
has operands that only chance or the outside gives (an uncorrectable error, data from another module), they stand here at their plain values; a
`command` is the ring command at MCHEAD. -/
inductive Event where
  | command
  | resultReady (c : CoreId)
  | loadDataArrival (c : CoreId)
  | mmaStart (c : CoreId)
  | mmaFinish (c : CoreId)
  | tileOperationFinish (c : CoreId)
  | adrainRowPresent (c : CoreId)
  | wrowLand (c : CoreId)
  | engineCommandStart (c : CoreId) (e : Eng)
  | engineCbClaim (c : CoreId) (e : Eng)
  | engineTransfer (c : CoreId) (e : Eng)
  | unitComplete (c : CoreId) (e : Eng)
  | barrierBankUpdate (c : CoreId) (off : BitVec 19)
  | meshAccessArrival (c : CoreId)
  | wakeTokenEnqueue (c : CoreId)
  | channelMessageDepart (c : CoreId)
  | receiveDelivery (c : CoreId)
  | stashAccept (c : CoreId)
  | wvCommitApply (c : CoreId)
  | stashRecordInsert (d : Die)
  | gazetteerCycle (d : Die)
  | orderedFoldSweep (d : Die)
  | launchDispatch (d : Die)
  | stageRemoval (d : Die)
  | stashSourceReadDone (d : Die)
  | stashStoreDone (d : Die)
  | stashFetchDone (d : Die)
  | stashGetDone (d : Die)
  | pageWalkStart (d : Die)
  | pageWalkDone (d : Die)
  | l2Fill (sl : Fin 1024)
  | homeAccess (sl : Fin 1024)
  | scAtomicPerform
  | creditForward (b : Nat)
  | linkRekey (p : PortId)
  | load
  | messageArrival (b ti : Nat)
  | messageLand (b ti : Nat)
  | completionRecordWrite (x : CtxId) (id : Nat)
  | chunkStart (x : CtxId) (id chunk : Nat)
  | chunkSum (x : CtxId) (id chunk : Nat)
  | chunkResultArrival (x : CtxId) (id chunk : Nat)
  | contributionArrival (x : CtxId) (id member chunk : Nat)
  | doorbellEnqueue (x : CtxId)
  | noticeInterrupt (x : CtxId)
  | tlbInvalComplete (x : CtxId)
  | pathFirstEvaluation (p : Fin 1024)
  | switchSessionClose (serial : Word)
  | islandFreqChangeDone (i : Fin 128)
  | lclkTick
  | horizonRound
  | weightRefreshSlot
  | watchdogPeriod (c : CoreId)
  | recordAgePromotion (d : Die)
  | teamHaltComplete (o : CoreId)
  | teamSave (o : CoreId)
  /-- The next step of bring-up: a POWER_ON or a MODULE_RESET goes on. -/
  | powerOn
  /-- The next write of a trust word: the event that changed the path goes on (R437). -/
  | trustWrite
  deriving DecidableEq, Repr

/-- The whole module. -/
structure State where
  /-- Events that come about next, in order: what agents outside the cores do (95_what_each_step_holds). -/
  agenda : List Event := []
  /-- The core that acts when the agenda is empty, and on which slot operations act. -/
  cur    : Nat := 0
  /-- Rounds of turns of the cores, by which the mesh's cycles are counted (log entry 4). -/
  rounds : Nat := 0
  /-- The next free value's number. -/
  fresh  : Nat := 65536
  /-- Where the numbers of the free values of memory begin, which no two module resets share. -/
  era    : Nat := 0
  cores  : Tab Core := []
  teams  : Tab Team := []
  ctxs   : Tab Ctx := []
  dies   : Tab DieSt := []
  mem    : Mem := []
  /-- The number of the memory key under which a line lies in external memory (R433); a line without one lies there as it was given (R434). -/
  keys   : Tab Nat := []
  /-- Lines of external memory in which the patrol scrubber has found an uncorrectable error (R415, R416). -/
  ueLines : List Nat := []
  /-- Dirty lines that could not be written back, with the owners of their keys, which are contained next (R416). -/
  lostLines : List (BitVec 3 × Nat) := []
  /-- Windows that system software has opened for host DMA (R393). -/
  dmaWins : List Region := []
  /-- Resident lines, least recently used first (R343). -/
  l2     : List L2Line := []
  /-- Lines that `pref` has asked for: context, class and line (R142). -/
  prefs  : List (BitVec 3 × BitVec 2 × Nat) := []
  fwins  : Tab Fwin := []
  home   : List Req := []
  scHeld : List Req := []
  scLast : Tab Word := []
  /-- The clock that the releasing atomics of a location carry (R267, R278). -/
  relClk : Tab Word := []
  horizon : Word := 0
  meshCyc : Nat := 0
  -- channels and links
  binds  : Tab Binding := []
  bindNext : Nat := 0
  ports  : Tab PortSt := []
  /-- Frames that have left the module by its ports, oldest first (R374). -/
  outbox : List Frame := []
  /-- Abort tokens that have left the module, oldest first (R419). -/
  tokens : List Token := []
  cart   : Cart := {}
  isles  : Tab Island := []
  /-- Throttle cap and power limit (R442). -/
  cap    : Nat := 3200
  plim   : Nat := 8000
  /-- The voltage of the core rail in mV; 0 while its power is removed (R439, R443, R444). -/
  rail   : Nat := 0
  /-- Core-rail power is removed after a thermal trip (R443). -/
  tripped : Bool := false
  /-- Bring-up has completed (R444). -/
  ready  : Bool := false
  survey : Survey := {}
  mc     : Mgmt := {}
  /-- Host memory, where rings, payloads and notices lie. -/
  hostMem : Mem := []
  /-- What host DMA has read, oldest first (R434). -/
  hostReads : List (List Byte) := []
  /-- Interrupts raised at the host, oldest first: true for a context's notice vector, false for MCMSI. -/
  msis   : List (Bool × Nat) := []
  /-- Weight-store refresh: rotation position (R260 to R262). -/
  rotation : Nat := 0
  /-- Nanoseconds elapsed in the current slot of the rotation (R261). -/
  slotNs : Nat := 0
  deriving DecidableEq, Repr

/-- The machine right after module reset. -/
def State.reset : State := {}

/-- Why a step stops with a fault: no step of this machine does. -/
inductive Fault where
  /-- Raised by no meaning; kept so that the type is inhabited. Safe. -/
  | none
  deriving DecidableEq, Repr

/-- Why a step is refused. -/
inductive Refusal where
  /-- Raised by the arms of the dispatch whose instruction has no meaning yet; safe. -/
  | notModelled (mnemonic : String)
  deriving DecidableEq, Repr

/-- The outcome of a step of this machine. -/
abbrev Out := Host.Outcome State Fault Refusal

end Sys2Proof.Machine
end

