-- ==== Sys2Proof/Machine/Base.lean ====
section
/-! DEFINITION. The plainest operations over the state: cores and teams, queues and the calendar, registers, tiles, engines and
buffers. -/
namespace Sys2Proof.Machine

/-! ### Cores and teams -/

/-- Core `i`. -/
def State.core (s : State) (i : Nat) : Core := tabGet {} s.cores i

/-- Sets core `i`. -/
def State.setCore (s : State) (i : Nat) (c : Core) : State := { s with cores := tabSet s.cores i c }

/-- Changes core `i`. -/
def State.modCore (s : State) (i : Nat) (f : Core → Core) : State := s.setCore i (f (s.core i))

/-- The core that acts. -/
def State.me (s : State) : Core := s.core s.cur

/-- Changes the core that acts. -/
def State.upd (s : State) (f : Core → Core) : State := s.modCore s.cur f

/-- Die `d`. -/
def State.die (s : State) (d : Nat) : DieSt := tabGet {} s.dies d

/-- Changes die `d`. -/
def State.modDie (s : State) (d : Nat) (f : DieSt → DieSt) : State := { s with dies := tabMod {} s.dies d f }

/-- Context `x`. -/
def State.ctx (s : State) (x : Nat) : Ctx := tabGet {} s.ctxs x

/-- Changes context `x`. -/
def State.modCtx (s : State) (x : Nat) (f : Ctx → Ctx) : State := { s with ctxs := tabMod {} s.ctxs x f }

/-- The job to which the module is bound, by its session (R2). -/
def Cart.jobNow (c : Cart) : Option Nat := c.job.map fun _ => c.jobSess

/-- The die of the core with a module index, and its die-local position (R4): the index is `x + 32·y` on the graticule. -/
def coreDie (i : Nat) : Nat := i % 32 / 16 + 2 * (i / 32 / 8)
/-- See `coreDie`. -/
def coreX (i : Nat) : Nat := i % 16
/-- See `coreDie`. -/
def coreY (i : Nat) : Nat := i / 32 % 8
/-- The module index of a core from its die and die-local position (R4). -/
def coreIndex (d x y : Nat) : Nat := 16 * (d % 2) + x + 32 * (8 * (d / 2) + y)

/-- The team of core `i`. -/
def State.teamOf (s : State) (i : Nat) : Option Team :=
  match (s.core i).team with
  | none => none
  | some o => tabGet? s.teams o

/-- A team of one core, which stands for the team of a core that no dispatch has placed in one. -/
def loneTeam (i : Nat) : Team :=
  { die := coreDie i, x0 := coreX i, y0 := coreY i, lw := 0, lh := 0, ctx := 0, ent := 0, kind := 3, cores := [i] }

/-- The team of core `i`, or the core alone. -/
def State.team (s : State) (i : Nat) : Team := (s.teamOf i).getD (loneTeam i)

/-- Width and height of a team (R289). -/
def Team.w (t : Team) : Nat := 2 ^ t.lw
/-- See `Team.w`. -/
def Team.h (t : Team) : Nat := 2 ^ t.lh
/-- Position of core `i` in a team (R289). -/
def Team.tx (t : Team) (i : Nat) : Nat := coreX i - t.x0
/-- See `Team.tx`. -/
def Team.ty (t : Team) (i : Nat) : Nat := coreY i - t.y0
/-- The team index of core `i` (R289). -/
def Team.index (t : Team) (i : Nat) : Nat := t.ty i * t.w + t.tx i
/-- The core at a team position. -/
def Team.coreAt (t : Team) (x y : Nat) : Nat := coreIndex t.die (t.x0 + x) (t.y0 + y)
/-- Every core of the team's rectangle, in team-index order. -/
def Team.rect (t : Team) : List Nat :=
  (rangeFrom 0 t.h).flatMap fun y => (rangeFrom 0 t.w).map fun x => t.coreAt x y

/-- A fresh number for a value that the manual leaves open. -/
def State.take (s : State) : Nat × State := (s.fresh, { s with fresh := s.fresh + 1 })

/-! ### Banks, queues and the calendar -/

/-- The queues, latches and loop state in use (R45, R117). -/
def Core.bank (c : Core) : Bank := if c.tm then c.hand else c.prog

/-- Replaces the bank in use. -/
def Core.setBank (c : Core) (b : Bank) : Core := if c.tm then { c with hand := b } else { c with prog := b }

/-- Changes the latches in use. -/
def Core.modLat (c : Core) (f : Latches → Latches) : Core := c.setBank { c.bank with lat := f c.bank.lat }

/-- Enters an event in the calendar, after those due no later. -/
def calInsert (due : Nat) (e : CalEv) (l : List (Nat × CalEv)) : List (Nat × CalEv) :=
  insertBy (fun a b => a.1 < b.1) (due, e) l

/-- An event of the core `n` cycles after the present one. -/
def Core.after (c : Core) (n : Nat) (e : CalEv) : Core := { c with cal := calInsert (c.cyc + n) e c.cal }

/-- Reserves a new position 0 of sq for a value that is ready after `lat` cycles (R43, R44, R108). -/
def Core.pushSq (c : Core) (lat : Nat) (v : Word) : Core :=
  let b := c.bank
  let c1 := c.setBank { b with sq := { id := c.nextId, val := v, ready := false } :: b.sq.take 23 }
  let c2 := c1.after lat (.sqReady c.tm c.nextId)
  { c2 with nextId := c.nextId + 1, grpSq := if c.issuing then c.grpSq + 1 else c.grpSq }

/-- Reserves a new position 0 of vq (R43, R44, R146). -/
def Core.pushVq (c : Core) (lat : Nat) (v : Vec) : Core :=
  let b := c.bank
  let c1 := c.setBank { b with vq := { id := c.nextId, val := v, ready := false } :: b.vq.take 17 }
  let c2 := c1.after lat (.vqReady c.tm c.nextId)
  { c2 with nextId := c.nextId + 1, grpVq := if c.issuing then c.grpVq + 1 else c.grpVq }

/-- The position that an age names: the queue as it stood when the group began (R25, R43, R46). DESIGN CHOICE (log entry 54): where a
handler has written QAS or QAV so high that an age reaches past the last physical position, the position reads as ready and zero. -/
def Core.sqAt (c : Core) (a : Nat) : SqPos := c.bank.sq.getD (a + c.grpSq) {}
/-- See `Core.sqAt`. -/
def Core.vqAt (c : Core) (a : Nat) : VqPos := c.bank.vq.getD (a + c.grpVq) {}

/-- Sets the ready bit of a position of sq, wherever it stands; a position that has left the queue is gone (R44). -/
def Bank.sqReady (b : Bank) (id : Nat) : Bank :=
  { b with sq := b.sq.map fun p => if p.id = id ∧ p.ready = false then { p with ready := true } else p }
/-- See `Bank.sqReady`. -/
def Bank.vqReady (b : Bank) (id : Nat) : Bank :=
  { b with vq := b.vq.map fun p => if p.id = id ∧ p.ready = false then { p with ready := true } else p }

/-! ### Registers -/

/-- Reads g, v and p registers (R47). -/
def Core.getG (c : Core) (n : Nat) : Word := tabGet 0 c.g n
/-- See `Core.getG`. -/
def Core.getV (c : Core) (n : Nat) : Vec := tabGet 0 c.v n
/-- See `Core.getG`. -/
def Core.getP (c : Core) (n : Nat) : Word := tabGet 0 c.p n
/-- Writes them. -/
def Core.setG (c : Core) (n : Nat) (v : Word) : Core := { c with g := tabSet c.g n v }
/-- See `Core.setG`. -/
def Core.setV (c : Core) (n : Nat) (v : Vec) : Core := { c with v := tabSet c.v n v }
/-- See `Core.setG`. -/
def Core.setP (c : Core) (n : Nat) (v : Word) : Core := { c with p := tabSet c.p n v }
/-- Sets and clears scoreboard bits (R48). -/
def Core.markG (c : Core) (n : Nat) (m : RegMark) : Core := { c with gsb := tabSet c.gsb n m }
/-- See `Core.markG`. -/
def Core.markV (c : Core) (n : Nat) (m : RegMark) : Core := { c with vsb := tabSet c.vsb n m }
/-- See `Core.markG`. -/
def Core.clearG (c : Core) (n : Nat) : Core := { c with gsb := tabErase c.gsb n }
/-- See `Core.markG`. -/
def Core.clearV (c : Core) (n : Nat) : Core := { c with vsb := tabErase c.vsb n }

/-- The counter `kN` (R190). -/
def Core.getK (c : Core) (n : Nat) : BitVec 32 := tabGet 0 c.k n
/-- Sets it. -/
def Core.setK (c : Core) (n : Nat) (v : BitVec 32) : Core := { c with k := tabSet c.k n v }

/-- The larger of two clocks. -/
def wordMax (a b : Word) : Word := if a.toNat < b.toNat then b else a

/-- A unit's decrement of a counter, which leaves a zero and sets UND (R191). It is a release that carries the core's clock (R278). -/
def Core.decK (c : Core) (n : Nat) : Core :=
  let c := { c with kclk := tabSet c.kclk n c.lclk }
  if c.getK n = 0 then { c with kund := c.kund ||| (1#16 <<< n) } else c.setK n (c.getK n - 1)

/-- Subtracts a discarded command's count; the counter stops at 0 without UND (R204). -/
def Core.dropK (c : Core) (n u : Nat) : Core := c.setK n (BitVec.ofNat 32 ((c.getK n).toNat - u))

/-- Whether adding `u` would carry the counter past its end (R191). -/
def Core.overK (c : Core) (n u : Nat) : Bool := 2 ^ 32 ≤ (c.getK n).toNat + u

/-- Adds a command's unit count at issue (R190). -/
def Core.addK (c : Core) (n u : Nat) : Core := c.setK n (BitVec.ofNat 32 ((c.getK n).toNat + u))

/-! ### Tiles, slots and the array -/

/-- Tile `n` and operand slot `n`. -/
def Core.tile (c : Core) (n : Nat) : Tile := tabGet {} c.ac n
/-- See `Core.tile`. -/
def Core.obs (c : Core) (n : Nat) : ObSlot := tabGet {} c.ob n
/-- Changes them. -/
def Core.modTile (c : Core) (n : Nat) (f : Tile → Tile) : Core := { c with ac := tabMod {} c.ac n f }
/-- See `Core.modTile`. -/
def Core.modOb (c : Core) (n : Nat) (f : ObSlot → ObSlot) : Core := { c with ob := tabMod {} c.ob n f }

/-- A row of a tile; a row that nothing has written is a free value (R174). -/
def tileRow (key : Nat) (t : Tile) (r : Nat) : Row :=
  (tabGet? t.rows r).getD (Config.freeRow (if t.fill = 0 then key else t.fill) r)
/-- A row of an operand slot (R170). -/
def obRow (key : Nat) (o : ObSlot) (r : Nat) : ObRow :=
  (tabGet? o.rows r).getD (Config.freeObRow (if o.fill = 0 then key else o.fill) r)
/-- The key of the free rows of core `i`'s tile or slot `n` until something takes a fresh one. -/
def tileKey (i n : Nat) : Nat := 64 * i + n
/-- See `tileKey`. -/
def obKey (i n : Nat) : Nat := 32 * i + n

/-- Whether an event of the calendar is an operation on tile `n` that keeps it busy (R175). -/
def CalEv.onTile (n : Nat) : CalEv → Bool
  | .azero m => m.val == n
  | .ascale m _ => m.val == n
  | .ato _ _ _ _ m _ _ => m.val == n
  | .drain m _ _ => m.val == n
  | .wrow m _ _ => m.val == n
  | _ => false

/-- Whether a multiply on tile `n` is waiting or running (R187). -/
def Core.mmaOn (c : Core) (n : Nat) : Bool := c.mmas.any fun m => m.tile.val == n
/-- Whether the tile is busy for a reason other than a multiply (R177). -/
def Core.otherBusy (c : Core) (n : Nat) : Bool := c.cal.any fun e => e.2.onTile n
/-- The busy bit (R175). -/
def Core.tileBusy (c : Core) (n : Nat) : Bool := c.mmaOn n || c.otherBusy n
/-- Whether a `wrow`, or an `adrain`, of the tile is outstanding (R187). -/
def Core.wrowOn (c : Core) (n : Nat) : Bool := c.cal.any fun e =>
  match e.2 with
  | .wrow m _ _ => m.val == n
  | _ => false
/-- See `Core.wrowOn`. -/
def Core.drainOn (c : Core) (n : Nat) : Bool := c.cal.any fun e =>
  match e.2 with
  | .drain m _ _ => m.val == n
  | _ => false

/-- Whether an `ato` writing slot `n` is pending (R175). -/
def Core.atoOn (c : Core) (n : Nat) : Bool := c.cal.any fun e =>
  match e.2 with
  | .ato _ _ _ o _ _ _ => o.val == n
  | _ => false
/-- Whether a multiply that reads slot `n` has not finished (R170). -/
def Core.readers (c : Core) (n : Nat) : Bool := c.mmas.any fun m => m.a.val == n || m.b.val == n

/-- Fields of a nest block (R196). -/
def blkBytes (b : BitVec 1024) (off n : Nat) : Nat := b.toNat / 2 ^ (8 * off) % 2 ^ (8 * n)
/-- Whether a block writes operand slot `n` (DKIND 1, R199). -/
def blkWritesOb (b : BitVec 1024) (n : Nat) : Bool :=
  blkBytes b 0x13 1 % 4 == 1 && blkBytes b 0x13 1 / 4 % 32 == n
/-- N, the product of a block's counts (R198). -/
def nbN (b : BitVec 1024) : Nat := (rangeFrom 0 6).foldl (fun n d => n * blkBytes b (0x20 + 12 * d) 2) 1
/-- Whether a copy command has rows of its operand slot still to write: it is a pending writer until its last row is written (R199). -/
def EngCmd.rowsDue (m : EngCmd) : Bool := decide (m.pos < nbN m.blk) || !m.obRows.isEmpty
/-- Whether a copy command of either engine is a pending writer of slot `n` (R170, R199). -/
def Core.cmdWriters (c : Core) (n : Nat) : Bool := (c.e0.q ++ c.e1.q).any fun m => blkWritesOb m.blk n && m.rowsDue
/-- The pending work of slot `n` (R170). -/
def Core.pendingWork (c : Core) (n : Nat) : Bool := c.readers n || c.atoOn n || c.cmdWriters n

/-- A slot that is RELEASING becomes FREE when its last pending work ends (R170). -/
def Core.settleOb (c : Core) (n : Nat) : Core :=
  if (c.obs n).st = .releasing ∧ c.pendingWork n = false then c.modOb n fun o => { o with st := .free } else c

/-- See `Core.settleOb`, for every slot. -/
def Core.settleObs (c : Core) : Core := (rangeFrom 0 32).foldl (fun c n => c.settleOb n) c

/-- A tile queue (R184). -/
def Core.tq (c : Core) (q : Nat) : TileQueue := tabGet {} c.tqs q
/-- Changes it. -/
def Core.modTq (c : Core) (q : Nat) (f : TileQueue → TileQueue) : Core := { c with tqs := tabMod {} c.tqs q f }

/-- The tile status word (R187). -/
def Core.tileStatus (c : Core) (n : Nat) : Word :=
  let t := c.tile n
  let b (x : Bool) (i : Nat) : Nat := if x then 2 ^ i else 0
  BitVec.ofNat 64 (t.mcnt.toNat * 2 ^ 48 + b t.fv 11 + t.fmt.toNat * 256 + b t.sat 6 + b t.nf 5 + b (c.wrowOn n) 4
    + b (c.drainOn n) 3 + b (c.mmaOn n) 2 + b t.pin 1 + b (c.tileBusy n) 0)

/-! ### Engines and buffers -/

/-- The engine of a slot. -/
def Core.eng (c : Core) : Eng → Engine
  | .c0 => c.e0
  | .c1 => c.e1
/-- Changes it. -/
def Core.modEng (c : Core) (e : Eng) (f : Engine → Engine) : Core :=
  match e with
  | .c0 => { c with e0 := f c.e0 }
  | .c1 => { c with e1 := f c.e1 }

/-- A circular buffer (R206). -/
def Core.cb (c : Core) (n : Nat) : CircBuf := tabGet {} c.cbs n
/-- Changes it. -/
def Core.modCb (c : Core) (n : Nat) (f : CircBuf → CircBuf) : Core := { c with cbs := tabMod {} c.cbs n f }

/-- The local address of granule BASE + ((HEAD + x) mod SIZE) (R207). -/
def CircBuf.gaddr (b : CircBuf) (x : Nat) : Nat := 64 * (b.base.toNat + (b.head.toNat + x) % b.size.toNat)

end Sys2Proof.Machine
end

