-- ==== Sys2Proof/Machine/Mem.lean ====
section
/-! DEFINITION. Global memory: the physical map, the L2 slices and the memory controllers: the contents that external memory holds,
fills, write-backs and evictions, format windows, the undo log (R265, R338 to R346, R420), and the arithmetic of atomics (R138). -/
namespace Sys2Proof.Machine

/-! ### The physical map -/

/-- The physical address map (R338). -/
def paHole (pa : Nat) : Bool := (0x6000000000 ≤ pa && pa < 0x8000000000) || 0x20000000000 ≤ pa
/-- Whether a physical address is in the format-window apertures. -/
def paAperture (pa : Nat) : Bool := 0x10000000000 ≤ pa && pa < 0x20000000000

/-- The enabled window that covers an aperture address (R344). -/
def State.windowAt (s : State) (pa : Nat) : Option Fwin :=
  ((rangeFrom 0 32).map fun n => tabGet {} s.fwins n).find? fun f => f.en && f.ebase ≤ pa && pa < f.ebase + f.esize

/-- Bytes of storage of an expanded line (R345). -/
def Fwin.lineBytes (f : Fwin) : Nat := if f.sfmt = 1 then 48 else if f.sfmt = 2 then 72 else 64

/-- Whether one of `n` bytes from a physical address on is in the storage or exponent range of an enabled window (R344). -/
def State.protectedPa (s : State) (pa n : Nat) : Bool :=
  ((rangeFrom 0 32).map fun n => tabGet {} s.fwins n).any fun f =>
    let lines := f.esize / 128
    f.en && ((f.sbase < pa + n && pa < f.sbase + f.lineBytes * lines) || (f.sfmt == 3 && f.xbase < pa + n && pa < f.xbase + lines))

/-- A byte that nothing has written: a free value. -/
def State.openByte (s : State) (pa : Nat) : Byte := Config.freeByte s.era pa

/-- A byte of global memory as every agent of the module sees it. -/
def State.gByte (s : State) (pa : Nat) : Byte := (memByte s.mem pa).getD (s.openByte pa)

/-- The `n` bytes of global memory from an address. -/
def State.gBytes (s : State) (pa n : Nat) : List Byte := (rangeFrom pa n).map s.gByte

/-! ### Atomics -/

/-- The new value of an atomic (R138). -/
def amoNew (op : AmoOp) (m v c : Word) : Word :=
  match op with
  | .addI64 => m + v
  | .and => m &&& v
  | .or => m ||| v
  | .xor => m ^^^ v
  | .minI64 => if v.toInt < m.toInt then v else m
  | .maxI64 => if m.toInt < v.toInt then v else m
  | .minN64 => if v.toNat < m.toNat then v else m
  | .maxN64 => if m.toNat < v.toNat then v else m
  | .swap => v
  | .cas => if m = c then v else m
  | .faddF32 => BitVec.ofNat 64 (f32Add (m.toNat % 2 ^ 32) (v.toNat % 2 ^ 32))

/-- The size of an atomic (R138). -/
def amoSize (op : AmoOp) : Nat := if op = .faddF32 then 4 else 8

/-- A read-modify-write of the bytes of an atomic: the bytes of the old value and of the new (R138). -/
def amoBytes (a : Amo) (old : List Byte) : List Byte :=
  natBytes (amoSize a.op) (amoNew a.op (BitVec.ofNat 64 (bytesNat old)) a.v a.c).toNat

/-! ### Lines -/

/-- The line of a physical address. -/
def lineOf (pa : Nat) : Nat := pa / 128

/-- The bytes of a memory in `a .. a + n - 1`. -/
def memSlice (m : Mem) (a n : Nat) : Mem := m.filter fun p => a ≤ p.1 && p.1 < a + n

/-- A memory without them. -/
def memClear (m : Mem) (a n : Nat) : Mem := m.filter fun p => !(a ≤ p.1 && p.1 < a + n)

/-- A memory with the bytes of another over its own. -/
def memOver (m : Mem) (l : Mem) : Mem := l.foldl (fun m p => memPut m p.1 p.2) m

/-- The home slice of a line (R339); its die is the slice divided by 256. -/
def homeSlice (l : Nat) : Nat := (l ^^^ (l / 2 ^ 10) ^^^ (l / 2 ^ 20) ^^^ (l / 2 ^ 30)) % 1024

/-- The set of a line in its slice (R339). -/
def l2Set (l : Nat) : Nat := l / 2 ^ 10 % 512

/-- Whether two lines fall in one set of one slice. -/
def sameSet (a b : Nat) : Bool := homeSlice a == homeSlice b && l2Set a == l2Set b

/-- The resident copy of a line. -/
def State.l2At (s : State) (l : Nat) : Option L2Line := s.l2.find? fun x => x.line == l

/-- Changes a resident line. -/
def State.modLine (s : State) (l : Nat) (f : L2Line → L2Line) : State :=
  { s with l2 := modFirst (fun x => x.line == l) f s.l2 }

/-- A line becomes the most recently used. -/
def State.touch (s : State) (l : Nat) : State :=
  match s.l2At l with
  | none => s
  | some x => { s with l2 := eraseFirst (fun y => y.line == l) s.l2 ++ [x] }

/-- The lines of `n` bytes. -/
def linesOf (pa n : Nat) : List Nat := if n = 0 then [] else rangeFrom (lineOf pa) (lineOf (pa + n - 1) - lineOf pa + 1)

/-- Splits bytes at line boundaries. -/
def splitLines (pa : Nat) (bs : List Byte) : List (Nat × List Byte) :=
  (linesOf pa bs.length).map fun l =>
    let lo := max pa (128 * l)
    (lo, ((bs.drop (lo - pa)).take (128 * l + 128 - lo)))

/-! ### External memory and its encryption (R265, R433, R434) -/

/-- A line as external memory holds it (R265): its contents, decrypted under the key with which they were encrypted. -/
def State.extLine (s : State) (l : Nat) : Mem :=
  match s.l2At l with
  | some x => if x.dirty || x.apart then x.old else memSlice s.mem (128 * l) 128
  | none => memSlice s.mem (128 * l) 128

/-- The number of that key, or 0 where the line lies there as it was given. -/
def State.extKey (s : State) (l : Nat) : Nat :=
  match s.l2At l with
  | some x => if x.dirty || x.apart then x.okey else tabGet 0 s.keys l
  | none => tabGet 0 s.keys l

/-- The number of a context's memory key (R433); 0 for none. -/
def State.ctxKey (s : State) (x : Nat) : Nat := ((s.ctx x).memKey).getD 0

/-- The 128 bytes of a line's contents. -/
def State.lineBytes (s : State) (l : Nat) (m : Mem) : List Byte :=
  (rangeFrom (128 * l) 128).map fun a => (memByte m a).getD (s.openByte a)

/-- A line's contents encrypted under a key: its tweak is its physical address (R433). -/
def toCipher (k l : Nat) (bs : List Byte) : List Byte := if k = 0 then bs else xtsEnc (Config.memKey k) (128 * l) bs

/-- And decrypted. -/
def ofCipher (k l : Nat) (bs : List Byte) : List Byte := if k = 0 then bs else xtsDec (Config.memKey k) (128 * l) bs

/-- The 128 bytes that lie in external memory (R433, R434). -/
def State.cipherLine (s : State) (l : Nat) : List Byte := toCipher (s.extKey l) l (s.lineBytes l (s.extLine l))

/-- A byte of external memory as an agent that acts for context `x` reads it: decrypted under the context's key (R265, R433). -/
def State.extByte (s : State) (x : Nat) (pa : Nat) : Byte :=
  let l := lineOf pa
  if s.extKey l = s.ctxKey x then (memByte (s.extLine l) pa).getD (s.openByte pa)
  else (ofCipher (s.ctxKey x) l (s.cipherLine l)).getD (pa % 128) 0

/-- External memory receives a line, under a key. -/
def putExt (l k : Nat) (m : Mem) (s : State) : State :=
  match s.l2At l with
  | some _ => s.modLine l fun y => { y with apart := true, old := m, okey := k }
  | none => { s with mem := memOver (memClear s.mem (128 * l) 128) m, keys := tabSet s.keys l k }

/-- A line of external memory is taken as the owner of key `k` decrypts it. A line in which nothing has been stored holds what the manual leaves
open under every key. -/
def rekeyLine (k l : Nat) (s : State) : State :=
  if s.extKey l = k then s
  else if s.extKey l = 0 ∧ s.extLine l = [] then putExt l k [] s
  else putExt l k (memWrite [] (128 * l) (ofCipher k l (s.cipherLine l))) s

/-- Bytes of external memory written as they are given (R434). -/
def rawWrite (pa : Nat) (bs : List Byte) (s : State) : State :=
  (splitLines pa bs).foldl (fun s p =>
    let l := lineOf p.1
    let m := if s.extKey l = 0 then s.extLine l else memWrite [] (128 * l) (s.cipherLine l)
    putExt l 0 (memWrite m p.1 p.2) s) s

/-! ### The undo log (R420) -/

/-- Whether a line lies in a region. -/
def Region.hasLine (r : Region) (l : Nat) : Bool := r.base < 128 * l + 128 && 128 * l < r.base + r.size

/-- The regions of a context that are never logged; a save region is added by the context's owner (R420). -/
def Ctx.unlogged (c : Ctx) (l : Nat) : Bool := c.undo.hasLine l || c.save.hasLine l || c.ptLines.contains l

/-- The first write of a line in an interval to reach its controller appends a record of 144 bytes to the context's undo region: the line's address,
zeros and the old ciphertext. A full region sets UFULL. -/
def undoAppend (x l : Nat) (s : State) : State :=
  let c := s.ctx x
  if c.pol = 1 ∧ c.ufull = false ∧ paAperture (128 * l) = false ∧ c.unlogged l = false ∧ c.ulog.all (fun e => e.line != l) then
    if c.undo.size / 144 ≤ c.ulog.length then s.modCtx x fun c => { c with ufull := true }
    else
      (rawWrite (c.undo.base + 144 * c.ulog.length) (natBytes 8 (128 * l) ++ natBytes 8 0 ++ s.cipherLine l) s).modCtx x fun c =>
        { c with ulog := { line := l, key := s.extKey l, old := s.extLine l } :: c.ulog }
  else s

/-! ### Format windows (R344, R345) -/

/-- Bits of a stored NX block of an expanded line, and its mantissa width. -/
def windowK (sfmt : BitVec 3) : Nat := if sfmt = 1 then 4 else 7

/-- The expanded line that a window's line decodes to. -/
def windowDecode (s : State) (f : Fwin) (l : Nat) : List Byte :=
  let i := (128 * l - f.ebase) / 128
  if f.sfmt = 3 then
    let e := sintOf 8 (s.gByte (f.xbase + i)).toNat
    (rangeFrom 0 64).flatMap fun j =>
      natBytes 2 (ffBf16.rne ((ffE4m3.value (s.gByte (f.sbase + 64 * i + j)).toNat).mul (.fin false 1 e)))
  else
    let k := windowK f.sfmt
    let n := nxBits k / 8
    let blks := (rangeFrom 0 4).map fun b => bytesNat (s.gBytes (f.sbase + f.lineBytes * i + n * b) n)
    (rangeFrom 0 64).flatMap fun j => natBytes 2 (ffBf16.rne (nxElem k (blks.getD (j / 16) 0) (j % 16)))

/-- The smallest e in -127..127, from `lo` up, with every finite magnitude at most 448·2^e (R326). -/
def fp8Exp (xs : List FpNum) : Nat → Int → Int
  | 0, e => e
  | n + 1, e => if xs.all (fun x => absLe x 448 e) then e else fp8Exp xs n (e + 1)

/-- The exponent of a tile or line in the FP8 form (R326). -/
def fp8Exponent (xs : List FpNum) : Int :=
  let fin := xs.filter fun x => x.isFin && !absLe x 0 0
  if fin.isEmpty then 0 else fp8Exp fin 254 (-127)

/-- A value scaled by 2^(-e) and converted to E4M3 with RNA (R326, R345). -/
def fp8Elem (e : Int) (x : FpNum) : Nat := (ffE4m3.round .rna false false (x.mul (.fin false 1 (-e)))).bits

/-- The storage that an expanded line encodes to: bytes by address. -/
def windowEncode (s : State) (f : Fwin) (l : Nat) : Mem :=
  let i := (128 * l - f.ebase) / 128
  let xs := (rangeFrom 0 64).map fun j => ffBf16.value (bytesNat (s.gBytes (128 * l + 2 * j) 2))
  if f.sfmt = 3 then
    let e := fp8Exponent xs
    memWrite (memWrite [] (f.sbase + 64 * i) (xs.map fun x => BitVec.ofNat 8 (fp8Elem e x))) (f.xbase + i)
      [BitVec.ofInt 8 e]
  else
    let k := windowK f.sfmt
    let bs := (rangeFrom 0 4).flatMap fun b => natBytes (nxBits k / 8) (nxEncode k (fun _ => .rna) ((xs.drop (16 * b)).take 16)).1
    memWrite [] (f.sbase + f.lineBytes * i) bs

/-! ### Write-back, eviction and fills -/

/-- An uncorrectable error of a line is gone with its data. -/
def healLine (l : Nat) (s : State) : State := { s with ueLines := s.ueLines.filter (· != l) }

/-- A write of external memory by the line's owner that no L2 copy covers: every line it touches is logged (R420). -/
def extWrite (x : Nat) (bs : Mem) (s : State) : State :=
  let s := (bs.map fun p => lineOf p.1).eraseDups.foldl (fun s l => rekeyLine (s.ctxKey x) l (undoAppend x l s)) s
  { s with mem := memOver s.mem bs }

/-- A line whose copy and external contents agree. -/
def L2Line.clean (y : L2Line) : L2Line := { y with dirty := false, old := [], apart := false, okey := 0, by_ := [] }

/-- A dirty line is written back (R340, R345): its window's storage is encoded and, unless the line is evicted, its copy replaced
by the decode. One whose data have an uncorrectable error cannot be, and its owner is contained next (R416). -/
def writeBack (evict : Bool) (l : Nat) (s : State) : State :=
  match s.l2At l with
  | none => s
  | some x =>
    if x.dirty = false then s
    else if x.ue then { s with lostLines := s.lostLines.filter (· != (x.ctx, l)) ++ [(x.ctx, l)] }
    else if paAperture (128 * l) then
      match s.windowAt (128 * l) with
      | none => s.modLine l L2Line.clean
      | some f =>
        let s1 := extWrite x.ctx.toNat (windowEncode s f l) s
        let s2 := if evict then s1 else { s1 with mem := memWrite s1.mem (128 * l) (windowDecode s1 f l) }
        s2.modLine l L2Line.clean
    else healLine l ((undoAppend x.ctx.toNat l s).modLine l L2Line.clean)

/-- A line leaves L2. Its race tag is lost (R274), an expanded view that is not resident is not held anywhere, and what host DMA has written past a
clean copy stays. -/
def evictLine (l : Nat) (s : State) : State :=
  let s := writeBack true l s
  let s1 : State := { s with l2 := eraseFirst (fun y => y.line == l) s.l2 }
  match s.l2At l with
  | none => s1
  | some y =>
    if paAperture (128 * l) then { s1 with mem := memClear s.mem (128 * l) 128 }
    else if y.apart then putExt l y.okey y.old s1 else s1

/-- A die's way quota of a class (R343). -/
def DieSt.quota (d : DieSt) (c : Nat) : Nat := (tabGet 16 d.wq c).toNat

/-- The victim of a fill of class `c` (R343), if the set has no free way: the oldest unlocked line of class c when c is at its quota,
else of a class above its quota, else of the set. -/
def victim (s : State) (l : Nat) (c : BitVec 2) : Option Nat :=
  let d := s.die (homeSlice l / 256)
  let set := s.l2.filter fun y => sameSet y.line l
  let count (k : BitVec 2) : Nat := (set.filter fun y => y.cls == k).length
  let free := set.filter fun y => y.locks.isEmpty
  if set.length < 16 then none
  else
    let own := free.filter fun y => y.cls == c && d.quota c.toNat ≤ count c
    let excess := free.filter fun y => d.quota y.cls.toNat < count y.cls
    match own ++ excess ++ free with
    | [] => none
    | y :: _ => some y.line

/-- The lines of storage of an expanded line (R344, R345). -/
def windowLines (f : Fwin) (l : Nat) : List Nat :=
  let i := (128 * l - f.ebase) / 128
  linesOf (f.sbase + f.lineBytes * i) f.lineBytes ++ if f.sfmt = 3 then [lineOf (f.xbase + i)] else []

/-- The window of an aperture's line. -/
def State.lineWindow (s : State) (l : Nat) : Option Fwin := if paAperture (128 * l) then s.windowAt (128 * l) else none

/-- A fill (R340, R343, R345) for context `x`, decrypted under key `k` (R433): nothing for a resident line. -/
def fillWith (k : Nat) (x : BitVec 3) (c : BitVec 2) (l : Nat) (s : State) : State :=
  match s.l2At l with
  | some _ => s.touch l
  | none =>
    let s1 := match victim s l c with
      | none => s
      | some v => evictLine v s
    let src := match s.lineWindow l with
      | none => [l]
      | some f => windowLines f l
    let s2 := if paAperture (128 * l) && (s.lineWindow l).isNone then s1 else src.foldl (fun s q => rekeyLine k q s) s1
    let s3 := match s.lineWindow l with
      | none => s2
      | some f => { s2 with mem := memWrite s2.mem (128 * l) (windowDecode s2 f l) }
    { s3 with l2 := s3.l2 ++ [{ line := l, ctx := x, cls := c, ue := src.any s.ueLines.contains }] }

/-- A fill under the context's own key. -/
def fillLine (x : BitVec 3) (c : BitVec 2) (l : Nat) (s : State) : State := fillWith (s.ctxKey x.toNat) x c l s

/-- A resident line becomes dirty: what external memory holds of it is kept until its write-back (R265). -/
def dirtyLine (l : Nat) (s : State) : State :=
  let old := memSlice s.mem (128 * l) 128
  let k := tabGet 0 s.keys l
  s.modLine l fun y => if y.dirty then y else if y.apart then { y with dirty := true } else { y with dirty := true, apart := true, old := old, okey := k }

/-- A write of bytes of one line at its home, which allocates the line (R340). -/
def homeWrite (x : BitVec 3) (c : BitVec 2) (pa : Nat) (bs : List Byte) (s : State) : State :=
  let s := dirtyLine (lineOf pa) (fillLine x c (lineOf pa) s)
  let s := if bs.length = 128 then s.modLine (lineOf pa) fun y => { y with ue := false } else s
  { s with mem := memWrite s.mem pa bs }

/-- A write of any length through L2. -/
def globalWrite (x : BitVec 3) (c : BitVec 2) (pa : Nat) (bs : List Byte) (s : State) : State :=
  (splitLines pa bs).foldl (fun s p => homeWrite x c p.1 p.2 s) s

/-- A write by an agent of system scope (R265): it goes to external memory, and into a copy that L2 holds. -/
def systemWrite (x : Nat) (pa : Nat) (bs : List Byte) (s : State) : State :=
  (splitLines pa bs).foldl (fun s p =>
    let l := lineOf p.1
    let s := undoAppend x l s
    let s := rekeyLine (s.ctxKey x) l s
    let s := s.modLine l fun y => if y.dirty || y.apart then { y with old := memWrite y.old p.1 p.2 } else y
    let s := if p.2.length = 128 then healLine l s else s
    { s with mem := memWrite s.mem p.1 p.2 }) s

/-- Bytes as an agent of system scope that acts for context `x` reads them (R265). -/
def State.systemBytes (s : State) (x pa n : Nat) : List Byte := (rangeFrom pa n).map (s.extByte x)

/-- Whether reading `n` bytes through L2 meets an uncorrectable error (R416). -/
def State.ueAt (s : State) (pa n : Nat) : Bool :=
  (linesOf pa n).any fun l => match s.l2At l with
    | some y => y.ue
    | none => s.ueLines.contains l || match s.lineWindow l with
      | some f => (windowLines f l).any s.ueLines.contains
      | none => false

/-- Whether reading them at system scope does. -/
def State.ueExt (s : State) (pa n : Nat) : Bool := (linesOf pa n).any s.ueLines.contains

/-- Whether a line is dirty in L2. -/
def State.isDirty (s : State) (l : Nat) : Bool :=
  match s.l2At l with
  | some y => y.dirty
  | none => false

/-- Writes back every dirty line of a context. -/
def writeBackCtx (x : BitVec 3) (s : State) : State :=
  ((s.l2.filter fun y => y.ctx == x && y.dirty).map (·.line)).foldl (fun s l => writeBack false l s) s

/-- Writes back every dirty line that a core's own accesses have written (R125, R238). -/
def writeBackOf (i : Nat) (s : State) : State :=
  ((s.l2.filter fun y => y.by_.contains i && y.dirty).map (·.line)).foldl (fun s l => writeBack false l s) s

/-- A locked line stays resident when the key under which it lies goes (R342): it is written back, and from then on is a line of context `y` under
key `k`. -/
def handLine (y : BitVec 3) (k l : Nat) (s : State) : State :=
  let s1 := writeBack false l s
  let old := s1.extLine l
  let ok := s1.extKey l
  { s1.modLine l (fun q => { q with ctx := y, apart := true, old := old, okey := ok }) with keys := tabSet s1.keys l k }

/-- A context's key is zeroed (R433): its lines leave L2, and what was written under the key is ciphertext under no live key. Lines that are locked stay, for
the first context that holds them. `k` is the number of what the context's writes are encrypted with from then on, if it stays. -/
def zeroKey (x : Nat) (k : Option Nat) (s : State) : State :=
  let mine := s.l2.filter fun y => y.ctx.toNat == x
  if ((s.ctx x).memKey).isNone then s
  else (mine.foldl (fun s y => match y.locks with
    | [] => evictLine y.line s
    | z :: _ => handLine z (if z.toNat = x then k.getD 0 else s.ctxKey z.toNat) y.line s) s).modCtx x fun c => { c with memKey := k }

end Sys2Proof.Machine
end

