-- ==== Sys2Proof/Machine/Contain.lean ====
section
/-! DEFINITION. The fault log and the containment of a context (R414 to R422). -/
namespace Sys2Proof.Machine

/-- Writes a record to a die's fault log, or counts it as lost when the log is full (R414). -/
def logFault (d : Nat) (r : FaultRec) (s : State) : State :=
  s.modDie d fun x =>
    let r := { r with seq := x.fseq, time := BitVec.ofNat 64 s.meshCyc }
    if x.flog.length < 1024 then { x with flog := x.flog ++ [r], fseq := x.fseq + 1 }
    else { x with flost := if x.flost = 0xFFFFFFFF then x.flost else x.flost + 1, fseq := x.fseq + 1 }

/-- Whether core `i` belongs to context `x`. -/
def State.coreIn (s : State) (x : Nat) (i : Nat) : Bool :=
  match s.teamOf i with
  | some t => t.ctx.toNat == x
  | none => false

/-- A collective that has not ended ends with a fault (R387, R418, R419). -/
def Coll.fail (c : Coll) (status fcode : BitVec 32) : Coll :=
  if c.ended then c else { c with ended := true, status := status, fcode := fcode }

/-- Freezes every master of a context (R418): its cores, with their engines and queues, and its collectives. -/
def freezeCtx (x : Nat) (s : State) : State :=
  let s1 : State := { s with cores := s.cores.map fun (i, c) =>
      (i, if s.coreIn x i ∧ c.run ≠ RunState.double then { c with run := RunState.frozen } else c) }
  s1.modCtx x fun c => { c with colls := c.colls.map fun k => k.fail 2 0x04 }

/-! ### What the stash engine stores (R324, R326, R331) -/

/-- Bytes of an entry's stored form. -/
def StashEnt.stored (e : StashEnt) : Nat := e.lens.sum

/-- A change to an entry's state may let a record of its stage run: the stage is evaluated (R333, R397). -/
def DieSt.dueStage (x : DieSt) (n : BitVec 8) : DieSt :=
  { x with stages := x.stages.map fun g => if g.num = n then { g with due := true } else g }

/-- A piece enters a list in ascending order of addresses. -/
def insPiece (p : Nat × Nat) : List (Nat × Nat) → List (Nat × Nat)
  | [] => [p]
  | q :: l => if p.1 < q.1 then p :: q :: l else q :: insPiece p l

/-- The free pieces from `lo` to `hi`, beside pieces in use in ascending order. -/
def freePieces (hi : Nat) : List (Nat × Nat) → Nat → List (Nat × Nat)
  | [], lo => if lo < hi then [(lo, hi - lo)] else []
  | (a, n) :: l, lo => (if lo < a then [(lo, a - lo)] else []) ++ freePieces hi l (max lo (a + n))

/-- The first `n` bytes of free pieces. -/
def takeRoom : List (Nat × Nat) → Nat → List (Nat × Nat)
  | [], _ => []
  | (a, k) :: l, n => if n = 0 then [] else if n ≤ k then [(a, n)] else (a, k) :: takeRoom l (n - k)

/-- The pieces of a region that a context's entries on all dies use. -/
def State.regionPieces (s : State) (x : BitVec 3) (r : Region) : List (Nat × Nat) :=
  (([0, 1, 2, 3] : List Nat).flatMap fun d => (s.die d).stash.flatMap fun e =>
    if e.ctx = x then e.place.filter fun p => decide (r.base ≤ p.1 ∧ p.1 < r.base + r.size) else []).foldr insPiece []

/-- Bytes of a region in use. -/
def State.regionUsed (s : State) (x : BitVec 3) (r : Region) : Nat := ((s.regionPieces x r).map (·.2)).sum

/-- Where a stored form of `n` bytes goes in a region. DESIGN CHOICE (log entry 71): the lowest free bytes, which need not adjoin. -/
def State.regionPlace (s : State) (x : BitVec 3) (r : Region) (n : Nat) : List (Nat × Nat) :=
  takeRoom (freePieces (r.base + r.size) (s.regionPieces x r) r.base) n

/-- The engine writes a stored form to its place: past L2, under the context's key (R324, R420). -/
def storeAt (x : BitVec 3) : List (Nat × Nat) → List Byte → State → State
  | [], _, s => s
  | (a, n) :: r, l, s => storeAt x r (l.drop n) (systemWrite x.toNat a (l.take n) s)

/-- A stored form as its region holds it. -/
def State.storedBytes (s : State) (e : StashEnt) : List Byte := e.place.flatMap fun p => s.systemBytes e.ctx.toNat p.1 p.2

/-- The region of an entry's policy (R324, R326). -/
def State.entRegion (s : State) (e : StashEnt) : Region :=
  if e.policy = 2 then (s.ctx e.ctx.toNat).spill else (s.ctx e.ctx.toNat).stash

/-- CMD in a record. -/
def cmdCode : StashOp → Nat
  | .put => 0
  | .get => 1
  | .pf => 2
  | .drop => 3
  | .free => 4
  | .wvCommit => 5

/-- The record of a completed command (R331). -/
def stashRecord (core : Nat) (nkey : Word) (kctr : BitVec 4) (op : StashOp) (x : BitVec 3) (stage : BitVec 8) (tag sid : BitVec 16) (id : Nat) :
    AgentRec :=
  { coll := false, core := core, key := nkey.setWidth 48, idx := sid.toNat, kctr := kctr, payload := 0
    want := some (x, stage, tag, sid, cmdCode op, id) }

/-- A put's stored form is written to its region, and the entry leaves WRITING (R326, R328, R331). -/
def endStore (d : Nat) (e : StashEnt) (s : State) : State :=
  let place := s.regionPlace e.ctx (s.entRegion e) e.stored
  let e1 := { e with st := if e.policy = 2 then .spilled else .resident, nrec := none, data := [], place := place, by_ := none }
  let recs := match e.nrec with
    | some (i, nkey, k, id) => [stashRecord i nkey k .put e.ctx e.stage e.tag e.sid id]
    | none => []
  (storeAt e.ctx place e.data s).modDie d fun x =>
    { x with stash := x.stash.map (fun q => if q = e then e1 else q), stRecs := x.stRecs ++ recs }.dueStage e.stage

/-- A spilled entry's stored form is copied into the stash region (R324, R333). -/
def endFetch (d : Nat) (e : StashEnt) (s : State) : State :=
  let place := s.regionPlace e.ctx (s.ctx e.ctx.toNat).stash e.stored
  (storeAt e.ctx place (s.storedBytes e) s).modDie d fun x =>
    { x with stash := x.stash.map fun q => if q = e then { q with st := .resident, place := place } else q }.dueStage e.stage

/-- Whether a stored form that has been read waits for nothing but its write. -/
def State.storeReady (s : State) (e : StashEnt) : Bool :=
  e.st == .writing && e.read && decide (s.regionUsed e.ctx (s.entRegion e) + e.stored ≤ (s.entRegion e).size)

/-- Whether a fetch waits for nothing but its copy. -/
def State.fetchReady (s : State) (e : StashEnt) : Bool :=
  e.st == .fetching && decide (s.regionUsed e.ctx (s.ctx e.ctx.toNat).stash + e.stored ≤ (s.ctx e.ctx.toNat).stash.size)

/-- Whether reading an entry's stored form meets an uncorrectable error (R416). -/
def State.storedUe (s : State) (e : StashEnt) : Bool := e.place.any fun q => s.ueExt q.1 q.2

/-- The writes of the stash engine for a context that are under way on a die are performed (R421). -/
def drainStash (x d : Nat) (s : State) : State :=
  (s.die d).stash.foldl (fun s e =>
    if e.ctx.toNat ≠ x then s
    else if s.storeReady e then endStore d e s
    else if s.fetchReady e && !s.storedUe e then endFetch d e s
    else s) s

/-! ### Rollback and episodes -/

/-- The in-flight writes of a context are performed (R421): those that wait at a home, the `.sc` atomics that one holds, and the stash engine's. -/
def drainWrites (x : Nat) (s : State) : State :=
  let mine := (s.home ++ s.scHeld).filter fun r => s.coreIn x r.core
  [0, 1, 2, 3].foldl (fun s d => drainStash x d s) <| mine.foldl (fun s r => r.elems.foldl (fun s e =>
      match r.kind, r.spad with
      | .write, none => homeWrite (BitVec.ofNat 3 x) r.cls e.ea.toNat e.data s
      | .atomic a, none =>
        let s1 := fillLine (BitVec.ofNat 3 x) r.cls (lineOf e.ea.toNat) s
        homeWrite (BitVec.ofNat 3 x) r.cls e.ea.toNat (amoBytes a (s1.gBytes e.ea.toNat e.len)) s1
      | _, _ => s) s)
    { s with home := s.home.filter fun r => !s.coreIn x r.core, scHeld := s.scHeld.filter fun r => !s.coreIn x r.core }

/-- Restores one record of the undo log: a line as external memory held it, under its key. -/
def restoreLine (s : State) (e : UndoRec) : State := putExt e.line e.key e.old (healLine e.line s)

/-- A line that a rollback has invalidated is resident again, with the locks that it had (R342, R421). -/
def relock (s : State) (y : L2Line) : State :=
  if y.locks.isEmpty then s else (fillLine y.ctx y.cls y.line s).modLine y.line fun q => { q with locks := y.locks }

/-- A rollback (R421). With UFULL set nothing is restored. Line locks stay. What cannot be written back of the context needs no containment of its own. -/
def rollback (x : Nat) (s : State) : State :=
  let s1 := writeBackCtx (BitVec.ofNat 3 x) (drainWrites x s)
  let mine := s1.l2.filter fun y => y.ctx.toNat == x
  let s2 := mine.foldl (fun s y => evictLine y.line s) s1
  let s3 := if (s2.ctx x).ufull then s2
    else ((s2.ctx x).ulog.foldl restoreLine s2).modCtx x fun c => { c with ulog := [], rbk := true }
  let s4 := mine.foldl relock s3
  { s4 with lostLines := s4.lostLines.filter fun p => p.1.toNat != x }

/-- An abort token leaves for every other member of a group (R419). -/
def sendTokens (x : Nat) (g : Nat × Group) (step : Word) (s : State) : State :=
  { s with tokens := s.tokens ++ [{ job := ((s.ctx x).job).getD 0, ctx := BitVec.ofNat 3 x, group := g.1, member := g.2.member, step := step }] }

/-- The lesser step. -/
def stepMin (a b : Word) : Word := if a.toNat < b.toNat then a else b

/-- Opens the abort episode of a fatal fault (R418): every group is sent its token, once. In an episode that is open already the agreed step can
only fall, and its group stays. -/
def openEpisode (x : Nat) (s : State) : State :=
  let c := s.ctx x
  let s1 := if c.fatal then s else c.groups.foldl (fun s g => sendTokens x g c.cstep s) s
  s1.modCtx x fun c =>
    if c.abp then { c with fatal := true, astep := stepMin c.cstep c.astep }
    else { c with fatal := true, abp := true, astep := c.cstep, acnt := 0, heard := [], adone := c.groups.isEmpty
                  epGroup := (c.groups.head?).map (·.1) }

/-- Contains a context after a fatal fault, which is logged on die `d` (R418). -/
def contain (x : Nat) (d : Nat) (r : FaultRec) (s : State) : State :=
  let s1 := freezeCtx x s
  let s2 := if (s1.ctx x).pol = 1 then rollback x s1 else s1
  let sent := !(s2.ctx x).fatal && !(s2.ctx x).groups.isEmpty
  let rolled := (s2.ctx x).pol == 1 && !(s2.ctx x).ufull
  logFault d { r with flags := BitVec.ofNat 8 (1 + (if rolled then 2 else 0) + if sent then 4 else 0) } (openEpisode x s2)

/-- The record of a dirty line that cannot be written back (R414, R416). -/
def lineRec (x : BitVec 3) (l : Nat) : FaultRec :=
  { seq := 0, src := 5, ctx := x.setWidth 8, unit := BitVec.ofNat 16 (homeSlice l), cause := Config.unitCode 5, addr := BitVec.ofNat 64 (128 * l) }

/-- A dirty line of a context cannot be written back, which is fatal to it (R416). -/
def containLine (x : BitVec 3) (l : Nat) (s : State) : State :=
  contain x.toNat (homeSlice l / 256) (lineRec x l) { s with lostLines := s.lostLines.filter (· != (x, l)) }

/-- A token reaches a context (R419). -/
def onToken (x g sender : Nat) (step : Word) (s : State) : State :=
  let c := s.ctx x
  match tabGet? c.groups g with
  | none => s
  | some gr =>
    let s1 := if c.abp then s
      else (sendTokens x (g, gr) c.cstep s).modCtx x fun c =>
        { c with abp := true, astep := c.cstep, acnt := 0, heard := [], adone := false, epGroup := some g }
    let s2 := s1.modCtx x fun c =>
      let fresh := c.epGroup == some g && !c.heard.contains sender
      let c1 := { c with astep := stepMin step c.astep
                         heard := if fresh then c.heard ++ [sender] else c.heard
                         acnt := if fresh then c.acnt + 1 else c.acnt }
      let n := ((c1.epGroup.bind fun e => tabGet? c1.groups e).map (·.n)).getD 1
      { c1 with adone := c1.adone || c1.acnt.toNat == n - 1
                colls := c1.colls.map fun k =>
                  if blkBytes k.blk 8 4 / 2 ^ 30 = 0 ∧ blkBytes k.blk 8 4 % 64 = g then k.fail 4 0x06 else k }
    { s2 with cores := s2.cores.map fun (i, k) =>
        (i, if s2.coreIn x i ∧ (k.run = RunState.running ∨ k.run = RunState.stopping) then { k with token := true } else k) }

end Sys2Proof.Machine
end

