-- ==== Sys2Proof/Machine/Ops.lean ====
section
/-! DEFINITION. The named operations over the state: taking a trap and the return from it, redirects, scratchpads with
their race tags and wake comparators, addresses and translation. -/
namespace Sys2Proof.Machine

/-! ### Taking a trap and returning from it -/

/-- CAUSE of a trap (R57, R354). -/
def causeWord (t : Trap) (slot : Nat) : Word :=
  BitVec.ofNat 64 (t.info.toNat * 2 ^ 32 + t.cls.toNat * 2 ^ 12 + slot * 2 ^ 8 + t.code.toNat)

/-- The history with every entry invalid (R19). -/
def noHist : List (Option (BitVec 24)) := List.replicate 8 none

/-- TVEC.EN and the entry address of a class (R355). -/
def tvecEn (v : Word) : Bool := v.getLsbD 63
/-- See `tvecEn`. -/
def tvecEntry (v : Word) (cls : BitVec 4) : Word := (v &&& 0x0000FFFFFFFFFFC0) + 64 * cls.setWidth 64

/-- The owner's C slot no longer waits at a buffer (R208). -/
def CircBuf.giveUp (b : CircBuf) : CircBuf :=
  { b with claims := b.claims.filter (· != .own), awaits := b.awaits.filter (· != .own) }

/-- The core leaves the group and bundle in issue. -/
def Core.dropBundle (c : Core) : Core :=
  { c with fetched := none, bun := none, issuing := false, rest := [], defer := none, pend := none, reent := none, held := {},
           grpSq := 0, grpVq := 0, grpOld := [], grpSys := [], grpBanks := [], wbT := 0, sret := false,
           snap := {}, grpStash := 0, gzAsk := none, gzGrant := false, gzKeep := none,
           cbs := c.cbs.map fun (n, b) => (n, b.giveUp),
           wflt := c.wflt.filter fun f => match f.who with
             | .eng _ _ => true
             | _ => false }

/-- The record of a core's fault (R414). -/
def coreRec (s : State) (i : Nat) (t : Trap) (slot : Nat) : FaultRec :=
  { seq := 0, src := 0, ctx := (s.team i).ctx.setWidth 8, unit := BitVec.ofNat 16 i,
    cause := (causeWord t slot).setWidth 16, info := t.info, addr := t.faddr }

/-- The record of a contained fault (R412, R414): a master of core `i` has frozen. DEDUCED (log entry 72): UNIT is the core, and CAUSE and INFO hold the
unit's fault code. -/
def logContained (src : BitVec 8) (i code : Nat) (addr : Word) (s : State) : State :=
  logFault (coreDie i)
    { seq := 0, src := src, ctx := match s.teamOf i with
        | some t => t.ctx.setWidth 8
        | none => 0xFF
      unit := BitVec.ofNat 16 i, cause := BitVec.ofNat 16 code, info := BitVec.ofNat 32 code, addr := addr } s

/-- The record of a frozen channel queue (R245, R412, R414). DEDUCED (log entry 72): the queue is the core's own, so SRC is 0, and CAUSE holds the class and
the code of the trap that the core takes at its next wait (R57, R357). -/
def logQueue (i info : Nat) (addr : Word) (s : State) : State :=
  logFault (coreDie i)
    { seq := 0, src := 0, ctx := match s.teamOf i with
        | some t => t.ctx.setWidth 8
        | none => 0xFF
      unit := BitVec.ofNat 16 i, cause := 0xA003, info := BitVec.ofNat 32 info, addr := addr } s

/-- A double trap (R356): the core stops for good, DCAUSE receives the cause, and the context is contained. CAUSE, EPC, FADDR
and CSTAT keep what they hold. -/
def doubleTrap (i : Nat) (t : Trap) (slot : Nat) (s : State) : State :=
  contain (s.team i).ctx.toNat (coreDie i) (coreRec s i t slot)
    (s.modCore i fun c => { c.dropBundle with run := .double, dcause := causeWord t slot })

/-- The state of a core that enters its handler (R354). `free` is what PTGT holds after a trap with RSM clear. -/
def Core.enterHandler (c : Core) (t : Trap) (slot : Nat) (epc : Word) (rsm : Bool) (sres : Nat) (free : Word) : Core :=
  { c.dropBundle with
    cause := causeWord t slot
    epc := epc
    faddr := t.faddr
    sres := BitVec.ofNat 3 sres
    rsm := rsm
    qas := BitVec.ofNat 3 c.grpSq
    qav := BitVec.ofNat 2 c.grpVq
    prd := rsm && c.pend.isSome
    pkind := if rsm then (c.pend.map (·.kind)).getD 0 else 0
    ptgt := if rsm then (c.pend.map (·.arg)).getD c.ptgt else free
    tm := true
    savedHist := c.hist
    hist := noHist
    redir := true
    hand := { c.hand with sq := List.replicate 24 {}, vq := List.replicate 18 {}, lp := {} }
    pc := tvecEntry c.tvec t.cls
    cyc := c.cyc + 3 }

/-- A register, queue or latch of core `i` has an uncorrectable error, which is met at a save or at a trap's entry: it is fatal to the core's context
(R416). -/
def registerFault (i : Nat) (s : State) : State :=
  contain (s.team i).ctx.toNat (coreDie i)
    { seq := 0, src := 0, ctx := (s.team i).ctx.setWidth 8, unit := BitVec.ofNat 16 i, cause := Config.unitCode 0 } s

/-- Core `i` takes a trap (R354), the one operation for every cause: in a handler, or with TVEC.EN clear, it is a double
trap. -/
def takeTrap (i : Nat) (t : Trap) (slot : Nat) (epc : Word) (rsm : Bool) (sres : Nat) (s : State) : State :=
  let c := s.core i
  if c.regUe then registerFault i s
  else if c.tm = true ∨ tvecEn c.tvec = false then doubleTrap i t slot s
  else if rsm then s.setCore i (c.enterHandler t slot epc rsm sres 0)
  else
    let (n, s') := s.take
    s'.setCore i (c.enterHandler t slot epc rsm sres (Config.freeWord n))

/-- A precise trap on a slot of the acting core (R359). -/
def slotTrap (slot : Nat) (t : Trap) (s : State) : State := takeTrap s.cur t slot s.me.pc true slot s

/-- A taken redirect (R19, R31, R117): the history is invalid and the active loop ends. -/
def Core.redirect (c : Core) (target : Word) : Core :=
  (c.setBank { c.bank with lp := { c.bank.lp with act := false } }) |> fun c => { c with pc := target, hist := noHist, redir := true }

/-- The return from a handler (R124). With RSM set, EPC is entered again at SRES with the saved history and the pushes of
the split group; with RSM clear the core goes on at EPC with an invalid history and gives up a pending effect. -/
def Core.sysret (c : Core) : Core :=
  if c.rsm then
    { c.dropBundle with tm := false, pc := c.epc, hist := c.savedHist, redir := false, reent := some (c.sres, c.qas, c.qav),
                        pend := if c.prd then some { kind := c.pkind, arg := c.ptgt } else none }
  else
    { c.dropBundle with tm := false, pc := c.epc, hist := noHist, redir := true, prd := false, pkind := 0 }

/-! ### Addresses -/

/-- The spaces an effective address decodes to (R247). -/
inductive Space where
  | local (off : Nat)
  | peer (tx ty off : Nat)
  | global (va : Nat)
  /-- XV, VER, TENSOR and TOFF (R256). -/
  | weight (xv : Bool) (ver tensor off : Nat)
  | none
  deriving DecidableEq, Repr

/-- The space of an effective address (R247, R248, R256). -/
def decodeEa (ea : Word) : Space :=
  let x := ea.toNat
  let hi := x / 2 ^ 48
  let lo := x % 2 ^ 48
  if hi = 0 then
    if lo < 0x60000 then .local lo
    else if lo < 0x4000000 then .none
    else if lo < 0x8000000 then
      (if lo % 2 ^ 19 < 0x60000 then .peer (bitsOf lo 22 19) (bitsOf lo 25 23) (lo % 2 ^ 19) else .none)
    else if lo < 0x10000000 then .none
    else .global lo
  else if hi = 1 then
    if bitOf lo 47 then .none
    else if bitOf lo 46 then .weight true (bitsOf lo 45 44) (bitsOf lo 43 32) (lo % 2 ^ 32)
    else if bitsOf lo 45 44 = 0 then .weight false 0 (bitsOf lo 43 32) (lo % 2 ^ 32)
    else .none
  else .none

/-- CAUSE.INFO of a translation fault (R352). -/
def TFault.info (f : TFault) : BitVec 32 := BitVec.ofNat 32 (f.reason.toNat + 16 * f.level.toNat)

/-- The class 0x5 trap of a fault: the codes are 1 load, 2 store, 3 atomic, 4 fetch, 5 command read (R357). -/
def transTrap (code : BitVec 8) (f : TFault) (ea : Word) : Trap := { cls := 0x5, code := code, info := f.info, faddr := ea }

/-- CODE of an access kind (R357). -/
def AccKind.code : AccKind → BitVec 8
  | .read => 1
  | .write => 2
  | .atomic _ => 3

/-- What an access needs of a page: atomics need both R and W (R347). -/
def AccKind.perm : AccKind → Perm
  | .read => { r := true }
  | .write => { w := true }
  | .atomic _ => { r := true, w := true }

/-- A page-table entry's fields (R347). -/
def pteV (e : Nat) : Bool := bitOf e 63
/-- See `pteV`. -/
def pteLf (e : Nat) : Bool := bitOf e 62
/-- See `pteV`: bits 47:8. -/
def ptePa (e : Nat) : Nat := bitsOf e 47 8 * 256

/-- Page size of a leaf at a level, as a power of two (R347). -/
def levelLg (l : Nat) : Nat := if l = 0 then 16 else if l = 1 then 21 else 30

/-- The index of a level's table (R347). -/
def levelIndex (l va : Nat) : Nat :=
  if l = 0 then bitsOf va 20 16 else if l = 1 then bitsOf va 29 21 else if l = 2 then bitsOf va 38 30 else bitsOf va 47 39

/-- One step of a walk at level `l` with entry `e` (R347): a fault, the next table, or a page. -/
inductive WalkStep where
  | fault (f : TFault)
  | table (pa : Nat)
  | page (t : TlbEnt)
  deriving DecidableEq, Repr

/-- See `WalkStep`. -/
def walkEntry (ctx : BitVec 3) (l va e : Nat) : WalkStep :=
  let lv := BitVec.ofNat 4 l
  if pteV e = false then .fault { reason := 4, level := lv }
  else if bitsOf e 54 48 ≠ 0 ∨ e % 256 ≠ 0 ∨ (l = 3 ∧ pteLf e = true) ∨ (l = 0 ∧ pteLf e = false) then
    .fault { reason := 6, level := lv }
  else if pteLf e then
    let lg := levelLg l
    if ptePa e % 2 ^ lg ≠ 0 then .fault { reason := 6, level := lv }
    else if paHole (ptePa e) then .fault { reason := 6, level := lv }
    else .page { ctx := ctx, lg := lg, vpn := va / 2 ^ lg, base := ptePa e, r := bitOf e 61, w := bitOf e 60,
                 x := bitOf e 59, chk := bitOf e 58, cls := BitVec.ofNat 2 (bitsOf e 57 56), ncmb := bitOf e 55 }
  else if ptePa e % (if l = 1 then 256 else 4096) ≠ 0 then .fault { reason := 6, level := lv }
  else .table (ptePa e)

/-- A walk from a table of level `l` down (R347). -/
def walkFrom (s : State) (ctx : BitVec 3) (va : Nat) : Nat → Nat → Except TFault TlbEnt
  | 0, tbl =>
    match walkEntry ctx 0 va (bytesNat (s.gBytes (tbl + 8 * levelIndex 0 va) 8)) with
    | .page t => .ok t
    | .fault f => .error f
    | .table _ => .error { reason := 6, level := 0 }
  | l + 1, tbl =>
    match walkEntry ctx (l + 1) va (bytesNat (s.gBytes (tbl + 8 * levelIndex (l + 1) va) 8)) with
    | .page t => .ok t
    | .fault f => .error f
    | .table pa => walkFrom s ctx va l pa

/-- The walk of a context's page tables for a virtual address. -/
def walkPage (s : State) (ctx : BitVec 3) (va : Nat) : Except TFault TlbEnt :=
  walkFrom s ctx va 3 (s.ctx ctx.toNat).ptRoot

/-! ### Scratchpads -/

/-- The key of the free values of core `i`'s scratchpad (R254). -/
def spKey (i : Nat) (c : Core) : Nat := if c.spFill = 0 then 1 + i else c.spFill

/-- A byte of core `i`'s scratchpad (R250). -/
def State.spByte (s : State) (i off : Nat) : Byte :=
  (memByte (s.core i).sp off).getD (Config.freeByte (s.era + spKey i (s.core i)) off)

/-- Bytes of core `i`'s scratchpad. -/
def State.spBytes (s : State) (i off n : Nat) : List Byte := (rangeFrom off n).map (s.spByte i)

/-- A byte of core `i`'s scratchpad as a load of the group in issue sees it: as it stood before the group's stores
(R25, R166). -/
def State.spByteBefore (s : State) (i off : Nat) : Byte :=
  match (s.core i).grpOld.find? (·.1 == off) with
  | some (_, some b) => b
  | some (_, none) => Config.freeByte (s.era + spKey i (s.core i)) off
  | none => s.spByte i off

/-- The token of one comparator for a write of `n` bytes at `off` in core cycle `now` (R219): the lowest granule of the write in the range. -/
def Comparator.token (w : Comparator) (now off n : Nat) : Option (BitVec 13) :=
  if w.armed ∧ w.since ≤ now ∧ off < w.hi ∧ w.lo < off + n then some (BitVec.ofNat 13 (max off w.lo / 64)) else none

/-- A token enters the wake queue, or waits with its comparator when the queue is full (R219). -/
def Core.wake (c : Core) (k : Nat) (g : BitVec 13) : Core :=
  let w := tabGet {} c.wcs k
  if c.wakeq.length < 16 ∧ w.pend = none then { c with wakeq := c.wakeq ++ [(BitVec.ofNat 3 k, g)] }
  else { c with wcs := tabSet c.wcs k { w with pend := some g } }

/-- The tokens of a write into a core's scratchpad, in comparator order (R219). -/
def Core.wakeWrite (c : Core) (off n : Nat) : Core :=
  (rangeFrom 0 8).foldl (fun c k =>
    match (tabGet ({} : Comparator) c.wcs k).token c.cyc off n with
    | none => c
    | some g => c.wake k g) c

/-- Remembers what bytes of its scratchpad held when the core's group in issue began (R25, R166). -/
def Core.noteOld (c : Core) (off n : Nat) : Core :=
  if c.issuing then
    { c with grpOld := (rangeFrom off n).foldl (fun l a =>
        if l.any (·.1 == a) then l else (a, memByte c.sp a) :: l) c.grpOld }
  else c

/-- Writes bytes into core `i`'s scratchpad, with the wake tokens of the write. -/
def spWrite (i off : Nat) (bs : List Byte) (s : State) : State :=
  s.modCore i fun c =>
    let c1 := c.noteOld off bs.length
    { c1 with sp := memWrite c1.sp off bs }.wakeWrite off bs.length

/-- The core as a slot sees its operand memory and accumulator store: as they stood when its group began (R25, R187). -/
def Core.atStart (c : Core) : Core :=
  if c.issuing then { c with ob := c.snap.ob, ac := c.snap.ac, mmas := c.snap.mmas, cal := c.snap.cal } else c

/-! ### Race tags -/

/-- `covered` of R275. -/
def covered (s v : BitVec 24) : Bool := let d := (v - s).toNat; 1 ≤ d && d ≤ 2 ^ 23 - 1

/-- Whether an access of core `i` passes the check against a tag (R275). -/
def raceOk (s : State) (i : Nat) (t : RaceTag) (kind : AccKind) : Bool :=
  let tm := s.team i
  let atomicKind := match kind with
    | .atomic _ => true
    | _ => false
  t.hs == 0 || t.ctx != tm.ctx || t.ent != tm.ent || t.wcore.toNat == i || (atomicKind && t.hs == 2)
    || covered t.wser (tabGet 0 (s.core i).vclk (tm.index t.wcore.toNat))

/-- CAUSE.INFO of a memory-model exception (R276). -/
def raceInfo (t : RaceTag) : BitVec 32 :=
  BitVec.ofNat 32 (t.hs.toNat * 2 ^ 30 + t.wcore.toNat * 2 ^ 21 + t.wser.toNat % 65536)

/-- The trap of a failed check (R276, R357). -/
def raceTrap (kind : AccKind) (t : RaceTag) (ea : Word) : Trap :=
  { cls := 0x4, code := kind.code, info := raceInfo t, faddr := ea }

/-- The tag that a write of core `i` leaves (R273). -/
def writeTag (s : State) (i : Nat) (kind : AccKind) : RaceTag :=
  { ctx := (s.team i).ctx
    hs := match kind with
      | .atomic _ => 2
      | _ => 1
    wcore := BitVec.ofNat 9 i
    ent := (s.team i).ent
    wser := (s.core i).rs }

/-- The tag of a granule of core `j`. -/
def State.granTag (s : State) (j g : Nat) : RaceTag := tabGet {} (s.core j).tags g

/-- Tags the granules that bytes `off .. off + n - 1` of core `j` touch (R273). -/
def tagGranules (j off n : Nat) (t : RaceTag) (s : State) : State :=
  if n = 0 then s
  else s.modCore j fun c =>
    { c with tags := (rangeFrom (off / 64) ((off + n - 1) / 64 - off / 64 + 1)).foldl (fun m g => tabSet m g t) c.tags }

/-- Whether a request writes. -/
def Req.writes (r : Req) : Bool := r.kind != .read

/-- The tag of granule `g` of core `j` when everything that the mesh has brought there has been performed: an accepted access has its place in the
order of its home (R110), so what comes later is checked against it (R275). -/
def State.granTagAfter (s : State) (j g : Nat) : RaceTag :=
  match (s.core j).mesh.reverse.find? fun r => r.writes && r.elems.any fun e => e.ea.toNat / 64 == g with
  | some r => writeTag s r.core r.kind
  | none => s.granTag j g

/-- Whether an access passes the checks of every granule it touches; otherwise the lowest failing tag. -/
def granRace (s : State) (i j off n : Nat) (kind : AccKind) : Option RaceTag :=
  if n = 0 then none
  else ((rangeFrom (off / 64) ((off + n - 1) / 64 - off / 64 + 1)).map (s.granTagAfter j)).find? fun t => !raceOk s i t kind

/-! ### Gates of slot operations -/

/-- Whether a slot operation may issue: held for a queue ready bit, held for another reason, or a trap (R24, R32, R34). -/
structure Gate where
  q    : Bool := false
  o    : Bool := false
  trap : Option Trap := none
  deriving DecidableEq, Repr

/-- The place of a slot fault in the order of R358: a failed command read and a fault reported at a wait, the C- and K-slot
checks at issue, a tile-queue or operand-slot fault, a translation fault, a race, a barrier refusal, and last an error in a
source register. -/
def Trap.rank (t : Trap) : Nat :=
  match t.cls.toNat with
  | 0x5 => if t.code = 5 then 0 else 3
  | 0x9 => if t.code = 4 then 1 else 0
  | 0xA => if t.code = 1 then 1 else if t.code = 2 then 6 else 0
  | 0x3 => 2
  | 0x4 => 4
  | 0x6 => 5
  | _ => 6

/-- The trap taken of two (R358): the earlier in rank, the first of equals. -/
def trapOr : Option Trap → Option Trap → Option Trap
  | none, b => b
  | a, none => a
  | some a, some b => if b.rank < a.rank then some b else some a

/-- Both conditions, and the trap that is taken of both. -/
def Gate.and (a b : Gate) : Gate := { q := a.q || b.q, o := a.o || b.o, trap := trapOr a.trap b.trap }

/-- A gate that traps where a condition fails. -/
def Gate.need (ok : Bool) (t : Trap) : Gate := if ok then {} else { trap := some t }

/-- A gate that holds while a condition is true, for a reason of R34. -/
def Gate.holdIf (b : Bool) : Gate := { o := b }

/-- A slot operation of the acting core: held, a precise trap on its slot, or its effect. While a group issues its slots, the
holds have been found clear. -/
def runSlot (slot : Nat) (g : Gate) (eff : State → State) (s : State) : Out :=
  if s.me.issuing = false ∧ (g.q || g.o) = true then
    .next (s.upd fun c => { c with held := { queue := g.q, other := g.o } })
  else
    match g.trap with
    | some t => .next (slotTrap slot t s)
    | none => .next (eff (s.upd fun c => { c with held := {}, slot := slot }))

end Sys2Proof.Machine
end

