-- ==== Sys2Proof/Machine/Operands.lean ====
section
/-! DEFINITION. Every operand form: the values of source specifiers (R49 to R53), what holds or traps a read (R32, R48, R111,
R167, R186, R237), broadcasts and lanes (R51, R143, R145), and tile-queue rows. -/
namespace Sys2Proof.Machine

/-! ### Vectors as lanes and elements -/

/-- Element `e` of width `w` bits of a vector (R143). -/
def vElem (w : Nat) (v : Vec) (e : Nat) : Nat := v.toNat / 2 ^ (w * e) % 2 ^ w

/-- A vector from elements of width `w`, element 0 first. -/
def vOfElems (w : Nat) (l : List Nat) : Vec := BitVec.ofNat 2048 (l.foldr (fun x acc => x % 2 ^ w + 2 ^ w * acc) 0)

/-- Lane `i` (R143). -/
def lane (v : Vec) (i : Nat) : Nat := vElem 32 v i

/-- The numbers of the 64 lanes. -/
def lanes64 : List Nat := rangeFrom 0 64

/-- A vector lane by lane. -/
def vOfLanes (f : Nat → Nat) : Vec := vOfElems 32 (lanes64.map f)

/-- The same number in every element of width `w`. -/
def vFill (w x : Nat) : Vec := vOfElems w (List.replicate (2048 / w) x)

/-- The 256 bytes of a vector (R160). -/
def vBytes (v : Vec) : List Byte := natBytes 256 v.toNat

/-- Element `c` of a row of ACC48 elements (R60, R184). -/
def rowElem (r : Row) (c : Nat) : Nat := r.toNat / 2 ^ (48 * c) % 2 ^ 48

/-- A row from its elements. -/
def rowOfElems (l : List Nat) : Row := BitVec.ofNat 3072 (l.foldr (fun x acc => x % 2 ^ 48 + 2 ^ 48 * acc) 0)

/-- A row as FP32 lanes, rounded RNE (R167). -/
def rowLanes (r : Row) : Vec := vOfLanes fun c => ffF32.rne (ffAcc.value (rowElem r c))

/-! ### What holds a read -/

/-- The gate of reading a position of sq and of vq (R32). -/
def gateSq (c : Core) (a : Nat) : Gate := { q := !(c.sqAt a).ready }
/-- See `gateSq`. -/
def gateVq (c : Core) (a : Nat) : Gate := { q := !(c.vqAt a).ready }

/-- The gate of a scoreboard mark that a read meets (R48, R111, R237). -/
def gateMark : Option RegMark → Gate
  | none => {}
  | some .awaited => { o := true }
  | some (.uncorrectable a) => { trap := some { cls := 0xB, code := 0x01, faddr := a } }
  | some .wrongKind => { trap := some { cls := 0xA, code := 0x02, info := 0x05 } }

/-- The gate of a mark that a move, load or receive into the register meets: the register is held while its bit is set (R40, R48). A message of the wrong
kind faults a move or a receive (R237) and, DEDUCED (log entry 24), a load or returning atomic, which R237 does not name. -/
def gateMarkW : Option RegMark → Gate
  | none => {}
  | some .wrongKind => { trap := some { cls := 0xA, code := 0x02, info := 0x05 } }
  | some _ => { o := true }

/-- The gate of reading a g and a v register. -/
def gateG (c : Core) (n : Nat) : Gate := gateMark (tabGet? c.gsb n)
/-- See `gateG`. -/
def gateV (c : Core) (n : Nat) : Gate := gateMark (tabGet? c.vsb n)
/-- The gate of writing one. -/
def gateWG (c : Core) (n : Nat) : Gate := gateMarkW (tabGet? c.gsb n)
/-- See `gateWG`. -/
def gateWV (c : Core) (n : Nat) : Gate := gateMarkW (tabGet? c.vsb n)

/-- The gate of popping a tile queue (R186): held while rows are on their way, otherwise a tile-queue fault. -/
def gateTq (c : Core) (q : Nat) : Gate :=
  let t := c.tq q
  if t.rows.isEmpty then
    if !t.due.isEmpty then { o := true } else { trap := some { cls := 0x3, code := 0x01, info := BitVec.ofNat 32 q } }
  else {}

/-! ### Scalar sources -/

/-- The value of a source of the B, S and K slots (R49). -/
def readSrc (s : State) (a : Src) : Word :=
  let c := s.me
  let t := s.team s.cur
  match a with
  | .sq a => (c.sqAt a).val
  | .g n => c.getG n
  | .tx => BitVec.ofNat 64 (t.tx s.cur)
  | .ty => BitVec.ofNat 64 (t.ty s.cur)
  | .tw => BitVec.ofNat 64 t.w
  | .th => BitVec.ofNat 64 t.h
  | .tag => t.tag.setWidth 64
  | .step => (t.step.setWidth 32).setWidth 64
  | .rng => (genWord c.seed).setWidth 64
  | .zero => 0
  | .p n => c.getP n
  | .imm v => v.signExtend 64

/-- What holds or traps a scalar read. -/
def gateSrc (s : State) : Src → Gate
  | .sq a => gateSq s.me a
  | .g n => gateG s.me n
  | _ => {}

/-- Whether a source consumes the generator (R52). -/
def srcDraws : Src → Bool
  | .rng => true
  | _ => false

/-- The value of an sq or g source. -/
def readSg (s : State) : SqG → Word
  | .sq a => (s.me.sqAt a).val
  | .g n => s.me.getG n

/-- See `gateSrc`. -/
def gateSg (s : State) : SqG → Gate
  | .sq a => gateSq s.me a
  | .g n => gateG s.me n

/-- Advances the generator once, where the operation consumes it (R52, R76). -/
def Core.drawIf (c : Core) (b : Bool) : Core := if b then { c with seed := advance c.seed } else c

/-! ### Vector sources -/

/-- How an operation reads the elements of a field: their width, and the format an immediate takes (R51). -/
structure ElemFmt where
  w   : Nat
  flt : Option FF := none
  deriving DecidableEq, Repr

/-- 32-bit lanes as integers, and as FP32. -/
def efI32 : ElemFmt := { w := 32 }
/-- See `efI32`. -/
def efF32 : ElemFmt := { w := 32, flt := some ffF32 }
/-- 16-bit elements. -/
def efBf16 : ElemFmt := { w := 16, flt := some ffBf16 }
/-- See `efBf16`. -/
def efF16 : ElemFmt := { w := 16, flt := some ffF16 }
/-- 8-bit elements. -/
def efE4m3 : ElemFmt := { w := 8, flt := some ffE4m3 }
/-- See `efE4m3`. -/
def efE5m2 : ElemFmt := { w := 8, flt := some ffE5m2 }
/-- See `efE4m3`. -/
def efI8 : ElemFmt := { w := 8 }

/-- A broadcast scalar (R51). -/
def bcastWord (f : ElemFmt) (x : Word) : Vec := vFill f.w (x.toNat % 2 ^ f.w)

/-- An immediate (R51): sign-extended for integers, the number itself in a floating format, rounded by the format's
default mode where it is narrow. -/
def bcastImm (f : ElemFmt) (v : BitVec 5) : Vec :=
  match f.flt with
  | none => vFill f.w (intBits f.w v.toInt)
  | some g => vFill f.w (g.round (if f.w = 8 then .rna else .rne) false false (numOfInt v.toInt)).bits

/-- A 32-bit word rotated left. -/
def rotl32 (w : BitVec 32) (n : Nat) : BitVec 32 := w.rotateLeft (n % 32)

/-- The row that a pop of a tile queue takes. -/
def headRow (c : Core) (q : Nat) : Row := (c.tq q).rows.headD 0

/-- The value of a V source as a vector (R50, R51). -/
def readV (s : State) (f : ElemFmt) (a : SrcV) : Vec :=
  let c := s.me
  let t := s.team s.cur
  match a with
  | .vq a => (c.vqAt a).val
  | .v n => c.getV n
  | .sq a => bcastWord f (c.sqAt a).val
  | .g n => bcastWord f (c.getG n)
  | .p n => vOfLanes fun i => if (c.getP n).getLsbD i then 0xFFFFFFFF else 0
  | .lane => vOfLanes id
  | .rng => vOfLanes fun i => (rotl32 (genWord c.seed) i).toNat
  | .tx => bcastWord f (BitVec.ofNat 64 (t.tx s.cur))
  | .ty => bcastWord f (BitVec.ofNat 64 (t.ty s.cur))
  | .tag => bcastWord f (t.tag.setWidth 64)
  | .zero => 0
  | .tq q => rowLanes (headRow c q)
  | .imm v => bcastImm f v

/-- What holds or traps a V read. -/
def gateV1 (s : State) : SrcV → Gate
  | .vq a => gateVq s.me a
  | .v n => gateV s.me n
  | .sq a => gateSq s.me a
  | .g n => gateG s.me n
  | .tq q => gateTq s.me q
  | _ => {}

/-- Whether a V source consumes the generator. -/
def vDraws : SrcV → Bool
  | .rng => true
  | _ => false

/-- The tile queue that a V source pops. -/
def vPops : SrcV → Option (Fin 4)
  | .tq q => some q
  | _ => none

/-- The gate of two V sources. -/
def gateV2 (s : State) (a b : SrcV) : Gate := (gateV1 s a).and (gateV1 s b)

/-- Pops one row of a queue (R186). -/
def Core.popTq (c : Core) (q : Nat) : Core := c.modTq q fun t => { t with rows := t.rows.drop 1 }

/-- Pops what two V sources name; a queue named in both is popped once (R167). -/
def Core.popV (c : Core) (a b : Option (Fin 4)) : Core :=
  match a, b with
  | none, none => c
  | some q, none => c.popTq q
  | none, some q => c.popTq q
  | some q, some r => if q = r then c.popTq q else (c.popTq q).popTq r

/-- An index vector's lane (R159, R161). -/
def readIdx (s : State) : IdxV → Vec
  | .vq a => (s.me.vqAt a).val
  | .v n => s.me.getV n
  | .tq q => rowLanes (headRow s.me q)

/-- See `gateSrc`. -/
def gateIdx (s : State) : IdxV → Gate
  | .vq a => gateVq s.me a
  | .v n => gateV s.me n
  | .tq q => gateTq s.me q

/-- The tile queue that an index vector pops. -/
def idxPops : IdxV → Option (Fin 4)
  | .tq q => some q
  | _ => none

/-- An index, stride or pitch: all 64 bits (R145). -/
def readOff (s : State) : OffV → Word
  | .sq a => (s.me.sqAt a).val
  | .g n => s.me.getG n
  | .imm v => v.signExtend 64
  | .zero => 0

/-- See `gateSrc`. -/
def gateOff (s : State) : OffV → Gate
  | .sq a => gateSq s.me a
  | .g n => gateG s.me n
  | _ => {}

/-- A lane count or selector, from lane 0 of its source (R145). -/
def readCnt (s : State) : CntV → Nat
  | .sq a => (s.me.sqAt a).val.toNat % 2 ^ 32
  | .g n => (s.me.getG n).toNat % 2 ^ 32
  | .imm v => (v.signExtend 32).toNat

/-- See `gateSrc`. -/
def gateCnt (s : State) : CntV → Gate
  | .sq a => gateSq s.me a
  | .g n => gateG s.me n
  | _ => {}

/-- The slot of a pipe and of an engine (R13). -/
def pipeSlot : Pipe → Nat
  | .v0 => 2
  | .v1 => 3
/-- See `pipeSlot`. -/
def engSlot : Eng → Nat
  | .c0 => 5
  | .c1 => 6

/-- Latches A and B of a vector pipe (R39). -/
def latA (c : Core) : Pipe → Vec
  | .v0 => c.bank.lat.v0A
  | .v1 => c.bank.lat.v1A

end Sys2Proof.Machine
end

