-- ==== Sys2Proof/Machine/Flags.lean ====
section
/-! DEFINITION. Every flag and status word of a core that the manual lays out (R56, R75, R118, R121, R187, R191, R204, R206,
R261, R301, R303), read from the fields of the state and written under the access rules of R55. -/
namespace Sys2Proof.Machine

/-- One bit of a status word. -/
def bit1 (b : Bool) (i : Nat) : Nat := if b then 2 ^ i else 0

/-! ### CVSAT -/

/-- Sets the bits of clamped lanes (R74, R75). -/
def Core.orCvsat (c : Core) (lanes : List Nat) : Core :=
  { c with cvsat := lanes.foldl (fun w i => w ||| (1#64 <<< i)) c.cvsat }

/-! ### Core status -/

/-- CSTAT (R56). DEDUCED (log entry 86): in a handler TM is set, as R354 has it, though the word printed in R284's example has it clear. -/
def cstatWord (c : Core) : Word :=
  BitVec.ofNat 64 (c.qav.toNat * 2 ^ 13 + c.qas.toNat * 2 ^ 10 + bit1 c.tm 9 + bit1 c.moved 8 + bit1 c.sct 7 + bit1 c.prd 6
    + bit1 c.rsm 5 + c.pkind.toNat * 2 ^ 3 + c.sres.toNat)

/-- A write of CSTAT (R55): a program writes SCT, and MOVED to 0; a handler all but TM. -/
def writeCstat (c : Core) (v : Word) : Core :=
  if c.tm then
    { c with qav := v.extractLsb' 13 2, qas := v.extractLsb' 10 3, moved := v.getLsbD 8, sct := v.getLsbD 7,
             prd := v.getLsbD 6, rsm := v.getLsbD 5, pkind := v.extractLsb' 3 2, sres := v.extractLsb' 0 3 }
  else { c with sct := v.getLsbD 7, moved := c.moved && v.getLsbD 8 }

/-- The fields of CAUSE, and of DCAUSE, that exist (R57). -/
def causeMask : Word := 0xFFFFFFFF0000FFFF

/-- CORE (R58): the island, die and graticule position of core `i` (R4, R5). -/
def coreWord (i : Nat) : Word :=
  let gx := i % 32
  let gy := i / 32
  let isle := gx / 2 + 16 * (gy / 2)
  BitVec.ofNat 64 (isle * 2 ^ 11 + coreDie i * 2 ^ 9 + gy * 2 ^ 5 + gx)

/-- LBODY (R118). -/
def lbodyWord (l : LoopState) : Word := BitVec.ofNat 64 (bit1 l.act 63 + l.pos.toNat * 2 ^ 48 + l.start.toNat)

/-- WSTAT (R121). -/
def wstatWord (c : Core) : Word :=
  BitVec.ofNat 64 (bit1 c.tout 32 + bit1 c.wval 31 + c.wcmp.toNat * 2 ^ 13 + c.wgrn.toNat)

/-- A write of WSTAT (R121): a program writes 0 to TOUT and WVAL. -/
def writeWstat (c : Core) (v : Word) : Core :=
  if c.tm then
    { c with tout := v.getLsbD 32, wval := v.getLsbD 31, wcmp := v.extractLsb' 13 3, wgrn := v.extractLsb' 0 13 }
  else { c with tout := c.tout && v.getLsbD 32, wval := c.wval && v.getLsbD 31 }

/-- ESTAT of an engine (R204). -/
def estatWord (e : Engine) : Word :=
  BitVec.ofNat 64 (e.satc.toNat * 2 ^ 48 + bit1 e.sat 32 + bit1 e.frz 31 + (if e.frz then e.fctr.toNat * 2 ^ 24 else 0)
    + (if e.frz then e.fcode.toNat * 2 ^ 16 else 0) + e.q.length)

/-- STSTAT (R329). -/
def ststatWord (q : StashQueue) : Word :=
  BitVec.ofNat 64 (bit1 q.frz 31 + (if q.frz then q.fctr.toNat * 2 ^ 24 else 0)
    + (if q.frz then q.fcode.toNat * 2 ^ 16 else 0) + q.q.length)

/-- CBDEF and CBPTR of a buffer (R206). -/
def cbdefWord (b : CircBuf) : Word := BitVec.ofNat 64 (bit1 b.en 26 + b.size.toNat * 2 ^ 13 + b.base.toNat)
/-- See `cbdefWord`. -/
def cbptrWord (b : CircBuf) : Word :=
  BitVec.ofNat 64 (b.clm.toNat * 2 ^ 39 + b.cmt.toNat * 2 ^ 26 + b.awt.toNat * 2 ^ 13 + b.head.toNat)

/-- WDOG (R303). -/
def wdogWord (c : Core) : Word := BitVec.ofNat 64 (c.wdCount.toNat * 2 ^ 32 + c.wdLimit.toNat)

/-- SCUR (R301). -/
def scurWord (c : Core) : Word := BitVec.ofNat 64 (c.slen.toNat * 2 ^ 16 + c.spos.toNat)

/-- A write of 0 to bits clears them, and a written 1 changes nothing (R55). -/
def clearBits (old v : Word) : Word := old &&& v

end Sys2Proof.Machine
end

