-- ==== Sys2Proof/Machine/Walk.lean ====
section
/-! DEFINITION. TLBs, the die's walker as those who miss see it, and translation (R344, R347 to R353). -/
namespace Sys2Proof.Machine

/-! ### TLBs (R348) -/

/-- Whether a TLB entry translates an address. -/
def TlbEnt.hits (t : TlbEnt) (ctx : BitVec 3) (va : Nat) : Bool := t.ctx == ctx && t.vpn == va / 2 ^ t.lg

/-- The level at which a walk finds a page (R347, R352). -/
def TlbEnt.level (t : TlbEnt) : BitVec 4 := if t.lg = 16 then 0 else if t.lg = 21 then 1 else 2

/-- Enters a page in a TLB of `n` entries; the oldest goes when it is full (log entry 9). -/
def tlbInsert (n : Nat) (t : TlbEnt) (l : List TlbEnt) : List TlbEnt := (t :: l).take n

/-- The die whose TLB and walker stand behind a first-level TLB. -/
def Seeker.die : Seeker → Nat
  | .slot i => coreDie i
  | .fetch i => coreDie i
  | .eng i _ => coreDie i
  | .stash d => d
  | .coll d => d
  | .agent d => d

/-- A first-level TLB. -/
def State.tlbOf (s : State) : Seeker → List TlbEnt
  | .slot i => (s.core i).tlb
  | .fetch i => (s.core i).tlb
  | .eng i .c0 => (s.core i).etlb0
  | .eng i .c1 => (s.core i).etlb1
  | .stash d => (s.die d).stTlb
  | .coll d => (s.die d).coTlb
  | .agent _ => []

/-- Changes it. -/
def modTlb (w : Seeker) (f : List TlbEnt → List TlbEnt) (s : State) : State :=
  match w with
  | .slot i => s.modCore i fun c => { c with tlb := f c.tlb }
  | .fetch i => s.modCore i fun c => { c with tlb := f c.tlb }
  | .eng i .c0 => s.modCore i fun c => { c with etlb0 := f c.etlb0 }
  | .eng i .c1 => s.modCore i fun c => { c with etlb1 := f c.etlb1 }
  | .stash d => s.modDie d fun x => { x with stTlb := f x.stTlb }
  | .coll d => s.modDie d fun x => { x with coTlb := f x.coTlb }
  | .agent _ => s

/-- The core that a seeker belongs to. -/
def Seeker.core : Seeker → Option Nat
  | .slot i => some i
  | .fetch i => some i
  | .eng i _ => some i
  | .stash _ => none
  | .coll _ => none
  | .agent _ => none

/-- The faults that walks have delivered and nobody has taken. -/
def State.walkFaults (s : State) (w : Seeker) : List WalkFault :=
  match w.core with
  | some i => (s.core i).wflt
  | none => (s.die w.die).wflt

/-- Changes them. -/
def modFaults (w : Seeker) (f : List WalkFault → List WalkFault) (s : State) : State :=
  match w.core with
  | some i => s.modCore i fun c => { c with wflt := f c.wflt }
  | none => s.modDie w.die fun x => { x with wflt := f x.wflt }

/-- A seeker has taken its faults. -/
def forgetFaults (w : Seeker) (s : State) : State :=
  if (s.walkFaults w).any (fun f => f.who == w) then modFaults w (fun l => l.filter fun f => f.who != w) s else s

/-! ### What is known of a page -/

/-- What is known of an address's page (R348, R349). -/
inductive PageNow where
  | hit (t : TlbEnt)
  | fault (f : TFault)
  | missing
  deriving DecidableEq, Repr

/-- See `PageNow`: a fault that a walk has delivered, then the first-level TLB, then the die's. -/
def pageNow (s : State) (w : Seeker) (x : BitVec 3) (va : Nat) : PageNow :=
  match (s.walkFaults w).find? fun f => f.who == w && f.ctx == x && f.page == va / 2 ^ 16 with
  | some f => .fault f.f
  | none =>
    match (s.tlbOf w ++ (s.die w.die).tlb).find? (·.hits x va) with
    | some t => .hit t
    | none => .missing

/-- The physical address of `n` bytes under a page, or the fault of the access (R344, R347, R353): the permission first, then a hole, an
aperture without a window, and a window's storage. -/
def pageAccess (s : State) (t : TlbEnt) (va n : Nat) (p : Perm) : Except TFault Nat :=
  let pa := t.base + va % 2 ^ t.lg
  if (p.r && !t.r) || (p.w && !t.w) || (p.x && !t.x) then .error { reason := 5 }
  else if paHole pa then .error { reason := 6 }
  else if paAperture pa ∧ (s.windowAt pa).isNone then .error { reason := 6 }
  else if s.protectedPa pa n then .error { reason := 9 }
  else .ok pa

/-- The translation of `n` bytes of one page (R348, R353): the page and the physical address. Where nothing is known of the page, it is what
a walk of the tables finds, with its level; those who wait for their walks ask only about known pages. -/
def translate (s : State) (w : Seeker) (x : BitVec 3) (va n : Nat) (p : Perm) : Except TFault (TlbEnt × Nat) :=
  match pageNow s w x va with
  | .fault f => .error f
  | .hit t => (pageAccess s t va n p).map fun pa => (t, pa)
  | .missing =>
    match walkPage s x va with
    | .error f => .error f
    | .ok t =>
      match pageAccess s t va n p with
      | .error f => .error { f with level := t.level }
      | .ok pa => .ok (t, pa)

/-- An object cut at the smallest page's size: addresses and lengths. -/
def pagePieces (va n : Nat) : List (Nat × Nat) :=
  if n = 0 then []
  else (rangeFrom (va / 65536) ((va + n - 1) / 65536 - va / 65536 + 1)).map fun k =>
    let lo := max va (65536 * k)
    (lo, min (va + n) (65536 * (k + 1)) - lo)

/-- The pieces of an object with their pages and physical addresses, or the first fault. -/
def globalPieces (s : State) (w : Seeker) (x : BitVec 3) (va n : Nat) (p : Perm) : Except TFault (List (TlbEnt × Nat × Nat)) :=
  if 2 ^ 48 < va + n then .error { reason := 2 }
  else (pagePieces va n).foldr (fun q acc => match translate s w x q.1 q.2 p, acc with
    | .ok (t, pa), .ok l => .ok ((t, pa, q.2) :: l)
    | .error f, _ => .error f
    | _, .error f => .error f) (.ok [])

/-! ### Misses (R349) -/

/-- A miss joins a walk in flight of its page, or waits for one of its own. -/
def askWalk (x : BitVec 3) (m : Miss) (s : State) : State :=
  s.modDie m.who.die fun d =>
    if d.walks.any fun w => w.ctx == x && w.page == m.va / 2 ^ 16 then
      { d with walks := d.walks.map fun w =>
          if w.ctx = x ∧ w.page = m.va / 2 ^ 16 ∧ !w.waiters.contains m then { w with waiters := w.waiters ++ [m] } else w }
    else { d with walks := d.walks ++ [{ ctx := x, page := m.va / 2 ^ 16, waiters := [m] }] }

/-- The misses among addresses that a seeker is about to use. -/
def missesOf (s : State) (w : Seeker) (x : BitVec 3) (l : List (Nat × Perm)) : List Miss :=
  (l.filter fun q => decide (q.1 < 2 ^ 48) && pageNow s w x q.1 == .missing).map fun q => { who := w, va := q.1, perm := q.2 }

/-- Asks for the walks of misses. -/
def askWalks (x : BitVec 3) (l : List Miss) (s : State) : State := l.foldl (fun s m => askWalk x m s) s

/-- A page that only the die's TLB holds enters the first-level TLB (R348). -/
def learnPage (w : Seeker) (x : BitVec 3) (va : Nat) (s : State) : State :=
  if (s.tlbOf w).any (·.hits x va) then s
  else match (s.die w.die).tlb.find? (·.hits x va) with
    | some t => modTlb w (tlbInsert 64 t) s
    | none => s

/-- See `learnPage`. -/
def learnPages (w : Seeker) (x : BitVec 3) (l : List (Nat × Perm)) (s : State) : State := l.foldl (fun s q => learnPage w x q.1 s) s

/-- The addresses at which an object touches a page, with what it needs there. -/
def pageUses (va n : Nat) (p : Perm) : List (Nat × Perm) := (pagePieces va n).map fun q => (q.1, p)

/-- A slot operation that looks up pages itself: while nothing else holds it, it is held until what is known of every page that it uses, and
its misses ask for their walks. -/
def walkSlot (slot : Nat) (uses : List (Nat × Perm)) (g : Gate) (eff : State → State) (s : State) : Out :=
  let w := Seeker.slot s.cur
  let x := (s.team s.cur).ctx
  let m := missesOf s w x uses
  if s.me.issuing = false ∧ g.q = false ∧ g.o = false ∧ g.trap = none ∧ m ≠ [] then
    .next ((askWalks x m s).upd fun c => { c with held := { other := true } })
  else runSlot slot g (fun t => eff (learnPages w x uses t)) s

/-- Why bytes cannot be read yet: their pages' walks are still to end (R349), or an accepted write has still to reach one of their lines (R340). -/
inductive ReadWait where
  | walks (l : List Miss)
  | awaits
  deriving DecidableEq, Repr

/-- The walks that a read waits for are asked for. -/
def askFor (x : BitVec 3) (w : ReadWait) (s : State) : State :=
  match w with
  | .walks l => askWalks x l s
  | .awaits => s

/-! ### The end of a walk -/

/-- The lines that a walk reads (R347). -/
def walkLines (s : State) (ctx : BitVec 3) (va : Nat) : Nat → Nat → List Nat
  | 0, tbl => [lineOf (tbl + 8 * levelIndex 0 va)]
  | l + 1, tbl =>
    let a := tbl + 8 * levelIndex (l + 1) va
    lineOf a :: match walkEntry ctx (l + 1) va (bytesNat (s.gBytes a 8)) with
      | .table pa => walkLines s ctx va l pa
      | _ => []

/-- The key under which a walk reads a line of a table (R433): a line that lies in memory under the context's own key is decrypted like any other. DESIGN
CHOICE (log entry 73): any other table is system software's, and is read as it was given, under no context's key. -/
def tableKey (s : State) (x : BitVec 3) (l : Nat) : Nat := if s.extKey l = s.ctxKey x.toNat then s.ctxKey x.toNat else 0

/-- A line of a table is brought into L2. -/
def fillTable (x : BitVec 3) (l : Nat) (s : State) : State := fillWith (tableKey s x l) x 0 l s

/-- The lines of a walk are brought into L2, one level after the other (R340). -/
def walkFill (x : BitVec 3) (va : Nat) : Nat → Nat → State → State
  | 0, tbl, s => fillTable x (lineOf (tbl + 8 * levelIndex 0 va)) s
  | l + 1, tbl, s =>
    let a := tbl + 8 * levelIndex (l + 1) va
    let s1 := fillTable x (lineOf a) s
    match walkEntry x (l + 1) va (bytesNat (s1.gBytes a 8)) with
    | .table pa => walkFill x va l pa s1
    | _ => s1

/-- A walk reads its lines through L2, as lines of class 0 (R340, R343), and the context's page-table lines are known (R420). -/
def walkReads (x : BitVec 3) (va : Nat) (s : State) : State :=
  let s1 := walkFill x va 3 (s.ctx x.toNat).ptRoot s
  let l := walkLines s1 x va 3 (s.ctx x.toNat).ptRoot
  s1.modCtx x.toNat fun c => { c with ptLines := (c.ptLines ++ l).eraseDups }

/-- The level of the first table line of a walk in which the patrol scrubber has found an uncorrectable error (R415, R416). -/
def walkUe (s : State) (x : BitVec 3) (va : Nat) : Option (Fin 4) :=
  ((walkLines s x va 3 (s.ctx x.toNat).ptRoot).zipIdx.find? fun p => s.ueAt (128 * p.1) 1).map fun p => Fin.ofNat 4 (3 - p.2)

/-- The fault that the page which a walk has found gives a miss (R352, R353). -/
def foundFault (s : State) (t : TlbEnt) (m : Miss) : Option TFault :=
  match pageAccess s t m.va 1 m.perm with
  | .error f => some { f with level := t.level }
  | .ok _ => none

/-- A walk's fault reaches a miss. -/
def tellFault (x : BitVec 3) (m : Miss) (f : TFault) (s : State) : State :=
  modFaults m.who (fun l => l ++ [{ who := m.who, ctx := x, page := m.va / 2 ^ 16, f := f }]) s

/-- The end of a walk: its page enters the die's TLB, or its fault reaches every miss that it serves (R349). A miss that finds its permission
missing on the page faults at the page's level, and a walk that serves only such misses enters nothing. -/
def walkResult (d : Nat) (w : Walk) (r : Except TFault TlbEnt) (s : State) : State :=
  let s1 := s.modDie d fun x => { x with walks := x.walks.erase w }
  match r with
  | .ok t =>
    let bad := w.waiters.filterMap fun m => (foundFault s t m).map fun f => (m, f)
    let s2 := bad.foldl (fun s p => tellFault w.ctx p.1 p.2 s) s1
    if bad.length = w.waiters.length ∧ bad ≠ [] then s2 else s2.modDie d fun x => { x with tlb := tlbInsert 4096 t x.tlb }
  | .error f => w.waiters.foldl (fun s m => tellFault w.ctx m f s) s1

/-- What a walk ends in when the line of its table at level `ue` has an uncorrectable error (R349, R352): the fault of that level, unless the
walk ends above it. -/
def walkEnd (s : State) (x : BitVec 3) (va : Nat) (ue : Option (Fin 4)) : Except TFault TlbEnt :=
  match ue with
  | none => walkPage s x va
  | some l =>
    if (walkLines s x va 3 (s.ctx x.toNat).ptRoot).length + l.val < 4 then walkPage s x va
    else .error { reason := 8, level := BitVec.ofNat 4 l }

/-! ### Reading through L2 -/

/-- The lines of an object's pieces are brought into L2, with the class of their pages (R340, R343, R345). -/
def fillPieces (x : BitVec 3) (l : List (TlbEnt × Nat × Nat)) (s : State) : State :=
  l.foldl (fun s p => (linesOf p.2.1 p.2.2).foldl (fun s q => fillLine x p.1.cls q s) s) s

/-- The bytes of an object's pieces. -/
def piecesBytes (s : State) (l : List (TlbEnt × Nat × Nat)) : List Byte := l.flatMap fun p => s.gBytes p.2.1 p.2.2

/-- The parts of an object's pieces in each line, in order. -/
def lineCuts (l : List (TlbEnt × Nat × Nat)) : List (TlbEnt × Nat × Nat) :=
  l.flatMap fun p => (linesOf p.2.1 p.2.2).map fun q =>
    let lo := max p.2.1 (128 * q)
    (p.1, lo, min (p.2.1 + p.2.2) (128 * q + 128) - lo)

/-- The bytes of parts of lines, read one after another: each line is in L2 as it is read (R340, R343, R346), but for those that are read past it (R265,
R388). With them, whether one of the lines has an uncorrectable error (R416). -/
def readLines (x : BitVec 3) (past : Nat → Bool) : List (TlbEnt × Nat × Nat) → State → State × List Byte × Bool
  | [], s => (s, [], false)
  | p :: l, s =>
    if past p.2.1 then
      let (t, bs, ue) := readLines x past l s
      (t, s.systemBytes x.toNat p.2.1 p.2.2 ++ bs, s.ueExt p.2.1 p.2.2 || ue)
    else
      let s1 := fillLine x p.1.cls (lineOf p.2.1) s
      let (t, bs, ue) := readLines x past l s1
      (t, s1.gBytes p.2.1 p.2.2 ++ bs, s1.ueAt p.2.1 p.2.2 || ue)

/-- Whether a write that its home has accepted has still to be performed on a line: it comes before whatever reaches the home later
(R265, R340). -/
def State.lineAwaits (s : State) (l : Nat) : Bool :=
  s.home.any fun r => r.kind != .read && r.elems.any (fun e => lineOf e.ea.toNat == l) && (match r.kind with
    | .atomic a => a.ord != .sc
    | _ => true)

/-- See `State.lineAwaits`. -/
def State.awaits (s : State) (pa n : Nat) : Bool := (linesOf pa n).any s.lineAwaits

end Sys2Proof.Machine
end

