-- ==== Sys2Proof/Machine/Access.lean ====
section
/-! DEFINITION. The S and V accesses (R109 to R112, R135 to R139, R160 to R166): their checks, what they do to the local
scratchpad at issue, and the requests they send to peer scratchpads and global memory. -/
namespace Sys2Proof.Machine

/-! ### Checks -/

/-- The class of a space. -/
def Space.cls : Space → SpaceClass
  | .local _ => .local
  | .peer _ _ _ => .peer
  | .global _ => .global
  | .weight _ _ _ _ => .weight
  | .none => .none

/-- The version of a weight-store tensor that the running entry reads (R258). -/
def weightVersion (s : State) (i tensor : Nat) : Option Nat := tabGet? (s.team i).wver tensor

/-- The physical store address of a read with XV = 0 (R257, R258): a version that is absent, or an offset beyond its length,
is a fault with reason 7. -/
def weightAddr (s : State) (i : Nat) (xv : Bool) (tensor off len : Nat) : Except TFault Nat :=
  if xv then .error { reason := 7 }
  else
    match weightVersion s i tensor with
    | none => .error { reason := 7 }
    | some v =>
      match tabGet? (s.die (coreDie i)).wdir (4 * tensor + v) with
      | none => .error { reason := 7 }
      | some e => if off + len ≤ e.len then .ok (e.base + off) else .error { reason := 7 }

/-- The key of a die's weight store among the free values. -/
def wsKey (d : Nat) : Nat := 600 + d

/-- The bank of a physical store address (R257). -/
def wsBank (p : Nat) : Nat := p / 4096 % 64

/-- The banks that hold bytes of a weight store from `p` on. -/
def wsBanks (p n : Nat) : List Nat := ((rangeFrom (p / 4096) ((p + n - 1) / 4096 - p / 4096 + 1)).map (· % 64)).eraseDups

/-- Whether a bank is in its refresh slot (R260). -/
def State.refreshes (s : State) (b : Nat) : Bool := s.rotation % 125 == b

/-- Bytes of a die's weight store. -/
def State.wsBytes (s : State) (d a n : Nat) : List Byte :=
  (rangeFrom a n).map fun x => (memByte (s.die d).ws x).getD (Config.freeByte (s.era + wsKey d) x)

/-- Whether bytes of a die's weight store have an uncorrectable error (R415, R416): its code covers 32 bytes. -/
def State.wsUe (s : State) (d a n : Nat) : Bool :=
  n != 0 && (rangeFrom (a / 32) ((a + n - 1) / 32 - a / 32 + 1)).any (s.die d).ueWs.contains

/-- The translation fault that an element meets before any page is looked up (R109, R249, R353). -/
def elemFault (s : State) (i : Nat) (kind : AccKind) (cls : SpaceClass) (align : Nat) (e : Elem) : Option TFault :=
  let sp := decodeEa e.ea
  let tm := s.team i
  if e.bad ∨ e.rep.toNat % align ≠ 0 then some { reason := 1 }
  else if sp.cls ≠ cls then some { reason := 2 }
  else
    match sp with
    | .none => some { reason := 2 }
    | .peer x y _ => if x < tm.w ∧ y < tm.h then none else some { reason := 3 }
    | .weight xv _ tensor off =>
      match kind with
      | .read => match weightAddr s i xv tensor off e.len with
        | .error f => some f
        | .ok _ => none
      | _ => some { reason := 7 }
    | _ => none

/-- The failed race check of an element in the local scratchpad (R275). -/
def elemRace (s : State) (i : Nat) (kind : AccKind) (e : Elem) : Option RaceTag :=
  match decodeEa e.ea with
  | .local off => granRace s i i off e.len kind
  | _ => none

/-- The trap of an access whose elements have these faults and failed checks (R164, R358): a translation fault goes before a
race, and FADDR is the address of the lowest failing element. -/
def accTrap (kind : AccKind) (l : List (Elem × Option TFault × Option RaceTag)) : Option Trap :=
  match l.find? fun x => x.2.1.isSome || x.2.2.isSome with
  | none => none
  | some (e, _, _) =>
    match l.findSome? (·.2.1) with
    | some f => some (transTrap kind.code f e.rep)
    | none =>
      match l.findSome? (·.2.2) with
      | some t => some (raceTrap kind t e.rep)
      | none => none

/-- The checks of an access that are made at its slot (R110): alignment, the space and its bounds, and, in the local scratchpad,
the race tags. An access to peer or global memory is checked whole at its home, so that its lowest failing lane is found (R164). -/
def slotCheck (s : State) (i : Nat) (a : Access) : Option Trap :=
  if a.cls = .peer ∨ a.cls = .global then none
  else
    accTrap a.kind (a.elems.map fun e =>
      match elemFault s i a.kind a.cls a.align e with
      | some f => (e, some f, none)
      | none => (e, none, elemRace s i a.kind e))

/-! ### Data -/

/-- The bytes that elements read, by their place in the destination. -/
def gather (read : Elem → List Byte) (l : List Elem) : Mem :=
  l.foldl (fun m e => memWrite m e.dst (read e)) []

/-- The value of a destination from the bytes read; places that nothing was read for are zero (R161). -/
def destNat (n : Nat) (m : Mem) : Nat := bytesNat ((rangeFrom 0 n).map fun a => (memByte m a).getD 0)

/-- A g value of so many bytes (R135). -/
def gValue (bytes : Nat) (sext : Bool) (m : Mem) : Word :=
  let x := destNat bytes m
  if sext then BitVec.ofInt 64 (sintOf (8 * bytes) x) else BitVec.ofNat 64 x

/-- Writes a destination register and clears its scoreboard bit. -/
def Core.deliver (c : Core) (d : Dest) (m : Mem) : Core :=
  match d with
  | .drop => c
  | .g n b sx => (c.setG n (gValue b sx m)).clearG n
  | .v n => (c.setV n (BitVec.ofNat 2048 (destNat 256 m))).clearV n

/-- Sets the scoreboard bit of a destination. -/
def Core.markDest (c : Core) (d : Dest) (r : RegMark) : Core :=
  match d with
  | .drop => c
  | .g n _ _ => c.markG n r
  | .v n => c.markV n r

/-- The gate of a destination register. -/
def gateDest (c : Core) : Dest → Gate
  | .drop => {}
  | .g n _ _ => gateWG c n
  | .v n => gateWV c n

/-! ### Banks of the local scratchpad -/

/-- The granules by bank that an access names (R250). -/
def bankUse (offs : List (Nat × Nat)) : Tab Nat :=
  let grans := (offs.flatMap fun (o, n) => rangeFrom (o / 64) ((o + n - 1) / 64 - o / 64 + 1)).eraseDups
  grans.foldl (fun t g => tabMod 0 t (g % 32) (· + 1)) []

/-- The largest number of granules in one bank, at least 1 (R252). -/
def bankMax (u : Tab Nat) : Nat := u.foldl (fun m p => max m p.2) 1

/-- The cycles by which lower slots of the group delay an access (R251). -/
def bankDelay (c : Core) (u : Tab Nat) : Nat := u.foldl (fun m p => max m (tabGet 0 c.grpBanks p.1)) 0

/-- Counts the bank cycles of an access of the group. -/
def Core.useBanks (c : Core) (u : Tab Nat) : Core :=
  if c.issuing then { c with grpBanks := u.foldl (fun t p => tabMod 0 t p.1 (· + p.2)) c.grpBanks } else c

/-- The local places of an access. -/
def localOffs (l : List Elem) : List (Nat × Nat) := l.map fun e => (e.ea.toNat, e.len)

/-! ### Commit -/

/-- What commits with the slot of an access besides the access itself. -/
def Core.commitSides (c : Core) (a : Access) : Core :=
  let c := match a.inc with
    | none => c
    | some (n, v) => c.setG n v
  let c := match a.pop with
    | none => c
    | some q => c.popTq q
  c.drawIf a.draws

/-- Writes the elements of a store into core `i`'s own scratchpad in ascending order, with the tags of each (R162, R166,
R273). -/
def localStore (i : Nat) (kind : AccKind) (l : List Elem) (s : State) : State :=
  l.foldl (fun s e =>
    let off := e.ea.toNat
    tagGranules i off e.data.length (writeTag s i kind) (spWrite i off e.data s)) s

/-- The address arithmetic of a contiguous store as one write: its elements joined (R160, R269). -/
def joinElems : List Elem → List Elem
  | [] => []
  | e :: l => [{ e with len := e.len + l.foldl (fun n x => n + x.len) 0, data := e.data ++ l.flatMap (·.data) }]

/-- Whether an atomic is held at its home by the horizon (R279). -/
def amoIsSc : AccKind → Bool
  | .atomic a => a.ord == .sc
  | _ => false

/-- The order of an access. -/
def accOrd : AccKind → AmoOrd
  | .atomic a => a.ord
  | _ => .rlx

/-- A `.sc` atomic takes its timestamp at issue, and a `.rel` atomic carries the core's clock (R278). -/
def Core.stamp (c : Core) (k : AccKind) : Core × AccKind :=
  match k with
  | .atomic a =>
    if a.ord = .sc then ({ c with lclk := c.lclk + 1 }, .atomic { a with ts := c.lclk + 1 })
    else if a.ord = .rel then (c, .atomic { a with ts := c.lclk })
    else (c, k)
  | _ => (c, k)

/-- The key of a location of global memory, or of a core's scratchpad, among the clocks of atomics (R278). -/
def locKey (spad : Option Nat) (a : Nat) : Nat :=
  match spad with
  | none => a
  | some j => 2 ^ 48 + 2 ^ 19 * j + a

/-- What an acquiring atomic at a location finds: the timestamp of the last `.sc` operation performed there, and the clock that the
releases of the location carry (R267, R278). -/
def State.locClock (s : State) (key : Nat) : Word := wordMax (tabGet 0 s.scLast key) (tabGet 0 s.relClk key)

/-- What an atomic leaves at a location: a `.sc` one its timestamp, and every releasing one its clock (R278). -/
def amoClock (a : Amo) (key : Nat) (s : State) : State :=
  let s1 := if a.ord = .sc then { s with scLast := tabSet s.scLast key a.ts } else s
  if a.ord = .rel ∨ a.ord = .sc then { s1 with relClk := tabSet s1.relClk key (wordMax (tabGet 0 s1.relClk key) a.ts) } else s1

/-- A scalar's calendar event: the data of a local load or atomic. -/
def calData (d : Dest) (m : Mem) (ea : Word) : Option CalEv :=
  match d with
  | .drop => none
  | .g n b sx => some (.gData n (gValue b sx m) ea)
  | .v n => some (.vData n (BitVec.ofNat 2048 (destNat 256 m)) ea)

/-- Starts the data of a local access on their way: they are present after `lat` cycles (R252). -/
def Core.fixedData (c : Core) (lat : Nat) (d : Dest) (m : Mem) (ea : Word) : Core :=
  match calData d m ea with
  | none => c
  | some e => (c.markDest d .awaited).after lat e

/-- An access to the local scratchpad takes effect (R110, R251, R252). `base` is the latency without delays, and `perm` says that
a scatter or gather occupies its banks for several cycles. -/
def localEffect (base : Nat) (perm joined : Bool) (a : Access) (s : State) : State :=
  let i := s.cur
  let u := bankUse (localOffs a.elems)
  let lat := base + bankDelay s.me u + (if perm then bankMax u - 1 else 0)
  let ea := (a.elems.head?.map (·.ea)).getD 0
  match a.kind with
  | .read =>
    let m := gather (fun e => (rangeFrom e.ea.toNat e.len).map (s.spByteBefore i)) a.elems
    s.upd fun c => ((c.fixedData lat a.dest m ea).useBanks u).commitSides a
  | .write =>
    (localStore i .write (if joined then joinElems a.elems else a.elems) s).upd fun c => (c.useBanks u).commitSides a
  | .atomic x =>
    match a.elems with
    | [] => s
    | e :: _ =>
      let old := s.spBytes i e.ea.toNat e.len
      let key := locKey (some i) e.ea.toNat
      let t := s.locClock key
      let s1 := amoClock { x with ts := s.me.lclk } key (localStore i a.kind [{ e with data := amoBytes x old }] s)
      s1.upd fun c =>
        let c1 := c.fixedData lat a.dest (memWrite [] 0 old) ea
        ((if x.ord = .acq then c1.after lat (.clock t) else c1).useBanks u).commitSides a

/-- The access of a slot waits for its acceptance (R26, R110). -/
def deferEffect (slot : Nat) (a : Access) (s : State) : State :=
  s.upd fun c => { c with defer := some { slot := slot, op := .access a } }

/-- The physical store address of an element of a weight-store read. -/
def elemWs (s : State) (i : Nat) (e : Elem) : Option Nat :=
  match decodeEa e.ea with
  | .weight xv _ tensor off => (weightAddr s i xv tensor off e.len).toOption
  | _ => none

/-- A weight-store read (R257, R258): its data come with a latency that the manual leaves open, and where it has reached a bank in the
bank's refresh slot, not before the slot ends (R262). -/
def weightEffect (a : Access) (s : State) : State :=
  let i := s.cur
  let m := gather (fun e => match elemWs s i e with
    | some p => s.wsBytes (coreDie i) p e.len
    | none => []) a.elems
  let ue := a.elems.any fun e => (elemWs s i e).any fun p => s.wsUe (coreDie i) p e.len
  let banks := (a.elems.flatMap fun e => match elemWs s i e with
    | some p => wsBanks p e.len
    | none => []).eraseDups
  s.upd fun c =>
    let fl : Flight := { id := c.nextId, dest := a.dest, addr := (a.elems.head?.map (·.ea)).getD 0, write := false,
                         glob := true, banks := banks.filter s.refreshes, left := 0, data := m, ue := ue }
    ({ c with nextId := c.nextId + 1, flights := c.flights ++ [fl] }.markDest a.dest .awaited).commitSides a

/-- Whether an `.acq` or `.sc` atomic of the core has not been performed (R139). -/
def Core.acqPending (c : Core) : Bool := c.flights.any fun f => f.ord == .acq || f.ord == .sc

/-- Whether an access has not been performed: a part of it is still on its way, or waits in a bank of the weight store. -/
def Flight.pending (f : Flight) : Bool := decide (0 < f.left) || !f.banks.isEmpty

/-- Whether accesses of the core have not been performed. -/
def Core.accPending (c : Core) : Bool := c.flights.any Flight.pending

/-- Whether the core's own access to its scratchpad by a peer address is on its way (R248). -/
def Core.selfPending (c : Core) (i : Nat) : Bool := c.mesh.any fun r => r.core == i

/-- Whether a local access takes its place in its bank behind the core's own accesses that come there by the mesh: a `.sc` atomic (R279), and
a write above a slot of its group that has gone to the core's own bytes by a peer address (R166, R248). -/
def viaMesh (c : Core) (i : Nat) (k : AccKind) : Bool := amoIsSc k || (k != .read && c.selfPending i)

/-- An S or V access as a slot operation (R109, R160): held by what orders it (R139, R248), trapped by its checks, performed at once in
the local scratchpad, deferred elsewhere. -/
def accessOp (slot : Nat) (g : State → Gate) (mk : State → Access) (cls : State → SpaceClass) (align base : Nat)
    (perm joined : Bool) (s : State) : Out :=
  let sc := cls s
  let a := { mk s with cls := sc, align := align }
  let rel := match a.kind with
    | .atomic x => x.ord == .rel || x.ord == .sc
    | _ => false
  let own := Gate.holdIf (s.me.acqPending || (rel && s.me.accPending) || (sc == .local && s.me.selfPending s.cur))
  let chk : Gate := { trap := slotCheck s s.cur a }
  runSlot slot ((((g s).and (gateDest s.me a.dest)).and own).and chk)
    (fun t =>
      match sc with
      | .local => if viaMesh t.me t.cur a.kind then deferEffect slot a t else localEffect base perm joined a t
      | .weight => weightEffect a t
      | _ => deferEffect slot a t) s

end Sys2Proof.Machine
end

