-- ==== Sys2Proof/Machine/L2.lean ====
section
/-! DEFINITION. Line locks (R141, R142, R342). -/
namespace Sys2Proof.Machine

/-! ### Locks (R141, R142, R342) -/

/-- Lines that a context holds locked (R342, LKST.LUSED). -/
def lockedCount (s : State) (x : BitVec 3) : Nat := (s.l2.filter fun y => y.locks.contains x).length

/-- LKST (R342). -/
def lkstWord (s : State) (x : BitVec 3) : Word :=
  let c := s.ctx x.toNat
  BitVec.ofNat 64 (c.lways.toNat * 2 ^ 56 + c.lquota.toNat * 2 ^ 32 + lockedCount s x)

/-- Whether context `x` may lock one more line: its quota, its ways of the set, and 12 locked lines of the set (R342). -/
def lockFits (s : State) (x : BitVec 3) (l : Nat) : Bool :=
  let c := s.ctx x.toNat
  let set := s.l2.filter fun y => sameSet y.line l && !y.locks.isEmpty
  let held := match s.l2At l with
    | some y => !y.locks.isEmpty
    | none => false
  decide (lockedCount s x < c.lquota.toNat)
    && decide ((set.filter fun y => y.locks.contains x).length < c.lways.toNat)
    && (held || decide (set.length < 12))

/-- Locks lines one after another, or none of them when one does not fit. -/
def lockLines (x : BitVec 3) : List (Nat × BitVec 2) → State → Option State
  | [], s => some s
  | (l, c) :: r, s =>
    match s.l2At l with
    | some y =>
      if y.locks.contains x then lockLines x r s
      else if lockFits s x l then lockLines x r (s.modLine l fun y => { y with locks := y.locks ++ [x] }) else none
    | none =>
      if lockFits s x l then lockLines x r ((fillLine x c l s).modLine l fun y => { y with locks := [x] }) else none

/-- Whether the range of a lock is malformed: status 2 or 3 (R141). -/
def lockBad (a n : Word) : Option Nat :=
  if a.toNat % 128 ≠ 0 then some 2 else if n.toNat = 0 ∨ 4096 < n.toNat then some 3 else none

/-- The pages that a lock or unlock looks up. -/
def lockUses (a n : Word) : List (Nat × Perm) :=
  if (lockBad a n).isSome then []
  else (rangeFrom 0 n.toNat).filterMap fun k =>
    match decodeEa (a + BitVec.ofNat 64 (128 * k)) with
    | .global va => some (va, { r := true })
    | _ => none

/-- The lines that a lock or unlock names, or its status 2, 3 or 4 (R141). -/
def lockRange (s : State) (i : Nat) (a n : Word) : Except Nat (List (Nat × BitVec 2)) :=
  match lockBad a n with
  | some c => .error c
  | none =>
    let x := (s.team i).ctx
    let r := (rangeFrom 0 n.toNat).map fun k =>
      match decodeEa (a + BitVec.ofNat 64 (128 * k)) with
      | .global va => translate s (.slot i) x va 128 { r := true }
      | _ => .error { reason := 2 }
    r.foldr (fun e acc => match e, acc with
      | .ok (t, pa), .ok l => .ok ((lineOf pa, t.cls) :: l)
      | _, _ => .error 4) (.ok [])

/-- `unlock.l2` for a context, of one line (R142). -/
def unlockLine (x : BitVec 3) (l : Nat) (s : State) : State :=
  s.modLine l fun y => { y with locks := y.locks.filter (· != x) }

end Sys2Proof.Machine
end

