-- ==== Sys2Proof/Machine/Memory.lean ====
section
/-! DEFINITION. The memory operations of the S and V slots (R109 to R112, R135 to R142, R160 to R166) and `wrow` (R168). -/
namespace Sys2Proof.Machine

/-! ### Scalar accesses -/

/-- Effective address of an S access (R109). -/
def eaOf (s : State) (a b : Src) : Word := readSrc s a + readSrc s b

/-- The base register's new value in mode 11 (R137). -/
def incS (s : State) (a : Src) (inc : Bool) (n : Nat) : Option (Fin 16 × Word) :=
  match a with
  | .g r => if inc then some (r, s.me.getG r + BitVec.ofNat 64 n) else none
  | _ => none

/-- A scalar load of so many bytes (R135). -/
def scalarLoad (bytes : Nat) (sext : Bool) (n : Fin 16) (a b : Src) (inc : Bool) (s : State) : Out :=
  accessOp 1 (fun s => (gateSrc s a).and (gateSrc s b))
    (fun s => { kind := .read, elems := [{ ea := eaOf s a b, rep := eaOf s a b, len := bytes }], dest := .g n bytes sext,
                inc := incS s a inc bytes, draws := srcDraws a || srcDraws b })
    (fun s => (decodeEa (eaOf s a b)).cls) bytes 4 false false s

/-- Bytes of a store width. -/
def stBytes : StW → Nat
  | .n8 => 1
  | .n16 => 2
  | .n32 => 4
  | .n64 => 8

/-- R136. -/
def execSt (w : StW) (a b : Src) (inc : Bool) (s : State) : Out :=
  accessOp 1 (fun s => (gateSrc s a).and (gateSrc s b))
    (fun s => { kind := .write
                elems := [{ ea := eaOf s a b, rep := eaOf s a b, len := (stBytes w), data := natBytes (stBytes w) s.me.bank.lat.sA.toNat }]
                inc := incS s a inc (stBytes w), draws := srcDraws a || srcDraws b })
    (fun s => (decodeEa (eaOf s a b)).cls) (stBytes w) 4 false false s

/-- R135. -/
def execLdI8 (n : Fin 16) (a b : Src) (inc : Bool) (s : State) : Out := scalarLoad 1 true n a b inc s

/-- R135. -/
def execLdN8 (n : Fin 16) (a b : Src) (inc : Bool) (s : State) : Out := scalarLoad 1 false n a b inc s

/-- R135. -/
def execLdI16 (n : Fin 16) (a b : Src) (inc : Bool) (s : State) : Out := scalarLoad 2 true n a b inc s

/-- R135. -/
def execLdN16 (n : Fin 16) (a b : Src) (inc : Bool) (s : State) : Out := scalarLoad 2 false n a b inc s

/-- R135. -/
def execLdI32 (n : Fin 16) (a b : Src) (inc : Bool) (s : State) : Out := scalarLoad 4 true n a b inc s

/-- R135. -/
def execLdN32 (n : Fin 16) (a b : Src) (inc : Bool) (s : State) : Out := scalarLoad 4 false n a b inc s

/-- R135. -/
def execLdN64 (n : Fin 16) (a b : Src) (inc : Bool) (s : State) : Out := scalarLoad 8 false n a b inc s

/-! ### Atomics -/

/-- An atomic (R138, R139): latch A holds the operand and latch B the comparand. -/
def atomicOp (op : AmoOp) (o : AmoOrd) (a : Src) (r : Option (Fin 16)) (s : State) : Out :=
  accessOp 1 (fun s => gateSrc s a)
    (fun s => { kind := .atomic { op := op, ord := o, v := s.me.bank.lat.sA, c := s.me.bank.lat.sB }
                elems := [{ ea := readSrc s a, rep := readSrc s a, len := amoSize op }]
                dest := match r with
                  | some n => .g n (amoSize op) false
                  | none => .drop
                draws := srcDraws a })
    (fun s => (decodeEa (readSrc s a)).cls) (amoSize op) 4 false false s

/-- R138. -/
def execAmoAddI64 (o : AmoOrd) (a : Src) (r : Option (Fin 16)) (s : State) : Out := atomicOp .addI64 o a r s

/-- R138. -/
def execAmoAnd (o : AmoOrd) (a : Src) (r : Option (Fin 16)) (s : State) : Out := atomicOp .and o a r s

/-- R138. -/
def execAmoOr (o : AmoOrd) (a : Src) (r : Option (Fin 16)) (s : State) : Out := atomicOp .or o a r s

/-- R138. -/
def execAmoXor (o : AmoOrd) (a : Src) (r : Option (Fin 16)) (s : State) : Out := atomicOp .xor o a r s

/-- R138. -/
def execAmoMinI64 (o : AmoOrd) (a : Src) (r : Option (Fin 16)) (s : State) : Out := atomicOp .minI64 o a r s

/-- R138. -/
def execAmoMaxI64 (o : AmoOrd) (a : Src) (r : Option (Fin 16)) (s : State) : Out := atomicOp .maxI64 o a r s

/-- R138. -/
def execAmoMinN64 (o : AmoOrd) (a : Src) (r : Option (Fin 16)) (s : State) : Out := atomicOp .minN64 o a r s

/-- R138. -/
def execAmoMaxN64 (o : AmoOrd) (a : Src) (r : Option (Fin 16)) (s : State) : Out := atomicOp .maxN64 o a r s

/-- R138. -/
def execAmoSwap (o : AmoOrd) (a : Src) (r : Option (Fin 16)) (s : State) : Out := atomicOp .swap o a r s

/-- R138. -/
def execAmoCas (o : AmoOrd) (a : Src) (r : Option (Fin 16)) (s : State) : Out := atomicOp .cas o a r s

/-- R138. -/
def execAmoFaddF32 (o : AmoOrd) (a : Src) (r : Option (Fin 16)) (s : State) : Out := atomicOp .faddF32 o a r s

/-! ### Line locking and prefetch -/

/-- The status of `lock.l2` and the state it leaves (R141). -/
def lockResult (s : State) (a n : Word) : Nat × State :=
  match lockRange s s.cur a n with
  | .error c => (c, s)
  | .ok l =>
    match lockLines (s.team s.cur).ctx l s with
    | some t => (0, t)
    | none => (1, s)

/-- R141. -/
def execLockL2 (a b : Src) (s : State) : Out :=
  walkSlot 1 (lockUses (readSrc s a) (readSrc s b)) ((gateSrc s a).and (gateSrc s b)) (fun t =>
    let (c, t1) := lockResult t (readSrc t a) (readSrc t b)
    t1.upd fun c1 => (c1.pushSq 8 (BitVec.ofNat 64 c)).drawIf (srcDraws a || srcDraws b)) s

/-- R142. -/
def execUnlockL2 (a b : Src) (s : State) : Out :=
  walkSlot 1 (lockUses (readSrc s a) (readSrc s b)) ((gateSrc s a).and (gateSrc s b)) (fun t =>
    let t1 := match lockRange t t.cur (readSrc t a) (readSrc t b) with
      | .error _ => t
      | .ok l => l.foldl (fun s (p : Nat × BitVec 2) => unlockLine (s.team s.cur).ctx p.1 s) t
    t1.upd fun c => c.drawIf (srcDraws a || srcDraws b)) s

/-- The line that a prefetch asks for (R142), if its address translates with R. -/
def prefLine (s : State) (a : Word) : Option (BitVec 3 × BitVec 2 × Nat) :=
  match decodeEa a with
  | .global va =>
    match translate s (.slot s.cur) (s.team s.cur).ctx va 1 { r := true } with
    | .ok (t, pa) => some ((s.team s.cur).ctx, t.cls, lineOf pa)
    | .error _ => none
  | _ => none

/-- The page that a prefetch looks up. -/
def prefUses (a : Word) : List (Nat × Perm) :=
  match decodeEa a with
  | .global va => [(va, { r := true })]
  | _ => []

/-- R142. -/
def execPref (a : Src) (s : State) : Out :=
  walkSlot 1 (prefUses (readSrc s a)) (gateSrc s a) (fun t =>
    let t1 := match prefLine t (readSrc t a) with
      | none => t
      | some p => { t with prefs := t.prefs ++ [p] }
    t1.upd fun c => c.drawIf (srcDraws a)) s

/-! ### Vector accesses -/

/-- The value of a base (R145, R160). -/
def baseV (s : State) (a : SqG) : Word := readSg s a

/-- The base register's new value in mode 11 (R160). -/
def incV (s : State) (a : SqG) (inc : Bool) (n : Nat) : Option (Fin 16 × Word) :=
  match a with
  | .g r => if inc then some (r, s.me.getG r + BitVec.ofNat 64 n) else none
  | .sq _ => none

/-- The bytes of lane `i` of latch A of a pipe. -/
def latLane (s : State) (u : Pipe) (i : Nat) : List Byte := natBytes 4 (lane (latA s.me u) i)

/-- The element of lane `i`, with data for a store. -/
def laneElem (s : State) (u : Pipe) (st : Bool) (ea : Word) (i : Nat) : Elem :=
  { ea := ea, rep := ea, len := 4, dst := 4 * i, data := if st then latLane s u i else [] }

/-- The lanes of a contiguous access (R160). -/
def laneElems (s : State) (u : Pipe) (st : Bool) (b stride : Word) : List Elem :=
  lanes64.map fun i => laneElem s u st (b + BitVec.ofNat 64 i * stride) i

/-- The lanes of an indexed access; a null lane has no element (R161). -/
def idxElems (s : State) (u : Pipe) (st : Bool) (b : Word) (ix : Vec) : List Elem :=
  lanes64.filterMap fun i =>
    let x := lane ix i
    if x = 0xFFFFFFFF then none
    else some { laneElem s u st (b + BitVec.ofNat 64 x) i with bad := decide (x % 4 ≠ 0) }

/-- What a V access does: a load of `vN` or a store. -/
def accV (dest : Option (Fin 32)) (es : List Elem) (inc : Option (Fin 16 × Word)) (pop : Option (Fin 4)) : Access :=
  { kind := if dest.isSome then .read else .write
    elems := es
    dest := match dest with
      | some n => .v n
      | none => .drop
    inc := inc
    pop := pop }

/-- A contiguous access. -/
def contigOp (u : Pipe) (dest : Option (Fin 32)) (a : SqG) (i : OffV) (inc : Bool) (s : State) : Out :=
  accessOp (pipeSlot u) (fun s => (gateSg s a).and (gateOff s i))
    (fun s => accV dest (laneElems s u dest.isNone (baseV s a + readOff s i) 4) (incV s a inc 256) none)
    (fun s => (decodeEa (baseV s a)).cls) 4 6 false true s

/-- A strided access. -/
def strideOp (u : Pipe) (dest : Option (Fin 32)) (a : SqG) (i : OffV) (inc : Bool) (s : State) : Out :=
  accessOp (pipeSlot u) (fun s => (gateSg s a).and (gateOff s i))
    (fun s => accV dest (laneElems s u dest.isNone (baseV s a) (readOff s i)) (incV s a inc 4) none)
    (fun s => (decodeEa (baseV s a)).cls) 4 6 true false s

/-- An indexed access. -/
def indexOp (u : Pipe) (dest : Option (Fin 32)) (a : SqG) (i : IdxV) (s : State) : Out :=
  accessOp (pipeSlot u) (fun s => (gateSg s a).and (gateIdx s i))
    (fun s => accV dest (idxElems s u dest.isNone (baseV s a) (readIdx s i)) none (idxPops i))
    (fun s => (decodeEa (baseV s a)).cls) 4 6 true false s

/-- R160. -/
def execVld (u : Pipe) (n : Fin 32) (a : SqG) (i : OffV) (inc : Bool) (s : State) : Out := contigOp u (some n) a i inc s

/-- R160. -/
def execVldS (u : Pipe) (n : Fin 32) (a : SqG) (i : OffV) (inc : Bool) (s : State) : Out := strideOp u (some n) a i inc s

/-- R160, R161. -/
def execVldX (u : Pipe) (n : Fin 32) (a : SqG) (i : IdxV) (s : State) : Out := indexOp u (some n) a i s

/-- R160. -/
def execVst (u : Pipe) (a : SqG) (i : OffV) (inc : Bool) (s : State) : Out := contigOp u none a i inc s

/-- R160, R162. -/
def execVstS (u : Pipe) (a : SqG) (i : OffV) (inc : Bool) (s : State) : Out := strideOp u none a i inc s

/-- R160 to R162. -/
def execVstX (u : Pipe) (a : SqG) (i : IdxV) (s : State) : Out := indexOp u none a i s

/-- The elements that `ld.tr` reads (R163): element c of row r goes to element 4c + r. -/
def trElems (b pv : Word) : List Elem :=
  let code := pv.toNat % 4
  let sz := 4 / 2 ^ code
  let pitch := pv &&& ~~~3#64
  if code = 3 then []
  else (rangeFrom 0 4).flatMap fun r =>
    let row := b + BitVec.ofNat 64 r * pitch
    (rangeFrom 0 (64 / sz)).map fun c =>
      { ea := row + BitVec.ofNat 64 (sz * c), rep := row, len := sz, dst := sz * (4 * c + r) }

/-- R163. -/
def execLdTr (u : Pipe) (n : Fin 32) (a : SqG) (i : OffV) (inc : Bool) (s : State) : Out :=
  accessOp (pipeSlot u)
    (fun s => ((gateSg s a).and (gateOff s i)).and
      (Gate.need (decide ((readOff s i).toNat % 4 ≠ 3)) (transTrap 1 { reason := 1 } (baseV s a))))
    (fun s => accV (some n) (trElems (baseV s a) (readOff s i)) (incV s a inc 64) none)
    (fun s => (decodeEa (baseV s a)).cls) 4 6 false false s

/-! ### Accumulator rows -/

/-- FP32 lanes as a row of ACC48 elements, which is exact (R168). -/
def rowOfLanes (v : Vec) : Row := rowOfElems (lanes64.map fun i => ffAcc.rne (f32 (lane v i)))

/-- R168. -/
def execWrow (u : Pipe) (a : SrcV) (sel : CntV) (s : State) : Out :=
  runSlot (pipeSlot u) ((gateV1 s a).and (gateCnt s sel)) (fun t =>
    let k := readCnt t sel
    let row := readV t efF32 a
    t.upd fun c => ((c.after 2 (.wrow (Fin.ofNat 64 (k / 256)) (Fin.ofNat 64 k) row)).popV (vPops a) none).drawIf (vDraws a)) s

end Sys2Proof.Machine
end

