-- ==== Sys2Proof/Machine/Vector.lean ====
section
/-! DEFINITION. The vector arithmetic of slots V0 and V1: floating and integer operations, compares, selection, conversions,
NX packing, reductions, scans and permutes (R147 to R159), the moves and the latch writes. -/
namespace Sys2Proof.Machine

/-! ### Shapes -/

/-- The elements of width `w` of a vector, one by one. -/
def vMap1 (w : Nat) (f : Nat → Nat) (a : Vec) : Vec := vOfElems w ((rangeFrom 0 (2048 / w)).map fun e => f (vElem w a e))
/-- The elements of two vectors, pair by pair. -/
def vMap2 (w : Nat) (f : Nat → Nat → Nat) (a b : Vec) : Vec :=
  vOfElems w ((rangeFrom 0 (2048 / w)).map fun e => f (vElem w a e) (vElem w b e))
/-- The elements of three vectors. -/
def vMap3 (w : Nat) (f : Nat → Nat → Nat → Nat) (a b c : Vec) : Vec :=
  vOfElems w ((rangeFrom 0 (2048 / w)).map fun e => f (vElem w a e) (vElem w b e) (vElem w c e))

/-- A vector operation of one source that pushes its result after `lat` cycles (R146). -/
def vector1 (u : Pipe) (lat : Nat) (ef : ElemFmt) (f : Vec → Vec) (a : SrcV) (s : State) : Out :=
  runSlot (pipeSlot u) (gateV1 s a)
    (fun t => t.upd fun c => ((c.pushVq lat (f (readV t ef a))).popV (vPops a) none).drawIf (vDraws a)) s

/-- A vector operation of two sources. -/
def vector2 (u : Pipe) (lat : Nat) (ef : ElemFmt) (f : Vec → Vec → Vec) (a b : SrcV) (s : State) : Out :=
  runSlot (pipeSlot u) (gateV2 s a b)
    (fun t => t.upd fun c =>
      ((c.pushVq lat (f (readV t ef a) (readV t ef b))).popV (vPops a) (vPops b)).drawIf (vDraws a || vDraws b)) s

/-! ### Floating arithmetic -/

/-- A floating operation on the elements of a format, rounded RNE (R147). -/
def floatOp (u : Pipe) (ef : ElemFmt) (g : FF) (f : FpNum → FpNum → FpNum) (a b : SrcV) (s : State) : Out :=
  vector2 u 4 ef (vMap2 ef.w fun x y => g.rne (f (g.value x) (g.value y))) a b s

/-- x·y + z with one rounding, the addend in latch A of the pipe (R147). -/
def fmaOp (u : Pipe) (ef : ElemFmt) (g : FF) (a b : SrcV) (s : State) : Out :=
  vector2 u 4 ef
    (fun x y => vMap3 ef.w (fun x y z => g.rne (((g.value x).mul (g.value y)).add (g.value z))) x y (latA s.me u)) a b s

/-- The exact difference. -/
def FpNum.sub (a b : FpNum) : FpNum := a.add b.negate

/-- R147. -/
def execAddF32 (u : Pipe) (a b : SrcV) (s : State) : Out := floatOp u efF32 ffF32 FpNum.add a b s

/-- R147. -/
def execAddBf16 (u : Pipe) (a b : SrcV) (s : State) : Out := floatOp u efBf16 ffBf16 FpNum.add a b s

/-- R147. -/
def execAddF16 (u : Pipe) (a b : SrcV) (s : State) : Out := floatOp u efF16 ffF16 FpNum.add a b s

/-- R147. -/
def execSubF32 (u : Pipe) (a b : SrcV) (s : State) : Out := floatOp u efF32 ffF32 FpNum.sub a b s

/-- R147. -/
def execSubBf16 (u : Pipe) (a b : SrcV) (s : State) : Out := floatOp u efBf16 ffBf16 FpNum.sub a b s

/-- R147. -/
def execSubF16 (u : Pipe) (a b : SrcV) (s : State) : Out := floatOp u efF16 ffF16 FpNum.sub a b s

/-- R147. -/
def execMulF32 (u : Pipe) (a b : SrcV) (s : State) : Out := floatOp u efF32 ffF32 FpNum.mul a b s

/-- R147. -/
def execMulBf16 (u : Pipe) (a b : SrcV) (s : State) : Out := floatOp u efBf16 ffBf16 FpNum.mul a b s

/-- R147. -/
def execMulF16 (u : Pipe) (a b : SrcV) (s : State) : Out := floatOp u efF16 ffF16 FpNum.mul a b s

/-- R147. -/
def execFmaF32 (u : Pipe) (a b : SrcV) (s : State) : Out := fmaOp u efF32 ffF32 a b s

/-- R147. -/
def execFmaBf16 (u : Pipe) (a b : SrcV) (s : State) : Out := fmaOp u efBf16 ffBf16 a b s

/-- R147. -/
def execFmaF16 (u : Pipe) (a b : SrcV) (s : State) : Out := fmaOp u efF16 ffF16 a b s

/-- R147. -/
def execMinF32 (u : Pipe) (a b : SrcV) (s : State) : Out := floatOp u efF32 ffF32 FpNum.min a b s

/-- R147. -/
def execMinBf16 (u : Pipe) (a b : SrcV) (s : State) : Out := floatOp u efBf16 ffBf16 FpNum.min a b s

/-- R147. -/
def execMinF16 (u : Pipe) (a b : SrcV) (s : State) : Out := floatOp u efF16 ffF16 FpNum.min a b s

/-- R147. -/
def execMaxF32 (u : Pipe) (a b : SrcV) (s : State) : Out := floatOp u efF32 ffF32 FpNum.max a b s

/-- R147. -/
def execMaxBf16 (u : Pipe) (a b : SrcV) (s : State) : Out := floatOp u efBf16 ffBf16 FpNum.max a b s

/-- R147. -/
def execMaxF16 (u : Pipe) (a b : SrcV) (s : State) : Out := floatOp u efF16 ffF16 FpNum.max a b s

/-- R148. -/
def execRcpF32 (u : Pipe) (a : SrcV) (s : State) : Out :=
  vector1 u 12 efF32 (vMap1 32 fun x => ffF32.rne (numRcp (f32 x))) a s

/-- R148. -/
def execRsqrtF32 (u : Pipe) (a : SrcV) (s : State) : Out :=
  vector1 u 12 efF32 (vMap1 32 fun x => ffF32.rne (numRsqrt (f32 x))) a s

/-- R148. -/
def execExp2F32 (u : Pipe) (a : SrcV) (s : State) : Out :=
  vector1 u 12 efF32 (vMap1 32 fun x => ffF32.rne (numExp2 (f32 x))) a s

/-- R148. -/
def execLog2F32 (u : Pipe) (a : SrcV) (s : State) : Out :=
  vector1 u 12 efF32 (vMap1 32 fun x => ffF32.rne (numLog2 (f32 x))) a s

/-! ### Integer arithmetic, logic and compares -/

/-- A two-source operation on 32-bit lanes with a latency of 2 (R146, R149). -/
def intOp (u : Pipe) (f : BitVec 32 → BitVec 32 → BitVec 32) (a b : SrcV) (s : State) : Out :=
  vector2 u 2 efI32 (vMap2 32 fun x y => (f (BitVec.ofNat 32 x) (BitVec.ofNat 32 y)).toNat) a b s

/-- A signed number clamped to 32 bits (R149). -/
def clamp32 (x : Int) : BitVec 32 :=
  if x < -(2 ^ 31) then BitVec.ofInt 32 (-(2 ^ 31)) else if 2 ^ 31 - 1 < x then BitVec.ofInt 32 (2 ^ 31 - 1) else BitVec.ofInt 32 x

/-- A lane of ones where a relation holds (R150). -/
def mask32 (b : Bool) : BitVec 32 := if b then BitVec.allOnes 32 else 0

/-- A floating compare (R150). -/
def cmpF32 (u : Pipe) (r : FpNum → FpNum → Bool) (a b : SrcV) (s : State) : Out :=
  vector2 u 2 efF32 (vMap2 32 fun x y => (mask32 (r (f32 x) (f32 y))).toNat) a b s

/-- R149. -/
def execAddI32 (u : Pipe) (a b : SrcV) (s : State) : Out := intOp u (fun a b => a + b) a b s

/-- R149. -/
def execSubI32 (u : Pipe) (a b : SrcV) (s : State) : Out := intOp u (fun a b => a - b) a b s

/-- R149. -/
def execMulI32 (u : Pipe) (a b : SrcV) (s : State) : Out := intOp u (fun a b => a * b) a b s

/-- R149. -/
def execAddSatI32 (u : Pipe) (a b : SrcV) (s : State) : Out := intOp u (fun a b => clamp32 (a.toInt + b.toInt)) a b s

/-- R149. -/
def execSubSatI32 (u : Pipe) (a b : SrcV) (s : State) : Out := intOp u (fun a b => clamp32 (a.toInt - b.toInt)) a b s

/-- R149. -/
def execMinI32 (u : Pipe) (a b : SrcV) (s : State) : Out := intOp u (fun a b => if b.toInt < a.toInt then b else a) a b s

/-- R149. -/
def execMinN32 (u : Pipe) (a b : SrcV) (s : State) : Out := intOp u (fun a b => if b.toNat < a.toNat then b else a) a b s

/-- R149. -/
def execMaxI32 (u : Pipe) (a b : SrcV) (s : State) : Out := intOp u (fun a b => if a.toInt < b.toInt then b else a) a b s

/-- R149. -/
def execMaxN32 (u : Pipe) (a b : SrcV) (s : State) : Out := intOp u (fun a b => if a.toNat < b.toNat then b else a) a b s

/-- R149. -/
def execVAnd (u : Pipe) (a b : SrcV) (s : State) : Out := intOp u (fun a b => a &&& b) a b s

/-- R149. -/
def execVOr (u : Pipe) (a b : SrcV) (s : State) : Out := intOp u (fun a b => a ||| b) a b s

/-- R149. -/
def execVXor (u : Pipe) (a b : SrcV) (s : State) : Out := intOp u (fun a b => a ^^^ b) a b s

/-- R149. -/
def execVAndn (u : Pipe) (a b : SrcV) (s : State) : Out := intOp u (fun a b => a &&& ~~~b) a b s

/-- R149. -/
def execVShl (u : Pipe) (a b : SrcV) (s : State) : Out := intOp u (fun a b => a <<< (b.toNat % 32)) a b s

/-- R149. -/
def execShrN32 (u : Pipe) (a b : SrcV) (s : State) : Out := intOp u (fun a b => a >>> (b.toNat % 32)) a b s

/-- R149. -/
def execShrI32 (u : Pipe) (a b : SrcV) (s : State) : Out := intOp u (fun a b => a.sshiftRight (b.toNat % 32)) a b s

/-- R150. -/
def execCeqI32 (u : Pipe) (a b : SrcV) (s : State) : Out := intOp u (fun a b => mask32 (a == b)) a b s

/-- R150. -/
def execCltI32 (u : Pipe) (a b : SrcV) (s : State) : Out := intOp u (fun a b => mask32 (decide (a.toInt < b.toInt))) a b s

/-- R150. -/
def execCltN32 (u : Pipe) (a b : SrcV) (s : State) : Out := intOp u (fun a b => mask32 (decide (a.toNat < b.toNat))) a b s

/-- R150. -/
def execCeqF32 (u : Pipe) (a b : SrcV) (s : State) : Out := cmpF32 u FpNum.eqB a b s

/-- R150. -/
def execCltF32 (u : Pipe) (a b : SrcV) (s : State) : Out := cmpF32 u FpNum.ltB a b s

/-- R150. -/
def execCleF32 (u : Pipe) (a b : SrcV) (s : State) : Out := cmpF32 u FpNum.leB a b s

/-- R151: lane i of a where lane i of latch A is non-zero, and of b elsewhere. -/
def execVSel (u : Pipe) (a b : SrcV) (s : State) : Out :=
  vector2 u 2 efI32 (fun x y => vMap3 32 (fun x y m => if m ≠ 0 then x else y) x y (latA s.me u)) a b s

/-- R152. -/
def execVMov (u : Pipe) (a : SrcV) (s : State) : Out := vector1 u 2 efI32 id a s

/-! ### Conversions -/

/-- The rounding of element `i` under a mode, the default being that of the target (R69, R76): `w` is the word of the
instruction, rotated for the lane. -/
def rndOf (m : Mode) (dflt : Rnd) (w : BitVec 32) (i : Nat) : Rnd :=
  match m with
  | .dflt => dflt
  | .rn => .rne
  | .rna => .rna
  | .rz => .rz
  | .sr => .sr (rotl32 w i)

/-- Whether a mode consumes the generator. -/
def modeDraws : Mode → Bool
  | .sr => true
  | _ => false

/-- A target of the narrowing conversions: its element width, its default rounding, and one conversion (R69, R71, R72). -/
structure Target where
  w    : Nat
  dflt : Rnd
  conv : Rnd → Bool → FpNum → Conv

/-- A floating target. -/
def fTarget (w : Nat) (d : Rnd) (g : FF) : Target := { w := w, dflt := d, conv := fun r sat x => g.round r sat false x }
/-- An integer target: a NaN gives 0 and counts as clamped (R71). -/
def iTarget (w : Nat) (d : Rnd) : Target :=
  { w := w, dflt := d
    conv := fun r _ x => let (v, c) := toInt r (-(2 ^ (w - 1) : Nat)) ((2 ^ (w - 1) : Nat) - 1) x; { bits := intBits w v, clamp := c } }

/-- The targets by d (R153). -/
def cvtTarget : CvtFmt → Target
  | .bf16 => fTarget 16 .rne ffBf16
  | .f16 => fTarget 16 .rne ffF16
  | .e4m3 => fTarget 8 .rna ffE4m3
  | .e5m2 => fTarget 8 .rna ffE5m2
  | .i32 => iTarget 32 .rne
  | .i8 => iTarget 8 .rna

/-- The results of a narrowing, densely from bit 0, and the lanes that were clamped (R154). -/
def narrow (t : Target) (m : Mode) (sat : Bool) (w : BitVec 32) (src : Vec) : Vec × List Nat :=
  let r := lanes64.map fun i => t.conv (rndOf m t.dflt w i) sat (f32 (lane src i))
  (vOfElems t.w (r.map (·.bits)), (r.zipIdx.filter fun p => p.1.clamp).map (·.2))

/-- A conversion that pushes after 3 cycles and may set CVSAT bits (R146, R154). -/
def convOp (u : Pipe) (draws : Bool) (f : Vec → Vec × List Nat) (a : SrcV) (s : State) : Out :=
  runSlot (pipeSlot u) (gateV1 s a)
    (fun t => t.upd fun c =>
      let (v, ls) := f (readV t efF32 a)
      (((c.pushVq 3 v).orCvsat ls).popV (vPops a) none).drawIf (draws || vDraws a)) s

/-- `cvt.<d>.f32` with its mode. -/
def cvtOp (u : Pipe) (d : CvtFmt) (m : Mode) (sat : Bool) (a : SrcV) (s : State) : Out :=
  convOp u (modeDraws m) (narrow (cvtTarget d) m sat (genWord s.me.seed)) a s

/-- R153: the default mode of R69. -/
def execCvt (u : Pipe) (d : CvtFmt) (a : SrcV) (s : State) : Out := cvtOp u d .dflt false a s

/-- R153. -/
def execCvtBf16F32Mode (u : Pipe) (a : SrcV) (m : Mode) (sat : Bool) (s : State) : Out := cvtOp u .bf16 m sat a s

/-- R153. -/
def execCvtF16F32Mode (u : Pipe) (a : SrcV) (m : Mode) (sat : Bool) (s : State) : Out := cvtOp u .f16 m sat a s

/-- R153. -/
def execCvtE4m3F32Mode (u : Pipe) (a : SrcV) (m : Mode) (sat : Bool) (s : State) : Out := cvtOp u .e4m3 m sat a s

/-- R153. -/
def execCvtE5m2F32Mode (u : Pipe) (a : SrcV) (m : Mode) (sat : Bool) (s : State) : Out := cvtOp u .e5m2 m sat a s

/-- R153. -/
def execCvtI32F32Mode (u : Pipe) (a : SrcV) (m : Mode) (sat : Bool) (s : State) : Out := cvtOp u .i32 m sat a s

/-- R153. -/
def execCvtI8F32Mode (u : Pipe) (a : SrcV) (m : Mode) (sat : Bool) (s : State) : Out := cvtOp u .i8 m sat a s

/-- A widening conversion to FP32, with elements of width `ef.w` of the source (R154): exact, or RNE from i32. -/
def widenOp (u : Pipe) (ef : ElemFmt) (val : Nat → FpNum) (a : SrcV) (s : State) : Out :=
  vector1 u 3 ef (fun v => vOfLanes fun i => ffF32.rne (val (vElem ef.w v i))) a s

/-- R153. -/
def execCvtF32Bf16 (u : Pipe) (a : SrcV) (s : State) : Out := widenOp u efBf16 ffBf16.value a s

/-- R153. -/
def execCvtF32F16 (u : Pipe) (a : SrcV) (s : State) : Out := widenOp u efF16 ffF16.value a s

/-- R153. -/
def execCvtF32E4m3 (u : Pipe) (a : SrcV) (s : State) : Out := widenOp u efE4m3 ffE4m3.value a s

/-- R153. -/
def execCvtF32E5m2 (u : Pipe) (a : SrcV) (s : State) : Out := widenOp u efE5m2 ffE5m2.value a s

/-- R153. -/
def execCvtF32I32 (u : Pipe) (a : SrcV) (s : State) : Out := widenOp u efI32 (fun x => numOfInt (sintOf 32 x)) a s

/-- R153. -/
def execCvtF32I8 (u : Pipe) (a : SrcV) (s : State) : Out := widenOp u efI8 (fun x => numOfInt (sintOf 8 x)) a s

/-- Four NX blocks of the 64 lanes, and the lanes clamped (R156). -/
def packNx (k : Nat) (m : Mode) (w : BitVec 32) (src : Vec) : Vec × List Nat :=
  let blk (b : Nat) : Nat × List Nat :=
    nxEncode k (fun i => rndOf m .rna w (16 * b + i)) ((rangeFrom (16 * b) 16).map fun i => f32 (lane src i))
  let bs := (rangeFrom 0 4).map blk
  (vOfElems (nxBits k) (bs.map (·.1)), bs.zipIdx.flatMap fun p => p.1.2.map (16 * p.2 + ·))

/-- Four NX blocks decoded into lanes (R156). -/
def unpkNx (k : Nat) (v : Vec) : Vec :=
  vOfLanes fun i => ffF32.rne (nxElem k (vElem (nxBits k) v (i / 16)) (i % 16))

/-- `pack.<x>` with its mode. -/
def packOp (u : Pipe) (k : Nat) (m : Mode) (a : SrcV) (s : State) : Out :=
  convOp u (modeDraws m) (packNx k m (genWord s.me.seed)) a s

/-- R156. -/
def execPackNx2 (u : Pipe) (a : SrcV) (s : State) : Out := packOp u 2 .dflt a s

/-- R156: `.sat` has no effect. -/
def execPackNx2Mode (u : Pipe) (a : SrcV) (m : Mode) (_sat : Bool) (s : State) : Out := packOp u 2 m a s

/-- R156. DESIGN CHOICE (log entry 59): the unpacking instructions read a broadcast scalar or an immediate as a 32-bit integer in each lane, since
their NX element names no width of its own (R51). -/
def execUnpkNx2 (u : Pipe) (a : SrcV) (s : State) : Out := vector1 u 3 efI32 (unpkNx 2) a s

/-- R156. -/
def execPackNx4 (u : Pipe) (a : SrcV) (s : State) : Out := packOp u 4 .dflt a s

/-- R156: `.sat` has no effect. -/
def execPackNx4Mode (u : Pipe) (a : SrcV) (m : Mode) (_sat : Bool) (s : State) : Out := packOp u 4 m a s

/-- R156. -/
def execUnpkNx4 (u : Pipe) (a : SrcV) (s : State) : Out := vector1 u 3 efI32 (unpkNx 4) a s

/-- R156. -/
def execPackNx7 (u : Pipe) (a : SrcV) (s : State) : Out := packOp u 7 .dflt a s

/-- R156: `.sat` has no effect. -/
def execPackNx7Mode (u : Pipe) (a : SrcV) (m : Mode) (_sat : Bool) (s : State) : Out := packOp u 7 m a s

/-- R156. -/
def execUnpkNx7 (u : Pipe) (a : SrcV) (s : State) : Out := vector1 u 3 efI32 (unpkNx 7) a s

/-! ### Reductions, scans and permutes -/

/-- The tree's next level (R80). -/
def treeLevel (f : Nat → Nat → Nat) : List Nat → List Nat
  | x :: y :: l => f x y :: treeLevel f l
  | l => l

/-- The levels of the tree from the lanes up: node[0], node[1], … (R80). -/
def treeLevels (f : Nat → Nat → Nat) : Nat → List Nat → List (List Nat)
  | 0, l => [l]
  | n + 1, l => l :: treeLevels f n (treeLevel f l)

/-- node[level][j]. -/
def node (t : List (List Nat)) (level j : Nat) : Nat := (t.getD level []).getD j 0

/-- The blocks of `n` lanes from `start`, largest first, combined from left to right (R81). -/
def scanGo (f : Nat → Nat → Nat) (t : List (List Nat)) (n : Nat) : Nat → Nat → Option Nat → Nat
  | 0, start, acc =>
    if bitOf n 0 then (match acc with
      | none => node t 0 start
      | some x => f x (node t 0 start))
    else acc.getD 0
  | b + 1, start, acc =>
    if bitOf n (b + 1) then
      let x := node t (b + 1) (start / 2 ^ (b + 1))
      scanGo f t n b (start + 2 ^ (b + 1)) (some (match acc with
        | none => x
        | some y => f y x))
    else scanGo f t n b start acc

/-- The inclusive scan at lane `i` (R81). -/
def scanLane (f : Nat → Nat → Nat) (t : List (List Nat)) (i : Nat) : Nat := scanGo f t (i + 1) 6 0 none

/-- The operators on FP32 patterns (R80, R82) and on 32-bit integers (R157). -/
def redF : RedOp → Nat → Nat → Nat
  | .add => f32Add
  | .max => f32Max
  | .min => f32Min
/-- See `redF`. -/
def redI : RedOp → Nat → Nat → Nat
  | .add => fun x y => (x + y) % 2 ^ 32
  | .max => fun x y => if sintOf 32 x < sintOf 32 y then y else x
  | .min => fun x y => if sintOf 32 y < sintOf 32 x then y else x

/-- The identities of the exclusive scans (R81, R158). -/
def redIdF : RedOp → Nat
  | .add => 0
  | .max => 0xFF800000
  | .min => 0x7F800000
/-- See `redIdF`. -/
def redIdI : RedOp → Nat
  | .add => 0
  | .max => 0x80000000
  | .min => 0x7FFFFFFF

/-- The reduction of the 64 lanes, in every lane (R157). -/
def redVec (f : Nat → Nat → Nat) (v : Vec) : Vec := vFill 32 (node (treeLevels f 6 (lanes64.map (lane v))) 6 0)

/-- A NaN that a scan hands on from one lane is the canonical NaN (R62). -/
def nanF32 (x : Nat) : Nat := if f32 x = .nan then ffF32.nan else x

/-- The scan of the 64 lanes (R158). -/
def scanVec (f : Nat → Nat → Nat) (ident : Nat) (ex : Bool) (v : Vec) : Vec :=
  let t := treeLevels f 6 (lanes64.map (lane v))
  vOfLanes fun i => if ex then (if i = 0 then ident else scanLane f t (i - 1)) else scanLane f t i

/-- R157. -/
def execRedF32 (u : Pipe) (a : SrcV) (op : RedOp) (s : State) : Out := vector1 u 6 efF32 (redVec (redF op)) a s

/-- R157. -/
def execRedI32 (u : Pipe) (a : SrcV) (op : RedOp) (s : State) : Out := vector1 u 6 efI32 (redVec (redI op)) a s

/-- R158. -/
def execScanF32 (u : Pipe) (a : SrcV) (op : RedOp) (ex : Bool) (s : State) : Out :=
  vector1 u 6 efF32 (fun v => vMap1 32 nanF32 (scanVec (redF op) (redIdF op) ex v)) a s

/-- R158. -/
def execScanI32 (u : Pipe) (a : SrcV) (op : RedOp) (ex : Bool) (s : State) : Out :=
  vector1 u 6 efI32 (scanVec (redI op) (redIdI op) ex) a s

/-- R159. -/
def execPerm (u : Pipe) (a : SrcV) (i : IdxV) (s : State) : Out :=
  runSlot (pipeSlot u) ((gateV1 s a).and (gateIdx s i))
    (fun t => t.upd fun c =>
      let v := readV t efI32 a
      let x := readIdx t i
      ((c.pushVq 3 (vOfLanes fun j => lane v (lane x j % 64))).popV (vPops a) (idxPops i)).drawIf (vDraws a)) s

/-- A permute with a lane count (R145, R159). -/
def cntOp (u : Pipe) (f : Vec → Nat → Vec) (a : SrcV) (n : CntV) (s : State) : Out :=
  runSlot (pipeSlot u) ((gateV1 s a).and (gateCnt s n))
    (fun t => t.upd fun c => ((c.pushVq 3 (f (readV t efI32 a) (readCnt t n))).popV (vPops a) none).drawIf (vDraws a)) s

/-- R159. -/
def execBcast (u : Pipe) (a : SrcV) (n : CntV) (s : State) : Out := cntOp u (fun v n => vFill 32 (lane v (n % 64))) a n s

/-- R159. -/
def execLrot (u : Pipe) (a : SrcV) (n : CntV) (s : State) : Out :=
  cntOp u (fun v n => vOfLanes fun i => lane v ((i + 64 - n % 64) % 64)) a n s

/-! ### Latch writes and moves -/

/-- Sets latch A of a pipe. -/
def setLatA (u : Pipe) (v : Vec) (l : Latches) : Latches :=
  match u with
  | .v0 => { l with v0A := v }
  | .v1 => { l with v1A := v }
/-- Sets latch B of a pipe. -/
def setLatB (u : Pipe) (v : Vec) (l : Latches) : Latches :=
  match u with
  | .v0 => { l with v0B := v }
  | .v1 => { l with v1B := v }

/-- R39. DESIGN CHOICE (log entry 59): an operation that names no element format, as this one and `lat.ab`, the moves, `sel`, `perm`, `bcast`, `lrot` and
the unpacking, reads a broadcast scalar or an immediate as a 32-bit integer in each lane (R51). -/
def execVLatA (u : Pipe) (a : SrcV) (s : State) : Out :=
  runSlot (pipeSlot u) (gateV1 s a)
    (fun t => t.upd fun c =>
      ((c.modLat (setLatA u (readV t efI32 a))).popV (vPops a) none).drawIf (vDraws a)) s

/-- R39. -/
def execVLatAb (u : Pipe) (a b : SrcV) (s : State) : Out :=
  runSlot (pipeSlot u) (gateV2 s a b)
    (fun t => t.upd fun c =>
      ((c.modLat fun l => setLatB u (readV t efI32 b) (setLatA u (readV t efI32 a) l)).popV (vPops a) (vPops b)).drawIf
        (vDraws a || vDraws b)) s

/-- R40: held while the register is scoreboarded. -/
def execMovV (u : Pipe) (n : Fin 32) (a : SrcV) (s : State) : Out :=
  runSlot (pipeSlot u) ((gateV1 s a).and (gateWV s.me n))
    (fun t => t.upd fun c => ((c.setV n (readV t efI32 a)).popV (vPops a) none).drawIf (vDraws a)) s

/-- R40: bit i is set where lane i is not zero. -/
def execVMovP (u : Pipe) (n : Fin 8) (a : SrcV) (s : State) : Out :=
  runSlot (pipeSlot u) (gateV1 s a)
    (fun t => t.upd fun c =>
      let v := readV t efI32 a
      let m := lanes64.foldl (fun w i => if lane v i ≠ 0 then w ||| (1#64 <<< i) else w) 0
      ((c.setP n m).popV (vPops a) none).drawIf (vDraws a)) s

end Sys2Proof.Machine
end

