-- ==== Sys2Proof/Machine/Matrix.lean ====
section
/-! DEFINITION. The matrix unit: operand slots, accumulator tiles, tile queues and the array (R169 to R189), the latches of the M, C
and K units (R39), and what comes about in a core at fixed cycles. -/
namespace Sys2Proof.Machine

/-! ### Elements of an operand slot (R169) -/

/-- Depth K of a format. -/
def fmtDepth : Fmt → Nat
  | .bf16 => 64
  | .f16 => 64
  | .e4m3 => 128
  | .e5m2 => 128
  | .i8 => 128
  | .nx7 => 112
  | .nx4 => 160
  | .nx2 => 256

/-- The number of a format (R95). -/
def fmtNum : Fmt → Nat
  | .bf16 => 0
  | .f16 => 1
  | .e4m3 => 2
  | .e5m2 => 3
  | .i8 => 4
  | .nx7 => 5
  | .nx4 => 6
  | .nx2 => 7

/-- Mantissa bits of an NX format. -/
def nxOf : Fmt → Option Nat
  | .nx7 => some 7
  | .nx4 => some 4
  | .nx2 => some 2
  | _ => none

/-- The floating format of an element, with its width. -/
def fmtFloat : Fmt → Option (Nat × FF)
  | .bf16 => some (16, ffBf16)
  | .f16 => some (16, ffF16)
  | .e4m3 => some (8, ffE4m3)
  | .e5m2 => some (8, ffE5m2)
  | _ => none

/-- Value of element `k` of a row. -/
def obElem (f : Fmt) (r : ObRow) (k : Nat) : FpNum :=
  match nxOf f, fmtFloat f with
  | some x, _ => nxElem x (r.toNat / 2 ^ (nxBits x * (k / 16)) % 2 ^ nxBits x) (k % 16)
  | none, some (w, g) => g.value (r.toNat / 2 ^ (w * k) % 2 ^ w)
  | none, none => numOfInt (sintOf 8 (r.toNat / 2 ^ (8 * k)))

/-- The exact sum of a block of 16 products (R77 to R79). -/
def blockSum (f : Fmt) (a b : ObRow) (kb : Nat) : FpNum :=
  let ks := rangeFrom (16 * kb) 16
  if f = .i8 then
    numOfInt (ks.foldl (fun (acc : Int) k => acc + sintOf 8 (a.toNat / 2 ^ (8 * k)) * sintOf 8 (b.toNat / 2 ^ (8 * k))) 0)
  else FpNum.sum (ks.map fun k => (obElem f a k).mul (obElem f b k))

/-- One accumulation of a row of A with a row of B (R77). -/
def mmaElem (f : Fmt) (a b : ObRow) (acc : Nat) : Nat :=
  (rangeFrom 0 (fmtDepth f / 16)).foldl (fun acc kb => ffAcc.rne ((ffAcc.value acc).add (blockSum f a b kb))) acc

/-- ACC48 -0. -/
def accMinusZero : Nat := 2 ^ 47

/-- A row of the result (R178). -/
def mmaRow (f : Fmt) (zero : Bool) (a : ObRow) (bs : List ObRow) (old : Row) : Row :=
  rowOfElems ((rangeFrom 0 64).map fun n => mmaElem f a (bs.getD n 0) (if zero then accMinusZero else rowElem old n))

/-- Whether a row holds an infinity or NaN. -/
def rowNonFinite (r : Row) : Bool := (rangeFrom 0 64).any fun c => !(ffAcc.value (rowElem r c)).isFin

/-- Numbers of the 64 rows. -/
def rows64 : List Nat := rangeFrom 0 64

/-- A tile's rows as a table. -/
def rowTab (f : Nat → Row) : Tab Row := rows64.map fun r => (r, f r)

/-! ### M operations -/

/-- An M operation of the acting core. -/
def opM (g : Gate) (f : Core → Core) (s : State) : Out := runSlot 4 g (fun t => t.upd f) s

/-- The fault of a slot that is not CLAIMED (R172). -/
def needClaimed (c : Core) (n : Nat) : Gate :=
  Gate.need (decide ((c.obs n).st = .claimed)) { cls := 0x3, code := 0x03, info := BitVec.ofNat 32 n }

/-- R171. -/
def execOclaim (n : Fin 32) (s : State) : Out :=
  opM (Gate.holdIf (decide ((s.me.obs n).st = .releasing)))
    (fun c => if (c.obs n).st = .free then c.modOb n fun o => { o with st := .claimed } else c) s

/-- R171. -/
def execOrel (n : Fin 32) (s : State) : Out :=
  opM {} (fun c =>
    if (c.obs n).st = .claimed then c.modOb n fun o => { o with st := if c.pendingWork n then .releasing else .free } else c) s

/-- R180. -/
def execAzero (n : Fin 64) (s : State) : Out :=
  opM (Gate.holdIf (s.me.tileBusy n)) (fun c => c.after 4 (.azero n)) s

/-- R181. -/
def execAscale (n : Fin 64) (b : SqG) (s : State) : Out :=
  opM ((gateSg s b).and (Gate.holdIf (s.me.tileBusy n)))
    (fun c => c.after 16 (.ascale n ((readSg s b).setWidth 32))) s

/-- R182. -/
def execApin (n : Fin 64) (s : State) : Out := opM {} (fun c => c.modTile n fun t => { t with pin := true }) s

/-- R182. -/
def execAunpin (n : Fin 64) (s : State) : Out := opM {} (fun c => c.modTile n fun t => { t with pin := false }) s

/-- Enters the rows of a drain: row q is present from cycle c + 2 + q, and the tile is busy until c + 66 (R175). Its 64 positions
come behind those of earlier drains (R185). -/
def Core.drain (c : Core) (n : Fin 64) (q : Fin 4) : Core :=
  ((rangeFrom 0 65).foldl (fun c r => c.after (2 + r) (.drain n q r)) c).modTq q fun t =>
    { t with due := t.due ++ rows64.map fun r => (r, none) }

/-- The rows at the head of a queue's reserved positions that have come join the rows present. -/
def TileQueue.settle (t : TileQueue) : TileQueue :=
  { rows := t.rows ++ (t.due.takeWhile (·.2.isSome)).filterMap (·.2), due := t.due.dropWhile (·.2.isSome) }

/-- Row `r` of a tile comes to the first position that waits for it: rows appear in the order of issue (R185). -/
def TileQueue.put (t : TileQueue) (r : Nat) (x : Row) : TileQueue :=
  { t with due := modFirst (fun p => p.1 == r && p.2.isNone) (fun p => (p.1, some x)) t.due }.settle

/-- R185. -/
def execAdrain (n : Fin 64) (q : Fin 4) (s : State) : Out :=
  let t := s.me.tq q
  opM ((Gate.holdIf (s.me.tileBusy n)).and
      (Gate.need (decide (t.rows.length + t.due.length + 64 ≤ 128)) { cls := 0x3, code := 0x02, info := BitVec.ofNat 32 q }))
    (fun c => c.drain n q) s

/-- R187: the status as it stood when the group began. -/
def execAstat (n : Fin 64) (s : State) : Out := opM {} (fun c => c.pushSq 2 (c.atStart.tileStatus n)) s

/-- Multiplies that wait for the array (R176). -/
def Core.mmaWaiting (c : Core) : Nat := (c.mmas.filter fun m => m.rows.isNone).length

/-- Enters a multiply: it starts when the array is free of the one before it (R176). -/
def Core.startMma (c : Core) (f : Fmt) (zero : Bool) (n : Fin 64) (a b : Fin 32) : Core :=
  let t := match c.lastMma with
    | none => c.cyc
    | some p => max c.cyc (p + 64)
  let m : MmaOp := { id := c.nextId, f := f, tile := n, a := a, b := b, zero := zero, start := t }
  (({ c with mmas := c.mmas ++ [m], lastMma := some t, nextId := c.nextId + 1 }.after (t - c.cyc) .mmaStart).after
    (t + 64 - c.cyc) .mmaFinish)

/-- A multiply (R172, R177). -/
def mmaOp (f : Fmt) (zero : Bool) (n : Fin 64) (a b : Fin 32) (s : State) : Out :=
  let c := s.me
  opM ((Gate.holdIf (c.otherBusy n || c.atoOn a || c.atoOn b || decide (2 ≤ c.mmaWaiting))).and
      ((needClaimed c a).and (needClaimed c b)))
    (fun c => c.startMma f zero n a b) s

/-- R178. -/
def execMma (f : Fmt) (n : Fin 64) (a b : Fin 32) (s : State) : Out := mmaOp f false n a b s

/-- R178. -/
def execMmz (f : Fmt) (n : Fin 64) (a b : Fin 32) (s : State) : Out := mmaOp f true n a b s

/-- R183: the words of `.sr` are consumed at commit (R76). -/
def execAto (f : Fmt) (m : Mode) (sat : Bool) (o : Fin 32) (n : Fin 64) (s : State) : Out :=
  let c := s.me
  opM ((Gate.holdIf (c.tileBusy n || c.pendingWork o)).and (needClaimed c o))
    (fun c =>
      let (ws, seed) := if modeDraws m then genWords 64 c.seed else ([], c.seed)
      { c with seed := seed }.after 16 (.ato f m sat o n (c.bank.lat.mA.setWidth 2) ws)) s

/-! ### Operand latches of the M, C and K units -/

/-- The slot of a unit. -/
def unitSlot : MckUnit → Nat
  | .m => 4
  | .c0 => 5
  | .c1 => 6
  | .k => 7

/-- Writes latch A, or latches A and B, of a unit. -/
def Latches.setA (l : Latches) (u : MckUnit) (a : Word) : Latches :=
  match u with
  | .m => { l with mA := a }
  | .c0 => { l with c0A := a }
  | .c1 => { l with c1A := a }
  | .k => { l with kA := a }
/-- See `Latches.setA`. -/
def Latches.setB (l : Latches) (u : MckUnit) (b : Word) : Latches :=
  match u with
  | .m => { l with mB := b }
  | .c0 => { l with c0B := b }
  | .c1 => { l with c1B := b }
  | .k => { l with kB := b }

/-- R39. -/
def execMckLatA (u : MckUnit) (a : Src) (s : State) : Out :=
  runSlot (unitSlot u) (gateSrc s a)
    (fun t => t.upd fun c => (c.modLat fun l => l.setA u (readSrc t a)).drawIf (srcDraws a)) s

/-- R39. -/
def execMckLatAb (u : MckUnit) (a b : Src) (s : State) : Out :=
  runSlot (unitSlot u) ((gateSrc s a).and (gateSrc s b))
    (fun t => t.upd fun c =>
      (c.modLat fun l => (l.setA u (readSrc t a)).setB u (readSrc t b)).drawIf (srcDraws a || srcDraws b)) s

/-! ### What comes about at fixed cycles -/

/-- The first event of a core's calendar that is due and of a kind comes about; without one nothing does. -/
def fireCal (i : Nat) (p : CalEv → Bool) (f : CalEv → State → State) (s : State) : Out :=
  let c := s.core i
  match c.cal.find? fun e => decide (e.1 ≤ c.cyc) && p e.2 with
  | none => .next s
  | some e =>
    .next (f e.2 (s.modCore i fun c => { c with cal := eraseFirst (fun e => decide (e.1 ≤ c.cyc) && p e.2) c.cal }))

/-- Whether an event makes a queue position ready. -/
def CalEv.isReady : CalEv → Bool
  | .sqReady _ _ => true
  | .vqReady _ _ => true
  | _ => false

/-- A queue position of its bank becomes ready (R44, R45). -/
def Core.ready (c : Core) (e : CalEv) : Core :=
  match e with
  | .sqReady h id => if h then { c with hand := c.hand.sqReady id } else { c with prog := c.prog.sqReady id }
  | .vqReady h id => if h then { c with hand := c.hand.vqReady id } else { c with prog := c.prog.vqReady id }
  | _ => c

/-- RESULT_READY (R44, R108). -/
def execResultReady (c : CoreId) (s : State) : Out :=
  fireCal c CalEv.isReady (fun e s => s.modCore c fun k => k.ready e) s

/-- The oldest waiting multiply takes the array and reads its rows. DESIGN CHOICE (log entry 79): it reads all of them in this cycle; R173 leaves open
whether a row that a copy command is writing is read as the old one or the new. -/
def Core.beginMma (k : Core) (i : Nat) : Core :=
  let rowsOf (n : Fin 32) : List ObRow := rows64.map fun r => obRow (obKey i n) (k.obs n) r
  { k with mmas := modFirst (fun m => m.rows.isNone) (fun m => { m with rows := some (rowsOf m.a, rowsOf m.b) }) k.mmas }

/-- MMA_START (R173, R176). -/
def execMmaStart (c : CoreId) (s : State) : Out :=
  fireCal c (· == .mmaStart) (fun _ s => s.modCore c fun k => k.beginMma c) s

/-- The tile that a multiply leaves (R178, R187). -/
def mmaTile (m : MmaOp) (key : Nat) (t : Tile) : Tile :=
  let (as, bs) := m.rows.getD ([], [])
  let rs := rowTab fun r => mmaRow m.f m.zero (as.getD r 0) bs (tileRow key t r)
  let nf := rs.any fun p => rowNonFinite p.2
  { t with rows := rs
           mcnt := if m.zero then 1 else if t.mcnt = 0xFFFF then 0xFFFF else t.mcnt + 1
           fv := true
           fmt := BitVec.ofNat 3 (fmtNum m.f)
           sat := !m.zero && t.sat
           nf := nf || (!m.zero && t.nf) }

/-- The oldest multiply leaves its tile and its slots (R178). -/
def Core.endMma (k : Core) (i : Nat) : Core :=
  match k.mmas with
  | [] => k
  | m :: l => ({ k with mmas := l }.modTile m.tile (mmaTile m (tileKey i m.tile))).settleObs

/-- MMA_FINISH (R178). -/
def execMmaFinish (c : CoreId) (s : State) : Out :=
  fireCal c (· == .mmaFinish) (fun _ s => s.modCore c fun k => k.endMma c) s

/-- Writes elements of width `w` bytes into a row from element `k0` on. -/
def rowPut (r : ObRow) (w k0 : Nat) (l : List Nat) : ObRow :=
  let n := 8 * w
  let lo := n * k0
  let hi := lo + n * l.length
  let body := l.foldr (fun x acc => x % 2 ^ n + 2 ^ n * acc) 0
  BitVec.ofNat 1024 (r.toNat % 2 ^ lo + body * 2 ^ lo + r.toNat / 2 ^ hi * 2 ^ hi)

/-- The target of a conversion into an operand slot that is no NX format (R183). -/
def atoTarget (f : Fmt) : Target :=
  match fmtFloat f with
  | some (w, g) => fTarget w (if w = 16 then .rne else .rna) g
  | none => iTarget 8 .rna

/-- A row of an `ato`: the new slot row, and whether an element was clamped (R183). -/
def atoRow (f : Fmt) (m : Mode) (sat : Bool) (h : Nat) (w : BitVec 32) (src : Row) (old : ObRow) : ObRow × Bool :=
  let n := min 64 (fmtDepth f - 64 * h)
  let xs := (rangeFrom 0 n).map fun c => ffAcc.value (rowElem src c)
  match nxOf f with
  | some k =>
    let blks := (rangeFrom 0 (n / 16)).map fun b =>
      nxEncode k (fun i => rndOf m .rna w (16 * b + i)) ((xs.drop (16 * b)).take 16)
    (rowPut old (nxBits k / 8) (4 * h) (blks.map (·.1)), blks.any fun b => !b.2.isEmpty)
  | none =>
    let t := atoTarget f
    let cs := xs.zipIdx.map fun (x, c) => t.conv (rndOf m t.dflt w c) sat x
    (rowPut old (t.w / 8) (64 * h) (cs.map (·.bits)), cs.any (·.clamp))

/-- An `ato` writes its slot and reports saturation in its tile (R183). -/
def Core.finishAto (c : Core) (i : Nat) (f : Fmt) (m : Mode) (sat : Bool) (o : Fin 32) (n : Fin 64) (h : BitVec 2)
    (ws : List (BitVec 32)) : Core :=
  let t := c.tile n
  let ob := c.obs o
  if fmtDepth f ≤ 64 * h.toNat then c
  else
    let rs := rows64.map fun q =>
      (q, atoRow f m sat h.toNat (ws.getD q 0) (tileRow (tileKey i n) t q) (obRow (obKey i o) ob q))
    (c.modOb o fun x => { x with rows := rs.map fun p => (p.1, p.2.1) }).modTile n fun t =>
      { t with sat := t.sat || rs.any fun p => p.2.2 }

/-- A tile scaled by an FP32 value (R181). -/
def scaleTile (key : Nat) (sc : BitVec 32) (t : Tile) : Tile :=
  let rs := rowTab fun r => rowOfElems ((rangeFrom 0 64).map fun c =>
    ffAcc.rne ((ffAcc.value (rowElem (tileRow key t r) c)).mul (f32 sc.toNat)))
  { t with rows := rs, nf := t.nf || rs.any fun p => rowNonFinite p.2 }

/-- Whether an event ends a tile operation other than a multiply or a `wrow`. -/
def CalEv.isTileEnd : CalEv → Bool
  | .azero _ => true
  | .ascale _ _ => true
  | .ato _ _ _ _ _ _ _ => true
  | .drain _ _ r => r == 64
  | _ => false

/-- A tile operation ends (R180, R181, R183, R185). -/
def Core.endTileOp (k : Core) (i : Nat) (e : CalEv) : Core :=
  (match e with
  | .azero n => k.modTile n fun t =>
      { t with rows := rowTab fun _ => 0, mcnt := 0, fv := false, fmt := 0, nf := false, sat := false }
  | .ascale n sc => k.modTile n (scaleTile (tileKey i n) sc)
  | .ato f m sat o n h ws => k.finishAto i f m sat o n h ws
  | _ => k).settleObs

/-- TILE_OPERATION_FINISH (R180, R181, R183, R185). -/
def execTileOperationFinish (c : CoreId) (s : State) : Out :=
  fireCal c CalEv.isTileEnd (fun e s => s.modCore c fun k => k.endTileOp c e) s

/-- ADRAIN_ROW_PRESENT (R185). -/
def execAdrainRowPresent (c : CoreId) (s : State) : Out :=
  fireCal c (fun e => match e with
      | .drain _ _ r => r != 64
      | _ => false)
    (fun e s => s.modCore c fun k =>
      match e with
      | .drain n q r => k.modTq q fun t => t.put r (tileRow (tileKey c n) (k.tile n) r)
      | _ => k) s

/-- Whether an operation other than a `wrow` keeps a tile busy. -/
def Core.wrowBlocked (c : Core) (n : Nat) : Bool :=
  c.mmaOn n || c.cal.any fun e => e.2.onTile n && (match e.2 with
    | .wrow _ _ _ => false
    | _ => true)

/-- A row lands in its tile (R168). -/
def Core.landRow (k : Core) (n : Fin 64) (r : Fin 64) (v : Vec) : Core :=
  let row := rowOfLanes v
  k.modTile n fun t => { t with rows := tabSet t.rows r row, nf := t.nf || rowNonFinite row }

/-- Whether an event of the calendar is a `wrow` whose tile is busy: it stays where it stands in the calendar, so that the rows of a tile
land in the order in which they were issued (R168). -/
def Core.wrowWaits (c : Core) (e : CalEv) : Bool :=
  match e with
  | .wrow n _ _ => c.wrowBlocked n
  | _ => false

/-- WROW_LAND (R168): the oldest `wrow` that is due and whose tile is not busy lands. -/
def execWrowLand (c : CoreId) (s : State) : Out :=
  let k := s.core c
  fireCal c (fun e => match e with
      | .wrow _ _ _ => !k.wrowWaits e
      | _ => false)
    (fun e s => s.modCore c fun k =>
      match e with
      | .wrow n r v => k.landRow n r v
      | _ => k) s

/-- The tiles of a core once every matrix operation that has been issued is done: multiplies and tile operations in order, then rows,
which wait for them (R122, R182: a halt waits for none of these, and the entry after it finds a pinned tile with their results). -/
def Core.finishTiles (k : Core) (i : Nat) : Core :=
  let k1 := k.cal.foldl (fun k e =>
    match e.2 with
    | .mmaStart => k.beginMma i
    | .mmaFinish => k.endMma i
    | .azero _ => k.endTileOp i e.2
    | .ascale _ _ => k.endTileOp i e.2
    | .ato _ _ _ _ _ _ _ => k.endTileOp i e.2
    | _ => k) k
  k.cal.foldl (fun k e =>
    match e.2 with
    | .wrow n r v => k.landRow n r v
    | _ => k) k1

end Sys2Proof.Machine
end

