-- ==== Sys2Proof/Machine/Sync.lean ====
section
/-! DEFINITION. Synchronisation in a team: vectors and Lamport clocks (R272, R278), completion counters (R190 to R192), circular buffers
(R206 to R209), barrier objects (R210 to R217) and wake comparators (R218, R219). -/
namespace Sys2Proof.Machine

/-! ### Vectors and clocks -/

/-- Elementwise maximum (R272). -/
def vecMax (a b : Tab (BitVec 24)) : Tab (BitVec 24) :=
  b.foldl (fun m p => tabSet m p.1 (let x := tabGet 0 m p.1; if x.toNat < p.2.toNat then p.2 else x)) a

/-- Two vectors merged. -/
def Clocks.merge (a b : Clocks) : Clocks := { v := vecMax a.v b.v, clk := wordMax a.clk b.clk }

/-- What a release of core `i` carries: its vector with its own entry at RS + 1, and its clock (R272, R278). -/
def carryOf (s : State) (i : Nat) : Clocks :=
  { v := tabSet (s.core i).vclk ((s.team i).index i) ((s.core i).rs + 1), clk := (s.core i).lclk }

/-- A release advances the serial. -/
def Core.released (c : Core) : Core := { c with rs := c.rs + 1 }

/-- An acquire of what `k` carries (R272, R278). -/
def Core.acquire (c : Core) (k : Clocks) : Core :=
  { c with vclk := vecMax c.vclk k.v, lclk := wordMax c.lclk (k.clk + 1) }

/-! ### Checks of the C slots -/

/-- A failed C-slot check (R202, R357). -/
def checkC (n : Nat) (faddr : Word := 0) : Trap := { cls := 0x9, code := 0x04, info := BitVec.ofNat 32 n, faddr := faddr }

/-- The gate of numbered checks: the first that holds is reported. -/
def checksC (l : List (Nat × Bool)) : Gate :=
  match l.find? (·.2) with
  | none => {}
  | some (n, _) => { trap := some (checkC n) }

/-- The trap of a command read (R451). -/
def cmdTrap (reason : BitVec 4) (a : Word) : Trap := transTrap 5 { reason := reason } a

/-- The fault of a command read of an object that must lie in the local scratchpad (R451). DEDUCED (log entry 28): a peer address, which R249 closes to such
objects, gives reason 2 also where it lies outside the team. -/
def cmdLocal (a : Word) (len align : Nat) : Option (BitVec 4) :=
  if a.toNat % align ≠ 0 then some 1
  else
    match decodeEa a, decodeEa (a + BitVec.ofNat 64 (len - 1)) with
    | .local _, .local _ => none
    | _, _ => some 2

/-- A command's read of the core's own scratchpad comes after the core's earlier accesses to it (R112, R194, R240): those that go there by a peer
address, and an acquiring atomic. -/
def gateOwn (s : State) : Gate := Gate.holdIf (s.me.acqPending || s.me.selfPending s.cur)

/-- The gate of a command read (R451), and of the order and race check of the read (R194, R275). -/
def gateCmd (s : State) (a : Word) (len align : Nat) : Gate :=
  match cmdLocal a len align with
  | some r => { trap := some (cmdTrap r a) }
  | none =>
    { gateOwn s with trap := (granRace s s.cur s.cur a.toNat len .read).map fun t => raceTrap .read t a }

/-- The bytes of an object in the local scratchpad as a command of the group reads it. -/
def cmdBytes (s : State) (a : Word) (n : Nat) : Nat := bytesNat ((rangeFrom a.toNat n).map (s.spByteBefore s.cur))

/-- Latch A of an engine's unit (R39). -/
def engLatA (c : Core) : Eng → Word
  | .c0 => c.bank.lat.c0A
  | .c1 => c.bank.lat.c1A

/-! ### Counters -/

/-- R192. -/
def execKSet (e : Eng) (n : Fin 16) (b : SqG) (s : State) : Out :=
  runSlot (engSlot e) (gateSg s b) (fun t => t.upd fun c => c.setK n ((readSg t b).setWidth 32)) s

/-- `k.add`: a result below 0 gives 0 and sets UND (R192). -/
def Core.kAdd (c : Core) (n : Nat) (v : Int) : Core :=
  let r := (c.getK n).toNat + v
  if r < 0 then { c.setK n 0 with kund := c.kund ||| (1#16 <<< n) } else c.setK n (BitVec.ofInt 32 r)

/-- R191, R192. -/
def execKAdd (e : Eng) (n : Fin 16) (b : SqG) (s : State) : Out :=
  let v := ((readSg s b).setWidth 32).toInt
  runSlot (engSlot e)
    ((gateSg s b).and (checksC [(0x0B, decide ((2 ^ 32 : Int) ≤ (s.me.getK n).toNat + v))]))
    (fun t => t.upd fun c => c.kAdd n v) s

/-! ### Wake comparators -/

/-- R218, R219: the comparator matches from the next cycle on. -/
def execWkArm (e : Eng) (w : Fin 8) (a b : SqG) (s : State) : Out :=
  let lo := (readSg s a).toNat
  let hi := (readSg s b).toNat
  runSlot (engSlot e)
    (((gateSg s a).and (gateSg s b)).and (checksC [(0x30, decide (0x60000 ≤ lo ∨ hi ≤ lo ∨ 0x60000 < hi))]))
    (fun t => t.upd fun c =>
      { c with wcs := tabMod {} c.wcs w fun x => { x with armed := true, since := c.cyc + 1, lo := lo, hi := hi } }) s

/-- R218. -/
def execWkDisarm (e : Eng) (w : Fin 8) (s : State) : Out :=
  runSlot (engSlot e) {} (fun t => t.upd fun c => { c with wcs := tabSet c.wcs w {} }) s

/-- WAKE_TOKEN_ENQUEUE (R219): the lowest comparator's pending token enters the queue as space frees. -/
def execWakeTokenEnqueue (c : CoreId) (s : State) : Out :=
  .next (s.modCore c fun k =>
    if k.wakeq.length < 16 then
      match k.wcs.find? fun p => p.2.pend.isSome with
      | some (w, x) =>
        { k with wakeq := k.wakeq ++ [(BitVec.ofNat 3 w, x.pend.getD 0)], wcs := tabSet k.wcs w { x with pend := none } }
      | none => k
    else k)

/-! ### Circular buffers -/

/-- The count operand of a buffer operation (R207). -/
def cbCount (s : State) (b : SqG) : Nat := (readSg s b).toNat % 2 ^ 13
/-- Whether its higher bits are set. -/
def cbCountBad (s : State) (b : SqG) : Bool := decide (2 ^ 13 ≤ (readSg s b).toNat)

/-- The checks common to the four operations (R207). -/
def cbChecks (s : State) (n : Nat) (b : SqG) : List (Nat × Bool) :=
  [(0x10, !(s.me.cb n).en), (0x11, cbCountBad s b)]

/-- A commit by core `by_`, or by a producer command that it issued (R207 to R209, R272). DESIGN CHOICE (log entry 56): where agents that interleave,
which R209 leaves to the program, have left fewer granules to commit, CMT stops at CLM. -/
def commitCb (owner n k : Nat) (by_ : Nat) (s : State) : State :=
  if k = 0 then s
  else
    let v := carryOf s by_
    (s.modCore owner fun c => c.modCb n fun b =>
      { b with cmt := BitVec.ofNat 13 (min b.clm.toNat (b.cmt.toNat + k)), vec := b.vec.merge v }).modCore by_ Core.released

/-- A retire (R207, R208), of no more than AWT granules (log entry 56). -/
def CircBuf.retire (b : CircBuf) (k : Nat) : CircBuf :=
  let k := min k b.awt.toNat
  { b with head := BitVec.ofNat 13 ((b.head.toNat + k) % b.size.toNat)
           awt := b.awt - BitVec.ofNat 13 k, cmt := b.cmt - BitVec.ofNat 13 k, clm := b.clm - BitVec.ofNat 13 k }

/-- Whether somebody else waits ahead of the owner's C slot. -/
def aheadOfOwn (l : List CbWho) : Bool :=
  match l with
  | [] => false
  | w :: _ => w != .own

/-- The owner's C slot takes its place among those who wait. -/
def joinOwn (l : List CbWho) : List CbWho := if l.contains .own then l else l ++ [.own]

/-- Whether a claim, or an await, of `k` granules must wait (R207, R208). -/
def CircBuf.claimHeld (q : CircBuf) (k : Nat) : Bool := k != 0 && (decide (q.size.toNat < q.clm.toNat + k) || aheadOfOwn q.claims)
/-- See `CircBuf.claimHeld`. -/
def CircBuf.awaitHeld (q : CircBuf) (k : Nat) : Bool := k != 0 && (decide (q.cmt.toNat < q.awt.toNat + k) || aheadOfOwn q.awaits)

/-- A buffer operation that waits in the order of its coming: while it is held for the buffer alone it stands among those who wait. -/
def cbWait (e : Eng) (n : Fin 8) (g : Gate) (held : Bool) (join leave : CircBuf → CircBuf) (eff : State → State) (s : State) : Out :=
  if s.me.issuing = false ∧ g.q = false ∧ g.o = false ∧ g.trap = none ∧ held = true then
    .next (s.upd fun c => { c.modCb n join with held := { other := true } })
  else runSlot (engSlot e) (g.and (Gate.holdIf held)) (fun t => (eff t).upd fun c => c.modCb n leave) s

/-- R207, R208: held while earlier claims wait or the buffer is full. -/
def execCbClaim (e : Eng) (n : Fin 8) (b : SqG) (s : State) : Out :=
  let q := s.me.cb n
  let k := cbCount s b
  let chk := checksC (cbChecks s n b ++ [(0x11, decide (q.size.toNat < k))])
  cbWait e n ((gateSg s b).and chk) (chk.trap.isNone && q.claimHeld k)
    (fun x => { x with claims := joinOwn x.claims }) (fun x => { x with claims := x.claims.filter (· != .own) })
    (fun t => t.upd fun c =>
      (c.pushSq 2 (BitVec.ofNat 64 (q.gaddr q.clm.toNat))).modCb n fun x => { x with clm := x.clm + BitVec.ofNat 13 k }) s

/-- R207, R209: as a release, a commit of granules comes after the core's earlier accesses (R267). -/
def execCbCommit (e : Eng) (n : Fin 8) (b : SqG) (s : State) : Out :=
  let q := s.me.cb n
  let k := cbCount s b
  runSlot (engSlot e)
    (((gateSg s b).and (checksC (cbChecks s n b ++ [(0x12, decide (q.clm.toNat - q.cmt.toNat < k))]))).and
      (Gate.holdIf (k != 0 && s.me.accPending)))
    (fun t => commitCb t.cur n k t.cur t) s

/-- R207 to R209: an acquire of the buffer's vector. -/
def execCbAwait (e : Eng) (n : Fin 8) (b : SqG) (s : State) : Out :=
  let q := s.me.cb n
  let k := cbCount s b
  let chk := checksC (cbChecks s n b ++ [(0x11, decide (q.size.toNat < k))])
  cbWait e n ((gateSg s b).and chk) (chk.trap.isNone && q.awaitHeld k)
    (fun x => { x with awaits := joinOwn x.awaits }) (fun x => { x with awaits := x.awaits.filter (· != .own) })
    (fun t => t.upd fun c =>
      let c1 := (c.pushSq 2 (BitVec.ofNat 64 (q.gaddr q.awt.toNat))).modCb n fun x => { x with awt := x.awt + BitVec.ofNat 13 k }
      if k = 0 then c1 else c1.acquire q.vec) s

/-- R207. -/
def execCbRetire (e : Eng) (n : Fin 8) (b : SqG) (s : State) : Out :=
  let q := s.me.cb n
  let k := cbCount s b
  runSlot (engSlot e)
    ((gateSg s b).and (checksC (cbChecks s n b ++ [(0x13, decide (q.awt.toNat < k))])))
    (fun t => t.upd fun c => if k = 0 then c else c.modCb n fun x => x.retire k) s

/-! ### Barrier objects -/

/-- A barrier object (R210). -/
structure BarObj where
  bya   : BitVec 32
  exb   : BitVec 32
  later : BitVec 16
  last  : BitVec 9
  trp   : Bool
  ovr   : Bool
  bm    : Bool
  ph    : BitVec 4
  arr   : BitVec 16
  exp   : BitVec 16
  deriving DecidableEq, Repr

/-- The object that 16 bytes hold. -/
def BarObj.ofNat (x : Nat) : BarObj :=
  { bya := BitVec.ofNat 32 (bitsOf x 127 96), exb := BitVec.ofNat 32 (bitsOf x 95 64), later := BitVec.ofNat 16 (bitsOf x 63 48)
    last := BitVec.ofNat 9 (bitsOf x 47 39), trp := bitOf x 38, ovr := bitOf x 37, bm := bitOf x 36
    ph := BitVec.ofNat 4 (bitsOf x 35 32), arr := BitVec.ofNat 16 (bitsOf x 31 16), exp := BitVec.ofNat 16 (bitsOf x 15 0) }

/-- The 16 bytes of an object. -/
def BarObj.toNat (o : BarObj) : Nat :=
  o.bya.toNat * 2 ^ 96 + o.exb.toNat * 2 ^ 64 + o.later.toNat * 2 ^ 48 + o.last.toNat * 2 ^ 39 + bit1 o.trp 38
    + bit1 o.ovr 37 + bit1 o.bm 36 + o.ph.toNat * 2 ^ 32 + o.arr.toNat * 2 ^ 16 + o.exp.toNat

/-- The core and offset of a barrier object's address, or the reason of the failed command read (R249, R451). -/
def barPlace (s : State) (i : Nat) (a : Word) : Except (BitVec 4) (Nat × Nat) :=
  let t := s.team i
  if a.toNat % 16 ≠ 0 then .error 1
  else
    match decodeEa a with
    | .local o => .ok (i, o)
    | .peer x y o => if x < t.w ∧ y < t.h then .ok (t.coreAt x y, o) else .error 3
    | _ => .error 2

/-- The gate of a barrier object's address. -/
def gateBar (s : State) (a : Word) : Gate :=
  match barPlace s s.cur a with
  | .ok _ => {}
  | .error r => { trap := some (cmdTrap r a) }

/-- Reads an object. -/
def State.barAt (s : State) (j off : Nat) : BarObj := BarObj.ofNat (bytesNat (s.spBytes j off 16))

/-- Writes a binding: the address becomes the most recently written of at most 8 (R215). -/
def Core.bindBar (c : Core) (a : Word) (ph : BitVec 4) : Core :=
  let l := c.binds.filter (·.1 != a) ++ [(a, ph)]
  { c with binds := l.drop (l.length - 8) }

/-- R211. -/
def execBarInit (e : Eng) (a b : SqG) (s : State) : Out :=
  let v := readSg s b
  let exp := v.setWidth 16
  let bm := v.getLsbD 36
  let exb := if bm then (engLatA s.me e).setWidth 32 else 0
  runSlot (engSlot e)
    ((((gateSg s a).and (gateSg s b)).and (gateBar s (readSg s a))).and
      (checksC [(0x20, if bm then exb == 0 else exp == 0)]))
    (fun t =>
      match barPlace t t.cur (readSg t a) with
      | .error _ => t
      | .ok (j, off) =>
        let o : BarObj := { bya := 0, exb := exb, later := exp, last := 0, trp := v.getLsbD 38, ovr := false, bm := bm, ph := 0,
                            arr := 0, exp := exp }
        ((spWrite j off (natBytes 16 o.toNat) t).modCore j fun c => { c with barVecs := tabErase c.barVecs off }).upd fun c =>
          c.bindBar (readSg t a) 0) s

/-- An arrival or drop waits for its bank (R212). -/
def barDefer (e : Eng) (k : ArrKind) (a : SqG) (n : BitVec 32) (g : Gate) (s : State) : Out :=
  runSlot (engSlot e) (((gateSg s a).and g).and (gateBar s (readSg s a)))
    (fun t => t.upd fun c => { c with defer := some { slot := engSlot e, op := .barrier k (readSg t a) n } }) s

/-- The check of an arrival's count (R212). -/
def arriveCheck (s : State) (b : SqG) : Gate :=
  (gateSg s b).and (checksC [(0x21, decide ((readSg s b).toNat = 0 ∨ 2 ^ 32 ≤ (readSg s b).toNat))])

/-- R212. -/
def execBarArriveRel (e : Eng) (a b : SqG) (s : State) : Out :=
  barDefer e (.core true) a ((readSg s b).setWidth 32) (arriveCheck s b) s

/-- R212. -/
def execBarArriveRlx (e : Eng) (a b : SqG) (s : State) : Out :=
  barDefer e (.core false) a ((readSg s b).setWidth 32) (arriveCheck s b) s

/-- R212. -/
def execBarDrop (e : Eng) (a : SqG) (s : State) : Out := barDefer e .drop a 1 {} s

/-- R215, R216. -/
def execBarTest (e : Eng) (a : SqG) (s : State) : Out :=
  let ad := readSg s a
  let peer := match decodeEa ad with
    | .peer _ _ _ => true
    | _ => false
  runSlot (engSlot e)
    ((gateSg s a).and (if peer && ad.toNat % 16 == 0 then checksC [(0x22, true)] else gateBar s ad))
    (fun t => t.upd fun c =>
      let x := cmdBytes t ad 16
      (c.pushSq 4 (BitVec.ofNat 64 x)).bindBar ad (BarObj.ofNat x).ph) s

/-- The object after a refusal (R214). -/
def BarObj.refuse (o : BarObj) : BarObj := { o with ovr := true }

/-- An arrival applied to an object (R213): the new object and whether a phase completed, or a refusal. -/
def BarObj.apply (o : BarObj) (drop : Bool) (n : BitVec 32) (who : Nat) : Option (BarObj × Bool) :=
  if drop ∧ (o.bm = true ∨ o.later = 0) then none
  else if o.bm = false then
    if o.exp.toNat < o.arr.toNat + n.toNat then none
    else
      let a := o.arr.toNat + n.toNat
      let o1 := { o with arr := BitVec.ofNat 16 a, later := if drop then o.later - 1 else o.later, last := BitVec.ofNat 9 who }
      if a = o.exp.toNat then some ({ o1 with ph := o1.ph + 1, arr := 0, bya := 0, exp := o1.later }, true) else some (o1, false)
  else if o.exb.toNat < o.bya.toNat + n.toNat then none
  else
    let b := o.bya.toNat + n.toNat
    let o1 := { o with bya := BitVec.ofNat 32 b, arr := if o.arr = 0xFFFF then o.arr else o.arr + 1, last := BitVec.ofNat 9 who }
    if b = o.exb.toNat then some ({ o1 with ph := o1.ph + 1, arr := 0, bya := 0 }, true) else some (o1, false)

/-- Whether an arrival releases (R272). -/
def ArrKind.releases : ArrKind → Bool
  | .drop => true
  | .core r => r
  | .engine _ => true

/-- Whether an arrival comes from the core itself, which binds the object (R213, R215). -/
def ArrKind.binds : ArrKind → Bool
  | .engine _ => false
  | _ => true

/-- The update of an object of core `j` by one arrival (R213, R214, R272): whether it was applied, or refused with TRP set. -/
def applyArrival (j : Nat) (r : BarArr) (s : State) : Option Bool × State :=
  let o := s.barAt j r.off
  match o.apply (r.kind == .drop) r.n r.who with
  | none => (some o.trp, spWrite j r.off (natBytes 16 o.refuse.toNat) s)
  | some (o1, done) =>
    let s1 := spWrite j r.off (natBytes 16 o1.toNat) s
    let s2 := if r.kind.binds then s1.modCore r.who fun c => c.bindBar r.addr o.ph else s1
    let carry := if r.kind.releases then carryOf s2 r.who else {}
    let s3 := s2.modCore j fun c => { c with barVecs := tabMod {} c.barVecs r.off fun v =>
      let op := v.opened.merge carry
      if done then { opened := {}, done := v.done.merge op } else { v with opened := op } }
    (none, if r.kind.releases then s3.modCore r.who Core.released else s3)

/-- Order in which the arrivals of a cycle are applied (R213): drops, then cores, then counted byte arrivals, each by ascending index of the issuing core.
DESIGN CHOICE (log entry 78): of the two engines of one core, C0 comes before C1. -/
def BarArr.key (r : BarArr) : Nat :=
  match r.kind with
  | .drop => r.who
  | .core _ => 512 + r.who
  | .engine .c0 => 1024 + 2 * r.who
  | .engine .c1 => 1025 + 2 * r.who

/-- Whether an arrival can be applied: a releasing one only after the core's earlier accesses (R212). -/
def BarArr.may (s : State) (r : BarArr) : Bool :=
  match r.kind with
  | .core false => true
  | .engine _ => true
  | _ => !(s.core r.who).accPending

/-- A command hears of one of its arrivals (R201). -/
def EngCmd.heard (m : EngCmd) (cmd : Nat) (refused : Bool) : EngCmd :=
  if m.id = cmd then { m with arrs := m.arrs.map (· - 1), ovr := m.ovr || refused } else m

/-- Changes the running command of an engine. -/
def Core.modCmd (c : Core) (e : Eng) (f : EngCmd → EngCmd) : Core :=
  c.modEng e fun g => { g with q := match g.q with
    | [] => []
    | m :: l => f m :: l }

/-- Applies one arrival and answers who made it: the waiting slot of a core, or the command of an engine (R201, R212, R214). -/
def bankArrival (j : Nat) (s : State) (r : BarArr) : State :=
  let (ref, s1) := applyArrival j r s
  match r.kind with
  | .engine e => s1.modCore r.who fun c => c.modCmd e fun m => m.heard r.cmd (ref == some true)
  | _ => s1.modCore r.who fun c => { c with defer := c.defer.map fun d => { d with ans := some (ref != some true) } }

/-- BARRIER_BANK_UPDATE (R213): everything that has reached the object is applied in one update. -/
def execBarrierBankUpdate (c : CoreId) (off : BitVec 19) (s : State) : Out :=
  let l := (s.core c).barArrs.filter fun r => r.off == off.toNat && r.may s
  let s1 := s.modCore c fun k => { k with barArrs := k.barArrs.filter fun r => !(r.off == off.toNat && r.may s) }
  .next ((l.foldl (fun acc r => insertBy (fun a b => a.key < b.key) r acc) []).foldl (bankArrival c) s1)

end Sys2Proof.Machine
end

