-- ==== Sys2Proof/Machine/Engine.lean ====
section
/-! DEFINITION. The copy engines (R190 to R205, R208): nest blocks and their checks, the walk, and the steps of an engine. -/
namespace Sys2Proof.Machine

/-! ### Nest blocks (R196) -/

/-- A field of a nest block: bytes, and bits of it. -/
abbrev Blk := BitVec 1024

/-- Formats by code (R197). -/
def nbSfmt (b : Blk) : Nat := blkBytes b 0x10 1
/-- See `nbSfmt`. -/
def nbDfmt (b : Blk) : Nat := blkBytes b 0x11 1
/-- Source and destination kinds, with the tile queue and the operand slot. -/
def nbSkind (b : Blk) : Nat := blkBytes b 0x12 1 % 4
/-- See `nbSkind`. -/
def nbTq (b : Blk) : Nat := blkBytes b 0x12 1 / 4 % 4
/-- See `nbSkind`. -/
def nbDkind (b : Blk) : Nat := blkBytes b 0x13 1 % 4
/-- See `nbSkind`. -/
def nbOb (b : Blk) : Nat := blkBytes b 0x13 1 / 4 % 32
/-- A bit of FLAGS: 0 TR, 1 CVT, 2 SCL, 3 SAT, 4 ZF, 5 MC. -/
def nbFlag (b : Blk) (i : Nat) : Bool := bitOf (blkBytes b 0x14 2) i
/-- MODE and SCOPE. -/
def nbMode (b : Blk) : Nat := bitsOf (blkBytes b 0x14 2) 8 6
/-- See `nbMode`. -/
def nbScope (b : Blk) : Nat := bitsOf (blkBytes b 0x14 2) 11 9
/-- Counter and unit count. -/
def nbKctr (b : Blk) : Nat := blkBytes b 0x16 1 % 16
/-- See `nbKctr`. -/
def nbUnits (b : Blk) : Nat := blkBytes b 0x18 2
/-- COUNT, BOUND, SSTR and DSTR of a dimension. -/
def nbCount (b : Blk) (d : Nat) : Nat := blkBytes b (0x20 + 12 * d) 2
/-- See `nbCount`. -/
def nbBound (b : Blk) (d : Nat) : Nat := blkBytes b (0x22 + 12 * d) 2
/-- See `nbCount`. -/
def nbSstr (b : Blk) (d : Nat) : Int := sintOf 32 (blkBytes b (0x24 + 12 * d) 4)
/-- See `nbCount`. -/
def nbDstr (b : Blk) (d : Nat) : Int := sintOf 32 (blkBytes b (0x28 + 12 * d) 4)
/-- Elements of one unit (R198). -/
def nbPerUnit (b : Blk) : Nat := nbN b / nbUnits b
/-- BAROFF, if one is named. -/
def nbBar (b : Blk) : Option Nat := let x := blkBytes b 0x6C 4; if x = 0xFFFFFFFF then none else some x
/-- Buffer and granules of kind 2. -/
def nbCb (b : Blk) : Nat := blkBytes b 0x70 1 % 8
/-- See `nbCb`. -/
def nbCbg (b : Blk) : Nat := blkBytes b 0x74 2
/-- The core that owns the buffer. -/
def nbCbCore (t : Team) (b : Blk) : Nat := t.coreAt (blkBytes b 0x71 1) (blkBytes b 0x72 1)

/-- Mantissa bits of an NX code. -/
def codeNx (f : Nat) : Option Nat := if f = 5 then some 7 else if f = 6 then some 4 else if f = 7 then some 2 else none
/-- Bytes of an element that is not NX (R197). -/
def codeBytes (f : Nat) : Nat :=
  if f = 0 ∨ f = 1 then 2 else if f = 8 ∨ f = 9 then 4 else if f = 10 then 6 else 1
/-- Alignment of a memory element (R197). -/
def codeAlign (f : Nat) : Nat := if f = 10 then 2 else codeBytes f
/-- Floating format of a code. -/
def codeFloat (f : Nat) : Option FF :=
  if f = 0 then some ffBf16 else if f = 1 then some ffF16 else if f = 2 then some ffE4m3 else if f = 3 then some ffE5m2
  else if f = 8 then some ffF32 else if f = 10 then some ffAcc else none
/-- The value of an element that is not NX (R198). -/
def codeValue (f x : Nat) : FpNum :=
  match codeFloat f with
  | some g => g.value x
  | none => numOfInt (sintOf (if f = 9 then 32 else 8) x)

/-- Whether a conversion is exact because the target contains the source (R72). FP32 to FP32 is, and ACC48 to FP32 is not: FP32's precision
does not contain ACC48's, though the rule's list names every floating format (DEDUCED, log entry 57). -/
def codeContains (sf df : Nat) : Bool :=
  let small := sf == 2 || sf == 3
  let narrow := small || sf == 0 || sf == 1 || (codeNx sf).isSome
  (df == 10) || (df == 8 && (narrow || sf == 8 || sf == 4)) || ((df == 0 || df == 1) && (small || sf == 4))
    || ((df == 2 || df == 3) && sf == 4)

/-- Whether a conversion keeps an infinity, whatever SAT says (R71): the target contains the source, or no finite value of the source overflows it. -/
def codeKeepsInf (sf df : Nat) : Bool := codeContains sf df || sf == df || (sf == 1 && df == 0)

/-- The rounding of a mode code, with the target's default (R69). -/
def codeRnd (m df : Nat) : Rnd :=
  if m = 1 then .rne else if m = 2 then .rna else if m = 3 then .rz
  else if codeBytes df = 1 || (codeNx df).isSome then .rna else .rne

/-- A conversion to a target that is not NX (R69, R71, R72). What the rules leave open is settled here (log entry 57): an INT8 value that E4M3 or
E5M2 cannot hold, though R72 calls the conversion exact, is rounded in the block's MODE; and a finite value that SCALE has carried past the
range of a containing target overflows as in any other conversion, SAT clamping it and setting ESTAT, while an infinite product stays. -/
def codeConvert (sf df mode : Nat) (sat : Bool) (x : FpNum) : Conv :=
  let r := codeRnd mode df
  match codeFloat df with
  | some g => g.round r sat (codeKeepsInf sf df) x
  | none => (iTarget (if df = 9 then 32 else 8) r).conv r sat x

/-! ### Checks at issue (R202) -/

/-- Whether a reserved field or bit of a nest block is set. -/
def nbReserved (b : Blk) : Bool :=
  blkBytes b 0x12 1 / 16 != 0 || blkBytes b 0x13 1 / 128 != 0 || blkBytes b 0x14 2 / 2 ^ 12 != 0 || blkBytes b 0x16 1 / 16 != 0
    || blkBytes b 0x17 1 != 0 || blkBytes b 0x1A 2 != 0 || blkBytes b 0x70 1 / 8 != 0 || blkBytes b 0x73 1 != 0
    || blkBytes b 0x76 10 != 0

/-- The multicast rectangle: origin and size. -/
def nbRect (b : Blk) : Nat × Nat × Nat × Nat :=
  (blkBytes b 0x68 1, blkBytes b 0x69 1, 2 ^ blkBytes b 0x6A 1, 2 ^ blkBytes b 0x6B 1)

/-- Whether a multicast breaks R200. -/
def nbMcastBad (t : Team) (mcast : Bool) (b : Blk) : Bool :=
  let (x, y, w, h) := nbRect b
  let dlocal := match decodeEa (BitVec.ofNat 64 (blkBytes b 8 8)) with
    | .local _ => true
    | _ => false
  nbFlag b 5 != mcast
    || (mcast && (decide (4 < blkBytes b 0x6A 1 ∨ 3 < blkBytes b 0x6B 1) || x % w != 0 || y % h != 0 || decide (t.w < x + w)
        || decide (t.h < y + h) || nbDkind b != 0 || !dlocal))

/-- The checks of a nest block in order (R202). -/
def nbChecks (c : Core) (t : Team) (mcast : Bool) (b : Blk) : List (Nat × Bool) :=
  let sf := nbSfmt b
  let df := nbDfmt b
  let cvt := nbFlag b 1
  let k2 := nbSkind b == 2 || nbDkind b == 2
  [(0x01, nbReserved b),
   (0x02, decide (11 < sf ∨ 11 < df) || (nbSkind b == 1 && sf != 10) || (cvt && (sf == 11 || df == 11))
      || (nbFlag b 0 && (codeNx df).isSome)),
   (0x03, !cvt && (sf != df || nbFlag b 2 || nbFlag b 3)),
   (0x04, decide (3 < nbMode b)),
   (0x05, decide (4 < nbScope b)),
   (0x06, nbUnits b != 0 && nbN b % nbUnits b != 0),
   (0x07, (((codeNx sf).isSome || (codeNx df).isSome) && nbCount b 0 % 16 != 0) || (nbSkind b == 1 && nbCount b 0 != 64)),
   (0x08, nbMcastBad t mcast b),
   (0x09, (nbSkind b == 2 && nbDkind b == 2) || (k2 && (nbCbg b == 0 || decide (6144 < nbCbg b)
      || decide (t.w ≤ blkBytes b 0x71 1 ∨ t.h ≤ blkBytes b 0x72 1)))),
   (0x0A, nbSkind b == 3 || nbDkind b == 3),
   (0x0B, c.overK (nbKctr b) (nbUnits b))]

/-- The block at an address as the issuing group reads it. -/
def nbAt (s : State) (a : Word) : Blk := BitVec.ofNat 1024 (cmdBytes s a 128)

/-- A copy command (R194, R199, R202). -/
def copyOp (e : Eng) (mcast : Bool) (a : SqG) (s : State) : Out :=
  let ad := readSg s a
  let b := nbAt s ad
  let c := s.me
  let rd := gateCmd s ad 128 16
  -- a bad address is found before the block's content is checked, and a failed race check after it (R358, R451)
  let body : Gate := if (cmdLocal ad 128 16).isSome then {} else
    (checksC (nbChecks c (s.team s.cur) mcast b)).and (if nbDkind b = 1 then needClaimed c.atStart (nbOb b) else {})
  runSlot (engSlot e) (((gateSg s a).and (Gate.holdIf (decide (8 ≤ (c.eng e).q.length)))).and (rd.and body))
    (fun t => t.upd fun c =>
      ({ c with nextId := c.nextId + 1 }.addK (nbKctr b) (nbUnits b)).modEng e fun g =>
        { g with q := g.q ++ [({ blk := b, id := c.nextId } : EngCmd)] }) s

/-- R194. -/
def execCpNest (e : Eng) (a : SqG) (s : State) : Out := copyOp e false a s

/-- R194, R200. -/
def execCpMcast (e : Eng) (a : SqG) (s : State) : Out := copyOp e true a s

/-! ### The walk (R198) -/

/-- The index vector of element `e`. -/
def nbIndex (b : Blk) (e : Nat) : List Nat :=
  (rangeFrom 0 6).foldl (fun (acc : List Nat × Nat) d =>
    let c := nbCount b d
    (acc.1 ++ [acc.2 % c], acc.2 / c)) ([], e) |>.1

/-- Whether an element is in bounds. -/
def nbInb (b : Blk) (ix : List Nat) : Bool := !nbFlag b 4 || ix.zipIdx.all fun (i, d) => decide (i < nbBound b d)

/-- The offset of a block of an NX side, or of an element of another side, from dimension 0. -/
def dim0 (f i : Nat) (str : Int) : Int :=
  match codeNx f with
  | some k => (i / 16 * (nxBits k / 8) : Nat)
  | none => i * str

/-- The source offset of an element from SBASE. -/
def nbSoff (b : Blk) (ix : List Nat) : Int :=
  dim0 (nbSfmt b) (ix.getD 0 0) (nbSstr b 0) + ((rangeFrom 1 5).foldl (fun (a : Int) d => a + ix.getD d 0 * nbSstr b d) 0)

/-- The destination offset of an element from DBASE; TR swaps the strides of dimensions 0 and 1. -/
def nbDoff (b : Blk) (ix : List Nat) : Int :=
  let rest := (rangeFrom 2 4).foldl (fun (a : Int) d => a + ix.getD d 0 * nbDstr b d) 0
  if nbFlag b 0 then ix.getD 0 0 * nbDstr b 1 + ix.getD 1 0 * nbDstr b 0 + rest
  else dim0 (nbDfmt b) (ix.getD 0 0) (nbDstr b 0) + ix.getD 1 0 * nbDstr b 1 + rest

/-- An address of the walk. -/
def walkAddr (base : Nat) (off : Int) : Word := BitVec.ofNat 64 base + BitVec.ofInt 64 off

/-- A fault of a running command: FCODE and FADDR (R203). -/
structure EngFault where
  code : BitVec 8
  addr : Word
  deriving DecidableEq, Repr

/-- Where bytes of an engine access lie. -/
inductive Place where
  /-- Offset in a core's scratchpad. -/
  | sp (core off : Nat)
  /-- Physical address, with its page. -/
  | mem (pa : Nat) (pg : TlbEnt)
  /-- Offset in an operand slot. -/
  | ob (off : Nat)
  /-- Physical address in the die's weight store. -/
  | ws (a : Nat)
  deriving DecidableEq, Repr

/-- Whether a weight-store write may go to a version (R259, R335): its address in the store. -/
def weightWrite (s : State) (i : Nat) (ver tensor off len : Nat) : Option Nat :=
  match tabGet? (s.die (coreDie i)).wdir (4 * tensor + ver) with
  | some e => if e.st = 1 ∧ off + len ≤ e.len then some (e.base + off) else none
  | none => none

/-- The places of an element of an engine of core `i`, with their lengths, and its race check (R203, R247 to R249, R275). -/
def engPlace (s : State) (i : Nat) (e : Eng) (kind : AccKind) (align len : Nat) (a : Word) : Except EngFault (List (Place × Nat)) :=
  let t := s.team i
  let bad : Except EngFault (List (Place × Nat)) := .error { code := 0x01, addr := a }
  let spad (j off : Nat) : Except EngFault (List (Place × Nat)) :=
    if 0x60000 < off + len then bad
    else
      match granRace s i j off len kind with
      | some _ => .error { code := 0x03, addr := a }
      | none => .ok [(.sp j off, len)]
  if a.toNat % align ≠ 0 then bad
  else
    match decodeEa a with
    | .local off => spad i off
    | .peer x y off => if x < t.w ∧ y < t.h then spad (t.coreAt x y) off else bad
    | .global va =>
      match globalPieces s (.eng i e) t.ctx va len kind.perm with
      | .error _ => bad
      | .ok ps =>
          let raced := ps.any fun (pg, pa, n) => pg.chk && ((linesOf pa n).any fun l =>
            match s.l2At l with
            | some y => !raceOk s i y.tag kind
            | none => false)
          if raced then .error { code := 0x03, addr := a } else .ok (ps.map fun (pg, pa, n) => (.mem pa pg, n))
    | .weight xv ver tensor off =>
      match kind with
      | .read =>
        match weightAddr s i xv tensor off len with
        | .ok p => .ok [(.ws p, len)]
        | .error _ => bad
      | _ =>
        if xv then
          match weightWrite s i ver tensor off len with
          | some p => .ok [(.ws p, len)]
          | none => bad
        else bad
    | .none => bad

/-- The local offset of byte `o` of a claimed or awaited region that begins at granule `g` of a buffer (R207, R208). -/
def cbByte (b : CircBuf) (g o : Nat) : Nat := 64 * (b.base.toNat + (g + o / 64) % b.size.toNat) + o % 64

/-- The places of an element in a region: one byte each (R208). FCODE 0x07 outside the region. -/
def regionPlaces (s : State) (i owner n cbg g : Nat) (kind : AccKind) (align len : Nat) (a : Word) : Except EngFault (List Place) :=
  let b := (s.core owner).cb n
  let o := a.toNat
  if b.en = false ∨ 64 * cbg < o + len then .error { code := 0x07, addr := a }
  else if o % align ≠ 0 then .error { code := 0x01, addr := a }
  else
    let offs := (rangeFrom o len).map fun x => cbByte b g x
    if offs.any fun x => (granRace s i owner x 1 kind).isSome then .error { code := 0x03, addr := a }
    else .ok (offs.map fun x => .sp owner x)

/-- The bytes of a place. -/
def placeBytes (s : State) (i : Nat) (n : Nat) : Place → List Byte
  | .sp j off => s.spBytes j off n
  | .mem pa _ => s.gBytes pa n
  | .ob _ => []
  | .ws a => s.wsBytes (coreDie i) a n

/-- Whether `n` bytes at a place have an uncorrectable error (R416). -/
def placeUe (s : State) (i : Nat) (n : Nat) : Place → Bool
  | .mem pa _ => s.ueAt pa n
  | .ws a => s.wsUe (coreDie i) a n
  | _ => false

/-- Where a source element, or block, of `len` bytes lies: pieces with their lengths. -/
def srcPlaces (s : State) (i : Nat) (e : Eng) (m : EngCmd) (align len : Nat) (off : Int) : Except EngFault (List (Place × Nat)) :=
  let a := walkAddr (blkBytes m.blk 0 8) off
  if nbSkind m.blk = 2 then
    match regionPlaces s i (nbCbCore (s.team i) m.blk) (nbCb m.blk) (nbCbg m.blk) (m.srcReg.getD 0) .read align len a with
    | .error f => .error f
    | .ok l => .ok (l.map fun p => (p, 1))
  else engPlace s i e .read align len a

/-- The bytes of a source element, or block; data with an uncorrectable error, as `ue` says or as they stand, fault at its address (R203, R416). -/
def srcBytes (s : State) (i : Nat) (e : Eng) (m : EngCmd) (ue : Bool) (align len : Nat) (off : Int) : Except EngFault (List Byte) :=
  match srcPlaces s i e m align len off with
  | .error f => .error f
  | .ok l =>
    if ue || l.any (fun p => placeUe s i p.2 p.1) then .error { code := 0x04, addr := walkAddr (blkBytes m.blk 0 8) off }
    else .ok (l.flatMap fun p => placeBytes s i p.2 p.1)

/-- The cores of a multicast's rectangle (R200). -/
def mcastCores (t : Team) (b : Blk) : List Nat :=
  let (x0, y0, w, h) := nbRect b
  (rangeFrom y0 h).flatMap fun y => (rangeFrom x0 w).map fun x => t.coreAt x y

/-- Where a destination of `len` bytes lies: pieces with their lengths. Every element of a multicast must lie in local space (R200). -/
def dstPlaces (s : State) (i : Nat) (e : Eng) (m : EngCmd) (align len : Nat) (off : Int) : Except EngFault (List (Place × Nat)) :=
  let a := walkAddr (blkBytes m.blk 8 8) off
  if nbDkind m.blk = 1 then
    if a.toNat + len ≤ 8192 then .ok [(.ob a.toNat, len)] else .error { code := 0x02, addr := a }
  else if nbDkind m.blk = 2 then
    match regionPlaces s i (nbCbCore (s.team i) m.blk) (nbCb m.blk) (nbCbg m.blk) (m.dstReg.getD 0) .write align len a with
    | .error f => .error f
    | .ok l => .ok (l.map fun p => (p, 1))
  else if nbFlag m.blk 5 then
    match decodeEa a with
    | .local o =>
      if 0x60000 < o + len ∨ a.toNat % align ≠ 0 then .error { code := 0x01, addr := a }
      else if (mcastCores (s.team i) m.blk).any fun j => (granRace s i j o len .write).isSome then .error { code := 0x03, addr := a }
      else .ok ((mcastCores (s.team i) m.blk).map fun j => (.sp j o, len))
    | _ => .error { code := 0x01, addr := a }
  else
    engPlace s i e .write align len a

/-- An element as read: its pattern and its value (R67, R72, R198). -/
structure ElemVal where
  bits : Nat
  val  : FpNum
  deriving DecidableEq, Repr

/-- Reads an element of the walk; `row` is the tile-queue row in use, and `ue` says that its data have an uncorrectable error. Out of bounds nothing is
read. -/
def readElem (s : State) (i : Nat) (en : Eng) (m : EngCmd) (row : Row) (ue : Bool) (ix : List Nat) : Except EngFault ElemVal :=
  let sf := nbSfmt m.blk
  if nbInb m.blk ix = false then .ok { bits := 0, val := .fin false 0 0 }
  else if nbSkind m.blk = 1 then
    let x := rowElem row (ix.getD 0 0)
    .ok { bits := x, val := ffAcc.value x }
  else
    match codeNx sf with
    | some k =>
      match srcBytes s i en m ue 1 (nxBits k / 8) (nbSoff m.blk ix) with
      | .error f => .error f
      | .ok l => .ok { bits := bytesNat l, val := nxElem k (bytesNat l) (ix.getD 0 0 % 16) }
    | none =>
      match srcBytes s i en m ue (codeAlign sf) (codeBytes sf) (nbSoff m.blk ix) with
      | .error f => .error f
      | .ok l => .ok { bits := bytesNat l, val := codeValue sf (bytesNat l) }

/-- The value that is converted: scaled, unless the element lies beyond the bounds (R198). -/
def scaled (b : Blk) (ix : List Nat) (x : FpNum) : FpNum :=
  if nbFlag b 2 && nbInb b ix then x.mul (f32 (blkBytes b 0x1C 4)) else x

/-- What is written for one element that is not NX: its bits and whether it was clamped. -/
def elemOut (b : Blk) (ix : List Nat) (v : ElemVal) : Conv :=
  if nbFlag b 1 then codeConvert (nbSfmt b) (nbDfmt b) (nbMode b) (nbFlag b 3) (scaled b ix v.val) else { bits := v.bits }

/-- An NX block from 16 elements (R198): encoded, or copied with the elements beyond the bounds cleared. -/
def blockOut (b : Blk) (k : Nat) (l : List (List Nat × ElemVal)) : Nat × Nat :=
  if nbFlag b 1 then
    let (x, cl) := nxEncode k (fun _ => codeRnd (nbMode b) (nbDfmt b)) (l.map fun p => scaled b p.1 p.2.val)
    (x, cl.length)
  else
    let src := ((l.find? fun p => nbInb b p.1).map fun p => p.2.bits).getD 0
    let out := l.zipIdx.foldl (fun x (p, i) =>
      if nbInb b p.1 then x else x - bitsOf x (16 + (k + 1) * i + k) (16 + (k + 1) * i) * 2 ^ (16 + (k + 1) * i)) src
    (out, 0)

/-- A write of the walk: its pieces, its bytes and the elements it clamped. -/
structure EngWrite where
  dest  : List (Place × Nat)
  bytes : List Byte
  clamp : Nat
  deriving DecidableEq, Repr

/-- One element that is not NX, from reading to the place it is written to. -/
def stepElem (s : State) (i : Nat) (en : Eng) (m : EngCmd) (row : Row) (ue : Bool) (e : Nat) : Except EngFault EngWrite :=
  let ix := nbIndex m.blk e
  let df := nbDfmt m.blk
  match readElem s i en m row ue ix with
  | .error f => .error f
  | .ok v =>
    let o := elemOut m.blk ix v
    match dstPlaces s i en m (codeAlign df) (codeBytes df) (nbDoff m.blk ix) with
    | .error f => .error f
    | .ok l => .ok { dest := l, bytes := natBytes (codeBytes df) o.bits, clamp := if o.clamp then 1 else 0 }

/-- One NX block of the destination. -/
def stepBlock (s : State) (i : Nat) (en : Eng) (m : EngCmd) (row : Row) (ue : Bool) (k e : Nat) : Except EngFault EngWrite :=
  let es := (rangeFrom e 16).map fun e => (nbIndex m.blk e, readElem s i en m row ue (nbIndex m.blk e))
  let vals := es.foldr (fun p acc => match p.2, acc with
    | .ok v, .ok l => Except.ok ((p.1, v) :: l)
    | .error f, _ => .error f
    | _, .error f => .error f) (Except.ok [])
  match vals with
  | .error f => .error f
  | .ok l =>
    let (x, cl) := blockOut m.blk k l
    match dstPlaces s i en m 1 (nxBits k / 8) (nbDoff m.blk (nbIndex m.blk e)) with
    | .error f => .error f
    | .ok d => .ok { dest := d, bytes := natBytes (nxBits k / 8) x, clamp := cl }

/-- The elements of the next run: to the end of dimension 0, of the unit, or of one NX block. DESIGN CHOICE (log entry 58): an NX destination block
that spans several units is written, tagged and counted with the first of them. -/
def runLength (m : EngCmd) : Nat :=
  let b := m.blk
  let row := nbCount b 0 - m.pos % nbCount b 0
  if (codeNx (nbDfmt b)).isSome then 16
  else if nbUnits b = 0 then row else min row (nbPerUnit b - m.pos % nbPerUnit b)

/-- Joins pieces of scratchpad writes that follow one another, so that each run of bytes is one write (R219). -/
def joinSp : List (Nat × Nat × List Byte) → List (Nat × Nat × List Byte)
  | [] => []
  | (j, o, bs) :: l =>
    match joinSp l with
    | (j2, o2, bs2) :: r => if j = j2 ∧ o + bs.length = o2 then (j, o, bs ++ bs2) :: r else (j, o, bs) :: (j2, o2, bs2) :: r
    | [] => [(j, o, bs)]

/-- A piece of a write with its bytes. -/
def piecesOf (w : EngWrite) : List (Place × List Byte) :=
  (w.dest.foldl (fun (acc : List (Place × List Byte) × Nat) p =>
    -- the pieces of a region lie one after another; the destinations of a multicast all receive the same bytes
    if p.2 = w.bytes.length then (acc.1 ++ [(p.1, w.bytes)], acc.2)
    else (acc.1 ++ [(p.1, (w.bytes.drop acc.2).take p.2)], acc.2 + p.2)) ([], 0)).1

/-- Bytes for an operand slot wait, by row, for the whole-row writes (R199). -/
def stageRow (rows : Tab Mem) (off : Nat) (bs : List Byte) : Tab Mem :=
  bs.zipIdx.foldl (fun rows (b, k) => tabMod [] rows ((off + k) / 128) fun m => memPut m ((off + k) % 128) b) rows

/-- Performs a piece that is no scratchpad write. -/
def putPiece (i : Nat) (e : Eng) (s : State) (p : Place × List Byte) : State :=
  match p.1 with
  | .sp _ _ => s
  | .mem pa pg => globalWrite (s.team i).ctx pg.cls pa p.2 s
  | .ws a => s.modDie (coreDie i) fun d =>
      { d with ws := memWrite d.ws a p.2, ueWs := d.ueWs.filter fun w => !(decide (a ≤ 32 * w) && decide (32 * w + 32 ≤ a + p.2.length)) }
  | .ob off => s.modCore i fun c => c.modEng e fun g =>
      { g with q := g.q.zipIdx.map fun (m, k) => if k = 0 then { m with obRows := stageRow m.obRows off p.2 } else m }

/-- What a piece adds to the unit's record: tag places, lines and counted bytes (R201, R273). -/
def EngCmd.note (i : Nat) (m : EngCmd) (p : Place × List Byte) : EngCmd :=
  let n := p.2.length
  match p.1 with
  | .sp j off =>
    { m with touched := m.touched ++ (rangeFrom (off / 64) ((off + n - 1) / 64 - off / 64 + 1)).map fun g => .granule j g
             bytes := tabMod 0 m.bytes (if nbDkind m.blk = 0 then j else i) (· + n) }
  | .mem pa pg =>
    let ls := rangeFrom (lineOf pa) (lineOf (pa + n - 1) - lineOf pa + 1)
    { m with touched := if pg.chk then m.touched ++ ls.map .line else m.touched
             lines := m.lines ++ ls
             bytes := tabMod 0 m.bytes i (· + n) }
  | _ => { m with bytes := tabMod 0 m.bytes i (· + n) }

/-- Freezes an engine (R203); one that is frozen keeps the fault that it has recorded. -/
def Core.freezeEng (c : Core) (e : Eng) (f : EngFault) : Core :=
  c.modEng e fun g => if g.frz then g else { g with frz := true, fcode := f.code, faddr := f.addr, fctr := BitVec.ofNat 4 (((g.q.head?).map fun m => nbKctr m.blk).getD 0) }

/-- An engine takes a fault (R203, R414): it freezes, has taken what walks have told it, and the fault is logged. -/
def engFreeze (i : Nat) (e : Eng) (f : EngFault) (s : State) : State :=
  if ((s.core i).eng e).frz then s
  else logContained 1 i f.code.toNat f.addr (forgetFaults (.eng i e) (s.modCore i fun c => c.freezeEng e f))

/-- Performs the writes of a run and records them. A scratchpad receives them in beats of 128 bytes (R250), each of which is one write (R219, log entry
25). -/
def putRun (i : Nat) (e : Eng) (ws : List EngWrite) (s : State) : State :=
  let ps := (ws.flatMap piecesOf).filter fun p => !p.2.isEmpty
  let s1 := ps.foldl (putPiece i e) s
  let sps := ps.filterMap fun p => match p.1 with
    | .sp j off => some (j, off, p.2)
    | _ => none
  let s2 := (joinSp sps).foldl (fun s (j, off, bs) => (splitLines off bs).foldl (fun s p => spWrite j p.1 p.2 s) s) s1
  let cl := ws.foldl (fun n w => n + w.clamp) 0
  s2.modCore i fun c => (c.modCmd e fun m => ps.foldl (EngCmd.note i) m).modEng e fun g =>
    if cl = 0 then g else { g with sat := true, satc := if g.satc.toNat + cl < 0xFFFF then BitVec.ofNat 16 (g.satc.toNat + cl) else 0xFFFF }

/-- Whether an engine of a core may act (R356, R418): its core has not been stopped or frozen by a fault. -/
def Core.live (c : Core) : Bool := c.run != .double && c.run != .frozen

/-- Whether an earlier multiply still reads the slot that a command writes (R173). -/
def Core.obWait (c : Core) (m : EngCmd) : Bool :=
  nbDkind m.blk == 1 && c.mmas.any fun x => decide (x.id < m.id) && (x.a.val == nbOb m.blk || x.b.val == nbOb m.blk)

/-- Units that the walk has finished and UNIT_COMPLETE has not yet completed. -/
def EngCmd.unitsDue (m : EngCmd) : Nat :=
  let u := nbUnits m.blk
  (if nbN m.blk = 0 then u else if u = 0 then 0 else m.pos / nbPerUnit m.blk) - m.units

/-- Whether the walk can go on. -/
def EngCmd.canWalk (m : EngCmd) : Bool :=
  m.started && decide (m.pos < nbN m.blk) && m.unitsDue == 0
    && (nbSkind m.blk != 2 || m.srcReg.isSome) && (nbDkind m.blk != 2 || m.dstReg.isSome)

/-- ENGINE_COMMAND_START (R195, R208): the oldest command starts; one on a buffer reaches its owner. -/
def execEngineCommandStart (c : CoreId) (e : Eng) (s : State) : Out :=
  let g := (s.core c).eng e
  match g.q with
  | [] => .next s
  | m :: _ =>
    if m.started || g.frz || !(s.core c).live then .next s
    else
      let s1 := s.modCore c fun k => k.modCmd e fun m => { m with started := true }
      let o := nbCbCore (s.team c) m.blk
      let n := nbCb m.blk
      if nbN m.blk = 0 then .next s1
      else if nbDkind m.blk = 2 then .next (s1.modCore o fun k => k.modCb n fun b => { b with claims := b.claims ++ [.eng c.val e] })
      else if nbSkind m.blk = 2 then .next (s1.modCore o fun k => k.modCb n fun b => { b with awaits := b.awaits ++ [.eng c.val e] })
      else .next s1

/-- Grants a claim or an await to the engine that is first in the buffer's order (R208). -/
def grantCb (i : Nat) (e : Eng) (m : EngCmd) (s : State) : State :=
  let o := nbCbCore (s.team i) m.blk
  let n := nbCb m.blk
  let b := (s.core o).cb n
  let k := nbCbg m.blk
  let claim := nbDkind m.blk == 2
  let wl := if claim then b.claims else b.awaits
  if wl.head? ≠ some (.eng i e) then s
  else if b.en = false ∨ b.size.toNat < k then
    engFreeze i e { code := 0x07, addr := 0 }
      (s.modCore o fun c => c.modCb n fun b => if claim then { b with claims := b.claims.drop 1 } else { b with awaits := b.awaits.drop 1 })
  else if claim then
    if b.size.toNat < b.clm.toNat + k then s
    else
      let g := (b.head.toNat + b.clm.toNat) % b.size.toNat
      (s.modCore o fun c => c.modCb n fun b => { b with claims := b.claims.drop 1, clm := b.clm + BitVec.ofNat 13 k }).modCore i fun c =>
        c.modCmd e fun m => { m with dstReg := some g }
  else if b.cmt.toNat < b.awt.toNat + k then s
  else
    let g := (b.head.toNat + b.awt.toNat) % b.size.toNat
    (s.modCore o fun c => c.modCb n fun b => { b with awaits := b.awaits.drop 1, awt := b.awt + BitVec.ofNat 13 k }).modCore i fun c =>
      (c.modCmd e fun m => { m with srcReg := some g }).acquire b.vec

/-- Whether a started command still waits for its region. -/
def EngCmd.waitsCb (m : EngCmd) : Bool :=
  m.started && nbN m.blk != 0 && ((nbDkind m.blk == 2 && m.dstReg.isNone) || (nbSkind m.blk == 2 && m.srcReg.isNone))

/-- ENGINE_CB_CLAIM (R208, R209). -/
def execEngineCbClaim (c : CoreId) (e : Eng) (s : State) : Out :=
  let g := (s.core c).eng e
  match g.q with
  | [] => .next s
  | m :: _ => if m.waitsCb && !g.frz && (s.core c).live then .next (grantCb c e m s) else .next s

/-- Bytes of an element, or of an NX block, of an engine format (R197). -/
def elemLen (f : Nat) : Nat :=
  match codeNx f with
  | some k => nxBits k / 8
  | none => codeBytes f

/-- The memory that a run of the walk uses: addresses with lengths, and whether they are written. -/
def runUses (m : EngCmd) : List (Word × Nat × Bool) :=
  (rangeFrom m.pos (runLength m)).flatMap fun x =>
    let ix := nbIndex m.blk x
    (if nbSkind m.blk = 0 && nbInb m.blk ix then [(walkAddr (blkBytes m.blk 0 8) (nbSoff m.blk ix), elemLen (nbSfmt m.blk), false)] else [])
      ++ if nbDkind m.blk = 0 then [(walkAddr (blkBytes m.blk 8 8) (nbDoff m.blk ix), elemLen (nbDfmt m.blk), true)] else []

/-- What the walk needs of a page. -/
def usePerm (wr : Bool) : Perm := if wr then { w := true } else { r := true }

/-- The addresses that a run looks up. -/
def runPages (m : EngCmd) : List (Nat × Perm) :=
  (runUses m).flatMap fun u => match decodeEa u.1 with
    | .global va => pageUses va u.2.1 (usePerm u.2.2)
    | _ => []

/-- Whether a write that comes to bytes of core `j`'s scratchpad by the mesh has been accepted and is still to be performed there: it comes before
whatever reaches them later (R248, R267). -/
def State.spAwaits (s : State) (j off n : Nat) : Bool :=
  (s.core j).mesh.any fun r => r.kind != .read && !amoIsSc r.kind
    && r.elems.any fun e => decide (e.ea.toNat < off + n ∧ off < e.ea.toNat + max e.len e.data.length)

/-- The places that element `x` of the walk reads and writes, of every kind, with their lengths; none of a side that faults. -/
def elemPlaces (s : State) (i : Nat) (e : Eng) (m : EngCmd) (x : Nat) : List (Place × Nat) :=
  let ix := nbIndex m.blk x
  let src := if nbSkind m.blk = 1 ∨ nbInb m.blk ix = false then [] else
    (srcPlaces s i e m 1 (elemLen (nbSfmt m.blk)) (nbSoff m.blk ix)).toOption.getD []
  src ++ (dstPlaces s i e m 1 (elemLen (nbDfmt m.blk)) (nbDoff m.blk ix)).toOption.getD []

/-- Whether an element waits: for a write that its home, or its bank, has accepted before it (R265, R267, R340), or in a bank of the weight store that is
in its refresh slot (R262). -/
def elemWaits (s : State) (i : Nat) (e : Eng) (m : EngCmd) (x : Nat) : Bool :=
  (elemPlaces s i e m x).any fun p => match p.1 with
    | .sp j off => s.spAwaits j off p.2
    | .mem pa _ => s.awaits pa p.2
    | .ws a => (wsBanks a p.2).any s.refreshes
    | .ob _ => false

/-- Elements that one step of a run does: one, or an NX block of the destination. -/
def stepLen (m : EngCmd) : Nat := if (codeNx (nbDfmt m.blk)).isSome then 16 else 1

/-- The steps of the next run by their first elements, up to the first that waits: the elements before it are not held by it (R262). -/
def runStarts (s : State) (i : Nat) (e : Eng) (m : EngCmd) : List Nat :=
  (if (codeNx (nbDfmt m.blk)).isSome then [m.pos] else rangeFrom m.pos (runLength m)).takeWhile fun x =>
    !(rangeFrom x (stepLen m)).any (elemWaits s i e m)

/-- The lines that a step reads are brought into L2 (R340, R346). -/
def stepFill (i : Nat) (e : Eng) (m : EngCmd) (x : Nat) (s : State) : State :=
  (rangeFrom x (stepLen m)).foldl (fun s x =>
    let ix := nbIndex m.blk x
    if nbSkind m.blk ≠ 0 ∨ nbInb m.blk ix = false then s
    else match decodeEa (walkAddr (blkBytes m.blk 0 8) (nbSoff m.blk ix)) with
      | .global va => match globalPieces s (.eng i e) (s.team i).ctx va (elemLen (nbSfmt m.blk)) { r := true } with
        | .ok l => fillPieces (s.team i).ctx l s
        | .error _ => s
      | _ => s) s

/-- One step of a run. -/
def stepAt (s : State) (i : Nat) (e : Eng) (m : EngCmd) (row : Row) (ue : Bool) (x : Nat) : Except EngFault EngWrite :=
  match codeNx (nbDfmt m.blk) with
  | some k => stepBlock s i e m row ue k x
  | none => stepElem s i e m row ue x

/-- The steps of a run, one after another up to the first fault: each finds its lines in L2 as it reads (R198, R203, R346). `ue` strikes the first that
reads memory. -/
def runSteps (i : Nat) (e : Eng) (m : EngCmd) (row : Row) : Bool → List Nat → State → State × List EngWrite × Option EngFault
  | _, [], s => (s, [], none)
  | ue, x :: l, s =>
    let s1 := stepFill i e m x s
    match stepAt s1 i e m row ue x with
    | .error f => (s1, [], some f)
    | .ok w =>
      let reads := nbSkind m.blk != 1 && (rangeFrom x (stepLen m)).any fun x => nbInb m.blk (nbIndex m.blk x)
      let (t, ws, f) := runSteps i e m row (ue && !reads) l s1
      (t, w :: ws, f)

/-- The tile-queue row of a run: the one in use, or a new one popped at the start of dimension 0 (R186, R198). `none` waits: for a row on its way, or
while a group of the core is at a deferred slot, whose own pops take rows that were there when it began (R25, log entry 30). -/
def engRow (c : Core) (m : EngCmd) : Option (Except EngFault (Row × Bool)) :=
  if nbSkind m.blk ≠ 1 then some (.ok (0, false))
  else if m.pos % nbCount m.blk 0 ≠ 0 then some (.ok (m.row.getD 0, false))
  else if c.defer.isSome then none
  else
    let t := c.tq (nbTq m.blk)
    match t.rows with
    | r :: _ => some (.ok (r, true))
    | [] => if !t.due.isEmpty then none else some (.error ({ code := 0x05, addr := 0 } : EngFault))

/-- One run of the walk (R195, R198, R203): it ends where it would wait, and at a fault, before which every element has been written; `ue` says that its
source data have an uncorrectable error. -/
def engRun (i : Nat) (e : Eng) (m : EngCmd) (ue : Bool) (s : State) : State :=
  match runStarts s i e m with
  | [] => s
  | xs =>
    match engRow (s.core i) m with
    | none => s
    | some (.error f) => engFreeze i e f s
    | some (.ok (row, pop)) =>
      let s0 := if pop then s.modCore i fun c => (c.popTq (nbTq m.blk)).modCmd e fun m => { m with row := some row } else s
      let (s1, ws, f) := runSteps i e m row ue xs (learnPages (.eng i e) (s.team i).ctx (runPages m) s0)
      let s2 := putRun i e ws s1
      match f with
      | some f => engFreeze i e f s2
      | none => s2.modCore i fun c => c.modCmd e fun m => { m with pos := m.pos + stepLen m * ws.length }

/-- ENGINE_TRANSFER (R195, R198, R203, R349): a run of the walk, once its pages are known. -/
def execEngineTransfer (c : CoreId) (e : Eng) (ue : Bool) (s : State) : Out :=
  let k := s.core c
  let g := k.eng e
  match g.q with
  | [] => .next s
  | m :: _ =>
    if m.canWalk && !g.frz && k.live && !k.obWait m then
      let x := (s.team c).ctx
      let miss := missesOf s (.eng c e) x (runPages m)
      .next (if !miss.isEmpty then askWalks x miss s else engRun c e m ue s)
    else .next s

/-! ### Completion of units -/

/-- Writes the tags of places (R273). -/
def writeTags (i : Nat) (l : List TagLoc) (s : State) : State :=
  let t := writeTag s i .write
  l.foldl (fun s p => match p with
    | .granule j g => s.modCore j fun c => { c with tags := tabSet c.tags g t }
    | .line l => s.modLine l fun y => { y with tag := t }) s

/-- Whether an element that the walk has still to do lies in row `r` of the command's operand slot. -/
def rowUnfinished (m : EngCmd) (r : Nat) : Bool :=
  (rangeFrom m.pos (nbN m.blk - m.pos)).any fun x =>
    let o := (walkAddr (blkBytes m.blk 8 8) (nbDoff m.blk (nbIndex m.blk x))).toNat
    decide (o < 128 * r + 128) && decide (128 * r < o + elemLen (nbDfmt m.blk))

/-- The rows of a slot that the walk has finished are written, each whole and once; bytes that the command does not write keep what they hold (R173,
R199). -/
def flushRows (i : Nat) (e : Eng) (m : EngCmd) (s : State) : State :=
  if m.obRows.isEmpty then s
  else
    let n := nbOb m.blk
    let done := m.obRows.filter fun p => !rowUnfinished m p.1
    s.modCore i fun c =>
      let put (o : ObSlot) (p : Nat × Mem) : ObSlot :=
        { o with rows := tabSet o.rows p.1 (p.2.foldl (fun r q => rowPut r 1 q.1 [q.2.toNat]) (obRow (obKey i n) o p.1)) }
      ((c.modOb n fun o => done.foldl put o).modCmd e fun m => { m with obRows := m.obRows.filter fun p => rowUnfinished m p.1 }).settleObs

/-- Bytes of the unit in progress by the core whose object counts them (R201): a unit of no bytes arrives with none. -/
def EngCmd.counted (m : EngCmd) (i : Nat) (t : Team) : Tab Nat :=
  if !m.bytes.isEmpty then m.bytes else if nbFlag m.blk 5 then (mcastCores t m.blk).map fun j => (j, 0) else [(i, 0)]

/-- The counted byte arrivals of a unit go to their banks (R201, R213). -/
def sendArrivals (i : Nat) (e : Eng) (m : EngCmd) (off : Nat) (s : State) : State :=
  let l := m.counted i (s.team i)
  (l.foldl (fun s p => s.modCore p.1 fun c =>
      { c with barArrs := c.barArrs ++ [{ off := off, kind := .engine e, who := i, cmd := m.id, n := BitVec.ofNat 32 p.2 }] }) s).modCore i
    fun c => c.modCmd e fun m => { m with arrs := some l.length }

/-- The end of a command: its commit or retire (R208). Whether other agents have interleaved is not detected (R209). -/
def endCommand (i : Nat) (m : EngCmd) (s : State) : State :=
  let o := nbCbCore (s.team i) m.blk
  let n := nbCb m.blk
  let k := nbCbg m.blk
  if nbN m.blk = 0 then s
  else if nbDkind m.blk = 2 then commitCb o n k i s
  else if nbSkind m.blk = 2 then s.modCore o fun c => c.modCb n fun x => x.retire k
  else s

/-- The decrement, and the end of the command when it was the last unit's. -/
def finishUnit (i : Nat) (e : Eng) (m : EngCmd) (s : State) : State :=
  let u := nbUnits m.blk
  let last := decide (u ≤ m.units + 1)
  let s1 := if last then endCommand i m s else s
  let s2 := if u = 0 then s1 else s1.modCore i fun c => c.decK (nbKctr m.blk)
  if last then s2.modCore i fun c => (c.modEng e fun g => { g with q := g.q.drop 1 }).settleObs
  else s2.modCore i fun c => c.modCmd e fun m =>
    { m with units := m.units + 1, arrs := none, ovr := false, touched := [], bytes := [], lines := [] }

/-- What a unit does before its arrivals (R173, R265, R273): its rows are written, its lines written back at SCOPE 4, and its writes tagged. -/
def closeUnit (i : Nat) (e : Eng) (m : EngCmd) (s : State) : State :=
  let s1 := flushRows i e m s
  let s2 := if nbScope m.blk = 4 then m.lines.eraseDups.foldl (fun s l => writeBack false l s) s1 else s1
  writeTags i m.touched s2

/-- A unit completes (R193, R201): its writes are closed and its arrivals made; once their banks have answered, its counter is decremented. A command
without units ends here as well. -/
def completeUnit (i : Nat) (e : Eng) (m : EngCmd) (s : State) : State :=
  match m.arrs, (if nbUnits m.blk = 0 then none else nbBar m.blk) with
  | none, none => finishUnit i e m (closeUnit i e m s)
  | none, some off =>
    let s1 := closeUnit i e m s
    if off % 16 ≠ 0 ∨ 0x60000 < off + 16 then engFreeze i e { code := 0x01, addr := BitVec.ofNat 64 off } s1
    else sendArrivals i e m off s1
  | some 0, b =>
    if m.ovr then engFreeze i e { code := 0x06, addr := BitVec.ofNat 64 (b.getD 0) } s else finishUnit i e m s
  | some _, _ => s

/-- Whether a unit, or a command without units, is complete. -/
def EngCmd.unitDone (m : EngCmd) : Bool :=
  m.started && !m.waitsCb && (decide (0 < m.unitsDue) || (nbUnits m.blk == 0 && decide (nbN m.blk ≤ m.pos)))

/-- The units that complete together: one, or every one of a command without elements (R198). -/
def completeUnits (i : Nat) (e : Eng) (m : EngCmd) (s : State) : State :=
  if nbN m.blk = 0 then
    (rangeFrom 0 (max 1 (nbUnits m.blk - m.units))).foldl (fun s _ => match ((s.core i).eng e).q with
      | x :: _ => if x.id = m.id ∧ ((s.core i).eng e).frz = false then completeUnit i e x s else s
      | [] => s) s
  else completeUnit i e m s

/-- UNIT_COMPLETE (R193). -/
def execUnitComplete (c : CoreId) (e : Eng) (s : State) : Out :=
  let g := (s.core c).eng e
  match g.q with
  | [] => .next s
  | m :: _ => if m.unitDone && !g.frz && (s.core c).live then .next (completeUnits c e m s) else .next s

/-! ### System state words of the engines and buffers -/

/-- A handler's release of a frozen engine: its commands are discarded and their remaining units subtracted (R204). -/
def Core.releaseEng (c : Core) (e : Eng) : Core :=
  let g := c.eng e
  if g.frz then
    ((g.q.foldl (fun c m => c.dropK (nbKctr m.blk) (nbUnits m.blk - m.units)) c).modEng e fun g =>
      { g with frz := false, fctr := 0, fcode := 0, faddr := 0, q := [] }).settleObs
  else c

/-- Removes a core's engine from the waiting lists of every buffer. -/
def State.unwait (s : State) (i : Nat) (e : Eng) : State :=
  { s with cores := s.cores.map fun (j, c) =>
      (j, { c with cbs := c.cbs.map fun (n, b) =>
        (n, { b with claims := b.claims.filter (· != .eng i e), awaits := b.awaits.filter (· != .eng i e) }) }) }

/-- A write of ESTAT (R55, R204). -/
def writeEstat (i : Nat) (e : Eng) (v : Word) (s : State) : State :=
  let c := s.core i
  if c.tm then
    let s1 := s.modCore i fun c => c.modEng e fun g => { g with sat := v.getLsbD 32, satc := v.extractLsb' 48 16 }
    if v.getLsbD 31 = false ∧ (c.eng e).frz then (s1.modCore i fun c => c.releaseEng e).unwait i e else s1
  else s.modCore i fun c => c.modEng e fun g =>
    { g with sat := g.sat && v.getLsbD 32, satc := if v.extractLsb' 48 16 = 0 then 0 else g.satc }

/-- A write of CBDEF (R206, R272): pointers and vector are cleared, and engines that wait on the buffer, or hold a region of it, freeze
(R203). -/
def writeCbdef (i : Nat) (n : Nat) (v : Word) (s : State) : State :=
  let size := v.extractLsb' 13 13
  let base := v.extractLsb' 0 13
  let en := v.getLsbD 26 && !(size == 0 || decide (6144 < base.toNat + size.toNat))
  let b := (s.core i).cb n
  let s1 := s.modCore i fun c => { c with cbs := tabSet c.cbs n { en := en, size := size, base := base } }
  let holders := s.cores.flatMap fun (j, c) => [(j, Eng.c0), (j, Eng.c1)].filter fun p =>
    match (c.eng p.2).q with
    | m :: _ => (m.srcReg.isSome || m.dstReg.isSome) && nbCbCore (s.team j) m.blk == i && nbCb m.blk == n
    | [] => false
  let waiting := (b.claims ++ b.awaits).filterMap fun w => match w with
    | .eng j e => some (j, e)
    | .own => none
  (waiting ++ holders).foldl (fun s p => engFreeze p.1 p.2 { code := 0x07, addr := 0 } s) s1

/-- A handler's write of CBPTR: stored whole or ignored whole (R206). -/
def writeCbptr (i : Nat) (n : Nat) (v : Word) (s : State) : State :=
  s.modCore i fun c =>
    let b := c.cb n
    let clm := v.extractLsb' 39 13
    let cmt := v.extractLsb' 26 13
    let awt := v.extractLsb' 13 13
    let head := v.extractLsb' 0 13
    if c.tm && b.en && decide (head.toNat < b.size.toNat ∧ awt.toNat ≤ cmt.toNat ∧ cmt.toNat ≤ clm.toNat ∧ clm.toNat ≤ b.size.toNat) then
      c.modCb n fun b => { b with clm := clm, cmt := cmt, awt := awt, head := head }
    else c

/-- ESTAT_WRITE, the write of a core's own engine word (R204). -/
def execEstatWrite (c : CoreId) (e : Eng) (v : Word) (s : State) : Out := .next (writeEstat c e v s)

/-- CBDEF_WRITE (R206). -/
def execCbdefWrite (c : CoreId) (n : Fin 8) (v : Word) (s : State) : Out := .next (writeCbdef c n v s)

/-- CBPTR_WRITE (R206). -/
def execCbptrWrite (c : CoreId) (n : Fin 8) (v : Word) (s : State) : Out := .next (writeCbptr c n v s)

end Sys2Proof.Machine
end

