-- ==== Sys2Proof/Machine/Seq.lean ====
section
/-! DEFINITION. The sequencer (R113 to R128): fetch, branches, loops, waits, halt, traps, fences and stream barriers. -/
namespace Sys2Proof.Machine

/-! ### Instruction fetch -/

/-- The pages of `n` code bytes with their physical addresses (R249, R347, R451), or the fault of the fetch. -/
def codePieces (s : State) (i : Nat) (a : Word) (n : Nat) : Except TFault (List (TlbEnt × Nat × Nat)) :=
  match decodeEa a with
  | .global va => globalPieces s (.fetch i) (s.team i).ctx va n { x := true }
  | _ => .error { reason := 2 }

/-- Code bytes, or the fault of their fetch. -/
def fetchBytes (s : State) (i : Nat) (a : Word) (n : Nat) : Except TFault (List Byte) := (codePieces s i a n).map (piecesBytes s)

/-- The header at an address. -/
def fetchHeader (s : State) (i : Nat) (a : Word) : Except TFault Word :=
  match fetchBytes s i a 8 with
  | .ok l => .ok (BitVec.ofNat 64 (bytesNat l))
  | .error f => .error f

/-- The pages that code bytes lie in, with what a fetch needs of them. -/
def codeUses (a : Word) (n : Nat) : List (Nat × Perm) :=
  match decodeEa a with
  | .global va => pageUses va n { x := true }
  | _ => []

/-- Why core `i` cannot read `n` code bytes yet. -/
def codeWaits (s : State) (i : Nat) (a : Word) (n : Nat) : Option ReadWait :=
  match missesOf s (.fetch i) (s.team i).ctx (codeUses a n) with
  | m :: l => some (.walks (m :: l))
  | [] =>
    match codePieces s i a n with
    | .ok l => if l.any fun p => s.awaits p.2.1 p.2.2 then some .awaits else none
    | .error _ => none

/-- The pages of code bytes enter the core's TLB (R348), and their lines L2, with the classes of their pages (R340, R343). -/
def bringCode (i : Nat) (a : Word) (n : Nat) (s : State) : State :=
  match codePieces s i a n with
  | .ok l => fillPieces (s.team i).ctx l (learnPages (.fetch i) (s.team i).ctx (codeUses a n) s)
  | .error _ => s

/-- Whether code bytes have an uncorrectable error (R416). -/
def codeUe (s : State) (i : Nat) (a : Word) (n : Nat) : Bool :=
  match codePieces s i a n with
  | .ok l => l.any fun p => s.ueAt p.2.1 p.2.2
  | .error _ => false

/-- Address of the bundle after the one in issue (R14). -/
def State.nextPc (s : State) : Word :=
  match s.me.bun with
  | some b => b.npc
  | none => s.me.pc + 8

/-- What core `i` finds when it looks for the end of a body: why it waits, if it does, the address that it has come to, and the state with what it has
read on its way brought in. -/
structure SkipNow where
  wait : Option ReadWait
  addr : Word
  st   : State

/-- The address after the first of at most `n` bundles that carries LEND, or after all of them (R115). The headers are fetched as code is: through
the core's TLB, the walker and L2 (R340, R348, R349). DESIGN CHOICE (log entry 66): a header that cannot be read ends the search there, and the fetch at that
address meets the fault. -/
def skipBody (i : Nat) : Nat → Word → State → SkipNow
  | 0, a, s => { wait := none, addr := a, st := s }
  | n + 1, a, s =>
    match codeWaits s i a 8 with
    | some w => { wait := some w, addr := a, st := s }
    | none =>
      let t := bringCode i a 8 s
      match fetchHeader t i a with
      | .error _ => { wait := none, addr := a, st := t }
      | .ok h =>
        let b := a + BitVec.ofNat 64 (bundleLen h)
        if codeUe t i a 8 then { wait := none, addr := a, st := t }
        else if hdrLend h then { wait := none, addr := b, st := t }
        else skipBody i n b t

/-! ### Branches and loops -/

/-- A B-slot effect that is applied when the bundle completes (R114). -/
def pendB (k : BitVec 2) (a : Word) (s : State) : State := s.upd fun c => { c with pend := some { kind := k, arg := a } }

/-- The target of a displacement (R113). -/
def brTarget (s : State) (d : BitVec 16) : Word := s.me.pc + d.signExtend 64

/-- R113. -/
def execBr (d : BitVec 16) (s : State) : Out := runSlot 0 {} (fun t => pendB 0 (brTarget t d) t) s

/-- R113. -/
def execBz (d : BitVec 16) (s : State) : Out :=
  runSlot 0 (gateSq s.me 0) (fun t => if (t.me.sqAt 0).val = 0 then pendB 0 (brTarget t d) t else t) s

/-- R113. -/
def execBnz (d : BitVec 16) (s : State) : Out :=
  runSlot 0 (gateSq s.me 0) (fun t => if (t.me.sqAt 0).val = 0 then t else pendB 0 (brTarget t d) t) s

/-- R113: pushes the return address. -/
def execCall (d : BitVec 16) (s : State) : Out :=
  runSlot 0 {} (fun t => (pendB 0 (brTarget t d) t).upd fun c => c.pushSq 1 t.nextPc) s

/-- A jump to the value of a source. -/
def jumpTo (a : Src) (s : State) : Out :=
  runSlot 0 (gateSrc s a) (fun t => (pendB 0 (readSrc t a) t).upd fun c => c.drawIf (srcDraws a)) s

/-- R113. -/
def execRet (a : Src) (s : State) : Out := jumpTo a s

/-- R113. -/
def execJr (a : Src) (s : State) : Out := jumpTo a s

/-- The committed effect of a loop with a count (R115). -/
def loopCommit (n : Nat) (s : State) : State :=
  if n = 0 then
    let k := skipBody s.cur 16 s.nextPc s
    pendB 0 k.addr k.st
  else pendB 1 (BitVec.ofNat 64 n) s

/-- What keeps a loop with a count of 0 from issuing, where nothing else does: bundles that it skips and that cannot be read yet. The state has the
walks of its misses asked for. -/
def skipHold (n : Nat) (g : Gate) (s : State) : Option State :=
  if s.me.issuing = false ∧ n = 0 ∧ g.q = false ∧ g.o = false ∧ g.trap = none then
    let k := skipBody s.cur 16 s.nextPc s
    k.wait.map fun w => askFor (s.team s.cur).ctx w k.st
  else none

/-- A loop slot. -/
def loopSlot (n : Nat) (g : Gate) (draw : Bool) (s : State) : Out :=
  match skipHold n g s with
  | some t => .next (t.upd fun c => { c with held := { other := true } })
  | none => runSlot 0 g (fun t => (loopCommit n t).upd fun c => c.drawIf draw) s

/-- R115. -/
def execLoop (a : Src) (s : State) : Out := loopSlot (readSrc s a).toNat (gateSrc s a) (srcDraws a) s

/-- The count of a nest block: the product of its counts, at most 2^64 - 1 (R115). -/
def nestCount (b : Blk) : Nat := min (nbN b) (2 ^ 64 - 1)

/-- R115, R451. -/
def execLoopn (a : Src) (s : State) : Out :=
  loopSlot (nestCount (nbAt s (readSrc s a))) ((gateSrc s a).and (gateCmd s (readSrc s a) 128 16)) (srcDraws a) s

/-! ### Waits -/

/-- Whether a command of an engine's queue is counted on a counter. -/
def Engine.counts (g : Engine) (k : BitVec 4) : Bool := g.q.any fun m => BitVec.ofNat 4 (nbKctr m.blk) == k

/-- The counter of a stash or `wv.commit` command (R220, R221). -/
def StashCmd.kctr (m : StashCmd) : BitVec 4 :=
  if m.op = .wvCommit then m.desc.extractLsb' 72 4 else m.desc.extractLsb' 128 4

/-- The counter of a channel command, if it has one (R228). -/
def ChanCmd.kctr : ChanCmd → Option (BitVec 4)
  | .send _ _ => none
  | .sendM _ _ _ _ land _ => if land.getLsbD 61 then some (land.extractLsb' 57 4) else none

/-- The faults of frozen units that a wait on counter `k` takes, or a halt for none (R119, R122, R203, R245, R330, R387). A frozen
engine or queue is reported at a wait on the counter of its frozen command. -/
def unitFault (c : Core) (k : Option (BitVec 4)) : Option Trap :=
  let hit (x : BitVec 4) : Bool := match k with
    | none => true
    | some k => x == k
  let e0 : List Trap := if c.e0.frz ∧ hit c.e0.fctr then
    [{ cls := 0x9, code := 1, info := c.e0.fcode.setWidth 32, faddr := c.e0.faddr }] else []
  let e1 : List Trap := if c.e1.frz ∧ hit c.e1.fctr then
    [{ cls := 0x9, code := 2, info := c.e1.fcode.setWidth 32, faddr := c.e1.faddr }] else []
  let st : List Trap := if c.stash.frz ∧ hit c.stash.fctr then
    [{ cls := 0x9, code := 3, info := c.stash.fcode.setWidth 32, faddr := c.stash.faddr }] else []
  let chHit : Bool := match k, (c.chq.q.head?).bind ChanCmd.kctr with
    | none, _ => true
    | some k, some x => x == k
    | some _, none => false
  let ch : List Trap := if c.chq.frz ∧ chHit then [{ cls := 0xA, code := 3, info := c.chq.info, faddr := c.chq.faddr }] else []
  let co : List Trap := (c.colFaults.filter fun f => hit f.kctr).map fun f => { cls := 0xA, code := 4, info := f.code }
  (e0 ++ e1 ++ st ++ ch ++ co).head?

/-- R119: an acquire of the decrements that it saw (R267, R278), or the non-finite trap of R389. DESIGN CHOICE (log entry 55): while the
operand's own queue position is not ready, the wait is judged with the value that is to come: where that value does not meet it, it is held for
a reason of R34, and no shortfall is counted or trapped (R32, R33). -/
def execWaitLt (k : Fin 16) (b : Src) (s : State) : Out :=
  let c := s.me
  let kb := BitVec.ofNat 4 k
  let f := unitFault c (some kb)
  let met := decide ((c.getK k).toNat < (readSrc s b).toNat)
  if f.isNone ∧ met ∧ c.nft.contains kb ∧ (gateSrc s b).q = false ∧ (gateSrc s b).o = false ∧ (gateSrc s b).trap = none then
    .next (slotTrap 0 { cls := 0xC, code := 2 } (s.upd fun c => { c with nft := c.nft.erase kb }))
  else
    runSlot 0 ((gateSrc s b).and { o := f.isNone && !met, trap := f })
      (fun t => t.upd fun c =>
        let c1 := match tabGet? c.kclk k with
          | some l => { c with lclk := wordMax c.lclk (l + 1) }
          | none => c
        c1.drawIf (srcDraws b)) s

/-- The phase that a core's binding of an address records (R215). -/
def Core.bindingOf (c : Core) (a : Word) : Option (BitVec 4) := (c.binds.find? fun p => p.1 == a).map (·.2)

/-- What a `wait.bar` finds in this cycle (R120): TOUT and the vector it acquires, or that it waits on. -/
def waitBarNow (s : State) (a lim : Word) : Option (Bool × Clocks) :=
  match s.me.bindingOf a, barPlace s s.cur a with
  | some b, .ok (j, off) =>
    if (s.barAt j off).ph ≠ b then some (false, (tabGet {} (s.core j).barVecs off : BarVec).done)
    else if lim.toNat ≤ s.me.wbT then some (true, {}) else none
  | _, _ => some (true, {})

/-- R120. Each cycle that it waits, the held core counts one. -/
def execWaitBar (a b : Src) (s : State) : Out :=
  let ad := readSrc s a
  let g := (gateSrc s a).and (gateSrc s b)
  let rd := gateBar s ad
  match waitBarNow s ad (readSrc s b) with
  | some (tout, k) =>
    runSlot 0 (g.and rd) (fun t => t.upd fun c =>
      let c1 := { c with tout := tout, wbT := 0 }
      (if tout then c1 else c1.acquire k).drawIf (srcDraws a || srcDraws b)) s
  | none =>
    runSlot 0 (g.and (Gate.holdIf true)) id (if g.q || g.o then s else s.upd fun c => { c with wbT := c.wbT + 1 })

/-- R121. -/
def execWaitWake (s : State) : Out :=
  runSlot 0 (Gate.holdIf s.me.wakeq.isEmpty) (fun t => t.upd fun c =>
    match c.wakeq with
    | [] => c
    | (w, g) :: l => { c with wakeq := l, wval := true, wcmp := w, wgrn := g }) s

/-! ### Halt, trap and sysret -/

/-- Whether a calendar event brings load data. -/
def CalEv.isData : CalEv → Bool
  | .gData _ _ _ => true
  | .vData _ _ _ => true
  | .clock _ => true
  | _ => false

/-- Whether the core has outstanding work of the kinds that a halt waits for (R122). -/
def Core.outstanding (c : Core) : Bool :=
  !c.flights.isEmpty || c.cal.any (fun e => e.2.isData) || !c.e0.q.isEmpty || !c.e1.q.isEmpty || !c.chq.q.isEmpty
    || !c.stash.q.isEmpty

/-- A stash descriptor, or a `wv.commit` descriptor in its low half. -/
abbrev SDesc := BitVec 256

/-- The SID of a stash descriptor (R220). -/
def sdSid (d : SDesc) : BitVec 16 := d.extractLsb' 96 16

/-- Whether an entry is the one that a job names. -/
def StashEnt.is (e : StashEnt) (j : StashJob) : Bool := e.ctx == j.ctx && e.stage == j.stage && e.tag == j.tag && e.sid == sdSid j.desc

/-- The entry of a job goes. -/
def DieSt.dropEntry (x : DieSt) (j : StashJob) : DieSt := { x with stash := x.stash.filter fun e => !e.is j }.dueStage j.stage

/-- A handler's clearing of the stash queue (R330): the frozen command and those behind it are discarded with their counts, and what the engine was
doing for them ends. -/
def releaseStash (i : Nat) (s : State) : State :=
  let q := (s.core i).stash
  if q.frz = false then s
  else
    let gone := q.q.filter fun m => decide (q.fid ≤ m.id)
    let mine (j : StashJob) : Bool := j.core == i && gone.any fun m => m.id == j.id
    let s1 := s.modDie (coreDie i) fun x =>
      let y := (x.jobs.filter fun j => mine j && j.moving && j.op == .put).foldl (fun x j => x.dropEntry j) x
      { y with jobs := y.jobs.filter fun j => !mine j }
    s1.modCore i fun c =>
      { gone.foldl (fun c m => c.dropK m.kctr.toNat 1) c with stash := { q := c.stash.q.filter fun m => !decide (q.fid ≤ m.id) } }

/-- A handler's clearing of the channel queue: its commands are discarded and their counts subtracted (R245). -/
def Core.releaseChan (c : Core) : Core :=
  if c.chq.frz then
    { c.chq.q.foldl (fun c m => match m.kctr with
        | some k => c.dropK k.toNat 1
        | none => c) c with chq := {} }
  else c

/-- Drops the faults of frozen collectives with their counts (R122). -/
def Core.releaseCols (c : Core) : Core :=
  { c.colFaults.foldl (fun c f => c.dropK f.kctr.toNat f.cnt) c with colFaults := [] }

/-- Step 1 of a halt in a handler: every frozen unit is discarded (R122). -/
def discardFrozen (s : State) : State :=
  let i := s.cur
  let s1 := if s.me.e0.frz then (s.upd fun c => c.releaseEng .c0).unwait i .c0 else s
  let s2 := if s1.me.e1.frz then (s1.upd fun c => c.releaseEng .c1).unwait i .c1 else s1
  (releaseStash i s2).upd fun c => c.releaseChan.releaseCols

/-- R122. In a handler the frozen units are discarded first, and no recorded fault is taken. -/
def execHalt (s : State) : Out :=
  if s.me.tm then
    let t := discardFrozen s
    runSlot 0 (Gate.holdIf t.me.outstanding) (pendB 2 0) t
  else
    let f := unitFault s.me none
    runSlot 0 { o := f.isNone && s.me.outstanding, trap := f } (pendB 2 0) s

/-- R123. -/
def execTrap (code : BitVec 8) (s : State) : Out := runSlot 0 {} (pendB 3 (code.setWidth 64)) s

/-- R124: it takes effect when its bundle completes. Outside a handler its port is reserved. -/
def execSysret (s : State) : Out :=
  if s.me.tm then runSlot 0 {} (fun t => t.upd fun c => { c with sret := true }) s
  else .next (takeTrap s.cur { cls := 1, code := 0x03 } 0 s.me.pc true 0 s)

/-! ### Fences, stream barriers and checkpoints -/

/-- R125: at system scope the lines that the core has written are written back (R265). -/
def execFence (sc : FenceScope) (s : State) : Out :=
  runSlot 0 (Gate.holdIf s.me.accPending)
    (fun t => if sc = .sys then writeBackOf t.cur t else t) s

/-- The streams of an address: the scratchpad, or memory outside it. -/
def isSpad (a : Word) : Bool :=
  match decodeEa a with
  | .local _ => true
  | .peer _ _ _ => true
  | _ => false

/-- The streams in which an engine command reads and writes: scratchpad reads, scratchpad writes, memory outside (R126). -/
def EngCmd.streams (m : EngCmd) : Bool × Bool × Bool :=
  let src := isSpad (BitVec.ofNat 64 (blkBytes m.blk 0 8))
  let dst := isSpad (BitVec.ofNat 64 (blkBytes m.blk 8 8))
  (nbSkind m.blk == 2 || (nbSkind m.blk == 0 && src),
   nbBar m.blk != none || nbDkind m.blk == 2 || (nbDkind m.blk == 0 && dst),
   (nbSkind m.blk == 0 && !src) || (nbDkind m.blk == 0 && !dst))

/-- The streams of a stash command: a put reads and a get writes at ADDR, and both move the entry's data outside the
scratchpad. -/
def StashCmd.streams (m : StashCmd) : Bool × Bool × Bool :=
  let sp := isSpad (m.desc.extractLsb' 0 64)
  match m.op with
  | .put => (sp, false, true)
  | .get => (false, sp, true)
  | .wvCommit => (true, false, false)
  | _ => (false, false, true)

/-- The streams of a channel command: a `send.m` reads the scratchpad. -/
def ChanCmd.streams : ChanCmd → Bool × Bool × Bool
  | .send _ _ => (false, false, false)
  | .sendM _ _ _ _ _ _ => (true, false, false)

/-- Whether an outstanding access of the core or of a command in one of its queues lies in the named streams (R126). -/
def Core.streamsBusy (c : Core) (rd wr mem : Bool) : Bool :=
  let hit (x : Bool × Bool × Bool) : Bool := (rd && x.1) || (wr && x.2.1) || (mem && x.2.2)
  c.flights.any (fun f => f.pending && ((f.glob && mem) || (!f.glob && ((f.write && wr) || (f.read && rd)))))
    || (c.e0.q ++ c.e1.q).any (fun m => hit m.streams) || c.stash.q.any (fun m => hit m.streams)
    || c.chq.q.any (fun m => hit m.streams)

/-- Whether an outstanding access of core `i` or of one of its commands lies in the named streams (R126): with those of its queues, the store of a put's stored
form, which goes on after the command has been counted (R328). -/
def State.streamsBusy (s : State) (i : Nat) (rd wr mem : Bool) : Bool :=
  (s.core i).streamsBusy rd wr mem || (mem && (s.die (coreDie i)).stash.any fun e => e.st == .writing && e.by_ == some i)

/-- R126. -/
def execSbar (rd wr mem : Bool) (s : State) : Out := runSlot 0 (Gate.holdIf (s.streamsBusy s.cur rd wr mem)) id s

/-- Whether writes of the core or of its engines are still to be performed (R127). DESIGN CHOICE (log entry 62): the commands behind a frozen
engine do not count, since they perform nothing until a handler discards them; `sbar` counts them as outstanding (R126). -/
def Core.writesPending (c : Core) : Bool :=
  c.accPending || (!c.e0.frz && !c.e0.q.isEmpty) || (!c.e1.frz && !c.e1.q.isEmpty)

/-- R127: the context's dirty lines are written back, the interval is closed and the step number recorded. -/
def execCkpt (a : Src) (s : State) : Out :=
  runSlot 0 ((gateSrc s a).and (Gate.holdIf s.me.writesPending)) (fun t =>
    let x := (t.team t.cur).ctx
    let v := readSrc t a
    ((writeBackCtx x t).modCtx x.toNat fun c => { c with cstep := v, ulog := [], ufull := false }).upd fun c =>
      c.drawIf (srcDraws a)) s

/-- R128, R301. -/
def execNextTile (s : State) : Out :=
  runSlot 0 {} (fun t => t.upd fun c =>
    if c.spos.toNat < c.slen.toNat then { c.pushSq 2 (c.sched.getD c.spos.toNat 0) with spos := c.spos + 1 }
    else c.pushSq 2 (BitVec.allOnes 64)) s

/-- R96. -/
def execNop (s : State) : Out := runSlot 0 {} id s

end Sys2Proof.Machine
end

