-- ==== Sys2Proof/Machine/Home.lean ====
section
/-! DEFINITION. Accesses beyond the core (R110, R248, R251, R279, R340, R341, R347 to R350): acceptance with translation and race
check, home slices, mesh arrivals, `.sc` atomics, router combining, fills, write-backs and page walks. -/
namespace Sys2Proof.Machine

/-! ### Translation of a deferred access -/

/-- The global address of an element. -/
def elemVa (e : Elem) : Option Nat :=
  match decodeEa e.ea with
  | .global va => some va
  | _ => none

/-- The elements of an access that are to be translated, with what they need (R349). -/
def accUses (s : State) (i : Nat) (a : Access) : List (Nat × Perm) :=
  (a.elems.filter fun e => (elemFault s i a.kind a.cls a.align e).isNone).filterMap fun e =>
    (elemVa e).map fun va => (va, a.kind.perm)

/-- An element with its physical address and page, or its fault (R353). -/
def elemPa (s : State) (i : Nat) (k : AccKind) (e : Elem) : Except TFault (Option (TlbEnt × Nat)) :=
  match elemVa e with
  | none => .ok none
  | some va => (translate s (.slot i) (s.team i).ctx va e.len k.perm).map some

/-! ### Race checks of queued accesses -/

/-- The tag that a global line will have when everything queued at its home has been performed (R275). -/
def lineTagAfter (s : State) (l : Nat) : RaceTag :=
  match s.home.reverse.find? fun r => r.writes && r.chk && r.elems.any fun e => lineOf e.ea.toNat == l with
  | some r => writeTag s r.core r.kind
  | none => match s.l2At l with
    | some y => y.tag
    | none => {}

/-- The race check of an element at its home (R275): the failing tag. -/
def elemRaceHome (s : State) (i : Nat) (k : AccKind) (e : Elem) (p : Option (TlbEnt × Nat)) : Option RaceTag :=
  let bad (t : RaceTag) : Option RaceTag := if raceOk s i t k then none else some t
  match decodeEa e.ea, p with
  | .global _, some (t, pa) => if t.chk then bad (lineTagAfter s (lineOf pa)) else none
  | .peer x y off, _ => bad (s.granTagAfter ((s.team i).coreAt x y) (off / 64))
  | .local off, _ => bad (s.granTagAfter i (off / 64))
  | _, _ => none

/-- The trap of a deferred access whose pages are known: alignment and space, translation, and the race check of each element (R110,
R164, R358). -/
def homeTrap (s : State) (i : Nat) (a : Access) : Option Trap :=
  accTrap a.kind (a.elems.map fun e =>
    match elemFault s i a.kind a.cls a.align e with
    | some f => (e, some f, none)
    | none => match elemPa s i a.kind e with
      | .error f => (e, some f, none)
      | .ok p => (e, none, elemRaceHome s i a.kind e p))

/-! ### Acceptance -/

/-- A place that a request goes to: a line, or a granule of a core's scratchpad. -/
structure ReqAt where
  spad : Option Nat
  unit : Nat
  chk  : Bool := true
  cls  : BitVec 2 := 0
  ncmb : Bool := false
  deriving DecidableEq, Repr

/-- Where an element goes, and the element with its address there. -/
def elemAt (s : State) (i : Nat) (k : AccKind) (e : Elem) : Option (ReqAt × Elem) :=
  match decodeEa e.ea with
  | .global _ =>
    match elemPa s i k e with
    | .ok (some (t, pa)) =>
      some ({ spad := none, unit := lineOf pa, chk := t.chk, cls := t.cls, ncmb := t.ncmb }, { e with ea := BitVec.ofNat 64 pa })
    | _ => none
  | .peer x y off => some ({ spad := some ((s.team i).coreAt x y), unit := off / 64 }, { e with ea := BitVec.ofNat 64 off })
  | .local off => some ({ spad := some i, unit := off / 64 }, { e with ea := BitVec.ofNat 64 off })
  | _ => none

/-- Groups elements by the place they go to, in the order in which the places first come. -/
def groupReqs : List (ReqAt × Elem) → List (ReqAt × List Elem)
  | [] => []
  | (p, e) :: l =>
    let r := groupReqs l
    match r.find? fun q => q.1.spad == p.spad && q.1.unit == p.unit with
    | some q => (p, e :: q.2) :: r.filter fun q => !(q.1.spad == p.spad && q.1.unit == p.unit)
    | none => (p, [e]) :: r

/-- Enters a request in a queue: a load of a group goes before the writes of its own group, and after its group's earlier loads (R166). -/
def enqueueReq (r : Req) (l : List Req) : List Req :=
  if r.writes then l ++ [r]
  else
    match l.findIdx? fun q => q.grp && q.writes && q.core == r.core with
    | some n => l.take n ++ [r] ++ l.drop n
    | none => l ++ [r]

/-- Sends a request to its home or bank. -/
def sendReq (s : State) (r : Req) : State :=
  match r.spad with
  | none => { s with home := enqueueReq r s.home }
  | some j => s.modCore j fun c => { c with mesh := enqueueReq r c.mesh }

/-- The accepted access commits (R26, R110): its side effects, its scoreboard bit, its timestamp, and its requests. -/
def commitAccess (i : Nat) (a : Access) (s : State) : State :=
  let (c1, k) := (s.core i).stamp a.kind
  let reqs := groupReqs (a.elems.filterMap (elemAt s i a.kind))
  let id := c1.nextId
  let glob := a.elems.any fun e => (elemVa e).isSome
  let fl : Flight := { id := id, dest := a.dest, addr := (a.elems.head?.map (·.ea)).getD 0, write := k != .read, read := k != .write,
                       glob := glob, ord := accOrd k, left := reqs.length }
  -- what a load of the core's own bytes by a peer address must not see of its group's stores
  let before (p : ReqAt) : List (Nat × Option Byte) := if p.spad = some i ∧ k = .read then (s.core i).grpOld else []
  let c2 := ({ c1 with nextId := id + 1, flights := if reqs.isEmpty && a.dest == Dest.drop then c1.flights else c1.flights ++ [fl] }.markDest
    a.dest .awaited).commitSides a
  reqs.foldl (fun s p => sendReq s { flight := id, core := i, kind := k, elems := p.2, chk := p.1.chk, cls := p.1.cls,
                                     ncmb := p.1.ncmb, spad := p.1.spad, grp := true, before := before p.1 }) (s.setCore i c2)

/-- The outcome of looking at a deferred slot. -/
inductive Accept where
  /-- It still waits. -/
  | wait (s : State)
  | trap (t : Trap)
  /-- Accepted, with its slot's effects. -/
  | done (s : State)

/-- Looks at the deferred slot of core `i` (R110, R212, R240). -/
def accept (i : Nat) (d : Defer) (s : State) : Accept :=
  match d.op with
  | .access a =>
    let x := (s.team i).ctx
    let uses := accUses s i a
    let miss := missesOf s (.slot i) x uses
    if !miss.isEmpty then .wait (askWalks x miss s)
    else
      let s1 := learnPages (.slot i) x uses s
      match homeTrap s1 i a with
      | some t => .trap t
      | none => .done (commitAccess i a s1)
  | .barrier k a n =>
    match d.ans with
    | some true => .done s
    | some false => .trap { cls := 0x6, code := 0x01, faddr := a }
    | none =>
      if d.sent then .wait s
      else
        match barPlace s i a with
        | .error r => .trap (cmdTrap r a)
        | .ok (j, off) =>
          .wait ((s.modCore j fun c => { c with barArrs := c.barArrs ++ [{ off := off, kind := k, who := i, addr := a, n := n }] }).modCore i
            fun c => { c with defer := some { d with sent := true } })
  | .gzPut _ _ _ draws =>
    match d.ans with
    | some true => .done (s.modCore i fun c => c.drawIf draws)
    | some false => .trap { cls := 0xA, code := 0x01, info := 0x20 }
    | none => .wait (if (s.core i).accPending then s else s.modCore i fun c => { c with defer := some { d with sent := true } })

/-! ### Performing requests -/

/-- A request of a flight has been performed, with these bytes by place, and an uncorrectable error among them or none (R111); a flight without a
destination ends with its last. -/
def Core.performed (c : Core) (id : Nat) (data : Mem) (th : Word) (ue : Bool := false) : Core :=
  let fl := c.flights.map fun f =>
    if f.id = id then { f with left := f.left - 1, data := memOver f.data data, thome := wordMax f.thome th, ue := f.ue || ue } else f
  let ended := fl.filter fun f => f.left == 0 && f.dest == Dest.drop
  let lclk := ended.foldl (fun l f => if f.ord = .acq ∨ f.ord = .sc then wordMax l (f.thome + 1) else l) c.lclk
  { c with flights := fl.filter (fun f => !(f.left == 0 && f.dest == Dest.drop)), lclk := lclk }

/-- A byte of core `j`'s scratchpad as a request sees it: what its own group wrote before it does not count (R166). -/
def Req.spByte (r : Req) (s : State) (j a : Nat) : Byte :=
  match r.before.find? (·.1 == a) with
  | some (_, some b) => b
  | some (_, none) => Config.freeByte (s.era + spKey j (s.core j)) a
  | none => s.spByte j a

/-- Bytes at a request's place. -/
def reqBytes (s : State) (r : Req) (a n : Nat) : List Byte :=
  match r.spad with
  | none => s.gBytes a n
  | some j => (rangeFrom a n).map (r.spByte s j)

/-- The cores whose accesses a request performs: its own, and those of the atomics that routers have merged into it (R341). -/
def Req.cores (r : Req) : List Nat := r.core :: r.merged.map (·.1)

/-- Writes bytes at a request's place with its tag (R273). -/
def reqWrite (r : Req) (a : Nat) (bs : List Byte) (s : State) : State :=
  match r.spad with
  | none =>
    let s1 := (homeWrite (s.team r.core).ctx r.cls a bs s).modLine (lineOf a) fun y =>
      { y with by_ := r.cores.foldl (fun l i => if l.contains i then l else l ++ [i]) y.by_ }
    if r.chk then s1.modLine (lineOf a) fun y => { y with tag := writeTag s r.core r.kind } else s1
  | some j => tagGranules j a bs.length (writeTag s r.core r.kind) (spWrite j a bs s)

/-- Whether a request's data have an uncorrectable error (R416). -/
def Req.meetsUe (r : Req) (s : State) : Bool := r.spad.isNone && r.elems.any fun e => s.ueAt e.ea.toNat e.len

/-- Performs a request that is not held (R138, R251, R340). An atomic on data with an uncorrectable error writes nothing. -/
def performReq (r : Req) (s : State) : State :=
  match r.kind with
  | .read =>
    let m := gather (fun e => reqBytes s r e.ea.toNat e.len) r.elems
    s.modCore r.core fun c => c.performed r.flight m 0 (r.meetsUe s)
  | .write =>
    (r.elems.foldl (fun s e => reqWrite r e.ea.toNat e.data s) s).modCore r.core fun c => c.performed r.flight [] 0
  | .atomic a =>
    match r.elems with
    | [] => s
    | e :: _ =>
      let old := reqBytes s r e.ea.toNat e.len
      let key := locKey r.spad e.ea.toNat
      let th := s.locClock key
      let ue := r.meetsUe s
      let s2 := amoClock a key (if ue then s else reqWrite r e.ea.toNat (amoBytes a old) s)
      ((r.core, r.flight) :: r.merged).foldl (fun s p => s.modCore p.1 fun c => c.performed p.2 (memWrite [] 0 old) th ue) s2

/-- A request is performed, or a `.sc` atomic is held at its home (R279). -/
def serveReq (r : Req) (s : State) : State :=
  if amoIsSc r.kind then { s with scHeld := s.scHeld ++ [r] } else performReq r s

/-- The line or granule of a request. -/
def Req.unit (r : Req) : Nat :=
  match r.elems, r.spad with
  | e :: _, none => lineOf e.ea.toNat
  | e :: _, some _ => e.ea.toNat / 64
  | [], _ => 0

/-- Whether a write of a core comes behind a `.sc` atomic of its own that the home holds there (R166, R279): a higher slot's store to the same bytes lands
after the atomic. -/
def Req.behindSc (s : State) (r : Req) : Bool :=
  r.writes && s.scHeld.any fun b => b.core == r.core && b.spad == r.spad && b.unit == r.unit

/-- The first request that may be served: no earlier one goes to the same place, and a write waits for its group (R166, R340). -/
def nextReq (s : State) (ok : Req → Bool) : List Req → List Req → Option Req
  | _, [] => none
  | before, r :: l =>
    if ok r && !(r.grp && r.writes) && !r.behindSc s && before.all (fun b => b.unit != r.unit) then some r
    else nextReq s ok (before ++ [r]) l

/-- HOME_ACCESS (R340): slice `sl` performs the next access to a resident line. -/
def execHomeAccess (sl : Fin 1024) (s : State) : Out :=
  match nextReq s (fun r => homeSlice r.unit == sl.val && (s.l2At r.unit).isSome) [] s.home with
  | none => .next s
  | some r =>
    .next ((serveReq r { s with home := s.home.erase r }).touch r.unit)

/-- MESH_ACCESS_ARRIVAL (R251): the bank of core `c`'s scratchpad serves the next request. -/
def execMeshAccessArrival (c : CoreId) (s : State) : Out :=
  match nextReq s (fun _ => true) [] (s.core c).mesh with
  | none => .next s
  | some r => .next (serveReq r (s.modCore c fun k => { k with mesh := k.mesh.erase r }))

/-- The timestamp of a held atomic. -/
def Req.ts (r : Req) : Word :=
  match r.kind with
  | .atomic a => a.ts
  | _ => 0

/-- The earlier of two atomics in the order (T, module core index) (R280). -/
def tsBefore (a b : Req) : Bool := decide (a.ts.toNat < b.ts.toNat) || (a.ts == b.ts && decide (a.core < b.core))

/-- The line of a held atomic may have left L2 since: it is filled again (R340). -/
def refill (r : Req) (s : State) : State := if r.spad.isNone then fillLine (s.team r.core).ctx r.cls r.unit s else s

/-- SC_ATOMIC_PERFORM (R279): the least held atomic that the horizon has reached. -/
def execScAtomicPerform (s : State) : Out :=
  match (s.scHeld.foldl (fun l r => insertBy tsBefore r l) []).head? with
  | none => .next s
  | some r => if r.ts.toNat ≤ s.horizon.toNat then .next (performReq r (refill r { s with scHeld := s.scHeld.erase r })) else .next s

/-- LCLK_TICK (R278): 16 mesh cycles have passed, which are 10 ns (R261). -/
def execLclkTick (s : State) : Out :=
  .next { s with meshCyc := s.meshCyc + 16, slotNs := s.slotNs + 10, cores := s.cores.map fun (i, c) => (i, { c with lclk := c.lclk + 1 }) }

/-- Every `.sc` atomic of core `i` that has been issued and is still on its way to its home (R279). One that its home already holds does
not count: a home performs it when the horizon has reached its timestamp, and a core that reported less than that timestamp until then
would keep every `.sc` atomic from ever being performed, against R280. -/
def scPending (s : State) (i : Nat) : List Req :=
  (s.home ++ s.cores.flatMap fun p => p.2.mesh).filter fun r => r.core == i && amoIsSc r.kind

/-- What core `i` reports in a round (R279). -/
def horizonReport (s : State) (i : Nat) : Nat :=
  (scPending s i).foldl (fun m r => min m (r.ts.toNat - 1)) (s.core i).lclk.toNat

/-- Whether a core runs a context. -/
def Core.runs (c : Core) : Bool := c.run == .running || c.run == .stopping

/-- HORIZON_ROUND (R279). -/
def execHorizonRound (s : State) : Out :=
  match (s.cores.filter fun p => p.2.runs).map fun p => horizonReport s p.1 with
  | [] => .next s
  | x :: l => .next { s with horizon := BitVec.ofNat 64 (l.foldl min x) }

/-- Whether an atomic may be combined (R140). -/
def Req.combinable (s : State) (r : Req) : Bool :=
  match r.kind with
  | .atomic a => a.ord == .rlx && a.op != .swap && a.op != .cas && !r.ncmb && !r.grp
      && ((s.core r.core).flights.find? fun f => f.id == r.flight).all fun f => f.dest == Dest.drop
  | _ => false

/-- The merged request of an earlier and a later atomic that came by router inputs `ia` and `ib` (R341). -/
def mergeReq (ia ib : Nat) (a b : Req) : Req :=
  match a.kind, b.kind with
  | .atomic x, .atomic y =>
    let v := match x.op with
      | .addI64 => x.v + y.v
      | .faddF32 =>
        let p := x.v.toNat % 2 ^ 32
        let q := y.v.toNat % 2 ^ 32
        BitVec.ofNat 64 (if ib < ia then f32Add q p else f32Add p q)
      | op => amoNew op x.v y.v 0
    { b with kind := .atomic { y with v := v }, merged := b.merged ++ (a.core, a.flight) :: a.merged }
  | _, _ => b

/-- The first pair of a slice's queue that may merge (R341). -/
def mergePair (s : State) (sl : Nat) : List Req → Option (Req × Req)
  | [] => none
  | a :: l =>
    let cand := l.find? fun b => b.unit == a.unit
    match cand with
    | some b =>
      let sameOp := match a.kind, b.kind with
        | .atomic x, .atomic y => x.op == y.op
        | _, _ => false
      let sameEa := (a.elems.map (·.ea)) == (b.elems.map (·.ea))
      if homeSlice a.unit == sl && sameOp && sameEa && a.combinable s && b.combinable s then some (a, b) else mergePair s sl l
    | none => mergePair s sl l

/-- ROUTER_COMBINE (R341). -/
def execRouterCombine (sl : Fin 1024) (ia ib : Fin 6) (s : State) : Out :=
  match mergePair s sl s.home with
  | none => .next s
  | some (a, b) => .next { s with home := (s.home.map fun r => if r = b then mergeReq ia ib a b else r).erase a }

/-- Lines that requests and prefetches of a slice wait for. -/
def wantedLines (s : State) (sl : Nat) : List (BitVec 3 × BitVec 2 × Nat) :=
  ((s.home.map fun r => ((s.team r.core).ctx, r.cls, r.unit)) ++ s.prefs).filter fun p =>
    homeSlice p.2.2 == sl && (s.l2At p.2.2).isNone

/-- L2_FILL (R340, R343). -/
def execL2Fill (sl : Fin 1024) (s : State) : Out :=
  match wantedLines s sl with
  | [] => .next { s with prefs := s.prefs.filter fun p => homeSlice p.2.2 != sl.val }
  | (x, c, l) :: _ => .next (fillLine x c l { s with prefs := s.prefs.filter fun p => p.2.2 != l })

/-! ### Page walks -/

/-- PAGE_WALK_START (R349): at most 32 walks run at a time. -/
def execPageWalkStart (d : Die) (s : State) : Out :=
  let w := (s.die d).walks
  if (w.filter (·.started)).length < 32 then
    .next (s.modDie d fun x => { x with walks := modFirst (fun w => !w.started) (fun w => { w with started := true }) x.walks })
  else .next s

/-- PAGE_WALK_DONE (R340, R347, R349, R352); `ue` is the level of a table line with an uncorrectable error. -/
def execPageWalkDone (d : Die) (ue : Option (Fin 4)) (s : State) : Out :=
  match (s.die d).walks.find? (·.started) with
  | none => .next s
  | some w =>
    let va := w.page * 2 ^ 16
    let s1 := walkReads w.ctx va s
    .next (walkResult d w (walkEnd s1 w.ctx va (ue.or (walkUe s1 w.ctx va))) s1)

/-! ### Write-backs -/

/-- DIRTY_WRITEBACK (R340); a line that cannot be written back is fatal to its owner (R416). -/
def execDirtyWriteback (line : BitVec 41) (ue : Bool) (s : State) : Out :=
  let l := line.toNat
  match s.l2At l with
  | none => .next s
  | some y =>
    if y.dirty = false then .next s
    else if ue || y.ue then .next (containLine y.ctx l s)
    else .next (writeBack false l s)

/-! ### Arrival of data -/

/-- The destination of the oldest flight that has been performed receives its data (R48, R111, R278). -/
def Core.arrive (c : Core) (f : Flight) (ue : Bool) : Core :=
  let c1 := { c with flights := c.flights.filter fun g => g.id != f.id }
  let c2 := if f.ord = .acq ∨ f.ord = .sc then { c1 with lclk := wordMax c1.lclk (f.thome + 1) } else c1
  if ue || f.ue then c2.markDest f.dest (.uncorrectable f.addr) else c2.deliver f.dest f.data

/-- A calendar event of load data. -/
def Core.calArrive (c : Core) (e : CalEv) (ue : Bool) : Core :=
  match e with
  | .gData n v a => if ue then c.markG n (.uncorrectable a) else (c.setG n v).clearG n
  | .vData n v a => if ue then c.markV n (.uncorrectable a) else (c.setV n v).clearV n
  | .clock t => { c with lclk := wordMax c.lclk (t + 1) }
  | _ => c

/-- LOAD_DATA_ARRIVAL (R48, R111): data of the local scratchpad at their cycle, or of another home. -/
def execLoadDataArrival (c : CoreId) (ue : Bool) (s : State) : Out :=
  let k := s.core c
  match k.cal.find? fun e => decide (e.1 ≤ k.cyc) && e.2.isData with
  | some e => .next (s.modCore c fun k => ({ k with cal := k.cal.erase e }).calArrive e.2 ue)
  | none =>
    match k.flights.find? fun f => !f.pending with
    | some f => .next (s.modCore c fun k => k.arrive f ue)
    | none => .next s

/-! ### Reading and writing by virtual address -/

/-- The pieces of `n` bytes at an effective address of global memory, or the first fault. -/
def gPieces (s : State) (w : Seeker) (x : BitVec 3) (a : Word) (n : Nat) (p : Perm) : Except TFault (List (TlbEnt × Nat × Nat)) :=
  match decodeEa a with
  | .global va => globalPieces s w x va n p
  | _ => .error { reason := 2 }

/-- The pages of `n` bytes at an effective address, where it is one of global memory. -/
def gUses (a : Word) (n : Nat) (p : Perm) : List (Nat × Perm) :=
  match decodeEa a with
  | .global va => pageUses va n p
  | _ => []

/-- `n` bytes are brought in for a read: their pages into the reader's TLB, and their lines into L2 (R340, R343, R345, R348). -/
def bringIn (w : Seeker) (x : BitVec 3) (a : Word) (n : Nat) (s : State) : State :=
  match gPieces s w x a n { r := true } with
  | .ok l => fillPieces x l (learnPages w x (gUses a n { r := true }) s)
  | .error _ => s

/-- Whether an accepted write has still to reach one of `n` bytes (R340). -/
def gAwaits (s : State) (w : Seeker) (x : BitVec 3) (a : Word) (n : Nat) : Bool :=
  match gPieces s w x a n { r := true } with
  | .ok l => l.any fun p => s.awaits p.2.1 p.2.2
  | .error _ => false

/-- Bytes of global memory as L2 holds them. -/
def readGlobal (s : State) (w : Seeker) (x : BitVec 3) (a : Word) (n : Nat) : Except TFault (List Byte) :=
  (gPieces s w x a n { r := true }).map (piecesBytes s)

/-- Writes bytes over pieces of global memory. -/
def writePieces (x : BitVec 3) (l : List (TlbEnt × Nat × Nat)) (bs : List Byte) (s : State) : State :=
  (l.foldl (fun (acc : State × List Byte) q => (globalWrite x q.1.cls q.2.1 (acc.2.take q.2.2) acc.1, acc.2.drop q.2.2)) (s, bs)).1

/-- The module's own write of global memory, where its page lets it. -/
def writeGlobal (w : Seeker) (x : BitVec 3) (a : Word) (bs : List Byte) (s : State) : State :=
  match gPieces s w x a bs.length { w := true } with
  | .error _ => s
  | .ok l => writePieces x l bs s

end Sys2Proof.Machine
end

