-- ==== Sys2Proof/Machine/Gz.lean ====
section
/-! DEFINITION. The Gazetteer (R310 to R322): classes, folding, insertion, the ordered sweep and occupancy. -/
namespace Sys2Proof.Machine

/-! ### Classes and keys -/

/-- Fields of a class-table entry (R313). -/
def clsDef (e : Word) : Bool := e.getLsbD 63
/-- See `clsDef`. -/
def clsOrd (e : Word) : Bool := e.getLsbD 62
/-- See `clsDef`. -/
def clsNft (e : Word) : Bool := e.getLsbD 61
/-- See `clsDef`. -/
def clsOp (e : Word) : Nat := bitsOf e.toNat 55 52
/-- See `clsDef`. -/
def clsNexp (e : Word) : Nat := bitsOf e.toNat 31 16

/-- Fields of a key (R310). -/
def keyClass (k : BitVec 48) : Nat := (k.extractLsb' 40 8).toNat
/-- See `keyClass`. -/
def keyStage (k : BitVec 48) : BitVec 8 := k.extractLsb' 32 8
/-- See `keyClass`. -/
def keyTag (k : BitVec 48) : BitVec 16 := k.extractLsb' 16 16
/-- See `keyClass`. -/
def keyItem (k : BitVec 48) : Nat := (k.extractLsb' 0 16).toNat

/-- The class of a key on a die. -/
def DieSt.cls (d : DieSt) (k : BitVec 48) : Word := tabGet 0 d.classTab (keyClass k)

/-- Whether a stage is registered on a die (R297). -/
def DieSt.hasStage (d : DieSt) (n : BitVec 8) : Bool := d.stages.any fun g => g.num == n

/-! ### Folding (R314, R315) -/

/-- Elements of `w` bits of a payload. -/
def payElems (w n x : Nat) : List Nat := (rangeFrom 0 n).map fun e => x / 2 ^ (w * e) % 2 ^ w

/-- A payload from elements. -/
def payOf (w : Nat) (l : List Nat) : Nat := l.foldr (fun x acc => x % 2 ^ w + 2 ^ w * acc) 0

/-- Whether an FP32 pattern is an infinity or a NaN. -/
def f32NonFin (x : Nat) : Bool := x / 2 ^ 23 % 256 == 255

/-- A contribution as its class holds it: BF16 payloads become FP32 sums. -/
def foldFirst (op : Nat) (r : BitVec 512) : BitVec 1024 :=
  if op = 2 then BitVec.ofNat 1024 (payOf 32 ((payElems 16 32 r.toNat).map fun x => x * 65536)) else r.setWidth 1024

/-- Whether a value of a floating class holds an infinity or a NaN. -/
def holdsNonFin (op : Nat) (v : BitVec 1024) : Bool :=
  (op == 1 || op == 2 || op == 5 || op == 6) && (payElems 32 32 v.toNat).any f32NonFin

/-- One element's fold, and whether it clamps (R314). -/
def foldElem (op p c : Nat) : Nat × Bool :=
  if op = 1 ∨ op = 2 then (f32Add p c, false)
  else if op = 3 then ((p + c) % 2 ^ 32, false)
  else if op = 4 then
    let v := sintOf 32 p + sintOf 32 c
    let w := max (-(2 ^ 31 : Int)) (min v (2 ^ 31 - 1))
    (intBits 32 w, v != w)
  else if op = 5 then (f32Max p c, false)
  else if op = 6 then (f32Min p c, false)
  else if op = 7 then (p ||| c, false)
  else if op = 8 then (p &&& c, false)
  else if op = 9 then (min (p + c) (2 ^ 32 - 1), decide (2 ^ 32 ≤ p + c))
  else if op = 11 then (c, false)
  else (p, false)

/-- A fold of two values in the form in which an entry holds them: the value, OVF and NF. -/
def foldVal (op : Nat) (p c : BitVec 1024) : BitVec 1024 × Bool × Bool :=
  let r := ((payElems 32 32 p.toNat).zip (payElems 32 32 c.toNat)).map fun x => foldElem op x.1 x.2
  let v := BitVec.ofNat 1024 (payOf 32 (r.map (·.1)))
  (v, r.any (·.2), holdsNonFin op v || holdsNonFin op c)

/-- The payload of a dispatched entry and whether its rounding overflows (R314, R315, R321). -/
def payloadOut (op : Nat) (v : BitVec 1024) : BitVec 512 × Bool :=
  if op = 2 then
    let l := (payElems 32 32 v.toNat).map fun x => ffBf16.rne (f32 x)
    (BitVec.ofNat 512 (payOf 16 l), l.any fun x => x / 128 % 256 == 255)
  else (v.setWidth 512, false)

/-! ### Room and checks -/

/-- Entry slots that an entry of a class uses (R311). -/
def entrySlots (op : Nat) : Nat := if op = 2 then 2 else 1

/-- Staging slots that an entry of a class reserves (R311). -/
def entryStaged (c : Word) : Nat := if clsOrd c then clsNexp c else 0

/-- Entry slots in use. -/
def DieSt.gzUsed (d : DieSt) : Nat := d.gz.foldl (fun n e => n + e.width) 0

/-- Staging slots reserved. -/
def DieSt.gzStaged (d : DieSt) : Nat := d.gz.foldl (fun n e => n + e.staged) 0

/-- GZOCC (R322). -/
def gzoccWord (d : DieSt) : Word := BitVec.ofNat 64 (d.gzStaged * 2 ^ 16 + d.gzUsed)

/-- The waiting entry that a record folds into (R316). -/
def DieSt.gzWaiting (d : DieSt) (k : BitVec 48) : Option GzEnt :=
  if clsOp (d.cls k) = 0 then none else d.gz.find? fun e => e.key == k && e.st == .waiting

/-- Whether a class refuses a record: DEF clear, or a source index that an ordered class refuses (R318, R320). -/
def DieSt.gzRefuses (d : DieSt) (k : BitVec 48) (idx : Nat) : Bool :=
  let c := d.cls k
  !clsDef c || (clsOrd c && (decide (clsNexp c ≤ idx) || ((d.gzWaiting k).map fun e => (tabGet? e.slots idx).isSome).getD false))

/-- Whether the stage is registered and the slots that the record needs are free (R311, R320), beside those kept for other records. -/
def DieSt.gzRoom (d : DieSt) (kept : List (BitVec 48)) (k : BitVec 48) : Bool :=
  let need (f : Word → Nat) : Nat := ((k :: kept).map fun q => f (d.cls q)).sum
  d.hasStage (keyStage k) && ((d.gzWaiting k).isSome
    || (decide (d.gzUsed + need (fun c => entrySlots (clsOp c)) ≤ 4096) && decide (d.gzStaged + need entryStaged ≤ 65536)))

/-! ### Insertion -/

/-- A contribution enters an entry (R316 to R318): folded, or parked in its staging slot. -/
def GzEnt.take (e : GzEnt) (c : Word) (idx : Nat) (r : BitVec 512) (first : Bool) : GzEnt :=
  if clsOrd c then { e with slots := tabSet e.slots idx r }
  else
    let x := foldFirst (clsOp c) r
    if first then { e with val := x, nf := e.nf || holdsNonFin (clsOp c) x }
    else
      let (v, o, nf) := foldVal (clsOp c) e.val x
      { e with val := v, ovf := e.ovf || o, nf := e.nf || nf }

/-- NCON after one more contribution, and OVF when it saturates (R315, R316). -/
def GzEnt.count (e : GzEnt) : GzEnt :=
  if e.ncon = 0xFFFFFFFF then { e with ovf := true } else { e with ncon := e.ncon + 1 }

/-- Inserts an accepted record (R316), which carries a clock if a `gz.put` made it (R278). The stage's idle team is evaluated again (R306). -/
def gzInsert (d : Nat) (now : Nat) (k : BitVec 48) (idx : Nat) (r : BitVec 512) (clk : Word) (x : DieSt) : DieSt :=
  let c := x.cls k
  let wake (x : DieSt) : DieSt := { x with stages := x.stages.map fun g => if g.num = keyStage k then { g with due := true } else g }
  wake (match x.gzWaiting k with
  | some e => { x with gz := x.gz.map fun y => if y.id = e.id then { (y.take c idx r false).count with clk := wordMax y.clk clk } else y }
  | none =>
    let late := clsOp c != 0 && x.gz.any fun e => e.key == k && e.st == .dispatched
    let e : GzEnt := { id := x.gzNext + d, key := k, late := late, born := now, elig := if clsOrd c then none else some now,
                        width := entrySlots (clsOp c), staged := entryStaged c, clk := clk }
    { x with gz := x.gz ++ [e.take c idx r true], gzNext := x.gzNext + 1 })

/-- ORDERED_FOLD_SWEEP (R318): every complete ordered entry of the die reads its next staging slot; after its last it is
eligible. -/
def GzEnt.sweepStep (c : Word) (now : Nat) (e : GzEnt) : GzEnt :=
  let n := clsNexp c
  if clsOrd c ∧ e.elig = none ∧ e.st = .waiting ∧ e.slots.length = n then
    let x := foldFirst (clsOp c) (tabGet 0 e.slots e.sweep)
    let e1 := if e.sweep = 0 then { e with val := x, nf := e.nf || holdsNonFin (clsOp c) x }
      else
        let (v, o, nf) := foldVal (clsOp c) e.val x
        { e with val := v, ovf := e.ovf || o, nf := e.nf || nf }
    { e1 with sweep := e.sweep + 1, elig := if e.sweep + 1 = n then some now else none }
  else e

/-- See `GzEnt.sweepStep`. -/
def execOrderedFoldSweep (d : Die) (s : State) : Out :=
  .next (s.modDie d fun x =>
    let gz := x.gz.map fun e => e.sweepStep (x.cls e.key) s.meshCyc
    let woke (n : BitVec 8) : Bool := (x.gz.zip gz).any fun p => p.1.elig.isNone && p.2.elig.isSome && keyStage p.1.key == n
    { x with gz := gz, stages := x.stages.map fun g => if woke g.num then { g with due := true } else g })

/-! ### The current record (R241) -/

/-- The image of a dispatched entry. -/
def gzImage (c : Word) (e : GzEnt) (rcmp : Bool) : BitVec 1024 :=
  let (p, ov) := payloadOut (clsOp c) e.val
  let b (x : Bool) (i : Nat) : Nat := bit1 x i
  let flags := b e.late 0 + b e.ovf 1 + b (e.nf || ov) 2 + b (clsOrd c) 3 + b e.prom 4 + b rcmp 5
  BitVec.ofNat 1024 (p.toNat + e.key.toNat * 2 ^ 512 + e.ncon.toNat * 2 ^ 576 + flags * 2 ^ 608)

/-- Whether an image carries NF. -/
def imageNf (im : BitVec 1024) : Bool := im.getLsbD 610

/-- The key of an image. -/
def imageKey (im : BitVec 1024) : BitVec 48 := im.extractLsb' 512 48

end Sys2Proof.Machine
end

