-- ==== Sys2Proof/Machine/Chan.lean ====
section
/-! DEFINITION. Channels and the K-slot operations on them and on the Gazetteer (R223 to R246, R370, R371). -/
namespace Sys2Proof.Machine

/-! ### Bindings -/

/-- Binding `n`. -/
def State.modBind (s : State) (n : Nat) (f : Binding → Binding) : State :=
  match tabGet? s.binds n with
  | none => s
  | some b => { s with binds := tabSet s.binds n (f b) }

/-- The die that ch8..ch10 of a die lead to (R370). -/
def chDie (d : Nat) (ch : Nat) : Nat := let k := ch - 8; if k < d then k else k + 1

/-- The channel of a die that leads to another (R370). -/
def dieCh (d other : Nat) : Nat := 8 + if other < d then other else other - 1

/-- Whether an end names a team, its shape apart (R371). -/
def ChEnd.names (e : ChEnd) (t : Team) : Bool :=
  e.die == t.die && (if e.rect then t.kind == 3 && e.x0 == t.x0 && e.y0 == t.y0 else t.kind != 3 && e.stage == t.stage)

/-- Whether an end is that of a team: a rectangle is its origin and its shape (R371). -/
def ChEnd.isOf (e : ChEnd) (t : Team) : Bool := e.names t && (!e.rect || (e.lw == t.lw && e.lh == t.lh))

/-- The number of the matching binding of ch8..ch10 (R371). -/
def State.partner (s : State) (b : Binding) : Option Nat :=
  (s.binds.find? fun p => p.2.ctx == b.ctx && p.2.ch.val == dieCh b.rem.die b.loc.die && p.2.loc == b.rem && p.2.rem == b.loc).map (·.1)

/-- Whether a session with the neighbour on a port keys its bindings (R431): the neighbour has the port's number. -/
def State.keyed (s : State) (ch : Nat) : Bool :=
  s.cart.sessions.any fun x => x.role == .neighbour && x.open_ && x.peer == ch

/-- Whether a binding is in force for a team (R371, R431). -/
def State.inForce (s : State) (b : Binding) (t : Team) : Bool :=
  !b.refused && b.loc.lw == t.lw && b.loc.lh == t.lh
    && (if b.ch.val < 8 then b.met && s.keyed b.ch.val else (s.partner b).isSome)

/-- The binding of a channel for core `i`'s team, whether or not it is in force: that of the team's shape where there is one (R371). For a core
whose entry has ended it is that of the team of the entry (R399). -/
def State.chanOf (s : State) (i : Nat) (ch : Fin 11) : Option (Nat × Binding) :=
  let t := match s.teamOf i with
    | some t => t
    | none => (s.core i).was.getD (s.team i)
  let mine (p : Nat × Binding) : Bool := p.2.ctx == t.ctx && p.2.ch == ch && p.2.loc.names t
  match s.binds.find? fun p => mine p && p.2.loc.lw == t.lw && p.2.loc.lh == t.lh with
  | some p => some p
  | none => s.binds.find? mine

/-- The binding of a channel with BND set. -/
def State.bound (s : State) (i : Nat) (ch : Fin 11) : Option (Nat × Binding) :=
  match s.chanOf i ch with
  | some p => if s.inForce p.2 (s.team i) then some p else none
  | none => none

/-- Units of a message (R227). -/
def msgUnits : Msg → Nat
  | .scalar _ => 1
  | .vector _ => 4
  | .segment _ l => l.length / 64
  | .record _ _ _ => 2

/-- Whether a message is taken by a `recv`. -/
def msgIsReg : Msg → Bool
  | .scalar _ => true
  | .vector _ => true
  | _ => false

/-- The parked messages of a stream. -/
def Binding.stream (b : Binding) (ti : Nat) : List Msg := tabGet [] b.parked ti

/-- How many messages at the head of core `cur`'s stream on a channel its receives can take. -/
def parkedFor (s : State) (ch : Fin 11) : Nat :=
  match s.bound s.cur ch with
  | none => 0
  | some (_, b) => ((b.stream ((s.team s.cur).index s.cur)).takeWhile msgIsReg).length

/-- CHSTn (R231). -/
def chstWord (s : State) (i : Nat) (ch : Fin 11) : Word :=
  match s.chanOf i ch with
  | none => 0
  | some (_, b) =>
    let t := match s.teamOf i with
      | some t => t
      | none => (s.core i).was.getD (s.team i)
    let rxq := min 255 ((b.stream (t.index i)).filter msgIsReg).length
    BitVec.ofNat 64 (bit1 (s.inForce b t) 63 + b.infl * 2 ^ 48 + b.pend * 2 ^ 32 + b.cred * 2 ^ 20 + b.park * 2 ^ 8 + rxq)

/-! ### Checks of the K slot -/

/-- A failed K-slot check (R244, R357). -/
def checkK (info : Nat) : Trap := { cls := 0xA, code := 0x01, info := BitVec.ofNat 32 info }

/-- The gate of numbered checks in the order of R244. -/
def checksK (l : List (Nat × Bool)) : Gate :=
  match l.find? (·.2) with
  | none => {}
  | some (n, _) => { trap := some (checkK n) }

/-- The check that a channel is bound. -/
def unbound (s : State) (ch : Fin 11) : Nat × Bool := (0x01, (s.bound s.cur ch).isNone)

/-- Whether bytes are aligned and lie in the local scratchpad. -/
def localOk (a : Word) (len align : Nat) : Bool := (cmdLocal a len align).isNone

/-- A group whose command finds the channel queue full is held (R232). -/
def chanFull (c : Core) : Gate := Gate.holdIf (decide (4 ≤ c.chq.q.length))

/-- A command enters the channel queue (R232): an empty one it can leave 2 cycles later (R224). -/
def Core.enqChan (c : Core) (m : ChanCmd) : Core :=
  { c with chq := { c.chq with q := c.chq.q ++ [m], first := if c.chq.q.isEmpty then c.cyc + 2 else c.chq.first } }

/-! ### Sending -/

/-- R233. -/
def execSend (ch : Fin 11) (a : SendSrc) (s : State) : Out :=
  let g := (checksK [unbound s ch]).and (chanFull s.me)
  match a with
  | .src x =>
    runSlot 7 (g.and (gateSrc s x)) (fun t => t.upd fun c => (c.enqChan (.send ch (.scalar (readSrc t x)))).drawIf (srcDraws x)) s
  | .tq q =>
    runSlot 7 (g.and (gateTq s.me q)) (fun t => t.upd fun c => (c.enqChan (.send ch (.vector (rowLanes (headRow c q))))).popTq q) s

/-- Fields of the landing word and the length word of `send.m` (R228). -/
def lkind (land : Word) : Nat := bitsOf land.toNat 63 62
/-- See `lkind`. -/
def larg (land : Word) : BitVec 48 := land.extractLsb' 0 48

/-- The checks of `send.m` (R228, R234, R244). -/
def sendMChecks (s : State) (ch : Fin 11) (a land len : Word) : List (Nat × Bool) :=
  let n := len.toNat % 2 ^ 32
  let k := lkind land
  [unbound s ch,
   (0x04, k == 3 || bitsOf land.toNat 56 48 != 0 || (k == 0 && larg land != 0) || (k == 1 && bitsOf land.toNat 47 3 != 0)),
   (0x02, bitsOf len.toNat 63 48 != 0 || (k != 2 && bitsOf len.toNat 47 32 != 0) || (k == 0 && n != 8 && n != 256)
      || (k == 1 && (n % 64 != 0 || n == 0 || decide (1048576 < n))) || (k == 2 && n != 64)),
   (0x03, !localOk a n (if n = 8 then 8 else 64))]

/-- R234. -/
def execSendM (ch : Fin 11) (a : Src) (s : State) : Out :=
  let land := s.me.bank.lat.kB
  let len := s.me.bank.lat.kA
  let tooMany := land.getLsbD 61 && s.me.overK (bitsOf land.toNat 60 57) 1
  runSlot 7
    ((((gateSrc s a).and (checksK (sendMChecks s ch (readSrc s a) land len))).and (chanFull s.me)).and
      (checksC [(0x0B, tooMany)]))
    (fun t => t.upd fun c =>
      let c1 := if land.getLsbD 61 then c.addK (bitsOf land.toNat 60 57) 1 else c
      (c1.enqChan (.sendM ch (readSrc t a) (len.toNat % 2 ^ 32) (bitsOf len.toNat 47 32) land 0)).drawIf (srcDraws a)) s

/-- R230. -/
def execChwin (ch : Fin 11) (b : Src) (s : State) : Out :=
  let v := readSrc s b
  runSlot 7 ((gateSrc s b).and (checksK [unbound s ch, (0x06, decide (2 ^ 16 ≤ v.toNat))]))
    (fun t =>
      let t1 := match t.bound t.cur ch with
        | none => t
        | some (n, _) => t.modBind n fun b => { b with pend := min 65535 (b.pend + v.toNat) }
      t1.upd fun c => c.drawIf (srcDraws b)) s

/-! ### Receiving -/

/-- A receive waits for its message (R235). -/
def recvOp (ch : Fin 11) (d : Dest) (g : Gate) (add : State → Option Vec) (s : State) : Out :=
  runSlot 7 ((checksK [unbound s ch]).and g)
    (fun t =>
      let before := (t.me.recvs.filter fun r => r.ch == ch).length
      t.upd fun c => { c.markDest d .awaited with recvs := c.recvs ++
        [{ ch := ch, dest := d, add := add t, due := if parkedFor t ch ≤ before then none else some c.cyc }] }) s

/-- R235. -/
def execRecvG (n : Fin 16) (ch : Fin 11) (s : State) : Out := recvOp ch (.g n 8 false) (gateWG s.me n) (fun _ => none) s

/-- R235. -/
def execRecvV (n : Fin 32) (ch : Fin 11) (s : State) : Out := recvOp ch (.v n) (gateWV s.me n) (fun _ => none) s

/-- R236: the old value is read at issue. -/
def execRecvaddF32 (n : Fin 32) (ch : Fin 11) (s : State) : Out :=
  recvOp ch (.v n) (gateV s.me n) (fun t => some (t.me.getV n)) s

/-- Lane-wise FP32 sum (R236). -/
def vecAddF32 (a b : Vec) : Vec := vOfLanes fun i => f32Add (lane a i) (lane b i)

/-- Cycles until the data of a receive are present, from its issue or from its message (R224). -/
def RecvReq.wait (r : RecvReq) (now : Nat) : Nat :=
  let k := if r.add.isSome then 6 else 3
  match r.due with
  | some t => t + k - now
  | none => k

/-- What a message does to the destination of a receive (R224, R235 to R237). -/
def Core.receive (c : Core) (r : RecvReq) (m : Msg) (ue : Bool) : Core :=
  if ue then c.markDest r.dest (.uncorrectable 0)
  else
    match r.dest, m with
    | .g n _ _, .scalar v => c.after (r.wait c.cyc) (.gData n v 0)
    | .v n, .vector v => c.after (r.wait c.cyc) (.vData n (match r.add with
        | some o => vecAddF32 o v
        | none => v) 0)
    | d, _ => c.markDest d .wrongKind

/-- RECEIVE_DELIVERY (R235): the oldest receive of a channel whose stream holds a message that it can take. -/
def execReceiveDelivery (c : CoreId) (ue : Bool) (s : State) : Out :=
  let k := s.core c
  let ti := (s.team c).index c
  let ready (r : RecvReq) : Option (Nat × Msg) :=
    match s.bound c r.ch with
    | none => none
    | some (n, b) => match b.stream ti with
      | m :: _ => if msgIsReg m then some (n, m) else none
      | [] => none
  match k.recvs.find? fun r => (ready r).isSome with
  | none => .next s
  | some r =>
    match ready r with
    | none => .next s
    | some (n, m) =>
      let s1 := s.modBind n fun b => { b with parked := tabSet b.parked ti ((b.stream ti).drop 1), park := b.park - msgUnits m }
      .next (s1.modCore c fun k => { k.receive r m ue with recvs := k.recvs.erase r })

/-! ### The Gazetteer from the K slot -/

/-- The conditions of a `gz.put` but for the Gazetteer's acceptance (R240, R244): its sources, its checks, the read of its payload, and every
earlier access of the core performed. Whether its class refuses it is seen in the cycle that takes it (R319), or at once where its address is
bad, since the lower code is reported, or its payload races, since the check comes first (R358). -/
def gateGzPut (a b : Src) (s : State) : Gate :=
  let key := readSrc s a
  let ad := readSrc s b
  let rd : Gate := if localOk ad 64 64 then gateCmd s ad 64 64 else {}
  let refused := (s.me.gzGrant || !localOk ad 64 64 || rd.trap.isSome) && (s.die (coreDie s.cur)).gzRefuses (key.setWidth 48) (bitsOf s.me.bank.lat.kA.toNat 47 32)
  let chk := checksK [(0x20, decide (2 ^ 48 ≤ key.toNat) || refused), (0x21, !localOk ad 64 64)]
  (((gateSrc s a).and (gateSrc s b)).and (chk.and rd)).and (Gate.holdIf s.me.accPending)

/-- R240: while nothing else holds it, its group is held until the Gazetteer takes the record in a cycle of its own (R319), and its faults are
precise. Above another deferred slot of its group it inserts its record when the core's earlier accesses have been performed, in room that the
Gazetteer has kept since the group issued (log entry 64). -/
def execGzPut (a b : Src) (s : State) : Out :=
  let k : BitVec 48 := (readSrc s a).setWidth 48
  let idx : BitVec 16 := BitVec.ofNat 16 (bitsOf s.me.bank.lat.kA.toNat 47 32)
  let ad := readSrc s b
  let draws := srcDraws a || srcDraws b
  let g := gateGzPut a b s
  if s.me.issuing = false ∧ s.me.gzGrant = false ∧ g = {} then
    .next (s.upd fun c => { c with held := { other := true }, gzAsk := some (k, idx) })
  else
    runSlot 7 g (fun t =>
      let r : BitVec 512 := BitVec.ofNat 512 (cmdBytes t ad 64)
      if t.me.gzGrant && !t.me.accPending then
        (t.modDie (coreDie t.cur) fun x => gzInsert (coreDie t.cur) t.meshCyc k idx.toNat r t.me.lclk x).upd fun c => c.drawIf draws
      else t.upd fun c => { c with defer := some { slot := 7, op := .gzPut k idx r draws } }) s

/-- R242. -/
def execGzDone (a : Src) (s : State) : Out :=
  let t := s.team s.cur
  let v := readSrc s a
  let bad := match t.crec with
    | some im => (imageKey im).setWidth 64 != v
    | none => true
  runSlot 7 ((gateSrc s a).and (checksK [(0x22, bad)])) (fun u =>
    let u1 := match (u.me).team, u.teamOf u.cur with
      | some o, some t =>
        if t.retired || t.rcmp then u
        else
          let u2 : State := { u with teams := tabSet u.teams o { t with retired := true } }
          u2.modDie t.die fun x => { x with gzRet := x.gzRet ++ t.recId.toList }
      | _, _ => u
    u1.upd fun c => c.drawIf (srcDraws a)) s

/-- R241: the data are present 4 cycles after issue (R224). -/
def execGzRd (n : Fin 16) (a : Src) (s : State) : Out :=
  let o := (readSrc s a).toNat
  runSlot 7 (((gateSrc s a).and (gateWG s.me n)).and (checksK [(0x23, o % 8 != 0 || decide (120 < o))])) (fun t =>
    let v := BitVec.ofNat 64 (blkBytes ((t.team t.cur).crec.getD 0) o 8)
    t.upd fun c => ((c.markG n .awaited).after 4 (.gData n v 0)).drawIf (srcDraws a)) s

/-! ### Ports -/

/-- A port, and its change. -/
def State.port (s : State) (p : Nat) : PortSt := tabGet {} s.ports p
/-- See `State.port`. -/
def State.modPort (s : State) (p : Nat) (f : PortSt → PortSt) : State := { s with ports := tabMod {} s.ports p f }

/-- The port between two dies: the six pairs follow the torus and ring ports in ascending order (R445). -/
def pairPort (d e : Nat) : Nat :=
  let a := min d e
  let b := max d e
  if a = 0 then 7 + b else if a = 1 then 9 + b else 13

/-- The port of a binding (R370). -/
def Binding.port (b : Binding) : Nat := if b.ch.val < 8 then b.ch.val else pairPort b.loc.die (chDie b.loc.die b.ch.val)

/-- Whether a link carries data: it neither retrains nor is down (R373). -/
def State.linkUp (s : State) (p : Nat) : Bool := !(s.port p).retrain && !(s.port p).down

/-- A flit has passed its check: the count of its retransmissions is done with. -/
def flitOk (p : Nat) (s : State) : State := if (s.port p).retx = 0 then s else s.modPort p fun x => { x with retx := 0 }

/-! ### Keys of the links (R431, R432) -/

/-- The characters of a label. -/
def strBytes (t : String) : List Byte := t.toList.map fun c => BitVec.ofNat 8 c.toNat

/-- A step of the SPDM key schedule: HKDF-Expand to `n` bytes under a label and a context. PRESUMED (log entry 74): the length, the version and the
label go before the context, as SPDM 1.3 has them. -/
def spdmExpand (secret : List Byte) (label : String) (ctx : List Byte) (n : Nat) : List Byte :=
  hkdfExpand secret (natBytes 2 n ++ strBytes "spdm1.3 " ++ strBytes label ++ ctx) n

/-- The master secret of a session and the digest of its transcript. -/
def sessMaster (n : Nat) : List Byte := natBytes 64 (Config.sessSecret n).toNat
/-- See `sessMaster`. -/
def sessCtx (n : Nat) : List Byte := natBytes 64 (Config.sessHash n).toNat

/-- The secret from which a session's link keys come (R431): what the session exports, after so many updates (R432). PRESUMED (log entry 74): an update
replaces it as SPDM 1.3 replaces the secret of a direction. -/
def linkSecret (sess : Nat) : Nat → List Byte
  | 0 => spdmExpand (sessMaster sess) "exp master" (sessCtx sess) 64
  | k + 1 => spdmExpand (linkSecret sess k) "traffic upd" [] 64

/-- The label of a direction of a link (R431). -/
def linkLabel (tx : Bool) : String := if tx then "pm8 link tx" else "pm8 link rx"

/-- The `k`-th key of a direction of a binding, from the session between its ends (R431, R432). PRESUMED (log entry 74): the binding number follows the label
as four little-endian bytes. -/
def linkKey (sess b k : Nat) (tx : Bool) : List Byte := hkdfExpand (linkSecret sess k) (strBytes (linkLabel tx) ++ natBytes 4 b) 32

/-- The key of a binding of ch0..ch7 in a direction: none while the session of its ends is absent (R431). -/
def State.linkKeyOf (s : State) (b k : Nat) (tx : Bool) : Option (List Byte) :=
  (tabGet? s.binds b).bind fun x => (s.cart.sessions.find? fun y => y.role == .neighbour && y.open_ && y.peer == x.ch.val).map fun y => linkKey y.id b k tx

/-! ### Frames (R374, R432) -/

/-- The payload bytes of a frame of the wide-area mode (R374): a frame has at most 9,216 bytes, of which Ethernet, IPv6, UDP and the tag take 82. DESIGN
CHOICE (log entry 76): 640 more are kept for what the frame says of its payload, and where a payload is cut below that is a constant of Config. -/
def wideCut : Nat := 64 + min 8430 Config.frameCut

/-- A payload cut into frames of at most `n` bytes. -/
def cutPayload (n : Nat) : Nat → List Byte → List (List Byte)
  | 0, l => [l]
  | k + 1, l => if l.length ≤ n then [l] else l.take n :: cutPayload n k (l.drop n)

/-- The key that seals a frame: that of its binding (R374). DESIGN CHOICE (log entry 76): where no binding with a session stands behind it, a constant of Config. -/
def State.frameKey (s : State) (p : Nat) (b : Option Nat) (k : Nat) : List Byte :=
  match b.bind fun n => s.linkKeyOf n k true with
  | some key => key
  | none => natBytes 32 (Config.portKey p k).toNat

/-- The frames of a payload that leaves by a port now (R374): sealed with AES-256-GCM, under successive numbers. PRESUMED (log entry 74): the nonce is the number. -/
def framesOf (s : State) (p : Nat) (b : Option Nat) (h : FrameHead) (l : List Byte) : List Frame :=
  let x := s.port p
  let key := s.frameKey p b x.keyNo
  ((if x.wide then cutPayload wideCut (l.length / 64 + 1) l else [l]).zipIdx).map fun q =>
    { port := p, bind := b, keyNo := x.keyNo, ctr := x.frames + q.2, udp := if x.wide then some x.udp else none, head := h, part := q.2
      data := gcmSeal key (natBytes 12 (x.frames + q.2)) [] q.1, time := s.meshCyc }

/-- Flits and frames leave by a port, and are counted under its key (R432); the check of a flit before them has passed (R373). A frame under a new key is the
one that ends the old key at the receiver. DEDUCED (log entry 76): a flit carries a unit of 64 bytes. -/
def PortSt.sent (flits frames : Nat) (x : PortSt) : PortSt :=
  { x with rekey := if x.rekey = .sending then .none else x.rekey, retx := 0, flits := x.flits + flits, frames := x.frames + frames }

/-- A payload leaves the module by a port. -/
def emit (p : Nat) (b : Option Nat) (flits : Nat) (h : FrameHead) (l : List Byte) (s : State) : State :=
  if p < 8 then
    let fs := framesOf s p b h l
    { s with outbox := s.outbox ++ fs }.modPort p (PortSt.sent flits fs.length)
  else s

/-- The frames that one key may seal (R432). -/
def keyFrames : Nat := Config.nonceLimit + 2 ^ 32

/-- Whether the key of a port has numbers left for `copies` payloads of at most `n` bytes: a number that would repeat a nonce forces a rekey first (R432). -/
def State.frameRoom (s : State) (p copies n : Nat) : Bool := decide ((s.port p).frames + copies * (n / 64 + 1) ≤ keyFrames)

/-! ### Trust words -/

/-- The trust word of a path (R243, R437). -/
def trustWord (k : Cart) (p : Nat) : Word :=
  match tabGet? k.paths p with
  | none => 0
  | some d => BitVec.ofNat 64 (k.epoch.toNat * 2 ^ 32 + d.switches.length % 256 * 256 + 2 + bit1 d.att 0)

/-- R243. -/
def execTrustQ (a : Src) (s : State) : Out :=
  runSlot 7 (gateSrc s a) (fun t => t.upd fun c =>
    (c.pushSq 6 (trustWord t.cart ((readSrc t a).toNat % 65536))).drawIf (srcDraws a)) s

end Sys2Proof.Machine
end

