-- ==== Sys2Proof/Machine/Coll.lean ====
section
/-! DEFINITION. Collectives (R238, R239, R375 to R392): blocks and their checks, chunks, the sweep in member order, lost members,
aborts and completion records. -/
namespace Sys2Proof.Machine

/-! ### Blocks (R375) -/

/-- Fields of a block. -/
def cbOp (b : Blk) : Nat := blkBytes b 0 1
/-- See `cbOp`. -/
def cbRop (b : Blk) : Nat := blkBytes b 1 1
/-- See `cbOp`. -/
def cbDtype (b : Blk) : Nat := blkBytes b 2 1
/-- See `cbOp`. -/
def cbCfmt (b : Blk) : Nat := blkBytes b 3 1
/-- See `cbOp`. -/
def cbAlgo (b : Blk) : Nat := blkBytes b 4 1
/-- See `cbOp`. -/
def cbScope (b : Blk) : Nat := blkBytes b 5 1
/-- See `cbOp`. -/
def cbFpol (b : Blk) : Nat := blkBytes b 6 1
/-- See `cbOp`. -/
def cbKctr (b : Blk) : Nat := blkBytes b 7 1 % 16
/-- See `cbOp`. -/
def cbGroup (b : Blk) : Nat := blkBytes b 8 4
/-- Whether GROUP names a subgroup. -/
def cbSub (b : Blk) : Bool := cbGroup b / 2 ^ 30 == 1
/-- See `cbOp`. -/
def cbSbuf (b : Blk) : Nat := blkBytes b 0x10 8
/-- See `cbOp`. -/
def cbDbuf (b : Blk) : Nat := blkBytes b 0x18 8
/-- See `cbOp`. -/
def cbElems (b : Blk) : Nat := blkBytes b 0x20 8
/-- See `cbOp`. -/
def cbChunk (b : Blk) : Nat := blkBytes b 0x28 4
/-- See `cbOp`. -/
def cbStep (b : Blk) : Word := BitVec.ofNat 64 (blkBytes b 0x30 8)
/-- See `cbOp`. -/
def cbCrec (b : Blk) : Nat := blkBytes b 0x38 8
/-- See `cbOp`. -/
def cbRoot (b : Blk) : Nat := blkBytes b 0x40 2
/-- See `cbOp`. -/
def cbGzkey (b : Blk) : Nat := blkBytes b 0x48 8
/-- Element size. -/
def cbSize (b : Blk) : Nat := if cbDtype b = 8 ∨ cbDtype b = 9 then 4 else 2

/-- Origin and logarithms of the size of a subgroup (R377). -/
def cbRect (b : Blk) : Nat × Nat × Nat × Nat :=
  let g := cbGroup b
  (bitsOf g 3 0, bitsOf g 6 4, bitsOf g 9 7, bitsOf g 11 10)

/-- Whether a team position lies in a subgroup of a team (R290). -/
def subOk (t : Team) (i : Nat) (b : Blk) : Bool :=
  let (x, y, lw, lh) := cbRect b
  let w := 2 ^ lw
  let h := 2 ^ lh
  decide (lw ≤ 4 ∧ lh ≤ 3) && x % w == 0 && y % h == 0 && decide (x + w ≤ t.w ∧ y + h ≤ t.h)
    && decide (x ≤ t.tx i ∧ t.tx i < x + w ∧ y ≤ t.ty i ∧ t.ty i < y + h)

/-- Members of the block's group and this member's index. -/
def cbMembers (s : State) (x : Nat) (t : Team) (i : Nat) (b : Blk) : Option (Nat × Nat) :=
  if cbSub b then
    if subOk t i b then
      let (x0, y0, lw, lh) := cbRect b
      some (2 ^ (lw + lh), (t.ty i - y0) * 2 ^ lw + (t.tx i - x0))
    else none
  else (tabGet? (s.ctx x).groups (cbGroup b % 64)).map fun g => (g.n, g.member)

/-- Bytes on a wire of so many elements (R382). -/
def wireBytes (b : Blk) (n : Nat) : Nat :=
  match cbCfmt b with
  | 2 => (n + 63) / 64 * 65
  | 5 => (n + 15) / 16 * (nxBits 7 / 8)
  | 6 => (n + 15) / 16 * (nxBits 4 / 8)
  | _ => n * cbSize b

/-- Staging available to a chunk (R376, R381). -/
def cbStaging (s : State) (x : Nat) (b : Blk) : Nat :=
  if cbSub b then 4 * 2 ^ 20
  else
    match tabGet? (s.ctx x).groups (cbGroup b % 64) with
    | some g =>
      if g.wide then 32 * 2 ^ 20 + min (tabGet ({} : PortSt) s.ports 6).ovSize.toNat (tabGet ({} : PortSt) s.ports 7).ovSize.toNat
      else 32 * 2 ^ 20
    | none => 32 * 2 ^ 20

/-- Whether a collective of the same group and step is in flight at the member (R378). -/
def cbDup (s : State) (x i : Nat) (b : Blk) : Bool :=
  (s.ctx x).colls.any fun c => cbGroup c.blk == cbGroup b && cbStep c.blk == cbStep b && (!cbSub b || c.core == i)

/-- The offsets of the fields that fail their check, in ascending order (R376). -/
def colChecks (s : State) (x : Nat) (t : Team) (i : Nat) (b : Blk) : List (Nat × Bool) :=
  let g := cbGroup b
  let mem := cbMembers s x t i b
  let n := (mem.map (·.1)).getD 1
  let sz := cbSize b
  let chunk := cbChunk b
  let op := cbOp b
  [(0x00, decide (5 < op)),
   (0x01, decide (2 < cbRop b) || ((op == 2 || op == 3 || op == 5) && cbRop b != 0)),
   (0x02, !([0, 1, 8, 9].contains (cbDtype b))),
   (0x03, !([0, 2, 5, 6].contains (cbCfmt b)) || (cbCfmt b != 0 && cbDtype b == 9)),
   (0x04, decide (5 < cbAlgo b) || (cbAlgo b == 4 && cbSub b)),
   (0x05, decide (cbScope b < 2 ∨ 4 < cbScope b) || (cbSub b && cbScope b != 2)),
   (0x06, cbFpol b % 4 == 3 || decide (8 ≤ cbFpol b)),
   (0x07, decide (16 ≤ blkBytes b 7 1)),
   (0x08, decide (2 ≤ g / 2 ^ 30) || (if cbSub b then bitsOf g 29 12 != 0 else bitsOf g 29 6 != 0) || mem.isNone),
   (0x0C, blkBytes b 0x0C 4 == 0 || decide (60000000 < blkBytes b 0x0C 4)),
   (0x10, cbSbuf b % sz != 0),
   (0x18, cbDbuf b % sz != 0),
   (0x20, if op = 5 then cbElems b != 0 else cbElems b == 0 || decide (2 ^ 32 < cbElems b)
      || (op == 1 && (chunk == 0 || cbElems b % (n * (chunk / sz)) != 0))),
   (0x28, chunk % 4096 != 0 || decide (chunk < 4096 ∨ 4194304 < chunk)
      || decide (cbStaging s x b < n * (if cbCfmt b = 0 then chunk else wireBytes b (chunk / sz)))),
   (0x2C, blkBytes b 0x2C 4 != 0),
   (0x30, cbDup s x i b),
   (0x38, cbCrec b % 64 != 0),
   (0x40, decide (n ≤ cbRoot b)),
   (0x42, blkBytes b 0x42 6 != 0),
   (0x48, bitsOf (cbGzkey b) 62 48 != 0),
   (0x50, blkBytes b 0x50 48 != 0)]

/-- CAUSE.INFO of the first failing field (R244, R376). -/
def cbBad (s : State) (x : Nat) (t : Team) (i : Nat) (b : Blk) : Option Nat :=
  ((colChecks s x t i b).find? (·.2)).map fun p => 0x11 + 0x100 * p.1

/-! ### Chunks -/

/-- Chunks of one contribution: a barrier has none (R375, R379). -/
def cbChunks (b : Blk) : Nat := if cbOp b = 5 then 0 else (cbElems b * cbSize b + cbChunk b - 1) / cbChunk b

/-- Elements of chunk `j` of a contribution. -/
def chunkElems (b : Blk) (j : Nat) : Nat := min (cbChunk b / cbSize b) (cbElems b - j * (cbChunk b / cbSize b))

/-- The contribution's chunk that a chunk number stands for: in an all-gather the chunks of member m are numbered from m times the
chunks of one contribution. -/
def chunkPart (b : Blk) (j : Nat) : Nat := if cbOp b = 2 then j % cbChunks b else if cbOp b = 5 then 0 else j

/-- All chunk numbers. The control flit of a barrier's member has the member's number (R379). -/
def allChunks (c : Coll) : List Nat :=
  if cbOp c.blk = 5 then [c.member] else rangeFrom 0 (if cbOp c.blk = 2 then c.n * cbChunks c.blk else cbChunks c.blk)

/-- The member that owns a chunk: where it is summed, or whose contribution it is (R379). -/
def chunkOwner (c : Coll) (j : Nat) : Nat :=
  if cbOp c.blk = 2 then j / cbChunks c.blk else if cbOp c.blk = 3 then cbRoot c.blk else if cbOp c.blk = 5 then j else j % c.n

/-- Whether chunks are summed. -/
def summed (b : Blk) : Bool := cbOp b == 0 || cbOp b == 1 || cbOp b == 4

/-- Chunk `j`'s state. -/
def Coll.chunk (c : Coll) (j : Nat) : Chunk := tabGet {} c.chunks j

/-- Changes it. -/
def Coll.modChunk (c : Coll) (j : Nat) (f : Chunk → Chunk) : Coll := { c with chunks := tabMod {} c.chunks j f }

/-- The member at whose interface a chunk is summed when it does not go in-network (R379): of the tree, member 0. DEDUCED (log entry 70): in a
subgroup, whose staging is the die's (R377), a lost core's chunks are summed by the lowest member that is not lost. -/
def sumPlace (c : Coll) (j : Nat) : Nat :=
  let p := if cbAlgo c.blk = 3 then 0 else chunkOwner c j
  if cbSub c.blk && c.lost.contains p then ((rangeFrom 0 c.n).find? fun m => !c.lost.contains m).getD p else p

/-- Whether a chunk is summed at this member: an in-network chunk is summed at its switch (R379, R380). -/
def Coll.sumsHere (c : Coll) (j : Nat) : Bool := summed c.blk && sumPlace c j == c.member && (c.chunk j).algo != 4

/-- Whether this member sends a contribution to a chunk. -/
def Coll.sends (c : Coll) (j : Nat) : Bool := summed c.blk || chunkOwner c j == c.member

/-- Whether member `i` of a binary tree over member indices stands under member `r` or is it (R379). -/
def underTree (r : Nat) : Nat → Nat → Bool
  | 0, i => i == r
  | f + 1, i => i == r || (i != 0 && underTree r f ((i - 1) / 2))

/-- Children of a member of the tree. -/
def treeKids (n i : Nat) : Nat := ([2 * i + 1, 2 * i + 2].filter fun k => decide (k < n)).length

/-- How far this member stands from a place of the ring in the direction in which the chunk travels (R379). -/
def ringDist (c : Coll) (al j place : Nat) : Nat :=
  if al = 2 ∧ chunkPart c.blk j % 2 = 1 then (place + c.n - c.member) % c.n else (c.member + c.n - place) % c.n

/-- Copies of a payload that leave this member's ports in the hierarchical algorithm, at most one to each member (R379). -/
def hierCopies (c : Coll) (place payload : Nat) : Nat := min c.n (Config.hierCopies c.n c.member place payload)

/-- Copies of its own contribution that leave this member's ports (R379, R407); a subgroup's do not leave the die. -/
def ownCopies (c : Coll) (al j : Nat) : Nat :=
  if cbSub c.blk then 0
  else if al = 4 then 1
  else if al = 5 then hierCopies c (sumPlace c j) c.member
  else if summed c.blk then (if sumPlace c j = c.member then 0 else 1)
  else if al = 3 then treeKids c.n c.member + (if c.member = 0 then 0 else 1)
  else 1

/-- Copies of member `m`'s contribution that pass this member's ports on their way to the place of the sum (R379, R407). -/
def fwdCopies (c : Coll) (al j m : Nat) : Nat :=
  let place := sumPlace c j
  if cbSub c.blk || !summed c.blk || al == 4 || m == c.member || place == c.member then 0
  else if al = 5 then hierCopies c place m
  else if al = 3 then (if underTree c.member 12 m then 1 else 0)
  else
    let r := ringDist { c with member := m } al j place
    if 1 ≤ r ∧ r < ringDist c al j place then 1 else 0

/-- Copies of the result of a chunk that leave this member's ports (R379, R407). -/
def resCopies (c : Coll) (al j : Nat) : Nat :=
  let place := sumPlace c j
  if cbSub c.blk || al == 4 then 0
  else if al = 5 then hierCopies c place c.n
  else if al = 3 then
    if summed c.blk then treeKids c.n c.member
    else if chunkOwner c j = c.member then 0
    else treeKids c.n c.member + (if c.member = 0 then 0 else 1) - 1
  else if !summed c.blk && chunkOwner c j == c.member then 0
  else if ringDist c al j (if summed c.blk then place else chunkOwner c j) + 2 ≤ c.n then 1 else 0

/-- The ports by which a chunk's payloads reach this member and leave it (R370, R379): the ring's for the ring algorithms, by the group's
neighbours; no rule names them for the others. -/
def colPorts (s : State) (x : Nat) (c : Coll) (al j : Nat) : Nat × Nat :=
  let via (n d : Nat) : Nat := match tabGet? s.binds n with
    | some b => b.port
    | none => d
  let w := match tabGet? (s.ctx x).groups (cbGroup c.blk % 64) with
    | some g => (via g.west 6, via g.east 7)
    | none => (6, 7)
  if al = 1 then w
  else if al = 2 then (if chunkPart c.blk j % 2 = 1 then (w.2, w.1) else w)
  else
    let p := Config.colPort al c.n c.member j % 8
    (p, p)

/-- Whether this member writes the result of a chunk to DBUF (R380). -/
def Coll.writes (c : Coll) (j : Nat) : Bool :=
  if cbOp c.blk = 1 then chunkOwner c j == c.member else if cbOp c.blk = 4 then cbRoot c.blk == c.member else true

/-- Offset in DBUF of a chunk's result. -/
def Coll.dstOff (c : Coll) (j : Nat) : Nat :=
  if cbOp c.blk = 1 then j / c.n * cbChunk c.blk
  else if cbOp c.blk = 2 then j / cbChunks c.blk * (cbElems c.blk * cbSize c.blk) + chunkPart c.blk j * cbChunk c.blk
  else j * cbChunk c.blk

/-- Floating format of the elements; none for i32. -/
def cbFloat (b : Blk) : Option FF := codeFloat (cbDtype b)

/-- Elements as numbers. -/
def elemsOf (b : Blk) (l : List Byte) : List Nat :=
  let x := bytesNat l
  let w := 8 * cbSize b
  payElems w (l.length / cbSize b) x

/-- Bytes of elements. -/
def bytesOf (b : Blk) (l : List Nat) : List Byte := l.flatMap fun x => natBytes (cbSize b) x

/-- Runs of `n` values, the last padded with +0 (R382). -/
def runsOf (n : Nat) : Nat → List FpNum → List (List FpNum)
  | 0, _ => []
  | k + 1, l => if l.isEmpty then [] else (l.take n ++ List.replicate (n - l.length) (.fin false 0 0)) :: runsOf n k (l.drop n)

/-- Elements as they cross a link (R66, R68, R326, R382, R383): runs of 16 as NX blocks, or of 64 as FP8 codes after the exponent byte of the stash rule. -/
def encodeWire (b : Blk) (l : List Byte) : List Byte :=
  match cbFloat b with
  | none => l
  | some f =>
    let xs := (elemsOf b l).map f.value
    match cbCfmt b with
    | 2 => (runsOf 64 (xs.length / 64 + 1) xs).flatMap fun r =>
        let e := fp8Exponent r
        BitVec.ofInt 8 e :: r.map fun x => BitVec.ofNat 8 (if x.isFin then fp8Elem e x else 0x7F)
    | 5 => (runsOf 16 (xs.length / 16 + 1) xs).flatMap fun r => natBytes (nxBits 7 / 8) (nxEncode 7 (fun _ => .rna) r).1
    | 6 => (runsOf 16 (xs.length / 16 + 1) xs).flatMap fun r => natBytes (nxBits 4 / 8) (nxEncode 4 (fun _ => .rna) r).1
    | _ => l

/-- The value of element `i` of a coded payload, exactly (R66, R327, R382). -/
def wireElem (b : Blk) (f : FF) (l : List Byte) (i : Nat) : FpNum :=
  match cbCfmt b with
  | 2 => (ffE4m3.value (l.getD (65 * (i / 64) + 1 + i % 64) 0).toNat).mul (.fin false 1 (sintOf 8 (l.getD (65 * (i / 64)) 0).toNat))
  | 5 => nxElem 7 (bytesNat ((l.drop (nxBits 7 / 8 * (i / 16))).take (nxBits 7 / 8))) (i % 16)
  | 6 => nxElem 4 (bytesNat ((l.drop (nxBits 4 / 8 * (i / 16))).take (nxBits 4 / 8))) (i % 16)
  | _ => f.value (bytesNat ((l.drop (cbSize b * i)).take (cbSize b)))

/-- The bytes of `n` elements from a payload. -/
def decodeWire (b : Blk) (n : Nat) (l : List Byte) : List Byte :=
  match cbFloat b with
  | none => l
  | some f => if cbCfmt b = 0 then l else bytesOf b ((rangeFrom 0 n).map fun i => f.rne (wireElem b f l i))

/-- Values of the `n` elements of a contribution's payload widened to FP32 patterns, or 32-bit integers as they are (R380). -/
def widen (b : Blk) (n : Nat) (l : List Byte) : List Nat :=
  match cbFloat b with
  | none => elemsOf b l
  | some f => (rangeFrom 0 n).map fun i => ffF32.rne (wireElem b f l i)

/-- One step of the sweep (R380). -/
def sumElem (b : Blk) (x y : Nat) : Nat :=
  match cbFloat b, cbRop b with
  | none, 0 => (x + y) % 2 ^ 32
  | none, 1 => if sintOf 32 x < sintOf 32 y then y else x
  | none, _ => if sintOf 32 y < sintOf 32 x then y else x
  | some _, 0 => f32Add x y
  | some _, 1 => f32Max x y
  | some _, _ => f32Min x y

/-- The bytes of a sum: narrowed (R380). -/
def sumBytes (b : Blk) (xs : List Nat) : List Byte :=
  match cbFloat b with
  | none => bytesOf b xs
  | some f => bytesOf b (xs.map fun x => f.rne (f32 x))

/-- `chunk_sum` over the payloads of the contributions present, in member order, coded as the result is distributed (R380, R382). -/
def chunkSum (b : Blk) (n : Nat) (parts : List (List Byte)) : List Byte :=
  match parts.map (widen b n) with
  | [] => []
  | x :: l => encodeWire b (sumBytes b (l.foldl (fun acc y => (acc.zip y).map fun p => sumElem b p.1 p.2) x))

/-! ### Buffers -/

/-- What the use of a buffer comes to now: the controller waits for walks or for writes that the homes have accepted, it meets a fault code
(R387), or it has the buffer's pieces. -/
inductive BufNow where
  | wait (m : List Miss)
  | fault (f : BitVec 32)
  | ready (l : List (TlbEnt × Nat × Nat))
  deriving DecidableEq, Repr

/-- A buffer to be used with a permission (R387). -/
def bufNow (s : State) (x : Nat) (c : Coll) (a n : Nat) (p : Perm) : BufNow :=
  let w := Seeker.coll c.die
  let e := BitVec.ofNat 64 a
  match missesOf s w (BitVec.ofNat 3 x) (gUses e n p) with
  | m :: l => .wait (m :: l)
  | [] =>
    match gPieces s w (BitVec.ofNat 3 x) e n p with
    | .error _ => .fault 0x03
    | .ok l => .ready l

/-- Whether the controller goes past L2 (R265, R388): at system scope, but for a format window, whose lines only L2 holds (R345). -/
def pastL2 (b : Blk) (pa : Nat) : Bool := cbScope b == 4 && !paAperture pa

/-- A buffer to be read: dirty lines at system scope and failed race checks are faults (R277, R387, R388). -/
def bufRead (s : State) (x : Nat) (c : Coll) (a n : Nat) : BufNow :=
  match bufNow s x c a n { r := true } with
  | .wait m => .wait m
  | .fault f => .fault f
  | .ready l =>
    if l.any fun p => s.awaits p.2.1 p.2.2 then .wait []
    else if l.any fun p => (linesOf p.2.1 p.2.2).any fun q =>
        (cbScope c.blk == 4 && s.isDirty q) || (p.1.chk && (match s.l2At q with
          | some y => !raceOk s c.core y.tag .read
          | none => false)) then .fault 0x02
    else .ready l

/-- Reads a buffer at the collective's scope (R340, R348, R388): its bytes, and whether a line has an uncorrectable error (R416). -/
def bufBytes (x : Nat) (c : Coll) (l : List (TlbEnt × Nat × Nat)) (a n : Nat) (s : State) : State × List Byte × Bool :=
  readLines (BitVec.ofNat 3 x) (pastL2 c.blk) (lineCuts l) (learnPages (.coll c.die) (BitVec.ofNat 3 x) (gUses (BitVec.ofNat 64 a) n { r := true }) s)

/-- One piece of a buffer is written at the collective's scope (R388). -/
def writePiece (x : Nat) (b : Blk) (p : TlbEnt × Nat × Nat) (bs : List Byte) (s : State) : State :=
  let back (s : State) : State := (linesOf p.2.1 p.2.2).foldl (fun s l => writeBack false l s) s
  if pastL2 b p.2.1 then systemWrite x p.2.1 bs (back s)
  else
    let s1 := globalWrite (BitVec.ofNat 3 x) p.1.cls p.2.1 bs s
    if cbScope b = 4 then back s1 else s1

/-- Writes a buffer (R388). -/
def writeBuf (x : Nat) (c : Coll) (l : List (TlbEnt × Nat × Nat)) (bs : List Byte) (s : State) : State :=
  (l.foldl (fun (acc : State × List Byte) p => (writePiece x c.blk p (acc.2.take p.2.2) acc.1, acc.2.drop p.2.2)) (s, bs)).1

/-- The lines of a buffer that are race-checked (R273). -/
def bufLines (l : List (TlbEnt × Nat × Nat)) : List Nat :=
  ((l.filter fun p => p.1.chk).flatMap fun p => linesOf p.2.1 p.2.2).eraseDups

/-! ### A collective of a context -/

/-- Collective `id`. -/
def State.coll (s : State) (x id : Nat) : Option Coll := (s.ctx x).colls.find? fun c => c.id == id

/-- Changes it. -/
def State.modColl (s : State) (x id : Nat) (f : Coll → Coll) : State :=
  s.modCtx x fun c => { c with colls := c.colls.map fun k => if k.id = id then f k else k }

/-- Whether a chunk may go in-network (R392): the group names paths and every word has VALID and ATT. -/
def inNetwork (s : State) (x : Nat) (c : Coll) : Bool :=
  match tabGet? (s.ctx x).groups (cbGroup c.blk % 64) with
  | some g => !cbSub c.blk && !g.paths.isEmpty && g.paths.all fun p => (trustWord s.cart p).toNat % 4 == 3
  | none => false

/-- The algorithm of a chunk, and whether it fell back (R379, R392). -/
def chunkAlgo (s : State) (x : Nat) (c : Coll) : Nat × Bool :=
  let ring := match tabGet? (s.ctx x).groups (cbGroup c.blk % 64) with
    | some g => if !cbSub c.blk && (tabGet? s.binds g.west).isSome && (tabGet? s.binds g.east).isSome then 2 else 1
    | none => 1
  match cbAlgo c.blk with
  | 0 => if inNetwork s x c then (4, false) else (ring, false)
  | 4 => if inNetwork s x c then (4, false) else (ring, true)
  | k => (k, false)

/-- The algorithm of a chunk: as it started, or as it would start now. -/
def Coll.algoOf (s : State) (x : Nat) (c : Coll) (j : Nat) : Nat :=
  if (c.chunk j).sent then (c.chunk j).algo else (chunkAlgo s x c).1

/-- Payload bytes of a chunk on a wire. -/
def Coll.wireLen (c : Coll) (j : Nat) : Nat := wireBytes c.blk (chunkElems c.blk (chunkPart c.blk j))

/-- The binding whose key seals what leaves this member by a port: that of the group's neighbour there (R377). -/
def colBind (s : State) (x : Nat) (c : Coll) (p : Nat) : Option Nat :=
  (tabGet? (s.ctx x).groups (cbGroup c.blk % 64)).bind fun g => (g.west :: g.east :: g.torus).find? fun n => match tabGet? s.binds n with
    | some b => b.port == p
    | none => false

/-- Copies of a payload leave this member by the chunk's port, and are counted (R379, R382, R384, R386, R407): the payload is coded already, and the members
excluded go with it. -/
def sendPart (x : Nat) (c : Coll) (al j m : Nat) (k : ColKind) (copies : Nat) (l : List Byte) (s : State) : State :=
  let p := (colPorts s x c al j).2
  let h : FrameHead := .chunk k (BitVec.ofNat 3 x) (BitVec.ofNat 32 (cbGroup c.blk)) (cbStep c.blk) j m al c.lost
  (rangeFrom 0 copies).foldl (fun s _ => emit p (colBind s x c p) (max 1 ((l.length + 63) / 64)) h l s)
    (if copies = 0 then s else s.modColl x c.id fun q => { q with wire := q.wire + copies * l.length })

/-- Whether payloads can leave this member by a chunk's port (R373, R432). -/
def canSend (s : State) (x : Nat) (c : Coll) (al j copies : Nat) : Bool :=
  let p := (colPorts s x c al j).2
  copies == 0 || (s.linkUp p && s.frameRoom p copies (c.wireLen j))

/-- A frame reaches this member by a chunk's port: the flit before it has passed its check (R373). -/
def colArrives (x : Nat) (c : Coll) (al j : Nat) (s : State) : State := flitOk (colPorts s x c al j).1 s

/-- The collectives of the other members of a subgroup on this die: the same group, step and team. -/
def Coll.peers (s : State) (x : Nat) (c : Coll) : List Coll :=
  (s.ctx x).colls.filter fun k => cbSub c.blk && cbSub k.blk && cbGroup k.blk == cbGroup c.blk && cbStep k.blk == cbStep c.blk
    && k.team == c.team && k.id != c.id

/-- Whether the fields in which members must agree are equal (R377). -/
def cbAgree (a b : Blk) : Bool :=
  cbOp a == cbOp b && cbRop a == cbRop b && cbDtype a == cbDtype b && cbCfmt a == cbCfmt b && cbElems a == cbElems b
    && cbChunk a == cbChunk b && cbStep a == cbStep b && cbRoot a == cbRoot b

/-- A collective ends with a fault at one member, and is logged (R414). -/
def endMember (x : Nat) (k : Coll) (status fcode : BitVec 32) (s : State) : State :=
  let s1 := s.modColl x k.id fun k => k.fail status fcode
  if (s.ctx x).colls.any fun q => q.id == k.id && !q.ended then logContained 3 k.core fcode.toNat 0 s1 else s1

/-- Those members of a subgroup that have still to issue the collective will learn of its failure (R377, R384). -/
def noteFail (x : Nat) (c : Coll) (status fcode : BitVec 32) (s : State) : State :=
  let left := (rangeFrom 0 c.n).filter fun m => !c.seen.contains m
  if cbSub c.blk = false ∨ left = [] then s
  else s.modDie c.die fun d => { d with colFails := d.colFails ++
    [{ ctx := BitVec.ofNat 3 x, team := c.team, group := BitVec.ofNat 32 (cbGroup c.blk), step := cbStep c.blk, status := status, fcode := fcode, left := left }] }

/-- The other members of a group-table entry are told that a collective has failed at every member (R377, R384). DESIGN CHOICE (log entry 70): one notice leaves by
the port of its first chunk, where it can. -/
def sendNotice (x : Nat) (c : Coll) (status fcode : BitVec 32) (s : State) : State :=
  let al := c.algoOf s x 0
  if cbSub c.blk || !(fcode == 1 || fcode == 9) || !canSend s x c al 0 1 then s
  else sendPart x c al 0 c.member (.notice status fcode) 1 [] s

/-- A collective fails at this member and, in a subgroup, at every member; those of a group-table entry are told. -/
def failColl (x : Nat) (c : Coll) (status fcode : BitVec 32) (s : State) : State :=
  let s1 := if (s.ctx x).colls.any fun q => q.id == c.id && !q.ended then noteFail x c status fcode (sendNotice x c status fcode s) else s
  (c :: c.peers s x).foldl (fun s k => endMember x k status fcode s) s1

/-- A member learns of a failure that it has missed. -/
def learnFail (x : Nat) (c : Coll) (s : State) : State :=
  let mine (f : ColFail) : Bool := f.ctx.toNat == x && f.team == c.team && f.group.toNat == cbGroup c.blk && f.step == cbStep c.blk && f.left.contains c.member
  match (s.die c.die).colFails.find? mine with
  | none => s
  | some f =>
    endMember x c f.status f.fcode (s.modDie c.die fun d => { d with colFails :=
      (d.colFails.map fun q => if q = f then { q with left := q.left.filter (· != c.member) } else q).filter fun q => !q.left.isEmpty })

/-- What a token of a subgroup does (R239, R377, R384, R419). DEDUCED (log entry 70): its members are cores of one context, whose episode needs to
hear of nobody else; the collectives of the other members end, and the token is pending at every running core of the context. -/
def subTokens (x : Nat) (c : Coll) (s : State) : State :=
  let step := cbStep c.blk
  let s1 := (c.peers s x).foldl (fun s k => s.modColl x k.id fun k => k.fail 4 0x06) s
  let s2 := s1.modCtx x fun k =>
    let k1 := if k.abp then k else { k with abp := true, astep := k.cstep, acnt := 0, heard := [], adone := true, epGroup := none }
    { k1 with astep := stepMin step k1.astep }
  { s2 with cores := s2.cores.map fun (i, k) =>
      (i, if s2.coreIn x i ∧ (k.run = RunState.running ∨ k.run = RunState.stopping) then { k with token := true } else k) }

/-- The tokens of a fault policy (R239, R384): they carry the step number of the block. -/
def colTokens (x : Nat) (c : Coll) (s : State) : State :=
  if cbFpol c.blk % 4 ≠ 1 then s
  else if cbSub c.blk then subTokens x c s
  else
    match tabGet? (s.ctx x).groups (cbGroup c.blk % 64) with
    | some g => sendTokens x (cbGroup c.blk % 64, g) (cbStep c.blk) s
    | none => s

/-- Whether DBUF overlaps SBUF so that a result could be written over a contribution still to be read (R390): the whole contribution is then read at the
first chunk. -/
def Coll.keeps (c : Coll) : Bool :=
  let b := c.blk
  let n := cbElems b * cbSize b
  decide (cbSbuf b < cbDbuf b + n * (if cbOp b = 2 then c.n else 1) ∧ cbDbuf b < cbSbuf b + n)
    && !(cbSbuf b == cbDbuf b && (cbOp b == 0 || cbOp b == 3 || cbOp b == 4))
    && (summed b || cbOp b == 2 || (cbOp b == 3 && cbRoot b == c.member))

/-- Starts a collective of core `i` (R238, R307). Its members are compared (R377). -/
def startColl (t : Team) (i : Nat) (b : Blk) (baddr : Word) (s : State) : State :=
  let x := t.ctx.toNat
  match cbMembers s x t i b with
  | none => s
  | some (n, m) =>
    let c0 : Coll := { id := (s.ctx x).colNext, core := i, team := (s.core i).team, die := coreDie i, blk := b, baddr := baddr, n := n, member := m,
                       seen := [m] }
    let ps := c0.peers s x
    let c2 := { c0 with seen := ps.foldl (fun l p => if l.contains p.member then l else l ++ [p.member]) c0.seen
                        lost := (ps.flatMap (·.lost)).eraseDups }
    let s1 := s.modCtx x fun k => { k with colNext := k.colNext + 1, colls := (k.colls.map fun q =>
      if ps.any (fun p => p.id == q.id) then { q with seen := if q.seen.contains m then q.seen else q.seen ++ [m] } else q) ++ [c2] }
    let s2 := s1.modCore i fun c => c.addK (cbKctr b) 1
    learnFail x c2 (if ps.any fun p => !cbAgree p.blk b then failColl x c2 2 0x09 s2 else s2)

/-- R238: held until the core's accesses have been performed at system scope, and while the context has 16 collectives in flight. -/
def execColGo (a : Src) (s : State) : Out :=
  let ad := readSrc s a
  let b := nbAt s ad
  let t := s.team s.cur
  let x := t.ctx.toNat
  let rd : Gate :=
    if localOk ad 128 16 then
      -- a failed race check of the read is found after the checks of what it reads (R358)
      (match cbBad s x t s.cur b with
        | some n => { trap := some (checkK n) }
        | none => checksC [(0x0B, s.me.overK (cbKctr b) 1)] : Gate).and
        { trap := (granRace s s.cur s.cur ad.toNat 128 .read).map fun r => raceTrap .read r ad }
    else { trap := some (checkK 0x10) }
  runSlot 7
    (((gateSrc s a).and rd).and
      (Gate.holdIf (rd.trap.isNone && (s.me.accPending || decide (16 ≤ (s.ctx x).colls.length)))))
    (fun u => (startColl t u.cur b ad (writeBackOf u.cur u)).upd fun c => c.drawIf (srcDraws a)) s

/-- R239. The read of the step number is race-checked as every scratchpad read (R275). -/
def execColAbort (a : Src) (s : State) : Out :=
  let ad := readSrc s a
  let x := (s.team s.cur).ctx.toNat
  let rd : Gate :=
    if localOk ad 128 16 then
      match granRace s s.cur s.cur (ad.toNat + 0x30) 8 .read with
      | some r => { trap := some (raceTrap .read r (ad + 0x30)) }
      | none => {}
    else { trap := some (checkK 0x10) }
  runSlot 7 ((gateSrc s a).and rd) (fun t =>
    let step := BitVec.ofNat 64 (cmdBytes t (ad + 0x30) 8)
    let t1 := match (t.ctx x).colls.find? fun c => c.baddr == ad && c.core == t.cur && cbStep c.blk == step && !c.ended with
      | none => t
      | some c => colTokens x c (t.modColl x c.id fun k => k.fail 3 0x05)
    t1.upd fun c => c.drawIf (srcDraws a)) s

/-! ### Events of the controller -/

/-- A contribution at the summing place (R380, R384). -/
def Coll.addPart (c : Coll) (now j m : Nat) (l : List Byte) : Coll :=
  if c.lost.contains m then c
  else c.modChunk j fun k => { k with parts := tabSet k.parts m l, since := if k.since = none then some now else k.since }

/-! ### Staging (R381) -/

/-- The room that a chunk takes up while its contributions collect: N contributions (R376). -/
def Coll.room (c : Coll) : Nat :=
  c.n * (if cbCfmt c.blk = 0 then cbChunk c.blk else wireBytes c.blk (cbChunk c.blk / cbSize c.blk))

/-- The room that the collectives of all contexts take up in the staging of a port's link interface. -/
def portHeld (s : State) (p : Nat) : Nat :=
  (s.ctxs.flatMap fun y => y.2.colls.map fun c =>
    if cbSub c.blk || c.ended then 0
    else (c.chunks.filter fun q => !q.2.parts.isEmpty && q.2.result.isNone && (colPorts s y.1 c (c.algoOf s y.1 q.1) q.1).1 == p).length * c.room).sum

/-- The staging of a port: 32 MiB, with the overflow region for a wide-area group. -/
def portStaging (s : State) (x : Nat) (c : Coll) (p : Nat) : Nat :=
  32 * 2 ^ 20 + (match tabGet? (s.ctx x).groups (cbGroup c.blk % 64) with
    | some g => if g.wide then (tabGet ({} : PortSt) s.ports p).ovSize.toNat else 0
    | none => 0)

/-- Whether a chunk's contribution finds staging at its port: the chunk holds its room from its first contribution on. -/
def portRoom (s : State) (x : Nat) (c : Coll) (al j : Nat) : Bool :=
  !(c.chunk j).parts.isEmpty || (let p := (colPorts s x c al j).1; decide (portHeld s p + c.room ≤ portStaging s x c p))

/-- Whether an entry of the controller's staging belongs to a chunk of a subgroup's collective. -/
def ColStage.isOf (q : ColStage) (x : Nat) (c : Coll) (j : Nat) : Bool :=
  q.ctx.toNat == x && q.team == c.team && q.group.toNat == cbGroup c.blk && q.step == cbStep c.blk && q.chunk == j

/-- The room that the entries of a list take up, one chunk once. -/
def stageHeld : List ColStage → Nat
  | [] => 0
  | q :: l => stageHeld l + (if l.any fun r => r.ctx == q.ctx && r.team == q.team && r.group == q.group && r.step == q.step && r.chunk == q.chunk
      then 0 else q.room)

/-- Whether a chunk of a subgroup finds room in the die controller's 4 MiB. -/
def dieRoom (s : State) (x : Nat) (c : Coll) (j : Nat) : Bool :=
  let l := (s.die c.die).colStage
  l.any (fun q => q.isOf x c j) || decide (stageHeld l + c.room ≤ 4 * 2 ^ 20)

/-- Stages data of a subgroup for its members; member `n` stands for the result, which takes the place of the contributions. -/
def stageCol (x : Nat) (c : Coll) (j m : Nat) (l : List Byte) (s : State) : State :=
  s.modDie c.die fun d => { d with colStage := (d.colStage.filter fun q => !(m == c.n && q.isOf x c j)) ++
    [{ ctx := BitVec.ofNat 3 x, team := c.team, group := BitVec.ofNat 32 (cbGroup c.blk), step := cbStep c.blk, chunk := j, member := m,
       room := c.room, took := if m = c.n then [c.member] else [], data := l }] }

/-- Data staged for a subgroup; member `n` stands for the result. -/
def stagedCol (s : State) (x : Nat) (c : Coll) (j m : Nat) : Option (List Byte) :=
  ((s.die c.die).colStage.find? fun q => q.isOf x c j && q.member == m).map (·.data)

/-- A member has taken a staged result, which goes once every member that can still take it has done so. -/
def tookCol (x : Nat) (c : Coll) (j : Nat) (s : State) : State :=
  let peers := c.peers s x
  let mine (q : ColStage) : Bool := q.isOf x c j && q.member == c.n
  s.modDie c.die fun d => { d with colStage := (d.colStage.map fun q => if mine q then { q with took := q.took ++ [c.member] } else q).filter fun q =>
    !(mine q && (rangeFrom 0 c.n).all fun m => q.took.contains m || (c.lost.contains m && !(peers.any fun p => p.member == m && !p.ended))) }

/-! ### Results -/

/-- Where a result goes: the buffer of a member that writes it. -/
def resultNow (s : State) (x : Nat) (c : Coll) (j n : Nat) : BufNow :=
  if c.writes j then bufNow s x c (cbDbuf c.blk + c.dstOff j) n { w := true } else .ready []

/-- A step that needs a buffer: it stays to be done while the buffer's walks are under way, and a fault ends the collective (R387). -/
def withBuf (x : Nat) (c : Coll) (r : BufNow) (s : State) (f : List (TlbEnt × Nat × Nat) → State → Out) : Out :=
  match r with
  | .wait m => .next (askWalks (BitVec.ofNat 3 x) m s)
  | .fault e => .next (forgetFaults (.coll c.die) (failColl x c 2 e s))
  | .ready l => f l s

/-- The elements of a result that are not finite, by their index in DBUF (R386). -/
def badElems (c : Coll) (j : Nat) (l : List Byte) : List Nat :=
  match cbFloat c.blk with
  | none => []
  | some f => (elemsOf c.blk l).zipIdx.filterMap fun (v, e) => if (f.value v).isFin then none else some (c.dstOff j / cbSize c.blk + e)

/-- Writes a result to DBUF and counts its non-finite elements (R380, R386). -/
def putResult (x : Nat) (c : Coll) (j : Nat) (l : List Byte) (ps : List (TlbEnt × Nat × Nat)) (s : State) : State :=
  let bad := if c.writes j then badElems c j l else []
  let s1 := writeBuf x c ps l (learnPages (.coll c.die) (BitVec.ofNat 3 x) (gUses (BitVec.ofNat 64 (cbDbuf c.blk + c.dstOff j))
    (if c.writes j then l.length else 0) { w := true }) s)
  s1.modColl x c.id fun k =>
    { k.modChunk j fun q => { q with written := true } with
      nnf := k.nnf + bad.length
      fnf := match k.fnf, bad with
        | none, e :: _ => some e
        | some f, e :: _ => some (min f e)
        | o, [] => o
      lines := (k.lines ++ bufLines ps).eraseDups }

/-- The switches that a chunk goes through (R436): those on the group's paths now, if it goes in-network. -/
def pathSwitches (s : State) (x : Nat) (c : Coll) (al : Nat) : List Word :=
  if al = 4 then
    match tabGet? (s.ctx x).groups (cbGroup c.blk % 64) with
    | some g => g.paths.flatMap fun n => match tabGet? s.cart.paths n with
      | some d => d.switches
      | none => []
    | none => []
  else []

/-- A chunk starts at this member (R379, R392): its algorithm is settled, and the trust words have been read. DEDUCED (log entry 70): where nothing
is summed, the record's ALGO is that of the last chunk started. -/
def startChunk (x : Nat) (c : Coll) (j al : Nat) (fb : Bool) (s : State) : State :=
  s.modColl x c.id fun k =>
    { k.modChunk j fun q => { q with sent := true, algo := al, via := pathSwitches s x c al } with
      algo := if summed c.blk then k.algo else al
      fbk := k.fbk || fb
      epoch := if cbAlgo c.blk = 0 ∨ cbAlgo c.blk = 4 then s.cart.epoch else k.epoch }

/-- The controller reads a whole contribution that results could overwrite, and keeps it (R277, R390, R416). -/
def takeSnap (x : Nat) (c : Coll) (ue : Bool) (s : State) : Out :=
  let n := cbElems c.blk * cbSize c.blk
  withBuf x c (bufRead s x c (cbSbuf c.blk) n) s fun ps s =>
    let (s1, l, bad) := bufBytes x c ps (cbSbuf c.blk) n s
    if ue || bad then .next (failColl x c 2 0x04 s1) else .next (s1.modColl x c.id fun q => { q with snap := some l })

/-- This member's contribution to a chunk, coded, leaves it or is summed here; one that is only moved is also written (R379, R382). -/
def contribute (x : Nat) (c : Coll) (j al : Nat) (fb : Bool) (l : List Byte) (s : State) : Out :=
  let w := encodeWire c.blk l
  let copies := ownCopies c al j
  if summed c.blk then
    let s1 := sendPart x c al j c.member .part copies w (startChunk x c j al fb s)
    let s2 := if sumPlace c j = c.member ∧ al ≠ 4 then s1.modColl x c.id fun k => k.addPart s.meshCyc j c.member w else s1
    .next (if cbSub c.blk then stageCol x c j c.member w s2 else s2)
  else
    withBuf x c (resultNow s x c j l.length) s fun qs s =>
      let s1 := sendPart x c al j c.member .result copies w (startChunk x c j al fb s)
      .next (putResult x c j (decodeWire c.blk (l.length / cbSize c.blk) w) qs (if cbSub c.blk then stageCol x c j c.n w s1 else s1))

/-- CHUNK_START (R379, R390, R392, R416): a chunk starts; this member's contribution to it is read and sent, or, where it is only moved, written
and sent, unless reading it meets an uncorrectable error. Where results could overwrite the contribution, all of it is read first. A member of a barrier
sends its control flit. -/
def execChunkStart (x : CtxId) (id : Nat) (r : ChunkRead) (s : State) : Out :=
  let chunk := r.chunk
  match s.coll x id with
  | none => .next s
  | some c =>
    let (al, fb) := chunkAlgo s x c
    let copies := ownCopies c al chunk
    if c.ended || (c.chunk chunk).sent || !(allChunks c).contains chunk then .next s
    else if cbOp c.blk = 5 then
      if canSend s x c al chunk copies then
        .next (sendPart x c al chunk c.member .flit copies [] (s.modColl x id fun k =>
          k.modChunk chunk fun q => { q with sent := true, algo := al, via := pathSwitches s x c al }))
      else .next s
    else if c.keeps && c.snap.isNone then takeSnap x c r.ue s
    else if !c.sends chunk then .next (startChunk x c chunk al fb s)
    else if !canSend s x c al chunk copies || (cbSub c.blk && !dieRoom s x c chunk)
        || (summed c.blk && sumPlace c chunk == c.member && al != 4 && !cbSub c.blk && !portRoom s x c al chunk) then .next s
    else
      let p := chunkPart c.blk chunk
      let a := cbSbuf c.blk + p * cbChunk c.blk
      let n := chunkElems c.blk p * cbSize c.blk
      match c.snap with
      | some l => if r.ue then .next (failColl x c 2 0x04 s) else contribute x c chunk al fb ((l.drop (p * cbChunk c.blk)).take n) s
      | none =>
        withBuf x c (bufRead s x c a n) s fun ps s =>
          let (s1, l, bad) := bufBytes x c ps a n s
          if r.ue || bad then .next (failColl x c 2 0x04 s1) else contribute x c chunk al fb l s1

/-- The `col.go` of a member, or in a barrier its control flit, has come: a flit passes on along the route of results (R379, R384). -/
def memberSeen (x : Nat) (c : Coll) (al m : Nat) (s : State) : State :=
  let s1 := if cbOp c.blk = 5 ∧ !c.seen.contains m then sendPart x c al m m .flit (resCopies c al m) [] s else s
  s1.modColl x c.id fun k => { k with seen := if k.seen.contains m then k.seen else k.seen ++ [m] }

/-- CONTRIBUTION_ARRIVAL (R377, R379, R381, R384): from another module, or from the die's staging. One that is summed elsewhere passes on. -/
def execContributionArrival (x : CtxId) (id member chunk : Nat) (data : List Byte) (agrees : Bool) (s : State) : Out :=
  match s.coll x id with
  | none => .next s
  | some c =>
    let al := c.algoOf s x chunk
    if c.ended || decide (c.n ≤ member) || c.lost.contains member then .next s
    else if cbSub c.blk then
      match stagedCol s x c chunk member with
      | none => .next s
      | some l =>
        if c.sumsHere chunk = true then .next (s.modColl x id fun k => k.addPart s.meshCyc chunk member l)
        else .next s
    else if !s.linkUp (colPorts s x c al chunk).1 then .next s
    else if !agrees then .next (failColl x c 2 0x09 (colArrives x c al chunk s))
    else if cbOp c.blk = 5 ∧ !canSend s x c al member (resCopies c al member) then .next s
    else
      let s1 := memberSeen x c al member (colArrives x c al chunk s)
      if !(allChunks c).contains chunk || !summed c.blk || data.length != c.wireLen chunk then .next s1
      else if c.sumsHere chunk then
        if portRoom s x c al chunk then .next (s1.modColl x id fun k => k.addPart s.meshCyc chunk member data) else .next s
      else
        let copies := fwdCopies c al chunk member
        if (c.chunk chunk).fwd.contains member then .next s1
        else if canSend s x c al chunk copies then
          .next (sendPart x c al chunk member .part copies data (s1.modColl x id fun k =>
            k.modChunk chunk fun q => { q with fwd := q.fwd ++ [member] }))
        else .next s

/-- CHUNK_SUM (R380, R382, R416): the owner sums a chunk once every contribution is present, and distributes the coded result, unless its staging
has an uncorrectable error. It writes the decode itself. -/
def execChunkSum (x : CtxId) (id : Nat) (r : ChunkRead) (s : State) : Out :=
  let chunk := r.chunk
  match s.coll x id with
  | none => .next s
  | some c =>
    let k := c.chunk chunk
    let need := (rangeFrom 0 c.n).filter fun m => !c.lost.contains m
    let copies := resCopies c k.algo chunk
    if c.ended || !c.sumsHere chunk || !k.sent || k.result.isSome || !(allChunks c).contains chunk
        || !(need.all fun m => (tabGet? k.parts m).isSome) || !canSend s x c k.algo chunk copies then .next s
    else if r.ue then .next (failColl x c 2 0x04 s)
    else
      let n := chunkElems c.blk (chunkPart c.blk chunk)
      let l := chunkSum c.blk n (need.filterMap fun m => tabGet? k.parts m)
      withBuf x c (resultNow s x c chunk (n * cbSize c.blk)) s fun ps s =>
        let s1 := (sendPart x c k.algo chunk c.n .result copies l s).modColl x id fun q =>
          { q.modChunk chunk fun y => { y with result := some l } with algo := k.algo }
        .next (putResult x c chunk (decodeWire c.blk n l) ps (if cbSub c.blk then stageCol x c chunk c.n l s1 else s1))

/-- CHUNK_RESULT_ARRIVAL (R380, R382, R384, R390): the coded result of a chunk, with the members that were excluded from it, once the chunk has started
here. It passes on as it came. -/
def execChunkResultArrival (x : CtxId) (id chunk : Nat) (data : List Byte) (lost : List Nat) (s : State) : Out :=
  match s.coll x id with
  | none => .next s
  | some c =>
    let k := c.chunk chunk
    let mine := if summed c.blk then c.sumsHere chunk else chunkOwner c chunk == c.member
    let c1 := { c with lost := (c.lost ++ lost).eraseDups }
    let copies := resCopies c1 k.algo chunk
    let n := chunkElems c.blk (chunkPart c.blk chunk)
    if c.ended || k.written || mine || cbOp c.blk == 5 || !(allChunks c).contains chunk || !k.sent then .next s
    else if !cbSub c.blk && (!s.linkUp (colPorts s x c k.algo chunk).1 || data.length != c.wireLen chunk || !canSend s x c k.algo chunk copies) then .next s
    else
      match (if cbSub c.blk then stagedCol s x c chunk c.n else some data) with
      | none => .next s
      | some l =>
        withBuf x c (resultNow s x c chunk (n * cbSize c.blk)) s fun ps s =>
          let s1 := (sendPart x c1 k.algo chunk c.n .result copies l (if cbSub c.blk then s else colArrives x c k.algo chunk s)).modColl x id fun q =>
            { q with lost := c1.lost, algo := if summed c.blk then k.algo else q.algo }
          .next (putResult x c chunk (decodeWire c.blk n l) ps (if cbSub c.blk then tookCol x c1 chunk s1 else s1))

/-- Whether something of a member can be missing where this collective stands (R384): its `col.go`; its contribution to a chunk whose timer runs here; or, as a
notice from another summing place or the want of what it moves says, a contribution to a chunk that has not come back. What an exclusion does there comes
with the result. -/
def Coll.misses (c : Coll) (member : Nat) : Bool :=
  member == c.member || !c.seen.contains member || (allChunks c).any fun j =>
    (c.sumsHere j && (c.chunk j).since.isSome && (tabGet? (c.chunk j).parts member).isNone)
      || (!cbSub c.blk && !(c.chunk j).written && (if summed c.blk then !c.sumsHere j && cbFpol c.blk % 4 != 2 else chunkOwner c j == member))

/-- MEMBER_LOST (R384), found here or told by a notice. A member whose own `col.go` came too late is lost itself, and learns it the same way. -/
def execMemberLost (x : CtxId) (id member : Nat) (s : State) : Out :=
  match s.coll x id with
  | none => .next s
  | some c =>
    if c.ended || decide (c.n ≤ member) || c.lost.contains member || !c.misses member then .next s
    else
      let lose (k : Coll) : Coll := { k with lost := (k.lost ++ [member]).eraseDups }
      let s1 := (c :: c.peers s x).foldl (fun s k => s.modColl x k.id lose) s
      if cbFpol c.blk % 4 = 2 then .next s1 else .next (colTokens x c (failColl x (lose c) 2 0x01 s1))

/-- Whether nothing of a collective is still to be done at this member. A chunk that is only moved does not come from a lost member (R384). A barrier
waits for its own flit to leave and for every member to have issued it (R380). -/
def Coll.done (c : Coll) : Bool :=
  if cbOp c.blk = 5 then (c.chunk c.member).sent && (rangeFrom 0 c.n).all fun m => c.seen.contains m || c.lost.contains m
  else (allChunks c).all fun j =>
    (c.chunk j).sent && ((c.chunk j).written || (!summed c.blk && c.lost.contains (chunkOwner c j)))

/-- The completion record (R386). -/
def colRecord (c : Coll) : List Byte :=
  let st := if c.ended then c.status.toNat else if c.lost.isEmpty then 0 else 1
  let first := c.lost.foldl min 0xFFFF
  natBytes 4 st ++ natBytes 4 (if c.ended then c.fcode.toNat else 0) ++ wordBytes (cbStep c.blk) ++ natBytes 1 c.algo
    ++ natBytes 1 (bit1 c.fbk 0) ++ natBytes 2 c.lost.length ++ natBytes 2 first ++ natBytes 2 0 ++ natBytes 8 c.nnf
    ++ natBytes 8 (c.fnf.getD (2 ^ 64 - 1)) ++ natBytes 8 c.wire ++ natBytes 4 c.epoch.toNat ++ natBytes 12 0

/-- What the issuing core learns of the end of a collective (R238, R386, R387, R389). -/
def Core.colEnd (c : Core) (k : Coll) (crecBad : Bool) : Core :=
  let kc := BitVec.ofNat 4 (cbKctr k.blk)
  if crecBad then { c.decK (cbKctr k.blk) with colFaults := c.colFaults ++ [{ kctr := kc, code := 0x03, cnt := 0 }] }
  else if k.ended then { c with colFaults := c.colFaults ++ [{ kctr := kc, code := k.fcode, cnt := 1 }] }
  else
    let c1 := c.decK (cbKctr k.blk)
    if 4 ≤ cbFpol k.blk ∧ k.nnf ≠ 0 then { c1 with nft := c1.nft ++ [kc] } else c1

/-- What a collective's end leaves behind (R386, R391): its record, if CREC can be written, the counter's decrement, which releases what the
collective has written, and a record for the Gazetteer. -/
def endColl (x : Nat) (c : Coll) (r : List Byte) (bad : Bool) (ls : List Nat) (s : State) : State :=
  let s1 := writeTags c.core ((c.lines ++ ls).map .line) s
  let s2 := (s1.modCore c.core fun k => k.colEnd c bad).modCtx x fun k => { k with colls := k.colls.filter fun q => q.id != c.id }
  let key := cbGzkey c.blk
  let s3 := if bitOf key 63 then s2.modDie c.die fun d => { d with gzAgent := d.gzAgent ++
      [{ coll := true, core := c.core, key := BitVec.ofNat 48 key, idx := c.member, payload := BitVec.ofNat 512 (bytesNat r) }] } else s2
  if cbSub c.blk && (c.peers s2 x).isEmpty then s3.modDie c.die fun d => { d with colStage := d.colStage.filter fun q => !q.isOf x c q.chunk } else s3

/-- COMPLETION_RECORD_WRITE (R386, R391). -/
def execCompletionRecordWrite (x : CtxId) (id : Nat) (s : State) : Out :=
  match s.coll x id with
  | none => .next s
  | some c =>
    if !(c.ended || c.done) then .next s
    else
      let r := colRecord c
      match bufNow s x c (cbCrec c.blk) 64 { w := true } with
      | .wait m => .next (askWalks (BitVec.ofNat 3 x) m s)
      | .fault _ => .next (logContained 3 c.core 3 0 (endColl x c r true [] (forgetFaults (.coll c.die) s)))
      | .ready ps => .next (endColl x c r false (bufLines ps) (writeBuf x c ps r s))

/-- ABORT_TOKEN_RECEIVE (R419): a token of the context's own job. -/
def execAbortTokenReceive (x : CtxId) (g : Fin 64) (sender : TokenFrom) (step : Word) (s : State) : Out :=
  if sender.job = ((s.ctx x).job).getD 0 then .next (onToken x g sender.member step s) else .next s

end Sys2Proof.Machine
end

