-- ==== Sys2Proof/Machine/Link.lean ====
section
/-! DEFINITION. What stands behind the channels (R229, R232, R234, R245, R370 to R374, R432): credit, departure, arrival and landing of
messages, the meeting of bindings, and the links. -/
namespace Sys2Proof.Machine

/-! ### Ends -/

/-- The running entry that an end names, with the shape stated (R371). -/
def State.teamAt (s : State) (b : Binding) : Option Team :=
  (s.teams.find? fun p => p.2.ctx == b.ctx && b.loc.names p.2 && s.inForce b p.2).map (·.2)

/-- Whether the other end of a binding is there: the matching binding, or a neighbour that has met (R371). -/
def State.farEnd (s : State) (b : Binding) : Bool :=
  !b.refused && (if b.ch.val < 8 then b.met && s.keyed b.ch.val else (s.partner b).isSome)

/-! ### Credit (R229) -/

/-- One 4 KiB grant leaves for the sending end. -/
def forwardGrant (n : Nat) (b : Binding) (s : State) : State :=
  let s1 := s.modBind n fun b => { b with pend := b.pend - 1, infl := b.infl + 64 }
  if b.ch.val < 8 then emit b.port (some n) 1 .credit [] s1
  else match s.partner b with
    | some m => s1.modBind m fun b => { b with cred := b.cred + 64 }
    | none => s1

/-- CREDIT_FORWARD (R229): binding `b` forwards a grant; numbers from 2^32 stand for the far ends of ch0..ch7, whose grant reaches
this module. -/
def execCreditForward (b : Nat) (s : State) : Out :=
  match tabGet? s.binds (b % 2 ^ 32) with
  | none => .next s
  | some x =>
    if !s.farEnd x || !s.linkUp x.port || !s.frameRoom x.port 1 0 then .next s
    else if b < 2 ^ 32 then
      if 0 < x.pend ∧ x.park + x.infl + 64 ≤ 1024 then .next (forwardGrant b x (flitOk x.port s)) else .next s
    else if x.ch.val < 8 ∧ x.cred + 64 ≤ 1024 then
      .next ((flitOk x.port s).modBind (b % 2 ^ 32) fun x => { x with cred := x.cred + 64 })
    else .next s

/-! ### Departure (R232, R234, R245) -/

/-- What a frame says of a message, and the bytes that it carries (R227, R234). -/
def msgHead (ti : Nat) : Msg → FrameHead
  | .scalar _ => .scalar ti
  | .vector _ => .vector ti
  | .segment n _ => .segment ti n
  | .record k i _ => .record ti k i

/-- See `msgHead`. -/
def msgBytes : Msg → List Byte
  | .scalar v => wordBytes v
  | .vector v => natBytes 256 v.toNat
  | .segment _ l => l
  | .record _ _ p => natBytes 64 p.toNat

/-- A message leaves by a binding, for the team index of its sender (R371). -/
def emitMsg (n : Nat) (b : Binding) (ti : Nat) (m : Msg) (s : State) : State :=
  let s1 := s.modBind n fun b => { b with cred := b.cred - msgUnits m }
  if b.ch.val < 8 then emit b.port (some n) (msgUnits m) (msgHead ti m) (msgBytes m) s1
  else match s.partner b with
    | some p => s1.modBind p fun b => { b with wire := b.wire ++ [(ti, m)] }
    | none => s1

/-- Length of the next message of a `send.m` (R234). -/
def sendLen (land : Word) (len sent : Nat) : Nat := if lkind land = 1 then min 4096 (len - sent) else len

/-- The message that `send.m` makes of its bytes (R227, R228). -/
def sendMsg (land : Word) (idx : Nat) (bs : List Byte) : Msg :=
  if lkind land = 1 then .segment (larg land).toNat bs
  else if lkind land = 2 then .record (larg land) (BitVec.ofNat 16 idx) (BitVec.ofNat 512 (bytesNat bs))
  else if bs.length = 8 then .scalar (BitVec.ofNat 64 (bytesNat bs))
  else .vector (BitVec.ofNat 2048 (bytesNat bs))

/-- The units of the next message of a command. -/
def ChanCmd.units : ChanCmd → Nat
  | .send _ m => msgUnits m
  | .sendM _ _ len _ land sent => if lkind land = 2 then 2 else max 1 (sendLen land len sent / 64)

/-- The channel of a command. -/
def ChanCmd.chan : ChanCmd → Fin 11
  | .send ch _ => ch
  | .sendM ch _ _ _ _ _ => ch

/-- The channel queue freezes (R245). -/
def Core.freezeChan (c : Core) (info : Nat) (a : Word) : Core :=
  { c with chq := { c.chq with frz := true, info := BitVec.ofNat 32 info, faddr := a } }

/-- The head of the queue of core `i` is done with. -/
def Core.dropChan (c : Core) : Core := { c with chq := { c.chq with q := c.chq.q.drop 1 } }

/-- The next message of a `send.m` at the head of the queue: its source is read and checked as a channel command's. -/
def departSendM (i n : Nat) (b : Binding) (a : Word) (len idx : Nat) (land : Word) (sent : Nat) (ue : Bool) (s : State) : State :=
  let k := sendLen land len sent
  let off := a.toNat + sent
  let fault (info : Nat) : State := logQueue i info a (s.modCore i fun c => c.freezeChan info a)
  if ue then fault 7
  else if (granRace s i i off k .read).isSome then fault 8
  else
    let s1 := emitMsg n b ((s.team i).index i) (sendMsg land idx (s.spBytes i off k)) s
    s1.modCore i fun c =>
      if sent + k < len then { c with chq := { c.chq with q := .sendM b.ch a len idx land (sent + k) :: c.chq.q.drop 1 } }
      else
        let c1 := c.dropChan
        match (ChanCmd.sendM b.ch a len idx land sent).kctr with
        | some kc => c1.decK kc.toNat
        | none => c1

/-- The binding by which the head command of a core can leave now, and the command: its channel's credit covers its next message (R231, R232). -/
def State.canDepart (s : State) (i : Nat) : Option (Nat × Binding × ChanCmd) :=
  let k := s.core i
  match k.chq.q with
  | [] => none
  | m :: _ =>
    match s.bound i m.chan with
    | none => none
    | some (n, b) =>
      if k.chq.frz || !k.live || decide (k.cyc < k.chq.first) || !s.linkUp b.port || !s.frameRoom b.port 1 4096 || decide (b.cred < m.units) then none else some (n, b, m)

/-- The bindings of a port that have credit and a message ready (R372). -/
def State.readyBinds (s : State) (p : Nat) : List Nat :=
  (s.cores.filterMap fun q => (s.canDepart q.1).bind fun x => if x.2.1.port = p then some x.1 else none).eraseDups

/-- The binding that a port serves next, after the one that it served last (R372). -/
def nextBind (last : Nat) (l : List Nat) : Option Nat :=
  let low (l : List Nat) : Option Nat := l.foldl (fun o n => match o with
    | none => some n
    | some m => some (min m n)) none
  match low (l.filter fun n => decide (last < n)) with
  | some n => some n
  | none => low l

/-- One unit of a message is on the wire (R372). -/
def serveUnit (p n i : Nat) (s : State) : State :=
  s.modPort p fun x => { x with retx := 0, last := n, served := tabSet x.served n (i, ((tabGet? x.served n).map (·.2)).getD 0 + 1) }

/-- The message leaves: its last unit is on the wire. -/
def departNow (i n : Nat) (b : Binding) (m : ChanCmd) (ue : Bool) (s : State) : State :=
  let s1 := s.modPort b.port fun x => { x with retx := 0, last := n, served := x.served.filter fun q => q.1 != n }
  match m with
  | .send _ x => (emitMsg n b ((s.team i).index i) x s1).modCore i Core.dropChan
  | .sendM _ a len idx land sent => departSendM i n b a len idx land sent ue s1

/-- CHANNEL_MESSAGE_DEPART (R232, R372): the head command's next message leaves if its channel's credit covers it. While several bindings of the
port are ready, the port sends one unit of each in turn, and a binding goes on with the message that it has begun. -/
def execChannelMessageDepart (c : CoreId) (ue : Bool) (s : State) : Out :=
  match s.canDepart c with
  | none => .next s
  | some (n, b, m) =>
    let p := s.port b.port
    let begun := tabGet? p.served n
    let other : Bool := match begun with
      | some (j, _) => decide (j ≠ c.val) && (s.canDepart j).any fun x => x.1 == n
      | none => false
    if other then .next s
    else if (s.readyBinds b.port).length ≤ 1 then .next (departNow c n b m ue s)
    else if nextBind p.last (s.readyBinds b.port) ≠ some n then .next s
    else
      let done := match begun with
        | some (j, k) => if j = c.val then k else 0
        | none => 0
      if m.units ≤ done + 1 then .next (departNow c n b m ue s) else .next (serveUnit b.port n c (if done = 0 then
        s.modPort b.port (fun x => { x with served := x.served.filter fun q => q.1 != n }) else s))

/-! ### Arrival and landing (R229, R234) -/

/-- The core at a team index. -/
def Team.coreOf (t : Team) (ti : Nat) : Nat := t.coreAt (ti % t.w) (ti / t.w)

/-- Whether a message can land (R229): a segment in its buffer while the entry runs on the receiving core (R363). A record lands in the cycle of
the Gazetteer that takes it (R319), until when it is parked. -/
def canLand (s : State) (b : Binding) (ti : Nat) : Msg → Bool
  | .segment n l =>
    match s.teamAt b with
    | none => false
    | some t =>
      let c := s.core (t.coreOf ti)
      let q := c.cb n
      c.run == .running && q.en && q.claims.isEmpty && decide (q.clm.toNat + l.length / 64 ≤ q.size.toNat)
  | _ => false

/-- Granules of a segment in rising order of claim: they are written, tagged and committed (R207, R234, R273). DESIGN CHOICE (log entry 25): for wake tokens
(R219) the segment is one write, two where it wraps. -/
def landSegment (j n : Nat) (l : List Byte) (s : State) : State :=
  let q := (s.core j).cb n
  let k := l.length / 64
  let first := (q.head.toNat + q.clm.toNat) % q.size.toNat
  let run := min k (q.size.toNat - first)
  let a0 := 64 * (q.base.toNat + first)
  let s1 := s.modCore j fun c => c.modCb n fun b => { b with clm := b.clm + BitVec.ofNat 13 k }
  let s2 := spWrite j a0 (l.take (64 * run)) s1
  let s3 := if run < k then spWrite j (64 * q.base.toNat) (l.drop (64 * run)) s2 else s2
  let grans := (rangeFrom 0 k).map fun x => TagLoc.granule j (q.base.toNat + (first + x) % q.size.toNat)
  commitCb j n k j (writeTags j grans s3)

/-- A message lands. -/
def landMsg (b : Binding) (ti : Nat) (m : Msg) (s : State) : State :=
  match m with
  | .segment n l =>
    match s.teamAt b with
    | some t => landSegment (t.coreOf ti) n l s
    | none => s
  | .record k i p => s.modDie b.loc.die fun d => gzInsert b.loc.die s.meshCyc k i.toNat p 0 d
  | _ => s

/-- A message as a PM-8 sends it (R227). -/
def msgOk : Msg → Bool
  | .segment n l => decide (n < 8) && l.length % 64 == 0 && decide (0 < l.length ∧ l.length ≤ 4096)
  | _ => true

/-- A message at its receiving interface (R229). -/
def arriveMsg (n : Nat) (b : Binding) (ti : Nat) (m : Msg) (s : State) : State :=
  let u := msgUnits m
  if b.infl < u then
    logFault b.loc.die { seq := 0, src := 7, ctx := b.ctx.setWidth 8, unit := BitVec.ofNat 16 b.port, cause := Config.unitCode 7 } s
  else
    let s1 := s.modBind n fun b => { b with infl := b.infl - u }
    if (b.stream ti).isEmpty && canLand s1 b ti m then landMsg b ti m s1
    else s1.modBind n fun b => { b with park := b.park + u, parked := tabSet b.parked ti (b.stream ti ++ [m]) }

/-- Removes the oldest message of a stream from a wire. -/
def takeWire (ti : Nat) : List (Nat × Msg) → Option (Msg × List (Nat × Msg))
  | [] => none
  | (t, m) :: l =>
    if t = ti then some (m, l)
    else match takeWire ti l with
      | some (x, r) => some (x, (t, m) :: r)
      | none => none

/-- MESSAGE_ARRIVAL (R229): from the partner's end on ch8..ch10, from the neighbour module on ch0..ch7. -/
def execMessageArrival (b ti : Nat) (m : Option Msg) (s : State) : Out :=
  match tabGet? s.binds b with
  | none => .next s
  | some x =>
    if !s.linkUp x.port then .next s
    else if x.ch.val < 8 then
      match m with
      | some y => if s.farEnd x && msgOk y && decide (ti < 2 ^ (x.loc.lw + x.loc.lh)) then .next (arriveMsg b x ti y (flitOk x.port s)) else .next s
      | none => .next s
    else
      match takeWire ti x.wire with
      | some (y, r) => .next (arriveMsg b x ti y (s.modBind b fun x => { x with wire := r }))
      | none => .next s

/-- The oldest parked message of a stream lands. -/
def landParked (n ti : Nat) (b : Binding) (m : Msg) (s : State) : State :=
  (landMsg b ti m s).modBind n fun b =>
    { b with
      park := b.park - msgUnits m
      parked := tabSet b.parked ti ((b.stream ti).drop 1)
      told := b.told.filter (· != ti) }

/-- MESSAGE_LAND (R229): a parked segment lands in stream order. -/
def execMessageLand (b ti : Nat) (s : State) : Out :=
  match tabGet? s.binds b with
  | none => .next s
  | some x =>
    match x.stream ti with
    | m :: _ => if canLand s x ti m then .next (landParked b ti x m s) else .next s
    | [] => .next s

/-! ### Bindings and links -/

/-- BINDING_MEET (R371): the neighbour's end of a ch0..ch7 binding states its shape. -/
def execBindingMeet (b lw lh : Nat) (s : State) : Out :=
  match tabGet? s.binds b with
  | none => .next s
  | some x =>
    if x.ch.val < 8 ∧ x.met = false ∧ x.refused = false ∧ s.linkUp x.port = true then
      .next (s.modBind b fun x => if lw = x.loc.lw ∧ lh = x.loc.lh then { x with met := true } else { x with refused := true })
    else .next s

/-- Adds to a counter of the Survey; it saturates at `top` (R445). -/
def satAdd (top n : Nat) (t : Tab Nat) (k : Nat) : Tab Nat := tabSet t k (min top (tabGet 0 t k + n))

/-- Changes the counters of the Survey. -/
def State.modCnt (s : State) (f : Counters → Counters) : State := { s with survey := { s.survey with cnt := f s.survey.cnt } }

/-- FLIT_RETRANSMIT (R373), which is counted among the corrected errors (R415). -/
def execFlitRetransmit (p : PortId) (s : State) : Out :=
  if s.linkUp p.val = true ∧ (s.port p.val).retx < 16 then
    .next ((s.modPort p.val fun x => { x with retx := x.retx + 1 }).modCnt fun c => { c with corr := satAdd (2 ^ 64 - 1) 1 c.corr 9 })
  else .next s

/-- A retrain begins and is counted. -/
def startRetrain (p : Nat) (s : State) : State :=
  (s.modPort p fun x => { x with retrain := true, down := false, retx := 0 }).modCnt fun c =>
    { c with link := satAdd (2 ^ 32 - 1) 1 c.link p }

/-- LINK_RETRAIN (R373): after 16 retransmissions of one flit. -/
def execLinkRetrain (p : PortId) (s : State) : Out :=
  if s.linkUp p.val = true ∧ (s.port p.val).retx = 16 then .next (startRetrain p.val s) else .next s

/-- LINK_RETRAIN_DONE (R373). -/
def execLinkRetrainDone (p : PortId) (s : State) : Out :=
  if (s.port p.val).retrain then .next (s.modPort p.val fun x => { x with retrain := false }) else .next s

/-- LINK_DOWN (R373, R414): a link that does not retrain within 1 s. Its record is written on die 0, or, for a pair of dies, on the
lower of them. -/
def execLinkDown (p : PortId) (s : State) : Out :=
  if (s.port p.val).retrain then
    let d := if p.val < 11 then 0 else if p.val < 13 then 1 else 2
    .next (logFault d { seq := 0, src := 7, ctx := 0xFF, unit := BitVec.ofNat 16 p.val, cause := Config.unitCode 7 }
      (s.modPort p.val fun x => { x with retrain := false, down := true }))
  else .next s

/-- Whether the receiver of a port holds the key of a number (R432): the present one, and while a KEY_UPDATE runs the new or the old one beside it. -/
def PortSt.holds (x : PortSt) (k : Nat) : Bool :=
  k == x.keyNo || match x.rekey with
    | .none => false
    | .installed => k == x.keyNo + 1
    | .sending => k + 1 == x.keyNo

/-- Puts the `n`-th frame of a port on the wire again, once its round-trip timer has run out (R374). -/
def resendFrame (p now rtt : Nat) : Nat → List Frame → List Frame
  | _, [] => []
  | n, f :: l =>
    if f.port = p then
      match n with
      | 0 => (if f.udp.isSome && decide (f.time + rtt ≤ now) then { f with time := now, tries := f.tries + 1 } else f) :: l
      | n + 1 => f :: resendFrame p now rtt n l
    else f :: resendFrame p now rtt n l

/-- The round-trip timer of a port in mesh cycles (R374, R449). -/
def PortSt.rttCycles (x : PortSt) : Nat := 1600 * x.rtt.toNat

/-- FRAME_RETRANSMIT (R374, R432): a frame of the wide-area mode that is lost goes out again, as it was sealed. Of the frames that arrive, one that fails under
every key held is counted, and the first under the new key that authenticates ends the old one. -/
def execFrameRetransmit (p : PortId) (fate : FrameFate) (s : State) : Out :=
  let x := s.port p.val
  if 8 ≤ p.val ∨ s.linkUp p.val = false then .next s
  else
    match fate with
    | .lost n => .next { s with outbox := resendFrame p.val s.meshCyc x.rttCycles n s.outbox }
    | .arrives k =>
      if x.holds k then
        if x.rekey = .sending ∧ k = x.keyNo then .next (s.modPort p.val fun x => { x with rekey := .none }) else .next s
      else if p.val = 6 ∨ p.val = 7 then .next (s.modCnt fun c => { c with auth := satAdd (2 ^ 32 - 1) 1 c.auth (p.val - 6) })
      else .next s

/-- Whether a port needs a new key (R432): its rekey interval has expired, or few numbers of frames are left under the present key. DESIGN CHOICE (log
entry 76): 2^30, more than one payload can need. -/
def PortSt.rekeyDue (x : PortSt) : Bool := (x.interval != 0 && decide (x.interval.toNat ≤ x.flits)) || decide (keyFrames < x.frames + 2 ^ 30)

/-- The next state of a rekeying (R432): once it is due the receiver installs the new key beside the old one, and the sender uses it from
then on; the first frame under it ends the old one. -/
def PortSt.rekeyStep (x : PortSt) : PortSt :=
  match x.rekey with
  | .none => if x.rekeyDue then { x with rekey := .installed } else x
  | .installed => { x with rekey := .sending, keyNo := x.keyNo + 1, flits := 0, frames := 0 }
  | .sending => x

/-- LINK_REKEY (R432). -/
def execLinkRekey (p : PortId) (s : State) : Out :=
  if p.val < 8 then .next (s.modPort p.val PortSt.rekeyStep) else .next s

end Sys2Proof.Machine
end

