-- ==== Sys2Proof/Machine/Host.lean ====
section
/-! DEFINITION. The host's side: host memory, the command ring and its completion (R447, R448), and notices (R308, R394). -/
namespace Sys2Proof.Machine

/-- The key of the free values of host memory. -/
def hostKey : Nat := 700

/-- Bytes of host memory. -/
def State.hostBytes (s : State) (a n : Nat) : List Byte :=
  (rangeFrom a n).map fun x => (memByte s.hostMem x).getD (Config.freeByte hostKey x)

/-- Writes bytes of host memory. -/
def hostWrite (a : Nat) (bs : List Byte) (s : State) : State := { s with hostMem := memWrite s.hostMem a bs }

/-! ### The command ring -/

/-- Number of entries of the ring (R447). -/
def Mgmt.count (m : Mgmt) : Nat := 2 ^ (m.size.toNat % 16)

/-- Whether the ring is empty. -/
def Mgmt.empty (m : Mgmt) : Bool := m.head == m.tail

/-- The address of the entry at MCHEAD. -/
def Mgmt.entry (m : Mgmt) : Nat := m.base.toNat + 64 * (m.head.toNat % m.count)

/-- The entry at MCHEAD, as a number. -/
def State.mcCmd (s : State) : Nat := bytesNat (s.hostBytes s.mc.entry 64)

/-- The end of the executing command (R448): STATUS and RESULT, MCHEAD, and the interrupt. -/
def mcComplete (status : Nat) (result : Word) (s : State) : State :=
  let e := s.mc.entry
  let irq := bitOf s.mcCmd 24
  let s1 := hostWrite (e + 0x30) (natBytes 4 status ++ natBytes 4 0 ++ wordBytes result) s
  let s2 : State := { s1 with mc := { s1.mc with head := BitVec.ofNat 64 ((s1.mc.head.toNat + 1) % s1.mc.count), wait := none } }
  if irq then { s2 with msis := s2.msis ++ [(false, s2.mc.msi.toNat)] } else s2

/-! ### Notices -/

/-- Number of entries of a notice ring (R394). -/
def Doorbell.count (d : Doorbell) : Nat := 2 ^ (d.nrSize.toNat % 32)

/-- Whether the ring is full. -/
def Doorbell.full (d : Doorbell) : Bool := (d.nrTail.toNat + 1) % d.count == d.nrHead.toNat % d.count

/-- Writes one held notice: the first after an interrupt opens the window, and a window of 0 raises its interrupt at once (R308). -/
def pumpOne (x : Nat) (s : State) : State :=
  let d := (s.ctx x).db
  match d.held with
  | [] => s
  | n :: l =>
    if d.full then s
    else
      let s1 := hostWrite (d.nrBase.toNat + 16 * (d.nrTail.toNat % d.count)) (natBytes 16 n.toNat) s
      let s2 := s1.modCtx x fun c =>
        { c with db := { c.db with held := l, nrTail := BitVec.ofNat 64 ((d.nrTail.toNat + 1) % d.count),
                                   window := c.db.window || c.db.cwin != 0 } }
      if d.cwin = 0 then { s2 with msis := s2.msis ++ [(true, x)] } else s2

/-- Writes held notices in order while the ring has room. -/
def pumpNotices (x : Nat) (s : State) : State := ((s.ctx x).db.held).foldl (fun s _ => pumpOne x s) s

/-- A kernel's notice (R308): the descriptor's address, STATUS, the context and the sequence number. -/
def addNotice (x : Nat) (a : Word) (status : Nat) (s : State) : State :=
  let d := (s.ctx x).db
  let n := BitVec.ofNat 128 (a.toNat + status * 2 ^ 64 + x * 2 ^ 96 + d.seq.toNat * 2 ^ 112)
  pumpNotices x (s.modCtx x fun c => { c with db := { c.db with held := c.db.held ++ [n], seq := c.db.seq + 1 } })

/-- NOTICE_INTERRUPT (R308): the coalescing window closes. -/
def execNoticeInterrupt (x : CtxId) (s : State) : Out :=
  if (s.ctx x).db.window then
    let s1 := s.modCtx x fun c => { c with db := { c.db with window := false } }
    .next { s1 with msis := s1.msis ++ [(true, x.val)] }
  else .next s

end Sys2Proof.Machine
end

