-- ==== Sys2Proof/Machine/Entry.lean ====
section
/-! DEFINITION. What every dispatch does (R254, R258, R274, R289 to R292, R299 to R301, R337, R355, R419): schedule segments, scratchpad images, weight versions, the entry state of cores, and the start of a team. -/
namespace Sys2Proof.Machine

/-! ### Rectangles -/

/-- A rectangle of a die: origin and binary logarithms of its size. -/
structure Rect where
  x  : Nat
  y  : Nat
  lw : Nat
  lh : Nat
  deriving DecidableEq, Repr

/-- Whether a rectangle is one that a team may have (R289). -/
def Rect.ok (r : Rect) : Bool :=
  decide (r.lw ≤ 4 ∧ r.lh ≤ 3) && r.x % 2 ^ r.lw == 0 && r.y % 2 ^ r.lh == 0 && decide (r.x + 2 ^ r.lw ≤ 16 ∧ r.y + 2 ^ r.lh ≤ 8)

/-- Whether two rectangles of one die overlap. -/
def Rect.meets (a b : Rect) : Bool :=
  decide (a.x < b.x + 2 ^ b.lw ∧ b.x < a.x + 2 ^ a.lw ∧ a.y < b.y + 2 ^ b.lh ∧ b.y < a.y + 2 ^ a.lh)

/-- The rectangle of a team and of a stage. -/
def Team.at (t : Team) : Rect := { x := t.x0, y := t.y0, lw := t.lw, lh := t.lh }
/-- See `Team.at`. -/
def Stage.at (g : Stage) : Rect := { x := g.x0, y := g.y0, lw := g.lw, lh := g.lh }

/-- Whether a dispatched team holds cores of a rectangle. -/
def State.rectBusy (s : State) (d : Nat) (r : Rect) : Bool := s.teams.any fun p => p.2.die == d && p.2.at.meets r

/-! ### Schedule tables (R300, R301) -/

/-- What the dispatcher of die `d` finds of a part of a schedule table: what it waits for, or its bytes, or none where the part cannot be read; and the
state with what it has read brought in. -/
def tableRead (d : Nat) (x : BitVec 3) (a : Word) (n : Nat) (s : State) : Except ReadWait (Option (List Byte)) × State :=
  match missesOf s (.agent d) x (gUses a n { r := true }) with
  | m :: l => (.error (.walks (m :: l)), s)
  | [] =>
    if gAwaits s (.agent d) x a n then (.error .awaits, s)
    else
      let t := bringIn (.agent d) x a n s
      (.ok (readGlobal t (.agent d) x a n).toOption, t)

/-- The rows that lie in a directory entry's segment. -/
def segRows (d : Nat) (x : BitVec 3) (a : Word) (e : List Byte) (s : State) : Except ReadWait (List Word) × State :=
  let rows := bytesNat ((e.drop 4).take 2)
  if 256 < rows then (.ok [], s)
  else
    match tableRead d x (a + BitVec.ofNat 64 (bytesNat (e.take 4))) (8 * rows) s with
    | (.ok (some l), t) => (.ok ((rangeFrom 0 rows).map fun r => BitVec.ofNat 64 (bytesNat ((l.drop (8 * r)).take 8))), t)
    | (.ok none, t) => (.ok [], t)
    | (.error w, t) => (.error w, t)

/-- The segment of a core, or what its reading waits for. DESIGN CHOICE (log entry 68): a table that cannot be read gives no rows. -/
def segNow (d : Nat) (x : BitVec 3) (a : Word) (kind ti : Nat) (s : State) : Except ReadWait (List Word) × State :=
  if a = 0 then (.ok [], s)
  else
    match tableRead d x a 8 s with
    | (.ok (some h), t) =>
      let n := (h.getD 0 0).toNat * (h.getD 1 0).toNat
      match tableRead d x (a + BitVec.ofNat 64 (8 + 8 * (kind * n + ti))) 8 t with
      | (.ok (some e), u) => segRows d x a e u
      | (.ok none, u) => (.ok [], u)
      | (.error w, u) => (.error w, u)
    | (.ok none, t) => (.ok [], t)
    | (.error w, t) => (.error w, t)

/-- The rows of a core's segment (R301), once everything that they need has come. -/
def schedRows (s : State) (d : Nat) (x : BitVec 3) (a : Word) (kind ti : Nat) : List Word :=
  match (segNow d x a kind ti s).1 with
  | .ok l => l
  | .error _ => []

/-- The segments of the cores of a team are read one after the other, until one has to wait. -/
def segsNow (t : Team) : List Nat → State → Option ReadWait × State
  | [], s => (none, s)
  | i :: l, s =>
    match segNow t.die t.ctx t.sched t.kind.toNat (t.index i) s with
    | (.ok _, u) => segsNow t l u
    | (.error w, u) => (some w, u)

/-- What an agent has to wait for before it goes on: whether it may, and the state, in which the walks of its misses have been asked for. -/
structure ReadyNow where
  ok : Bool
  st : State

/-- Whether a team's schedule table can be read (R301, R340, R349). -/
def tableReady (t : Team) (s : State) : ReadyNow :=
  match segsNow t t.rect s with
  | (none, u) => { ok := true, st := u }
  | (some w, u) => { ok := false, st := askFor t.ctx w u }

/-! ### Weight versions (R258, R337) -/

/-- Whether tag `a` is older than tag `b` in the window of 32,768 (R305). -/
def tagOlder (a b : BitVec 16) : Bool := let d := (b - a).toNat; decide (1 ≤ d ∧ d ≤ 32767)

/-- The version of a tensor for a tag: of those current or retained whose FTAG is not newer, the one with the newest; else, and for a
kernel, the current one. -/
def resolveTensor (w : Tab WVer) (tensor : Nat) (tag : Option (BitVec 16)) : Option Nat :=
  let ver (v : Nat) : WVer := tabGet {} w (4 * tensor + v)
  let cur := [0, 1, 2, 3].find? fun v => (ver v).st == 2
  match tag with
  | none => cur
  | some t =>
    let fit := [0, 1, 2, 3].filter fun v => ((ver v).st == 2 || (ver v).st == 3) && ((ver v).ftag == t || tagOlder (ver v).ftag t)
    match fit.find? fun v => fit.all fun u => decide ((t - (ver v).ftag).toNat ≤ (t - (ver u).ftag).toNat) with
    | some v => some v
    | none => cur

/-- The versions that an entry reads. -/
def resolveAll (w : Tab WVer) (tag : Option (BitVec 16)) : Tab Nat :=
  ((w.map fun p => p.1 / 4).eraseDups).foldl (fun t n => match resolveTensor w n tag with
    | some v => tabSet t n v
    | none => t) []

/-! ### Entry state -/

/-- The free values of a core's dead state begin at a number of their own: 64 tiles, 32 operand slots and the scratchpad. -/
def takeCoreFills (s : State) : Nat × State := (s.fresh, { s with fresh := s.fresh + 128 })

/-- A tile whose contents and status the manual leaves open after a dispatch. -/
def deadTile (n : Nat) : Tile :=
  let w := Config.freeWord n
  { fill := n, mcnt := w.extractLsb' 48 16, fv := w.getLsbD 11, fmt := w.extractLsb' 8 3, sat := w.getLsbD 6, nf := w.getLsbD 5 }

/-- A core at an entry, before its registers for the entry are written (R291): what is not named here is zero or empty. `base` numbers
its free values, `i` is the core, and `clk` the clock that its start carries (R278). -/
def entryCore (s : State) (o : Nat) (x : Nat) (clk : Word) (base i : Nat) (c0 : Core) : Core :=
  let c := c0.finishTiles i
  { team := some o
    cyc := c.cyc
    nextId := c.nextId
    cause := c.cause
    epc := c.epc
    faddr := c.faddr
    ptgt := c.ptgt
    dcause := c.dcause
    lclk := wordMax (s.horizon + 1) (clk + 1)
    wdFrom := s.meshCyc
    wdLimit := (s.ctx x).wdLimit
    tvec := (s.ctx x).tvec
    spFill := c.spFill
    sp := c.sp
    ob := (rangeFrom 0 32).map fun n => (n, { fill := base + 64 + n })
    ac := (rangeFrom 0 64).map fun n => (n, if (c.tile n).pin then c.tile n else deadTile (base + n))
    tlb := c.tlb
    etlb0 := c.etlb0
    etlb1 := c.etlb1
    mesh := c.mesh }

/-- SEED at an entry (R291). -/
def entrySeed (seedb step : Word) (tag : BitVec 16) (ti : Nat) : Word :=
  let v := seedb ^^^ (step <<< 32) ^^^ (tag.setWidth 64 <<< 16) ^^^ BitVec.ofNat 64 ti
  if v = 0 then 1 else v

/-- The loaded program of an entry address, whose scratchpad image is placed (R292). -/
def programOf (c : Ctx) (a : Word) : Option Nat := (c.entries.find? fun e => e.addr == a).map (·.img)

/-- The program of a team whose scratchpad image its dispatch places. DESIGN CHOICE (log entry 80): where its roles belong to several programs, the one of
the first core in a role. -/
def teamProgram (s : State) (t : Team) : Option Nat :=
  (t.entries.head?).bind fun p => programOf (s.ctx t.ctx.toNat) p.2

/-- Every other byte of a scratchpad becomes unspecified, and the image sections of a program are placed (R292, R368). -/
def placeImages (x : Nat) (prog : Option Nat) (i fill : Nat) (s : State) : State :=
  let s1 := s.modCore i fun c => { c with sp := [], spFill := fill }
  ((s.ctx x).images.filter fun m => some m.img == prog).foldl (fun s m =>
    s.modCore i fun c => { c with sp := memWrite c.sp m.base m.bytes }) s1

/-- The next entry serial of a context (R274); when it wraps, every L2 line tag of the context is cleared first. -/
def nextSerial (x : BitVec 3) (s : State) : BitVec 16 × State :=
  let n := (s.ctx x.toNat).entSer + 1
  let s1 := s.modCtx x.toNat fun c => { c with entSer := n }
  (n, if n = 0 then { s1 with l2 := s1.l2.map fun y => if y.tag.ctx = x then { y with tag := { y.tag with hs := 0 } } else y } else s1)

/-- The origin core of a team, which names it. -/
def Team.origin (t : Team) : Nat := coreIndex t.die t.x0 t.y0

/-- The trap that a core takes before its first bundle (R321, R419): a record with NF in an NFT class, or else an abort token while an
episode is open. -/
def entryTrap (i x : Nat) (pc : Word) (rsm : Bool) (nf : Option (BitVec 32)) (s : State) : State :=
  let c := s.ctx x
  match nf with
  | some k => takeTrap i { cls := 0xC, code := 1, info := k } 0 pc false 0 (s.modCore i fun k => { k with token := c.abp })
  | none =>
    if c.abp then takeTrap i { cls := 0xD, code := 1, info := c.astep.setWidth 32 } 0 pc rsm 0 s else s

/-- The registers of one core at a kernel or stage entry. -/
def entryRegs (s : State) (t : Team) (seedb : Word) (g : List Word) (i : Nat) (c : Core) : Core :=
  let ti := t.index i
  let rows := schedRows s t.die t.ctx t.sched t.kind.toNat ti
  { c with
    g := [(0, g.getD 0 0), (1, g.getD 1 0), (2, g.getD 2 0)]
    seed := entrySeed seedb t.step t.tag ti
    sched := rows
    slen := BitVec.ofNat 9 rows.length }

/-- Dispatches a team (R291, R299): every core gets its entry state, and those with an entry address run. `keep` keeps the scratchpads;
`regs` writes what the entry gives each core. -/
def startTeam (t : Team) (keep : Bool) (rsm : Bool) (regs : State → Team → Nat → Core → Core) (pcOf : Nat → Option Word)
    (nf : Option (BitVec 32)) (s : State) : State :=
  let (ser, s1) := nextSerial t.ctx s
  let t := { t with ent := ser }
  let x := t.ctx.toNat
  let prog := teamProgram s t
  let s2 := ({ s1 with teams := tabSet s1.teams t.origin t } : State).modDie t.die fun d =>
    if rsm then d
    else { d with
      colFails := d.colFails.filter fun f => !(f.ctx == t.ctx && f.team == some t.origin)
      stash := d.stash.map fun e => if e.by_.any t.rect.contains then { e with by_ := none } else e }
  let s3 := t.rect.foldl (fun s i =>
    let (b, s1) := takeCoreFills s
    let s2 := s1.modCore i fun c => regs s t i (entryCore s t.origin x (if rsm then 0 else t.clk) b i c)
    if keep then s2 else placeImages x prog i (b + 96) s2) s2
  t.cores.foldl (fun s i =>
    match pcOf i with
    | none => s
    | some pc => entryTrap i x pc rsm nf (s.modCore i fun c => { c with run := .running, pc := pc })) s3

end Sys2Proof.Machine
end

