-- ==== Sys2Proof/Machine/Launch.lean ====
section
/-! DEFINITION. Launch descriptors and stage blocks (R129, R293 to R298, R304, R394): their checks, the launch queues and the doorbell. -/
namespace Sys2Proof.Machine

/-! ### Descriptors (R293) -/

/-- Bytes of a descriptor as a number. -/
def descBytes (d : BitVec 512) (off n : Nat) : Nat := d.toNat / 2 ^ (8 * off) % 2 ^ (8 * n)
/-- Fields of a descriptor. -/
def ldEntry (d : BitVec 512) : Word := BitVec.ofNat 64 (descBytes d 0 8)
/-- See `ldEntry`. -/
def ldKind (d : BitVec 512) : Nat := descBytes d 8 1
/-- See `ldEntry`. -/
def ldDie (d : BitVec 512) : Nat := descBytes d 9 1
/-- See `ldEntry`. -/
def ldRect (d : BitVec 512) : Rect := { x := descBytes d 0xA 1, y := descBytes d 0xB 1, lw := descBytes d 0xC 1, lh := descBytes d 0xD 1 }
/-- See `ldEntry`. -/
def ldCtx (d : BitVec 512) : Nat := descBytes d 0xE 1
/-- See `ldEntry`. -/
def ldScope (d : BitVec 512) : Nat := descBytes d 0xF 1
/-- See `ldEntry`. -/
def ldArg (d : BitVec 512) (k : Nat) : Word := BitVec.ofNat 64 (descBytes d (0x10 + 8 * k) 8)
/-- See `ldEntry`. -/
def ldSched (d : BitVec 512) : Word := BitVec.ofNat 64 (descBytes d 0x28 8)
/-- See `ldEntry`. -/
def ldSeed (d : BitVec 512) : Word := BitVec.ofNat 64 (descBytes d 0x30 8)
/-- See `ldEntry`. -/
def ldNotify (d : BitVec 512) : Nat := descBytes d 0x38 1
/-- The stage number of a removal. -/
def ldStage (d : BitVec 512) : BitVec 8 := BitVec.ofNat 8 (descBytes d 0x10 1)

/-! ### Stage blocks (R298, R304) -/

/-- A stage block. -/
abbrev SBlk := BitVec 2560

/-- Bytes of a stage block as a number. -/
def sbBytes (b : SBlk) (off n : Nat) : Nat := b.toNat / 2 ^ (8 * off) % 2 ^ (8 * n)
/-- Fields of a stage block. -/
def sbStage (b : SBlk) : BitVec 8 := BitVec.ofNat 8 (sbBytes b 0 1)
/-- See `sbStage`. -/
def sbRoles (b : SBlk) : Nat := sbBytes b 1 1
/-- See `sbStage`. -/
def sbKeep (b : SBlk) : Bool := bitOf (sbBytes b 2 1) 0
/-- See `sbStage`. -/
def sbYeval (b : SBlk) : Bool := bitOf (sbBytes b 2 1) 1
/-- See `sbStage`. -/
def sbEarly (b : SBlk) : Bool := bitOf (sbBytes b 2 1) 2
/-- See `sbStage`. -/
def sbAge (b : SBlk) : Nat := sbBytes b 4 4
/-- See `sbStage`. -/
def sbSched (b : SBlk) : Word := BitVec.ofNat 64 (sbBytes b 8 8)
/-- See `sbStage`. -/
def sbColb (b : SBlk) : Word := BitVec.ofNat 64 (sbBytes b 0x10 8)
/-- See `sbStage`. -/
def sbNwg (b : SBlk) : Nat := sbBytes b 0x18 2
/-- The entry of role `j` for a kind. -/
def sbEntry (b : SBlk) (j kind : Nat) : Word := BitVec.ofNat 64 (sbBytes b (0x20 + 32 * j + 8 * kind) 8)
/-- The sub-rectangle of role `j`. -/
def sbRect (b : SBlk) (j : Nat) : Rect :=
  let o := 0x38 + 32 * j
  { x := sbBytes b o 1, y := sbBytes b (o + 1) 1, lw := sbBytes b (o + 2) 1, lh := sbBytes b (o + 3) 1 }
/-- Rule `i`. -/
def sbRule (b : SBlk) (i : Nat) : Word := BitVec.ofNat 64 (sbBytes b (0xA0 + 8 * i) 8)
/-- SARG0, SARG1 and SEEDB. -/
def sbSarg (b : SBlk) (k : Nat) : Word := BitVec.ofNat 64 (sbBytes b (0x120 + 8 * k) 8)
/-- See `sbSarg`. -/
def sbSeed (b : SBlk) : Word := BitVec.ofNat 64 (sbBytes b 0x130 8)

/-- Fields of a policy rule (R304). -/
def ruV (r : Word) : Bool := r.getLsbD 63
/-- See `ruV`. -/
def ruPre (r : Word) : Bool := r.getLsbD 62
/-- See `ruV`. -/
def ruKind (r : Word) : Nat := bitsOf r.toNat 61 60
/-- See `ruV`. -/
def ruCond (r : Word) : Nat := bitsOf r.toNat 59 56
/-- See `ruV`. -/
def ruClass (r : Word) : Nat := bitsOf r.toNat 55 48
/-- See `ruV`. -/
def ruArg (r : Word) : Nat := bitsOf r.toNat 47 36
/-- See `ruV`. -/
def ruPf (r : Word) : Bool := r.getLsbD 35
/-- See `ruV`. -/
def ruPfd (r : Word) : BitVec 16 := r.extractLsb' 16 16

/-- Whether a rule is one that R304 refuses. -/
def ruBad (r : Word) : Bool :=
  bitsOf r.toNat 34 32 != 0 || r.toNat % 65536 != 0 || (ruV r && (ruKind r == 3 || decide (3 < ruCond r)))

/-- Whether a role's rectangle is a subgroup of a team (R290). -/
def Rect.within (r : Rect) (lw lh : Nat) : Bool :=
  decide (r.lw ≤ lw ∧ r.lh ≤ lh) && r.x % 2 ^ r.lw == 0 && r.y % 2 ^ r.lh == 0
    && decide (r.x + 2 ^ r.lw ≤ 2 ^ lw ∧ r.y + 2 ^ r.lh ≤ 2 ^ lh)

/-- Whether an address is an entry of a kind (R103). -/
def isEntry (c : Ctx) (a : Word) (kind : Nat) : Bool := c.entries.any fun e => e.addr == a && e.kind == kind

/-- Whether a stage block is refused (R298); the block itself could be read. -/
def sbBad (c : Ctx) (lw lh : Nat) (b : SBlk) : Bool :=
  let n := sbRoles b
  let roles := rangeFrom 0 n
  n == 0 || decide (4 < n) || sbBytes b 3 1 != 0 || sbBytes b 0x1A 6 != 0 || sbBytes b 0x138 8 != 0 || decide (8 ≤ sbBytes b 2 1)
    || (sbColb b != 0 && sbNwg b == 0) || (rangeFrom 0 16).any (fun i => ruBad (sbRule b i))
    || roles.any fun j => sbBytes b (0x3C + 32 * j) 4 != 0 || !(sbRect b j).within lw lh
      || [0, 1, 2].any (fun k => !isEntry c (sbEntry b j k) k)
      || roles.any fun k => k != j && (sbRect b j).meets (sbRect b k)

/-! ### Checks (R294) -/

/-- Whether a loaded image refuses the shape of a rectangle. -/
def shapeBad (c : Ctx) (a : Word) (r : Rect) : Bool :=
  match c.entries.find? fun e => e.addr == a with
  | some e => (e.tw != 0 || e.th != 0) && !(e.tw == 2 ^ r.lw && e.th == 2 ^ r.lh)
  | none => false

/-- Stages of a die that are registered or queued to be, with their rectangles and KEEPSP. -/
def DieSt.stagesAhead (x : DieSt) : List (BitVec 8 × Rect × Bool) :=
  (x.stages.map fun g => (g.num, g.at, sbKeep g.blk))
    ++ (x.lq.filter fun l => ldKind l.desc == 1).map fun l => (sbStage l.blk, ldRect l.desc, sbKeep l.blk)

/-- The die of a descriptor: 0xFF names the launching core's. -/
def launchDie (by_ : LaunchBy) (d : BitVec 512) : Nat :=
  match by_ with
  | .core c _ => if ldDie d = 0xFF then coreDie c else ldDie d
  | .host => ldDie d

/-- The refusal code of a descriptor, the lowest that applies, or 0 (R294). `blk` is the stage block, if it could be read. -/
def refusal (s : State) (by_ : LaunchBy) (d : BitVec 512) (blk : Option SBlk) : Nat :=
  let kind := ldKind d
  let r := ldRect d
  let c := s.ctx (ldCtx d)
  let die := launchDie by_ d
  let x := s.die die
  let b := blk.getD 0
  let checks : List (Nat × Bool) :=
    [(1, decide (4 ≤ ldNotify d) || descBytes d 0x39 3 != 0 || (kind == 2 && ldEntry d != 0)),
     (2, decide (2 < kind) || decide (ldScope d < 2 ∨ 4 < ldScope d)),
     (3, !r.ok),
     (4, kind == 0 && !isEntry c (ldEntry d) 3),
     (5, (kind == 0 && shapeBad c (ldEntry d) r)
       || (kind == 1 && blk.isSome && (rangeFrom 0 (min 4 (sbRoles b))).any fun j => [0, 1, 2].any fun k => shapeBad c (sbEntry b j k) r)),
     (6, decide (7 < ldCtx d) || !c.live || c.job != s.cart.jobNow),
     (7, decide (3 < die)),
     (8, kind == 1 && (blk.isNone || sbBad c r.lw r.lh b)),
     (9, (kind == 1 && ((x.stagesAhead.any fun g => g.1 == sbStage b) || decide (16 ≤ x.stagesAhead.length)))
        || (kind != 2 && x.stagesAhead.any fun g => g.2.2 && g.2.1.meets r)),
     (10, kind == 2 && !x.hasStage (ldStage d))]
  match checks.find? (·.2) with
  | some (n, _) => n
  | none => 0

/-! ### STATUS -/

/-- Who writes the STATUS of a core's descriptor after it has been enqueued: the launch hardware of the core's die. -/
def Launch.agent (l : Launch) : Seeker :=
  match l.by_ with
  | .core c _ => .agent (coreDie c)
  | .host => .agent 0

/-- Writes STATUS where NOTIFY asks for it (R294). -/
def writeStatus (w : Seeker) (l : Launch) (v : Nat) (s : State) : State :=
  if bitOf (ldNotify l.desc) 1 = false then s
  else
    match l.by_ with
    | .host => s.modCtx l.ctx.toNat fun c => { c with db := { c.db with status := BitVec.ofNat 32 v } }
    | .core c a =>
      match decodeEa a with
      | .local o => spWrite c (o + 0x3C) (natBytes 4 v) s
      | _ => writeGlobal w l.ctx (a + 0x3C) (natBytes 4 v) s

/-- The page of a descriptor's STATUS, where it is one of global memory. -/
def Launch.statusUses (l : Launch) : List (Nat × Perm) :=
  match l.by_ with
  | .core _ a => if bitOf (ldNotify l.desc) 1 then gUses (a + 0x3C) 4 { w := true } else []
  | .host => []

/-- Whether a descriptor's STATUS can be written: what is known of its page, and no accepted write has still to reach its line (R340, R348, R349). -/
def statusReady (l : Launch) (s : State) : ReadyNow :=
  match missesOf s l.agent l.ctx l.statusUses with
  | m :: r => { ok := false, st := askWalks l.ctx (m :: r) s }
  | [] =>
    let waits := match l.by_ with
      | .core _ a => match gPieces s l.agent l.ctx (a + 0x3C) 4 { w := true } with
        | .ok q => bitOf (ldNotify l.desc) 1 && q.any fun p => s.awaits p.2.1 p.2.2
        | .error _ => false
      | .host => false
    { ok := !waits, st := s }

/-- STATUS 3, a release of the team's writes at SCOPE (R294). -/
def finishLaunch (l : Launch) (s : State) : State :=
  let s1 := forgetFaults l.agent (writeStatus l.agent l 3 s)
  if ldScope l.desc = 4 then writeBackCtx l.ctx (writeBackCtx (BitVec.ofNat 3 (ldCtx l.desc)) s1) else s1

/-- Who reads for a launch: the launching core, or for the host the agents of die 0. -/
def LaunchBy.seeker : LaunchBy → Seeker
  | .core c _ => .slot c
  | .host => .agent 0

/-- LAUNCH_ENQUEUE (R294): a descriptor is queued, or refused. -/
def enqueueLaunch (by_ : LaunchBy) (x : BitVec 3) (d : BitVec 512) (blk : Option SBlk) (s : State) : State :=
  let clk : Word := match by_ with
    | .core c _ => (s.core c).lclk
    | .host => 0
  let l : Launch := { desc := d, blk := blk.getD 0, by_ := by_, ctx := x, die := launchDie by_ d, clk := clk }
  match refusal s by_ d blk with
  | 0 => writeStatus by_.seeker l 1 (s.modDie l.die fun q => { q with lq := q.lq ++ [l] })
  | n => writeStatus by_.seeker l (0x80000000 + n) s

/-- Whether the launch queue of a descriptor's die is full (R295). -/
def queueFull (s : State) (die : Nat) : Bool := decide (die < 4) && decide (32 ≤ (s.die die).lq.length)

/-! ### The instruction (R129) -/

/-- The stage block of a registration, read with the descriptor in the launching context (R298). A core's block may lie in its
scratchpad. -/
def readBlock (s : State) (by_ : LaunchBy) (x : BitVec 3) (a : Word) : Option SBlk :=
  if a.toNat % 16 ≠ 0 then none
  else
    match by_, decodeEa a with
    | .core c _, .local o => if o + 320 ≤ 0x60000 then some (BitVec.ofNat 2560 (bytesNat ((rangeFrom o 320).map (s.spByteBefore c)))) else none
    | _, _ => (readGlobal s by_.seeker x a 320).toOption.map fun l => BitVec.ofNat 2560 (bytesNat l)

/-- The race check of a command read of global memory (R275). -/
def globalRace (s : State) (i : Nat) (l : List (TlbEnt × Nat × Nat)) : Option RaceTag :=
  l.findSome? fun q => if q.1.chk then ((linesOf q.2.1 q.2.2).map (lineTagAfter s)).find? fun t => !raceOk s i t .read else none

/-- The race check of the stage block that a launch of core `i` reads (R275, log entry 28). -/
def blockRace (s : State) (i : Nat) (x : BitVec 3) (a : Word) : Option Trap :=
  match decodeEa a with
  | .local o => if a.toNat % 16 = 0 ∧ o + 320 ≤ 0x60000 then (granRace s i i o 320 .read).map fun t => raceTrap .read t a else none
  | _ =>
    match gPieces s (.slot i) x a 320 { r := true } with
    | .ok l => if a.toNat % 16 = 0 then (globalRace s i l).map fun t => raceTrap .read t a else none
    | .error _ => none

/-- A descriptor as core `i` reads it: its fault, or its bytes (R293, R451). -/
def readDesc (s : State) (i : Nat) (a : Word) : Except Trap (BitVec 512) :=
  if a.toNat % 16 ≠ 0 then .error (transTrap 5 { reason := 1 } a)
  else
    match decodeEa a with
    | .local _ =>
      match cmdLocal a 64 16 with
      | some r => .error (transTrap 5 { reason := r } a)
      | none =>
        match granRace s i i a.toNat 64 .read with
        | some t => .error (raceTrap .read t a)
        | none => .ok (BitVec.ofNat 512 (bytesNat ((rangeFrom a.toNat 64).map (s.spByteBefore i))))
    | _ =>
      match gPieces s (.slot i) (s.team i).ctx a 64 { r := true } with
      | .error f => .error (transTrap 5 f a)
      | .ok l =>
        match globalRace s i l with
        | some t => .error (raceTrap .read t a)
        | none => .ok (BitVec.ofNat 512 (bytesNat (piecesBytes s l)))

/-- What a launch enqueues: the descriptor, and with a registration its stage block (R293, R298). -/
def launchEffect (by_ : LaunchBy) (x : BitVec 3) (d : BitVec 512) (s : State) : State :=
  if ldKind d = 1 then
    let s1 := bringIn by_.seeker x (ldEntry d) 320 s
    enqueueLaunch by_ x d (readBlock s1 by_ x (ldEntry d)) s1
  else enqueueLaunch by_ x d none s

/-- The pages of the block that a descriptor names. -/
def blockUses (d : BitVec 512) : List (Nat × Perm) := if ldKind d = 1 then gUses (ldEntry d) 320 { r := true } else []

/-- R129: held while the die's launch queue is full, and, being a release, until the core's accesses have been performed. The pages of the
descriptor are looked up first, then those of the block (R348, R349). -/
def execLaunch (a : Src) (s : State) : Out :=
  let ad := readSrc s a
  let i := s.cur
  let x := (s.team i).ctx
  let uses := gUses ad 64 { r := true }
  if missesOf s (.slot i) x uses ≠ [] then walkSlot 0 uses (gateSrc s a) id s
  else
    let s1 := bringIn (.slot i) x ad 64 s
    match readDesc s1 i ad with
    | .error t => runSlot 0 (((gateSrc s a).and (gateOwn s)).and { trap := some t }) id s
    | .ok d =>
      let by_ : LaunchBy := .core i ad
      let race : Gate := { trap := if ldKind d = 1 then blockRace s1 i x (ldEntry d) else none }
      let hold := Gate.holdIf (s.me.accPending || s.me.acqPending || queueFull s (launchDie by_ d) || gAwaits s (.slot i) x ad 64
        || (ldKind d == 1 && gAwaits s (.slot i) x (ldEntry d) 320))
      walkSlot 0 (blockUses d) (((gateSrc s a).and hold).and race) (fun t =>
        let t1 := bringIn (.slot i) x ad 64 t
        (launchEffect by_ x d (if ldScope d = 4 then writeBackCtx x t1 else t1)).upd fun c => c.drawIf (srcDraws a)) s

/-! ### The doorbell (R394) -/

/-- DOORBELL: the host writes byte 0x3F; the write is ignored whole while a descriptor waits. -/
def execDoorbell (x : CtxId) (desc : BitVec 512) (s : State) : Out :=
  .next (s.modCtx x fun c => if c.db.pend.isSome then c
    else { c with db := { c.db with pend := some desc, status := BitVec.ofNat 32 (descBytes desc 0x3C 4) } })

/-- DOORBELL_ENQUEUE: the waiting descriptor is checked and enqueued once its die's queue has a free entry. -/
def execDoorbellEnqueue (x : CtxId) (s : State) : Out :=
  match (s.ctx x).db.pend with
  | none => .next s
  | some d =>
    let y := BitVec.ofNat 3 x.val
    let m := missesOf s (.agent 0) y (blockUses d)
    if queueFull s (ldDie d) then .next s
    else if m ≠ [] then .next (askWalks y m s)
    else .next (forgetFaults (.agent 0) (launchEffect .host y d (s.modCtx x fun c => { c with db := { c.db with pend := none } })))

end Sys2Proof.Machine
end

