-- ==== Sys2Proof/Machine/Save.lean ====
section
/-! DEFINITION. Stopping, saving and resuming teams (R360 to R369), and the end of entries (R242, R299, R307, R308). -/
namespace Sys2Proof.Machine

/-! ### Retirement (R242, R307) -/

/-- The stage of a team. -/
def State.stageOf (s : State) (t : Team) : Option Stage :=
  if t.kind = 3 then none else (s.die t.die).stages.find? fun g => g.num == t.stage

/-- Changes stage `n` of a die. -/
def DieSt.modStage (x : DieSt) (n : BitVec 8) (f : Stage → Stage) : DieSt :=
  { x with stages := x.stages.map fun g => if g.num = n then f g else g }

/-- Starts a registered collective of a stage as a `col.go` of core (0, 0) of its team, with the stage's step number (R307). -/
def startRegistered (r : RegCol) (s : State) : State :=
  let t := r.team
  let i := t.origin
  let a := r.addr
  let x := t.ctx.toNat
  let bad (n : Nat) : State :=
    logFault t.die { seq := 0, src := 3, ctx := t.ctx.setWidth 8, unit := BitVec.ofNat 16 i, cause := 0xA001, info := BitVec.ofNat 32 n } s
  if localOk a 128 16 then
    let raw := bytesNat (s.spBytes i a.toNat 128)
    let b := BitVec.ofNat 1024 (raw - blkBytes (BitVec.ofNat 1024 raw) 0x30 8 * 2 ^ (8 * 0x30) + r.step.toNat * 2 ^ (8 * 0x30))
    match cbBad s x t i b with
    | some n => bad n
    | none => if (s.core i).overK (cbKctr b) 1 then bad 0x0B else startColl t i b a (writeBackOf i s)
  else bad 0x10

/-- Whether a registered collective is held, as a `col.go` would be (R238), or with its context, which a fatal fault has frozen (R418). -/
def regHeld (r : RegCol) (s : State) : Bool :=
  (s.ctx r.team.ctx.toNat).fatal || decide (16 ≤ (s.ctx r.team.ctx.toNat).colls.length) || (s.core r.team.origin).accPending

/-- The registered collectives of a die that nothing holds any more start, in the order in which their steps ended. -/
def startWaiting (d : Nat) (s : State) : State :=
  (s.die d).regCols.foldl (fun s r =>
    if regHeld r s then s else startRegistered r (s.modDie d fun x => { x with regCols := x.regCols.erase r })) s

/-- What a retirement of kind `kind` does to its stage (R307). -/
def stageRetire (t : Team) (s : State) : State :=
  match s.stageOf t with
  | none => s
  | some g =>
    if t.kind = 1 then s.modDie t.die fun x => x.modStage g.num fun g => { g with fly := if g.fly = 0 then 0 else g.fly - 1 }
    else if t.kind = 2 ∧ sbColb g.blk ≠ 0 then
      if sbNwg g.blk ≤ g.wg + 1 then
        startWaiting t.die (s.modDie t.die fun x =>
          { x.modStage g.num fun g => { g with step := g.step + 1, wg := 0 } with
            regCols := x.regCols ++ [{ team := { t with x0 := g.x0, y0 := g.y0 }, addr := sbColb g.blk, step := g.step }] })
      else s.modDie t.die fun x => x.modStage g.num fun g => { g with wg := g.wg + 1 }
    else s

/-- A team's record retires (R242): it is removed in the next cycle. -/
def retireRecord (t : Team) (id : Nat) (s : State) : State :=
  stageRetire t (s.modDie t.die fun x =>
    { x with gzRet := x.gzRet.filter (· != id), gz := x.gz.map fun e => if e.id = id then { e with st := .retired } else e })

/-- A team's `gz.done` that has not yet taken effect takes effect (R319). -/
def flushDone (t : Team) (s : State) : State :=
  match t.recId with
  | some id => if (s.die t.die).gzRet.contains id then retireRecord t id s else s
  | none => s

/-- A team's record retires at its halt, unless `gz.done` has retired it or the entry is a recompute (R242, R334). After a recompute its
record is not held back for dropped entries. -/
def haltRetire (t : Team) (s : State) : State :=
  match t.recId with
  | none => s
  | some id =>
    if t.rcmp then s.modDie t.die fun x => { x with gz := x.gz.map fun e => if e.id = id then { e with rcmp := true } else e }
    else if t.retired then flushDone t s
    else retireRecord t id s

/-! ### The end of an entry -/

/-- The cores of a team are free. -/
def freeCores (t : Team) (s : State) : State :=
  t.rect.foldl (fun s i => s.modCore i fun c => if c.team = some t.origin then { c with run := .idle, team := none, was := some t } else c) s

/-- A team leaves the cores. -/
def dropTeam (t : Team) (s : State) : State :=
  let s1 := freeCores t s
  { s1 with teams := tabErase s1.teams t.origin }

/-- The team's stage is to be evaluated (R306). -/
def wakeStage (t : Team) (s : State) : State :=
  if t.kind = 3 then s else s.modDie t.die fun x => x.modStage t.stage fun g => { g with due := true }

/-- A waiting STOP of the team completes with a result (R449). -/
def answerStop (o : Nat) (r : Word) (s : State) : State :=
  match s.mc.wait with
  | some (.stop x) => if x = o then mcComplete 0 r s else s
  | _ => s

/-- Whether every core of a team has halted. -/
def allHalted (s : State) (t : Team) : Bool := t.cores.all fun i => (s.core i).run == .halted

/-- The end of an entry (R294, R299, R308, R360). -/
def endTeam (t : Team) (s : State) : State :=
  let s1 := haltRetire t s
  let s2 := if t.stop.isSome then
      s1.modDie t.die fun x => if t.kind = 3 then x else x.modStage t.stage fun g => { g with winner := none }
    else s1
  let s3 := wakeStage t (dropTeam t s2)
  let s4 := if t.stop.isSome then answerStop t.origin (BitVec.allOnes 64) s3 else s3
  match t.launch with
  | none => s4
  | some l =>
    let s5 := finishLaunch l s4
    let a := match l.by_ with
      | .core _ a => a
      | .host => 0
    if bitOf (ldNotify l.desc) 0 then addNotice (ldCtx l.desc) a 3 s5 else s5

/-- TEAM_HALT_COMPLETE (R299). -/
def execTeamHaltComplete (o : CoreId) (s : State) : Out :=
  match tabGet? s.teams o with
  | none => .next s
  | some t =>
    if allHalted s t then
      match t.launch with
      | none => .next (endTeam t s)
      | some l =>
        let r := statusReady l s
        .next (if r.ok then endTeam t r.st else r.st)
    else .next s

/-! ### Stop requests (R360, R362, R364) -/

/-- Suspended-entry places of a die that are used or reserved. -/
def placesUsed (s : State) (d : Nat) : Nat :=
  (s.die d).susp.length + (s.teams.filter fun p => p.2.die == d && p.2.stop.isSome).length

/-- Save slots of a context that are taken. -/
def slotsUsed (s : State) (x : BitVec 3) : List Nat :=
  ((rangeFrom 0 4).flatMap fun d => ((s.die d).susp.filter fun e => e.team.ctx == x).map (·.slot))
    ++ s.teams.filterMap fun p => if p.2.ctx = x then p.2.stop.map (·.slot) else none

/-- Bytes between core areas. -/
def coreAreaStride : Nat := 0x182400

/-- The lowest free save slot that holds a team's record (R364). -/
def freeSlot (s : State) (t : Team) : Option Nat :=
  let c := s.ctx t.ctx.toNat
  if c.stride = 0 ∨ c.stride < 0x100 + 2 ^ (t.lw + t.lh) * coreAreaStride then none
  else (rangeFrom 0 (min 64 (c.save.size / c.stride))).find? fun k => !(slotsUsed s t.ctx).contains k

/-- The slot for a stop of a team, if a place and a slot are free (R362). -/
def stopRoom (s : State) (t : Team) : Option Nat := if placesUsed s t.die < 16 then freeSlot s t else none

/-- A stop request reaches a team. -/
def requestStop (t : Team) (soft : Bool) (slot : Nat) (s : State) : State :=
  { s with teams := tabSet s.teams t.origin { t with stop := some { byRule := !soft, bySoft := soft, slot := slot } } }

/-! ### The team record (R364 to R366) -/

/-- Whether a team binds one of ch8..ch10. -/
def bindsDies (s : State) (t : Team) : Bool :=
  s.binds.any fun p => p.2.ctx == t.ctx && decide (8 ≤ p.2.ch.val) && p.2.loc.isOf t && !p.2.refused

/-- Eight bytes of an entry of the slot history (R18, R365): four for each slot. -/
def histBytes (h : Option (BitVec 24)) : List Byte :=
  match h with
  | some f => natBytes 4 (f.toNat + 2 ^ 31)
  | none => natBytes 4 0

/-- A binding's 16 bytes. -/
def bindBytes (b : Word × BitVec 4) : List Byte := wordBytes b.1 ++ natBytes 8 (b.2.toNat + 128)

/-- A tile record. -/
def tileBytes (i : Nat) (c : Core) (n : Nat) : List Byte :=
  let t := c.tile n
  let st := t.mcnt.toNat * 2 ^ 48 + bit1 t.fv 11 + t.fmt.toNat * 256 + bit1 t.sat 6 + bit1 t.nf 5 + 2
  natBytes 8 st ++ (rangeFrom 0 64).flatMap fun m => natBytes 384 (tileRow (tileKey i n) t m).toNat

/-- The pinned tiles of a core. -/
def pinnedTiles (c : Core) : List Nat := (rangeFrom 0 64).filter fun n => (c.tile n).pin

/-- The core area of core `i`. -/
def coreArea (s : State) (i : Nat) : List Byte :=
  let c := (s.core i).finishTiles i
  let words (l : List Word) : List Byte := l.flatMap wordBytes
  words [c.pc, cstatWord { c with tm := false, prd := false, pkind := 0, qas := 0, qav := 0, sres := 0 }]
    ++ (rangeFrom 0 8).flatMap (fun k => histBytes (c.hist.getD k none))
    ++ words [c.seed, c.cvsat, c.sfall.setWidth 64, c.kund.setWidth 64, scurWord c, 0]
    ++ words ((rangeFrom 0 8).map fun n => cbdefWord (c.cb n))
    ++ words ((rangeFrom 0 16).map c.getG) ++ words ((rangeFrom 0 8).map c.getP)
    ++ (rangeFrom 0 8).flatMap (fun k => match c.binds[k]? with
        | some b => bindBytes b
        | none => natBytes 16 0)
    ++ words [BitVec.ofNat 64 ((pinnedTiles c).foldl (fun x n => x + 2 ^ n) 0), 0, 0, 0]
    ++ (rangeFrom 0 32).flatMap (fun n => natBytes 256 (c.getV n).toNat)
    ++ (pinnedTiles c).flatMap (tileBytes i c)

/-- The header of a team record. -/
def teamHeader (s : State) (t : Team) (r : StopReq) : List Byte :=
  let sfl := bit1 t.rcmp 0 + bit1 r.byRule 1 + bit1 r.bySoft 2 + bit1 (bindsDies s t) 3
  [t.lw, t.lh, t.die, t.x0, t.y0, t.kind.toNat, if t.kind = 3 then 0 else t.stage.toNat, sfl].flatMap (natBytes 1)
    ++ natBytes 8 t.tag.toNat ++ wordBytes t.step ++ wordBytes t.sched ++ natBytes 0x60 0 ++ natBytes 128 (t.crec.getD 0).toNat

/-- Whether a core that holds at a yield has drained and takes no trap there (R361). -/
def drained (s : State) (i : Nat) : Bool :=
  let c := s.core i
  (unitFault c none).isNone && !c.wdDue && !c.outstanding && c.gsb.isEmpty && c.vsb.isEmpty && c.recvs.isEmpty && c.mmas.isEmpty
    && !(c.cal.any fun e => (rangeFrom 0 64).any fun n => e.2.onTile n)
    && !((s.ctx (s.team i).ctx.toNat).colls.any fun k => k.core == i)

/-- TEAM_SAVE (R362): every core has drained or halted, and the record is written at system scope. -/
def saveTeam (t : Team) (r : StopReq) (s : State) : State :=
  let s0 := flushDone t s
  let c := s0.ctx t.ctx.toNat
  let base := c.save.base + r.slot * c.stride
  let x := t.ctx.toNat
  let s1 := systemWrite x base (teamHeader s0 t r) s0
  let s2 := (t.rect.zipIdx).foldl (fun s p => systemWrite x (base + 0x100 + p.2 * coreAreaStride) (coreArea s0 p.1) s) s1
  let left := t.cores.filter fun i => (s0.core i).run == .stopping
  let e : Susp := { team := { t with cores := left, stop := none, yeval := false, bindsDie := bindsDies s0 t, retired := t.retired }
                    slot := r.slot, soft := r.bySoft }
  let s3 := (dropTeam t s2).modDie t.die fun d => { d with susp := d.susp ++ [e] }
  let s4 := if t.kind = 3 ∨ r.bySoft = false then s3 else s3.modDie t.die fun d => d.modStage t.stage fun g => { g with winner := none }
  answerStop t.origin (BitVec.ofNat 64 r.slot) (wakeStage t s4)

/-- See `saveTeam`. -/
def execTeamSave (o : CoreId) (s : State) : Out :=
  match tabGet? s.teams o with
  | none => .next s
  | some t =>
    match t.stop with
    | none => .next s
    | some r =>
      let ok := t.cores.all fun i => (s.core i).run == .halted || ((s.core i).run == .stopping && drained s i)
      if ok && !allHalted s t then
        .next (match t.rect.find? fun i => (s.core i).regUe with
          | some i => registerFault i s
          | none => saveTeam t r s)
      else .next s

/-! ### Resume (R367, R368) -/

/-- A part of a core area as a number. -/
def areaNat (l : List Byte) (off n : Nat) : Nat := bytesNat ((l.drop off).take n)

/-- A tile restored from its record: pinned and not busy. -/
def tileOf (l : List Byte) : Tile :=
  let st := areaNat l 0 8
  { rows := (rangeFrom 0 64).map fun m => (m, BitVec.ofNat 3072 (areaNat l (8 + 384 * m) 384))
    mcnt := BitVec.ofNat 16 (bitsOf st 63 48), fv := bitOf st 11, fmt := BitVec.ofNat 3 (bitsOf st 10 8), sat := bitOf st 6,
    nf := bitOf st 5, pin := true }

/-- The tiles of a core after a resume (R189): those of its record, and every other unpinned with a zero status word. -/
def tilesOf (base : Nat) (l : List Byte) : Tab Tile :=
  let map := areaNat l 0x1E0 8
  ((rangeFrom 0 64).foldl (fun (acc : Nat × Tab Tile) n =>
    if bitOf map n then (acc.1 + 1, acc.2 ++ [(n, tileOf (l.drop (0x2200 + 0x6008 * acc.1)))])
    else (acc.1, acc.2 ++ [(n, { fill := base + n })])) (0, [])).2

/-- The registers of a core restored from its area (R365, R368). -/
def restoreCore (s : State) (t : Team) (moved : Bool) (l : List Byte) (i : Nat) (c : Core) : Core :=
  let w (off : Nat) : Word := BitVec.ofNat 64 (areaNat l off 8)
  let st := areaNat l 8 8
  let rows := schedRows s t.die t.ctx t.sched t.kind.toNat (t.index i)
  let scur := areaNat l 0x50 8
  { c with
    sct := bitOf st 7
    moved := moved || bitOf st 8
    rsm := true
    redir := false
    hist := (rangeFrom 0 8).map fun k =>
      let h := areaNat l (0x10 + 4 * k) 4
      if bitOf h 31 then some (BitVec.ofNat 24 h) else none
    seed := w 0x30
    cvsat := w 0x38
    sfall := (w 0x40).setWidth 32
    kund := (w 0x48).setWidth 16
    sched := rows
    slen := BitVec.ofNat 9 rows.length
    spos := BitVec.ofNat 9 (scur % 512)
    cbs := (rangeFrom 0 8).map fun n =>
      let d := areaNat l (0x60 + 8 * n) 8
      (n, { en := bitOf d 26, size := BitVec.ofNat 13 (bitsOf d 25 13), base := BitVec.ofNat 13 d })
    g := (rangeFrom 0 16).map fun n => (n, w (0xA0 + 8 * n))
    p := (rangeFrom 0 8).map fun n => (n, w (0x120 + 8 * n))
    v := (rangeFrom 0 32).map fun n => (n, BitVec.ofNat 2048 (areaNat l (0x200 + 256 * n) 256))
    binds := (rangeFrom 0 8).filterMap fun k =>
      let b := areaNat l (0x168 + 16 * k) 8
      if bitOf b 7 then some (w (0x160 + 16 * k), BitVec.ofNat 4 b) else none
    ac := tilesOf ((c.obs 0).fill - 64) l }

/-- The area of a position of a suspended team's record. -/
def readArea (s : State) (x base k : Nat) : List Byte :=
  let a := base + 0x100 + k * coreAreaStride
  let h := s.systemBytes x a 0x2200
  let n := ((rangeFrom 0 64).filter fun b => bitOf (areaNat h 0x1E0 8) b).length
  h ++ s.systemBytes x (a + 0x2200) (0x6008 * n)

/-- Whether a rectangle is one on which an entry may resume (R367). -/
def resumeOk (s : State) (e : Susp) (die x0 y0 : Nat) : Bool :=
  let r : Rect := { x := x0, y := y0, lw := e.team.lw, lh := e.team.lh }
  r.ok && decide (die < 4) && !s.rectBusy die r && (die == e.team.die || (e.team.kind == 3 && !e.team.bindsDie))

/-- A kernel's bindings follow it (R369, R371): their own ends, and the remote ends of the bindings that match them. -/
def moveBindings (t t' : Team) (s : State) : State :=
  if t.kind = 3 then
    let place (e : ChEnd) : ChEnd := { e with die := t'.die, x0 := t'.x0, y0 := t'.y0 }
    let mine (b : Binding) : Bool := b.ctx == t.ctx && b.loc.isOf t
    let match_ (b : Binding) : Bool := s.binds.any fun p => mine p.2 && decide (8 ≤ p.2.ch.val) && p.2.ctx == b.ctx
      && decide (8 ≤ b.ch.val) && p.2.loc == b.rem && p.2.rem == b.loc
    { s with binds := s.binds.map fun (n, b) =>
        let r := if match_ b then place b.rem else b.rem
        (n, { b with loc := if mine b then place b.loc else b.loc, rem := r }) }
  else s

/-- Whether the record of a suspended entry has an uncorrectable error (R416). -/
def recordUe (e : Susp) (s : State) : Bool :=
  let c := s.ctx e.team.ctx.toNat
  let base := c.save.base + e.slot * c.stride
  s.ueExt base 0x100 || (rangeFrom 0 (2 ^ (e.team.lw + e.team.lh))).any fun k =>
    let a := base + 0x100 + k * coreAreaStride
    let n := ((rangeFrom 0 64).filter fun b => bitOf (areaNat (s.systemBytes e.team.ctx.toNat a 0x2200) 0x1E0 8) b).length
    s.ueExt a (0x2200 + 0x6008 * n)

/-- The record of a suspended entry cannot be read: that is fatal to its context, and the entry stays suspended (R416). -/
def recordFault (e : Susp) (s : State) : State :=
  let c := s.ctx e.team.ctx.toNat
  contain e.team.ctx.toNat e.team.die
    { seq := 0, src := 6, ctx := e.team.ctx.setWidth 8, unit := Config.unitNo 6, cause := Config.unitCode 6,
      addr := BitVec.ofNat 64 (c.save.base + e.slot * c.stride) } s

/-- A suspended team where it resumes. -/
def Susp.placed (e : Susp) (die x0 y0 : Nat) : Team :=
  let t' : Team := { e.team with die := die, x0 := x0, y0 := y0 }
  { t' with cores := e.team.cores.map fun i => t'.coreAt (e.team.tx i) (e.team.ty i) }

/-- Resumes a suspended entry (R367, R368) whose record can be read. -/
def resumeRead (e : Susp) (die x0 y0 : Nat) (s : State) : State :=
  let t := e.team
  let c := s.ctx t.ctx.toNat
  let base := c.save.base + e.slot * c.stride
  let moved := !(die == t.die && x0 == t.x0 && y0 == t.y0)
  let rec1 : BitVec 1024 := BitVec.ofNat 1024 (bytesNat (s.systemBytes t.ctx.toNat (base + 0x80) 128))
  let t' : Team := { e.placed die x0 y0 with crec := t.crec.map fun _ => rec1 }
  let areas : Tab (List Byte) := (rangeFrom 0 (2 ^ (t.lw + t.lh))).map fun k => (k, readArea s t.ctx.toNat base k)
  let s1 := s.modDie t.die fun d => { d with susp := eraseFirst (fun q => q.slot == e.slot && q.team.ctx == t.ctx) d.susp }
  let s2 := if t.kind = 3 then s1 else s1.modDie t.die fun d => d.modStage t.stage fun g => { g with x0 := x0, y0 := y0 }
  startTeam t' false true (fun s t i c => restoreCore s t moved (tabGet [] areas (t.index i)) i c)
    (fun i => some (BitVec.ofNat 64 (areaNat (tabGet [] areas (t'.index i)) 0 8))) none (moveBindings t t' s2)

/-- Resumes a suspended entry (R367, R368, R416), whose schedule table can be read. -/
def resumeTeam (e : Susp) (die x0 y0 : Nat) (s : State) : State :=
  if recordUe e s then recordFault e s else forgetFaults (.agent die) (resumeRead e die x0 y0 s)

end Sys2Proof.Machine
end

