-- ==== Sys2Proof/Machine/Sched.lean ====
section
/-! DEFINITION. The microbatch scheduler and the cycle of the Gazetteer (R295 to R297, R302 to R307, R319 to R321, R332 to R334, R362). -/
namespace Sys2Proof.Machine

/-- Whether a context belongs to the job that owns the module, which switches only among its own contexts (R2). DESIGN CHOICE (log entry 81): the entries,
stages and descriptors of an earlier job's contexts stay as they are until their contexts are destroyed. -/
def State.ownJob (s : State) (x : Nat) : Bool := (s.ctx x).job == s.cart.jobNow

/-! ### Stash states (R332 to R334) -/

/-- States of the stash entries of (stage, tag). -/
def stashStates (x : DieSt) (g : Stage) (tag : BitVec 16) : List StashState :=
  (x.stash.filter fun e => e.ctx == g.ctx && e.stage == g.num && e.tag == tag).map (·.st)

/-- Starts the fetch of every spilled entry of (stage, tag). -/
def fetchSpilled (g : Stage) (tag : BitVec 16) (x : DieSt) : DieSt :=
  { x with stash := x.stash.map fun e =>
      if e.ctx = g.ctx ∧ e.stage = g.num ∧ e.tag = tag ∧ e.st = .spilled then { e with st := .fetching } else e }

/-- How the stash engine judges a backward record: held back, to be recomputed first, or neither (R333, R334). -/
inductive Judge where
  | go
  | hold
  | recompute
  deriving DecidableEq, Repr

/-- See `Judge`. A record whose recompute runs or is suspended is held back. -/
def judge (s : State) (d : Nat) (g : Stage) (kind : Nat) (e : GzEnt) : Judge :=
  let x := s.die d
  let mine (t : Team) : Bool := t.die == d && t.rcmp && t.recId == some e.id
  if (s.teams.any fun p => mine p.2) || (x.susp.any fun q => mine q.team) then .hold
  else if kind ≠ 1 then .go
  else
    let l := stashStates x g (keyTag e.key)
    if !sbEarly g.blk && l.any (fun t => t == .writing || t == .spilled || t == .fetching) then .hold
    else if !e.rcmp && l.contains .dropped then .recompute
    else .go

/-- Whether a record is held back only by spilled entries, whose fetch starts (R333). -/
def onlySpilled (x : DieSt) (g : Stage) (e : GzEnt) : Bool :=
  let l := stashStates x g (keyTag e.key)
  !sbEarly g.blk && l.contains .spilled && !l.contains .writing && !l.contains .fetching

/-! ### Order of records (R305) -/

/-- The oldest tag of a set: the one that follows the largest gap round the circle. -/
def oldestTag (tags : List (BitVec 16)) : BitVec 16 :=
  let gap (b : BitVec 16) : Nat :=
    tags.foldl (fun m a => if a = b then m else min m (b - a).toNat) 65536
  (tags.foldl (fun (best : Option (BitVec 16)) t => match best with
    | none => some t
    | some b =>
      if gap b < gap t then some t
      else if gap t = gap b ∧ t.toNat < b.toNat then some t else best) none).getD 0

/-- The oldest record of a list: by tag, then item, then insertion. -/
def oldestRec (l : List (GzEnt × Judge)) : Option (GzEnt × Judge) :=
  let t0 := oldestTag (l.map fun p => keyTag p.1.key)
  let rank (e : GzEnt) : Nat := ((keyTag e.key - t0).toNat * 65536 + keyItem e.key) * 2 ^ 64 + e.id
  l.foldl (fun best p => match best with
    | none => some p
    | some b => if rank p.1 < rank b.1 then some p else best) none

/-! ### Evaluation (R304 to R306) -/

/-- The rules of a stage. -/
def stageRules (g : Stage) : List Word := (rangeFrom 0 16).map (sbRule g.blk)

/-- Whether a rule's class matches a record. -/
def ruMatches (r : Word) (e : GzEnt) : Bool := ruClass r == 0xFF || ruClass r == keyClass e.key

/-- The lowest valid rule of a record, which gives its kind. -/
def ruleOf (g : Stage) (e : GzEnt) : Option Word := (stageRules g).find? fun r => ruV r && ruMatches r e

/-- The eligible records of a stage (R305). -/
def eligible (s : State) (d : Nat) (g : Stage) : List (GzEnt × Judge) :=
  (s.die d).gz.filterMap fun e =>
    if keyStage e.key = g.num ∧ e.st = .waiting ∧ e.elig.isSome = true then
      (ruleOf g e).bind fun r => let j := judge s d g (ruKind r) e
        if j = .hold then none else some (e, j)
    else none

/-- Whether a record is promoted by its age (R305). -/
def promoted (now : Nat) (g : Stage) (e : GzEnt) : Bool := sbAge g.blk != 0 && decide (sbAge g.blk < (now - e.born) / 1024)

/-- Whether a rule's condition holds. -/
def condHolds (g : Stage) (l : List (GzEnt × Judge)) (r : Word) : Bool :=
  match ruCond r with
  | 0 => true
  | 1 => decide (g.fly.toNat < ruArg r)
  | 2 => decide (ruArg r ≤ g.fly.toNat)
  | 3 => decide (ruArg r ≤ (l.filter fun p => ruMatches r p.1).length)
  | _ => false

/-- The winner of an evaluation, its rule, and whether it is promoted. -/
def evaluate (s : State) (d : Nat) (g : Stage) : Option (GzEnt × Judge × Word × Bool) :=
  let l := eligible s d g
  match oldestRec (l.filter fun p => promoted s.meshCyc g p.1) with
  | some (e, j) => (ruleOf g e).map fun r => (e, j, r, true)
  | none => (stageRules g).findSome? fun r =>
    if ruV r && condHolds g l r then (oldestRec (l.filter fun p => ruMatches r p.1)).map fun p => (p.1, p.2, r, p.1.prom) else none

/-! ### Stage dispatch (R297, R299, R307, R321, R334) -/

/-- The team-relative positions of a stage's roles with their entry addresses for a kind. -/
def roleEntries (g : Stage) (kind : Nat) : Tab Word :=
  (rangeFrom 0 (sbRoles g.blk)).foldl (fun t j =>
    let r := sbRect g.blk j
    ((rangeFrom 0 (2 ^ r.lh)).flatMap fun y => (rangeFrom 0 (2 ^ r.lw)).map fun x => (r.y + y) * 2 ^ g.lw + r.x + x).foldl
      (fun t k => tabSet t k (sbEntry g.blk j kind)) t) []

/-- The newest tag of two (R336). -/
def newerTag (o : Option (BitVec 16)) (t : BitVec 16) : BitVec 16 :=
  match o with
  | none => t
  | some a => if tagOlder a t then t else a

/-- The kind of entry that a rule starts for a record. -/
def dispatchKind (rcmp : Bool) (r : Word) : Nat := if rcmp then 0 else ruKind r

/-- The team of a stage's entry for a record. -/
def entryTeam (d : Nat) (g : Stage) (e : GzEnt) (rcmp : Bool) (kind : Nat) (s : State) : Team :=
  let x := s.die d
  let tag := keyTag e.key
  let t : Team :=
    { die := d, x0 := g.x0, y0 := g.y0, lw := g.lw, lh := g.lh, ctx := g.ctx, ent := 0, kind := BitVec.ofNat 2 kind, stage := g.num,
      tag := tag, step := g.step, rcmp := rcmp, crec := some (gzImage (x.cls e.key) e rcmp), sched := sbSched g.blk,
      wver := resolveAll x.wdir (some tag), entries := roleEntries g kind, recId := some e.id, clk := e.clk, cores := [] }
  { t with cores := t.entries.map fun p => t.coreAt (p.1 % t.w) (p.1 / t.w) }

/-- Dispatches a stage's entry for a record by a rule. -/
def stageDispatch (d : Nat) (g : Stage) (e : GzEnt) (rcmp : Bool) (r : Word) (prom : Bool) (s : State) : State :=
  let kind := dispatchKind rcmp r
  let tag := keyTag e.key
  let c := (s.die d).cls e.key
  let e := { e with prom := e.prom || prom }
  let im := gzImage c e rcmp
  let t := entryTeam d g e rcmp kind s
  let fwd := kind == 0 && !rcmp
  let s1 := s.modDie d fun x =>
    let x1 : DieSt := { x with
      gz := x.gz.map fun q => if q.id = e.id then { e with st := if rcmp then .waiting else .dispatched } else q
      newTag := if fwd then some (newerTag x.newTag tag) else x.newTag }
    let x2 := x1.modStage g.num fun g => { g with fly := if fwd then g.fly + 1 else g.fly, due := false, winner := none, pick := none }
    let x3 := if ruPf r then fetchSpilled g (tag - ruPfd r) x2 else x2
    if ruKind r = 1 ∧ sbEarly g.blk ∧ !rcmp then fetchSpilled g tag x3 else x3
  let nf := if clsNft c && imageNf im then some (e.key.extractLsb' 0 32) else none
  let regs (s : State) (t : Team) (i : Nat) (c : Core) : Core :=
    entryRegs s t (sbSeed g.blk) [e.key.setWidth 64, sbSarg g.blk 0, sbSarg g.blk 1] i c
  forgetFaults (.agent d) (startTeam t (sbKeep g.blk) false regs (fun i => tabGet? t.entries (t.index i)) nf s1)

/-- An entry of a stage is dispatched once its schedule table can be read; the flag says that the arbiter's one dispatch of the cycle is used (R296). -/
def tryDispatch (d : Nat) (g : Stage) (e : GzEnt) (rcmp : Bool) (r : Word) (prom : Bool) (s : State) : State × Bool :=
  let k := tableReady (entryTeam d g e rcmp (dispatchKind rcmp r) s) s
  if k.ok then (stageDispatch d g e rcmp r prom k.st, true) else (k.st, false)

/-- A suspended entry of a stage is resumed once its schedule table can be read. -/
def tryResume (d : Nat) (g : Stage) (q : Susp) (eff : State → State) (s : State) : State × Bool :=
  let k := tableReady (q.placed d g.x0 g.y0) s
  if k.ok then (eff (resumeTeam q d g.x0 g.y0 k.st), true) else (k.st, false)

/-- A stop that the scheduler makes at a yield (R302, R305, R362): not without a place and a save slot. -/
def yieldStop (d : Nat) (g : Stage) (t : Team) (s : State) : State :=
  match evaluate s d g with
  | none => s
  | some (e, j, r, p) =>
    let s1 := if p then s.modDie d fun x => { x with gz := x.gz.map fun q => if q.id = e.id then { q with prom := true } else q } else s
    if ruPre r || p then
      match stopRoom s t with
      | some k => (requestStop t false k s1).modDie d fun x => x.modStage g.num fun g => { g with winner := some (e.id, r, j == .recompute) }
      | none => s1
    else s1

/-- The team of a stage, if it is dispatched. -/
def stageTeam (s : State) (d : Nat) (g : Stage) : Option Team :=
  (s.teams.find? fun p => p.2.die == d && p.2.kind != 3 && p.2.stage == g.num).map (·.2)

/-- Suspended entries of a stage, oldest first. -/
def stageSusp (s : State) (d : Nat) (g : Stage) : List Susp :=
  (s.die d).susp.filter fun e => e.team.kind != 3 && e.team.stage == g.num

/-- Nothing is dispatched: the stage waits for the next insertion or promotion. -/
def notDue (d : Nat) (g : Stage) (s : State) : State := s.modDie d fun x => x.modStage g.num fun g => { g with due := false }

/-- An evaluation has chosen a record, which is dispatched and fixed from then on (R305, R319); one that is to be recomputed first stays waiting (R334). -/
def choose (d : Nat) (g : Stage) (e : GzEnt) (rcmp : Bool) (r : Word) (prom : Bool) (s : State) : State :=
  s.modDie d fun x => { x.modStage g.num fun g => { g with due := false, winner := none, pick := some (e.id, r, rcmp, prom) } with
    gz := x.gz.map fun q => if q.id = e.id then { q with prom := q.prom || prom, st := if rcmp then .waiting else .dispatched } else q }

/-- The entry of a chosen record is dispatched, unless the arbiter has made its one dispatch of the cycle (R296). -/
def dispatchPick (d : Nat) (g : Stage) (p : Nat × Word × Bool × Bool) (used : Bool) (s : State) : State × Bool :=
  match (s.die d).gz.find? fun e => e.id == p.1 with
  | none => (s.modDie d fun x => x.modStage g.num fun g => { g with pick := none, due := true }, used)
  | some e => if used then (s, used) else tryDispatch d g e p.2.2.1 p.2.1 p.2.2.2 s

/-- A record is chosen, and its entry is dispatched at once where the arbiter is free. -/
def pickNow (d : Nat) (g : Stage) (e : GzEnt) (rcmp : Bool) (r : Word) (prom used : Bool) (s : State) : State × Bool :=
  dispatchPick d g (e.id, r, rcmp, prom) used (choose d g e rcmp r prom s)

/-- An idle stage's evaluation: the winner of its stop, a suspended entry, or the winner of an evaluation (R305, R362). The flag says
that the arbiter's one dispatch of the cycle is used (R296). -/
def evalIdle (d : Nat) (g : Stage) (used : Bool) (s : State) : State × Bool :=
  let win := g.winner.bind fun w => ((s.die d).gz.find? fun e => e.id == w.1 && e.st == .waiting).map fun e => (e, w.2)
  match win, stageSusp s d g with
  | some (e, r, rc), _ => pickNow d g e rc r false used s
  | none, q :: _ =>
    if used then (s, used)
    else tryResume d g q (fun s => s.modDie d fun x => x.modStage g.num fun g => { g with due := false, winner := none }) s
  | none, [] =>
    match evaluate s d g with
    | some (e, j, r, p) => pickNow d g e (j == .recompute) r p used s
    | none => (notDue d g s, used)

/-- Fetches of what alone holds back a stage's backward records (R333). -/
def fetchHeld (d : Nat) (g : Stage) (s : State) : State :=
  s.modDie d fun x => x.gz.foldl (fun x e =>
    if keyStage e.key = g.num ∧ e.st = .waiting ∧ e.elig.isSome = true ∧ (ruleOf g e).map ruKind = some 1 ∧ onlySpilled x g e = true
    then fetchSpilled g (keyTag e.key) x else x) x

/-- One stage's evaluation in a cycle (R297, R306, R362, R406, R419). -/
def evalStage (d : Nat) (acc : State × Bool) (n : BitVec 8) : State × Bool :=
  let (s, used) := acc
  match (s.die d).stages.find? fun g => g.num == n with
  | none => acc
  | some g =>
    if (s.ctx g.ctx.toNat).abp || !s.ownJob g.ctx.toNat then acc
    else
      match stageTeam s d g with
      | some t =>
        if t.yeval then
          let t' := { t with yeval := false }
          let s1 : State := { s with teams := tabSet s.teams t.origin t' }
          (if t.stop.isNone && g.removing.isEmpty && !(stageSusp s d g).any (·.soft) then fetchHeld d g (yieldStop d g t' s1) else s1, used)
        else acc
      | none =>
        let q := stageSusp s d g
        if q.any (·.soft) || s.rectBusy d g.at then acc
        else
          match g.pick with
          | some p => dispatchPick d g p used s
          | none =>
            if !g.due then acc
            else if !g.removing.isEmpty then
              match q with
              | e :: _ => if used then acc else tryResume d g e id s
              | [] => (notDue d g s, used)
            else
              -- the states are judged as they stood at the end of the cycle before
              let (s1, u) := evalIdle d g used s
              (fetchHeld d g s1, u)

/-! ### Inserts (R319, R320) -/

/-- Why a record is not in the Gazetteer: taken, waiting, or refused. -/
inductive Insert where
  | taken
  | waits
  | refused
  deriving DecidableEq, Repr

/-- The keys of the records of a die's cores, but for core `who`, for which its Gazetteer keeps room. -/
def State.gzKept (s : State) (d : Nat) (who : Option Nat) : List (BitVec 48) :=
  s.cores.filterMap fun p => if coreDie p.1 = d ∧ who ≠ some p.1 then p.2.gzKeep else none

/-- See `Insert`. -/
def insertFate (s : State) (d : Nat) (who : Option Nat) (k : BitVec 48) (idx : Nat) : Insert :=
  if (s.die d).gzRefuses k idx then .refused else if (s.die d).gzRoom (s.gzKept d who) k then .taken else .waits

/-- Inserts the channel records at the head of one stream, at most `m` of them and while the cycle has room: the count of records taken so
far. -/
def insertChan (d n ti : Nat) : Nat → State × Nat → State × Nat
  | 0, acc => acc
  | m + 1, acc =>
  let (s, k) := acc
  match tabGet? s.binds n with
  | none => acc
  | some b =>
    match b.stream ti with
    | .record key idx p :: _ =>
      if 4 ≤ k then acc
      else
        match insertFate s d none key idx.toNat with
        | .taken => insertChan d n ti m (landParked n ti b (.record key idx p) s, k + 1)
        | .waits => acc
        | .refused =>
          if b.told.contains ti then acc
          else
            (logFault d { seq := 0, src := 4, ctx := b.ctx.setWidth 8, unit := BitVec.ofNat 16 b.port, cause := 0x20, info := 0x20 }
              (s.modBind n fun b => { b with told := b.told ++ [ti] }), k + 1)
    | _ => acc

/-- STATE in a record (R331). -/
def stateCode : Option StashState → Nat
  | none => 0
  | some .resident => 1
  | some .spilled => 2
  | some .dropped => 3
  | some .writing => 4
  | some .fetching => 5

/-- The payload of an agent's record, as the cycle of its insertion finds it (R331, R391). -/
def AgentRec.body (x : DieSt) (r : AgentRec) : BitVec 512 :=
  match r.want with
  | none => r.payload
  | some (c, stage, tag, sid, op, _) =>
    let e := x.stash.find? fun e => e.ctx == c && e.stage == stage && e.tag == tag && e.sid == sid
    let held := match e with
      | some e => e.stored
      | none => 0
    BitVec.ofNat 512 (stage.toNat + stateCode (e.map (·.st)) * 2 ^ 8 + tag.toNat * 2 ^ 16 + sid.toNat * 2 ^ 32 + op * 2 ^ 48 + held * 2 ^ 64)

/-- A fault of a stash command freezes its core's queue (R330). The first fault is the one that is recorded; a later one of an earlier command moves
what the fault discards. -/
def StashQueue.freeze (q : StashQueue) (kctr : BitVec 4) (code : BitVec 8) (addr : Word) (id : Nat) : StashQueue :=
  if q.frz then { q with fid := min q.fid id } else { q with frz := true, fctr := kctr, fcode := code, faddr := addr, fid := id }

/-- A stash queue freezes, and its fault is logged (R414). -/
def freezeStash (i : Nat) (kctr : BitVec 4) (code : BitVec 8) (addr : Word) (id : Nat) (s : State) : State :=
  let s1 := s.modCore i fun c => { c with stash := c.stash.freeze kctr code addr id }
  if (s.core i).stash.frz then s1 else logContained 2 i code.toNat addr s1

/-- A stash command's record is refused: the issuing core's queue freezes (R330, R331). -/
def refuseStash (r : AgentRec) (s : State) : State := freezeStash r.core r.kctr 0x57 0 ((r.want.map (·.2.2.2.2.2)).getD 0) s

/-- The records of die agents: the stash engine's before the collective controller's. DESIGN CHOICE (log entry 67): a record of a collective that its
class refuses waits in the controller, once reported in the die's fault log. -/
def insertAgents (d : Nat) (acc : State × Nat) : State × Nat :=
  let x := acc.1.die d
  ((x.gzAgent.filter fun r => !r.coll) ++ x.gzAgent.filter (·.coll)).foldl (fun (acc : State × Nat) r =>
    let (s, k) := acc
    if 4 ≤ k then acc
    else
      let drop (s : State) : State := s.modDie d fun x => { x with gzAgent := eraseFirst (fun q => q == r) x.gzAgent }
      match insertFate s d none r.key r.idx with
      | .taken => (drop (s.modDie d fun x => gzInsert d s.meshCyc r.key r.idx (r.body x) 0 x), k + 1)
      | .waits => acc
      | .refused =>
        if r.coll then
          if r.told then acc
          else
            (logFault d { seq := 0, src := 3, ctx := (s.team r.core).ctx.setWidth 8, unit := BitVec.ofNat 16 r.core, cause := 0x20, info := 0x20 }
              (s.modDie d fun x => { x with gzAgent := modFirst (fun q => q == r) (fun q => { q with told := true }) x.gzAgent }), k + 1)
        else (drop (refuseStash r s), k + 1))
    acc

/-- The streams of a die's channels in the order in which their records are taken. -/
def chanStreams (s : State) (d : Nat) : List (Nat × Nat) :=
  (rangeFrom 0 11).flatMap fun ch => s.binds.flatMap fun p =>
    if p.2.ch.val = ch ∧ p.2.loc.die = d then p.2.parked.map fun q => (p.1, q.1) else []

/-- RECORD_AGE_PROMOTION (R305, R306): an idle team with a record that has become promotable is evaluated again. -/
def execRecordAgePromotion (d : Die) (s : State) : Out :=
  let l := ((s.die d.val).stages.filter fun g => (eligible s d.val g).any fun p => promoted s.meshCyc g p.1).map (·.num)
  .next (s.modDie d.val fun x => { x with stages := x.stages.map fun g => if l.contains g.num then { g with due := true } else g })

/-! ### The dispatch arbiter (R295 to R297) -/

/-- The rectangle that a queued descriptor waits for. -/
def launchRect (x : DieSt) (l : Launch) : Rect :=
  if ldKind l.desc = 2 then
    match x.stages.find? fun g => g.num == ldStage l.desc with
    | some g => g.at
    | none => ldRect l.desc
  else ldRect l.desc

/-- The first descriptor that may be dispatched: its rectangle is free and meets no earlier one that waits (R295). -/
def nextLaunch (s : State) (d : Nat) : List Launch → List Launch → Option Launch
  | _, [] => none
  | before, l :: r =>
    let x := s.die d
    let q := launchRect x l
    if (ldKind l.desc == 2 || !s.rectBusy d q) && before.all (fun b => !(launchRect x b).meets q) then some l
    else nextLaunch s d (before ++ [l]) r

/-- The team of a kernel. -/
def kernelTeam (d : Nat) (l : Launch) (s : State) : Team :=
  let r := ldRect l.desc
  let t : Team :=
    { die := d, x0 := r.x, y0 := r.y, lw := r.lw, lh := r.lh, ctx := BitVec.ofNat 3 (ldCtx l.desc), ent := 0, kind := 3,
      sched := ldSched l.desc, wver := resolveAll (s.die d).wdir none, launch := some l, clk := l.clk, cores := [] }
  { t with cores := t.rect, entries := (rangeFrom 0 (2 ^ (r.lw + r.lh))).map fun k => (k, ldEntry l.desc) }

/-- Dispatches a kernel (R291 to R293). -/
def kernelDispatch (d : Nat) (l : Launch) (s : State) : State :=
  startTeam (kernelTeam d l s) false false (fun s t i c => entryRegs s t (ldSeed l.desc) [ldArg l.desc 0, ldArg l.desc 1, ldArg l.desc 2] i c)
    (fun _ => some (ldEntry l.desc)) none s

/-- Installs a stage (R297); with KEEPSP its image is placed now (R292). DESIGN CHOICE (log entry 80): of its entries' programs, the image is that of role 0's
forward entry. -/
def installStage (d : Nat) (l : Launch) (s : State) : State :=
  let r := ldRect l.desc
  let x := BitVec.ofNat 3 (ldCtx l.desc)
  let g : Stage := { num := sbStage l.blk, ctx := x, x0 := r.x, y0 := r.y, lw := r.lw, lh := r.lh, blk := l.blk, due := true }
  let s1 := s.modDie d fun q => { q with stages := q.stages ++ [g] }
  let t : Team := { loneTeam 0 with die := d, x0 := r.x, y0 := r.y, lw := r.lw, lh := r.lh }
  let prog := programOf (s.ctx x.toNat) (sbEntry l.blk 0 0)
  let s2 := if sbKeep l.blk then t.rect.foldl (fun s i =>
      let (n, s') := s.take
      placeImages x.toNat prog i n s') s1 else s1
  finishLaunch l s2

/-- A removal that leaves the queue (R297). -/
def beginRemoval (d : Nat) (l : Launch) (s : State) : State :=
  if (s.die d).hasStage (ldStage l.desc) then
    s.modDie d fun x => x.modStage (ldStage l.desc) fun g => { g with removing := g.removing ++ [l], due := true }
  else finishLaunch l s

/-- Whether a stage has a dispatch that the arbiter makes before the launch queue's (R296). -/
def stageReady (s : State) (d : Nat) (g : Stage) : Bool :=
  let q := stageSusp s d g
  (stageTeam s d g).isNone && !q.any (·.soft) && !s.rectBusy d g.at && !(s.ctx g.ctx.toNat).abp && s.ownJob g.ctx.toNat
    && (g.pick.isSome || (g.due && (!q.isEmpty || (g.removing.isEmpty && (g.winner.isSome || (evaluate s d g).isSome)))))

/-- Whether a descriptor can leave its queue: its STATUS can be written, and a kernel's schedule table read. -/
def launchReady (d : Nat) (l : Launch) (s : State) : ReadyNow :=
  let r := statusReady l s
  if r.ok && ldKind l.desc == 0 then tableReady (kernelTeam d l r.st) r.st else r

/-- LAUNCH_DISPATCH (R296): the launch queue's turn at the arbiter, which makes one dispatch in a mesh cycle. A descriptor of an earlier job stays queued (R2). -/
def execLaunchDispatch (d : Die) (s : State) : Out :=
  if (s.die d).arb || (s.die d).stages.any (stageReady s d) then .next (s.modDie d fun x => { x with arb := false })
  else
  match nextLaunch s d.val [] ((s.die d.val).lq.filter fun l => s.ownJob (ldCtx l.desc)) with
  | none => .next s
  | some l =>
    let r := launchReady d.val l s
    if !r.ok then .next r.st
    else
      let s1 := writeStatus l.agent l 2 (r.st.modDie d.val fun x => { x with lq := eraseFirst (fun q => q == l) x.lq })
      .next (forgetFaults l.agent (forgetFaults (.agent d.val) (match ldKind l.desc with
        | 0 => kernelDispatch d.val l s1
        | 1 => installStage d.val l s1
        | _ => beginRemoval d.val l s1)))

/-- STAGE_REMOVAL (R297): the team is idle and nothing of the stage is suspended. A record of the stage that an issued `gz.put` is about to insert goes
first (log entry 64). -/
def execStageRemoval (d : Die) (s : State) : Out :=
  match (s.die d.val).stages.find? fun g => !g.removing.isEmpty && g.pick.isNone && (stageTeam s d.val g).isNone && (stageSusp s d.val g).isEmpty
      && (s.gzKept d.val none).all (fun k => keyStage k != g.num) with
  | none => .next s
  | some g =>
    let r := g.removing.foldl (fun r l => let q := statusReady l r.st
      { ok := r.ok && q.ok, st := q.st }) ({ ok := true, st := s } : ReadyNow)
    if !r.ok then .next r.st
    else
      let s1 := r.st.modDie d.val fun x => { x with stages := x.stages.filter fun q => q.num != g.num }
      .next (g.removing.foldl (fun s l => finishLaunch l s) s1)

end Sys2Proof.Machine
end

