-- ==== Sys2Proof/Machine/Stash.lean ====
section
/-! DEFINITION. The stash engine and weight versions (R220, R221, R323 to R336). -/
namespace Sys2Proof.Machine

/-! ### Descriptors and commands (R220, R221) -/

/-- Bytes of a descriptor as a number. -/
def sdBytes (d : SDesc) (off n : Nat) : Nat := d.toNat / 2 ^ (8 * off) % 2 ^ (8 * n)
/-- Fields of a stash descriptor. -/
def sdAddr (d : SDesc) : Word := BitVec.ofNat 64 (sdBytes d 0 8)
/-- See `sdAddr`. -/
def sdLen (d : SDesc) : Nat := sdBytes d 8 4
/-- See `sdAddr`. -/
def sdPolicy (d : SDesc) : Nat := sdBytes d 0xE 1 % 4
/-- See `sdAddr`. -/
def sdCoding (d : SDesc) : Nat := sdBytes d 0xE 1 / 4 % 4
/-- See `sdAddr`. -/
def sdFmt (d : SDesc) : Nat := sdBytes d 0xF 1
/-- See `sdAddr`. -/
def sdScope (d : SDesc) : Nat := sdBytes d 0x11 1
/-- See `sdAddr`. -/
def sdNkey (d : SDesc) : Word := BitVec.ofNat 64 (sdBytes d 0x18 8)

/-- Whether a descriptor fails check 0x40 (R220). -/
def sdBad (op : StashOp) (d : SDesc) : Bool :=
  let whole := match op with
    | .put => true
    | .get => true
    | .drop => true
    | _ => false
  sdBytes d 0x12 6 != 0 || sdBytes d 0x10 1 / 16 != 0 || bitsOf (sdBytes d 0x18 8) 62 48 != 0
    || (whole && (sdCoding d == 3 || sdBytes d 0xE 1 / 16 != 0 || !(sdFmt d == 0 || sdFmt d == 1 || sdFmt d == 8)
      || sdLen d % 64 != 0 || decide (sdLen d < 64 ∨ 16777216 < sdLen d) || decide (4 < sdScope d)))

/-- A command enters the core's stash queue with its count (R220). -/
def Core.enqStash (c : Core) (op : StashOp) (d : SDesc) (tag : BitVec 16) : Core :=
  let m : StashCmd := { op := op, desc := d, tag := tag, id := c.nextId }
  { c.addK m.kctr.toNat 1 with nextId := c.nextId + 1, stash := { c.stash with q := c.stash.q ++ [m] } }

/-- A stash or `wv.commit` command as a slot operation: held while the queue is full. -/
def stashOp (e : Eng) (op : StashOp) (len : Nat) (chk : State → SDesc → List (Nat × Bool)) (a b : SqG) (s : State) : Out :=
  let ad := readSg s a
  let d : SDesc := BitVec.ofNat 256 (cmdBytes s ad len)
  let m : StashCmd := { op := op, desc := d, tag := 0 }
  let rd := gateCmd s ad len 16
  -- a bad address is found before the descriptor's content is checked, and a failed race check after it (R358, R451)
  let body := if (cmdLocal ad len 16).isSome then {} else checksC ((0x0B, s.me.overK m.kctr.toNat 1) :: chk s d)
  runSlot (engSlot e)
    ((((gateSg s a).and (gateSg s b)).and (Gate.holdIf (decide (4 ≤ s.me.stash.q.length + s.me.grpStash)))).and (rd.and body))
    (fun t => t.upd fun c => c.enqStash op d ((readSg t b).setWidth 16)) s

/-- The checks of the five stash commands: a kernel has no stage (R323), and the descriptor (R220). -/
def stashChecks (op : StashOp) (s : State) (d : SDesc) : List (Nat × Bool) :=
  [(0x42, (s.team s.cur).kind == 3), (0x40, sdBad op d)]

/-- R220, R328. -/
def execStashPut (e : Eng) (a b : SqG) (s : State) : Out := stashOp e .put 32 (stashChecks .put) a b s

/-- R220, R328. -/
def execStashGet (e : Eng) (a b : SqG) (s : State) : Out := stashOp e .get 32 (stashChecks .get) a b s

/-- R220, R328. -/
def execStashPf (e : Eng) (a b : SqG) (s : State) : Out := stashOp e .pf 32 (stashChecks .pf) a b s

/-- R220, R328. -/
def execStashDrop (e : Eng) (a b : SqG) (s : State) : Out := stashOp e .drop 32 (stashChecks .drop) a b s

/-- R220, R328. -/
def execStashFree (e : Eng) (a b : SqG) (s : State) : Out := stashOp e .free 32 (stashChecks .free) a b s

/-- Whether a `wv.commit` descriptor has a reserved field or bit set. -/
def wvBad (d : SDesc) : Bool := sdBytes d 0xA 6 != 0 || sdBytes d 8 1 / 16 != 0 || sdBytes d 9 1 / 16 != 0

/-- R221. -/
def execWvCommit (e : Eng) (a b : SqG) (s : State) : Out :=
  stashOp e .wvCommit 16 (fun s d => [(0x41, wvBad d || decide (3 < (readSg s b).toNat))]) a b s

/-! ### Stored forms (R326, R327) -/

/-- Bytes of an element of a stash format. -/
def stSize (fmt : Nat) : Nat := if fmt = 8 then 4 else 2

/-- The source in tiles of 4,096 bytes. -/
def stTiles (l : List Byte) : List (List Byte) :=
  (rangeFrom 0 ((l.length + 4095) / 4096)).map fun k => (l.drop (4096 * k)).take 4096

/-- The elements of a tile. -/
def stElems (fmt : Nat) (l : List Byte) : List FpNum :=
  let n := stSize fmt
  match codeFloat fmt with
  | some f => (rangeFrom 0 (l.length / n)).map fun i => f.value (bytesNat ((l.drop (n * i)).take n))
  | none => []

/-- The byte planes of a tile, one after another. -/
def planes (n : Nat) (l : List Byte) : List Byte :=
  (rangeFrom 0 n).flatMap fun j => (rangeFrom 0 (l.length / n)).map fun i => l.getD (n * i + j) 0

/-- A tile from its planes. -/
def unplane (n : Nat) (l : List Byte) : List Byte :=
  let k := l.length / n
  (rangeFrom 0 k).flatMap fun i => (rangeFrom 0 n).map fun j => l.getD (k * j + i) 0

/-- 64-byte segments. -/
def segments (l : List Byte) : List (List Byte) := (rangeFrom 0 (l.length / 64)).map fun k => (l.drop (64 * k)).take 64

/-- The stored form of a tile (R326). -/
def encodeTile (coding fmt : Nat) (l : List Byte) : List Byte :=
  let xs := stElems fmt l
  match coding with
  | 0 =>
    let sg := segments (planes (stSize fmt) l)
    let mask := (sg.zipIdx).foldl (fun m p => if p.1.all (· == 0) then m else m + 2 ^ p.2) 0
    natBytes 8 mask ++ natBytes 56 0 ++ (sg.filter fun p => !p.all (· == 0)).flatten
  | 1 => (rangeFrom 0 (xs.length / 16)).flatMap fun b => natBytes 18 (nxEncode 7 (fun _ => .rna) ((xs.drop (16 * b)).take 16)).1
  | _ =>
    let e := fp8Exponent xs
    BitVec.ofInt 8 e :: natBytes 63 0 ++ xs.map fun x => BitVec.ofNat 8 (fp8Elem e x)

/-- The segments of a lossless tile put back in their places. -/
def fillSegments (mask : Nat) : Nat → Nat → List Byte → List Byte
  | _, 0, _ => []
  | k, n + 1, l =>
    if bitOf mask k then l.take 64 ++ fillSegments mask (k + 1) n (l.drop 64) else natBytes 64 0 ++ fillSegments mask (k + 1) n l

/-- The bytes of a tile of `len` source bytes from its stored form (R327). -/
def decodeTile (coding fmt len : Nat) (l : List Byte) : List Byte :=
  let out (xs : List FpNum) : List Byte := match codeFloat fmt with
    | some f => xs.flatMap fun x => natBytes (stSize fmt) (f.rne x)
    | none => []
  match coding with
  | 0 => unplane (stSize fmt) (fillSegments (bytesNat (l.take 8)) 0 (len / 64) (l.drop 64))
  | 1 => out ((rangeFrom 0 (len / stSize fmt)).map fun i => nxElem 7 (bytesNat ((l.drop (18 * (i / 16))).take 18)) (i % 16))
  | _ =>
    let e := sintOf 8 (l.getD 0 0).toNat
    out ((l.drop 64).map fun b => (ffE4m3.value b.toNat).mul (.fin false 1 e))

/-- The stored form of a source, tile by tile: raw under policy 0. -/
def encodeStash (policy coding fmt : Nat) (l : List Byte) : List (List Byte) :=
  (stTiles l).map fun t => if policy = 0 then t else encodeTile coding fmt t

/-- The tiles of a stored form, by their lengths. -/
def cutTiles : List Nat → List Byte → List (List Byte)
  | [], _ => []
  | n :: r, l => l.take n :: cutTiles r (l.drop n)

/-- The source bytes of an entry, from its stored form (R327). -/
def StashEnt.decode (e : StashEnt) (l : List Byte) : List Byte :=
  ((cutTiles e.lens l).zipIdx).flatMap fun p =>
    let len := min 4096 (e.bytes - 4096 * p.2)
    if e.policy = 0 then p.1 else decodeTile e.coding e.fmt len p.1

/-! ### Entries and jobs -/

/-- The entry of a job. -/
def DieSt.entryOf (x : DieSt) (j : StashJob) : Option StashEnt := x.stash.find? fun e => e.is j

/-- Changes the entry of a job. -/
def DieSt.modEntry (x : DieSt) (j : StashJob) (f : StashEnt → StashEnt) : DieSt :=
  { x with stash := x.stash.map fun e => if e.is j then f e else e }

/-- A job leaves the engine. -/
def dropJob (d : Nat) (j : StashJob) (s : State) : State := s.modDie d fun x => { x with jobs := eraseFirst (fun q => q == j) x.jobs }

/-- The command of a job leaves its core's queue with its count, unless a handler has discarded it (R220, R330). -/
def countCmd (j : StashJob) (s : State) : State :=
  s.modCore j.core fun c =>
    match c.stash.q.find? fun m => m.id == j.id with
    | none => c
    | some m => { c.decK m.kctr.toNat with stash := { c.stash with q := c.stash.q.filter fun m => m.id != j.id } }

/-- The counter of a job. -/
def StashJob.kctr (j : StashJob) : BitVec 4 := j.desc.extractLsb' 128 4

/-- A command completes: its count, and its record where NKEY asks for one. A put whose data are stored inserts later (R331). -/
def finishJob (d : Nat) (j : StashJob) (rec : Bool) (s : State) : State :=
  let s1 := countCmd j (dropJob d j s)
  if rec ∧ (sdNkey j.desc).getLsbD 63 = true then
    s1.modDie d fun x => { x with stRecs := x.stRecs ++
      [stashRecord j.core (sdNkey j.desc) j.kctr j.op j.ctx j.stage j.tag (sdSid j.desc) j.id] }
  else s1

/-- A command faults after issue: its core's queue freezes (R330). -/
def failJob (d : Nat) (j : StashJob) (code : Nat) (s : State) : State :=
  let s1 := dropJob d j s
  if (s1.core j.core).stash.q.any fun m => m.id == j.id then freezeStash j.core j.kctr (BitVec.ofNat 8 code) (sdAddr j.desc) j.id s1 else s1

/-- A put whose source is not read faults or is discarded: no entry is left. -/
def failPut (d : Nat) (j : StashJob) (code : Nat) (s : State) : State := failJob d j code (s.modDie d fun x => x.dropEntry j)

/-- Whether a job waits: its entry is in motion, or an earlier job names the same entry (R325). -/
def jobBlocked (x : DieSt) (j : StashJob) : Bool :=
  let before := x.jobs.takeWhile fun q => q != j
  (before.any fun q => q.ctx == j.ctx && q.stage == j.stage && q.tag == j.tag && sdSid q.desc == sdSid j.desc)
    || match x.entryOf j with
      | some e => e.st == .writing || e.st == .fetching
      | none => false

/-- Sets a job in motion. -/
def moveJob (d : Nat) (j : StashJob) (s : State) : State :=
  s.modDie d fun x => { x with jobs := x.jobs.map fun q => if q = j then { q with moving := true } else q }

/-- A put creates or replaces its entry (R328). -/
def putEntry (d : Nat) (j : StashJob) (s : State) : State :=
  let dr := sdPolicy j.desc == 3
  let e : StashEnt :=
    { ctx := j.ctx, stage := j.stage, tag := j.tag, sid := sdSid j.desc, st := if dr then .dropped else .writing, policy := sdPolicy j.desc,
      coding := sdCoding j.desc, bytes := sdLen j.desc, fmt := sdFmt j.desc, by_ := if dr then none else some j.core,
      nrec := if !dr && (sdNkey j.desc).getLsbD 63 then some (j.core, sdNkey j.desc, j.kctr, j.id) else none }
  let s1 := s.modDie d fun x => { x with stash := (x.stash.filter fun q => !q.is j) ++ [e] }
  if dr then finishJob d j true s1 else moveJob d j s1

/-- Applies a job to its entry (R328). -/
def applyJob (d : Nat) (j : StashJob) (s : State) : State :=
  let x := s.die d
  let st : Option StashState := (x.entryOf j).map (·.st)
  match j.op, st with
  | .put, none => if 8192 ≤ x.stash.length then s else putEntry d j s
  | .put, some .dropped => putEntry d j s
  | .put, some _ => failJob d j 0x51 s
  | .get, none => failJob d j 0x52 s
  | .get, some .dropped => failJob d j 0x53 s
  | .get, some .spilled => s.modDie d fun x => x.modEntry j fun e => { e with st := .fetching }
  | .get, some _ =>
    match x.entryOf j with
    | some e => if e.bytes = sdLen j.desc ∧ e.fmt = sdFmt j.desc then moveJob d j s else failJob d j 0x54 s
    | none => s
  | .pf, none => failJob d j 0x52 s
  | .pf, some .spilled => s.modDie d fun x => x.modEntry j fun e => { e with st := .fetching }
  | .pf, some _ => finishJob d j true s
  | .drop, none => failJob d j 0x52 s
  | .drop, some _ => finishJob d j true (s.modDie d fun x => (x.modEntry j fun e => { e with st := .dropped, lens := [], place := [] }).dueStage j.stage)
  | .free, none => finishJob d j true s
  | .free, some _ => finishJob d j true (s.modDie d fun x => x.dropEntry j)
  | .wvCommit, _ => s

/-- The next command of a core's queue that has not been sent. -/
def nextCmd (c : Core) : Option StashCmd := c.stash.q.find? fun m => !m.sent

/-- Whether a record of the core waits in the engine, with the core's later commands behind it (R331). -/
def recWaits (x : DieSt) (i : Nat) : Bool := (x.gzAgent ++ x.stRecs).any fun r => !r.coll && r.core == i

/-- Whether a job can be applied: not a put for which the die has no entry (R323). -/
def jobFits (x : DieSt) (j : StashJob) : Bool := !(j.op == .put && (x.entryOf j).isNone && decide (8192 ≤ x.stash.length))

/-- Whether the core of a job is not frozen with its context (R356, R418). -/
def State.jobRuns (s : State) (j : StashJob) : Bool := (s.core j.core).live

/-- STASH_ACCEPT (R325): the engine takes the core's next command, and applies the core's first command that waits for nothing. -/
def execStashAccept (c : CoreId) (s : State) : Out :=
  let d := coreDie c
  let k := s.core c
  let s1 := match nextCmd k with
    | none => s
    | some m =>
      if m.op = .wvCommit ∨ k.stash.frz = true ∨ recWaits (s.die d) c = true ∨ k.live = false then s
      else
        let t := s.team c
        let j : StashJob := { core := c, ctx := t.ctx, stage := t.stage, op := m.op, desc := m.desc, tag := m.tag, id := m.id }
        (s.modCore c fun k => { k with stash := { k.stash with q := k.stash.q.map fun q => if q.id = m.id then { q with sent := true } else q } }).modDie
          d fun x => { x with jobs := x.jobs ++ [j] }
  match (s1.die d).jobs.find? fun j => j.core == c.val && !j.moving && !jobBlocked (s1.die d) j && jobFits (s1.die d) j && s1.jobRuns j with
  | none => .next s1
  | some j => .next (applyJob d j s1)

/-! ### Data (R326 to R328) -/

/-- Where a command's bytes lie: a scratchpad, or global memory. -/
inductive StPlace where
  | sp (core off : Nat)
  | mem (l : List (TlbEnt × Nat × Nat))
  deriving DecidableEq, Repr

/-- What the use of a command's ADDR comes to now: the engine waits for walks or for writes that the homes have accepted, it meets a fault code
(R330), or it has the place. -/
inductive StNow where
  | wait (m : List Miss)
  | fault (f : Nat)
  | ready (p : StPlace)
  deriving DecidableEq, Repr

/-- The place of a command's ADDR. DEDUCED (log entry 65): a failed race check is FCODE 0x56, as the table of these commands has it (R330), and not
the 0x03 that R276 gives engines. -/
def stPlace (s : State) (j : StashJob) (kind : AccKind) : StNow :=
  let a := sdAddr j.desc
  let n := sdLen j.desc
  let t := s.team j.core
  let w := Seeker.stash (coreDie j.core)
  let spad (k off : Nat) : StNow :=
    if 0x60000 < off + n then .fault 0x50 else if (granRace s j.core k off n kind).isSome then .fault 0x56 else .ready (.sp k off)
  if a.toNat % 64 ≠ 0 then .fault 0x50
  else
    match decodeEa a with
    | .local off => spad j.core off
    | .peer x y off => if x < t.w ∧ y < t.h then spad (t.coreAt x y) off else .fault 0x50
    | .global _ =>
      match missesOf s w j.ctx (gUses a n kind.perm) with
      | m :: l => .wait (m :: l)
      | [] =>
        match gPieces s w j.ctx a n kind.perm with
        | .error _ => .fault 0x50
        | .ok l =>
          if kind == .read && (l.any fun p => s.awaits p.2.1 p.2.2) then .wait []
          else if l.any fun q => q.1.chk && ((linesOf q.2.1 q.2.2).any fun m => !raceOk s j.core (lineTagAfter s m) kind) then .fault 0x56
          else .ready (.mem l)
    | _ => .fault 0x50

/-- The pages of a command's ADDR enter the engine's TLB (R348). -/
def stLearn (j : StashJob) (kind : AccKind) (s : State) : State :=
  learnPages (.stash (coreDie j.core)) j.ctx (gUses (sdAddr j.desc) (sdLen j.desc) kind.perm) s

/-- A step of a command at its ADDR: it stays to be done while walks are under way. -/
def withPlace (j : StashJob) (kind : AccKind) (s : State) (bad : Nat → State → State) (f : StPlace → State → State) : Out :=
  match stPlace s j kind with
  | .wait m => .next (askWalks j.ctx m s)
  | .fault e => .next (bad e (forgetFaults (.stash (coreDie j.core)) s))
  | .ready p => .next (f p (stLearn j kind s))

/-- STASH_SOURCE_READ_DONE (R326, R328, R340): a put has read its source, and its stored form is being written. A put that faults leaves no
entry. -/
def execStashSourceReadDone (d : Die) (ue : Bool) (s : State) : Out :=
  match (s.die d.val).jobs.find? fun j => j.moving && j.op == .put && s.jobRuns j with
  | none => .next s
  | some j =>
    withPlace j .read s (failPut d.val j) fun p s =>
      let (s1, bs, bad) := match p with
        | .sp k off => (s, s.spBytes k off (sdLen j.desc), false)
        | .mem l => readLines j.ctx (fun _ => false) (lineCuts l) s
      if ue || bad then failPut d.val j 0x55 s1
      else
        finishJob d.val j false (s1.modDie d.val fun x => x.modEntry j fun e =>
          let ts := encodeStash e.policy e.coding e.fmt bs
          { e with lens := ts.map List.length, data := ts.flatten, read := true })

/-- Whether the engine goes on for a context: a fatal fault has not frozen it (R418). -/
def State.stashOn (s : State) (e : StashEnt) : Bool := !(s.ctx e.ctx.toNat).fatal

/-- STASH_STORE_DONE (R324, R326, R328, R331): a put's stored form is in its region, once the region has room. -/
def execStashStoreDone (d : Die) (s : State) : Out :=
  match (s.die d.val).stash.find? fun e => s.stashOn e && s.storeReady e with
  | none => .next s
  | some e => .next (endStore d.val e s)

/-- A fetch meets an uncorrectable error in the stored form (R330, R416). The entry stays SPILLED, and the command for which it was fetched faults.
DESIGN CHOICE (log entry 65): where no command is first in line for it, nobody is told. -/
def failFetch (d : Nat) (e : StashEnt) (s : State) : State :=
  let s1 := s.modDie d fun x => { x with stash := x.stash.map fun q => if q = e then { q with st := .spilled } else q }
  match (s.die d).jobs.find? fun j => e.is j with
  | some j => if j.op == .get || j.op == .pf then failJob d j 0x55 s1 else s1
  | none => s1

/-- STASH_FETCH_DONE (R324, R333): a spilled entry has been copied into the stash region. -/
def execStashFetchDone (r : DieRead) (s : State) : Out :=
  match (s.die r.die.val).stash.find? fun e => s.stashOn e && s.fetchReady e with
  | none => .next s
  | some e => .next (if r.ue || s.storedUe e then failFetch r.die.val e s else endFetch r.die.val e s)

/-- A get's bytes at their place, tagged at its completion (R273, R328); a get of system scope writes its lines back. -/
def getWrite (j : StashJob) (p : StPlace) (bs : List Byte) (s : State) : State :=
  match p with
  | .sp k off =>
    let s1 := spWrite k off bs s
    writeTags j.core ((rangeFrom (off / 64) (bs.length / 64)).map fun g => TagLoc.granule k g) s1
  | .mem l =>
    let s1 := writeTags j.core ((l.filter (·.1.chk)).flatMap fun q => (linesOf q.2.1 q.2.2).map .line) (writePieces j.ctx l bs s)
    if sdScope j.desc = 4 then (l.flatMap fun q => linesOf q.2.1 q.2.2).foldl (fun s m => writeBack false m s) s1 else s1

/-- STASH_GET_DONE (R327, R328). -/
def execStashGetDone (d : Die) (ue : Bool) (s : State) : Out :=
  match (s.die d.val).jobs.find? fun j => j.moving && j.op == .get && s.jobRuns j with
  | none => .next s
  | some j =>
    match (s.die d.val).entryOf j with
    | none => .next (dropJob d.val j s)
    | some e =>
      withPlace j .write s (failJob d.val j) fun p s =>
        if ue || s.storedUe e then failJob d.val j 0x55 s else finishJob d.val j true (getWrite j p (e.decode (s.storedBytes e)) s)

/-- STASH_RECORD_INSERT (R331): the engine hands its next record to the Gazetteer. -/
def execStashRecordInsert (d : Die) (s : State) : Out :=
  .next (s.modDie d.val fun x => match x.stRecs with
    | [] => x
    | r :: l => { x with stRecs := l, gzAgent := x.gzAgent ++ [r] })

/-! ### Weight versions (R335, R336) -/

/-- Makes a version current (R336). -/
def commitVersion (x : DieSt) (tensor ver : Nat) : DieSt :=
  let w1 := [0, 1, 2, 3].foldl (fun w v => match tabGet? w (4 * tensor + v) with
    | some e => if e.st = 2 then tabSet w (4 * tensor + v) { e with st := 3 } else w
    | none => w) x.wdir
  let ft := match x.newTag with
    | some t => t + 1
    | none => 0
  { x with wdir := tabMod {} w1 (4 * tensor + ver) fun e => { e with st := 2, ftag := ft } }

/-- A `wv.commit` faults (R330). -/
def failWv (i : Nat) (m : StashCmd) (code : Nat) (s : State) : State :=
  freezeStash i m.kctr (BitVec.ofNat 8 code) 0 m.id s

/-- WV_COMMIT_APPLY (R221, R336): the core's `wv.commit` takes effect once its barrier has left PHASE. -/
def execWvCommitApply (c : CoreId) (s : State) : Out :=
  let k := s.core c
  match nextCmd k with
  | none => .next s
  | some m =>
    if m.op ≠ .wvCommit ∨ k.stash.frz = true ∨ k.live = false ∨ recWaits (s.die (coreDie c)) c = true then .next s
    else
      let d := coreDie c
      let tensor := sdBytes m.desc 0 4
      let bo := sdBytes m.desc 4 4
      let ver := m.tag.toNat % 4
      let none_ := bo == 0xFFFFFFFF
      if !none_ && (bo % 16 != 0 || decide (0x60000 < bo + 16)) then .next (failWv c m 0x50 s)
      else if !none_ && (s.barAt c bo).ph == m.desc.extractLsb' 64 4 then .next s
      else
        match tabGet? (s.die d).wdir (4 * tensor + ver) with
        | none => .next (failWv c m 0x59 s)
        | some e =>
          if e.st ≠ 1 ∨ 4096 ≤ tensor then .next (failWv c m (if 4096 ≤ tensor then 0x59 else 0x58) s)
          else
            .next ((s.modDie d fun x => commitVersion x tensor ver).modCore c fun k =>
              { k.decK m.kctr.toNat with stash := { k.stash with q := k.stash.q.filter fun q => q.id != m.id } })

/-! ### The queue's status word (R329) -/

/-- A write of STSTAT. -/
def writeStstat (i : Nat) (v : Word) (s : State) : State :=
  if (s.core i).tm && (s.core i).stash.frz && !v.getLsbD 31 then releaseStash i s else s

/-- STSTAT_WRITE (R329). -/
def execStstatWrite (c : CoreId) (v : Word) (s : State) : Out := .next (writeStstat c v s)

end Sys2Proof.Machine
end

