-- ==== Sys2Proof/Machine/SysWords.lean ====
section
/-! DEFINITION. The system state words (R55 to R58, R75, R118, R121, R191, R204, R206, R231, R261, R301, R303, R306, R322, R329, R342,
R355, R356, R417, R441): their reads and writes, the generator's state and the refresh rotation. -/
namespace Sys2Proof.Machine

/-! ### Reads -/

/-- SSTAT (R306). A kernel reads KIND 3. -/
def sstatWord (s : State) (i : Nat) : Word :=
  match s.teamOf i with
  | none => 0
  | some t =>
    let fly := ((s.stageOf t).map (·.fly)).getD 0
    BitVec.ofNat 64 (bit1 t.rcmp 26 + t.kind.toNat * 2 ^ 24 + t.stage.toNat * 2 ^ 16 + fly.toNat)

/-- CONT (R417). -/
def contWord (c : Ctx) : Word :=
  BitVec.ofNat 64 (c.pol.toNat * 2 ^ 62 + bit1 c.ufull 61 + bit1 c.rbk 60 + bit1 c.abp 59 + bit1 c.adone 58 + c.acnt.toNat * 2 ^ 32)

/-- The island of a core (R5). -/
def coreIsland (i : Nat) : Nat := i % 32 / 2 + 16 * (i / 32 / 2)

/-- Island `n`. -/
def State.island (s : State) (n : Nat) : Island := tabGet {} s.isles n

/-- ISLST (R441): no regulator gives more than the rail's voltage (R439). -/
def islstWord (s : State) (n : Nat) : Word :=
  let x := s.island n
  BitVec.ofNat 64 (bit1 (decide (s.cap < x.req) || x.hot) 40 + min x.volt s.rail * 2 ^ 16 + x.freq)

/-- WRPH (R261). -/
def wrphWord (s : State) : Word :=
  BitVec.ofNat 64 (s.rotation / 125 % 2 ^ 32 * 2 ^ 32 + s.rotation % 125 * 2 ^ 8 + min 255 s.slotNs)

/-- A system state word as the program or the handler of core `i` reads it (R130). The loop words are the program's (R118), and a number that
nothing is assigned to reads as zero. -/
def sysWord (s : State) (i : Nat) (w : Nat) : Word :=
  let c := s.core i
  let x := (s.team i).ctx
  let k := s.ctx x.toNat
  match w with
  | 0 => cstatWord c
  | 1 => c.cause
  | 2 => c.epc
  | 3 => c.faddr
  | 4 => c.ptgt
  | 5 => c.sfall.setWidth 64
  | 6 => coreWord i
  | 7 => c.seed
  | 8 => c.cvsat
  | 9 => c.prog.lp.rem
  | 10 => lbodyWord c.prog.lp
  | 11 => wstatWord c
  | 12 => estatWord c.e0
  | 13 => estatWord c.e1
  | 14 => c.kund.setWidth 64
  | 15 => wrphWord s
  | 43 => c.lclk
  | 44 => s.horizon
  | 45 => wdogWord c
  | 46 => scurWord c
  | 47 => sstatWord s i
  | 48 => gzoccWord (s.die (coreDie i))
  | 49 => ststatWord c.stash
  | 50 => lkstWord s x
  | 51 => c.tvec
  | 52 => c.dcause
  | 53 => contWord k
  | 54 => k.astep
  | 55 => k.cstep
  | 56 => islstWord s (coreIsland i)
  | _ =>
    if 16 ≤ w ∧ w < 24 then cbdefWord (c.cb (w - 16))
    else if 24 ≤ w ∧ w < 32 then cbptrWord (c.cb (w - 24))
    else if h : 32 ≤ w ∧ w < 43 then chstWord s i ⟨w - 32, by omega⟩
    else 0

/-- R130. -/
def execSysrd (w : Fin 64) (s : State) : Out :=
  runSlot 0 {} (fun t => t.upd fun c => c.pushSq 1 (sysWord t t.cur w)) s

/-! ### Writes -/

/-- SEED stores 1 for a written 0 (R55). -/
def seedValue (v : Word) : Word := if v = 0 then 1 else v

/-- A write of a word of the core under the access rules of R55 and of the word's map. The words that only a handler writes come
after the others. -/
def writeCoreWord (w : Nat) (v : Word) (c : Core) : Core :=
  match w with
  | 0 => writeCstat c v
  | 5 => { c with sfall := v.setWidth 32 }
  | 7 => { c with seed := seedValue v }
  | 8 => { c with cvsat := clearBits c.cvsat v }
  | 11 => writeWstat c v
  | 14 => { c with kund := if c.tm then v.setWidth 16 else c.kund &&& v.setWidth 16 }
  | _ =>
    if c.tm = false then c
    else
      match w with
      | 1 => { c with cause := v &&& causeMask }
      | 2 => { c with epc := v }
      | 3 => { c with faddr := v }
      | 4 => { c with ptgt := v }
      | 9 => { c with prog := { c.prog with lp := { c.prog.lp with rem := v } } }
      | 10 => { c with prog := { c.prog with lp := { c.prog.lp with act := v.getLsbD 63, pos := v.extractLsb' 48 4,
                                                                    start := v.extractLsb' 0 48 } } }
      | 45 => { c with wdCount := v.extractLsb' 32 32, wdLimit := v.extractLsb' 0 32,
                       wdDue := v.extractLsb' 0 32 != 0 && v.extractLsb' 32 32 == v.extractLsb' 0 32 }
      | 46 => { c with slen := v.extractLsb' 16 9, spos := v.extractLsb' 0 9 }
      | 51 => { c with tvec := v &&& 0x8000FFFFFFFFFFC0 }
      | 52 => { c with dcause := v &&& causeMask }
      | _ => c

/-- A write of any system state word of core `i` (R130): a read-only word, or a number that nothing is assigned to, ignores it. -/
def writeSys (i w : Nat) (v : Word) (s : State) : State :=
  if w = 12 then writeEstat i .c0 v s
  else if w = 13 then writeEstat i .c1 v s
  else if w = 49 then writeStstat i v s
  else if 16 ≤ w ∧ w < 24 then writeCbdef i (w - 16) v s
  else if 24 ≤ w ∧ w < 32 then writeCbptr i (w - 24) v s
  else s.modCore i (writeCoreWord w v)

/-- Whether later slots of a group could see a write of this word before the next group, in a handler (`tm`) or a program: the generator and the
buffers. A program's write of CBPTR is ignored at once (R206), whatever its group's later slots do. -/
def sysLate (tm : Bool) (w : Nat) : Bool :=
  w == 7 || (decide (16 ≤ w) && decide (w < 24)) || (tm && decide (24 ≤ w) && decide (w < 32))

/-- R130: the write is seen from the next group on. -/
def execSyswr (w : Fin 64) (b : Src) (s : State) : Out :=
  runSlot 0 (gateSrc s b) (fun t =>
    let v := readSrc t b
    let t1 := t.upd fun c => c.drawIf (srcDraws b)
    if sysLate t1.me.tm w then t1.upd fun c => { c with grpSys := c.grpSys ++ [(w.val, v)] } else writeSys t.cur w v t1) s

/-- SEED_WRITE (R55): the write of a core's generator state. -/
def execSeedWrite (c : CoreId) (v : Word) (s : State) : Out := .next (writeSys c 7 v s)

/-! ### Weight-store refresh -/

/-- A bank's refresh slot has ended for an access that waits in it (R262). -/
def Flight.refreshed (f : Flight) (b : Nat) : Flight :=
  if f.banks.contains b then { f with banks := f.banks.filter (· != b) } else f

/-- WEIGHT_REFRESH_SLOT (R260 to R262): the rotation goes on by one slot of 256 ns, and what waited for the bank of the slot that ends
proceeds. -/
def execWeightRefreshSlot (s : State) : Out :=
  .next { s with rotation := s.rotation + 1, slotNs := s.slotNs - 256,
                 cores := s.cores.map fun (i, c) => (i, { c with flights := c.flights.map fun f => f.refreshed (s.rotation % 125) }) }

end Sys2Proof.Machine
end

