-- ==== Sys2Proof/Machine/Power.lean ====
section
/-! DEFINITION. Soft errors found by the patrol scrubber (R415), frequency, power and thermal protection (R439 to R443), module reset
and bring-up (R444), and the Survey log (R445, R446). -/
namespace Sys2Proof.Machine

/-! ### The patrol scrubber (R415) -/

/-- The row of R415's table that a target's array has. -/
def scrubRow : ScrubTarget → Nat
  | .scratchpad _ _ => 0
  | .operandSlot _ _ => 1
  | .tile _ _ => 2
  | .registers _ => 3
  | .icache _ => 4
  | .l2 _ => 5
  | .weightStore _ _ => 6
  | .global _ => 7
  | .gazetteer _ _ => 8

/-- The scrubber's record of uncorrectable data (R415): FATAL is clear. -/
def scrubRec (a : Nat) : FaultRec :=
  { seq := 0, src := 10, ctx := 0xFF, unit := Config.unitNo 10, cause := Config.unitCode 10, addr := BitVec.ofNat 64 a }

/-- Whether the scrubber of die `d` reads a target (R415): the weight store, HBM4E and LPDDR-6, at its rate. -/
def scrubReads (d : Nat) (s : State) : ScrubTarget → Bool
  | .global a => (s.die d).scrub != 0 && !paHole a.toNat && !paAperture a.toNat
  | .weightStore e _ => (s.die d).scrub != 0 && e.val == d
  | _ => false

/-- A place gets an uncorrectable error, which its next consumer meets (R415, R416). A scratchpad's, an operand slot's, a tile's and an instruction
cache's come with the events that read them. -/
def markUe (t : ScrubTarget) (s : State) : State :=
  match t with
  | .global a => { s with ueLines := s.ueLines ++ [lineOf a.toNat] }
  | .weightStore d o => s.modDie d fun x => { x with ueWs := x.ueWs ++ [o.toNat / 32] }
  | .registers c => s.modCore c fun k => { k with regUe := true }
  | .l2 l => s.modLine l.toNat fun y => { y with ue := true }
  | .gazetteer d n => s.modDie d fun x => { x with ueGz := x.ueGz ++ [n] }
  | _ => s

/-- The address of what the scrubber reads. -/
def scrubAddr : ScrubTarget → Nat
  | .global a => a.toNat
  | .weightStore _ o => o.toNat
  | _ => 0

/-- Whether a target is a place of its array: one of HBM4E or LPDDR-6, or of the die's weight store. -/
def scrubThere (d : Nat) : ScrubTarget → Bool
  | .global a => !paHole a.toNat && !paAperture a.toNat
  | .weightStore e _ => e.val == d
  | _ => true

/-- PATROL_SCRUB (R415): an error of any array. A corrected one is counted in the Survey log, whether the scrubber or an ordinary read has met it; the
scrubber logs what it finds uncorrectable and leaves it, and errors of the other arrays are found where they are read. -/
def execPatrolScrub (d : Die) (t : ScrubTarget) (r : ScrubResult) (s : State) : Out :=
  if scrubThere d t = false then .next s
  else
    match r with
    | .clean => .next s
    | .corrected => .next (s.modCnt fun c => { c with corr := satAdd (2 ^ 64 - 1) 1 c.corr (scrubRow t) })
    | .uncorrectable => .next (if scrubReads d s t then logFault d (scrubRec (scrubAddr t)) (markUe t s) else markUe t s)

/-! ### Islands (R439 to R443) -/

/-- The effective frequency of an island (R440, R443). -/
def Island.eff (cap : Nat) (x : Island) : Nat := if x.hot then 600 else min x.req cap

/-- A change begins: meanwhile the island runs at the lower of its old and new frequencies (R440). -/
def Island.retarget (cap : Nat) (x : Island) : Island :=
  { x with freq := min x.freq (x.eff cap), busy := x.busy || x.freq != x.eff cap }

/-- The Survey's bin of a frequency (R445). -/
def freqBin (mhz : Nat) : Nat := min 26 ((mhz - 600) / 100)

/-- Bins of the frequencies at which an island runs now: an island that no change has touched runs at 0.6 GHz, and none without the rail. -/
def State.binsNow (s : State) : List Nat :=
  if s.rail = 0 then [] else s.isles.map (fun p => freqBin p.2.freq) ++ if s.isles.length < 128 then [0] else []

/-- The voltage of the core rail (R439): 0.40 V, and while an island runs above 3.0 GHz up to 0.44 V; 0 while its power is removed. DESIGN CHOICE (log
entry 45): by how much it rises is a constant without a body. -/
def railOf (s : State) (isles : Tab Island) : Nat :=
  if s.rail = 0 then 0 else 400 + if isles.any (fun p => decide (3000 < p.2.freq)) then Config.railRise % 41 else 0

/-- The islands run as given: the rail follows, and the bins of their frequencies count (R439, R445). -/
def State.setIsles (s : State) (isles : Tab Island) : State :=
  { s with isles := isles, rail := railOf s isles, survey := { s.survey with ran := (s.survey.ran ++ s.binsNow).eraseDups } }

/-- Changes island `i` and lets its effective frequency follow. -/
def State.modIsland (s : State) (i : Nat) (f : Island → Island) : State :=
  s.setIsles (tabMod {} s.isles i fun x => (f x).retarget s.cap)

/-- Lets every island follow the cap. -/
def retargetAll (s : State) : State := (rangeFrom 0 128).foldl (fun s i => s.modIsland i id) s

/-- The voltage of an island at a frequency: between 0.30 V and a rail's (R439). -/
def islandVoltage (rail i f : Nat) : Nat := 300 + Config.islandVolt i f % (rail - 299)

/-- ISLAND_FREQ_CHANGE_DONE (R440): the island runs at its effective frequency, at a voltage up to the rail's as it then is (R439). -/
def execIslandFreqChangeDone (i : Fin 128) (s : State) : Out :=
  let x := s.island i
  let y : Island := { x with busy := false, freq := x.eff s.cap }
  if x.busy then .next (s.setIsles (tabSet s.isles i { y with volt := islandVoltage (railOf s (tabSet s.isles i y)) i y.freq })) else .next s

/-- The cap after a period of the power manager (R442). -/
def nextCap (plim cap watts : Nat) : Nat :=
  if plim < watts then max 600 (cap - 50)
  else if watts * 100 < plim * 98 then min 3200 (cap + 50)
  else cap

/-- POWER_MANAGER_PERIOD (R442). -/
def execPowerManagerPeriod (watts : Nat) (s : State) : Out :=
  .next (retargetAll { s with cap := nextCap s.plim s.cap watts })

/-- DROOP_STRETCH (R443, R445): counted by its depth in bins of 5 mV, the last of which takes every deeper one. -/
def execDroopStretch (_i : Fin 128) (depthMv : Nat) (s : State) : Out :=
  .next (s.modCnt fun c => { c with droop := satAdd (2 ^ 64 - 1) 1 c.droop (min 15 (depthMv / 5)) })

/-- THERMAL_CAP (R443). -/
def execThermalCap (i : Fin 128) (s : State) : Out := .next (s.modIsland i fun x => { x with hot := true })

/-- ISLAND_COOLS (R443). -/
def execIslandCools (i : Fin 128) (s : State) : Out := .next (s.modIsland i fun x => { x with hot := false })

/-! ### The Survey log (R445) -/

/-- Free growth of the counters from `lo` to `lo + n - 1`. -/
def growTab (base lo n : Nat) (t : Tab Nat) : Tab Nat :=
  (rangeFrom lo n).foldl (fun t k => satAdd (2 ^ 64 - 1) ((Config.freeWord (base + k)).toNat % 2 ^ 32) t k) t

/-- The counters of elapsed time and of refresh margin have grown by amounts that depend on time; an island's seconds count at the frequencies at which an
island has run. -/
def elapse (s : State) : State :=
  let n := s.fresh
  let bins := s.survey.ran ++ s.binsNow
  { s with fresh := n + 128, survey := { s.survey with ran := [] } }.modCnt fun c =>
    { c with poh := min (2 ^ 64 - 1) (c.poh + (Config.freeWord (n + 96)).toNat % 2 ^ 32)
             hrs := (rangeFrom 0 27).foldl (fun t k => if bins.contains k then satAdd (2 ^ 64 - 1) ((Config.freeWord (n + k)).toNat % 2 ^ 32) t k else t) c.hrs
             temp := growTab (n + 32) 0 26 c.temp, rmarg := growTab (n + 64) 0 4 c.rmarg }

/-- A signature with the device identity key, by the number of its salt (R423, R424). -/
def signId (n : Nat) (m : List Byte) : BitVec 4096 :=
  pssSign (beNat (natBytes 512 Config.idKey.toNat)) Config.idPriv (natBytes 64 (Config.salt n).toNat) m

/-- Whether a signature checks under a public key (R424). -/
def sigOk (key : BitVec 4096) (m : List Byte) (sig : BitVec 4096) : Bool := pssVerify key Config.rsaExp m sig

/-- `n` counters of `k` bytes each. -/
def cntBytes (k n : Nat) (t : Tab Nat) : List Byte := (rangeFrom 0 n).flatMap fun i => natBytes k (tabGet 0 t i)

/-- Zero bytes up to a length. -/
def padTo (n : Nat) (l : List Byte) : List Byte := l ++ List.replicate (n - l.length) 0

/-- The signed bytes of a Survey record. -/
def surveyBody (seq kind : Nat) (c : Counters) (prev : BitVec 512) : List Byte :=
  let a := padTo 0x100 ([0x53, 0x56, 0x59, 0x31] ++ natBytes 4 seq ++ natBytes 8 kind ++ natBytes 8 c.poh ++ natBytes 64 prev.toNat)
  let b := padTo 0x200 (a ++ cntBytes 8 10 c.corr)
  let d := padTo 0x300 (b ++ cntBytes 8 27 c.hrs)
  let e := padTo 0x400 (d ++ cntBytes 8 26 c.temp)
  let f := padTo 0x500 (e ++ cntBytes 8 16 c.droop)
  let g := padTo 0x540 (f ++ cntBytes 4 14 c.link)
  let h := padTo 0x600 (g ++ cntBytes 4 2 c.auth)
  padTo 0xE00 (h ++ cntBytes 8 4 c.rmarg)

/-- The 4,096 bytes of a record. -/
def SurveyRec.bytes (r : SurveyRec) : List Byte := surveyBody r.seq r.kind r.cnt r.prev ++ natBytes 512 r.sig.toNat

/-- Whether the flash holds as many records as fit in 256 MiB. -/
def Survey.full (v : Survey) : Bool := decide (65536 ≤ v.recs.length)

/-- A record of the present counters with a number and the digest of the record before it, signed. -/
def makeRec (kind : Nat) (s : State) : SurveyRec × State :=
  let s1 := elapse s
  let (n, s2) := s1.take
  let v := s2.survey
  let prev := match v.recs.getLast? with
    | some r => sha512 r.bytes
    | none => 0
  ({ seq := v.seq, kind := kind, cnt := v.cnt, prev := prev, sig := signId n (surveyBody v.seq kind v.cnt prev) }, s2)

/-- Appends a record, unless the flash is full. -/
def surveyAppend (kind : Nat) (s : State) : State :=
  let (r, s1) := makeRec kind s
  if s1.survey.full then s1
  else { s1 with survey := { s1.survey with recs := s1.survey.recs ++ [r], seq := s1.survey.seq + 1 } }

/-- SURVEY_HOURLY (R445). -/
def execSurveyHourly (s : State) : Out := .next (surveyAppend 1 s)

/-- SURVEY_SHUTDOWN (R445). -/
def execSurveyShutdown (s : State) : Out := .next (surveyAppend 2 s)

/-! ### Thermal trip, power failure, module reset and bring-up -/

/-- THERMAL_TRIP (R443): the rail is removed, every resident context is lost as by a fatal fault, and the module is not ready until a module reset. -/
def execThermalTrip (s : State) : Out :=
  if s.tripped then .next s
  else
    let s1 := surveyAppend 3 { s with tripped := true }
    let r : FaultRec := { seq := 0, src := (Config.unitNo 12).setWidth 8, ctx := 0, unit := Config.unitNo 13, cause := Config.unitCode 12 }
    let s2 := ((s1.ctxs.filter fun p => p.2.live).map (·.1)).foldl (fun s x => contain x 0 { r with ctx := BitVec.ofNat 8 x } s) s1
    .next { s2 with ready := false, rail := 0 }

/-- Module reset (R444): everything returns to its reset value or to an unspecified one, and bring-up starts at step 1. The Survey log stays, as do the
host's memory and the interrupts that the host has seen; no memory key is drawn twice (R433). -/
def moduleReset (s : State) : State :=
  { State.reset with survey := { s.survey with ran := s.survey.ran ++ s.binsNow }, hostMem := s.hostMem, msis := s.msis, era := s.fresh, fresh := s.fresh + 65536
                     cart := { State.reset.cart with keyNext := s.cart.keyNext, sessNext := s.cart.sessNext } }

/-- Whether a firmware image verifies under one of the vendor keys (R425). -/
def firmwareOk (n : Nat) : Bool := [0, 1].any fun k => sigOk (Config.vendorKey k) (Config.fwImage n) (Config.fwSig n)

/-- Whether step `n` of bring-up fails because a signature does not check: step 2 verifies the Cartouche's firmware, step 3 the management and link
firmware (R425). -/
def bootRefused (n : Nat) : Bool := (n == 2 && !firmwareOk 1) || (n == 3 && !(firmwareOk 2 && firmwareOk 3))

/-- Sets a measurement register to the digest of a firmware image (R428). -/
def measureFw (k : Nat) (s : State) : State := { s with cart := { s.cart with meas := tabSet s.cart.meas k (sha512 (Config.fwImage k)) } }

/-- A step of bring-up fails: it is reported, and the later ones stay undone (R444). -/
def bootFail (n : Nat) (cause : BitVec 32) (s : State) : State :=
  { s with mc := { s.mc with boot := none, failed := some { step := n, cause := cause } } }

/-- What a step of bring-up does (R444): steps 1, 4, 6 and 7 leave nothing behind but their place in the order. -/
def bootEffect (n : Nat) (s : State) : State :=
  match n with
  | 2 => measureFw 1 s
  | 3 => measureFw 3 (measureFw 2 s)
  | 5 => { s with rail := 400 }
  | 8 => surveyAppend 0 s
  | 9 => { s with ready := true }
  | _ => s

/-- The step of bring-up that comes next is done; a module reset that was a command completes after the last (R444, R449). -/
def bootStep (n : Nat) (s : State) : State :=
  if bootRefused n then bootFail n (Config.bootCause n) s
  else
    let t := bootEffect n s
    let u : State := { t with mc := { t.mc with boot := if n < 9 then some (n + 1) else none } }
    if 9 ≤ n ∧ u.mc.wait = some .reset then mcComplete 0 0 u else u

/-- POWER_ON (R444): a module reset, and then the steps of bring-up one by one. -/
def execPowerOn (b : BootEvent) (s : State) : Out :=
  match b, s.mc.boot with
  | .start, _ => .next (moduleReset s)
  | .done, some n => .next (bootStep n s)
  | .fails c, some n => .next (bootFail n c s)
  | _, none => .next s

/-- POWER_FAIL (R445): power is lost; a record that is being written is left absent. The module is as after a reset, and no bring-up starts. -/
def execPowerFail (s : State) : Out :=
  let t := moduleReset s
  .next { t with mc := { t.mc with boot := none } }

/-- Whether the PCIe link and with it the DOE mailbox work: bring-up has passed step 7 (R444). -/
def State.pcieUp (s : State) : Bool :=
  s.ready || s.tripped || (match s.mc.boot with
    | some n => decide (8 ≤ n)
    | none => false) || match s.mc.failed with
    | some f => decide (8 ≤ f.step)
    | none => false

end Sys2Proof.Machine
end

