-- ==== Sys2Proof/Machine/Cart.lean ====
section
/-! DEFINITION. The Cartouche (R423 to R438): DOE and SPDM, sessions, the job's keys and references, measurements, switches and the trust
table. Responses are kept in order, as the host receives them. -/
namespace Sys2Proof.Machine

/-! ### Responses -/

/-- Changes the Cartouche. -/
def State.modCart (s : State) (f : Cart → Cart) : State := { s with cart := f s.cart }

/-- A response over DOE. -/
def respond (r : DoeResp) (s : State) : State := s.modCart fun c => { c with doe := c.doe ++ [r] }

/-- A request is answered while the mailbox is open. -/
def doe (f : State → State) (s : State) : Out := if s.pcieUp then .next (f s) else .next s

/-- A request that is refused. -/
def refuseDoe : State → State := respond (.error "Refused")

/-! ### Keys of sessions (R429 to R431) -/

/-- The secret of a direction after so many updates (R432), by its label. -/
def appSecret (label : String) (n : Nat) : Nat → List Byte
  | 0 => spdmExpand (sessMaster n) label (sessCtx n) 64
  | k + 1 => spdmExpand (appSecret label n k) "traffic upd" [] 64

/-- The codes of SPDM's responses and errors. PRESUMED (log entry 74). -/
def rspCode (t : String) : Nat :=
  if t = "HEARTBEAT" then 0x68 else if t = "KEY_UPDATE" then 0x69 else if t = "END_SESSION" then 0x6C else if t = "FINISH" then 0x65 else 0x7E
/-- See `rspCode`. -/
def errCode (t : String) : Nat :=
  if t = "Busy" then 3 else if t = "InvalidRequest" then 1 else if t = "UnsupportedRequest" then 7 else if t = "LargeResponse" then 15 else 5

/-- A response as a message of SPDM 1.3. PRESUMED (log entry 74): a vendor-defined response holds the name of its request. -/
def DoeResp.message : DoeResp → List Byte
  | .error k => [0x13, 0x7F, BitVec.ofNat 8 (errCode k), 0]
  | .ack t => [0x13, BitVec.ofNat 8 (rspCode t), 0, 0] ++ if rspCode t = 0x7E then strBytes t else []
  | .bytes t l => [0x13, BitVec.ofNat 8 (rspCode t), 0, 0] ++ l
  | .secured _ l => l

/-- A message of a session as the host sees it: AES-256-GCM ciphertext and tag (R430), by the label of its direction and its number there. PRESUMED (log
entry 74): the nonce is the direction's IV with the message's number added without carry, and the session's number is authenticated. -/
def secure (label : String) (x : Sess) (n : Nat) (m : List Byte) : List Byte :=
  let sec := appSecret label x.id x.keyNo
  gcmSeal (spdmExpand sec "key" [] 32) (xorBytes (spdmExpand sec "iv" [] 12) (natBytes 12 n)) (natBytes 4 x.id) m

/-- Changes a session. -/
def modSess (n : Nat) (f : Sess → Sess) (s : State) : State :=
  s.modCart fun c => { c with sessions := c.sessions.map fun x => if x.id = n then f x else x }

/-- A response in a session: secured, and counted. -/
def respondIn (x : Sess) (r : DoeResp) (s : State) : State :=
  modSess x.id (fun y => { y with seq := y.seq + 1 }) (respond (.secured x.id (secure "rsp app data" x x.seq r.message)) s)

/-! ### The Cartouche's own requests (R429) -/

/-- Whether the Cartouche is the requester of a session: of one with a neighbour or a switch. DESIGN CHOICE (log entry 83). -/
def Sess.asks (x : Sess) : Bool := x.role == .neighbour || x.role == .switch

/-- A request of the Cartouche in a session: secured, and counted. -/
def ask (x : Sess) (code : Nat) (body : List Byte) (s : State) : State :=
  let m := secure "req app data" x x.rseq ([0x13, BitVec.ofNat 8 code, 0, 0] ++ body)
  modSess x.id (fun y => { y with rseq := y.rseq + 1 }) (s.modCart fun c =>
    { c with asked := c.asked ++ [{ role := x.role, peer := x.peer, sess := some x.id, code := code, data := m }] })

/-- The requests with which the Cartouche starts a session (R429): GET_VERSION, GET_CAPABILITIES, NEGOTIATE_ALGORITHMS, GET_DIGESTS, GET_CERTIFICATE and
KEY_EXCHANGE. -/
def askOpening (role : PeerRole) (peer : Nat) (s : State) : State :=
  s.modCart fun c => { c with asked := c.asked ++ [0x84, 0xE1, 0xE3, 0x81, 0x82, 0xE4].map fun (k : Nat) =>
    { role := role, peer := peer, sess := none, code := k, data := [0x13, BitVec.ofNat 8 k, 0, 0] } }

/-- A message of a session with its acknowledgement: a request of the Cartouche's own, or a peer's, which it answers. -/
def inTurn (x : Sess) (code : Nat) (name : String) (s : State) : State := if x.asks then ask x code [] s else respondIn x (.ack name) s

/-- The job key goes to a switch inside its session (R435). -/
def deliverKey (key : Option (BitVec 256)) (s : State) (x : Sess) : State :=
  match key with
  | some k => if x.open_ && x.role == .switch then ask x 0xFE (strBytes "SET_JOB_KEY" ++ natBytes 32 k.toNat) s else s
  | none => s

/-! ### Measurements (R428) -/

/-- The job image keys in slot order, absent slots as 64 zero bytes. -/
def imageKeyBytes (c : Cart) : List Byte :=
  (rangeFrom 0 4).flatMap fun k => match tabGet? c.imgKeys k with
    | some x => natBytes 512 x.toNat
    | none => natBytes 64 0

/-- Whether an index has a measurement register. -/
def measIndex (i : Nat) : Bool := (decide (1 ≤ i) && decide (i ≤ 4)) || (decide (0x10 ≤ i) && decide (i ≤ 0x17))

/-- A measurement register. -/
def measReg (c : Cart) (i : Nat) : BitVec 512 := if i = 4 then sha512 (imageKeyBytes c) else tabGet 0 c.meas i

/-- The kind of what a register measures: firmware, or configuration. PRESUMED (log entry 75). -/
def measKind (i : Nat) : Nat := if i = 4 then 3 else 1

/-- A measurement block of SPDM in DMTF form with a digest (R428): the index, the form, the size, and the kind, size and value of the measurement. -/
def measBlock (c : Cart) (i : Nat) : List Byte :=
  natBytes 1 i ++ [1] ++ natBytes 2 67 ++ natBytes 1 (measKind i) ++ natBytes 2 64 ++ natBytes 64 (measReg c i).toNat

/-! ### Identity (R423, R424) -/

/-- A certificate: its signed part, with the issuer's signature. -/
def certOf (pos : Nat) (key : BitVec 4096) (issuer : Nat) : List Byte :=
  let body := Config.certBody pos key Config.serial
  Config.certDer body (pssSign (beNat (natBytes 512 (Config.caKey issuer).toNat)) (Config.caPriv issuer) (natBytes 64 (Config.certSalt pos).toNat) body)

/-- The chain of slot 0 (R423): the root, signed by itself; the product intermediate, signed by the root; and the device certificate of the identity
key, signed by the intermediate. -/
def certChain : List Byte := certOf 0 (Config.caKey 0) 0 ++ certOf 1 (Config.caKey 1) 0 ++ certOf 2 Config.idKey 1

/-! ### Requests outside a session (R423, R429) -/

/-- GET_VERSION: version 1.3 only. -/
def execGetVersion (s : State) : Out := doe (respond (.bytes "GET_VERSION" [0x13])) s

/-- GET_CAPABILITIES. -/
def execGetCapabilities (s : State) : Out := doe (respond (.ack "GET_CAPABILITIES")) s

/-- NEGOTIATE_ALGORITHMS: what a peer offers for signatures, hash, key exchange, AEAD and key schedule; without one of them it opens no session. -/
def execNegotiateAlgorithms (peer : Nat) (rsa sha : Bool) (offer : SessOffer) (s : State) : Out :=
  doe (fun s =>
    let ok := rsa && sha && offer.dhe && offer.aead && offer.sched
    respond (if ok then .ack "NEGOTIATE_ALGORITHMS" else .error "Refused") (s.modCart fun c =>
      { c with negFailed := c.negFailed.filter (· != peer) ++ if ok then [] else [peer] })) s

/-- GET_DIGESTS. -/
def execGetDigests (s : State) : Out :=
  doe (respond (.bytes "GET_DIGESTS" (natBytes 64 (sha512 certChain).toNat))) s

/-- A response that may be too large to pass at once: its first chunk waits for CHUNK_GET (R429). -/
def respondLarge (request : String) (l : List Byte) (s : State) : State :=
  if l.length ≤ Config.doeSize + 1 then respond (.bytes request l) s
  else respond (.error "LargeResponse") (s.modCart fun c => { c with large := some l })

/-- GET_CERTIFICATE (R423). -/
def execGetCertificate (slot : Fin 8) (s : State) : Out :=
  doe (if slot.val = 0 then respondLarge "GET_CERTIFICATE" certChain else respond (.error "InvalidRequest")) s

/-- A signed response. -/
def respondSigned (request : String) (l : List Byte) (s : State) : State :=
  let (n, s1) := s.take
  respond (.bytes request (l ++ natBytes 512 (signId n l).toNat)) s1

/-- CHALLENGE (R429): signed with the identity key. -/
def execChallenge (nonce : BitVec 256) (s : State) : Out :=
  doe (respondSigned "CHALLENGE" (natBytes 64 (sha512 certChain).toNat ++ natBytes 32 nonce.toNat)) s

/-- GET_MEASUREMENTS (R428). -/
def execGetMeasurements (idx : BitVec 8) (signed : Bool) (s : State) : Out :=
  doe (fun s =>
    if measIndex idx.toNat then
      let l := measBlock s.cart idx.toNat
      if signed then respondSigned "GET_MEASUREMENTS" l s else respond (.bytes "GET_MEASUREMENTS" l) s
    else respond (.error "InvalidRequest") s) s

/-- The next chunk of a large response (R429). -/
def getChunk (s : State) : State :=
  match s.cart.large with
  | none => respond (.error "InvalidRequest") s
  | some l =>
    let n := Config.doeSize + 1
    respond (.bytes "CHUNK_GET" (l.take n)) (s.modCart fun c => { c with large := if l.length ≤ n then none else some (l.drop n) })

/-- Any other request (R429). PRESUMED (log entry 74): 0x86 is CHUNK_GET, which has no row of its own. -/
def execSpdmUnsupportedRequest (code : BitVec 8) (s : State) : Out :=
  doe (if code = 0x86 then getChunk else respond (.error "UnsupportedRequest")) s

/-! ### Sessions (R429 to R431) -/

/-- A session by its number. -/
def Cart.sess (c : Cart) (n : Nat) : Option Sess := c.sessions.find? fun x => x.id == n

/-- Opens the exchange of a session. Where the peer asks for it, the answer is signed with the identity key. -/
def openSession (peer : Nat) (role : PeerRole) (chain : List Byte) (s : State) : State :=
  let x : Sess := { id := s.cart.sessNext, role := role, peer := peer, chain := chain }
  let s1 := s.modCart fun c =>
    { c with sessions := c.sessions ++ [x]
             sessNext := x.id + 1
             job := if role = .verifier ∧ c.job = none then some peer else c.job
             jobSess := if role = .verifier ∧ c.job = none then x.id else c.jobSess }
  if x.asks then askOpening role peer s1 else respondSigned "KEY_EXCHANGE" (natBytes 8 x.id) s1

/-- KEY_EXCHANGE (R429 to R431): Busy beyond 64 sessions; refused without mutual authentication, for a second verifier, to a peer whose negotiation
failed, and to a neighbour or switch whose certificate chain leads to no trust anchor. -/
def execKeyExchange (peer : Nat) (role : PeerRole) (auth : Option (List Byte)) (s : State) : Out :=
  doe (fun s =>
    let c := s.cart
    let other := match c.job with
      | some v => role == .verifier && v != peer
      | none => false
    let unanchored := (role == .neighbour || role == .switch) && !(c.anchors.any fun a => chains a (auth.getD []))
    if 64 ≤ c.sessions.length then respond (.error "Busy") s
    else if auth.isNone || other || unanchored || c.negFailed.contains peer then refuseDoe s
    else openSession peer role (auth.getD []) s) s

/-- A request in session. -/
def inSession (n : Nat) (f : Sess → State → State) (s : State) : Out :=
  doe (fun s => match s.cart.sess n with
    | some x => if x.open_ then f x s else refuseDoe s
    | none => refuseDoe s) s

/-- What a peer signs of an exchange (R424, R429): the digest of the transcript, behind a prefix of 64 bytes and a context of 36. PRESUMED (log entry 74). -/
def finishText (x : Sess) : List Byte :=
  let ctx := strBytes (if x.asks then "responder-key_exchange_rsp signing" else "requester-finish signing")
  (rangeFrom 0 4).flatMap (fun _ => strBytes "dmtf-spdm-v1.3.*") ++ List.replicate (36 - ctx.length) 0 ++ ctx ++ sessCtx x.id

/-- Whether a peer is the one that its certificate names (R424, R429): its signature checks under its chain's last key, and so does the exchange's MAC. -/
def finishOk (x : Sess) (m : FinishMsg) : Bool :=
  (match leafKey x.chain with
    | some k => pssVerify k.1 k.2 (finishText x) m.sig
    | none => false)
    && natBytes 64 m.mac.toNat == hmac512 (natBytes 64 (Config.finishKey x.id).toNat) (sessCtx x.id)

/-- A session opens: a switch or neighbour is asked for its measurements, and a switch gets the job key (R429, R435). -/
def finishSession (x : Sess) (m : FinishMsg) (s : State) : State :=
  let y : Sess := { x with open_ := true, meas := m.meas }
  let s1 := modSess x.id (fun _ => y) s
  if x.asks then deliverKey s.cart.jobKey (ask y 0xE0 [] (ask y 0xE5 [] s1)) { y with rseq := y.rseq + 2 } else respond (.ack "FINISH") s1

/-- An exchange fails: no session opens, and a verifier whose exchange it was has bound nothing (R429, R430). -/
def dropSession (x : Sess) (s : State) : State :=
  refuseDoe (s.modCart fun c =>
    { c with sessions := c.sessions.filter fun y => y.id != x.id
             job := if x.role = .verifier ∧ c.jobSess = x.id then none else c.job })

/-- FINISH (R429): mutual authentication is required. -/
def execFinish (m : FinishMsg) (s : State) : Out :=
  doe (fun s => match s.cart.sess m.sess with
    | some x => if x.open_ then refuseDoe s else if finishOk x m then finishSession x m s else dropSession x s
    | none => refuseDoe s) s

/-- HEARTBEAT (R429). -/
def execHeartbeat (sess : Nat) (s : State) : Out := inSession sess (fun x => inTurn x 0xE8 "HEARTBEAT") s

/-- KEY_UPDATE (R429, R432): acknowledged under the old key. -/
def execKeyUpdate (sess : Nat) (s : State) : Out :=
  inSession sess (fun x s => modSess sess (fun x => { x with keyNo := x.keyNo + 1 }) (inTurn x 0xE9 "KEY_UPDATE" s)) s

/-! ### The trust table (R435 to R438) -/

/-- Whether a switch is admitted. -/
def Cart.admitted (c : Cart) (serial : Word) : Bool := c.switches.any fun x => x.serial == serial && x.admitted

/-- Writes the trust word of path `p` with its evaluation: one write, which adds 1 to EPOCH (R437). -/
def Cart.writePath (c : Cart) (p : Nat) : Cart :=
  match tabGet? c.paths p with
  | none => c
  | some d =>
    { c with paths := tabSet c.paths p { d with att := d.eval && d.switches.all c.admitted }, epoch := c.epoch + 1 }

/-- The first of the writes that are to be made. -/
def Cart.writeNext (c : Cart) : Cart :=
  match c.toWrite with
  | [] => c
  | p :: l => ({ c with toWrite := l } : Cart).writePath p

/-- What one event changes (R437): every path that holds one of its switches is written, in ascending index, one write each, the first of them now. -/
def Cart.writePaths (c : Cart) (serials : List Word) : Cart :=
  ({ c with toWrite := c.toWrite ++ (c.paths.filter fun p => p.2.switches.any serials.contains).map (·.1) } : Cart).writeNext

/-- Whether the Cartouche has a session with a switch. -/
def Cart.hasSwitch (c : Cart) (serial : Word) : Bool :=
  c.sessions.any fun x => x.role == .switch && x.open_ && x.peer == serial.toNat

/-- Whether every index with a reference is measured as that reference says (R435). -/
def Cart.refsMet (c : Cart) (meas : List (Nat × BitVec 512)) : Bool := c.refs.all fun r => meas.any fun m => m.1 == r.1 && m.2 == r.2

/-- A switch meets every condition of R435, and no earlier withdrawal of it still waits for the end of its session (R436). -/
def Cart.admits (c : Cart) (serial : Word) (root : List Byte) (meas : List (Nat × BitVec 512)) (ack : Bool) : Bool :=
  c.hasSwitch serial && c.anchors.any (fun a => chains a root) && c.refsMet meas && ack && c.jobKey.isSome
    && !c.switches.any (fun x => x.serial == serial)

/-- Admits a switch. -/
def Cart.accept (c : Cart) (serial : Word) (meas : List (Nat × BitVec 512)) : Cart :=
  ({ c with switches := c.switches ++ [{ serial := serial, admitted := true, meas := meas, key := c.jobKey }] } : Cart).writePaths [serial]

/-- Whether an admitted switch still meets the conditions that can change (R435). -/
def Cart.stillMeets (c : Cart) (w : Switch) : Bool := c.hasSwitch w.serial && c.refsMet w.meas && w.key.isSome && w.key == c.jobKey

/-- Switches that no longer meet a condition of R435 are not admitted, and their paths are written. DEDUCED (log entry 84). -/
def Cart.reassess (c : Cart) : Cart :=
  let gone := c.switches.filter fun w => w.admitted && !c.stillMeets w
  if gone.isEmpty then c
  else ({ c with switches := c.switches.filter fun w => !(w.admitted && !c.stillMeets w) } : Cart).writePaths (gone.map (·.serial))

/-- SWITCH_ADMIT (R435): its certificate chain, its measurements and its acknowledgement of the job key. -/
def execSwitchAdmit (serial : Word) (root : List Byte) (meas : List (Nat × BitVec 512)) (ack : Bool) (s : State) : Out :=
  if s.cart.admits serial root meas ack then .next (s.modCart fun c => c.accept serial meas) else .next s

/-- PATH_FIRST_EVALUATION (R438). -/
def execPathFirstEvaluation (p : Fin 1024) (s : State) : Out :=
  match tabGet? s.cart.paths p with
  | none => .next s
  | some d =>
    if d.eval then .next s
    else .next (s.modCart fun c =>
      let c1 : Cart := { c with paths := tabSet c.paths p { d with eval := true } }
      c1.writePath p)

/-- Withdraws switches (R436), as one event: their entries stay until their sessions are closed. -/
def Cart.withdraw (c : Cart) (serials : List Word) : Cart :=
  let l := (c.switches.filter fun x => x.admitted && serials.contains x.serial).map (·.serial)
  if l.isEmpty then c
  else ({ c with switches := c.switches.map fun x => if l.contains x.serial then { x with admitted := false } else x } : Cart).writePaths l

/-- Whether a cause withdraws a switch (R436): three heartbeat periods, a measurement that differs from its reference, or a wish. -/
def withdraws (c : Cart) : WithdrawCause → Bool
  | .heartbeats n => decide (3 ≤ n)
  | .measured i d => match tabGet? c.refs i.toNat with
    | some r => r != d
    | none => false
  | .asked => true

/-- SWITCH_WITHDRAW (R436). -/
def execSwitchWithdraw (w : Withdrawal) (s : State) : Out :=
  if withdraws s.cart w.cause then .next (s.modCart fun c => c.withdraw [w.serial]) else .next s

/-- Whether an in-network chunk that goes through a switch has started and not ended (R436). -/
def chunkInSwitch (s : State) (serial : Word) : Bool :=
  s.ctxs.any fun p => p.2.colls.any fun k => !k.ended && k.chunks.any fun q => q.2.sent && !q.2.written && q.2.via.contains serial

/-- Whether the trust word of a path that holds a switch is still to be written (R436). -/
def Cart.mustWrite (c : Cart) (serial : Word) : Bool := c.toWrite.any fun n => match tabGet? c.paths n with
  | some d => d.switches.contains serial
  | none => false

/-- The sessions with a switch. -/
def Sess.withSwitch (serial : Word) (x : Sess) : Bool := x.role == .switch && x.peer == serial.toNat

/-- Ends the sessions with a switch: END_SESSION is sent in each. -/
def closeSwitch (serial : Word) (s : State) : State :=
  ((s.cart.sessions.filter (·.withSwitch serial)).foldl (fun s x => ask x 0xEC [] s) s).modCart fun c =>
    { c with switches := c.switches.filter fun x => x.serial != serial
             sessions := c.sessions.filter fun x => !x.withSwitch serial }

/-- SWITCH_SESSION_CLOSE (R436): once the words are written and no in-network chunk that started before is left. -/
def execSwitchSessionClose (serial : Word) (s : State) : Out :=
  if (s.cart.switches.any fun x => x.serial == serial && !x.admitted) && !s.cart.mustWrite serial && !chunkInSwitch s serial then
    .next (closeSwitch serial s)
  else .next s

/-- END_SESSION (R429). The end of the last session with an admitted switch withdraws it, and it comes once no chunk is left in the switch (R435, R436). -/
def execEndSession (sess : Nat) (s : State) : Out :=
  inSession sess (fun x s =>
    let others : Cart := { s.cart with sessions := s.cart.sessions.filter fun y => y.id != sess }
    let serial := BitVec.ofNat 64 x.peer
    if x.role = .switch && !others.hasSwitch serial && s.cart.switches.any (fun w => w.serial == serial) then s.modCart fun c => c.withdraw [serial]
    else (inTurn x 0xEC "END_SESSION" s).modCart fun c => { c with sessions := c.sessions.filter fun y => y.id != sess }) s

/-! ### The verifier's messages (R430) -/

/-- A message inside the job's verifier's session; any other is refused. Its answer is secured (R430). -/
def fromVerifier (n : Nat) (f : State → DoeResp × State) (s : State) : Out :=
  inSession n (fun x s => if x.role = .verifier then (let r := f s; respondIn x r.1 r.2) else refuseDoe s) s

/-- SET_JOB_KEY: an earlier key is replaced only while no context is resident. It goes to every switch, and one that has acknowledged another key only is not
admitted (R435). -/
def execSetJobKey (sess : Nat) (key : BitVec 256) (s : State) : Out :=
  fromVerifier sess (fun s =>
    if s.cart.jobKey.isSome && s.ctxs.any (·.2.live) then (.error "Refused", s)
    else (.ack "SET_JOB_KEY", s.cart.sessions.foldl (deliverKey (some key)) (s.modCart fun c => ({ c with jobKey := some key } : Cart).reassess))) s

/-- SET_IMAGE_KEY. -/
def execSetImageKey (sess : Nat) (slot : Fin 4) (key : BitVec 4096) (s : State) : Out :=
  fromVerifier sess (fun s => (.ack "SET_IMAGE_KEY", s.modCart fun c => { c with imgKeys := tabSet c.imgKeys slot key })) s

/-- SET_TRUST_ANCHOR: up to 8. -/
def execSetTrustAnchor (sess : Nat) (cert : List Byte) (s : State) : Out :=
  fromVerifier sess (fun s =>
    if 8 ≤ s.cart.anchors.length then (.error "Refused", s)
    else (.ack "SET_TRUST_ANCHOR", s.modCart fun c => { c with anchors := c.anchors ++ [cert] })) s

/-- SET_REFERENCE: up to 16 indices. A switch that has answered another measurement is no longer admitted (R435). -/
def execSetReference (sess : Nat) (idx : BitVec 8) (digest : BitVec 512) (s : State) : Out :=
  fromVerifier sess (fun s =>
    if (tabGet? s.cart.refs idx.toNat).isNone && decide (16 ≤ s.cart.refs.length) then (.error "Refused", s)
    else (.ack "SET_REFERENCE", s.modCart fun c => ({ c with refs := tabSet c.refs idx.toNat digest } : Cart).reassess)) s

/-- What RELEASE erases (R430, R433, R436): the job's keys, anchors and references, every switch's admission, every session but those of
withdrawn switches, which wait for their chunks, and every memory key. -/
def releaseJob (s : State) : State :=
  let s0 := s.modCart fun c => c.withdraw (c.switches.map (·.serial))
  let s1 := (s0.cart.sessions.filter fun x => x.asks && x.open_ && !s0.cart.switches.any fun w => x.withSwitch w.serial).foldl (fun s x => ask x 0xEC [] s) s0
  let s2 := (s1.ctxs.map (·.1)).foldl (fun s x => zeroKey x (some s.cart.keyNext) (s.modCart fun c => { c with keyNext := c.keyNext + 1 })) s1
  s2.modCart fun c =>
    { c with jobKey := none, imgKeys := [], anchors := [], refs := [], job := none
             sessions := c.sessions.filter fun x => c.switches.any fun w => x.withSwitch w.serial }

/-- RELEASE. -/
def execRelease (sess : Nat) (s : State) : Out :=
  fromVerifier sess (fun s => (.ack "RELEASE", releaseJob s)) s

end Sys2Proof.Machine
end

