-- ==== Sys2Proof/Machine/Loader.lean ====
section
/-! DEFINITION. The loader (R91, R102 to R107, R292, R313, R426 to R428): sealed images, their headers, sections and relocations, and
what a load writes. -/
namespace Sys2Proof.Machine

/-! ### The image's parts -/

/-- Bytes of an image as a number. -/
def imgNat (l : List Byte) (off n : Nat) : Nat := bytesNat ((l.drop off).take n)

/-- A section-table entry (R104). -/
structure ImgSec where
  kind  : Nat
  align : Nat
  off   : Nat
  size  : Nat
  base  : Nat
  resv  : Nat
  deriving DecidableEq, Repr

/-- A relocation entry (R105). -/
structure ImgRel where
  off   : Nat
  sec   : Nat
  kind  : Nat
  shift : Nat
  resv  : Nat
  sym   : Nat
  add   : Int
  deriving DecidableEq, Repr

/-- Section `k`. -/
def imgSec (l : List Byte) (k : Nat) : ImgSec :=
  let o := imgNat l 0x10 8 + 32 * k
  { kind := imgNat l o 1, align := imgNat l (o + 1) 1, resv := imgNat l (o + 2) 6, off := imgNat l (o + 8) 8,
    size := imgNat l (o + 16) 8, base := imgNat l (o + 24) 8 }

/-- Number of sections, and the sections. -/
def imgNsec (l : List Byte) : Nat := imgNat l 6 2
/-- See `imgNsec`. -/
def imgSecs (l : List Byte) : List ImgSec := (rangeFrom 0 (imgNsec l)).map (imgSec l)

/-- Relocation `i`. -/
def imgRel (l : List Byte) (i : Nat) : ImgRel :=
  let o := imgNat l 0x18 8 + 24 * i
  { off := imgNat l o 8, sec := imgNat l (o + 8) 1, kind := imgNat l (o + 9) 1, shift := imgNat l (o + 10) 1,
    resv := imgNat l (o + 11) 1, sym := imgNat l (o + 12) 4, add := (BitVec.ofNat 64 (imgNat l (o + 16) 8)).toInt }

/-- An entry record (R103): section, kind, offset and reserved bytes. -/
def imgEnt (l : List Byte) (k : Nat) : Nat × Nat × Nat × Nat :=
  let o := imgNat l 0x40 8 + 16 * k
  (imgNat l o 4, imgNat l (o + 4) 1, imgNat l (o + 8) 8, imgNat l (o + 5) 3)

/-- The entry records. -/
def imgEnts (l : List Byte) : List (Nat × Nat × Nat × Nat) := (rangeFrom 0 (imgNat l 0x3A 2)).map (imgEnt l)

/-- The bytes that the signature covers. -/
def imgCovered (l : List Byte) : List Byte := l.take (imgNat l 0x28 8)

/-! ### Checks -/

/-- Whether the image's signature checks under one of the job's image keys (R102, R425). -/
def imgSigned (keys : Tab (BitVec 4096)) (l : List Byte) : Bool :=
  let n := imgNat l 0x28 8
  let o := imgNat l 0x30 8
  decide (128 ≤ l.length ∧ n ≤ l.length ∧ o + 512 ≤ l.length)
    && keys.any fun k => sigOk k.2 (imgCovered l) (BitVec.ofNat 4096 (imgNat l o 512))

/-- Whether a team dimension is one that an image may require (R90, R102). -/
def dimOk (n top : Nat) : Bool := n == 0 || (n &&& (n - 1) == 0 && decide (n ≤ top))

/-- Whether a header is one that R102 allows. -/
def headerOk (l : List Byte) : Bool :=
  let n := l.length
  imgNat l 0 4 == 0x3156444E && imgNat l 4 2 == 1 && decide (1 ≤ imgNsec l ∧ imgNsec l ≤ 32) && imgNat l 0xC 4 == 0
    && imgNat l 0x3C 4 == 0 && imgNat l 0x48 56 == 0 && dimOk (imgNat l 0x38 1) 16 && dimOk (imgNat l 0x39 1) 8
    && decide (imgNat l 0x3A 2 ≤ 4096) && decide (imgNat l 0x10 8 + 32 * imgNsec l ≤ n)
    && decide (imgNat l 0x18 8 + 24 * imgNat l 8 4 ≤ n)

/-- Whether a section is one that R104 and R292 allow. -/
def secOk (n : Nat) (x : ImgSec) : Bool :=
  decide (1 ≤ x.kind ∧ x.kind ≤ 8 ∧ x.align ≤ 16) && x.resv == 0 && decide (x.off + x.size ≤ n)
    && (!(x.kind == 5 || x.kind == 6) || decide (4 ≤ x.align)) && (x.kind != 4 || decide (x.base + x.size ≤ 393216))

/-- Whether the entry table is one that R103 allows. DESIGN CHOICE (log entry 60): a record whose KIND is above 3, for which the rule names no
refusal, is refused as well. -/
def entsOk (l : List Byte) : Bool :=
  let ents := imgEnts l
  (ents.isEmpty || decide (imgNat l 0x40 8 + 16 * ents.length ≤ imgNat l 0x28 8))
    && ents.all (fun e =>
      e.2.2.2 == 0 && decide (e.1 < imgNsec l) && decide (e.2.1 ≤ 3) && (imgSec l e.1).kind == 1 && decide (e.2.2.1 < (imgSec l e.1).size))
    && (ents.map fun e => (e.1, e.2.2.1)).eraseDups.length == ents.length

/-- The class-table entries of a section of kind 8: entry n at byte 8n; entries that are zero are not given. -/
def secClasses (l : List Byte) : List (Nat × Word) :=
  ((rangeFrom 0 (min 256 (l.length / 8))).map fun k => (k, BitVec.ofNat 64 (imgNat l (8 * k) 8))).filter fun p => p.2 != 0

/-- Those of an image as it is signed. -/
def imgClasses (l : List Byte) : List (Nat × Word) :=
  ((imgSecs l).filter fun x => x.kind == 8).flatMap fun x => secClasses ((l.drop x.off).take x.size)

/-- Whether a schedule table is one that R300 allows: its W and H are the team's, where the image requires one, and no segment is longer than 256
rows. DEDUCED (log entry 48): the table at the section's start is checked; how several merged ones are found is open. -/
def schedOk (l : List Byte) (x : ImgSec) : Bool :=
  let b := (l.drop x.off).take x.size
  let w := imgNat b 0 1
  let h := imgNat b 1 1
  x.kind != 7 || ((imgNat l 0x38 1 == 0 || w == imgNat l 0x38 1) && (imgNat l 0x39 1 == 0 || h == imgNat l 0x39 1)
    && (rangeFrom 0 (4 * w * h)).all fun k => decide (imgNat b (8 + 8 * k + 4) 2 ≤ 256))

/-- Whether a class-table entry is refused (R313, R314): OP 0..11 are defined. -/
def clsBad (e : Word) : Bool :=
  bitsOf e.toNat 60 56 != 0 || bitsOf e.toNat 51 32 != 0 || bitsOf e.toNat 15 0 != 0 || decide (11 < clsOp e)
    || (clsOrd e && (clsNexp e == 0 || clsOp e == 0)) || (!clsOrd e && clsNexp e != 0)

/-- Whether a load would change a class that has records waiting on a die (R313). -/
def clsHeld (s : State) (p : Nat × Word) : Bool :=
  (rangeFrom 0 4).any fun d =>
    tabGet 0 (s.die d).classTab p.1 != p.2 && (s.die d).gz.any fun e => e.st == .waiting && keyClass e.key == p.1

/-- Header, sections and entries (R107). -/
def imgOk (s : State) (l : List Byte) : Bool :=
  headerOk l && (imgSecs l).all (fun x => secOk l.length x && schedOk l x) && entsOk l && (imgClasses l).all fun p => !clsBad p.2 && !clsHeld s p

/-! ### Load addresses -/

/-- Whether a section lies in device memory. -/
def ImgSec.inMem (x : ImgSec) : Bool := x.kind != 4 && x.kind != 8

/-- The address that the loader chooses for a section, aligned as it asks (R104). -/
def secAddr (n : Nat) (x : ImgSec) : Nat :=
  if x.kind = 4 then x.base else if x.kind = 8 then 0 else (Config.loadAddr n).toNat / 2 ^ x.align * 2 ^ x.align

/-- The addresses of an image's sections. -/
def placeSecs (n : Nat) (l : List Byte) : List Nat := (imgSecs l).zipIdx.map fun p => secAddr (n + p.2) p.1

/-! ### Relocations (R105, R106) -/

/-- The header offset of the bundle of a code section that holds a byte, from the bundle at `o` on. -/
def holdBundle (l : List Byte) (x : ImgSec) (t : Nat) : Nat → Nat → Option Nat
  | 0, _ => none
  | f + 1, o =>
    let n := bundleLen (BitVec.ofNat 64 (imgNat l (x.off + o) 8))
    if x.size < o + 8 then none else if o ≤ t ∧ t < o + n then some o else holdBundle l x t f (o + n)

/-- Bytes of the field that a relocation fills. -/
def relSize (kind : Nat) : Nat := if kind = 4 then 1 else if kind = 5 then 8 else if 6 ≤ kind then 4 else 2

/-- A symbol: its section and offset, if it lies in the image. -/
def imgSym (l : List Byte) (k : Nat) : Option (Nat × Nat) :=
  let o := imgNat l 0x20 8 + 16 * k
  if o + 16 ≤ l.length ∧ imgNat l o 4 < imgNsec l then some (imgNat l o 4, imgNat l (o + 8) 8) else none

/-- Whether a relocation entry is a bad one (R107). DEDUCED (log entry 48): a SHIFT that R105 does not list makes it one. -/
def relBad (l : List Byte) (e : ImgRel) : Bool :=
  e.kind == 0 || decide (7 < e.kind) || e.resv != 0
    || (if e.kind = 2 ∨ e.kind = 3 then !(e.shift == 0 || e.shift == 16 || e.shift == 32 || e.shift == 48) else e.shift != 0)
    || decide (imgNsec l ≤ e.sec) || decide ((imgSec l e.sec).size < e.off + relSize e.kind) || (imgSym l e.sym).isNone

/-- The value of a relocation (R106); none where there is no bundle, or no scratchpad section, to compute it from. -/
def relValue (l : List Byte) (addrs : List Nat) (e : ImgRel) : Option Int :=
  match imgSym l e.sym with
  | none => none
  | some (q, o) =>
    let v : Int := (addrs.getD q 0 + o : Nat) + e.add
    match e.kind with
    | 1 =>
      let x := imgSec l e.sec
      if x.kind = 1 then (holdBundle l x e.off (x.size / 8 + 1) 0).map fun h => v - (addrs.getD e.sec 0 + h : Nat) else none
    | 2 => some ((v / 2 ^ e.shift) % 65536)
    | 3 => some (v / 2 ^ e.shift)
    | 7 => if (imgSec l q).kind = 4 then some (v - (imgSec l q).base) else none
    | _ => some v

/-- Whether a value fits (R106). -/
def relFits (kind : Nat) (v : Int) : Bool :=
  match kind with
  | 1 => decide (-32768 ≤ v ∧ v ≤ 32767)
  | 3 => decide (-32768 ≤ v ∧ v ≤ 32767)
  | 4 => decide (-64 ≤ v ∧ v ≤ 63)
  | 6 => decide (0 ≤ v ∧ v ≤ 0xFFFFFFFF)
  | 7 => decide (0 ≤ v ∧ v ≤ 0x5FFFF)
  | _ => true

/-- The bytes of a filled field. -/
def relBytes (kind : Nat) (v : Int) : List Byte :=
  if kind = 4 then [BitVec.ofNat 8 (0x80 + (v % 128).toNat)]
  else natBytes (relSize kind) (v % 2 ^ (8 * relSize kind)).toNat

/-- A loader status record (R107). -/
def loadStatus (status index kind : Nat) (v : Int) : List Byte :=
  natBytes 4 status ++ natBytes 4 index ++ natBytes 1 kind ++ natBytes 7 0 ++ natBytes 8 (v % 2 ^ 64).toNat

/-- The patches of every relocation, by section, offset and bytes, or the status record of the first that is refused. -/
def relPatches (l : List Byte) (addrs : List Nat) : List Nat → Except (List Byte) (List (Nat × Nat × List Byte))
  | [] => .ok []
  | i :: r =>
    let e := imgRel l i
    if relBad l e then .error (loadStatus 3 i e.kind 0)
    else
      match relValue l addrs e with
      | none => .error (loadStatus 3 i e.kind 0)
      | some v =>
        if relFits e.kind v = false then .error (loadStatus 4 i e.kind v)
        else
          match relPatches l addrs r with
          | .ok p => .ok ((e.sec, e.off, relBytes e.kind v) :: p)
          | .error b => .error b

/-- Bytes with others in their place. -/
def overlay (l : List Byte) (o : Nat) (b : List Byte) : List Byte := l.take o ++ b ++ l.drop (o + b.length)

/-- The contents of section `k` with its patches. -/
def secBytes (l : List Byte) (ps : List (Nat × Nat × List Byte)) (k : Nat) : List Byte :=
  let x := imgSec l k
  (ps.filter fun p => p.1 == k).foldl (fun b p => overlay b p.2.1 p.2.2) ((l.drop x.off).take x.size)

/-! ### What a load does -/

/-- The number of the program that a code section belongs to. -/
def progNo (img k : Nat) : Nat := 64 * img + k

/-- The scratchpad-image sections of the program of code section `k`: the image's one, or those that follow the section. DEDUCED (log entry 48): no field
names the program of such a section (R91), and with several each goes with the code section before it in table order. -/
def secImages (l : List Byte) (k : Nat) : List Nat :=
  let all := (rangeFrom 0 (imgNsec l)).filter fun j => (imgSec l j).kind == 4
  if all.length ≤ 1 then all
  else all.filter fun j => decide (k < j) && !((rangeFrom (k + 1) (j - k - 1)).any fun m => (imgSec l m).kind == 1)

/-- The places of a section's bytes, if its pages can be written. -/
def secPieces (s : State) (x : BitVec 3) (a : Nat) (n : Nat) : Except TFault (List (TlbEnt × Nat × Nat)) :=
  gPieces s (.agent 0) x (BitVec.ofNat 64 a) n {}

/-- Writes the sections at system scope. -/
def writeSecs (x : BitVec 3) (l : List Byte) (addrs : List Nat) (ps : List (Nat × Nat × List Byte)) (s : State) : State :=
  (imgSecs l).zipIdx.foldl (fun s p =>
    if p.1.inMem && p.1.size != 0 then
      match secPieces s x (addrs.getD p.2 0) p.1.size with
      | .error _ => s
      | .ok q => (q.foldl (fun (acc : State × List Byte) r =>
          (systemWrite x.toNat r.2.1 (acc.2.take r.2.2) acc.1, acc.2.drop r.2.2)) (s, secBytes l ps p.2)).1
    else s) s

/-- What the loader keeps of an image: its entries, its scratchpad images and its classes (R103, R292, R313). -/
def keepImage (x : BitVec 3) (l : List Byte) (addrs : List Nat) (ps : List (Nat × Nat × List Byte)) (s : State) : State :=
  let img := s.cart.imgNext
  let tw := imgNat l 0x38 1
  let th := imgNat l 0x39 1
  let ents : List ImgEntry := (imgEnts l).map fun e =>
    { addr := BitVec.ofNat 64 (addrs.getD e.1 0 + e.2.2.1), kind := e.2.1, img := progNo img e.1, tw := tw, th := th }
  let codes := (rangeFrom 0 (imgNsec l)).filter fun k => (imgSec l k).kind == 1
  let sps : List SpImage := codes.flatMap fun k => (secImages l k).map fun j =>
    { img := progNo img k, base := (imgSec l j).base, bytes := secBytes l ps j }
  let classes := ((rangeFrom 0 (imgNsec l)).filter fun k => (imgSec l k).kind == 8).flatMap fun k => secClasses (secBytes l ps k)
  let s1 := s.modCtx x.toNat fun c => { c with entries := c.entries ++ ents, images := c.images ++ sps }
  let s2 := (rangeFrom 0 4).foldl (fun s d => s.modDie d fun y =>
    { y with classTab := classes.foldl (fun t p => tabSet t p.1 p.2) y.classTab }) s1
  s2.modCart fun c => { c with imgNext := c.imgNext + 1 }

/-- The measure step (R428). -/
def measureImage (x : BitVec 3) (l : List Byte) (s : State) : State :=
  let k := 0x10 + x.toNat
  let m := tabGet 0 s.cart.meas k
  let m' := sha512 (natBytes 64 m.toNat ++ natBytes 64 (sha512 (imgCovered l)).toNat)
  s.modCart fun c => { c with meas := tabSet c.meas k m' }

/-- The loader on a plaintext image (R107): the status record, and the state after it. -/
def loadImage (x : BitVec 3) (l : List Byte) (s : State) : List Byte × State :=
  if imgSigned s.cart.imgKeys l = false then (loadStatus 1 0 0 0, s)
  else if imgOk s l = false then (loadStatus 2 0 0 0, s)
  else
    let addrs := placeSecs s.fresh l
    let s1 : State := { s with fresh := s.fresh + 32 }
    let unplaced := (imgSecs l).zipIdx.any fun p =>
      p.1.inMem && p.1.size != 0 && (secPieces s x (addrs.getD p.2 0) p.1.size).toOption.isNone
    if unplaced then (loadStatus 2 0 0 0, s)
    else
      match relPatches l addrs (rangeFrom 0 (imgNat l 8 4)) with
      | .error r => (r, s)
      | .ok ps => (loadStatus 0 0 0 0, measureImage x l (keepImage x l addrs ps (writeSecs x l addrs ps s1)))

/-- Bytes of the staging window. -/
def Cart.windowBytes (c : Cart) (a n : Nat) : List Byte :=
  (rangeFrom a n).map fun x => (memByte c.window x).getD (Config.freeByte 701 x)

/-- A sealed image opened (R426): the context and the plaintext, with the nonce recorded. -/
def openSeal (len : Nat) (w : List Byte) (s : State) : Option (BitVec 3 × List Byte × State) :=
  match s.cart.jobKey with
  | none => none
  | some key =>
    let nonce := BitVec.ofNat 96 (imgNat w 0 12)
    let x := imgNat w 12 1
    if len < 32 ∨ s.cart.nonces.contains (key, nonce) = true ∨ 8 ≤ x ∨ (s.ctx x).live = false ∨ imgNat w 13 3 ≠ 0 then none
    else
      match gcmOpen (natBytes 32 key.toNat) (w.take 12) (w.take 16) ((w.drop 16).take (len - 32)) (w.drop (len - 16)) with
      | none => none
      | some l =>
        some (BitVec.ofNat 3 x, l, s.modCart fun c => { c with nonces := c.nonces ++ [(key, nonce)] })

/-- Asks for a load (R427): one runs at a time. -/
def startLoad (off len : Word) (s : State) : State :=
  if s.cart.loading.isSome then respond (.error "Busy") s
  else s.modCart fun c => { c with loading := some { off := off.toNat, len := len.toNat } }

/-- The end of the load in progress (R426, R427): answered with the loader's status record. Bytes of the sealed form that have changed since the request
give STATUS 1. -/
def finishLoad (q : LoadReq) (s : State) : State :=
  let s0 := s.modCart fun c => { c with loading := none }
  match (if q.changed then none else openSeal q.len (s.cart.windowBytes q.off q.len) s0) with
  | none => respond (.bytes "LOAD" (loadStatus 1 0 0 0)) s0
  | some (x, l, s1) =>
    let (r, s2) := loadImage x l s1
    respond (.bytes "LOAD" r) s2

/-- LOAD (R426, R427): the host's request, or, with no offset, the end of the load that it began. -/
def execLoad (off : Option Word) (len : Word) (s : State) : Out :=
  match off, s.cart.loading with
  | some a, _ => doe (startLoad a len) s
  | none, some q => .next (finishLoad q s)
  | none, none => .next s

end Sys2Proof.Machine
end

