-- ==== Sys2Proof/Machine/Manage.lean ====
section
/-! DEFINITION. The management interface (R447 to R450): the host's registers, the command ring, and every command, with host DMA
(R393, R434). -/
namespace Sys2Proof.Machine

/-! ### The host's registers and DMA -/

/-- MCTAIL_WRITE (R447). -/
def execMctailWrite (v : Word) (s : State) : Out := .next { s with mc := { s.mc with tail := v } }

/-- A value with its bits below 4 KiB clear. -/
def alignPage (v : Word) : Word := v &&& ~~~0xFFF

/-- A write of MCBASE or MCSIZE takes effect only while the ring is empty (R447). DESIGN CHOICE (log entry 49): of MCBASE the bits below 4 KiB are not
stored, and a size outside 4..12 is not taken. -/
def writeRing (size : Bool) (v : Word) (s : State) : State :=
  if !s.mc.empty then s
  else if size then (if 4 ≤ v.toNat ∧ v.toNat ≤ 12 then { s with mc := { s.mc with size := v } } else s)
  else { s with mc := { s.mc with base := alignPage v } }

/-- MC_RING_CONFIG_WRITE (R447). -/
def execMcRingConfigWrite (size : Bool) (v : Word) (s : State) : Out := .next (writeRing size v s)

/-- Changes a context's doorbell page. -/
def modDb (x : CtxId) (f : Doorbell → Doorbell) (s : State) : State := s.modCtx x fun c => { c with db := f c.db }

/-- The host fills eight bytes of the staging window (R426); bytes of a sealed form that is being loaded do not change unseen (R427). -/
def writeStaging (off : Nat) (v : Word) (s : State) : State :=
  let new := wordBytes v
  s.modCart fun c =>
    let changes (q : LoadReq) : Bool := (new.zipIdx).any fun p =>
      decide (q.off ≤ off + p.2) && decide (off + p.2 < q.off + q.len) && memByte c.window (off + p.2) != some p.1
    { c with window := memWrite c.window off new, loading := c.loading.map fun q => { q with changed := q.changed || changes q } }

/-- HOST_REGISTER_WRITE (R394, R447): the value is stored; room in a notice ring lets held notices in. DESIGN CHOICE (log entry 49): of NRBASE the bits below
4 KiB and of CWIN those above 15 are not stored, and an NRSIZE outside 4..16 is not taken. -/
def execHostRegisterWrite (r : HostReg) (v : Word) (s : State) : Out :=
  .next (match r with
    | .nrBase x => modDb x (fun d => { d with nrBase := alignPage v }) s
    | .nrSize x => if 4 ≤ v.toNat ∧ v.toNat ≤ 16 then modDb x (fun d => { d with nrSize := v }) s else s
    | .nrHead x => pumpNotices x (modDb x (fun d => { d with nrHead := v }) s)
    | .cwin x => modDb x (fun d => { d with cwin := v &&& 0xFFFF }) s
    | .mcBase => writeRing false v s
    | .mcSize => writeRing true v s
    | .mcMsi => { s with mc := { s.mc with msi := v } }
    | .staging off => writeStaging off.toNat v s)

/-- What a DMA read returns: what lies in external memory (R434). -/
def dmaRead (s : State) (pa n : Nat) : List Byte := (((linesOf pa n).flatMap s.cipherLine).drop (pa % 128)).take n

/-- Bytes of a page table of context `x` as a walk would read them (R340, R433; log entry 73). -/
def State.tableBytes (s : State) (x : BitVec 3) (a n : Nat) : List Byte :=
  let l := lineOf a
  if (s.l2At l).isSome || s.extKey l == tableKey s x l then s.gBytes a n else ((s.cipherLine l).drop (a % 128)).take n

/-- Whether the page of an entry of a TLB or table holds a line. -/
def TlbEnt.covers (t : TlbEnt) (l : Nat) : Bool := decide (t.base ≤ 128 * l) && decide (128 * l < t.base + 2 ^ t.lg)

/-- Whether a table of context `x` of a level leads to a page that holds a line (R347). -/
def tableMaps (s : State) (x : BitVec 3) (l : Nat) : Nat → Nat → Bool
  | 0, tbl => (rangeFrom 0 32).any fun k => match walkEntry x 0 0 (bytesNat (s.tableBytes x (tbl + 8 * k) 8)) with
    | .page t => t.covers l
    | _ => false
  | n + 1, tbl => (rangeFrom 0 512).any fun k => match walkEntry x (n + 1) 0 (bytesNat (s.tableBytes x (tbl + 8 * k) 8)) with
    | .page t => t.covers l
    | .table pa => tableMaps s x l n pa
    | .fault _ => false

/-- Whether a line belongs to a context's pages: it lies under the context's key, or its page tables or a die's TLB map it. -/
def State.ownsLine (s : State) (x l : Nat) : Bool :=
  (s.extKey l != 0 && (s.ctx x).memKey == some (s.extKey l)) || (s.dies.any fun d => d.2.tlb.any fun t => t.ctx.toNat == x && t.covers l)
    || tableMaps s (BitVec.ofNat 3 x) l 3 (s.ctx x).ptRoot

/-- The contexts whose undo logs receive a write of a line by host DMA (R420): those that keep one and whose pages hold the line. DEDUCED (log entry 77). -/
def State.ownersOf (s : State) (l : Nat) : List Nat :=
  (s.ctxs.filter fun p => p.2.live && p.2.pol == 1 && s.ownsLine p.1 l).map (·.1)

/-- A DMA write of part of a line: the ciphertext is stored as given (R434), and where L2 holds the line, its copy receives what the owner's key makes of
the blocks that are written (R265, R420). -/
def dmaLine (s : State) (p : Nat × List Byte) : State :=
  let l := lineOf p.1
  let o := p.1 - 128 * l
  let raw := (s.cipherLine l).take o ++ p.2 ++ (s.cipherLine l).drop (o + p.2.length)
  let s1 := (s.ownersOf l).foldl (fun s x => undoAppend x l s) s
  let s2 := putExt l 0 (memWrite [] (128 * l) raw) (if p.2.length = 128 then healLine l s1 else s1)
  match s.l2At l with
  | none => s2
  | some y =>
    let b0 := o / 16 * 16
    let b1 := (o + p.2.length + 15) / 16 * 16
    { s2 with mem := memWrite s2.mem (128 * l + b0) (((ofCipher (s.ctxKey y.ctx.toNat) l raw).drop b0).take (b1 - b0)) }

/-- Whether bytes lie in a window that is open (R393). -/
def State.dmaOpen (s : State) (pa n : Nat) : Bool := s.dmaWins.any fun w => decide (w.base ≤ pa ∧ pa + n ≤ w.base + w.size)

/-- Whether bytes are ones of HBM4E or LPDDR-6 (R338, R393). -/
def dmaPlace (pa n : Nat) : Bool := n != 0 && decide (pa + n ≤ 0x10000000000) && !paHole pa && !paHole (pa + n - 1)

/-- HOST_DMA (R393, R434): through a window that system software has opened. PRESUMED (log entry 77): a window is a range of physical addresses. -/
def execHostDma (pa : BitVec 48) (len : Nat) (op : DmaOp) (s : State) : Out :=
  match op with
  | .openWindow => .next { s with dmaWins := s.dmaWins ++ [{ base := pa.toNat, size := len }] }
  | .closeWindow => .next { s with dmaWins := s.dmaWins.filter (· != { base := pa.toNat, size := len }) }
  | .read =>
    if s.dmaOpen pa.toNat len && dmaPlace pa.toNat len then .next { s with hostReads := s.hostReads ++ [dmaRead s pa.toNat len] } else .next s
  | .write l =>
    if s.dmaOpen pa.toNat l.length && dmaPlace pa.toNat l.length then .next ((splitLines pa.toNat l).foldl dmaLine s) else .next s

/-! ### Entries of the ring (R448) -/

/-- Fields of an entry. -/
def mcOpc (e : Nat) : Nat := e % 2 ^ 16
/-- See `mcOpc`. -/
def mcCtx (e : Nat) : Nat := e / 2 ^ 16 % 256
/-- See `mcOpc`. -/
def mcFlags (e : Nat) : Nat := e / 2 ^ 24 % 256
/-- See `mcOpc`. -/
def mcArg (e k : Nat) : Nat := e / 2 ^ (64 * (k + 1)) % 2 ^ 64

/-- The context of an entry. -/
def mcX (e : Nat) : BitVec 3 := BitVec.ofNat 3 (mcCtx e)

/-- All ones. -/
def ones64 : Nat := 2 ^ 64 - 1

/-- Whether a module that is not ready takes a command: a reset request, or a read of the logs, where the link to the host works. DESIGN CHOICE (log
entry 49). -/
def State.mcLate (s : State) : Bool := s.pcieUp && [0x18, 0x1A, 0x1B, 0x30].contains (mcOpc s.mcCmd)

/-- Whether the entry at MCHEAD may start: the module is ready, the ring is not empty and no earlier command waits. -/
def State.mcGo (s : State) : Bool := (s.ready || s.mcLate) && !s.mc.empty && s.mc.wait.isNone

/-- What the host reads as MCHEAD and MCSTAT (R447): bit 0 the module is ready, bit 1 a command is executing. -/
def State.mcheadWord (s : State) : Word := s.mc.head
/-- See `State.mcheadWord`. -/
def State.mcstatWord (s : State) : Word := BitVec.ofNat 64 (bit1 s.ready 0 + bit1 (s.mcGo || s.mc.wait.isSome) 1)

/-- What the host reads in a context's doorbell page as NRTAIL and DBPEND (R394). -/
def Doorbell.tailWord (d : Doorbell) : Word := d.nrTail
/-- See `Doorbell.tailWord`. -/
def Doorbell.pendWord (d : Doorbell) : Word := BitVec.ofNat 64 (bit1 d.pend.isSome 0)

/-- The first of numbered conditions that holds (R450). -/
def firstBad (l : List (Nat × Bool)) : Option Nat := (l.find? (·.2)).map (·.1)

/-- Runs the command at MCHEAD if it is the named one: refused with a status, or its effect. `run` ends with the completion. -/
def command (sel : Nat → Bool) (bad : State → Nat → List (Nat × Bool)) (run : Nat → State → State) (s : State) : Out :=
  let e := s.mcCmd
  if s.mcGo && sel e then
    match firstBad ((1, decide (2 ≤ mcFlags e)) :: bad s e) with
    | some n => .next (mcComplete n 0 s)
    | none => .next (run e s)
  else .next s

/-- An effect without a result. -/
def done (f : Nat → State → State) (e : Nat) (s : State) : State := mcComplete 0 0 (f e s)

/-- Whether an entry is command `n`, and whether it is item `i` of CTX_SET, DIE_SET or PORT_SET. -/
def isOpc (n : Nat) (e : Nat) : Bool := mcOpc e == n
/-- See `isOpc`. -/
def isCtxSet (i : Nat) (e : Nat) : Bool := mcOpc e == 3 && mcArg e 0 == i
/-- See `isOpc`. -/
def isDieSet (i : Nat) (e : Nat) : Bool := mcOpc e == 4 && mcArg e 1 == i
/-- See `isOpc`. -/
def isPortSet (i : Nat) (e : Nat) : Bool := mcOpc e == 0x22 && mcArg e 1 == i

/-- The context must be in range and exist. -/
def needCtx (s : State) (e : Nat) : List (Nat × Bool) := [(2, decide (7 < mcCtx e)), (5, !(s.ctx (mcCtx e)).live)]

/-- Whether a team of a context is dispatched. -/
def State.ctxBusy (s : State) (x : Nat) : Bool := s.teams.any fun p => p.2.ctx.toNat == x

/-- Whether an entry of a context is suspended, or a stop request of it is in force. -/
def State.ctxStops (s : State) (x : Nat) : Bool :=
  ((rangeFrom 0 4).any fun d => (s.die d).susp.any fun e => e.team.ctx.toNat == x)
    || s.teams.any fun p => p.2.ctx.toNat == x && p.2.stop.isSome

/-- The checks of a between-kernel item of CTX_SET: while a team of the context is dispatched it is busy whatever its arguments are
(R450). -/
def betweenCtx (s : State) (e : Nat) (bad : Bool) : List (Nat × Bool) :=
  needCtx s e ++ [(3, s.ctxBusy (mcCtx e)), (2, bad)]

/-- MC_UNKNOWN_COMMAND: an OPC that R449 does not list, or an item that its command does not have. -/
def unknownCmd (e : Nat) : Option Nat :=
  let opcs := [1, 2, 3, 4, 5, 6, 7, 8, 9, 0xA, 0xB, 0xC, 0x10, 0x11, 0x12, 0x13, 0x14, 0x15, 0x16, 0x17, 0x18, 0x19, 0x1A, 0x1B,
               0x20, 0x21, 0x22, 0x23, 0x30]
  if !opcs.contains (mcOpc e) then some 1
  else if mcOpc e = 3 ∧ !(1 ≤ mcArg e 0 ∧ mcArg e 0 ≤ 10) then some 2
  else if mcOpc e = 4 ∧ !(mcArg e 1 = 1 ∨ mcArg e 1 = 2) then some 2
  else if mcOpc e = 0x22 ∧ !(1 ≤ mcArg e 1 ∧ mcArg e 1 ≤ 6) then some 2
  else none

/-- See `unknownCmd`. -/
def execMcUnknownCommand (s : State) : Out :=
  command (fun e => (unknownCmd e).isSome) (fun _ _ => []) (fun e => mcComplete ((unknownCmd e).getD 1) 0) s

/-! ### Contexts -/

/-- Creates a context (R433, R449): its doorbell page and entry serial are the module's. -/
def createCtx (e : Nat) (s : State) : State :=
  let old := s.ctx (mcCtx e)
  let c : Ctx := { live := true, job := s.cart.jobNow, memKey := some s.cart.keyNext, db := old.db, entSer := old.entSer }
  let s1 : State := { s with ctxs := tabSet s.ctxs (mcCtx e) c }
  s1.modCart fun k => { k with keyNext := k.keyNext + 1, meas := tabSet k.meas (0x10 + mcCtx e) 0 }

/-- Whether the Cartouche refuses a key step, which the manual lets it do and gives no reason for: a free value, by the counter of such values (R450). DESIGN
CHOICE (log entry 49). -/
def keyRefused (n : Nat) : Bool := n != Config.keyStep && Config.keyRefusal n

/-- CTX_CREATE (R449, R450): nothing is created where the Cartouche refuses the key step. -/
def execCtxCreate (s : State) : Out :=
  command (isOpc 1) (fun s e => [(2, decide (7 < mcCtx e)), (2, (s.ctx (mcCtx e)).live), (7, s.cart.job.isNone)])
    (fun e s =>
      let (n, s1) := s.take
      if keyRefused n then mcComplete 7 0 s1 else mcComplete 0 0 (createCtx e s1)) s

/-- What a destroyed context leaves behind (R342, R433, R449). -/
def removeCtx (x : Nat) (s : State) : State :=
  let y := BitVec.ofNat 3 x
  let s1 : State := { s with
    binds := s.binds.filter fun p => p.2.ctx != y
    l2 := s.l2.map fun l => { l with locks := l.locks.filter (· != y) } }
  let s2 := (rangeFrom 0 4).foldl (fun s d => s.modDie d fun k =>
    let gone := (k.stages.filter fun g => g.ctx == y).map (·.num)
    { k with
      susp := k.susp.filter fun e => e.team.ctx != y
      stages := k.stages.filter fun g => g.ctx != y
      lq := k.lq.filter fun l => l.ctx != y
      gz := k.gz.filter fun e => !gone.contains (keyStage e.key)
      regCols := k.regCols.filter fun r => r.team.ctx != y
      colStage := k.colStage.filter fun q => q.ctx != y
      colFails := k.colFails.filter fun f => f.ctx != y
      jobs := k.jobs.filter fun j => j.ctx != y
      stash := k.stash.filter fun e => e.ctx != y }) s1
  let s3 := zeroKey x none s2
  let old := s3.ctx x
  { s3 with ctxs := tabSet s3.ctxs x { db := old.db, entSer := old.entSer } }

/-- CTX_DESTROY (R449): it waits until no team of the context is dispatched. -/
def execCtxDestroy (s : State) : Out :=
  match s.mc.wait with
  | some (.destroy x) => if s.ctxBusy x.toNat then .next s else .next (mcComplete 0 0 (removeCtx x.toNat s))
  | _ =>
    command (isOpc 2) needCtx (fun e s =>
      if s.ctxBusy (mcCtx e) then { s with mc := { s.mc with wait := some (.destroy (mcX e)) } }
      else mcComplete 0 0 (removeCtx (mcCtx e) s)) s

/-- Changes the context that an entry names. -/
def setCtx (f : Nat → Ctx → Ctx) : Nat → State → State := done fun e s => s.modCtx (mcCtx e) (f e)

/-- Whether a region lies in HBM4E, or in LPDDR-6 (R338). -/
def inHbm (base size : Nat) : Bool := decide (base + size ≤ 0x6000000000)
/-- See `inHbm`. -/
def inLp (base size : Nat) : Bool := decide (0x8000000000 ≤ base ∧ base + size ≤ 0x10000000000)

/-- The region that A1 and A2 give. -/
def mcRegion (e : Nat) : Region := { base := mcArg e 1, size := mcArg e 2 }

/-- CTX_SET item 1 (R347): the root is a table of 4 KiB alignment in memory. -/
def execCtxSetPageTableRoot (s : State) : Out :=
  command (isCtxSet 1)
    (fun s e => betweenCtx s e (mcArg e 1 % 4096 != 0 || !(inHbm (mcArg e 1) 4096 || inLp (mcArg e 1) 4096)))
    (setCtx fun e c => { c with ptRoot := mcArg e 1 }) s

/-- CTX_SET item 2 (R364). -/
def execCtxSetSaveRegion (s : State) : Out :=
  command (isCtxSet 2) (fun s e => (needCtx s e ++ [(3, s.ctxStops (mcCtx e))]) ++ betweenCtx s e (!inHbm (mcArg e 1) (mcArg e 2)))
    (setCtx fun e c => { c with save := mcRegion e }) s

/-- CTX_SET item 3 (R324). -/
def execCtxSetStashRegion (s : State) : Out :=
  command (isCtxSet 3) (fun s e => betweenCtx s e (!inHbm (mcArg e 1) (mcArg e 2))) (setCtx fun e c => { c with stash := mcRegion e }) s

/-- CTX_SET item 4 (R324). -/
def execCtxSetSpillRegion (s : State) : Out :=
  command (isCtxSet 4) (fun s e => betweenCtx s e (!inLp (mcArg e 1) (mcArg e 2))) (setCtx fun e c => { c with spill := mcRegion e }) s

/-- CTX_SET item 5 (R420): at most 8 GiB. -/
def execCtxSetUndoRegion (s : State) : Out :=
  command (isCtxSet 5) (fun s e => betweenCtx s e (!inHbm (mcArg e 1) (mcArg e 2) || decide (2 ^ 33 < mcArg e 2)))
    (setCtx fun e c => { c with undo := mcRegion e }) s

/-- CTX_SET item 6 (R417): 2 and 3 are not stored. -/
def execCtxSetPol (s : State) : Out :=
  command (isCtxSet 6) (fun s e => needCtx s e ++ [(2, decide (1 < mcArg e 1))])
    (setCtx fun e c => { c with pol := BitVec.ofNat 2 (mcArg e 1) }) s

/-- CTX_SET item 7 (R303). -/
def execCtxSetWatchdogLimit (s : State) : Out :=
  command (isCtxSet 7) (fun s e => needCtx s e ++ [(2, decide (2 ^ 32 ≤ mcArg e 1))])
    (setCtx fun e c => { c with wdLimit := BitVec.ofNat 32 (mcArg e 1) }) s

/-- CTX_SET item 8 (R342). -/
def execCtxSetLockQuota (s : State) : Out :=
  command (isCtxSet 8) (fun s e => needCtx s e ++ [(2, decide (2 ^ 24 ≤ mcArg e 1 ∨ 12 < mcArg e 2))])
    (setCtx fun e c => { c with lquota := BitVec.ofNat 24 (mcArg e 1), lways := BitVec.ofNat 4 (mcArg e 2) }) s

/-- CTX_SET item 9 (R355). -/
def execCtxSetTvec (s : State) : Out :=
  command (isCtxSet 9) (fun s e => (1, bitsOf (mcArg e 1) 62 48 != 0 || mcArg e 1 % 64 != 0) :: needCtx s e)
    (setCtx fun e c => { c with tvec := BitVec.ofNat 64 (mcArg e 1) }) s

/-- CTX_SET item 10 (R364): a multiple of 4 KiB. -/
def execCtxSetSaveStride (s : State) : Out :=
  command (isCtxSet 10) (fun s e => (needCtx s e ++ [(3, s.ctxStops (mcCtx e))]) ++ betweenCtx s e (mcArg e 1 % 4096 != 0))
    (setCtx fun e c => { c with stride := mcArg e 1 }) s

/-! ### Dies and windows -/

/-- Whether A0 is no die. -/
def badDie (e : Nat) : Nat × Bool := (2, decide (3 < mcArg e 0))

/-- DIE_SET item 1 (R343, R449): quotas are 1..16. -/
def execDieSetWayQuota (s : State) : Out :=
  command (isDieSet 1) (fun _ e => [(1, mcArg e 2 / 2 ^ 10 != 0 || bitsOf (mcArg e 2) 7 5 != 0), badDie e, (2, mcArg e 2 % 32 == 0 || decide (16 < mcArg e 2 % 32))])
    (done fun e s => s.modDie (mcArg e 0) fun d => { d with wq := tabSet d.wq (bitsOf (mcArg e 2) 9 8) (BitVec.ofNat 5 (mcArg e 2)) }) s

/-- DIE_SET item 2 (R415). -/
def execDieSetScrubRate (s : State) : Out :=
  command (isDieSet 2) (fun _ e => [badDie e])
    (done fun e s => s.modDie (mcArg e 0) fun d => { d with scrub := BitVec.ofNat 64 (mcArg e 2) }) s

/-- The four words that FWIN_WRITE names. -/
def fwinWord (s : State) (e k : Nat) : Nat := bytesNat (s.hostBytes (mcArg e 1 + 8 * k) 8)

/-- The window that they describe, EN as written. -/
def fwinOf (s : State) (e : Nat) : Fwin :=
  let w0 := fwinWord s e 0
  { en := bitOf w0 63, sfmt := BitVec.ofNat 3 (bitsOf w0 62 60), ebase := bitsOf w0 47 0, esize := fwinWord s e 1,
    sbase := fwinWord s e 2 % 2 ^ 48, xbase := fwinWord s e 3 % 2 ^ 48 }

/-- Whether a range leaves the memory that it starts in. -/
def leavesMem (base size : Nat) : Bool := !(inHbm base size || inLp base size)

/-- Whether a reserved bit of a window's payload is set (R344, R449). -/
def fwinResv (s : State) (e : Nat) : Bool :=
  bitsOf (fwinWord s e 0) 59 48 != 0 || decide (2 ^ 48 ≤ fwinWord s e 2 ∨ 2 ^ 48 ≤ fwinWord s e 3)

/-- Whether R344 stores a window with EN = 0. -/
def fwinBad (s : State) (e : Nat) : Bool :=
  let f := fwinOf s e
  let lines := f.esize / 128
  f.sfmt == 0 || decide (3 < f.sfmt.toNat) || f.ebase % 2 ^ 21 != 0 || f.esize % 2 ^ 21 != 0
    || f.sbase % 128 != 0 || (f.sfmt != 3 && fwinWord s e 3 != 0)
    || decide (f.ebase < 0x10000000000 ∨ 0x20000000000 < f.ebase + f.esize) || leavesMem f.sbase (f.lineBytes * lines)
    || (f.sfmt == 3 && leavesMem f.xbase lines)
    || (rangeFrom 0 32).any fun n =>
      let g : Fwin := tabGet {} s.fwins n
      n != mcArg e 0 && g.en && decide (f.ebase < g.ebase + g.esize ∧ g.ebase < f.ebase + f.esize)

/-- Expanded lines of a window that are resident leave L2 before the window changes; a locked one, which is never evicted, is written back and
stays (R342). -/
def flushWindow (f : Fwin) (s : State) : State :=
  if f.en then
    (s.l2.filter fun y => decide (f.ebase ≤ 128 * y.line ∧ 128 * y.line < f.ebase + f.esize)).foldl
      (fun s y => if y.locks.isEmpty then evictLine y.line s else writeBack false y.line s) s
  else s

/-- FWIN_WRITE (R344, R449): reserved bits change nothing; a window that is refused is stored with EN = 0 and status 2. -/
def execFwinWrite (s : State) : Out :=
  command (isOpc 5) (fun s e => [(1, fwinResv s e), (3, !s.teams.isEmpty), (2, decide (31 < mcArg e 0))])
    (fun e s =>
      let bad := (fwinOf s e).en && fwinBad s e
      let f : Fwin := { fwinOf s e with en := (fwinOf s e).en && !bad }
      let s1 := flushWindow (tabGet {} s.fwins (mcArg e 0)) s
      mcComplete (if bad then 2 else 0) 0 { s1 with fwins := tabSet s1.fwins (mcArg e 0) f }) s

/-! ### Bindings, groups and paths -/

/-- Bytes `o .. o + n - 1` of a payload. -/
def payAt (p o n : Nat) : Nat := p / 2 ^ (8 * o) % 2 ^ (8 * n)

/-- The payload of an entry, at the address in A0 or A1. -/
def payload (s : State) (a n : Nat) : Nat := bytesNat (s.hostBytes a n)

/-- Fields of a binding's payload: its local end, and for ch8..ch10 its remote end. -/
def bindLoc (p : Nat) : ChEnd :=
  { rect := payAt p 1 1 == 1, stage := if payAt p 1 1 = 1 then 0 else BitVec.ofNat 8 (payAt p 2 1), die := payAt p 3 1,
    x0 := payAt p 4 1, y0 := payAt p 5 1, lw := payAt p 6 1, lh := payAt p 7 1 }
/-- See `bindLoc`. -/
def bindRem (p : Nat) : ChEnd :=
  { rect := payAt p 13 1 == 1, stage := if payAt p 13 1 = 1 then 0 else BitVec.ofNat 8 (payAt p 14 1), die := payAt p 12 1,
    x0 := payAt p 15 1, y0 := payAt p 16 1, lw := payAt p 17 1, lh := payAt p 18 1 }

/-- Whether an end is one that a team can have. -/
def ChEnd.ok (e : ChEnd) : Bool :=
  let r : Rect := { x := e.x0, y := e.y0, lw := e.lw, lh := e.lh }
  decide (e.die < 4) && r.ok

/-- Whether a reserved field of a binding's payload is set (R449). -/
def bindResv (p : Nat) : Bool :=
  let low := decide (payAt p 0 1 < 8)
  payAt p 19 13 != 0 || (if low then payAt p 12 7 != 0 else payAt p 8 4 != 0)
    || (payAt p 1 1 == 0 && payAt p 4 2 != 0) || (payAt p 1 1 == 1 && payAt p 2 1 != 0)
    || (!low && payAt p 13 1 == 0 && payAt p 15 2 != 0) || (!low && payAt p 13 1 == 1 && payAt p 14 1 != 0)

/-- Whether an argument of a binding is out of range. -/
def bindRange (p : Nat) : Bool :=
  let ch := payAt p 0 1
  decide (10 < ch) || decide (1 < payAt p 1 1) || !(bindLoc p).ok
    || (decide (8 ≤ ch) && (decide (1 < payAt p 13 1) || !(bindRem p).ok || (bindRem p).die != chDie (bindLoc p).die ch))

/-- Whether two local ends are the same team. -/
def sameEnd (a b : ChEnd) : Bool :=
  a.rect == b.rect && a.die == b.die && (if a.rect then a.x0 == b.x0 && a.y0 == b.y0 && a.lw == b.lw && a.lh == b.lh else a.stage == b.stage)

/-- Whether a context's team has a binding for a channel already (R371). -/
def hasBind (s : State) (x : BitVec 3) (ch : Nat) (e : ChEnd) : Bool :=
  s.binds.any fun p => p.2.ctx == x && p.2.ch.val == ch && sameEnd p.2.loc e

/-- Stores a binding (R371): with BND clear where its shapes disagree or its port is full. -/
def bindRun (e : Nat) (s : State) : State :=
  let p := payload s (mcArg e 0) 32
  if h : payAt p 0 1 < 11 then
    let b : Binding := { ctx := mcX e, ch := ⟨payAt p 0 1, h⟩, loc := bindLoc p,
                         rem := if payAt p 0 1 < 8 then {} else bindRem p, remNum := BitVec.ofNat 32 (payAt p 8 4) }
    let full := decide (64 ≤ (s.binds.filter fun q => q.2.port == b.port).length)
    let shape := decide (8 ≤ b.ch.val) && !(b.loc.lw == b.rem.lw && b.loc.lh == b.rem.lh)
    let n := s.bindNext
    mcComplete (if full || shape then 2 else 0) (BitVec.ofNat 64 n)
      { s with binds := tabSet s.binds n { b with refused := full || shape }, bindNext := n + 1 }
  else mcComplete 2 0 s

/-- BIND (R371, R449). -/
def execBind (s : State) : Out :=
  command (isOpc 6)
    (fun s e =>
      let p := payload s (mcArg e 0) 32
      (1, bindResv p) :: needCtx s e ++ [(3, s.ctxBusy (mcCtx e)), (2, bindRange p), (2, hasBind s (mcX e) (payAt p 0 1) (bindLoc p))])
    bindRun s

/-- UNBIND (R371). -/
def execUnbind (s : State) : Out :=
  command (isOpc 7)
    (fun s e => needCtx s e ++
      [(3, s.ctxBusy (mcCtx e)), (2, !(match tabGet? s.binds (mcArg e 0) with
        | some b => b.ctx == mcX e
        | none => false))])
    (done fun e s => { s with binds := tabErase s.binds (mcArg e 0) }) s

/-- The group entry that a payload describes (R377, R449). -/
def groupOf (p : Nat) : Group :=
  { n := payAt p 0 2, member := payAt p 2 2, wide := bitOf (payAt p 4 1) 0, west := payAt p 8 4, east := payAt p 12 4,
    torus := (rangeFrom 0 6).map fun k => payAt p (16 + 4 * k) 4,
    paths := (rangeFrom 0 (min 8 (payAt p 40 1))).map fun k => payAt p (48 + 2 * k) 2 }

/-- GROUP_WRITE (R377). -/
def execGroupWrite (s : State) : Out :=
  command (isOpc 8)
    (fun s e =>
      let p := payload s (mcArg e 1) 64
      let g := groupOf p
      (1, payAt p 4 1 / 2 != 0 || payAt p 5 3 != 0 || payAt p 41 7 != 0) :: needCtx s e ++
        [(2, decide (63 < mcArg e 0 ∨ g.n < 2 ∨ 4096 < g.n ∨ g.n ≤ g.member ∨ 8 < payAt p 40 1) || g.paths.any fun n => decide (1023 < n))])
    (done fun e s => s.modCtx (mcCtx e) fun c => { c with groups := tabSet c.groups (mcArg e 0) (groupOf (payload s (mcArg e 1) 64)) }) s

/-- PATH_DEFINE (R438): the word is written with VALID set and ATT clear, in place of what an earlier event was still to write there. -/
def execPathDefine (s : State) : Out :=
  command (isOpc 9)
    (fun s e => [(1, payAt (payload s (mcArg e 1) 8) 1 7 != 0),
                 (2, decide (1023 < mcArg e 0 ∨ 8 < payAt (payload s (mcArg e 1) 8) 0 1))])
    (done fun e s =>
      let p := payload s (mcArg e 1) 72
      let d : PathDef := { switches := (rangeFrom 0 (min 8 (payAt p 0 1))).map fun k => BitVec.ofNat 64 (payAt p (8 + 8 * k) 8) }
      s.modCart fun c => { c with paths := tabSet c.paths (mcArg e 0) d, epoch := c.epoch + 1, toWrite := c.toWrite.filter (· != mcArg e 0) }) s

/-- PATH_REMOVE (R438). -/
def execPathRemove (s : State) : Out :=
  command (isOpc 0xA) (fun s e => [(2, (tabGet? s.cart.paths (mcArg e 0)).isNone)])
    (done fun e s => s.modCart fun c => { c with paths := tabErase c.paths (mcArg e 0), epoch := c.epoch + 1, toWrite := c.toWrite.filter (· != mcArg e 0) }) s

/-! ### TLBs and weight versions -/

/-- The log2 of a page size, if it is one (R347). -/
def pageLg (n : Nat) : Option Nat :=
  if n = 2 ^ 16 then some 16 else if n = 2 ^ 21 then some 21 else if n = 2 ^ 30 then some 30 else none

/-- Whether an invalidation covers a TLB entry (R350). -/
def TlbEnt.coveredBy (t : TlbEnt) (x : BitVec 3) (va : Option Nat) (lg : Nat) : Bool :=
  t.ctx == x && match va with
    | none => true
    | some v =>
      let lo := v / 2 ^ lg * 2 ^ lg
      decide (t.vpn * 2 ^ t.lg < lo + 2 ^ lg ∧ lo < (t.vpn + 1) * 2 ^ t.lg)

/-- Drops the covered entries of every TLB. -/
def dropTlbs (x : BitVec 3) (va : Option Nat) (lg : Nat) (s : State) : State :=
  let keep (l : List TlbEnt) : List TlbEnt := l.filter fun t => !t.coveredBy x va lg
  { s with
    cores := s.cores.map fun (i, c) => (i, { c with tlb := keep c.tlb, etlb0 := keep c.etlb0, etlb1 := keep c.etlb1 })
    dies := s.dies.map fun (d, k) => (d, { k with tlb := keep k.tlb, stTlb := keep k.stTlb, coTlb := keep k.coTlb }) }

/-- TLB_INVAL (R350): the entries are dropped; the command completes when every access translated with them has been performed. -/
def execTlbInval (s : State) : Out :=
  command (isOpc 0xB)
    (fun s e => needCtx s e ++ [(2, mcArg e 0 != ones64 && ((pageLg (mcArg e 1)).isNone || decide (2 ^ 48 ≤ mcArg e 0)))])
    (fun e s =>
      let va := if mcArg e 0 = ones64 then none else some (mcArg e 0)
      let lg := (pageLg (mcArg e 1)).getD 16
      let s1 := dropTlbs (mcX e) va lg s
      { s1 with mc := { s1.mc with wait := some (.inval (mcX e) va lg) } }) s

/-- Whether accesses of a context that have been translated are still to be performed. -/
def State.ctxAccesses (s : State) (x : Nat) : Bool :=
  s.home.any (fun r => s.coreIn x r.core) || s.scHeld.any (fun r => s.coreIn x r.core)
    || s.cores.any fun p => s.coreIn x p.1 && p.2.accPending

/-- TLB_INVAL_COMPLETE (R350). -/
def execTlbInvalComplete (x : CtxId) (s : State) : Out :=
  match s.mc.wait with
  | some (.inval y _ _) => if y.toNat ≠ x.val ∨ s.ctxAccesses x then .next s else .next (mcComplete 0 0 s)
  | _ => .next s

/-- WV_SET (R257, R335, R450): busy, whatever its arguments, while a team whose entry resolved the tensor on the die is dispatched. -/
def execWvSet (s : State) : Out :=
  command (isOpc 0xC)
    (fun s e => [(1, mcArg e 2 / 2 ^ 10 != 0 || bitsOf (mcArg e 2) 7 2 != 0),
      (3, s.teams.any fun p => p.2.die == mcArg e 0 && (tabGet? p.2.wver (mcArg e 1)).isSome), badDie e,
      (2, decide (4095 < mcArg e 1) || bitsOf (mcArg e 2) 9 8 == 3 || mcArg e 3 % 2 ^ 18 != 0 || decide (2 ^ 31 < mcArg e 3 + mcArg e 4))])
    (done fun e s => s.modDie (mcArg e 0) fun d =>
      let k := 4 * mcArg e 1 + mcArg e 2 % 4
      let st := bitsOf (mcArg e 2) 9 8
      let v : WVer := { st := BitVec.ofNat 2 (st - 1), base := mcArg e 3, len := mcArg e 4 }
      { d with wdir := if st = 0 then tabErase d.wdir k else tabSet d.wdir k v }) s

/-! ### Stopping and resuming -/

/-- The running team that a STOP names. -/
def stopTeam (s : State) (e : Nat) : Option Team :=
  let a := mcArg e 1
  (s.teams.find? fun p =>
    p.2.ctx == mcX e && p.2.die == mcArg e 0 &&
      if bitOf a 63 then p.2.kind != 3 && p.2.stage.toNat == a % 256
      else p.2.kind == 3 && p.2.x0 == a % 256 && p.2.y0 == bitsOf a 15 8 && p.2.lw == bitsOf a 19 16 && p.2.lh == bitsOf a 23 20).map (·.2)

/-- What STOP does with a running team: it joins a request in force, makes one, or finds no place or slot. -/
def stopRun (e : Nat) (s : State) : State :=
  match stopTeam s e with
  | none => mcComplete 0 (BitVec.allOnes 64) s
  | some t =>
    let wait (s : State) : State := { s with mc := { s.mc with wait := some (.stop t.origin) } }
    match t.stop with
    | some r => wait { s with teams := tabSet s.teams t.origin { t with stop := some { r with bySoft := true } } }
    | none =>
      match stopRoom s t with
      | none => mcComplete 4 0 s
      | some k => wait (requestStop t true k s)

/-- Whether a bit of A1 that STOP gives no meaning is set (R449). -/
def stopResv (a : Nat) : Bool := if bitOf a 63 then bitsOf a 62 8 != 0 else a / 2 ^ 24 != 0

/-- STOP (R360, R362). -/
def execStop (s : State) : Out := command (isOpc 0x10) (fun s e => (1, stopResv (mcArg e 1)) :: needCtx s e ++ [badDie e]) stopRun s

/-- The suspended entry of a save slot. -/
def suspAt (s : State) (x : BitVec 3) (slot : Nat) : Option Susp :=
  (rangeFrom 0 4).findSome? fun d => (s.die d).susp.find? fun e => e.team.ctx == x && e.slot == slot

/-- RESUME (R367, R368). -/
def execResume (s : State) : Out :=
  command (isOpc 0x11)
    (fun s e => (1, mcArg e 2 / 2 ^ 16 != 0) :: needCtx s e ++
      [(2, (suspAt s (mcX e) (mcArg e 0)).isNone || decide (3 < mcArg e 1)),
       (7, !s.ownJob (mcCtx e)),
       (6, match suspAt s (mcX e) (mcArg e 0) with
        | some p => !resumeOk s p (mcArg e 1) (mcArg e 2 % 256) (bitsOf (mcArg e 2) 15 8)
        | none => false)])
    (fun e s => match suspAt s (mcX e) (mcArg e 0) with
      | some p =>
        let x0 := mcArg e 2 % 256
        let y0 := bitsOf (mcArg e 2) 15 8
        let r := tableReady (p.placed (mcArg e 1) x0 y0) s
        if r.ok then mcComplete 0 0 (resumeTeam p (mcArg e 1) x0 y0 r.st) else r.st
      | none => mcComplete 0 0 s) s

/-! ### Faults and purges -/

/-- FATAL (R418). -/
def execFatal (s : State) : Out :=
  command (isOpc 0x12) needCtx (done fun e s =>
    contain (mcCtx e) 0 { seq := 0, src := 11, ctx := BitVec.ofNat 8 (mcCtx e), unit := 0xFFFF, cause := Config.unitCode 11 } s) s

/-- ABORT_CLOSE (R419). -/
def execAbortClose (s : State) : Out :=
  command (isOpc 0x13) needCtx (setCtx fun _ c => { c with abp := false, adone := false, fatal := false, epGroup := none, heard := [] }) s

/-- Whether a team is frozen. -/
def State.teamFrozen (s : State) (t : Team) : Bool := t.cores.any fun i => (s.core i).run == .frozen || (s.core i).run == .double

/-- The record of an entry that goes retires. -/
def dropRecord (t : Team) (s : State) : State :=
  match t.recId with
  | some id => if t.retired && !(s.die t.die).gzRet.contains id then s else retireRecord t id s
  | none => s

/-- What the stash engine was doing for a core that is discarded ends: a put whose source it has not read leaves no entry (R421). -/
def dropJobs (i : Nat) (s : State) : State :=
  s.modDie (coreDie i) fun x =>
    let mine := x.jobs.filter fun j => j.core == i
    let y := mine.foldl (fun x j => if j.op == .put && j.moving then x.dropEntry j else x) x
    { y with jobs := y.jobs.filter fun j => j.core != i }

/-- DISCARD (R449): the frozen teams and the suspended entries of a context go, and their current records retire. -/
def discardCtx (x : Nat) (s : State) : State :=
  let ts := (s.teams.map (·.2)).filter fun t => t.ctx.toNat == x && s.teamFrozen t
  let s1 := ts.foldl (fun s t => wakeStage t (dropTeam t (t.cores.foldl (fun s i => dropJobs i s) (dropRecord t s)))) s
  (rangeFrom 0 4).foldl (fun s d =>
    let es := (s.die d).susp.filter fun e => e.team.ctx.toNat == x
    (es.foldl (fun s e => wakeStage e.team (dropRecord e.team s)) s).modDie d fun k =>
      { k with susp := k.susp.filter (fun e => e.team.ctx.toNat != x), regCols := k.regCols.filter fun r => r.team.ctx.toNat != x }) s1

/-- See `discardCtx`. -/
def execDiscard (s : State) : Out := command (isOpc 0x14) needCtx (done fun e => discardCtx (mcCtx e)) s

/-- GZ_PURGE (R297): a registered stage refuses it. -/
def execGzPurge (s : State) : Out :=
  command (isOpc 0x15) (fun s e => [badDie e, (2, decide (255 < mcArg e 1) || (s.die (mcArg e 0)).hasStage (BitVec.ofNat 8 (mcArg e 1)))])
    (done fun e s => s.modDie (mcArg e 0) fun d =>
      { d with gz := d.gz.filter fun g => !(g.st == .waiting && (keyStage g.key).toNat == mcArg e 1) }) s

/-- STASH_PURGE (R449). -/
def execStashPurge (s : State) : Out :=
  command (isOpc 0x16) (fun s e => needCtx s e ++ [badDie e, (2, decide (255 < mcArg e 1))])
    (done fun e s => s.modDie (mcArg e 0) fun d =>
      { d with stash := d.stash.filter fun k => !(k.ctx == mcX e && k.stage.toNat == mcArg e 1) }.dueStage (BitVec.ofNat 8 (mcArg e 1))) s

/-- LOCK_PURGE (R342). -/
def execLockPurge (s : State) : Out :=
  command (isOpc 0x17) needCtx
    (done fun e s => { s with l2 := s.l2.map fun l => { l with locks := l.locks.filter (· != mcX e) } }) s

/-! ### Logs -/

/-- The 32 bytes of a fault-log record (R414). -/
def FaultRec.bytes (r : FaultRec) : List Byte :=
  natBytes 4 r.seq.toNat ++ [r.src, r.ctx, r.flags, 0] ++ natBytes 2 r.unit.toNat ++ natBytes 2 r.cause.toNat
    ++ natBytes 4 r.info.toNat ++ wordBytes r.addr ++ wordBytes r.time

/-- FLOG_READ (R414): stored records from a number on. -/
def execFlogRead (s : State) : Out :=
  command (isOpc 0x18) (fun _ e => [badDie e])
    (fun e s =>
      let d := s.die (mcArg e 0)
      let l := (d.flog.filter fun r => decide (mcArg e 1 ≤ r.seq.toNat)).take (mcArg e 2)
      mcComplete 0 (d.flost.setWidth 64) (hostWrite (mcArg e 3) (l.flatMap (·.bytes)) s)) s

/-- FLOG_CLEAR (R414). -/
def execFlogClear (s : State) : Out :=
  command (isOpc 0x19) (fun _ e => [badDie e]) (done fun e s => s.modDie (mcArg e 0) fun d => { d with flog := [], flost := 0 }) s

/-- The Survey record that an entry names. -/
def surveyAt (s : State) (e : Nat) : Option SurveyRec :=
  if mcArg e 0 = ones64 then s.survey.recs.getLast? else s.survey.recs.find? fun r => r.seq == mcArg e 0

/-- SURVEY_READ (R446). -/
def execSurveyRead (s : State) : Out :=
  command (isOpc 0x1A) (fun s e => [(2, (surveyAt s e).isNone)])
    (fun e s => match surveyAt s e with
      | some r => mcComplete 0 (if s.survey.full then 1 else 0) (hostWrite (mcArg e 1) r.bytes s)
      | none => mcComplete 2 0 s) s

/-- SURVEY_SNAPSHOT (R446): signed like a record of kind 1, and not appended. -/
def execSurveySnapshot (s : State) : Out :=
  command (isOpc 0x1B) (fun _ _ => [])
    (done fun e s =>
      let (r, s1) := makeRec 1 s
      hostWrite (mcArg e 0) r.bytes s1) s

/-! ### Power and ports -/

/-- ISL_FREQ (R440): 0.6 to 3.2 GHz in steps of 50 MHz. -/
def execIslFreq (s : State) : Out :=
  command (isOpc 0x20)
    (fun _ e => [(2, !(decide (mcArg e 0 < 128) || mcArg e 0 == ones64)
      || decide (mcArg e 1 < 600 ∨ 3200 < mcArg e 1) || mcArg e 1 % 50 != 0)])
    (done fun e s =>
      let put (s : State) (i : Nat) : State := s.modIsland i fun x => { x with req := mcArg e 1 }
      if mcArg e 0 = ones64 then (rangeFrom 0 128).foldl put s else put s (mcArg e 0)) s

/-- PLIM_SET (R442). -/
def execPlimSet (s : State) : Out :=
  command (isOpc 0x21) (fun _ e => [(2, decide (mcArg e 0 < 2000 ∨ 8000 < mcArg e 0))]) (done fun e s => { s with plim := mcArg e 0 }) s

/-- Whether a port has no such item: ring items belong to the ring ports 6 and 7, the others to ports 0..7. -/
def badPort (ring : Bool) (e : Nat) : Nat × Bool := (2, decide (7 < mcArg e 0) || (ring && decide (mcArg e 0 < 6)))

/-- An item of PORT_SET. -/
def portSet (item : Nat) (ring : Bool) (bad : Nat → Bool) (f : Nat → PortSt → PortSt) (s : State) : Out :=
  command (isPortSet item) (fun _ e => [badPort ring e, (2, bad e)]) (done fun e s => s.modPort (mcArg e 0) (f e)) s

/-- PORT_SET item 1 (R374). -/
def execPortSetRingMode (s : State) : Out :=
  portSet 1 true (fun e => decide (1 < mcArg e 2)) (fun e p => { p with wide := mcArg e 2 == 1 }) s

/-- PORT_SET item 2 (R374). -/
def execPortSetUdpPort (s : State) : Out :=
  portSet 2 true (fun e => decide (65535 < mcArg e 2)) (fun e p => { p with udp := BitVec.ofNat 64 (mcArg e 2) }) s

/-- PORT_SET item 3 (R374): up to 1 s. -/
def execPortSetRttTimer (s : State) : Out :=
  portSet 3 true (fun e => decide (1000000 < mcArg e 2)) (fun e p => { p with rtt := BitVec.ofNat 64 (mcArg e 2) }) s

/-- PORT_SET item 4 (R432). -/
def execPortSetRekeyInterval (s : State) : Out :=
  portSet 4 false (fun e => mcArg e 2 == 0 || decide (2 ^ 32 < mcArg e 2)) (fun e p => { p with interval := BitVec.ofNat 64 (mcArg e 2) }) s

/-- PORT_SET item 5 (R381): up to 4 GiB of HBM4E. -/
def execPortSetOverflowStaging (s : State) : Out :=
  portSet 5 true (fun e => decide (2 ^ 32 < mcArg e 3) || !inHbm (mcArg e 2) (mcArg e 3))
    (fun e p => { p with ovBase := BitVec.ofNat 64 (mcArg e 2), ovSize := BitVec.ofNat 64 (mcArg e 3) }) s

/-- PORT_SET item 6 (R436): 1..60 s. -/
def execPortSetHeartbeat (s : State) : Out :=
  portSet 6 false (fun e => mcArg e 2 == 0 || decide (60 < mcArg e 2)) (fun e p => { p with hbeat := BitVec.ofNat 64 (mcArg e 2) }) s

/-- LINK_RESET (R373): a link that is down retrains. -/
def execLinkReset (s : State) : Out :=
  command (isOpc 0x23) (fun _ e => [(2, decide (13 < mcArg e 0))])
    (done fun e s => if (s.port (mcArg e 0)).down then startRetrain (mcArg e 0) s else s) s

/-- A module reset by command: the ring's registers keep their values, and the command waits for ready. -/
def resetByCommand (s : State) : State := { moduleReset s with mc := { s.mc with wait := some .reset, boot := some 1, failed := none } }

/-- MODULE_RESET (R444, R449): it completes after ready. A request that comes while its bring-up runs, or after that has failed, restarts it at step 1. -/
def execModuleReset (s : State) : Out :=
  if s.mc.wait = some .reset then .next (resetByCommand s) else command (isOpc 0x30) (fun _ _ => []) (fun _ => resetByCommand) s

end Sys2Proof.Machine
end

