-- ==== Sys2Proof/Machine/Scalar.lean ====
section
/-! DEFINITION. The scalar arithmetic of slot S (R54, R131 to R133), its moves and latch writes (R39, R40). -/
namespace Sys2Proof.Machine

/-! ### Results -/

/-- A truth value as 0 or 1. -/
def bool64 (b : Bool) : Word := if b then 1 else 0

/-- Bits 127:64 of the signed product (R132). -/
def mulhS (a b : Word) : Word := BitVec.ofInt 64 (a.toInt * b.toInt / 2 ^ 64)
/-- Bits 127:64 of the natural product (R132). -/
def mulhU (a b : Word) : Word := BitVec.ofNat 64 (a.toNat * b.toNat / 2 ^ 64)
/-- The signed quotient, truncated toward zero; all ones for a divisor of 0; -2^63 by -1 wraps to itself (R132). -/
def divS (a b : Word) : Word := if b = 0 then BitVec.allOnes 64 else BitVec.ofInt 64 (a.toInt.tdiv b.toInt)
/-- The natural quotient; all ones for a divisor of 0 (R132). -/
def divU (a b : Word) : Word := if b = 0 then BitVec.allOnes 64 else BitVec.ofNat 64 (a.toNat / b.toNat)
/-- The number of leading zero bits, 64 for zero (R133). -/
def clz64 (a : Word) : Word := BitVec.ofNat 64 (64 - bitLen a.toNat)
/-- The number of set bits (R133). -/
def popc64 (a : Word) : Word := BitVec.ofNat 64 ((rangeFrom 0 64).filter fun i => a.getLsbD i).length

/-- A scalar operation of one source that pushes its result after `lat` cycles (R108). -/
def scalar1 (lat : Nat) (f : Word → Word) (a : Src) (s : State) : Out :=
  runSlot 1 (gateSrc s a) (fun t => t.upd fun c => (c.pushSq lat (f (readSrc t a))).drawIf (srcDraws a)) s

/-- A scalar operation of two sources. -/
def scalar2 (lat : Nat) (f : Word → Word → Word) (a b : Src) (s : State) : Out :=
  runSlot 1 ((gateSrc s a).and (gateSrc s b))
    (fun t => t.upd fun c => (c.pushSq lat (f (readSrc t a) (readSrc t b))).drawIf (srcDraws a || srcDraws b)) s

/-- (a + b) mod 2^64 (R132). -/
def execAddI64 (a b : Src) (s : State) : Out := scalar2 1 (fun a b => a + b) a b s

/-- (a - b) mod 2^64 (R132). -/
def execSubI64 (a b : Src) (s : State) : Out := scalar2 1 (fun a b => a - b) a b s

/-- (a · b) mod 2^64 (R132). -/
def execMulI64 (a b : Src) (s : State) : Out := scalar2 3 (fun a b => a * b) a b s

/-- bits 127:64 of the signed product (R132). -/
def execMulhI64 (a b : Src) (s : State) : Out := scalar2 3 (fun a b => mulhS a b) a b s

/-- bits 127:64 of the natural product (R132). -/
def execMulhN64 (a b : Src) (s : State) : Out := scalar2 3 (fun a b => mulhU a b) a b s

/-- the signed quotient (R132). -/
def execDivI64 (a b : Src) (s : State) : Out := scalar2 34 (fun a b => divS a b) a b s

/-- the natural quotient (R132). -/
def execDivN64 (a b : Src) (s : State) : Out := scalar2 34 (fun a b => divU a b) a b s

/-- bitwise and (R132). -/
def execSAnd (a b : Src) (s : State) : Out := scalar2 1 (fun a b => a &&& b) a b s

/-- bitwise or (R132). -/
def execSOr (a b : Src) (s : State) : Out := scalar2 1 (fun a b => a ||| b) a b s

/-- bitwise exclusive or (R132). -/
def execSXor (a b : Src) (s : State) : Out := scalar2 1 (fun a b => a ^^^ b) a b s

/-- a and not b (R132). -/
def execSAndn (a b : Src) (s : State) : Out := scalar2 1 (fun a b => a &&& ~~~b) a b s

/-- a shifted left by the low six bits of b (R132). -/
def execSShl (a b : Src) (s : State) : Out := scalar2 1 (fun a b => a <<< (b.toNat % 64)) a b s

/-- a shifted right with zeros (R132). -/
def execShrN64 (a b : Src) (s : State) : Out := scalar2 1 (fun a b => a >>> (b.toNat % 64)) a b s

/-- a shifted right with copies of bit 63 (R132). -/
def execShrI64 (a b : Src) (s : State) : Out := scalar2 1 (fun a b => a.sshiftRight (b.toNat % 64)) a b s

/-- a rotated left (R132). -/
def execRotl (a b : Src) (s : State) : Out := scalar2 1 (fun a b => a.rotateLeft (b.toNat % 64)) a b s

/-- the smaller, signed (R132). -/
def execMinI64 (a b : Src) (s : State) : Out := scalar2 1 (fun a b => if b.toInt < a.toInt then b else a) a b s

/-- the smaller, natural (R132). -/
def execMinN64 (a b : Src) (s : State) : Out := scalar2 1 (fun a b => if b.toNat < a.toNat then b else a) a b s

/-- the larger, signed (R132). -/
def execMaxI64 (a b : Src) (s : State) : Out := scalar2 1 (fun a b => if a.toInt < b.toInt then b else a) a b s

/-- the larger, natural (R132). -/
def execMaxN64 (a b : Src) (s : State) : Out := scalar2 1 (fun a b => if a.toNat < b.toNat then b else a) a b s

/-- 1 if equal (R132). -/
def execCeq (a b : Src) (s : State) : Out := scalar2 1 (fun a b => bool64 (a == b)) a b s

/-- 1 if different (R132). -/
def execCne (a b : Src) (s : State) : Out := scalar2 1 (fun a b => bool64 (a != b)) a b s

/-- 1 if less, signed (R132). -/
def execCltI64 (a b : Src) (s : State) : Out := scalar2 1 (fun a b => bool64 (decide (a.toInt < b.toInt))) a b s

/-- 1 if less, natural (R132). -/
def execCltN64 (a b : Src) (s : State) : Out := scalar2 1 (fun a b => bool64 (decide (a.toNat < b.toNat))) a b s

/-- 1 if less or equal, signed (R132). -/
def execCleI64 (a b : Src) (s : State) : Out := scalar2 1 (fun a b => bool64 (decide (a.toInt ≤ b.toInt))) a b s

/-- 1 if less or equal, natural (R132). -/
def execCleN64 (a b : Src) (s : State) : Out := scalar2 1 (fun a b => bool64 (decide (a.toNat ≤ b.toNat))) a b s

/-- R133. -/
def execClz (a : Src) (s : State) : Out := scalar1 1 clz64 a s

/-- R133. -/
def execPopc (a : Src) (s : State) : Out := scalar1 1 popc64 a s

/-- R131. -/
def execSMov (a : Src) (s : State) : Out := scalar1 1 id a s

/-- R131: a if latch A is non-zero, and b otherwise. -/
def execSSel (a b : Src) (s : State) : Out :=
  scalar2 1 (fun x y => if s.me.bank.lat.sA ≠ 0 then x else y) a b s

/-- R54. -/
def execLi (imm : BitVec 16) (s : State) : Out :=
  runSlot 1 {} (fun t => t.upd fun c => c.pushSq 1 (imm.signExtend 64)) s

/-- R54: sq0 as the group began, shifted left by 16, or the literal. -/
def execLih (imm : BitVec 16) (s : State) : Out :=
  runSlot 1 (gateSq s.me 0) (fun t => t.upd fun c => c.pushSq 1 (((c.sqAt 0).val <<< 16) ||| imm.setWidth 64)) s

/-! ### Latch writes and moves -/

/-- R39. -/
def execSLatA (a : Src) (s : State) : Out :=
  runSlot 1 (gateSrc s a)
    (fun t => t.upd fun c => (c.modLat fun l => { l with sA := readSrc t a }).drawIf (srcDraws a)) s

/-- R39. -/
def execSLatAb (a b : Src) (s : State) : Out :=
  runSlot 1 ((gateSrc s a).and (gateSrc s b))
    (fun t => t.upd fun c =>
      (c.modLat fun l => { l with sA := readSrc t a, sB := readSrc t b }).drawIf (srcDraws a || srcDraws b)) s

/-- R40: held while the register is scoreboarded. -/
def execMovG (n : Fin 16) (a : Src) (s : State) : Out :=
  runSlot 1 ((gateSrc s a).and (gateWG s.me n)) (fun t => t.upd fun c => (c.setG n (readSrc t a)).drawIf (srcDraws a)) s

/-- R40: all 64 bits. -/
def execSMovP (n : Fin 8) (a : Src) (s : State) : Out :=
  runSlot 1 (gateSrc s a) (fun t => t.upd fun c => (c.setP n (readSrc t a)).drawIf (srcDraws a)) s

end Sys2Proof.Machine
end

