-- ==== Sys2Proof/Machine/Slot.lean ====
section
/-! DEFINITION. The slot operations, dispatched for the issue of a group (R24, R26): for a slot operation the same meaning
as `exec`. -/
namespace Sys2Proof.Machine

/-- What a slot operation does; an event is no slot operation and does nothing here. -/
def execSlot (i : Instr) (s : State) : Out :=
  match i with
  | .nop => execNop s
  | .br d => execBr d s
  | .bz d => execBz d s
  | .bnz d => execBnz d s
  | .call d => execCall d s
  | .ret a => execRet a s
  | .jr a => execJr a s
  | .loop a => execLoop a s
  | .loopn a => execLoopn a s
  | .waitLt k b => execWaitLt k b s
  | .waitBar a b => execWaitBar a b s
  | .waitWake => execWaitWake s
  | .halt => execHalt s
  | .trap code => execTrap code s
  | .sysret => execSysret s
  | .fence sc => execFence sc s
  | .sbar rd wr mem => execSbar rd wr mem s
  | .ckpt a => execCkpt a s
  | .nextTile => execNextTile s
  | .launch a => execLaunch a s
  | .sysrd w => execSysrd w s
  | .syswr w b => execSyswr w b s
  | .li imm => execLi imm s
  | .lih imm => execLih imm s
  | .sMov a => execSMov a s
  | .sSel a b => execSSel a b s
  | .addI64 a b => execAddI64 a b s
  | .subI64 a b => execSubI64 a b s
  | .mulI64 a b => execMulI64 a b s
  | .mulhI64 a b => execMulhI64 a b s
  | .mulhN64 a b => execMulhN64 a b s
  | .divI64 a b => execDivI64 a b s
  | .divN64 a b => execDivN64 a b s
  | .sAnd a b => execSAnd a b s
  | .sOr a b => execSOr a b s
  | .sXor a b => execSXor a b s
  | .sAndn a b => execSAndn a b s
  | .sShl a b => execSShl a b s
  | .shrN64 a b => execShrN64 a b s
  | .shrI64 a b => execShrI64 a b s
  | .rotl a b => execRotl a b s
  | .clz a => execClz a s
  | .popc a => execPopc a s
  | .minI64 a b => execMinI64 a b s
  | .minN64 a b => execMinN64 a b s
  | .maxI64 a b => execMaxI64 a b s
  | .maxN64 a b => execMaxN64 a b s
  | .ceq a b => execCeq a b s
  | .cne a b => execCne a b s
  | .cltI64 a b => execCltI64 a b s
  | .cltN64 a b => execCltN64 a b s
  | .cleI64 a b => execCleI64 a b s
  | .cleN64 a b => execCleN64 a b s
  | .st w a b inc => execSt w a b inc s
  | .amoAddI64 o a r => execAmoAddI64 o a r s
  | .amoAnd o a r => execAmoAnd o a r s
  | .amoOr o a r => execAmoOr o a r s
  | .amoXor o a r => execAmoXor o a r s
  | .amoMinI64 o a r => execAmoMinI64 o a r s
  | .amoMaxI64 o a r => execAmoMaxI64 o a r s
  | .amoMinN64 o a r => execAmoMinN64 o a r s
  | .amoMaxN64 o a r => execAmoMaxN64 o a r s
  | .amoSwap o a r => execAmoSwap o a r s
  | .amoCas o a r => execAmoCas o a r s
  | .amoFaddF32 o a r => execAmoFaddF32 o a r s
  | .lockL2 a b => execLockL2 a b s
  | .unlockL2 a b => execUnlockL2 a b s
  | .pref a => execPref a s
  | .ldI8 n a b inc => execLdI8 n a b inc s
  | .ldN8 n a b inc => execLdN8 n a b inc s
  | .ldI16 n a b inc => execLdI16 n a b inc s
  | .ldN16 n a b inc => execLdN16 n a b inc s
  | .ldI32 n a b inc => execLdI32 n a b inc s
  | .ldN32 n a b inc => execLdN32 n a b inc s
  | .ldN64 n a b inc => execLdN64 n a b inc s
  | .sLatA a => execSLatA a s
  | .sLatAb a b => execSLatAb a b s
  | .sMovP n a => execSMovP n a s
  | .movG n a => execMovG n a s
  | .addF32 u a b => execAddF32 u a b s
  | .addBf16 u a b => execAddBf16 u a b s
  | .addF16 u a b => execAddF16 u a b s
  | .subF32 u a b => execSubF32 u a b s
  | .subBf16 u a b => execSubBf16 u a b s
  | .subF16 u a b => execSubF16 u a b s
  | .mulF32 u a b => execMulF32 u a b s
  | .mulBf16 u a b => execMulBf16 u a b s
  | .mulF16 u a b => execMulF16 u a b s
  | .fmaF32 u a b => execFmaF32 u a b s
  | .fmaBf16 u a b => execFmaBf16 u a b s
  | .fmaF16 u a b => execFmaF16 u a b s
  | .minF32 u a b => execMinF32 u a b s
  | .minBf16 u a b => execMinBf16 u a b s
  | .minF16 u a b => execMinF16 u a b s
  | .maxF32 u a b => execMaxF32 u a b s
  | .maxBf16 u a b => execMaxBf16 u a b s
  | .maxF16 u a b => execMaxF16 u a b s
  | .rcpF32 u a => execRcpF32 u a s
  | .rsqrtF32 u a => execRsqrtF32 u a s
  | .exp2F32 u a => execExp2F32 u a s
  | .log2F32 u a => execLog2F32 u a s
  | .addI32 u a b => execAddI32 u a b s
  | .subI32 u a b => execSubI32 u a b s
  | .mulI32 u a b => execMulI32 u a b s
  | .addSatI32 u a b => execAddSatI32 u a b s
  | .subSatI32 u a b => execSubSatI32 u a b s
  | .minI32 u a b => execMinI32 u a b s
  | .minN32 u a b => execMinN32 u a b s
  | .maxI32 u a b => execMaxI32 u a b s
  | .maxN32 u a b => execMaxN32 u a b s
  | .vAnd u a b => execVAnd u a b s
  | .vOr u a b => execVOr u a b s
  | .vXor u a b => execVXor u a b s
  | .vAndn u a b => execVAndn u a b s
  | .vShl u a b => execVShl u a b s
  | .shrN32 u a b => execShrN32 u a b s
  | .shrI32 u a b => execShrI32 u a b s
  | .ceqF32 u a b => execCeqF32 u a b s
  | .cltF32 u a b => execCltF32 u a b s
  | .cleF32 u a b => execCleF32 u a b s
  | .ceqI32 u a b => execCeqI32 u a b s
  | .cltI32 u a b => execCltI32 u a b s
  | .cltN32 u a b => execCltN32 u a b s
  | .vSel u a b => execVSel u a b s
  | .vMov u a => execVMov u a s
  | .cvt u d a => execCvt u d a s
  | .cvtBf16F32Mode u a m sat => execCvtBf16F32Mode u a m sat s
  | .cvtF16F32Mode u a m sat => execCvtF16F32Mode u a m sat s
  | .cvtE4m3F32Mode u a m sat => execCvtE4m3F32Mode u a m sat s
  | .cvtE5m2F32Mode u a m sat => execCvtE5m2F32Mode u a m sat s
  | .cvtI32F32Mode u a m sat => execCvtI32F32Mode u a m sat s
  | .cvtI8F32Mode u a m sat => execCvtI8F32Mode u a m sat s
  | .cvtF32Bf16 u a => execCvtF32Bf16 u a s
  | .cvtF32F16 u a => execCvtF32F16 u a s
  | .cvtF32E4m3 u a => execCvtF32E4m3 u a s
  | .cvtF32E5m2 u a => execCvtF32E5m2 u a s
  | .cvtF32I32 u a => execCvtF32I32 u a s
  | .cvtF32I8 u a => execCvtF32I8 u a s
  | .packNx2 u a => execPackNx2 u a s
  | .packNx4 u a => execPackNx4 u a s
  | .packNx7 u a => execPackNx7 u a s
  | .packNx2Mode u a m sat => execPackNx2Mode u a m sat s
  | .packNx4Mode u a m sat => execPackNx4Mode u a m sat s
  | .packNx7Mode u a m sat => execPackNx7Mode u a m sat s
  | .unpkNx2 u a => execUnpkNx2 u a s
  | .unpkNx4 u a => execUnpkNx4 u a s
  | .unpkNx7 u a => execUnpkNx7 u a s
  | .redF32 u a op => execRedF32 u a op s
  | .redI32 u a op => execRedI32 u a op s
  | .scanF32 u a op ex => execScanF32 u a op ex s
  | .scanI32 u a op ex => execScanI32 u a op ex s
  | .perm u a ix => execPerm u a ix s
  | .vld u n a ix inc => execVld u n a ix inc s
  | .vldS u n a ix inc => execVldS u n a ix inc s
  | .vldX u n a ix => execVldX u n a ix s
  | .ldTr u n a ix inc => execLdTr u n a ix inc s
  | .bcast u a n => execBcast u a n s
  | .lrot u a n => execLrot u a n s
  | .vst u a ix inc => execVst u a ix inc s
  | .vstS u a ix inc => execVstS u a ix inc s
  | .vstX u a ix => execVstX u a ix s
  | .wrow u a sel => execWrow u a sel s
  | .vLatA u a => execVLatA u a s
  | .vLatAb u a b => execVLatAb u a b s
  | .vMovP u n a => execVMovP u n a s
  | .movV u n a => execMovV u n a s
  | .oclaim n => execOclaim n s
  | .orel n => execOrel n s
  | .azero n => execAzero n s
  | .ascale n b => execAscale n b s
  | .apin n => execApin n s
  | .aunpin n => execAunpin n s
  | .adrain n q => execAdrain n q s
  | .astat n => execAstat n s
  | .mma f n a b => execMma f n a b s
  | .mmz f n a b => execMmz f n a b s
  | .ato f m sat o n => execAto f m sat o n s
  | .mckLatA u a => execMckLatA u a s
  | .mckLatAb u a b => execMckLatAb u a b s
  | .cpNest e a => execCpNest e a s
  | .cpMcast e a => execCpMcast e a s
  | .cbClaim e n b => execCbClaim e n b s
  | .cbCommit e n b => execCbCommit e n b s
  | .cbAwait e n b => execCbAwait e n b s
  | .cbRetire e n b => execCbRetire e n b s
  | .barInit e a b => execBarInit e a b s
  | .barArriveRel e a b => execBarArriveRel e a b s
  | .barArriveRlx e a b => execBarArriveRlx e a b s
  | .barDrop e a => execBarDrop e a s
  | .barTest e a => execBarTest e a s
  | .kSet e n b => execKSet e n b s
  | .kAdd e n b => execKAdd e n b s
  | .wkArm e w a b => execWkArm e w a b s
  | .wkDisarm e w => execWkDisarm e w s
  | .stashPut e a b => execStashPut e a b s
  | .stashGet e a b => execStashGet e a b s
  | .stashPf e a b => execStashPf e a b s
  | .stashDrop e a b => execStashDrop e a b s
  | .stashFree e a b => execStashFree e a b s
  | .wvCommit e a b => execWvCommit e a b s
  | .send c a => execSend c a s
  | .sendM c a => execSendM c a s
  | .chwin c b => execChwin c b s
  | .colGo a => execColGo a s
  | .colAbort a => execColAbort a s
  | .gzPut a b => execGzPut a b s
  | .gzDone a => execGzDone a s
  | .trustQ a => execTrustQ a s
  | .recvV n c => execRecvV n c s
  | .recvG n c => execRecvG n c s
  | .gzRd n a => execGzRd n a s
  | .recvaddF32 n c => execRecvaddF32 n c s
  | _ => .next s

end Sys2Proof.Machine
end

