-- ==== Sys2Proof/Machine/Pipe.lean ====
section
/-! DEFINITION. How a core runs its bundles (R14 to R36, R110, R114 to R117, R122 to R124, R303, R354 to R361): fetch, decode, the issue
of a group, acceptance of a deferred slot, completion, and the watchdog. -/
namespace Sys2Proof.Machine

/-- Something that core `i` does. -/
def onCore (i : Nat) (f : State → State) (s : State) : State := { f { s with cur := i } with cur := s.cur }

/-! ### Fetch and decode -/

/-- What a core finds when it fetches: what it waits for, the fault of the fetch, or the bytes. -/
inductive FetchNow where
  | waits (w : ReadWait)
  | fault (f : TFault)
  | bytes (l : List Byte)
  deriving DecidableEq, Repr

/-- The fetch of the bundle at core `i`'s pc: its header first, which gives its length. -/
def fetchNow (s : State) (i : Nat) : FetchNow × State :=
  let a := (s.core i).pc
  match codeWaits s i a 8 with
  | some w => (.waits w, s)
  | none =>
    let t := bringCode i a 8 s
    match fetchHeader t i a with
    | .error f => (.fault f, t)
    | .ok h =>
      match codeWaits t i a (bundleLen h) with
      | some w => (.waits w, t)
      | none =>
        let u := bringCode i a (bundleLen h) t
        match fetchBytes u i a (bundleLen h) with
        | .error f => (.fault f, u)
        | .ok l => (.bytes l, u)

/-- A core cycle passes. -/
def Core.tick (c : Core) : Core := { c with cyc := c.cyc + 1 }

/-- A trap of the fetch: the slots of a bundle that is entered again stay masked (R20). -/
def fetchTrap (t : Trap) (rsm : Bool) (s : State) : State :=
  let c := s.me
  match c.reent with
  | some (k, a, v) => takeTrap s.cur t 0 c.pc true k.toNat (s.upd fun c => { c with grpSq := a.toNat, grpVq := v.toNat })
  | none => takeTrap s.cur t 0 c.pc rsm 0 s

/-- INSTRUCTION_FETCH (R34, R249, R340, R348, R349, R357): the bundle at the pc is fetched, or waits for its pages; `ue` is an uncorrectable error
in it. -/
def execInstructionFetch (c : CoreId) (ue : Bool) (s : State) : Out :=
  let k := s.core c
  if k.run ≠ .running ∨ k.bun.isSome ∨ k.fetched.isSome then .next s
  else
    .next (onCore c (fun s =>
      match fetchNow s c with
      | (.waits w, t) => (askFor (s.team c).ctx w t).upd Core.tick
      | (.fault f, t) => fetchTrap (transTrap 4 f k.pc) (!k.redir) t
      | (.bytes l, t) => if ue || codeUe t c k.pc l.length then fetchTrap { cls := 0xB, code := 0x02, faddr := k.pc } true t else t.upd fun k => { k with fetched := some l }) s)

/-- The groups of a bundle that is entered at slot `n`: the slots below it are masked (R20). -/
def maskGroups (n : Nat) (l : List (List (Nat × Instr))) : List (List (Nat × Instr)) :=
  let m := (l.map fun g => g.filter fun p => decide (n ≤ p.1)).filter fun g => !g.isEmpty
  if m.isEmpty then [[]] else m

/-- The bundle in issue that a decoded bundle gives. -/
def bundleOf (d : Decoded) (pc : Word) (groups : List (List (Nat × Instr))) : Bundle :=
  { npc := pc + BitVec.ofNat 64 d.len, lend := d.lend, yld := d.yld, stall := d.stall, fields := d.fields, groups := groups }

/-- BUNDLE_DECODE (R37): the fetched bundle is decoded and checked whole. -/
def execBundleDecode (c : CoreId) (s : State) : Out :=
  let k := s.core c
  match k.fetched with
  | none => .next s
  | some l =>
    if k.run ≠ .running then .next s
    else
      .next (onCore c (fun s =>
        let s := s.upd fun k => { k with redir := false }
        match decodeBundle k.tm k.hist l with
        | .ok d =>
          s.upd fun k =>
            match k.reent with
            | some (n, a, v) =>
              { k with fetched := none, reent := none, grpSq := a.toNat, grpVq := v.toNat,
                       bun := some (bundleOf d k.pc (maskGroups n.toNat d.groups)) }
            | none => { k with fetched := none, bun := some (bundleOf d k.pc d.groups) }
        | .error (.illegal code slot) =>
          takeTrap c { cls := 1, code := code } slot k.pc true 0 (s.upd fun k => { k with fetched := none })
        | .error .short => s) s)

/-! ### Issue -/

/-- The requests of a group's accesses may be performed from now on (R166). -/
def releaseGroup (i : Nat) (s : State) : State :=
  let clear (l : List Req) : List Req := l.map fun r => if r.core = i then { r with grp := false } else r
  { s with home := clear s.home, cores := s.cores.map fun (j, c) => (j, { c with mesh := clear c.mesh }) }

/-- What the committed slots of core `i`'s group leave when the group ends, whole or at a trap (R25, R26, R130, R166): its accesses may be
performed, and the system-state writes `w` that its later slots must not see are made. -/
def endGroup (i : Nat) (w : List (Nat × Word)) (s : State) : State := w.foldl (fun s p => writeSys i p.1 p.2 s) (releaseGroup i s)

/-- Causes that come before a group (R303, R358, R419): a pending abort token, then the watchdog. UNVERIFIED (log entry 69): CLASS 0xD CODE 0x02 is
never raised, since no rule says when a core takes it: the abort of a collective reaches the core that started it by its counter (R239, R387). -/
def preTrap (first : Nat) (s : State) : Option State :=
  let c := s.me
  if c.token && !c.tm then
    some (endGroup s.cur c.grpSys (takeTrap s.cur
      { cls := 0xD, code := 1, info := (s.ctx (s.team s.cur).ctx.toNat).astep.setWidth 32 } first c.pc true first
      (s.upd fun c => { c with token := false })))
  else if c.wdDue then
    some (endGroup s.cur c.grpSys (takeTrap s.cur { cls := 7, code := 1 } first c.pc true first
      (s.upd fun c => { c with wdDue := false, wdCount := 0 })))
  else none

/-- A shortfall cycle (R32). -/
def Core.shortfall (c : Core) : Core := { c with sfall := if c.sfall = 0xFFFFFFFF then c.sfall else c.sfall + 1 }

/-- The group has committed whole. -/
def finishGroup (s : State) : State :=
  endGroup s.cur s.me.grpSys (s.upd fun c =>
    { c.tick with issuing := false, rest := [], defer := none, held := {}, grpSq := 0, grpVq := 0, grpOld := [], grpSys := [],
                  grpBanks := [], wbT := 0, snap := {}, grpStash := 0, gzAsk := none, gzGrant := false, gzKeep := none,
                  wflt := c.wflt.filter (·.who != .slot s.cur), bun := c.bun.map fun b => { b with groups := b.groups.drop 1 } })

/-- The slots of an issued group commit in ascending order (R26): up to a trap, or to a deferred slot. When a slot above S, V0 and V1 is reached,
every access of the group has been sent, and none waits for the group any more (R166, R212). -/
def runSlots : List (Nat × Instr) → State → State
  | [], s => finishGroup s
  | (n, op) :: l, s =>
    let s := if 4 ≤ n then releaseGroup s.cur s else s
    match execSlot op s with
    | .next t =>
      if t.me.bun.isNone then endGroup s.cur s.me.grpSys t else if t.me.defer.isSome then t.upd fun c => { c with rest := l, gzGrant := false } else runSlots l t
    | _ => s

/-- Whether an operation enters the stash queue (R220, R221). -/
def Instr.stashes : Instr → Bool
  | .stashPut _ _ _ => true
  | .stashGet _ _ _ => true
  | .stashPf _ _ _ => true
  | .stashDrop _ _ _ => true
  | .stashFree _ _ _ => true
  | .wvCommit _ _ _ => true
  | _ => false

/-- What the slots of a group find before it issues (R24): whether one is held, and why, and the state that held slots leave. A slot that is not
held leaves nothing but what the slots above it must reckon with: its place in the stash queue. A `gz.put` asks the Gazetteer where nothing else
holds its group (R240). -/
def dryGroup : List (Nat × Instr) → Held × State → Held × State
  | [], acc => acc
  | (_, op) :: l, (h, s) =>
    match execSlot op (s.upd fun c => { c with held := {} }) with
    | .next t =>
      let w := t.me.held
      if w.queue || w.other then
        dryGroup l ({ queue := h.queue || w.queue, other := h.other || w.other },
          if h.queue || h.other then t.upd fun c => { c with gzAsk := none } else t)
      else
        dryGroup l (h, s.upd fun c =>
          { c with grpStash := if Instr.stashes op then c.grpStash + 1 else c.grpStash })
    | _ => dryGroup l (h, s)

/-- The buffer operations of a group that issues stand in their buffers' order from its issue on (R208). -/
def joinGroup (g : List (Nat × Instr)) (c : Core) : Core :=
  g.foldl (fun c p => match p.2 with
    | .cbClaim _ n _ => c.modCb n fun b => { b with claims := joinOwn b.claims }
    | .cbAwait _ n _ => c.modCb n fun b => { b with awaits := joinOwn b.awaits }
    | _ => c) c

/-- The core as its group issues: what the group's slots see of units that they do not name by a specifier is kept (R25). -/
def Core.beginGroup (c : Core) (g : List (Nat × Instr)) : Core :=
  joinGroup g { c with issuing := true, snap := { ob := c.ob, ac := c.ac, mmas := c.mmas, cal := c.cal } }

/-- The first slot of a group. -/
def firstSlot (g : List (Nat × Instr)) : Nat := (g.head?.map (·.1)).getD 0

/-- A group is tried (R24, R32 to R34): held, trapped, or issued. -/
def tryGroup (g : List (Nat × Instr)) (s : State) : State :=
  let s0 := s.upd fun c => { c with held := {}, issuing := false, gzAsk := none }
  let (h, t) := dryGroup g ({}, s0)
  let base := t.upd fun c => { c with grpStash := 0, gzGrant := false, gzKeep := none }
  if h.other then base.upd fun c => { c.tick with held := { queue := h.queue, other := true } }
  else if h.queue then
    if s.me.sct then takeTrap s.cur { cls := 2, code := 1 } (firstSlot g) s.me.pc true (firstSlot g) (s0.upd Core.shortfall)
    else base.upd fun c => { c.shortfall.tick with held := { queue := true } }
  else runSlots g (s0.upd fun c => c.beginGroup g)

/-- Issues the next group of the acting core's bundle. -/
def issueGroup (s : State) : State :=
  match s.me.bun with
  | some b =>
    match b.groups with
    | g :: _ =>
      if s.me.defer.isSome || s.me.run != .running then s
      else
        match preTrap (firstSlot g) s with
        | some t => t
        | none => tryGroup g s
    | [] => s
  | none => s

/-- GROUP_ISSUE (R24, R26). -/
def execGroupIssue (c : CoreId) (s : State) : Out := .next (onCore c issueGroup s)

/-- Looks at the acting core's deferred slot (R26, R110): the slots above it commit when it has been accepted. -/
def acceptDeferred (s : State) : State :=
  match s.me.defer with
  | none => s
  | some d =>
    if s.me.run ≠ .running then s
    else
      match accept s.cur d s with
      | .wait t => t.upd Core.tick
      | .trap t => endGroup s.cur s.me.grpSys (slotTrap d.slot t s)
      | .done t => runSlots t.me.rest (t.upd fun c => { c with defer := none, rest := [] })

/-- DEFERRED_SLOT_ACCEPTANCE (R26, R110, R212, R240). -/
def execDeferredSlotAcceptance (c : CoreId) (s : State) : Out := .next (onCore c acceptDeferred s)

/-! ### The Gazetteer's cycle (R319) -/

/-- The Gazetteer looks at the `gz.put` of core `i`: one that holds its group for it alone, whose group then issues, or one that has waited for an
access of a lower slot of its group, for which it has kept room (log entry 64). A record that its class refuses is taken, and faults. -/
def insertPut (d i : Nat) (acc : State × Nat) : State × Nat :=
  let (s, k) := acc
  if 4 ≤ k ∨ coreDie i ≠ d then acc
  else
    match (s.core i).gzAsk, (s.core i).defer with
    | some (key, idx), none =>
      if insertFate s d (some i) key idx.toNat = .waits then acc
      else
        let t := onCore i issueGroup (s.modCore i fun c => { c with gzGrant := true, gzKeep := some key })
        if (t.core i).gzAsk.isSome ∨ (t.core i).held.other = true ∨ (t.core i).gzKeep.isSome then (t, k) else (t, k + 1)
    | _, some q =>
      match q.op with
      | .gzPut key idx pay _ =>
        if q.ans.isSome || !q.sent then acc
        else
          let ans (b : Bool) (s : State) : State := s.modCore i fun c => { c with defer := c.defer.map fun q => { q with ans := some b } }
          match insertFate s d (some i) key idx.toNat with
          | .taken => (ans true (s.modDie d fun x => gzInsert d s.meshCyc key idx.toNat pay (s.core i).lclk x), k + 1)
          | .waits => acc
          | .refused => (ans false s, k + 1)
      | _ => acc
    | none, none => acc

/-- Records of `gz.put` by ascending core index (R240). -/
def insertPuts (d : Nat) (acc : State × Nat) : State × Nat := (acc.1.cores.map (·.1)).foldl (fun acc i => insertPut d i acc) acc

/-- Up to four inserts of a cycle (R319). -/
def insertPhase (d : Nat) (s : State) : State :=
  (insertPuts d (insertAgents d ((chanStreams s d).foldl (fun acc p => insertChan d p.1 p.2 4 acc) (s, 0)))).1

/-- Entries of a Gazetteer that the cycle finds with an uncorrectable error, in themselves or in their staging: each is fatal to the context of its stage
(R416). -/
def gzFaults (d : Nat) (s : State) : State :=
  let x := s.die d
  if x.ueGz.isEmpty then s
  else
    let bad := x.gz.filter fun e => x.ueGz.contains e.id
    bad.foldl (fun s e =>
      let r : FaultRec := { seq := 0, src := 4, ctx := 0xFF, unit := Config.unitNo 4, cause := Config.unitCode 4 }
      match x.stages.find? fun g => g.num == keyStage e.key with
      | some g => contain g.ctx.toNat d { r with ctx := g.ctx.setWidth 8 } s
      | none => logFault d r s) (s.modDie d fun x => { x with ueGz := [] })

/-- GAZETTEER_CYCLE (R319): evaluations in ascending stage number, retirements, and inserts. -/
def execGazetteerCycle (d : Die) (s : State) : Out :=
  let s := gzFaults d.val s
  let x := s.die d.val
  let nums := (x.stages.foldl (fun l g => insertBy (fun a b => decide (a.toNat < b.toNat)) g.num l) [])
  let (s1, used) := nums.foldl (evalStage d.val) (s, false)
  let gone := (x.gz.filter fun e => e.st == .retired).map (·.id)
  let s2 := s1.modDie d.val fun x => { x with gz := x.gz.filter fun e => !gone.contains e.id, arb := used }
  let s3 := (s2.teams.filter fun p => p.2.die == d.val).foldl (fun s p => flushDone p.2 s) s2
  .next (insertPhase d.val (startWaiting d.val s3))

/-! ### Completion -/

/-- The loop step of a completed bundle (R116): the loop's state, and the next bundle's address. -/
def loopStep (l : LoopState) (b : Bundle) : LoopState × Word :=
  if l.act = false then (l, b.npc)
  else if b.lend then
    if l.rem = 0 then ({ l with pos := 0, act := false }, b.npc)
    else ({ l with pos := 0, rem := l.rem - 1 }, l.start.setWidth 64)
  else if l.pos = 15 then ({ l with act := false }, b.npc)
  else ({ l with pos := l.pos + 1 }, b.npc)

/-- The loop that a committed `loop` or `loopn` starts (R115, R117). -/
def startLoop (n : Word) (b : Bundle) : LoopState := { rem := n - 1, act := true, pos := 0, start := b.npc.setWidth 48 }

/-- The core after its bundle: history, loop state and pc (R18, R114 to R117), with a pending effect applied. -/
def Core.afterBundle (c : Core) (b : Bundle) : Core :=
  let c0 := { c with bun := none, pend := none, prd := c.prd && c.tm, pkind := if c.tm then c.pkind else 0, hist := b.fields }
  let p := (c.pend.map fun p => (p.kind.toNat, p.arg)).getD (4, 0)
  if p.1 = 0 then
    let c1 := c0.redirect p.2
    { c1 with cyc := c1.cyc + max b.stall 2 }
  else if p.1 = 1 then { c0.setBank { c0.bank with lp := startLoop p.2 b } with pc := b.npc, cyc := c0.cyc + b.stall }
  else
    let (l, n) := loopStep c0.bank.lp b
    { c0.setBank { c0.bank with lp := l } with pc := n, cyc := c0.cyc + b.stall }

/-- The core stops issuing (R122): a handler's halt discards the program's queues, latches and loop state. -/
def Core.stopHalt (now : Nat) (c : Core) : Core :=
  let c1 := if c.tm then { c with prog := {}, tm := false } else c
  { c1 with run := .halted, wdCount := 0, wdDue := false, wdFrom := now }

/-- What an honoured yield does at once (R36, R219, R303). DESIGN CHOICE (log entry 63): the contents of unpinned tiles, dead from here on (R174),
stay as they are where the core goes on. -/
def Core.honourYield (now : Nat) (c : Core) : Core := { c with wdCount := 0, wdDue := false, wdFrom := now, wcs := [], wakeq := [] }

/-- An honoured yield of core `i` (R302, R306, R360): it may bring an evaluation, and a stop request is seen unless a token waits. -/
def yieldNow (i : Nat) (may : Bool) (s : State) : State :=
  let s1 := s.modCore i (Core.honourYield s.meshCyc)
  match s1.teamOf i with
  | none => s1
  | some t =>
    let ye := match s1.stageOf t with
      | some g => sbYeval g.blk && i == t.origin
      | none => false
    let s2 := if ye then { s1 with teams := tabSet s1.teams t.origin { t with yeval := true } } else s1
    if t.stop.isSome && may && !(s2.core i).token then s2.modCore i fun c => { c with run := .stopping } else s2

/-- Whether a yield bit is honoured (R36), judged on the core after its bundle. -/
def Core.yields (c : Core) (b : Bundle) : Bool := b.yld && !c.tm && !c.bank.lp.act

/-- Whether a loop of no passes is pending, which only a handler's write of PTGT can make (R114, R115). -/
def Core.skips (c : Core) : Bool :=
  match c.pend with
  | some p => p.kind == 1 && p.arg == 0
  | none => false

/-- It skips the body: what the search for the body's end waits for, and the state with what it has found. -/
def skipEmpty (b : Bundle) (s : State) : Option ReadWait × State :=
  if s.me.skips then
    let k := skipBody s.cur 16 b.npc s
    (k.wait, if k.wait.isSome then k.st else pendB 0 k.addr k.st)
  else (none, s)

/-- The acting core's bundle, with nothing left to skip, completes (R18, R114). A halt that was kept pending is held, or gives way to a recorded fault (R122). DESIGN CHOICE
(log entry 61): a token or the watchdog taken during that hold is a trap before a group of the bundle, with SRES 0, so that the bundle is entered
again whole. -/
def endBundle (b : Bundle) (s : State) : State :=
  let i := s.cur
  let c := s.me
  let k := (c.pend.map (·.kind.toNat)).getD 4
  let arg := (c.pend.map (·.arg)).getD 0
  if c.sret then s.upd fun c => { c.sysret with cyc := c.cyc + b.stall }
  else if k = 2 ∧ c.prd = true ∧ c.tm = false ∧ (unitFault c none).isSome then
    match unitFault c none with
    | some t => takeTrap i t 0 c.pc true 0 s
    | none => s
  else if k = 2 ∧ c.prd = true ∧ c.outstanding = true then
    match preTrap 0 s with
    | some t => t
    | none => s.upd Core.tick
  else if k = 2 then s.upd fun c => (c.afterBundle b).stopHalt s.meshCyc
  else
    let s1 := s.upd fun c => c.afterBundle b
    let s2 := if s1.me.yields b then yieldNow i (k != 3) s1 else s1
    if k = 3 then takeTrap i { cls := 8, code := arg.setWidth 8 } 0 s2.me.pc false 0 (s2.upd fun c => { c with cyc := c.cyc - 1 }) else s2

/-- The acting core's bundle completes; while the search of a skipped body waits, a cycle passes. -/
def finishBundle (b : Bundle) (s : State) : State :=
  match skipEmpty b s with
  | (some w, t) => (askFor (s.team s.cur).ctx w t).upd Core.tick
  | (none, t) => endBundle b t

/-- Completes the acting core's bundle once its last group has committed. -/
def completeBundle (s : State) : State :=
  match s.me.bun with
  | some b => if b.groups.isEmpty && s.me.defer.isNone && s.me.run == .running then finishBundle b s else s
  | none => s

/-- BUNDLE_COMPLETE (R18, R36, R114 to R117). -/
def execBundleComplete (c : CoreId) (s : State) : Out := .next (onCore c completeBundle s)

/-! ### The watchdog -/

/-- WATCHDOG_PERIOD (R303): 1,024 mesh cycles have passed. -/
def execWatchdogPeriod (c : CoreId) (s : State) : Out :=
  if (s.core c).runs then
    .next (s.modCore c fun k =>
      let n := k.wdCount + 1
      { k with wdCount := n, wdDue := k.wdDue || (k.wdLimit != 0 && n == k.wdLimit) })
  else .next s

/-- A core that holds at a yield takes a trap and runs on (R361). -/
def stopTrap (t : Trap) (s : State) : State :=
  takeTrap s.cur t 0 s.me.pc true 0 (s.upd fun c => { c with run := .running })

/-- A core that holds at a yield takes a frozen fault, or the watchdog (R361). -/
def checkStopping (s : State) : State :=
  let c := s.me
  if c.run ≠ .stopping then s
  else
    match unitFault c none with
    | some t => stopTrap t s
    | none => if c.wdDue then stopTrap { cls := 7, code := 1 } (s.upd fun c => { c with wdDue := false, wdCount := 0 }) else s

/-- WATCHDOG (R303): its trap is taken by the group about to issue or being held. -/
def execWatchdog (c : CoreId) (s : State) : Out :=
  let k := s.core c
  if k.wdDue = false then .next s
  else if k.run = .stopping then .next (onCore c checkStopping s)
  else if k.run ≠ .running then .next s
  else
    .next (onCore c (fun s =>
      match s.me.defer, s.me.bun with
      | none, some b => match b.groups with
        | g :: _ => (preTrap (firstSlot g) s).getD s
        | [] => s
      | _, _ => s) s)

end Sys2Proof.Machine
end

