-- ==== Sys2Proof/Machine/Dispatch.lean ====
section
/-! DEFINITION. The dispatch: every step of the table to its meaning. -/
namespace Sys2Proof.Machine

/-- What a step does. -/
def exec (i : Instr) (s : State) : Host.Outcome State Fault Refusal :=
  match i with
  -- Slot B
  | .nop => Sys2Proof.Machine.execNop s
  | .br d => Sys2Proof.Machine.execBr d s
  | .bz d => Sys2Proof.Machine.execBz d s
  | .bnz d => Sys2Proof.Machine.execBnz d s
  | .call d => Sys2Proof.Machine.execCall d s
  | .ret a => Sys2Proof.Machine.execRet a s
  | .jr a => Sys2Proof.Machine.execJr a s
  | .loop a => Sys2Proof.Machine.execLoop a s
  | .loopn a => Sys2Proof.Machine.execLoopn a s
  | .waitLt k b => Sys2Proof.Machine.execWaitLt k b s
  | .waitBar a b => Sys2Proof.Machine.execWaitBar a b s
  | .waitWake => Sys2Proof.Machine.execWaitWake s
  | .halt => Sys2Proof.Machine.execHalt s
  | .trap code => Sys2Proof.Machine.execTrap code s
  | .sysret => Sys2Proof.Machine.execSysret s
  | .fence sc => Sys2Proof.Machine.execFence sc s
  | .sbar rd wr mem => Sys2Proof.Machine.execSbar rd wr mem s
  | .ckpt a => Sys2Proof.Machine.execCkpt a s
  | .nextTile => Sys2Proof.Machine.execNextTile s
  | .launch a => Sys2Proof.Machine.execLaunch a s
  | .sysrd w => Sys2Proof.Machine.execSysrd w s
  | .syswr w b => Sys2Proof.Machine.execSyswr w b s
  -- Slot S
  | .li imm => Sys2Proof.Machine.execLi imm s
  | .lih imm => Sys2Proof.Machine.execLih imm s
  | .sMov a => Sys2Proof.Machine.execSMov a s
  | .sSel a b => Sys2Proof.Machine.execSSel a b s
  | .addI64 a b => Sys2Proof.Machine.execAddI64 a b s
  | .subI64 a b => Sys2Proof.Machine.execSubI64 a b s
  | .mulI64 a b => Sys2Proof.Machine.execMulI64 a b s
  | .mulhI64 a b => Sys2Proof.Machine.execMulhI64 a b s
  | .mulhN64 a b => Sys2Proof.Machine.execMulhN64 a b s
  | .divI64 a b => Sys2Proof.Machine.execDivI64 a b s
  | .divN64 a b => Sys2Proof.Machine.execDivN64 a b s
  | .sAnd a b => Sys2Proof.Machine.execSAnd a b s
  | .sOr a b => Sys2Proof.Machine.execSOr a b s
  | .sXor a b => Sys2Proof.Machine.execSXor a b s
  | .sAndn a b => Sys2Proof.Machine.execSAndn a b s
  | .sShl a b => Sys2Proof.Machine.execSShl a b s
  | .shrN64 a b => Sys2Proof.Machine.execShrN64 a b s
  | .shrI64 a b => Sys2Proof.Machine.execShrI64 a b s
  | .rotl a b => Sys2Proof.Machine.execRotl a b s
  | .clz a => Sys2Proof.Machine.execClz a s
  | .popc a => Sys2Proof.Machine.execPopc a s
  | .minI64 a b => Sys2Proof.Machine.execMinI64 a b s
  | .minN64 a b => Sys2Proof.Machine.execMinN64 a b s
  | .maxI64 a b => Sys2Proof.Machine.execMaxI64 a b s
  | .maxN64 a b => Sys2Proof.Machine.execMaxN64 a b s
  | .ceq a b => Sys2Proof.Machine.execCeq a b s
  | .cne a b => Sys2Proof.Machine.execCne a b s
  | .cltI64 a b => Sys2Proof.Machine.execCltI64 a b s
  | .cltN64 a b => Sys2Proof.Machine.execCltN64 a b s
  | .cleI64 a b => Sys2Proof.Machine.execCleI64 a b s
  | .cleN64 a b => Sys2Proof.Machine.execCleN64 a b s
  | .st w a b inc => Sys2Proof.Machine.execSt w a b inc s
  | .amoAddI64 o a r => Sys2Proof.Machine.execAmoAddI64 o a r s
  | .amoAnd o a r => Sys2Proof.Machine.execAmoAnd o a r s
  | .amoOr o a r => Sys2Proof.Machine.execAmoOr o a r s
  | .amoXor o a r => Sys2Proof.Machine.execAmoXor o a r s
  | .amoMinI64 o a r => Sys2Proof.Machine.execAmoMinI64 o a r s
  | .amoMaxI64 o a r => Sys2Proof.Machine.execAmoMaxI64 o a r s
  | .amoMinN64 o a r => Sys2Proof.Machine.execAmoMinN64 o a r s
  | .amoMaxN64 o a r => Sys2Proof.Machine.execAmoMaxN64 o a r s
  | .amoSwap o a r => Sys2Proof.Machine.execAmoSwap o a r s
  | .amoCas o a r => Sys2Proof.Machine.execAmoCas o a r s
  | .amoFaddF32 o a r => Sys2Proof.Machine.execAmoFaddF32 o a r s
  | .lockL2 a b => Sys2Proof.Machine.execLockL2 a b s
  | .unlockL2 a b => Sys2Proof.Machine.execUnlockL2 a b s
  | .pref a => Sys2Proof.Machine.execPref a s
  | .ldI8 n a b inc => Sys2Proof.Machine.execLdI8 n a b inc s
  | .ldN8 n a b inc => Sys2Proof.Machine.execLdN8 n a b inc s
  | .ldI16 n a b inc => Sys2Proof.Machine.execLdI16 n a b inc s
  | .ldN16 n a b inc => Sys2Proof.Machine.execLdN16 n a b inc s
  | .ldI32 n a b inc => Sys2Proof.Machine.execLdI32 n a b inc s
  | .ldN32 n a b inc => Sys2Proof.Machine.execLdN32 n a b inc s
  | .ldN64 n a b inc => Sys2Proof.Machine.execLdN64 n a b inc s
  | .sLatA a => Sys2Proof.Machine.execSLatA a s
  | .sLatAb a b => Sys2Proof.Machine.execSLatAb a b s
  | .sMovP n a => Sys2Proof.Machine.execSMovP n a s
  | .movG n a => Sys2Proof.Machine.execMovG n a s
  -- Slots V0 and V1
  | .addF32 u a b => Sys2Proof.Machine.execAddF32 u a b s
  | .addBf16 u a b => Sys2Proof.Machine.execAddBf16 u a b s
  | .addF16 u a b => Sys2Proof.Machine.execAddF16 u a b s
  | .subF32 u a b => Sys2Proof.Machine.execSubF32 u a b s
  | .subBf16 u a b => Sys2Proof.Machine.execSubBf16 u a b s
  | .subF16 u a b => Sys2Proof.Machine.execSubF16 u a b s
  | .mulF32 u a b => Sys2Proof.Machine.execMulF32 u a b s
  | .mulBf16 u a b => Sys2Proof.Machine.execMulBf16 u a b s
  | .mulF16 u a b => Sys2Proof.Machine.execMulF16 u a b s
  | .fmaF32 u a b => Sys2Proof.Machine.execFmaF32 u a b s
  | .fmaBf16 u a b => Sys2Proof.Machine.execFmaBf16 u a b s
  | .fmaF16 u a b => Sys2Proof.Machine.execFmaF16 u a b s
  | .minF32 u a b => Sys2Proof.Machine.execMinF32 u a b s
  | .minBf16 u a b => Sys2Proof.Machine.execMinBf16 u a b s
  | .minF16 u a b => Sys2Proof.Machine.execMinF16 u a b s
  | .maxF32 u a b => Sys2Proof.Machine.execMaxF32 u a b s
  | .maxBf16 u a b => Sys2Proof.Machine.execMaxBf16 u a b s
  | .maxF16 u a b => Sys2Proof.Machine.execMaxF16 u a b s
  | .rcpF32 u a => Sys2Proof.Machine.execRcpF32 u a s
  | .rsqrtF32 u a => Sys2Proof.Machine.execRsqrtF32 u a s
  | .exp2F32 u a => Sys2Proof.Machine.execExp2F32 u a s
  | .log2F32 u a => Sys2Proof.Machine.execLog2F32 u a s
  | .addI32 u a b => Sys2Proof.Machine.execAddI32 u a b s
  | .subI32 u a b => Sys2Proof.Machine.execSubI32 u a b s
  | .mulI32 u a b => Sys2Proof.Machine.execMulI32 u a b s
  | .addSatI32 u a b => Sys2Proof.Machine.execAddSatI32 u a b s
  | .subSatI32 u a b => Sys2Proof.Machine.execSubSatI32 u a b s
  | .minI32 u a b => Sys2Proof.Machine.execMinI32 u a b s
  | .minN32 u a b => Sys2Proof.Machine.execMinN32 u a b s
  | .maxI32 u a b => Sys2Proof.Machine.execMaxI32 u a b s
  | .maxN32 u a b => Sys2Proof.Machine.execMaxN32 u a b s
  | .vAnd u a b => Sys2Proof.Machine.execVAnd u a b s
  | .vOr u a b => Sys2Proof.Machine.execVOr u a b s
  | .vXor u a b => Sys2Proof.Machine.execVXor u a b s
  | .vAndn u a b => Sys2Proof.Machine.execVAndn u a b s
  | .vShl u a b => Sys2Proof.Machine.execVShl u a b s
  | .shrN32 u a b => Sys2Proof.Machine.execShrN32 u a b s
  | .shrI32 u a b => Sys2Proof.Machine.execShrI32 u a b s
  | .ceqF32 u a b => Sys2Proof.Machine.execCeqF32 u a b s
  | .cltF32 u a b => Sys2Proof.Machine.execCltF32 u a b s
  | .cleF32 u a b => Sys2Proof.Machine.execCleF32 u a b s
  | .ceqI32 u a b => Sys2Proof.Machine.execCeqI32 u a b s
  | .cltI32 u a b => Sys2Proof.Machine.execCltI32 u a b s
  | .cltN32 u a b => Sys2Proof.Machine.execCltN32 u a b s
  | .vSel u a b => Sys2Proof.Machine.execVSel u a b s
  | .vMov u a => Sys2Proof.Machine.execVMov u a s
  | .cvt u d a => Sys2Proof.Machine.execCvt u d a s
  | .cvtBf16F32Mode u a m sat => Sys2Proof.Machine.execCvtBf16F32Mode u a m sat s
  | .cvtF16F32Mode u a m sat => Sys2Proof.Machine.execCvtF16F32Mode u a m sat s
  | .cvtE4m3F32Mode u a m sat => Sys2Proof.Machine.execCvtE4m3F32Mode u a m sat s
  | .cvtE5m2F32Mode u a m sat => Sys2Proof.Machine.execCvtE5m2F32Mode u a m sat s
  | .cvtI32F32Mode u a m sat => Sys2Proof.Machine.execCvtI32F32Mode u a m sat s
  | .cvtI8F32Mode u a m sat => Sys2Proof.Machine.execCvtI8F32Mode u a m sat s
  | .cvtF32Bf16 u a => Sys2Proof.Machine.execCvtF32Bf16 u a s
  | .cvtF32F16 u a => Sys2Proof.Machine.execCvtF32F16 u a s
  | .cvtF32E4m3 u a => Sys2Proof.Machine.execCvtF32E4m3 u a s
  | .cvtF32E5m2 u a => Sys2Proof.Machine.execCvtF32E5m2 u a s
  | .cvtF32I32 u a => Sys2Proof.Machine.execCvtF32I32 u a s
  | .cvtF32I8 u a => Sys2Proof.Machine.execCvtF32I8 u a s
  | .packNx2 u a => Sys2Proof.Machine.execPackNx2 u a s
  | .packNx4 u a => Sys2Proof.Machine.execPackNx4 u a s
  | .packNx7 u a => Sys2Proof.Machine.execPackNx7 u a s
  | .packNx2Mode u a m sat => Sys2Proof.Machine.execPackNx2Mode u a m sat s
  | .packNx4Mode u a m sat => Sys2Proof.Machine.execPackNx4Mode u a m sat s
  | .packNx7Mode u a m sat => Sys2Proof.Machine.execPackNx7Mode u a m sat s
  | .unpkNx2 u a => Sys2Proof.Machine.execUnpkNx2 u a s
  | .unpkNx4 u a => Sys2Proof.Machine.execUnpkNx4 u a s
  | .unpkNx7 u a => Sys2Proof.Machine.execUnpkNx7 u a s
  | .redF32 u a op => Sys2Proof.Machine.execRedF32 u a op s
  | .redI32 u a op => Sys2Proof.Machine.execRedI32 u a op s
  | .scanF32 u a op ex => Sys2Proof.Machine.execScanF32 u a op ex s
  | .scanI32 u a op ex => Sys2Proof.Machine.execScanI32 u a op ex s
  | .perm u a ix => Sys2Proof.Machine.execPerm u a ix s
  | .vld u n a ix inc => Sys2Proof.Machine.execVld u n a ix inc s
  | .vldS u n a ix inc => Sys2Proof.Machine.execVldS u n a ix inc s
  | .vldX u n a ix => Sys2Proof.Machine.execVldX u n a ix s
  | .ldTr u n a ix inc => Sys2Proof.Machine.execLdTr u n a ix inc s
  | .bcast u a n => Sys2Proof.Machine.execBcast u a n s
  | .lrot u a n => Sys2Proof.Machine.execLrot u a n s
  | .vst u a ix inc => Sys2Proof.Machine.execVst u a ix inc s
  | .vstS u a ix inc => Sys2Proof.Machine.execVstS u a ix inc s
  | .vstX u a ix => Sys2Proof.Machine.execVstX u a ix s
  | .wrow u a sel => Sys2Proof.Machine.execWrow u a sel s
  | .vLatA u a => Sys2Proof.Machine.execVLatA u a s
  | .vLatAb u a b => Sys2Proof.Machine.execVLatAb u a b s
  | .vMovP u n a => Sys2Proof.Machine.execVMovP u n a s
  | .movV u n a => Sys2Proof.Machine.execMovV u n a s
  -- Slot M, and the operand latches of the M, C and K units
  | .oclaim n => Sys2Proof.Machine.execOclaim n s
  | .orel n => Sys2Proof.Machine.execOrel n s
  | .azero n => Sys2Proof.Machine.execAzero n s
  | .ascale n b => Sys2Proof.Machine.execAscale n b s
  | .apin n => Sys2Proof.Machine.execApin n s
  | .aunpin n => Sys2Proof.Machine.execAunpin n s
  | .adrain n q => Sys2Proof.Machine.execAdrain n q s
  | .astat n => Sys2Proof.Machine.execAstat n s
  | .mma f n a b => Sys2Proof.Machine.execMma f n a b s
  | .mmz f n a b => Sys2Proof.Machine.execMmz f n a b s
  | .ato f m sat o n => Sys2Proof.Machine.execAto f m sat o n s
  | .mckLatA u a => Sys2Proof.Machine.execMckLatA u a s
  | .mckLatAb u a b => Sys2Proof.Machine.execMckLatAb u a b s
  -- Slots C0 and C1
  | .cpNest e a => Sys2Proof.Machine.execCpNest e a s
  | .cpMcast e a => Sys2Proof.Machine.execCpMcast e a s
  | .cbClaim e n b => Sys2Proof.Machine.execCbClaim e n b s
  | .cbCommit e n b => Sys2Proof.Machine.execCbCommit e n b s
  | .cbAwait e n b => Sys2Proof.Machine.execCbAwait e n b s
  | .cbRetire e n b => Sys2Proof.Machine.execCbRetire e n b s
  | .barInit e a b => Sys2Proof.Machine.execBarInit e a b s
  | .barArriveRel e a b => Sys2Proof.Machine.execBarArriveRel e a b s
  | .barArriveRlx e a b => Sys2Proof.Machine.execBarArriveRlx e a b s
  | .barDrop e a => Sys2Proof.Machine.execBarDrop e a s
  | .barTest e a => Sys2Proof.Machine.execBarTest e a s
  | .kSet e n b => Sys2Proof.Machine.execKSet e n b s
  | .kAdd e n b => Sys2Proof.Machine.execKAdd e n b s
  | .wkArm e w a b => Sys2Proof.Machine.execWkArm e w a b s
  | .wkDisarm e w => Sys2Proof.Machine.execWkDisarm e w s
  | .stashPut e a b => Sys2Proof.Machine.execStashPut e a b s
  | .stashGet e a b => Sys2Proof.Machine.execStashGet e a b s
  | .stashPf e a b => Sys2Proof.Machine.execStashPf e a b s
  | .stashDrop e a b => Sys2Proof.Machine.execStashDrop e a b s
  | .stashFree e a b => Sys2Proof.Machine.execStashFree e a b s
  | .wvCommit e a b => Sys2Proof.Machine.execWvCommit e a b s
  -- Slot K
  | .send c a => Sys2Proof.Machine.execSend c a s
  | .sendM c a => Sys2Proof.Machine.execSendM c a s
  | .chwin c b => Sys2Proof.Machine.execChwin c b s
  | .colGo a => Sys2Proof.Machine.execColGo a s
  | .colAbort a => Sys2Proof.Machine.execColAbort a s
  | .gzPut a b => Sys2Proof.Machine.execGzPut a b s
  | .gzDone a => Sys2Proof.Machine.execGzDone a s
  | .trustQ a => Sys2Proof.Machine.execTrustQ a s
  | .recvV n c => Sys2Proof.Machine.execRecvV n c s
  | .recvG n c => Sys2Proof.Machine.execRecvG n c s
  | .gzRd n a => Sys2Proof.Machine.execGzRd n a s
  | .recvaddF32 n c => Sys2Proof.Machine.execRecvaddF32 n c s
  -- Events
  | .instructionFetch c ue => Sys2Proof.Machine.execInstructionFetch c ue s
  | .bundleDecode c => Sys2Proof.Machine.execBundleDecode c s
  | .groupIssue c => Sys2Proof.Machine.execGroupIssue c s
  | .deferredSlotAcceptance c => Sys2Proof.Machine.execDeferredSlotAcceptance c s
  | .resultReady c => Sys2Proof.Machine.execResultReady c s
  | .loadDataArrival c ue => Sys2Proof.Machine.execLoadDataArrival c ue s
  | .bundleComplete c => Sys2Proof.Machine.execBundleComplete c s
  | .teamSave o => Sys2Proof.Machine.execTeamSave o s
  | .watchdogPeriod c => Sys2Proof.Machine.execWatchdogPeriod c s
  | .watchdog c => Sys2Proof.Machine.execWatchdog c s
  | .mmaStart c => Sys2Proof.Machine.execMmaStart c s
  | .mmaFinish c => Sys2Proof.Machine.execMmaFinish c s
  | .tileOperationFinish c => Sys2Proof.Machine.execTileOperationFinish c s
  | .adrainRowPresent c => Sys2Proof.Machine.execAdrainRowPresent c s
  | .wrowLand c => Sys2Proof.Machine.execWrowLand c s
  | .engineCommandStart c e => Sys2Proof.Machine.execEngineCommandStart c e s
  | .engineTransfer c e ue => Sys2Proof.Machine.execEngineTransfer c e ue s
  | .engineCbClaim c e => Sys2Proof.Machine.execEngineCbClaim c e s
  | .unitComplete c e => Sys2Proof.Machine.execUnitComplete c e s
  | .barrierBankUpdate c off => Sys2Proof.Machine.execBarrierBankUpdate c off s
  | .meshAccessArrival c => Sys2Proof.Machine.execMeshAccessArrival c s
  | .wakeTokenEnqueue c => Sys2Proof.Machine.execWakeTokenEnqueue c s
  | .homeAccess sl => Sys2Proof.Machine.execHomeAccess sl s
  | .l2Fill sl => Sys2Proof.Machine.execL2Fill sl s
  | .dirtyWriteback line ue => Sys2Proof.Machine.execDirtyWriteback line ue s
  | .routerCombine sl ia ib => Sys2Proof.Machine.execRouterCombine sl ia ib s
  | .pageWalkStart d => Sys2Proof.Machine.execPageWalkStart d s
  | .pageWalkDone d ue => Sys2Proof.Machine.execPageWalkDone d ue s
  | .tlbInvalComplete x => Sys2Proof.Machine.execTlbInvalComplete x s
  | .lclkTick => Sys2Proof.Machine.execLclkTick s
  | .horizonRound => Sys2Proof.Machine.execHorizonRound s
  | .scAtomicPerform => Sys2Proof.Machine.execScAtomicPerform s
  | .weightRefreshSlot => Sys2Proof.Machine.execWeightRefreshSlot s
  | .creditForward b => Sys2Proof.Machine.execCreditForward b s
  | .channelMessageDepart c ue => Sys2Proof.Machine.execChannelMessageDepart c ue s
  | .messageArrival b ti m => Sys2Proof.Machine.execMessageArrival b ti m s
  | .messageLand b ti => Sys2Proof.Machine.execMessageLand b ti s
  | .receiveDelivery c ue => Sys2Proof.Machine.execReceiveDelivery c ue s
  | .bindingMeet b lw lh => Sys2Proof.Machine.execBindingMeet b lw lh s
  | .flitRetransmit p => Sys2Proof.Machine.execFlitRetransmit p s
  | .linkRetrain p => Sys2Proof.Machine.execLinkRetrain p s
  | .linkRetrainDone p => Sys2Proof.Machine.execLinkRetrainDone p s
  | .linkDown p => Sys2Proof.Machine.execLinkDown p s
  | .frameRetransmit p fate => Sys2Proof.Machine.execFrameRetransmit p fate s
  | .linkRekey p => Sys2Proof.Machine.execLinkRekey p s
  | .chunkStart x id chunk => Sys2Proof.Machine.execChunkStart x id chunk s
  | .contributionArrival x id member chunk data agrees => Sys2Proof.Machine.execContributionArrival x id member chunk data agrees s
  | .chunkSum x id chunk => Sys2Proof.Machine.execChunkSum x id chunk s
  | .chunkResultArrival x id chunk data lost => Sys2Proof.Machine.execChunkResultArrival x id chunk data lost s
  | .memberLost x id member => Sys2Proof.Machine.execMemberLost x id member s
  | .completionRecordWrite x id => Sys2Proof.Machine.execCompletionRecordWrite x id s
  | .abortTokenReceive x g sender step => Sys2Proof.Machine.execAbortTokenReceive x g sender step s
  | .gazetteerCycle d => Sys2Proof.Machine.execGazetteerCycle d s
  | .orderedFoldSweep d => Sys2Proof.Machine.execOrderedFoldSweep d s
  | .recordAgePromotion d => Sys2Proof.Machine.execRecordAgePromotion d s
  | .launchDispatch d => Sys2Proof.Machine.execLaunchDispatch d s
  | .stageRemoval d => Sys2Proof.Machine.execStageRemoval d s
  | .teamHaltComplete o => Sys2Proof.Machine.execTeamHaltComplete o s
  | .noticeInterrupt x => Sys2Proof.Machine.execNoticeInterrupt x s
  | .doorbell x desc => Sys2Proof.Machine.execDoorbell x desc s
  | .doorbellEnqueue x => Sys2Proof.Machine.execDoorbellEnqueue x s
  | .stashAccept c => Sys2Proof.Machine.execStashAccept c s
  | .stashSourceReadDone d ue => Sys2Proof.Machine.execStashSourceReadDone d ue s
  | .stashStoreDone d => Sys2Proof.Machine.execStashStoreDone d s
  | .stashGetDone d ue => Sys2Proof.Machine.execStashGetDone d ue s
  | .stashFetchDone d => Sys2Proof.Machine.execStashFetchDone d s
  | .stashRecordInsert d => Sys2Proof.Machine.execStashRecordInsert d s
  | .wvCommitApply c => Sys2Proof.Machine.execWvCommitApply c s
  | .patrolScrub d t r => Sys2Proof.Machine.execPatrolScrub d t r s
  | .powerOn b => Sys2Proof.Machine.execPowerOn b s
  | .islandFreqChangeDone ix => Sys2Proof.Machine.execIslandFreqChangeDone ix s
  | .powerManagerPeriod watts => Sys2Proof.Machine.execPowerManagerPeriod watts s
  | .droopStretch ix depthMv => Sys2Proof.Machine.execDroopStretch ix depthMv s
  | .thermalCap ix => Sys2Proof.Machine.execThermalCap ix s
  | .islandCools ix => Sys2Proof.Machine.execIslandCools ix s
  | .thermalTrip => Sys2Proof.Machine.execThermalTrip s
  | .surveyHourly => Sys2Proof.Machine.execSurveyHourly s
  | .surveyShutdown => Sys2Proof.Machine.execSurveyShutdown s
  | .powerFail => Sys2Proof.Machine.execPowerFail s
  | .hostDma pa len op => Sys2Proof.Machine.execHostDma pa len op s
  | .load off len => Sys2Proof.Machine.execLoad off len s
  | .getVersion => Sys2Proof.Machine.execGetVersion s
  | .getCapabilities => Sys2Proof.Machine.execGetCapabilities s
  | .negotiateAlgorithms peer rsa sha offer => Sys2Proof.Machine.execNegotiateAlgorithms peer rsa sha offer s
  | .getDigests => Sys2Proof.Machine.execGetDigests s
  | .getCertificate slot => Sys2Proof.Machine.execGetCertificate slot s
  | .challenge nonce => Sys2Proof.Machine.execChallenge nonce s
  | .getMeasurements idx signed => Sys2Proof.Machine.execGetMeasurements idx signed s
  | .keyExchange peer role auth => Sys2Proof.Machine.execKeyExchange peer role auth s
  | .finish m => Sys2Proof.Machine.execFinish m s
  | .heartbeat sess => Sys2Proof.Machine.execHeartbeat sess s
  | .keyUpdate sess => Sys2Proof.Machine.execKeyUpdate sess s
  | .endSession sess => Sys2Proof.Machine.execEndSession sess s
  | .spdmUnsupportedRequest code => Sys2Proof.Machine.execSpdmUnsupportedRequest code s
  | .setJobKey sess key => Sys2Proof.Machine.execSetJobKey sess key s
  | .setImageKey sess slot key => Sys2Proof.Machine.execSetImageKey sess slot key s
  | .setTrustAnchor sess cert => Sys2Proof.Machine.execSetTrustAnchor sess cert s
  | .setReference sess idx digest => Sys2Proof.Machine.execSetReference sess idx digest s
  | .release sess => Sys2Proof.Machine.execRelease sess s
  | .switchAdmit serial root meas ack => Sys2Proof.Machine.execSwitchAdmit serial root meas ack s
  | .pathFirstEvaluation p => Sys2Proof.Machine.execPathFirstEvaluation p s
  | .switchWithdraw w => Sys2Proof.Machine.execSwitchWithdraw w s
  | .switchSessionClose serial => Sys2Proof.Machine.execSwitchSessionClose serial s
  | .mctailWrite v => Sys2Proof.Machine.execMctailWrite v s
  | .mcRingConfigWrite size v => Sys2Proof.Machine.execMcRingConfigWrite size v s
  | .hostRegisterWrite r v => Sys2Proof.Machine.execHostRegisterWrite r v s
  | .mcUnknownCommand => Sys2Proof.Machine.execMcUnknownCommand s
  | .ctxCreate => Sys2Proof.Machine.execCtxCreate s
  | .ctxDestroy => Sys2Proof.Machine.execCtxDestroy s
  | .ctxSetPageTableRoot => Sys2Proof.Machine.execCtxSetPageTableRoot s
  | .ctxSetSaveRegion => Sys2Proof.Machine.execCtxSetSaveRegion s
  | .ctxSetStashRegion => Sys2Proof.Machine.execCtxSetStashRegion s
  | .ctxSetSpillRegion => Sys2Proof.Machine.execCtxSetSpillRegion s
  | .ctxSetUndoRegion => Sys2Proof.Machine.execCtxSetUndoRegion s
  | .ctxSetPol => Sys2Proof.Machine.execCtxSetPol s
  | .ctxSetWatchdogLimit => Sys2Proof.Machine.execCtxSetWatchdogLimit s
  | .ctxSetLockQuota => Sys2Proof.Machine.execCtxSetLockQuota s
  | .ctxSetTvec => Sys2Proof.Machine.execCtxSetTvec s
  | .ctxSetSaveStride => Sys2Proof.Machine.execCtxSetSaveStride s
  | .dieSetWayQuota => Sys2Proof.Machine.execDieSetWayQuota s
  | .dieSetScrubRate => Sys2Proof.Machine.execDieSetScrubRate s
  | .fwinWrite => Sys2Proof.Machine.execFwinWrite s
  | .bind => Sys2Proof.Machine.execBind s
  | .unbind => Sys2Proof.Machine.execUnbind s
  | .groupWrite => Sys2Proof.Machine.execGroupWrite s
  | .pathDefine => Sys2Proof.Machine.execPathDefine s
  | .pathRemove => Sys2Proof.Machine.execPathRemove s
  | .tlbInval => Sys2Proof.Machine.execTlbInval s
  | .wvSet => Sys2Proof.Machine.execWvSet s
  | .stop => Sys2Proof.Machine.execStop s
  | .resume => Sys2Proof.Machine.execResume s
  | .fatal => Sys2Proof.Machine.execFatal s
  | .abortClose => Sys2Proof.Machine.execAbortClose s
  | .discard => Sys2Proof.Machine.execDiscard s
  | .gzPurge => Sys2Proof.Machine.execGzPurge s
  | .stashPurge => Sys2Proof.Machine.execStashPurge s
  | .lockPurge => Sys2Proof.Machine.execLockPurge s
  | .flogRead => Sys2Proof.Machine.execFlogRead s
  | .flogClear => Sys2Proof.Machine.execFlogClear s
  | .surveyRead => Sys2Proof.Machine.execSurveyRead s
  | .surveySnapshot => Sys2Proof.Machine.execSurveySnapshot s
  | .islFreq => Sys2Proof.Machine.execIslFreq s
  | .plimSet => Sys2Proof.Machine.execPlimSet s
  | .portSetRingMode => Sys2Proof.Machine.execPortSetRingMode s
  | .portSetUdpPort => Sys2Proof.Machine.execPortSetUdpPort s
  | .portSetRttTimer => Sys2Proof.Machine.execPortSetRttTimer s
  | .portSetRekeyInterval => Sys2Proof.Machine.execPortSetRekeyInterval s
  | .portSetOverflowStaging => Sys2Proof.Machine.execPortSetOverflowStaging s
  | .portSetHeartbeat => Sys2Proof.Machine.execPortSetHeartbeat s
  | .linkReset => Sys2Proof.Machine.execLinkReset s
  | .moduleReset => Sys2Proof.Machine.execModuleReset s
  | .cbdefWrite c n v => Sys2Proof.Machine.execCbdefWrite c n v s
  | .cbptrWrite c n v => Sys2Proof.Machine.execCbptrWrite c n v s
  | .estatWrite c e v => Sys2Proof.Machine.execEstatWrite c e v s
  | .ststatWrite c v => Sys2Proof.Machine.execStstatWrite c v s
  | .seedWrite c v => Sys2Proof.Machine.execSeedWrite c v s

end Sys2Proof.Machine
end

