-- ==== Sys2Proof/Machine/Run.lean ====
section
/-! DEFINITION. How the machine moves (95_what_each_step_holds, log entry 4): the cores take turns, and between their turns the other agents do what is due.
With it, where a program's first instruction is placed (log entry 5). -/
namespace Sys2Proof.Machine

/-! ### What the agents beside the cores have to do -/

/-- A core's number as an operand of an event. -/
def coreId (i : Nat) : CoreId := Fin.ofNat 512 i
/-- A die's. -/
def dieId (d : Nat) : Die := Fin.ofNat 4 d
/-- A context's. -/
def ctxId (x : Nat) : CtxId := Fin.ofNat 8 x

/-- The event of a calendar entry that is due (R108, R146, R175, R185, R252). -/
def calEvent (c : CoreId) (e : CalEv) : Event :=
  match e with
  | .sqReady _ _ => .resultReady c
  | .vqReady _ _ => .resultReady c
  | .gData _ _ _ => .loadDataArrival c
  | .vData _ _ _ => .loadDataArrival c
  | .mmaStart => .mmaStart c
  | .mmaFinish => .mmaFinish c
  | .azero _ => .tileOperationFinish c
  | .ascale _ _ => .tileOperationFinish c
  | .ato _ _ _ _ _ _ _ => .tileOperationFinish c
  | .drain _ _ r => if r = 64 then .tileOperationFinish c else .adrainRowPresent c
  | .wrow _ _ _ => .wrowLand c
  | .clock _ => .loadDataArrival c

/-- The first entry of the calendar that is due and that nothing keeps waiting. -/
def Core.due (c : Core) : Option CalEv := (c.cal.find? fun e => decide (e.1 ≤ c.cyc) && !c.wrowWaits e.2).map (·.2)

/-- Events of one copy engine. -/
def engineEvents (c : CoreId) (k : Core) (e : Eng) : List Event :=
  if (k.eng e).q.isEmpty || (k.eng e).frz then []
  else [.engineCommandStart c e, .engineCbClaim c e, .engineTransfer c e, .unitComplete c e]

/-- Events of one core's units. -/
def coreEvents (i : Nat) (k : Core) : List Event :=
  let c := coreId i
  engineEvents c k .c0 ++ engineEvents c k .c1
    ++ (if k.flights.any (fun f => !f.pending) then [.loadDataArrival c] else [])
    ++ k.barArrs.map (fun r => .barrierBankUpdate c (BitVec.ofNat 19 r.off))
    ++ (if k.mesh.isEmpty then [] else [.meshAccessArrival c])
    ++ (if k.wcs.any (fun p => p.2.pend.isSome) then [.wakeTokenEnqueue c] else [])
    ++ (if k.chq.q.isEmpty then [] else [.channelMessageDepart c])
    ++ (if k.recvs.isEmpty then [] else [.receiveDelivery c])
    ++ (if k.stash.q.isEmpty then [] else [.stashAccept c, .wvCommitApply c])

/-- Whether a core of a die holds a `gz.put` for the Gazetteer (R240). -/
def gzWaits (s : State) (d : Nat) : Bool :=
  s.cores.any fun p => coreDie p.1 == d && (p.2.gzAsk.isSome || match p.2.defer with
    | some q => match q.op with
      | .gzPut _ _ _ _ => true
      | _ => false
    | none => false)

/-- Whether a record that has come by a channel is parked for a die's Gazetteer (R319, R320). -/
def gzParked (s : State) (d : Nat) : Bool := s.binds.any fun p => p.2.loc.die == d && p.2.parked.any fun q => match q.2 with
  | .record _ _ _ :: _ => true
  | _ => false

/-- Events of one die's agents. -/
def dieEvents (s : State) (d : Nat) : List Event :=
  let x := s.die d
  let i := dieId d
  (if x.stRecs.isEmpty then [] else [.stashRecordInsert i])
    ++ (if x.gz.isEmpty && x.gzAgent.isEmpty && x.stages.isEmpty && x.regCols.isEmpty && !gzWaits s d && !gzParked s d then [] else [.gazetteerCycle i, .orderedFoldSweep i])
    ++ (if x.lq.isEmpty then [] else [.launchDispatch i])
    ++ (if x.stages.any (fun g => !g.removing.isEmpty) then [.stageRemoval i] else [])
    ++ (if x.jobs.any (fun j => j.moving && j.op == .put) then [.stashSourceReadDone i] else [])
    ++ (if x.stash.any (fun e => e.st == .writing) then [.stashStoreDone i] else [])
    ++ (if x.stash.any (fun e => e.st == .fetching) then [.stashFetchDone i] else [])
    ++ (if x.jobs.any (fun j => j.moving && j.op == .get) then [.stashGetDone i] else [])
    ++ (if x.walks.isEmpty then [] else [.pageWalkStart i, .pageWalkDone i])

/-- Events of the memory system: fills and the accesses that wait at the homes. -/
def homeEvents (s : State) : List Event :=
  s.prefs.map (fun p => .l2Fill (Fin.ofNat 1024 (homeSlice p.2.2)))
    ++ s.home.flatMap (fun r => [.l2Fill (Fin.ofNat 1024 (homeSlice r.unit)), .homeAccess (Fin.ofNat 1024 (homeSlice r.unit))])
    ++ s.scHeld.map (fun _ => .scAtomicPerform)

/-- Events of a binding: credit that goes out, messages that come over the module's own links, and messages that land. -/
def bindEvents (n : Nat) (b : Binding) : List Event :=
  (if b.pend = 0 then [] else [.creditForward n])
    ++ b.wire.map (fun p => .messageArrival n p.1)
    ++ (b.parked.filter fun p => !p.2.isEmpty).map (fun p => .messageLand n p.1)

/-- Events of a collective: its chunks, what the die has staged for it, and its record. -/
def collEvents (s : State) (x : CtxId) (c : Coll) : List Event :=
  let mine := (s.die c.die).colStage.filter fun q => q.isOf x c q.chunk && (if q.member = c.n then !(c.chunk q.chunk).written
    else c.sumsHere q.chunk && (tabGet? (c.chunk q.chunk).parts q.member).isNone)
  if c.ended || c.done then [.completionRecordWrite x c.id]
  else
    (((allChunks c).filter fun j => !(c.chunk j).sent).map fun j => .chunkStart x c.id j)
      ++ (if cbSub c.blk then mine.map (fun q =>
            if q.member = c.n then .chunkResultArrival x c.id q.chunk else .contributionArrival x c.id q.member q.chunk)
          else [])
      ++ (((allChunks c).filter fun j => !(c.chunk j).parts.isEmpty && (c.chunk j).result.isNone).map fun j => .chunkSum x c.id j)

/-- Events of a context: its doorbell, notices and collectives. -/
def ctxEvents (s : State) (n : Nat) (x : Ctx) : List Event :=
  let i := ctxId n
  (if x.db.pend.isSome then [.doorbellEnqueue i] else []) ++ (if x.db.window then [.noticeInterrupt i] else [])
    ++ x.colls.flatMap (collEvents s i)

/-- The command of an entry of the ring (R449). -/
def commandOf (e : Nat) : Instr :=
  match mcOpc e with
  | 1 => .ctxCreate
  | 2 => .ctxDestroy
  | 3 => match mcArg e 0 with
    | 1 => .ctxSetPageTableRoot
    | 2 => .ctxSetSaveRegion
    | 3 => .ctxSetStashRegion
    | 4 => .ctxSetSpillRegion
    | 5 => .ctxSetUndoRegion
    | 6 => .ctxSetPol
    | 7 => .ctxSetWatchdogLimit
    | 8 => .ctxSetLockQuota
    | 9 => .ctxSetTvec
    | 10 => .ctxSetSaveStride
    | _ => .mcUnknownCommand
  | 4 => match mcArg e 1 with
    | 1 => .dieSetWayQuota
    | 2 => .dieSetScrubRate
    | _ => .mcUnknownCommand
  | 5 => .fwinWrite
  | 6 => .bind
  | 7 => .unbind
  | 8 => .groupWrite
  | 9 => .pathDefine
  | 0xA => .pathRemove
  | 0xB => .tlbInval
  | 0xC => .wvSet
  | 0x10 => .stop
  | 0x11 => .resume
  | 0x12 => .fatal
  | 0x13 => .abortClose
  | 0x14 => .discard
  | 0x15 => .gzPurge
  | 0x16 => .stashPurge
  | 0x17 => .lockPurge
  | 0x18 => .flogRead
  | 0x19 => .flogClear
  | 0x1A => .surveyRead
  | 0x1B => .surveySnapshot
  | 0x20 => .islFreq
  | 0x21 => .plimSet
  | 0x22 => match mcArg e 1 with
    | 1 => .portSetRingMode
    | 2 => .portSetUdpPort
    | 3 => .portSetRttTimer
    | 4 => .portSetRekeyInterval
    | 5 => .portSetOverflowStaging
    | 6 => .portSetHeartbeat
    | _ => .mcUnknownCommand
  | 0x23 => .linkReset
  | 0x30 => .moduleReset
  | _ => .mcUnknownCommand

/-- What the management controller does next. -/
def mcEvents (s : State) : List Event :=
  match s.mc.wait with
  | some (.destroy _) => [.command]
  | some (.inval x _ _) => [.tlbInvalComplete (ctxId x.toNat)]
  | some (.stop _) => []
  | some .reset => []
  | none => if s.mcGo then [.command] else []

/-- The Cartouche's and the islands' events. -/
def otherEvents (s : State) : List Event :=
  (if s.cart.toWrite.isEmpty then [] else [.trustWrite])
    ++ ((s.cart.paths.filter fun p => !p.2.eval).map fun p => .pathFirstEvaluation (Fin.ofNat 1024 p.1))
    ++ ((s.cart.switches.filter fun w => !w.admitted).map fun w => .switchSessionClose w.serial)
    ++ ((rangeFrom 0 8).filterMap fun n => if (s.port n).rekeyDue || (s.port n).rekey == .installed then some (.linkRekey (Fin.ofNat 14 n)) else none)
    ++ ((s.isles.filter fun p => p.2.busy).map fun p => .islandFreqChangeDone (Fin.ofNat 128 p.1))

/-- The mesh's clocks at the end of a round: every sixteenth round 16 mesh cycles are counted, the cores report for the horizon, and the
periods of the watchdogs, of record ages and of the refresh rotation end (R260, R278, R279, R303, R305). -/
def clockEvents (s : State) : List Event :=
  if s.rounds % 16 ≠ 15 then []
  else
    let t := s.meshCyc + 16
    [.lclkTick, .horizonRound] ++ (if 256 ≤ s.slotNs + 10 then [.weightRefreshSlot] else [])
      ++ ((s.cores.filter fun p => p.2.runs && decide ((t - p.2.wdFrom) / 1024 ≠ (s.meshCyc - p.2.wdFrom) / 1024)).map fun p =>
            .watchdogPeriod (coreId p.1))
      ++ ((s.dies.filter fun p => p.2.gz.any fun e => decide ((t - e.born) / 1024 ≠ (s.meshCyc - e.born) / 1024)).map fun p =>
            .recordAgePromotion (dieId p.1))

/-- Ends and suspensions of teams. -/
def teamEvents (s : State) : List Event :=
  s.teams.flatMap fun p =>
    if allHalted s p.2 then [.teamHaltComplete (coreId p.1)] else if p.2.stop.isSome then [.teamSave (coreId p.1)] else []

/-- Everything that an agent of the module may do now. A module that is not ready brings itself up first. -/
def agentEvents (s : State) : List Event :=
  let load : List Event := if s.cart.loading.isSome then [.load] else []
  if !s.ready then load ++ (if s.mc.boot.isSome then [.powerOn] else []) ++ mcEvents s
  else
    load ++
    mcEvents s ++ s.cores.flatMap (fun p => coreEvents p.1 p.2) ++ homeEvents s ++ s.binds.flatMap (fun p => bindEvents p.1 p.2)
      ++ s.ctxs.flatMap (fun p => ctxEvents s p.1 p.2) ++ [0, 1, 2, 3].flatMap (dieEvents s) ++ teamEvents s ++ otherEvents s

/-- The meaning of an event: that of its row of the opcode table. -/
def runEvent (e : Event) (s : State) : Out :=
  match e with
  | .command => exec (commandOf s.mcCmd) s
  | .resultReady c => execResultReady c s
  | .loadDataArrival c => execLoadDataArrival c false s
  | .mmaStart c => execMmaStart c s
  | .mmaFinish c => execMmaFinish c s
  | .tileOperationFinish c => execTileOperationFinish c s
  | .adrainRowPresent c => execAdrainRowPresent c s
  | .wrowLand c => execWrowLand c s
  | .engineCommandStart c e => execEngineCommandStart c e s
  | .engineCbClaim c e => execEngineCbClaim c e s
  | .engineTransfer c e => execEngineTransfer c e false s
  | .unitComplete c e => execUnitComplete c e s
  | .barrierBankUpdate c off => execBarrierBankUpdate c off s
  | .meshAccessArrival c => execMeshAccessArrival c s
  | .wakeTokenEnqueue c => execWakeTokenEnqueue c s
  | .channelMessageDepart c => execChannelMessageDepart c false s
  | .receiveDelivery c => execReceiveDelivery c false s
  | .stashAccept c => execStashAccept c s
  | .wvCommitApply c => execWvCommitApply c s
  | .stashRecordInsert d => execStashRecordInsert d s
  | .gazetteerCycle d => execGazetteerCycle d s
  | .orderedFoldSweep d => execOrderedFoldSweep d s
  | .launchDispatch d => execLaunchDispatch d s
  | .stageRemoval d => execStageRemoval d s
  | .stashSourceReadDone d => execStashSourceReadDone d false s
  | .stashStoreDone d => execStashStoreDone d s
  | .stashFetchDone d => execStashFetchDone { die := d, ue := false } s
  | .stashGetDone d => execStashGetDone d false s
  | .pageWalkStart d => execPageWalkStart d s
  | .pageWalkDone d => execPageWalkDone d none s
  | .l2Fill sl => execL2Fill sl s
  | .homeAccess sl => execHomeAccess sl s
  | .scAtomicPerform => execScAtomicPerform s
  | .creditForward b => execCreditForward b s
  | .messageArrival b ti => execMessageArrival b ti none s
  | .messageLand b ti => execMessageLand b ti s
  | .completionRecordWrite x id => execCompletionRecordWrite x id s
  | .chunkStart x id chunk => execChunkStart x id { chunk := chunk, ue := false } s
  | .chunkSum x id chunk => execChunkSum x id { chunk := chunk, ue := false } s
  | .chunkResultArrival x id chunk => execChunkResultArrival x id chunk [] [] s
  | .contributionArrival x id member chunk => execContributionArrival x id member chunk [] true s
  | .doorbellEnqueue x => execDoorbellEnqueue x s
  | .noticeInterrupt x => execNoticeInterrupt x s
  | .tlbInvalComplete x => execTlbInvalComplete x s
  | .pathFirstEvaluation p => execPathFirstEvaluation p s
  | .switchSessionClose serial => execSwitchSessionClose serial s
  | .islandFreqChangeDone i => execIslandFreqChangeDone i s
  | .lclkTick => execLclkTick s
  | .horizonRound => execHorizonRound s
  | .weightRefreshSlot => execWeightRefreshSlot s
  | .watchdogPeriod c => execWatchdogPeriod c s
  | .recordAgePromotion d => execRecordAgePromotion d s
  | .teamHaltComplete o => execTeamHaltComplete o s
  | .teamSave o => execTeamSave o s
  | .powerOn => execPowerOn .done s
  | .trustWrite => .next (s.modCart Cart.writeNext)
  | .linkRekey p => execLinkRekey p s
  | .load => execLoad none 0 s

/-! ### The cores' turns -/

/-- Whether a core takes turns: it runs, or results of it are still due. -/
def Core.acts (c : Core) : Bool := c.runs || (c.live && !c.cal.isEmpty)

/-- The core whose turn is next, and whether the round ends. -/
def nextCore (s : State) : Nat × Bool :=
  let l := (s.cores.filter fun p => p.2.acts).map (·.1)
  match l.find? fun i => decide (s.cur < i) with
  | some i => (i, false)
  | none => (l.headD s.cur, true)

/-- The turn passes: the agents' events come next, and at the end of a round the clocks'. -/
def passTurn (s : State) : State :=
  let (i, e) := nextCore s
  { s with cur := i, rounds := if e then s.rounds + 1 else s.rounds,
           agenda := agentEvents s ++ if e && s.ready then clockEvents s else [] }

/-- A core keeps the turn until its bundle is complete or it is held. -/
def settle (s : State) : State :=
  match s.me.bun with
  | none => passTurn s
  | some b => if s.me.defer.isSome || s.me.held.queue || s.me.held.other || b.groups.isEmpty then passTurn s else s

/-- Fetch and decode of the bundle at the pc, where none is in issue. -/
def fetchBundle (s : State) : State :=
  match execInstructionFetch (coreId s.cur) false s with
  | .next t => match execBundleDecode (coreId s.cur) t with
    | .next u => u
    | _ => t
  | _ => s

/-- What a running core does: it looks at its deferred slot, or issues the next group, fetching its bundle first where none is in issue. -/
def runCore (s : State) : State :=
  if s.me.defer.isSome then completeBundle (acceptDeferred s)
  else
    let s1 := if s.me.bun.isNone then fetchBundle s else s
    if s1.me.bun.isNone then s1 else completeBundle (issueGroup s1)

/-- The turn of the acting core, which has power once the module is ready (R443, R444). -/
def turn (s : State) : Out :=
  let c := s.me
  if !c.acts || !s.ready then .next (passTurn s)
  else
    match c.due with
    | some e => runEvent (calEvent (coreId s.cur) e) s
    | none =>
      match c.run with
      | .running => .next (settle (runCore s))
      | .stopping => .next (passTurn ((checkStopping s).upd Core.tick))
      | _ => .next (passTurn (s.upd Core.tick))

/-- What comes about next: the containment of a context of which a line could not be written back (R416), an event that has been called for, or the turn of
a core. -/
def moveOn (s : State) : Out :=
  match s.lostLines, s.agenda with
  | p :: _, _ => .next (containLine p.1 p.2 s)
  | [], e :: l => runEvent e { s with agenda := l }
  | [], [] => turn s

/-! ### Placing an instruction -/

/-- The bank fields of the one v source or the two of a slot that has a bundle to itself: the ports of its reads (R28). -/
def vpFields (reads : List (Nat × Nat × Nat)) : Nat × Nat :=
  match reads.map fun r => 4 + 2 * (r.1 - 2) + r.2.1 with
  | a :: b :: _ => (a, b)
  | [a] => (a, 0)
  | [] => (0, 0)

/-- The header of a bundle of one field (R15), with exactly the read ports that the field needs (R28, R29). -/
def headerOf (slot : Nat) (f : BitVec 24) : Nat :=
  let (gs, vs) := portUse true [{ slot := slot, field := f, inc := false, op := instrOf slot f false }]
  let ev := vpFields (vs.filter fun x => x.2.2 % 2 == 0)
  let od := vpFields (vs.filter fun x => x.2.2 % 2 == 1)
  2 ^ (2 * slot) + ev.1 * 2 ^ 24 + ev.2 * 2 ^ 27 + od.1 * 2 ^ 30 + od.2 * 2 ^ 33
    + gs.getD 0 0 * 2 ^ 36 + gs.getD 1 0 * 2 ^ 39 + gs.getD 2 0 * 2 ^ 42

/-- A bundle that holds one field alone. -/
def bundleBytesOf (slot : Nat) (f : BitVec 24) : List Byte := natBytes 8 (headerOf slot f) ++ natBytes 3 f.toNat

/-- Where an instruction is placed for a core that runs no program yet. -/
def codeBase : Nat := 0x10000000

/-- The executable page of that place. -/
def codePage : TlbEnt :=
  { ctx := 0, lg := 16, vpn := codeBase / 2 ^ 16, base := codeBase, r := true, w := false, x := true, chk := false, cls := 0, ncmb := false }

/-- The bytes at physical addresses from `codeBase` on. -/
def storeCode (l : List Byte) (s : State) : State := { s with mem := memWrite s.mem codeBase l }

/-- Core 0 runs at `codeBase` in context 0 as a team of one core, with its page known to it; in its handler for `sysret`, which is legal
nowhere else (R124). -/
def startCore (tm : Bool) (s : State) : State :=
  let x : Ctx := { s.ctx 0 with live := true }
  let t : Team := loneTeam 0
  let c : Core := { s.core 0 with run := .running, team := some 0, pc := BitVec.ofNat 64 codeBase, tm := tm, tlb := tlbInsert 64 codePage (s.core 0).tlb,
                                  fetched := none, bun := none, defer := none, reent := none, cal := [], token := false, wdDue := false }
  { s with agenda := [], lostLines := [], cur := 0, ready := true, rail := 400, mc := { s.mc with boot := none }, ctxs := tabSet s.ctxs 0 x, teams := tabSet s.teams 0 t, cores := tabSet s.cores 0 c }

/-- The machine with an instruction of the opcode table where the next step fetches it (log entry 5). -/
def placeWord (w : Nat) (s : State) : State :=
  match decodeAnySlot (BitVec.ofNat 24 w) with
  | some (slot, i) => startCore (i == .sysret) (storeCode (bundleBytesOf slot (BitVec.ofNat 24 w)) s)
  | none => startCore false (storeCode (bundleBytesOf 0 (BitVec.ofNat 24 w)) s)

end Sys2Proof.Machine
end

