-- ==== Sys2Proof/Machine/Step.lean ====
section
/-! DEFINITION. One step of the module. -/
namespace Sys2Proof.Machine

/-- One step: what comes about next. -/
def step (s : State) : Host.Outcome State Fault Refusal := moveOn s

/-- See `placeWord`. -/
def State.withFetchWord (s : State) (_nbits w : Nat) : State := placeWord w s

end Sys2Proof.Machine
end

