-- ==== Sys2Proof/WellFormed.lean ====
section
/-! DEFINITION. Which terms of the syntax are steps of the machine: what the operand types do not already say. -/
namespace Sys2Proof

/-- The source of a latch write in slots M, C0 and C1 is an sq or g value; in slot K it may also be an immediate or a
special scalar, and never a p register (R39). -/
def latchSrcOk (u : MckUnit) (s : Src) : Bool :=
  match u, s with
  | _, .sq _ => true
  | _, .g _ => true
  | .k, .p _ => false
  | .k, _ => true
  | _, _ => false

/-- A well-formed step. `sbar` names at least one stream (R126); latch writes name a source their unit has; a write
access of the host carries bytes, and a DMA window is not empty (R393). -/
def Instr.wf : Instr → Bool
  | .sbar rd wr mem => rd || wr || mem
  | .mckLatA u a => latchSrcOk u a
  | .mckLatAb u a b => latchSrcOk u a && latchSrcOk u b
  | .hostDma _ len (.write data) => len != 0 && data.length == len
  | .hostDma _ len .openWindow => len != 0
  | _ => true

end Sys2Proof
end

