-- ==== Sys2Proof/Safety.lean ====
section
/-! DEFINITION. What counts as a safe run, and the terms in which the claims speak of a slot operation: when its operands can be read, the
state in which it takes its effect, and what a state leaves alone. -/
namespace Sys2Proof

/-- The step from `s` stops neither with a fault nor with a refusal. -/
def Safe (s : Machine.State) : Prop := ∃ t, Machine.step s = .next t

/-- `k` steps from `s` are safe. -/
def SafeFor (k : Nat) (s : Machine.State) : Prop := ∃ t, core.run k s = .next t

namespace Machine

/-! ### Operands that can be read (R24, R32, R48) -/

/-- The position of sq has its ready bit set. -/
abbrev SqReady (s : State) (a : Fin 16) : Prop := (s.me.sqAt a).ready = true
/-- The position of vq has. -/
abbrev VqReady (s : State) (a : Fin 16) : Prop := (s.me.vqAt a).ready = true
/-- The scoreboard bit of a g register is clear. -/
abbrev GClear (s : State) (n : Fin 16) : Prop := tabGet? s.me.gsb n = none
/-- The scoreboard bit of a v register is clear. -/
abbrev VClear (s : State) (n : Fin 32) : Prop := tabGet? s.me.vsb n = none
/-- A tile queue holds a row. -/
abbrev TqFull (s : State) (q : Fin 4) : Prop := (s.me.tq q).rows.isEmpty = false

/-- A source of the B, S and K slots can be read. -/
def SrcReady (s : State) : Src → Prop
  | .sq a => SqReady s a
  | .g n => GClear s n
  | _ => True

/-- An sq or g source can be read. -/
def SgReady (s : State) : SqG → Prop
  | .sq a => SqReady s a
  | .g n => GClear s n

/-- A V source can be read. -/
def SrcVReady (s : State) : SrcV → Prop
  | .vq a => VqReady s a
  | .v n => VClear s n
  | .sq a => SqReady s a
  | .g n => GClear s n
  | .tq q => TqFull s q
  | _ => True

/-- An index vector can be read. -/
def IdxReady (s : State) : IdxV → Prop
  | .vq a => VqReady s a
  | .v n => VClear s n
  | .tq q => TqFull s q

/-- The second source of a V memory operation can be read. -/
def OffReady (s : State) : OffV → Prop
  | .sq a => SqReady s a
  | .g n => GClear s n
  | _ => True

/-- A lane count or selector can be read. -/
def CntReady (s : State) : CntV → Prop
  | .sq a => SqReady s a
  | .g n => GClear s n
  | _ => True

/-! ### Where an operation takes its effect -/

/-- The state in which a slot operation takes its effect: the acting core notes the slot and is not held. -/
def atSlot (n : Nat) (s : State) : State := s.upd fun c => { c with held := {}, slot := n }

/-! ### Encodings -/

/-- The increment of mode 11 that an instruction carries (R22): it comes from the header of its bundle and not from its field. -/
def incOf : Instr → Bool
  | .st _ _ _ x => x
  | .ldI8 _ _ _ x => x
  | .ldN8 _ _ _ x => x
  | .ldI16 _ _ _ x => x
  | .ldN16 _ _ _ x => x
  | .ldI32 _ _ _ x => x
  | .ldN32 _ _ _ x => x
  | .ldN64 _ _ _ x => x
  | .vld _ _ _ _ x => x
  | .vldS _ _ _ _ x => x
  | .ldTr _ _ _ _ x => x
  | .vst _ _ _ x => x
  | .vstS _ _ _ x => x
  | _ => false

/-- The field that encodes a well-formed instruction decodes to it, with every operand, in the slot of its class; `sysret` in a handler
only. -/
def RoundTrip (i : Instr) : Prop :=
  i.wf = true → ∀ slot f, encode i = some (slot, f) → ∀ tm, (tm = true ∨ i ≠ .sysret) → decodeField tm slot f (incOf i) = .ok i

/-! ### What a state leaves alone -/

/-- Every byte of memory reads as before: global memory, every scratchpad, every weight store and the host's memory. -/
def SameMemory (s t : State) : Prop :=
  (∀ a, t.gByte a = s.gByte a) ∧ (∀ i a, t.spByte i a = s.spByte i a) ∧ (∀ d a n, t.wsBytes d a n = s.wsBytes d a n)
    ∧ t.hostMem = s.hostMem

/-- Nothing but the acting core differs. -/
def OnlyMe (s t : State) : Prop := t = { s with cores := tabSet s.cores s.cur t.me }

end Machine

end Sys2Proof
end

