-- ==== Sys2Proof/Certificates/Slice0/Obligations.lean ====
section
/-! DEFINITION. The statements for the provers, each a proposition about the model, with the tables of results in which they speak. -/
namespace Sys2Proof.Claims
open Machine

/-! ### Pushes -/

/-- The state after a slot operation pushes a value on sq that is due after `lat` cycles, and draws on the generator if it names it. -/
def pushSqAt (n lat : Nat) (v : Word) (draws : Bool) (s : State) : State :=
  (atSlot n s).upd fun c => (c.pushSq lat v).drawIf draws

/-- The state after a V operation pushes a vector on vq, and pops the tile queues that it names. -/
def pushVqAt (u : Pipe) (lat : Nat) (v : Vec) (p q : Option (Fin 4)) (draws : Bool) (s : State) : State :=
  (atSlot (pipeSlot u) s).upd fun c => ((c.pushVq lat v).popV p q).drawIf draws

/-! ### Slot S: arithmetic -/

/-- The two-source operations of slot S: latency (R108), result (R132) and sources. -/
def scalar2Of : Instr → Option (Nat × (Word → Word → Word) × Src × Src)
  | .addI64 a b => some (1, fun x y => BitVec.ofNat 64 (x.toNat + y.toNat), a, b)
  | .subI64 a b => some (1, fun x y => BitVec.ofInt 64 (x.toNat - y.toNat), a, b)
  | .mulI64 a b => some (3, fun x y => BitVec.ofNat 64 (x.toNat * y.toNat), a, b)
  | .mulhI64 a b => some (3, fun x y => BitVec.ofInt 64 (x.toInt * y.toInt / 2 ^ 64), a, b)
  | .mulhN64 a b => some (3, fun x y => BitVec.ofNat 64 (x.toNat * y.toNat / 2 ^ 64), a, b)
  | .divI64 a b => some (34, fun x y => if y = 0 then BitVec.allOnes 64 else x.sdiv y, a, b)
  | .divN64 a b => some (34, fun x y => if y = 0 then BitVec.allOnes 64 else x / y, a, b)
  | .sAnd a b => some (1, fun x y => x &&& y, a, b)
  | .sOr a b => some (1, fun x y => x ||| y, a, b)
  | .sXor a b => some (1, fun x y => x ^^^ y, a, b)
  | .sAndn a b => some (1, fun x y => x &&& ~~~y, a, b)
  | .sShl a b => some (1, fun x y => BitVec.ofNat 64 (x.toNat * 2 ^ (y &&& 63).toNat), a, b)
  | .shrN64 a b => some (1, fun x y => BitVec.ofNat 64 (x.toNat / 2 ^ (y &&& 63).toNat), a, b)
  | .shrI64 a b => some (1, fun x y => BitVec.ofInt 64 (x.toInt / 2 ^ (y &&& 63).toNat), a, b)
  | .rotl a b => some (1, fun x y => (x <<< (y &&& 63).toNat) ||| (x >>> (64 - (y &&& 63).toNat)), a, b)
  | .minI64 a b => some (1, fun x y => if x.slt y then x else y, a, b)
  | .minN64 a b => some (1, fun x y => if x.ult y then x else y, a, b)
  | .maxI64 a b => some (1, fun x y => if x.slt y then y else x, a, b)
  | .maxN64 a b => some (1, fun x y => if x.ult y then y else x, a, b)
  | .ceq a b => some (1, fun x y => if x = y then 1 else 0, a, b)
  | .cne a b => some (1, fun x y => if x = y then 0 else 1, a, b)
  | .cltI64 a b => some (1, fun x y => if x.slt y then 1 else 0, a, b)
  | .cltN64 a b => some (1, fun x y => if x.ult y then 1 else 0, a, b)
  | .cleI64 a b => some (1, fun x y => if x.sle y then 1 else 0, a, b)
  | .cleN64 a b => some (1, fun x y => if x.ule y then 1 else 0, a, b)
  | _ => none

/-! ### Slots V0 and V1: arithmetic -/

/-- A signed number clamped to 32 bits. -/
def clampBits (z : Int) : Nat := intBits 32 (max (-(2 ^ 31)) (min (2 ^ 31 - 1) z))

/-- A lane of ones where a relation holds (R150). -/
def onesIf (b : Bool) : Nat := if b then 2 ^ 32 - 1 else 0

/-- An operation on the elements of a floating format, rounded RNE. -/
def floatElem (g : FF) (f : FpNum → FpNum → FpNum) (x y : Nat) : Nat := g.rne (f (g.value x) (g.value y))

/-- The two-source operations on the elements of vectors: pipe, latency (R146), how a field's elements are read, result of an element (R147,
R149, R150), and sources. -/
def vector2Of : Instr → Option (Pipe × Nat × ElemFmt × (Nat → Nat → Nat) × SrcV × SrcV)
  | .addF32 u a b => some (u, 4, efF32, floatElem ffF32 FpNum.add, a, b)
  | .addBf16 u a b => some (u, 4, efBf16, floatElem ffBf16 FpNum.add, a, b)
  | .addF16 u a b => some (u, 4, efF16, floatElem ffF16 FpNum.add, a, b)
  | .subF32 u a b => some (u, 4, efF32, floatElem ffF32 fun x y => x.add y.negate, a, b)
  | .subBf16 u a b => some (u, 4, efBf16, floatElem ffBf16 fun x y => x.add y.negate, a, b)
  | .subF16 u a b => some (u, 4, efF16, floatElem ffF16 fun x y => x.add y.negate, a, b)
  | .mulF32 u a b => some (u, 4, efF32, floatElem ffF32 FpNum.mul, a, b)
  | .mulBf16 u a b => some (u, 4, efBf16, floatElem ffBf16 FpNum.mul, a, b)
  | .mulF16 u a b => some (u, 4, efF16, floatElem ffF16 FpNum.mul, a, b)
  | .minF32 u a b => some (u, 4, efF32, floatElem ffF32 FpNum.min, a, b)
  | .minBf16 u a b => some (u, 4, efBf16, floatElem ffBf16 FpNum.min, a, b)
  | .minF16 u a b => some (u, 4, efF16, floatElem ffF16 FpNum.min, a, b)
  | .maxF32 u a b => some (u, 4, efF32, floatElem ffF32 FpNum.max, a, b)
  | .maxBf16 u a b => some (u, 4, efBf16, floatElem ffBf16 FpNum.max, a, b)
  | .maxF16 u a b => some (u, 4, efF16, floatElem ffF16 FpNum.max, a, b)
  | .addI32 u a b => some (u, 2, efI32, fun x y => x + y, a, b)
  | .subI32 u a b => some (u, 2, efI32, fun x y => x + (2 ^ 32 - y), a, b)
  | .mulI32 u a b => some (u, 2, efI32, fun x y => x * y, a, b)
  | .addSatI32 u a b => some (u, 2, efI32, fun x y => clampBits (sintOf 32 x + sintOf 32 y), a, b)
  | .subSatI32 u a b => some (u, 2, efI32, fun x y => clampBits (sintOf 32 x - sintOf 32 y), a, b)
  | .minI32 u a b => some (u, 2, efI32, fun x y => if sintOf 32 x ≤ sintOf 32 y then x else y, a, b)
  | .minN32 u a b => some (u, 2, efI32, fun x y => min x y, a, b)
  | .maxI32 u a b => some (u, 2, efI32, fun x y => if sintOf 32 x ≤ sintOf 32 y then y else x, a, b)
  | .maxN32 u a b => some (u, 2, efI32, fun x y => max x y, a, b)
  | .vAnd u a b => some (u, 2, efI32, fun x y => x &&& y, a, b)
  | .vOr u a b => some (u, 2, efI32, fun x y => x ||| y, a, b)
  | .vXor u a b => some (u, 2, efI32, fun x y => x ^^^ y, a, b)
  | .vAndn u a b => some (u, 2, efI32, fun x y => x &&& (2 ^ 32 - 1 - y), a, b)
  | .vShl u a b => some (u, 2, efI32, fun x y => x * 2 ^ (y % 32), a, b)
  | .shrN32 u a b => some (u, 2, efI32, fun x y => x / 2 ^ (y % 32), a, b)
  | .shrI32 u a b => some (u, 2, efI32, fun x y => intBits 32 (sintOf 32 x / 2 ^ (y % 32)), a, b)
  | .ceqF32 u a b => some (u, 2, efF32, fun x y => onesIf ((f32 x).eqB (f32 y)), a, b)
  | .cltF32 u a b => some (u, 2, efF32, fun x y => onesIf ((f32 x).ltB (f32 y)), a, b)
  | .cleF32 u a b => some (u, 2, efF32, fun x y => onesIf ((f32 x).leB (f32 y)), a, b)
  | .ceqI32 u a b => some (u, 2, efI32, fun x y => onesIf (decide (x = y)), a, b)
  | .cltI32 u a b => some (u, 2, efI32, fun x y => onesIf (decide (sintOf 32 x < sintOf 32 y)), a, b)
  | .cltN32 u a b => some (u, 2, efI32, fun x y => onesIf (decide (x < y)), a, b)
  | _ => none

/-- The operations with latch A of their pipe as a third source: the addend of `fma` (R147), and the selector of `sel` (R151). -/
def vector3Of : Instr → Option (Pipe × Nat × ElemFmt × (Nat → Nat → Nat → Nat) × SrcV × SrcV)
  | .fmaF32 u a b => some (u, 4, efF32, fun x y z => ffF32.rne (((ffF32.value x).mul (ffF32.value y)).add (ffF32.value z)), a, b)
  | .fmaBf16 u a b => some (u, 4, efBf16, fun x y z => ffBf16.rne (((ffBf16.value x).mul (ffBf16.value y)).add (ffBf16.value z)), a, b)
  | .fmaF16 u a b => some (u, 4, efF16, fun x y z => ffF16.rne (((ffF16.value x).mul (ffF16.value y)).add (ffF16.value z)), a, b)
  | .vSel u a b => some (u, 2, efI32, fun x y z => if z = 0 then y else x, a, b)
  | _ => none

/-- The one-source operations on elements: the element read for element `e` of the result is element `g e` of the source, of width `w`. -/
def vector1Of : Instr → Option (Pipe × Nat × ElemFmt × (Nat → Nat) × SrcV)
  | .rcpF32 u a => some (u, 12, efF32, fun x => ffF32.rne (numRcp (f32 x)), a)
  | .rsqrtF32 u a => some (u, 12, efF32, fun x => ffF32.rne (numRsqrt (f32 x)), a)
  | .exp2F32 u a => some (u, 12, efF32, fun x => ffF32.rne (numExp2 (f32 x)), a)
  | .log2F32 u a => some (u, 12, efF32, fun x => ffF32.rne (numLog2 (f32 x)), a)
  | .cvtF32Bf16 u a => some (u, 3, efBf16, fun x => ffF32.rne (ffBf16.value x), a)
  | .cvtF32F16 u a => some (u, 3, efF16, fun x => ffF32.rne (ffF16.value x), a)
  | .cvtF32E4m3 u a => some (u, 3, efE4m3, fun x => ffF32.rne (ffE4m3.value x), a)
  | .cvtF32E5m2 u a => some (u, 3, efE5m2, fun x => ffF32.rne (ffE5m2.value x), a)
  | .cvtF32I32 u a => some (u, 3, efI32, fun x => ffF32.rne (numOfInt (sintOf 32 x)), a)
  | .cvtF32I8 u a => some (u, 3, efI8, fun x => ffF32.rne (numOfInt (sintOf 8 x)), a)
  | _ => none

/-- The narrowing conversions (R153): target, mode, `.sat` and source. -/
def cvtOf : Instr → Option (Pipe × CvtFmt × Mode × Bool × SrcV)
  | .cvt u d a => some (u, d, .dflt, false, a)
  | .cvtBf16F32Mode u a m sat => some (u, .bf16, m, sat, a)
  | .cvtF16F32Mode u a m sat => some (u, .f16, m, sat, a)
  | .cvtE4m3F32Mode u a m sat => some (u, .e4m3, m, sat, a)
  | .cvtE5m2F32Mode u a m sat => some (u, .e5m2, m, sat, a)
  | .cvtI32F32Mode u a m sat => some (u, .i32, m, sat, a)
  | .cvtI8F32Mode u a m sat => some (u, .i8, m, sat, a)
  | _ => none

/-- Lane `i` of a narrowing conversion of a vector, with the generator's word for `.sr`. -/
def cvtLane (d : CvtFmt) (m : Mode) (sat : Bool) (w : BitVec 32) (v : Vec) (i : Nat) : Conv :=
  (cvtTarget d).conv (rndOf m (cvtTarget d).dflt w i) sat (f32 (lane v i))

/-- The NX packings (R156): mantissa bits, mode and source. -/
def packOf : Instr → Option (Pipe × Nat × Mode × SrcV)
  | .packNx2 u a => some (u, 2, .dflt, a)
  | .packNx4 u a => some (u, 4, .dflt, a)
  | .packNx7 u a => some (u, 7, .dflt, a)
  | .packNx2Mode u a m _ => some (u, 2, m, a)
  | .packNx4Mode u a m _ => some (u, 4, m, a)
  | .packNx7Mode u a m _ => some (u, 7, m, a)
  | _ => none

/-- Block `b` of an NX packing, with the elements that were clamped. -/
def packBlock (k : Nat) (m : Mode) (w : BitVec 32) (v : Vec) (b : Nat) : Nat × List Nat :=
  nxEncode k (fun i => rndOf m .rna w (16 * b + i)) ((rangeFrom (16 * b) 16).map fun i => f32 (lane v i))

/-- The NX unpackings (R156). -/
def unpkOf : Instr → Option (Pipe × Nat × SrcV)
  | .unpkNx2 u a => some (u, 2, a)
  | .unpkNx4 u a => some (u, 4, a)
  | .unpkNx7 u a => some (u, 7, a)
  | _ => none

/-- node[level][j] of the tree of R80, over the lanes of a vector. -/
def treeNode (f : Nat → Nat → Nat) (v : Vec) : Nat → Nat → Nat
  | 0, j => lane v j
  | n + 1, j => f (treeNode f v n (2 * j)) (treeNode f v n (2 * j + 1))

/-- The inclusive scan at lane `i` (R81): the tree nodes of the aligned blocks that the binary digits of i + 1 give, from the largest down, combined
from left to right. -/
def scanAt (f : Nat → Nat → Nat) (v : Vec) (i : Nat) : Nat :=
  match ([6, 5, 4, 3, 2, 1, 0].filter fun k => (i + 1).testBit k).map fun k => treeNode f v k (2 * ((i + 1) / 2 ^ (k + 1))) with
  | [] => 0
  | x :: l => l.foldl f x

/-- The sum of the lanes up to `i`. -/
def laneSum (v : Vec) : Nat → Nat
  | 0 => lane v 0
  | i + 1 => laneSum v i + lane v (i + 1)

/-! ### Latches and registers -/

/-- The state after an operation of slot `n` that changes the core by `f` and nothing else but the generator where a source names it. -/
def coreAt (n : Nat) (draws : Bool) (f : Core → Core) (s : State) : State := (atSlot n s).upd fun c => (f c).drawIf draws

/-- The state in which an operation of slot `n` waits to be taken at its home (R26, R110). -/
def waitsFor (n : Nat) (op : DeferOp) (s : State) : State := (atSlot n s).upd fun c => { c with defer := some { slot := n, op := op } }

/-! ### Accesses -/

/-- The pages at which an operation looks are known: each is in a TLB, or its walk has delivered a fault (R348, R349). -/
abbrev PagesKnown (s : State) (uses : List (Nat × Perm)) : Prop := missesOf s (.slot s.cur) (s.team s.cur).ctx uses = []

/-- The state in which an operation of slot `n` acts once it knows its pages, which have entered its core's TLB (R348). -/
def withPages (n : Nat) (uses : List (Nat × Perm)) (s : State) : State := learnPages (.slot s.cur) (s.team s.cur).ctx uses (atSlot n s)

/-- What the local scratchpad asks of an access of the acting core: nothing on its way orders it later (R139, R248). -/
abbrev AccFree (s : State) : Prop := s.me.acqPending = false ∧ s.me.selfPending s.cur = false

/-- `n` bytes at an effective address lie in the local scratchpad, aligned to `al`, and pass the race check of an access (R109, R247, R275). -/
abbrev LocalOk (s : State) (ea : Word) (n al : Nat) (k : AccKind) : Prop :=
  ea.toNat + n ≤ 0x60000 ∧ ea.toNat % al = 0 ∧ granRace s s.cur s.cur ea.toNat n k = none

/-- An address of global memory or of a peer's scratchpad (R247, R249). -/
abbrev Remote (ea : Word) : Prop := (0x10000000 ≤ ea.toNat ∧ ea.toNat < 2 ^ 48) ∨ ∃ x y o : Nat, decodeEa ea = .peer x y o

/-- The scalar loads (R135): bytes, sign extension, destination, sources and mode 11. -/
def loadOf : Instr → Option (Nat × Bool × Fin 16 × Src × Src × Bool)
  | .ldI8 n a b inc => some (1, true, n, a, b, inc)
  | .ldN8 n a b inc => some (1, false, n, a, b, inc)
  | .ldI16 n a b inc => some (2, true, n, a, b, inc)
  | .ldN16 n a b inc => some (2, false, n, a, b, inc)
  | .ldI32 n a b inc => some (4, true, n, a, b, inc)
  | .ldN32 n a b inc => some (4, false, n, a, b, inc)
  | .ldN64 n a b inc => some (8, false, n, a, b, inc)
  | _ => none

/-- A number of so many bytes as a register value, sign-extended or not. -/
def regOf (k : Nat) (sx : Bool) (x : Nat) : Word := if sx then BitVec.ofInt 64 (sintOf (8 * k) x) else BitVec.ofNat 64 x

/-- The g file after mode 11 has advanced the base register of an access of `k` bytes (R137, R160). -/
def incFile (s : State) (a : Option (Fin 16)) (inc : Bool) (k : Nat) : Tab Word :=
  match a with
  | some r => if inc then tabSet s.me.g r (s.me.getG r + BitVec.ofNat 64 k) else s.me.g
  | none => s.me.g

/-- The g register that a source names. -/
def regSrc : Src → Option (Fin 16)
  | .g r => some r
  | _ => none

/-- The g register that a base names. -/
def regBase : SqG → Option (Fin 16)
  | .g r => some r
  | .sq _ => none

/-- The atomics (R138): operator, order, address and destination. -/
def amoOf : Instr → Option (AmoOp × AmoOrd × Src × Option (Fin 16))
  | .amoAddI64 o a r => some (.addI64, o, a, r)
  | .amoAnd o a r => some (.and, o, a, r)
  | .amoOr o a r => some (.or, o, a, r)
  | .amoXor o a r => some (.xor, o, a, r)
  | .amoMinI64 o a r => some (.minI64, o, a, r)
  | .amoMaxI64 o a r => some (.maxI64, o, a, r)
  | .amoMinN64 o a r => some (.minN64, o, a, r)
  | .amoMaxN64 o a r => some (.maxN64, o, a, r)
  | .amoSwap o a r => some (.swap, o, a, r)
  | .amoCas o a r => some (.cas, o, a, r)
  | .amoFaddF32 o a r => some (.faddF32, o, a, r)
  | _ => none

/-- The new value of an atomic as a number of its size (R138), from the old value and latches A and B of slot S. -/
def amoResult (op : AmoOp) (m : Nat) (a b : Word) : Nat :=
  match op with
  | .addI64 => (m + a.toNat) % 2 ^ 64
  | .and => m &&& a.toNat
  | .or => m ||| a.toNat
  | .xor => m ^^^ a.toNat
  | .minI64 => if sintOf 64 m ≤ a.toInt then m else a.toNat
  | .maxI64 => if a.toInt ≤ sintOf 64 m then m else a.toNat
  | .minN64 => min m a.toNat
  | .maxN64 => max m a.toNat
  | .swap => a.toNat
  | .cas => if m = b.toNat then a.toNat else m
  | .faddF32 => ffF32.rne ((f32 m).add (f32 (a.toNat % 2 ^ 32))) % 2 ^ 32

/-- The number that `k` bytes of the acting core's scratchpad hold. -/
def spNat (s : State) (a k : Nat) : Nat := bytesNat ((rangeFrom a k).map (s.spByte s.cur))

/-- The number that they held when the group in issue began (R25, R166). -/
def spNatBefore (s : State) (a k : Nat) : Nat := bytesNat ((rangeFrom a k).map (s.spByteBefore s.cur))

/-- Every scratchpad byte reads as before, but for `k` bytes of the acting core's at `a`, which hold a number. -/
def StoresAt (s t : State) (a k x : Nat) : Prop :=
  spNat t a k = x % 256 ^ k ∧ ∀ i b, ¬(i = s.cur ∧ a ≤ b ∧ b < a + k) → t.spByte i b = s.spByte i b

/-- The granules that `k` bytes at `a` touch have the tag of a write by the acting core, and every other has the tag it had (R273). -/
def TagsAt (s t : State) (a k : Nat) (kind : AccKind) : Prop :=
  ∀ i g, t.granTag i g = if i = s.cur ∧ a / 64 ≤ g ∧ g ≤ (a + k - 1) / 64 then writeTag s s.cur kind else s.granTag i g

/-- Global memory, the weight stores and the host's memory read as before. -/
def SameOutside (s t : State) : Prop :=
  (∀ a, t.gByte a = s.gByte a) ∧ (∀ d a n, t.wsBytes d a n = s.wsBytes d a n) ∧ t.hostMem = s.hostMem

/-- What an access changes of its core: the registers and queues named as the statement says, the bank cycles of the group, the calendar, and,
for a store, its scratchpad with tags and wake tokens. -/
def AccessFrame (n : Nat) (s t : State) : Prop :=
  OnlyMe s t ∧ SameOutside s t
    ∧ t.me = { s.me with held := {}, slot := n, g := t.me.g, gsb := t.me.gsb, vsb := t.me.vsb, seed := t.me.seed, tqs := t.me.tqs,
                         cal := t.me.cal, grpBanks := t.me.grpBanks, grpOld := t.me.grpOld, sp := t.me.sp, tags := t.me.tags,
                         wakeq := t.me.wakeq, wcs := t.me.wcs }

/-- The V loads and stores (R160): pipe, the destination of a load, base, and the bytes by which mode 11 advances it. -/
def vAccessOf : Instr → Option (Pipe × Option (Fin 32) × SqG × Bool × Nat)
  | .vld u n a _ inc => some (u, some n, a, inc, 256)
  | .vldS u n a _ inc => some (u, some n, a, inc, 4)
  | .vldX u n a _ => some (u, some n, a, false, 0)
  | .vst u a _ inc => some (u, none, a, inc, 256)
  | .vstS u a _ inc => some (u, none, a, inc, 4)
  | .vstX u a _ => some (u, none, a, false, 0)
  | _ => none

/-- The address of lane `e` (R160, R161): contiguous, strided or indexed; a null index has none. -/
def laneAddr (s : State) (e : Nat) : Instr → Option Word
  | .vld _ _ a i _ => some (readSg s a + readOff s i + BitVec.ofNat 64 (4 * e))
  | .vst _ a i _ => some (readSg s a + readOff s i + BitVec.ofNat 64 (4 * e))
  | .vldS _ _ a i _ => some (readSg s a + BitVec.ofNat 64 e * readOff s i)
  | .vstS _ a i _ => some (readSg s a + BitVec.ofNat 64 e * readOff s i)
  | .vldX _ _ a i => if lane (readIdx s i) e = 0xFFFFFFFF then none else some (readSg s a + BitVec.ofNat 64 (lane (readIdx s i) e))
  | .vstX _ a i => if lane (readIdx s i) e = 0xFFFFFFFF then none else some (readSg s a + BitVec.ofNat 64 (lane (readIdx s i) e))
  | _ => none

/-- The second source of a V access can be read. -/
def SecondReady (s : State) : Instr → Prop
  | .vld _ _ _ i _ => OffReady s i
  | .vst _ _ i _ => OffReady s i
  | .vldS _ _ _ i _ => OffReady s i
  | .vstS _ _ i _ => OffReady s i
  | .vldX _ _ _ i => IdxReady s i
  | .vstX _ _ i => IdxReady s i
  | _ => True

/-- The indices of an indexed access are multiples of 4, but for null lanes (R161). -/
def IndicesOk (s : State) : Instr → Prop
  | .vldX _ _ _ i => ∀ e, e < 64 → lane (readIdx s i) e ≠ 0xFFFFFFFF → lane (readIdx s i) e % 4 = 0
  | .vstX _ _ i => ∀ e, e < 64 → lane (readIdx s i) e ≠ 0xFFFFFFFF → lane (readIdx s i) e % 4 = 0
  | _ => True

/-- Whether a V access is contiguous. -/
def isContig : Instr → Bool
  | .vld _ _ _ _ _ => true
  | .vst _ _ _ _ => true
  | _ => false

/-- The granules of the local scratchpad that the lanes of a V access name, each once (R250). -/
def laneGrans (s : State) (i : Instr) : List Nat := (((rangeFrom 0 64).filterMap fun e => laneAddr s e i).map fun w => w.toNat / 64).eraseDups

/-- How many of them lie in bank `k` (R250). -/
def inBank (s : State) (i : Instr) (k : Nat) : Nat := ((laneGrans s i).filter fun g => g % 32 == k).length

/-- The tile queue that a V access pops. -/
def accessPops : Instr → Option (Fin 4)
  | .vldX _ _ _ i => idxPops i
  | .vstX _ _ i => idxPops i
  | _ => none

/-! ### Buffers, barriers and commands -/

/-- An object of `n` bytes in the local scratchpad that a command can read, with nothing of the core's on its way that orders the read later (R194,
R275, R451). -/
abbrev CmdOk (s : State) (a : Word) (n : Nat) : Prop :=
  AccFree s ∧ a.toNat + n ≤ 0x60000 ∧ a.toNat % 16 = 0 ∧ granRace s s.cur s.cur a.toNat n .read = none

/-- Bit `i` of a status word. -/
def flagAt (w : Word) (i : Nat) : Bool := w.getLsbD i

/-- The five stash commands: engine slot, operator, descriptor address and tag (R220). -/
def stashOf : Instr → Option (Eng × StashOp × SqG × SqG)
  | .stashPut e a b => some (e, .put, a, b)
  | .stashGet e a b => some (e, .get, a, b)
  | .stashPf e a b => some (e, .pf, a, b)
  | .stashDrop e a b => some (e, .drop, a, b)
  | .stashFree e a b => some (e, .free, a, b)
  | _ => none

/-- A descriptor as a command of the group reads it. -/
def descAt (s : State) (a : Word) (n : Nat) : BitVec 256 := BitVec.ofNat 256 (spNatBefore s a.toNat n)

/-! ### The sequencer -/

/-- The state after an operation of slot B whose effect is applied when its bundle completes: its kind and argument (R114). -/
def pendAt (k : BitVec 2) (arg : Word) (draws : Bool) (s : State) : State :=
  coreAt 0 draws (fun c => { c with pend := some { kind := k, arg := arg } }) s

/-- The state after the headers of the bundles that a loop skips have been brought in, and its address and its draw recorded (R114, R115). -/
def skippedTo (a : Src) (k : SkipNow) : State :=
  k.st.upd fun c => ({ c with pend := some { kind := 0, arg := k.addr } } : Core).drawIf (srcDraws a)

/-- A loop of no passes: it skips to the address that the search for the end of its body comes to, and while the search waits it is held, its misses
asking for their walks (R115, R349). -/
def SkipsAt (a : Src) (i : Instr) (s : State) : Prop :=
  (∀ k, k = skipBody s.cur 16 s.nextPc (atSlot 0 s) → (skipBody s.cur 16 s.nextPc s).wait = none → exec i s = .next (skippedTo a k))
    ∧ (∀ (k : SkipNow) (w : ReadWait), k = skipBody s.cur 16 s.nextPc s → k.wait = some w → s.me.issuing = false →
      exec i s = .next ((askFor (s.team s.cur).ctx w k.st).upd fun c => { c with held := { other := true } }))

/-- The system state words that are read-only, or to which nothing is assigned (R55, R130). -/
def readOnlyWord (w : Nat) : Bool :=
  [6, 15, 43, 44, 47, 48, 50, 53, 54, 55, 56].contains w || (decide (32 ≤ w) && decide (w < 43)) || decide (57 ≤ w)

/-! ### Events -/

/-- An event, or a slot operation, answers a next state of which something holds. -/
def Gives (i : Instr) (s : State) (P : State → Prop) : Prop := ∃ t, exec i s = .next t ∧ P t

/-- An event is due first in the calendar of core `c`, and `l` is the rest of it. -/
def DueFirst (s : State) (c : Nat) (e : CalEv) (l : List (Nat × CalEv)) : Prop :=
  ∃ n, (s.core c).cal = (n, e) :: l ∧ n ≤ (s.core c).cyc

/-- Nothing but core `c` differs. -/
def OnlyCore (c : Nat) (s t : State) : Prop := t = { s with cores := tabSet s.cores c (t.core c) }

/-- Binding `n` is there before and after, and the two are so related. -/
def BindMoves (s t : State) (n : Nat) (R : Binding → Binding → Prop) : Prop :=
  ∀ b, tabGet? s.binds n = some b → ∃ x, tabGet? t.binds n = some x ∧ R b x

/-- Core `c` may send by binding `n`: its queue's head may leave, and the binding is the only one of its port that has a message ready, with none
begun (R224, R232, R372), and the port's key has numbers left for it (R432). -/
abbrev PortFree (s : State) (c n : Nat) (b : Binding) : Prop :=
  (s.core c).chq.frz = false ∧ (s.core c).live = true ∧ (s.core c).chq.first ≤ (s.core c).cyc ∧ s.linkUp b.port = true
    ∧ tabGet? (s.port b.port).served n = none ∧ (s.readyBinds b.port).length ≤ 1 ∧ s.frameRoom b.port 1 4096 = true

/-- The counters of the Survey saturate (R445). -/
def countsUp (top : Nat) (t : Tab Nat) (k : Nat) : Tab Nat := tabSet t k (min top (tabGet 0 t k + 1))

/-- Nothing but the ports and the Survey's counters differ. -/
def OnlyPorts (s t : State) : Prop := t = { s with ports := t.ports, survey := { s.survey with cnt := t.survey.cnt } }

/-- A collective of a context is there before and after, and the two are so related. -/
def CollMoves (s t : State) (x id : Nat) (R : Coll → Coll → Prop) : Prop :=
  ∀ c, s.coll x id = some c → ∃ d, t.coll x id = some d ∧ R c d

/-- Element `e` of 4-byte elements. -/
def word4 (l : List Byte) (e : Nat) : Nat := bytesNat ((l.drop (4 * e)).take 4)

/-- Element `e` of 32-bit elements. -/
def elem32 (x e : Nat) : Nat := x / 2 ^ (32 * e) % 2 ^ 32

/-- What a cycle of a die's Gazetteer finds where nothing but a core's record may come in: no stage to evaluate, no team, no channel and no die
agent. -/
abbrev QuietDie (s : State) (d : Nat) : Prop :=
  (∀ g ∈ (s.die d).stages, g.due = false) ∧ s.teams = [] ∧ s.binds = [] ∧ (s.die d).gzAgent = [] ∧ (s.die d).regCols = [] ∧ (s.die d).ueGz = []

/-- The job that the stash engine makes of a core's command (R325). -/
def jobOf (s : State) (c : Nat) (m : StashCmd) : StashJob :=
  { core := c, ctx := (s.team c).ctx, stage := (s.team c).stage, op := m.op, desc := m.desc, tag := m.tag, id := m.id }

/-- Core `c` has one command in its stash queue, which the engine has not taken, and nothing keeps it from being taken (R325, R331). -/
abbrev OneCommand (s : State) (c : Nat) (m : StashCmd) : Prop :=
  (s.core c).stash.q = [m] ∧ m.sent = false ∧ (s.core c).stash.frz = false ∧ (s.core c).live = true ∧ recWaits (s.die (coreDie c)) c = false
    ∧ (s.die (coreDie c)).jobs = []

/-- The Survey takes a record of a kind, chained to the record before it by its digest, unless it is full (R445). -/
def SurveyTakes (s t : State) (kind : Nat) : Prop :=
  (s.survey.recs.length < 65536 → ∃ r, t.survey.recs = s.survey.recs ++ [r] ∧ r.kind = kind ∧ r.seq = s.survey.seq
    ∧ (∀ q, s.survey.recs.getLast? = some q → r.prev = sha512 q.bytes) ∧ (s.survey.recs = [] → r.prev = 0)
    ∧ t.survey.seq = s.survey.seq + 1)
  ∧ (65536 ≤ s.survey.recs.length → t.survey.recs = s.survey.recs)

/-- An event with an answer over DOE alone (R429). -/
def Answers (i : Instr) (s : State) (r : DoeResp) : Prop :=
  exec i s = .next { s with cart := { s.cart with doe := s.cart.doe ++ [r] } }

/-- Session `n` is open with a verifier, and the mailbox is open (R429, R430). -/
def Verifier (s : State) (n : Nat) : Prop :=
  s.pcieUp = true ∧ ∃ x, s.cart.sess n = some x ∧ x.open_ = true ∧ x.role = .verifier

/-- The Cartouche after an answer in session `x`: secured, and counted (R430). -/
def securedBy (x : Sess) (r : DoeResp) (c : Cart) : Cart :=
  { c with sessions := c.sessions.map fun y => if y.id = x.id then { y with seq := y.seq + 1 } else y
           doe := c.doe ++ [.secured x.id (secure "rsp app data" x x.seq r.message)] }

/-- The Cartouche after a request of its own in session `x`: secured, and counted (R429). -/
def askedBy (x : Sess) (code : Nat) (c : Cart) : Cart :=
  { c with sessions := c.sessions.map fun y => if y.id = x.id then { y with rseq := y.rseq + 1 } else y
           asked := c.asked ++ [{ role := x.role, peer := x.peer, sess := some x.id, code := code
                                  data := secure "req app data" x x.rseq [0x13, BitVec.ofNat 8 code, 0, 0] }] }

/-- A message of the verifier is refused in its session `n`. -/
def VerifierRefused (n : Nat) (i : Instr) (s : State) : Prop :=
  ∀ x, s.cart.sess n = some x → exec i s = .next { s with cart := securedBy x (.error "Refused") s.cart }

/-- A message of the verifier is acknowledged in its session `n`, with its effect on the Cartouche. -/
def VerifierSets (n : Nat) (i : Instr) (s : State) (request : String) (f : Cart → Cart) : Prop :=
  ∀ x, s.cart.sess n = some x → exec i s = .next { s with cart := securedBy x (.ack request) (f s.cart) }

/-- The trust words after a change of the admissions, where no earlier write is left to do: every path that holds the switch is to be written, the
lowest of them is written at once, each write counted by EPOCH, and every other word stays (R437). -/
def TrustFollows (s t : State) (serial : Word) : Prop :=
  (∀ l, l = (s.cart.paths.filter fun p => p.2.switches.contains serial).map (·.1) → t.cart.toWrite = l.drop 1
    ∧ t.cart.epoch = s.cart.epoch + BitVec.ofNat 32 (min 1 l.length)
    ∧ ∀ p d, tabGet? s.cart.paths p = some d → ∃ e, tabGet? t.cart.paths p = some e ∧ e.switches = d.switches ∧ e.eval = d.eval
      ∧ (l.head? = some p → e.att = (d.eval && d.switches.all t.cart.admitted)) ∧ (l.head? ≠ some p → e = d))

/-- The management controller is about to start the entry `e` of its ring, none of whose reserved flags is set (R448, R450). -/
abbrev McStarts (s : State) (e : Nat) : Prop :=
  s.mcGo = true ∧ s.mcCmd = e ∧ mcFlags e < 2

/-- The other memories of the machine are in canonical form: every scratchpad, every weight store, the host's memory and the staging window (R246, R257,
R426). -/
def StoresOk (s : State) : Prop :=
  (∀ p ∈ s.cores, Memory.wf p.2.sp = true) ∧ (∀ p ∈ s.dies, Memory.wf p.2.ws = true) ∧ Memory.wf s.hostMem = true
    ∧ Memory.wf s.cart.window = true

/-- A ring command that completes at once in a state, with its status and result. -/
def Completes (i : Instr) (s : State) (status : Nat) (result : Word) (u : State) : Prop := exec i s = .next (mcComplete status result u)

/-- An item of CTX_SET (R449) of a context that exists and has no team dispatched is stored. -/
def CtxSets (item : Nat) (i : Instr) (ok : State → Nat → Prop) (f : Nat → Ctx → Ctx) : Prop :=
  ∀ (s : State) (e : Nat), McStarts s e → mcOpc e = 3 → mcArg e 0 = item → mcCtx e ≤ 7 → (s.ctx (mcCtx e)).live = true →
    (∀ p ∈ s.teams, p.2.ctx.toNat ≠ mcCtx e) → ok s e → Completes i s 0 0 (s.modCtx (mcCtx e) (f e))

/-- An item of PORT_SET (R449) is stored. -/
def PortSets (item lo : Nat) (i : Instr) (ok : Nat → Prop) (f : Nat → PortSt → PortSt) : Prop :=
  ∀ (s : State) (e : Nat), McStarts s e → mcOpc e = 0x22 → mcArg e 1 = item → lo ≤ mcArg e 0 → mcArg e 0 ≤ 7 → ok e →
    Completes i s 0 0 (s.modPort (mcArg e 0) (f e))

/-! ### Steps, reset and traps -/

/-- Core `cur` has the turn, runs, and is about to fetch a bundle: no event has been called for, no result is due, and no token, watchdog
or earlier bundle stands before it. -/
abbrev AboutToFetch (s : State) : Prop :=
  s.ready = true ∧ s.lostLines = [] ∧ s.agenda = [] ∧ s.cur < 512 ∧ s.me.run = .running ∧ s.me.due = none ∧ s.me.defer = none ∧ s.me.bun = none ∧ s.me.fetched = none
    ∧ s.me.reent = none ∧ s.me.token = false ∧ s.me.wdDue = false

/-- The state `t` that a fetch has left, with the bundle of the acting core, if it decoded, in issue. -/
def fetchedState (t : State) (b : Option Bundle) : State := t.upd fun c => { c with redir := false, fetched := none, bun := b }

/-- The acting core looks whether its slot may issue. -/
def trying (s : State) : State := s.upd fun c => { c with held := {}, issuing := false, gzAsk := none }

/-- The acting core issues its group, which holds the operation `i` in slot `n` alone. -/
def issuedState (n : Nat) (i : Instr) (s : State) : State :=
  let t := (trying s).upd fun c => c.beginGroup [(n, i)]
  if 4 ≤ n then releaseGroup s.cur t else t

end Sys2Proof.Claims

open Sys2Proof Sys2Proof.Machine Sys2Proof.Claims

/-- R132: with both sources readable, every two-source operation of slot S answers the state in which its result, computed on the values of
the two sources, is the new position 0 of sq, due after its latency; nothing else changes but the generator where a source names it. -/
def Obligations.ScalarArithmetic : Prop :=
  ∀ (i : Instr) (lat : Nat) (f : Word → Word → Word) (a b : Src) (s : State),
    scalar2Of i = some (lat, f, a, b) → SrcReady s a → SrcReady s b →
    exec i s = .next (pushSqAt 1 lat (f (readSrc s a) (readSrc s b)) (srcDraws a || srcDraws b) s)

/-- R131, R133, R54: the one-source operations of slot S, and its literals. -/
def Obligations.ScalarUnary : Prop :=
  (∀ (a : Src) (s : State), SrcReady s a → exec (.sMov a) s = .next (pushSqAt 1 1 (readSrc s a) (srcDraws a) s))
    ∧ (∀ (a b : Src) (s : State), SrcReady s a → SrcReady s b →
        exec (.sSel a b) s = .next (pushSqAt 1 1 (if s.me.bank.lat.sA = 0 then readSrc s b else readSrc s a) (srcDraws a || srcDraws b) s))
    ∧ (∀ (a : Src) (s : State), SrcReady s a → ∃ n : Nat,
        exec (.clz a) s = .next (pushSqAt 1 1 (BitVec.ofNat 64 n) (srcDraws a) s)
          ∧ (readSrc s a = 0 → n = 64)
          ∧ (readSrc s a ≠ 0 → n ≤ 63 ∧ 2 ^ (63 - n) ≤ (readSrc s a).toNat ∧ (readSrc s a).toNat < 2 ^ (64 - n)))
    ∧ (∀ (a : Src) (s : State), SrcReady s a →
        exec (.popc a) s = .next (pushSqAt 1 1 (BitVec.ofNat 64 ((List.range 64).countP fun i => (readSrc s a).getLsbD i)) (srcDraws a) s))
    ∧ (∀ (imm : BitVec 16) (s : State), exec (.li imm) s = .next (pushSqAt 1 1 (BitVec.ofInt 64 imm.toInt) false s))
    ∧ (∀ (imm : BitVec 16) (s : State), SqReady s 0 →
        exec (.lih imm) s = .next (pushSqAt 1 1 (BitVec.ofNat 64 ((s.me.sqAt 0).val.toNat * 2 ^ 16 + imm.toNat)) false s))

/-- R147, R149, R150: every element of the vector that a two-source operation pushes is the operation of the elements of its sources. -/
def Obligations.VectorArithmetic : Prop :=
  ∀ (i : Instr) (u : Pipe) (lat : Nat) (ef : ElemFmt) (f : Nat → Nat → Nat) (a b : SrcV) (s : State),
    vector2Of i = some (u, lat, ef, f, a, b) → SrcVReady s a → SrcVReady s b →
    ∃ r : Vec, exec i s = .next (pushVqAt u lat r (vPops a) (vPops b) (vDraws a || vDraws b) s)
      ∧ ∀ e, e < 2048 / ef.w → vElem ef.w r e = f (vElem ef.w (readV s ef a) e) (vElem ef.w (readV s ef b) e) % 2 ^ ef.w

/-- R147, R151: the same with latch A of the pipe as the third source. That `sel`, which names no element format, reads a scalar or an
immediate source as a 32-bit integer in each lane is the model's choice. Where it rests on a choice of the model: log entry 59. -/
def Obligations.VectorWithLatch : Prop :=
  ∀ (i : Instr) (u : Pipe) (lat : Nat) (ef : ElemFmt) (f : Nat → Nat → Nat → Nat) (a b : SrcV) (s : State),
    vector3Of i = some (u, lat, ef, f, a, b) → SrcVReady s a → SrcVReady s b →
    ∃ r : Vec, exec i s = .next (pushVqAt u lat r (vPops a) (vPops b) (vDraws a || vDraws b) s)
      ∧ ∀ e, e < 2048 / ef.w → vElem ef.w r e
          = f (vElem ef.w (readV s ef a) e) (vElem ef.w (readV s ef b) e) (vElem ef.w (latA s.me u) e) % 2 ^ ef.w

/-- R148, R154, R156: the one-source operations that give 64 FP32 lanes, and the unpackings. That an unpacking, and `mov`, reads a scalar or
an immediate source as a 32-bit integer in each lane is the model's choice. Where it rests on a choice of the model: log entry 59. -/
def Obligations.VectorUnary : Prop :=
  (∀ (i : Instr) (u : Pipe) (lat : Nat) (ef : ElemFmt) (f : Nat → Nat) (a : SrcV) (s : State),
    vector1Of i = some (u, lat, ef, f, a) → SrcVReady s a →
    ∃ r : Vec, exec i s = .next (pushVqAt u lat r (vPops a) none (vDraws a) s)
      ∧ ∀ e, e < 64 → lane r e = f (vElem ef.w (readV s ef a) e) % 2 ^ 32)
    ∧ (∀ (i : Instr) (u : Pipe) (k : Nat) (a : SrcV) (s : State), unpkOf i = some (u, k, a) → SrcVReady s a →
      ∃ r : Vec, exec i s = .next (pushVqAt u 3 r (vPops a) none (vDraws a) s)
        ∧ ∀ e, e < 64 → lane r e = ffF32.rne (nxElem k (vElem (nxBits k) (readV s efI32 a) (e / 16)) (e % 16)) % 2 ^ 32)
    ∧ (∀ (u : Pipe) (a : SrcV) (s : State), SrcVReady s a →
      exec (.vMov u a) s = .next (pushVqAt u 2 (readV s efI32 a) (vPops a) none (vDraws a) s))

/-- R153, R154, R156, R75: the narrowing conversions and packings place their results densely from bit 0 with zeros above, and set the CVSAT
bit of every lane that was clamped. -/
def Obligations.VectorNarrowing : Prop :=
  (∀ (i : Instr) (u : Pipe) (d : CvtFmt) (m : Mode) (sat : Bool) (a : SrcV) (s : State),
    cvtOf i = some (u, d, m, sat, a) → SrcVReady s a →
    ∃ (r : Vec) (w : Word), exec i s = .next ((atSlot (pipeSlot u) s).upd fun c =>
        (({ c.pushVq 3 r with cvsat := w }).popV (vPops a) none).drawIf (modeDraws m || vDraws a))
      ∧ (∀ e, e < 64 → vElem (cvtTarget d).w r e = (cvtLane d m sat (genWord s.me.seed) (readV s efF32 a) e).bits % 2 ^ (cvtTarget d).w)
      ∧ (∀ e, 64 ≤ e → vElem (cvtTarget d).w r e = 0)
      ∧ (∀ e, e < 64 → w.getLsbD e = (s.me.cvsat.getLsbD e || (cvtLane d m sat (genWord s.me.seed) (readV s efF32 a) e).clamp)))
    ∧ (∀ (i : Instr) (u : Pipe) (k : Nat) (m : Mode) (a : SrcV) (s : State), packOf i = some (u, k, m, a) → SrcVReady s a →
      ∃ (r : Vec) (w : Word), exec i s = .next ((atSlot (pipeSlot u) s).upd fun c =>
          (({ c.pushVq 3 r with cvsat := w }).popV (vPops a) none).drawIf (modeDraws m || vDraws a))
        ∧ (∀ b, b < 4 → vElem (nxBits k) r b = (packBlock k m (genWord s.me.seed) (readV s efF32 a) b).1 % 2 ^ nxBits k)
        ∧ (∀ b, 4 ≤ b → vElem (nxBits k) r b = 0)
        ∧ (∀ b e, b < 4 → e < 16 → w.getLsbD (16 * b + e)
            = (s.me.cvsat.getLsbD (16 * b + e) || (packBlock k m (genWord s.me.seed) (readV s efF32 a) b).2.contains e)))

/-- R80, R81, R157: a reduction gives node[6][0] of the tree in every lane; with i32 addition that is the sum of the 64 lanes modulo 2^32. -/
def Obligations.VectorReduction : Prop :=
  (∀ (u : Pipe) (a : SrcV) (op : RedOp) (s : State), SrcVReady s a →
    ∃ r : Vec, exec (.redF32 u a op) s = .next (pushVqAt u 6 r (vPops a) none (vDraws a) s)
      ∧ ∀ e, e < 64 → lane r e = treeNode (redF op) (readV s efF32 a) 6 0 % 2 ^ 32)
    ∧ (∀ (u : Pipe) (a : SrcV) (op : RedOp) (s : State), SrcVReady s a →
      ∃ r : Vec, exec (.redI32 u a op) s = .next (pushVqAt u 6 r (vPops a) none (vDraws a) s)
        ∧ (∀ e, e < 64 → lane r e = treeNode (redI op) (readV s efI32 a) 6 0 % 2 ^ 32)
        ∧ (op = .add → ∀ e, e < 64 → lane r e = laneSum (readV s efI32 a) 63 % 2 ^ 32))

/-- R81, R158: the scans. Every lane of an inclusive scan combines the nodes of the blocks that cover the lanes up to its own, a NaN being the
canonical one, so that lane 63 is node[6][0]; an exclusive scan gives the identity and then the inclusive results of the lanes below; an
i32 addition scan gives the sums of the lanes up to its own. -/
def Obligations.VectorScan : Prop :=
  (∀ (u : Pipe) (a : SrcV) (op : RedOp) (s : State), SrcVReady s a →
    ∃ r x : Vec, exec (.scanF32 u a op false) s = .next (pushVqAt u 6 r (vPops a) none (vDraws a) s)
      ∧ exec (.scanF32 u a op true) s = .next (pushVqAt u 6 x (vPops a) none (vDraws a) s)
      ∧ (∀ e, e < 64 → lane r e = nanF32 (scanAt (redF op) (readV s efF32 a) e % 2 ^ 32) % 2 ^ 32)
      ∧ lane r 63 = nanF32 (treeNode (redF op) (readV s efF32 a) 6 0 % 2 ^ 32) % 2 ^ 32
      ∧ lane x 0 = redIdF op
      ∧ ∀ e, e < 63 → lane x (e + 1) = lane r e)
    ∧ (∀ (u : Pipe) (a : SrcV) (op : RedOp) (s : State), SrcVReady s a →
      ∃ r x : Vec, exec (.scanI32 u a op false) s = .next (pushVqAt u 6 r (vPops a) none (vDraws a) s)
        ∧ exec (.scanI32 u a op true) s = .next (pushVqAt u 6 x (vPops a) none (vDraws a) s)
        ∧ (∀ e, e < 64 → lane r e = scanAt (redI op) (readV s efI32 a) e % 2 ^ 32)
        ∧ lane r 63 = treeNode (redI op) (readV s efI32 a) 6 0 % 2 ^ 32
        ∧ lane x 0 = redIdI op
        ∧ (∀ e, e < 63 → lane x (e + 1) = lane r e)
        ∧ (op = .add → ∀ e, e < 64 → lane r e = laneSum (readV s efI32 a) e % 2 ^ 32))

/-- R159: the three permutes, lane by lane. That they read a scalar or an immediate source as a 32-bit integer in each lane is the model's
choice. Where it rests on a choice of the model: log entry 59. -/
def Obligations.VectorPermute : Prop :=
  (∀ (u : Pipe) (a : SrcV) (i : IdxV) (s : State), SrcVReady s a → IdxReady s i →
    ∃ r : Vec, exec (.perm u a i) s = .next (pushVqAt u 3 r (vPops a) (idxPops i) (vDraws a) s)
      ∧ ∀ e, e < 64 → lane r e = lane (readV s efI32 a) (lane (readIdx s i) e % 64))
    ∧ (∀ (u : Pipe) (a : SrcV) (n : CntV) (s : State), SrcVReady s a → CntReady s n →
      ∃ r : Vec, exec (.bcast u a n) s = .next (pushVqAt u 3 r (vPops a) none (vDraws a) s)
        ∧ ∀ e, e < 64 → lane r e = lane (readV s efI32 a) (readCnt s n % 64))
    ∧ (∀ (u : Pipe) (a : SrcV) (n : CntV) (s : State), SrcVReady s a → CntReady s n →
      ∃ r : Vec, exec (.lrot u a n) s = .next (pushVqAt u 3 r (vPops a) none (vDraws a) s)
        ∧ ∀ e, e < 64 → lane r ((e + readCnt s n) % 64) = lane (readV s efI32 a) e)

/-- R39, R40: the latch writes and the moves into registers. That those of the V pipes, which name no element format, read a scalar or an
immediate source as a 32-bit integer in each lane is the model's choice. Where it rests on a choice of the model: log entry 59. -/
def Obligations.LatchesAndMoves : Prop :=
  (∀ (a : Src) (s : State), SrcReady s a →
    exec (.sLatA a) s = .next (coreAt 1 (srcDraws a) (fun c => c.modLat fun l => { l with sA := readSrc s a }) s)
      ∧ (∀ n : Fin 8, exec (.sMovP n a) s = .next (coreAt 1 (srcDraws a) (fun c => c.setP n (readSrc s a)) s))
      ∧ (∀ n : Fin 16, GClear s n → exec (.movG n a) s = .next (coreAt 1 (srcDraws a) (fun c => c.setG n (readSrc s a)) s))
      ∧ (∀ u : MckUnit, exec (.mckLatA u a) s
          = .next (coreAt (unitSlot u) (srcDraws a) (fun c => c.modLat fun l => l.setA u (readSrc s a)) s)))
    ∧ (∀ (a b : Src) (s : State), SrcReady s a → SrcReady s b →
      exec (.sLatAb a b) s
          = .next (coreAt 1 (srcDraws a || srcDraws b) (fun c => c.modLat fun l => { l with sA := readSrc s a, sB := readSrc s b }) s)
        ∧ ∀ u : MckUnit, exec (.mckLatAb u a b) s = .next (coreAt (unitSlot u) (srcDraws a || srcDraws b)
            (fun c => c.modLat fun l => (l.setA u (readSrc s a)).setB u (readSrc s b)) s))
    ∧ (∀ (u : Pipe) (a : SrcV) (s : State), SrcVReady s a →
      exec (.vLatA u a) s = .next (coreAt (pipeSlot u) (vDraws a)
          (fun c => (c.modLat (setLatA u (readV s efI32 a))).popV (vPops a) none) s)
        ∧ (∀ n : Fin 32, VClear s n → exec (.movV u n a) s
            = .next (coreAt (pipeSlot u) (vDraws a) (fun c => (c.setV n (readV s efI32 a)).popV (vPops a) none) s))
        ∧ (∀ n : Fin 8, ∃ m : Word, exec (.vMovP u n a) s
              = .next (coreAt (pipeSlot u) (vDraws a) (fun c => (c.setP n m).popV (vPops a) none) s)
            ∧ ∀ e, e < 64 → m.getLsbD e = decide (lane (readV s efI32 a) e ≠ 0)))
    ∧ (∀ (u : Pipe) (a b : SrcV) (s : State), SrcVReady s a → SrcVReady s b →
      exec (.vLatAb u a b) s = .next (coreAt (pipeSlot u) (vDraws a || vDraws b)
          (fun c => (c.modLat fun l => setLatB u (readV s efI32 b) (setLatA u (readV s efI32 a) l)).popV (vPops a) (vPops b)) s))
    ∧ (∀ (u : Pipe) (a : SrcV) (k : CntV) (s : State), SrcVReady s a → CntReady s k →
      exec (.wrow u a k) s = .next (coreAt (pipeSlot u) (vDraws a)
          (fun c => (c.after 2 (.wrow (Fin.ofNat 64 (readCnt s k / 256)) (Fin.ofNat 64 (readCnt s k)) (readV s efF32 a))).popV (vPops a) none) s))

/-- R135, R137: a scalar load from the local scratchpad marks its destination, and its value, read as the group began, comes at a fixed cycle:
4 cycles later, or more where lower slots of its group use its banks. Where it rests on a choice of the model: log entry 26. -/
def Obligations.ScalarLoads : Prop :=
  ∀ (i : Instr) (k : Nat) (sx : Bool) (n : Fin 16) (a b : Src) (inc : Bool) (s : State),
    loadOf i = some (k, sx, n, a, b, inc) → SrcReady s a → SrcReady s b → GClear s n → AccFree s →
    LocalOk s (readSrc s a + readSrc s b) k k .read →
    ∃ (t : State) (d : Nat), exec i s = .next t
      ∧ (s.me.grpBanks = [] → d = 0)
      ∧ t.me.cal = calInsert (s.me.cyc + 4 + d)
          (.gData n (regOf k sx (spNatBefore s (readSrc s a + readSrc s b).toNat k)) (readSrc s a + readSrc s b)) s.me.cal
      ∧ t.me.gsb = tabSet s.me.gsb n .awaited ∧ t.me.g = incFile s (regSrc a) inc k
      ∧ t.me.seed = (if srcDraws a || srcDraws b then advance s.me.seed else s.me.seed)
      ∧ AccessFrame 1 s t ∧ t.me.sp = s.me.sp ∧ t.me.tags = s.me.tags ∧ t.me.wakeq = s.me.wakeq ∧ t.me.wcs = s.me.wcs
      ∧ t.me.vsb = s.me.vsb ∧ t.me.tqs = s.me.tqs

/-- R136, R137, R273: a scalar store into the local scratchpad writes the low bytes of latch A at its address, tags the granules it touches,
and leaves every other byte of memory alone. -/
def Obligations.ScalarStores : Prop :=
  ∀ (w : StW) (a b : Src) (inc : Bool) (s : State),
    SrcReady s a → SrcReady s b → AccFree s → LocalOk s (readSrc s a + readSrc s b) (stBytes w) (stBytes w) .write →
    ∃ t : State, exec (.st w a b inc) s = .next t
      ∧ StoresAt s t (readSrc s a + readSrc s b).toNat (stBytes w) s.me.bank.lat.sA.toNat
      ∧ TagsAt s t (readSrc s a + readSrc s b).toNat (stBytes w) .write
      ∧ t.me.g = incFile s (regSrc a) inc (stBytes w)
      ∧ t.me.seed = (if srcDraws a || srcDraws b then advance s.me.seed else s.me.seed)
      ∧ AccessFrame 1 s t ∧ t.me.cal = s.me.cal ∧ t.me.gsb = s.me.gsb ∧ t.me.vsb = s.me.vsb ∧ t.me.tqs = s.me.tqs

/-- R138, R139, R278: an atomic of the orders `.rlx` and `.acq` on the local scratchpad replaces the value at its address by the result of its
operator, and the old value goes to its destination, with the location's clock behind it for `.acq`; `.rel` does once the core's accesses
have been performed, and leaves its clock at the location. Where it rests on a choice of the model: log entry 26. -/
def Obligations.LocalAtomics : Prop :=
  ∀ (i : Instr) (op : AmoOp) (o : AmoOrd) (a : Src) (r : Option (Fin 16)) (s : State) (x : Amo),
    amoOf i = some (op, o, a, r) → o ≠ .sc → (o = .rel → s.me.accPending = false) → SrcReady s a → (∀ n, r = some n → GClear s n) →
    AccFree s → x = { op := op, ord := o, v := s.me.bank.lat.sA, c := s.me.bank.lat.sB } →
    LocalOk s (readSrc s a) (amoSize op) (amoSize op) (.atomic x) →
    ∃ (t : State) (d : Nat), exec i s = .next t
      ∧ StoresAt s t (readSrc s a).toNat (amoSize op)
          (amoResult op (spNat s (readSrc s a).toNat (amoSize op)) s.me.bank.lat.sA s.me.bank.lat.sB)
      ∧ TagsAt s t (readSrc s a).toNat (amoSize op) (.atomic x)
      ∧ (s.me.grpBanks = [] → d = 0)
      ∧ (r = none → t.me.gsb = s.me.gsb) ∧ (∀ n, r = some n → t.me.gsb = tabSet s.me.gsb n .awaited)
      ∧ (∀ l, l = (match r with
            | some n => calInsert (s.me.cyc + 4 + d)
                (.gData n (BitVec.ofNat 64 (spNat s (readSrc s a).toNat (amoSize op))) (readSrc s a)) s.me.cal
            | none => s.me.cal) →
          t.me.cal = if o = .acq then calInsert (s.me.cyc + 4 + d) (.clock (s.locClock (locKey (some s.cur) (readSrc s a).toNat))) l else l)
      ∧ (o ≠ .rel → t.relClk = s.relClk)
      ∧ (o = .rel → t.relClk = tabSet s.relClk (locKey (some s.cur) (readSrc s a).toNat)
          (wordMax (tabGet 0 s.relClk (locKey (some s.cur) (readSrc s a).toNat)) s.me.lclk))
      ∧ t.me.g = s.me.g ∧ t.me.seed = (if srcDraws a then advance s.me.seed else s.me.seed)
      ∧ AccessFrame 1 { s with relClk := t.relClk } t ∧ t.me.vsb = s.me.vsb ∧ t.me.tqs = s.me.tqs

/-- R110, R139: an access of slot S to global memory or to a peer's scratchpad waits, with what it will do, for its acceptance; nothing of it
happens before, and an `.sc` atomic waits so in the local scratchpad too. -/
def Obligations.RemoteAccessesWait : Prop :=
  (∀ (i : Instr) (k : Nat) (sx : Bool) (n : Fin 16) (a b : Src) (inc : Bool) (s : State),
    loadOf i = some (k, sx, n, a, b, inc) → SrcReady s a → SrcReady s b → GClear s n → s.me.acqPending = false →
    Remote (readSrc s a + readSrc s b) →
    (readSrc s a + readSrc s b).toNat % k = 0 →
    ∃ x : Access, exec i s = .next (waitsFor 1 (.access x) s)
      ∧ x.kind = .read ∧ x.dest = .g n k sx ∧ x.elems.map (·.ea) = [readSrc s a + readSrc s b] ∧ x.elems.map (·.len) = [k])
    ∧ (∀ (w : StW) (a b : Src) (inc : Bool) (s : State), SrcReady s a → SrcReady s b → s.me.acqPending = false →
    Remote (readSrc s a + readSrc s b) →
    (readSrc s a + readSrc s b).toNat % stBytes w = 0 →
    ∃ x : Access, exec (.st w a b inc) s = .next (waitsFor 1 (.access x) s)
      ∧ x.kind = .write ∧ x.elems.map (·.ea) = [readSrc s a + readSrc s b]
      ∧ x.elems.map (·.data) = [natBytes (stBytes w) s.me.bank.lat.sA.toNat])
    ∧ (∀ (i : Instr) (op : AmoOp) (o : AmoOrd) (a : Src) (r : Option (Fin 16)) (s : State),
    amoOf i = some (op, o, a, r) → SrcReady s a → (∀ n, r = some n → GClear s n) → s.me.acqPending = false →
    (o = .rel ∨ o = .sc → s.me.accPending = false) →
    (Remote (readSrc s a) ∧ (readSrc s a).toNat % amoSize op = 0) ∨ (o = .sc ∧ s.me.selfPending s.cur = false
      ∧ LocalOk s (readSrc s a) (amoSize op) (amoSize op) (.atomic { op := op, ord := o, v := s.me.bank.lat.sA, c := s.me.bank.lat.sB })) →
    ∃ x : Access, exec i s = .next (waitsFor 1 (.access x) s)
      ∧ x.kind = .atomic { op := op, ord := o, v := s.me.bank.lat.sA, c := s.me.bank.lat.sB }
      ∧ x.elems.map (·.ea) = [readSrc s a] ∧ x.elems.map (·.len) = [amoSize op])

/-- R160, R161, R252: the V loads from the local scratchpad: lane by lane the word at the lane's address as the group began, and zero for a
null index; the data come 6 cycles later, and where no lower slot of the group uses the banks, a strided or indexed load takes one cycle
more for each granule beyond the first in the bank that most of them lie in. Where it rests on a choice of the model: log entry 26. -/
def Obligations.VectorLoads : Prop :=
  ∀ (i : Instr) (u : Pipe) (n : Fin 32) (a : SqG) (inc : Bool) (k : Nat) (s : State),
    vAccessOf i = some (u, some n, a, inc, k) → SgReady s a → SecondReady s i → VClear s n → AccFree s →
    (readSg s a).toNat < 0x60000 → IndicesOk s i → (∀ e w, e < 64 → laneAddr s e i = some w → LocalOk s w 4 4 .read) →
    ∃ (t : State) (d : Nat) (v : Vec) (f : Word), exec i s = .next t
      ∧ t.me.vsb = tabSet s.me.vsb n .awaited ∧ t.me.cal = calInsert (s.me.cyc + 6 + d) (.vData n v f) s.me.cal
      ∧ (isContig i = true → s.me.grpBanks = [] → d = 0)
      ∧ (isContig i = false → s.me.grpBanks = [] → (∀ k, k < 32 → inBank s i k ≤ d + 1) ∧ (d = 0 ∨ ∃ k, k < 32 ∧ inBank s i k = d + 1))
      ∧ (∀ e, e < 64 → lane v e = match laneAddr s e i with
          | some w => spNatBefore s w.toNat 4
          | none => 0)
      ∧ t.me.g = incFile s (regBase a) inc k
      ∧ t.me.tqs = ((s.me.popV (accessPops i) none).tqs) ∧ t.me.seed = s.me.seed
      ∧ AccessFrame (pipeSlot u) s t ∧ t.me.sp = s.me.sp ∧ t.me.tags = s.me.tags ∧ t.me.wakeq = s.me.wakeq ∧ t.me.wcs = s.me.wcs
      ∧ t.me.gsb = s.me.gsb

/-- R160 to R162: the V stores into the local scratchpad: every lane's word at the lane's address, the highest of the lanes that name one
address last, with the tags of their granules; every other byte of memory is left alone. -/
def Obligations.VectorStores : Prop :=
  ∀ (i : Instr) (u : Pipe) (a : SqG) (inc : Bool) (k : Nat) (s : State),
    vAccessOf i = some (u, none, a, inc, k) → SgReady s a → SecondReady s i → AccFree s →
    (readSg s a).toNat < 0x60000 → IndicesOk s i → (∀ e w, e < 64 → laneAddr s e i = some w → LocalOk s w 4 4 .write) →
    ∃ t : State, exec i s = .next t
      ∧ (∀ e w, e < 64 → laneAddr s e i = some w → (∀ e', e < e' → e' < 64 → laneAddr s e' i ≠ some w) →
          spNat t w.toNat 4 = lane (latA s.me u) e)
      ∧ (∀ j b, (∀ e w, e < 64 → laneAddr s e i = some w → ¬(j = s.cur ∧ w.toNat ≤ b ∧ b < w.toNat + 4)) →
          t.spByte j b = s.spByte j b)
      ∧ (∀ e w, e < 64 → laneAddr s e i = some w → t.granTag s.cur (w.toNat / 64) = writeTag s s.cur .write)
      ∧ (∀ j g, (∀ e w, e < 64 → laneAddr s e i = some w → ¬(j = s.cur ∧ w.toNat / 64 = g)) → t.granTag j g = s.granTag j g)
      ∧ t.me.g = incFile s (regBase a) inc k
      ∧ t.me.tqs = ((s.me.popV (accessPops i) none).tqs) ∧ t.me.seed = s.me.seed
      ∧ AccessFrame (pipeSlot u) s t ∧ t.me.cal = s.me.cal ∧ t.me.gsb = s.me.gsb ∧ t.me.vsb = s.me.vsb

/-- R163: `ld.tr` transposes four rows of the local scratchpad: element c of row r, of 4, 2 or 1 bytes by the low bits of its second source,
is element 4c + r of the destination; the rest of that source is the pitch of the rows. Where it rests on a choice of the model: log entry
26. -/
def Obligations.TransposeLoad : Prop :=
  ∀ (u : Pipe) (n : Fin 32) (a : SqG) (i : OffV) (inc : Bool) (s : State) (sz : Nat) (row : Nat → Word),
    SgReady s a → OffReady s i → VClear s n → AccFree s →
    (readOff s i).toNat % 4 ≠ 3 → sz = 4 / 2 ^ ((readOff s i).toNat % 4) →
    (∀ r, row r = readSg s a + BitVec.ofNat 64 r * (readOff s i &&& ~~~3#64)) →
    (∀ r, r < 4 → LocalOk s (row r) 64 4 .read) →
    ∃ (t : State) (d : Nat) (v : Vec) (f : Word), exec (.ldTr u n a i inc) s = .next t
      ∧ t.me.vsb = tabSet s.me.vsb n .awaited ∧ t.me.cal = calInsert (s.me.cyc + 6 + d) (.vData n v f) s.me.cal
      ∧ (s.me.grpBanks = [] → d = 0)
      ∧ (∀ r c, r < 4 → c < 64 / sz → vElem (8 * sz) v (4 * c + r) = spNatBefore s ((row r).toNat + sz * c) sz)
      ∧ t.me.g = incFile s (regBase a) inc 64 ∧ t.me.tqs = s.me.tqs ∧ t.me.seed = s.me.seed
      ∧ AccessFrame (pipeSlot u) s t ∧ t.me.sp = s.me.sp ∧ t.me.tags = s.me.tags ∧ t.me.wakeq = s.me.wakeq ∧ t.me.wcs = s.me.wcs
      ∧ t.me.gsb = s.me.gsb

/-- R141: the status that `lock.l2` pushes: 2 for an address that is not a multiple of 128, 3 for a bad count, 4 where an address does not
translate, and else 0 with the lines locked or 1 with nothing locked; and what `unlock.l2` (R142) and `pref` do: each once what is known
of every page that it uses (R349), and until then held, its misses asking for their walks. Where it rests on a choice of the model: log
entry 27. -/
def Obligations.LineLocks : Prop :=
  (∀ (a b : Src) (s t0 : State), SrcReady s a → SrcReady s b → PagesKnown s (lockUses (readSrc s a) (readSrc s b)) →
    t0 = withPages 1 (lockUses (readSrc s a) (readSrc s b)) s →
    (∃ (c : Nat) (t : State), exec (.lockL2 a b) s
        = .next (t.upd fun k => (k.pushSq 8 (BitVec.ofNat 64 c)).drawIf (srcDraws a || srcDraws b))
      ∧ ((readSrc s a).toNat % 128 ≠ 0 → c = 2)
      ∧ ((readSrc s a).toNat % 128 = 0 → ((readSrc s b).toNat = 0 ∨ 4096 < (readSrc s b).toNat) → c = 3)
      ∧ (c ≠ 0 → t = t0)
      ∧ (∀ l, lockRange t0 s.cur (readSrc s a) (readSrc s b) = .ok l → c = 0 ∨ c = 1)
      ∧ (∀ p, lockRange t0 s.cur (readSrc s a) (readSrc s b) = .ok [p] → c = 0 →
          ∃ y, t.l2At p.1 = some y ∧ (s.team s.cur).ctx ∈ y.locks))
    ∧ (∃ t : State, exec (.unlockL2 a b) s = .next (t.upd fun k => k.drawIf (srcDraws a || srcDraws b))
      ∧ t = { t0 with l2 := t.l2 }
      ∧ (∀ n, lockRange t0 s.cur (readSrc s a) (readSrc s b) = .error n → t.l2 = s.l2)
      ∧ (∀ l, lockRange t0 s.cur (readSrc s a) (readSrc s b) = .ok l → ∀ p ∈ l, ∀ y, t.l2At p.1 = some y →
          (s.team s.cur).ctx ∉ y.locks)))
    ∧ (∀ (a : Src) (s t0 : State), SrcReady s a → PagesKnown s (prefUses (readSrc s a)) → t0 = withPages 1 (prefUses (readSrc s a)) s →
      exec (.pref a) s = .next (({ t0 with prefs := s.prefs ++ (prefLine t0 (readSrc s a)).toList } : State).upd fun k => k.drawIf (srcDraws a)))
    ∧ (∀ (a b : Src) (s : State) (l : List Miss), SrcReady s a → SrcReady s b → s.me.issuing = false → l ≠ [] →
      l = missesOf s (.slot s.cur) (s.team s.cur).ctx (lockUses (readSrc s a) (readSrc s b)) →
      exec (.lockL2 a b) s = .next ((askWalks (s.team s.cur).ctx l s).upd fun c => { c with held := { other := true } })
        ∧ exec (.unlockL2 a b) s = .next ((askWalks (s.team s.cur).ctx l s).upd fun c => { c with held := { other := true } }))

/-- R171, R182: claiming, releasing and pinning; R187: the status word that `astat` pushes, of the tile as it stood when the group began
(R25). -/
def Obligations.SlotsAndPins : Prop :=
  (∀ (n : Fin 32) (s : State), (s.me.obs n).st ≠ .releasing →
    ∃ t : State, exec (.oclaim n) s = .next t ∧ OnlyMe s t ∧ (t.me.obs n) = { s.me.obs n with st := .claimed }
      ∧ (∀ m, m ≠ n.val → t.me.obs m = s.me.obs m) ∧ t.me = { s.me with held := {}, slot := 4, ob := t.me.ob })
    ∧ (∀ (n : Fin 32) (s : State),
      ∃ t : State, exec (.orel n) s = .next t ∧ OnlyMe s t
        ∧ (t.me.obs n) = { s.me.obs n with st :=
            if (s.me.obs n).st = .claimed then (if s.me.pendingWork n then .releasing else .free) else (s.me.obs n).st }
        ∧ (∀ m, m ≠ n.val → t.me.obs m = s.me.obs m) ∧ t.me = { s.me with held := {}, slot := 4, ob := t.me.ob })
    ∧ (∀ (n : Fin 64) (s : State),
      exec (.apin n) s = .next (coreAt 4 false (fun c => c.modTile n fun t => { t with pin := true }) s)
        ∧ exec (.aunpin n) s = .next (coreAt 4 false (fun c => c.modTile n fun t => { t with pin := false }) s))
    ∧ (∀ (n : Fin 64) (s : State), ∃ w : Word, exec (.astat n) s = .next (pushSqAt 4 2 w false s)
        ∧ w.extractLsb' 48 16 = (s.me.atStart.tile n).mcnt ∧ w.extractLsb' 8 3 = (s.me.atStart.tile n).fmt
        ∧ flagAt w 11 = (s.me.atStart.tile n).fv ∧ flagAt w 6 = (s.me.atStart.tile n).sat ∧ flagAt w 5 = (s.me.atStart.tile n).nf
        ∧ flagAt w 4 = s.me.atStart.wrowOn n ∧ flagAt w 3 = s.me.atStart.drainOn n ∧ flagAt w 2 = s.me.atStart.mmaOn n
        ∧ flagAt w 1 = (s.me.atStart.tile n).pin ∧ flagAt w 0 = s.me.atStart.tileBusy n)

/-- R176 to R185: the operations on accumulator tiles enter the calendar at their fixed cycles: 4 for `azero`, 16 for `ascale` and `ato`, the
64 rows of `adrain` from cycle 2 on and its end at 66, and a multiply at the cycle at which the array is free, which it leaves 64 cycles
later. -/
def Obligations.TileOperations : Prop :=
  (∀ (n : Fin 64) (s : State), s.me.tileBusy n = false →
    exec (.azero n) s = .next (coreAt 4 false (fun c => c.after 4 (.azero n)) s)
      ∧ (∀ b : SqG, SgReady s b → exec (.ascale n b) s = .next (coreAt 4 false (fun c => c.after 16 (.ascale n ((readSg s b).setWidth 32))) s))
      ∧ (∀ q : Fin 4, (s.me.tq q).rows.length + (s.me.tq q).due.length + 64 ≤ 128 →
        ∃ t : State, exec (.adrain n q) s = .next t ∧ OnlyMe s t
          ∧ t.me.tq q = { s.me.tq q with due := (s.me.tq q).due ++ (rangeFrom 0 64).map fun r => (r, none) } ∧ (∀ m, m ≠ q.val → t.me.tq m = s.me.tq m)
          ∧ t.me = { s.me with held := {}, slot := 4, tqs := t.me.tqs, cal := t.me.cal }
          ∧ (∀ e, e ∈ t.me.cal ↔ e ∈ s.me.cal ∨ ∃ r, r < 65 ∧ e = (s.me.cyc + 2 + r, .drain n q r)))
      ∧ (∀ (f : Fmt) (m : Mode) (sat : Bool) (o : Fin 32), s.me.pendingWork o = false → (s.me.obs o).st = .claimed →
        ∃ (ws : List (BitVec 32)) (sd : Word), exec (.ato f m sat o n) s
            = .next (coreAt 4 false (fun c => ({ c with seed := sd } : Core).after 16 (.ato f m sat o n (s.me.bank.lat.mA.setWidth 2) ws)) s)
          ∧ (modeDraws m = false → ws = [] ∧ sd = s.me.seed)
          ∧ (modeDraws m = true → ws.length = 64 ∧ ws.head? = some (genWord s.me.seed))))
    ∧ (∀ (f : Fmt) (zero : Bool) (n : Fin 64) (a b : Fin 32) (s : State),
      s.me.otherBusy n = false → s.me.atoOn a = false → s.me.atoOn b = false → s.me.mmaWaiting < 2 →
      (s.me.obs a).st = .claimed → (s.me.obs b).st = .claimed →
      ∃ (t : State) (m : MmaOp), exec (if zero then .mmz f n a b else .mma f n a b) s = .next t ∧ OnlyMe s t
        ∧ t.me = { s.me with held := {}, slot := 4, mmas := s.me.mmas ++ [m], lastMma := some m.start, nextId := s.me.nextId + 1, cal := t.me.cal }
        ∧ m.f = f ∧ m.tile = n ∧ m.a = a ∧ m.b = b ∧ m.zero = zero ∧ m.rows = none
        ∧ (s.me.lastMma = none → m.start = s.me.cyc) ∧ (∀ p, s.me.lastMma = some p → m.start = max s.me.cyc (p + 64))
        ∧ (m.start, .mmaStart) ∈ t.me.cal ∧ (m.start + 64, .mmaFinish) ∈ t.me.cal)

/-- R192, R191, R218: `k.set` and `k.add` on a counter, with 0 and the UND bit for a sum below 0; arming and disarming a wake comparator.
Where it rests on a choice of the model: log entry 25. -/
def Obligations.CountersAndComparators : Prop :=
  (∀ (e : Eng) (n : Fin 16) (b : SqG) (s : State), SgReady s b →
    exec (.kSet e n b) s = .next (coreAt (engSlot e) false (fun c => c.setK n ((readSg s b).setWidth 32)) s)
      ∧ (∀ v : Int, v = (((readSg s b).setWidth 32).toInt : Int) → (s.me.getK n).toNat + v < 2 ^ 32 →
        exec (.kAdd e n b) s = .next (coreAt (engSlot e) false (fun c =>
          if (s.me.getK n).toNat + v < 0 then { c with k := tabSet c.k n 0, kund := s.me.kund ||| (1#16 <<< n.val) }
          else { c with k := tabSet c.k n (BitVec.ofInt 32 ((s.me.getK n).toNat + v)) }) s)))
    ∧ (∀ (e : Eng) (w : Fin 8) (a b : SqG) (s : State), SgReady s a → SgReady s b →
      (readSg s a).toNat < (readSg s b).toNat → (readSg s b).toNat ≤ 0x60000 →
      ∃ t : State, exec (.wkArm e w a b) s = .next t ∧ OnlyMe s t ∧ t.me = { s.me with held := {}, slot := engSlot e, wcs := t.me.wcs }
        ∧ (∀ x : Comparator, tabGet? t.me.wcs w = some x → x.armed = true ∧ x.lo = (readSg s a).toNat ∧ x.hi = (readSg s b).toNat
          ∧ x.since = s.me.cyc + 1)
        ∧ (tabGet? t.me.wcs w).isSome ∧ ∀ m, m ≠ w.val → tabGet? t.me.wcs m = tabGet? s.me.wcs m)
    ∧ (∀ (e : Eng) (w : Fin 8) (s : State),
      ∃ t : State, exec (.wkDisarm e w) s = .next t ∧ OnlyMe s t ∧ t.me = { s.me with held := {}, slot := engSlot e, wcs := t.me.wcs }
        ∧ (tabGet {} t.me.wcs w : Comparator).armed = false ∧ (tabGet {} t.me.wcs w : Comparator).pend = none
        ∧ ∀ m, m ≠ w.val → tabGet? t.me.wcs m = tabGet? s.me.wcs m)

/-- R207, R208, R209, R267, R272: the four buffer operations with room and rows enough, and nobody ahead: a claim and an await push the
address of their first granule and move their pointer, a commit of granules, held while an access of the core is to be performed, moves
CMT and releases, an await of something acquires the buffer's vector, and a retire frees granules. A claim or an await that must wait
takes its place in the buffer's order. Where it rests on choices of the model: log entries 29 and 30. -/
def Obligations.BufferOperations : Prop :=
  ∀ (e : Eng) (n : Fin 8) (b : SqG) (k : Nat) (q : CircBuf) (s : State),
    SgReady s b → q = s.me.cb n → q.en = true → k = (readSg s b).toNat → k < 2 ^ 13 →
    (k ≤ q.size.toNat → (k = 0 ∨ (q.clm.toNat + k ≤ q.size.toNat ∧ aheadOfOwn q.claims = false)) →
      exec (.cbClaim e n b) s = .next (coreAt (engSlot e) false (fun c =>
        (c.pushSq 2 (BitVec.ofNat 64 (64 * (q.base.toNat + (q.head.toNat + q.clm.toNat) % q.size.toNat)))).modCb n fun x =>
          { x with clm := x.clm + BitVec.ofNat 13 k, claims := x.claims.filter (· != .own) }) s))
    ∧ (k ≤ q.clm.toNat - q.cmt.toNat → (k ≠ 0 → s.me.accPending = false) →
      ∃ t : State, exec (.cbCommit e n b) s = .next t ∧ OnlyMe s t
        ∧ t.me = { s.me with held := {}, slot := engSlot e, cbs := t.me.cbs, rs := if k = 0 then s.me.rs else s.me.rs + 1 }
        ∧ (t.me.cb n).cmt = q.cmt + BitVec.ofNat 13 k ∧ t.me.cb n = { q with cmt := (t.me.cb n).cmt, vec := (t.me.cb n).vec }
        ∧ (k = 0 → (t.me.cb n).vec = q.vec)
        ∧ (k ≠ 0 → (t.me.cb n).vec = q.vec.merge { v := tabSet s.me.vclk ((s.team s.cur).index s.cur) (s.me.rs + 1), clk := s.me.lclk })
        ∧ ∀ m, m ≠ n.val → t.me.cb m = s.me.cb m)
    ∧ (k ≤ q.size.toNat → (k = 0 ∨ (q.awt.toNat + k ≤ q.cmt.toNat ∧ aheadOfOwn q.awaits = false)) →
      exec (.cbAwait e n b) s = .next (coreAt (engSlot e) false (fun c =>
        let c1 := (c.pushSq 2 (BitVec.ofNat 64 (64 * (q.base.toNat + (q.head.toNat + q.awt.toNat) % q.size.toNat)))).modCb n fun x =>
          { x with awt := x.awt + BitVec.ofNat 13 k, awaits := x.awaits.filter (· != .own) }
        if k = 0 then c1 else { c1 with vclk := vecMax c1.vclk q.vec.v, lclk := wordMax c1.lclk (q.vec.clk + 1) }) s))
    ∧ (k ≤ q.awt.toNat →
      ∃ t : State, exec (.cbRetire e n b) s = .next t ∧ OnlyMe s t ∧ t.me = { s.me with held := {}, slot := engSlot e, cbs := t.me.cbs }
        ∧ (k ≠ 0 → t.me.cb n = { q with head := BitVec.ofNat 13 ((q.head.toNat + k) % q.size.toNat), awt := q.awt - BitVec.ofNat 13 k
                                        cmt := q.cmt - BitVec.ofNat 13 k, clm := q.clm - BitVec.ofNat 13 k })
        ∧ (k = 0 → t.me.cb n = q) ∧ ∀ m, m ≠ n.val → t.me.cb m = s.me.cb m)
    ∧ (k ≤ q.clm.toNat - q.cmt.toNat → k ≠ 0 → s.me.accPending = true → exec (.cbCommit e n b) s = .next (s.upd fun c =>
        { c with held := { other := true } }))
    ∧ (s.me.issuing = false → k ≠ 0 → k ≤ q.size.toNat →
      ((q.size.toNat < q.clm.toNat + k ∨ aheadOfOwn q.claims = true) → exec (.cbClaim e n b) s = .next (s.upd fun c =>
        { c.modCb n (fun x => { x with claims := if x.claims.contains .own then x.claims else x.claims ++ [.own] }) with held := { other := true } }))
      ∧ ((q.cmt.toNat < q.awt.toNat + k ∨ aheadOfOwn q.awaits = true) → exec (.cbAwait e n b) s = .next (s.upd fun c =>
        { c.modCb n (fun x => { x with awaits := if x.awaits.contains .own then x.awaits else x.awaits ++ [.own] }) with held := { other := true } })))

/-- R211, R212, R215: `bar.init` writes the 16 bytes of the object, with ARR, BYA and PH zero, clears its vectors, and binds its address at
phase 0; an arrival or a drop waits for its bank with its count; `bar.test` pushes bits 63:0 of the object and binds its address at the
object's phase. Where it rests on a choice of the model: log entry 28. -/
def Obligations.Barriers : Prop :=
  (∀ (e : Eng) (a b : SqG) (s : State) (v : Word),
    SgReady s a → SgReady s b → (readSg s a).toNat + 16 ≤ 0x60000 → (readSg s a).toNat % 16 = 0 → v = readSg s b →
    (v.getLsbD 36 = false → v.toNat % 2 ^ 16 ≠ 0) → (v.getLsbD 36 = true → (engLatA s.me e).toNat % 2 ^ 32 ≠ 0) →
    ∃ t : State, exec (.barInit e a b) s = .next t ∧ OnlyMe s t ∧ SameOutside s t
      ∧ StoresAt s t (readSg s a).toNat 16 (v.toNat % 2 ^ 16 + (if v.getLsbD 36 then 2 ^ 36 else 0) + (if v.getLsbD 38 then 2 ^ 38 else 0)
          + v.toNat % 2 ^ 16 * 2 ^ 48 + (if v.getLsbD 36 then (engLatA s.me e).toNat % 2 ^ 32 * 2 ^ 64 else 0))
      ∧ t.me.barVecs = tabErase s.me.barVecs (readSg s a).toNat
      ∧ t.me.bindingOf (readSg s a) = some 0 ∧ t.me.binds.length ≤ 8
      ∧ t.me = { s.me with held := {}, slot := engSlot e, sp := t.me.sp, wakeq := t.me.wakeq, wcs := t.me.wcs, grpOld := t.me.grpOld
                           barVecs := t.me.barVecs, binds := t.me.binds })
    ∧ (∀ (e : Eng) (a b : SqG) (s : State),
    SgReady s a → SgReady s b → (readSg s a).toNat + 16 ≤ 0x60000 → (readSg s a).toNat % 16 = 0 →
    (readSg s b).toNat ≠ 0 → (readSg s b).toNat < 2 ^ 32 →
    exec (.barArriveRel e a b) s = .next (waitsFor (engSlot e) (.barrier (.core true) (readSg s a) ((readSg s b).setWidth 32)) s)
      ∧ exec (.barArriveRlx e a b) s = .next (waitsFor (engSlot e) (.barrier (.core false) (readSg s a) ((readSg s b).setWidth 32)) s))
    ∧ (∀ (e : Eng) (a : SqG) (s : State),
    SgReady s a → (readSg s a).toNat + 16 ≤ 0x60000 → (readSg s a).toNat % 16 = 0 →
    exec (.barDrop e a) s = .next (waitsFor (engSlot e) (.barrier .drop (readSg s a) 1) s)
      ∧ ∃ (x : Nat) (t : State), exec (.barTest e a) s = .next t ∧ OnlyMe s t ∧ x = spNatBefore s (readSg s a).toNat 16
        ∧ t.me.bindingOf (readSg s a) = some (BitVec.ofNat 4 (x / 2 ^ 32)) ∧ t.me.binds.length ≤ 8
        ∧ t.me = { s.me.pushSq 4 (BitVec.ofNat 64 x) with held := {}, slot := engSlot e, binds := t.me.binds })

/-- R194, R190: a copy command whose block breaks no rule joins its engine's queue with a copy of its block, and its units are added to its
counter. -/
def Obligations.CopyCommands : Prop :=
  ∀ (mc : Bool) (e : Eng) (a : SqG) (s : State) (b : BitVec 1024),
    SgReady s a → CmdOk s (readSg s a) 128 → b = BitVec.ofNat 1024 (spNatBefore s (readSg s a).toNat 128) →
    (s.me.eng e).q.length < 8 → (∀ p ∈ nbChecks s.me (s.team s.cur) mc b, p.2 = false) →
    (nbDkind b = 1 → (s.me.atStart.obs (nbOb b)).st = .claimed) →
    ∃ (t : State) (m : EngCmd), exec (if mc then .cpMcast e a else .cpNest e a) s = .next t ∧ OnlyMe s t
      ∧ m.blk = b ∧ m.started = false ∧ m.pos = 0 ∧ m.units = 0
      ∧ t.me.eng e = { s.me.eng e with q := (s.me.eng e).q ++ [m] }
      ∧ t.me.getK (nbKctr b) = BitVec.ofNat 32 ((s.me.getK (nbKctr b)).toNat + nbUnits b)
      ∧ t.me = { s.me with held := {}, slot := engSlot e, k := t.me.k, e0 := t.me.e0, e1 := t.me.e1, nextId := s.me.nextId + 1 }
      ∧ (∀ n, n ≠ nbKctr b → t.me.getK n = s.me.getK n) ∧ (∀ x, x ≠ e → t.me.eng x = s.me.eng x)

/-- R220, R221: a stash command, or a `wv.commit`, whose descriptor breaks no rule joins the core's stash queue with a copy of its descriptor,
and adds 1 to its counter. -/
def Obligations.StashCommands : Prop :=
  (∀ (i : Instr) (e : Eng) (op : StashOp) (a b : SqG) (s : State) (d : BitVec 256),
    stashOf i = some (e, op, a, b) → SgReady s a → SgReady s b → CmdOk s (readSg s a) 32 → d = descAt s (readSg s a) 32 →
    s.me.stash.q.length + s.me.grpStash < 4 → (s.team s.cur).kind ≠ 3 → sdBad op d = false →
    (s.me.getK ((d.extractLsb' 128 4).toNat)).toNat + 1 < 2 ^ 32 →
    ∃ (t : State) (m : StashCmd), exec i s = .next t ∧ OnlyMe s t ∧ m.op = op ∧ m.desc = d ∧ m.tag = (readSg s b).setWidth 16
      ∧ t.me.stash = { s.me.stash with q := s.me.stash.q ++ [m] }
      ∧ t.me = { s.me with held := {}, slot := engSlot e, stash := t.me.stash, nextId := s.me.nextId + 1,
                           k := tabSet s.me.k (d.extractLsb' 128 4).toNat (s.me.getK (d.extractLsb' 128 4).toNat + 1) })
    ∧ (∀ (e : Eng) (a b : SqG) (s : State) (d : BitVec 256),
    SgReady s a → SgReady s b → CmdOk s (readSg s a) 16 → d = descAt s (readSg s a) 16 →
    s.me.stash.q.length + s.me.grpStash < 4 → wvBad d = false → (readSg s b).toNat ≤ 3 → (s.me.getK ((d.extractLsb' 72 4).toNat)).toNat + 1 < 2 ^ 32 →
    ∃ (t : State) (m : StashCmd), exec (.wvCommit e a b) s = .next t ∧ OnlyMe s t ∧ m.op = .wvCommit ∧ m.desc = d
      ∧ m.tag = (readSg s b).setWidth 16 ∧ t.me.stash = { s.me.stash with q := s.me.stash.q ++ [m] }
      ∧ t.me = { s.me with held := {}, slot := engSlot e, stash := t.me.stash, nextId := s.me.nextId + 1,
                           k := tabSet s.me.k (d.extractLsb' 72 4).toNat (s.me.getK (d.extractLsb' 72 4).toNat + 1) })

/-- R233, R234, R230, R224: a `send` and a `send.m` join the channel queue with what they send, which an empty queue lets go 2 cycles later,
and `chwin` adds to PEND, which stops at 65,535. Where it rests on a choice of the model: log entry 86. -/
def Obligations.ChannelSends : Prop :=
  (∀ (ch : Fin 11) (s : State), (s.bound s.cur ch).isSome → s.me.chq.q.length < 4 →
    (∀ x : Src, SrcReady s x → exec (.send ch (.src x)) s
        = .next (coreAt 7 (srcDraws x) (fun c => c.enqChan (.send ch (.scalar (readSrc s x)))) s))
      ∧ (∀ q : Fin 4, TqFull s q → exec (.send ch (.tq q)) s = .next (coreAt 7 false (fun c =>
          (c.enqChan (.send ch (.vector (rowLanes (headRow s.me q))))).popTq q) s)))
    ∧ (∀ (ch : Fin 11) (a : Src) (s : State) (land len : Word), SrcReady s a → s.me.chq.q.length < 4 →
      land = s.me.bank.lat.kB → len = s.me.bank.lat.kA → (∀ p ∈ sendMChecks s ch (readSrc s a) land len, p.2 = false) →
      (land.getLsbD 61 = true → (s.me.getK (land.extractLsb' 57 4).toNat).toNat + 1 < 2 ^ 32) →
      exec (.sendM ch a) s = .next (coreAt 7 (srcDraws a) (fun c =>
        ({ c with k := if land.getLsbD 61 then tabSet c.k (land.extractLsb' 57 4).toNat (c.getK (land.extractLsb' 57 4).toNat + 1) else c.k } :
          Core).enqChan (.sendM ch (readSrc s a) (len.extractLsb' 0 32).toNat (len.extractLsb' 32 16).toNat land 0)) s))
    ∧ (∀ (c : Core) (m : ChanCmd), (c.enqChan m).chq.q = c.chq.q ++ [m] ∧ (c.chq.q = [] → (c.enqChan m).chq.first = c.cyc + 2)
      ∧ c.enqChan m = { c with chq := { c.chq with q := (c.enqChan m).chq.q, first := (c.enqChan m).chq.first } })
    ∧ (∀ (ch : Fin 11) (b : Src) (s : State) (n : Nat) (x : Binding), SrcReady s b → s.bound s.cur ch = some (n, x) →
      tabGet? s.binds n = some x → (readSrc s b).toNat < 2 ^ 16 →
      exec (.chwin ch b) s = .next (({ atSlot 7 s with binds := tabSet s.binds n { x with pend := min 65535 (x.pend + (readSrc s b).toNat) } } :
        State).upd fun c => c.drawIf (srcDraws b)))

/-- R235, R236: a receive marks its destination and waits, in order, for its message, with the cycle of its issue where its message is parked
already (R224); `recvadd.f32` keeps the old value that it adds to. -/
def Obligations.ChannelReceives : Prop :=
  ∀ (ch : Fin 11) (s : State) (due : Option Nat), (s.bound s.cur ch).isSome →
    due = (if parkedFor s ch ≤ (s.me.recvs.filter fun r => r.ch == ch).length then none else some s.me.cyc) →
    (∀ n : Fin 16, GClear s n → exec (.recvG n ch) s = .next (coreAt 7 false (fun c =>
        { c with gsb := tabSet c.gsb n .awaited, recvs := c.recvs ++ [{ ch := ch, dest := .g n 8 false, due := due }] }) s))
      ∧ (∀ n : Fin 32, VClear s n → exec (.recvV n ch) s = .next (coreAt 7 false (fun c =>
        { c with vsb := tabSet c.vsb n .awaited, recvs := c.recvs ++ [{ ch := ch, dest := .v n, due := due }] }) s)
        ∧ exec (.recvaddF32 n ch) s = .next (coreAt 7 false (fun c =>
        { c with vsb := tabSet c.vsb n .awaited, recvs := c.recvs ++ [{ ch := ch, dest := .v n, add := some (s.me.getV n), due := due }] }) s))

/-- R238, R378: a `col.go` whose block breaks no rule starts a collective of its context with a copy of its block, and adds 1 to its counter;
R377: one that has failed at the members of its subgroup already ends so at this one too; R239: a `col.abort` ends the collective, of the
context on the block with the step and, which is the model's reading, of the same core, with status 3 and fault code 5. Where it rests on
choices of the model: log entries 38 and 42. -/
def Obligations.Collectives : Prop :=
  (∀ (a : Src) (s : State) (x : Nat) (b : BitVec 1024),
    SrcReady s a → x = (s.team s.cur).ctx.toNat → (readSrc s a).toNat + 128 ≤ 0x60000 → (readSrc s a).toNat % 16 = 0 →
    granRace s s.cur s.cur (readSrc s a).toNat 128 .read = none → b = BitVec.ofNat 1024 (spNatBefore s (readSrc s a).toNat 128) →
    cbBad s x (s.team s.cur) s.cur b = none → (s.me.getK (cbKctr b)).toNat + 1 < 2 ^ 32 → s.me.accPending = false →
    (s.ctx x).colls.length < 16 →
    ∃ (t : State) (c : Coll), exec (.colGo a) s = .next t ∧ (t.ctx x).colls.length = (s.ctx x).colls.length + 1 ∧ c ∈ (t.ctx x).colls
      ∧ c.core = s.cur ∧ c.blk = b ∧ c.baddr = readSrc s a ∧ (∀ n m, cbMembers s x (s.team s.cur) s.cur b = some (n, m) → c.n = n ∧ c.member = m)
      ∧ t.me = { s.me with held := {}, slot := 7, seed := if srcDraws a then advance s.me.seed else s.me.seed,
                           k := tabSet s.me.k (cbKctr b) (s.me.getK (cbKctr b) + 1) }
      ∧ (∀ f, (s.ctx x).colls = [] → (s.die (coreDie s.cur)).colFails.find? (fun f => f.ctx.toNat == x && f.team == s.me.team
            && f.group.toNat == cbGroup b && f.step == cbStep b && f.left.contains c.member) = some f →
          c.ended = true ∧ c.status = f.status ∧ c.fcode = f.fcode)
      ∧ ((s.ctx x).colls = [] → (s.die (coreDie s.cur)).colFails = [] → c.ended = false))
    ∧ (∀ (a : Src) (s : State) (x : Nat) (step : Word) (c : Coll),
    SrcReady s a → x = (s.team s.cur).ctx.toNat → (readSrc s a).toNat + 128 ≤ 0x60000 → (readSrc s a).toNat % 16 = 0 →
    granRace s s.cur s.cur ((readSrc s a).toNat + 0x30) 8 .read = none →
    step = BitVec.ofNat 64 (spNatBefore s ((readSrc s a).toNat + 0x30) 8) →
    ∃ t : State, exec (.colAbort a) s = .next t
      ∧ t.me = { s.me with held := {}, slot := 7, seed := if srcDraws a then advance s.me.seed else s.me.seed, token := t.me.token }
      ∧ ((s.ctx x).colls.find? (fun c => c.baddr == readSrc s a && c.core == s.cur && cbStep c.blk == step && !c.ended) = some c →
          ∃ d ∈ (t.ctx x).colls, d.id = c.id ∧ d.blk = c.blk ∧ d.ended = true ∧ d.status = 3 ∧ d.fcode = 5)
      ∧ ((s.ctx x).colls.find? (fun c => c.baddr == readSrc s a && c.core == s.cur && cbStep c.blk == step && !c.ended) = none →
          t.ctxs = s.ctxs ∧ t.me.token = s.me.token))

/-- R240 to R243: `gz.put` asks the Gazetteer while it holds its group, and its record enters when the Gazetteer grants it; above another
deferred slot it waits when its turn comes. `gz.done` retires the team's current record; `gz.rd` reads the current record's image, or
zero; `trust.q` pushes a path's trust word, or zero. Where it rests on a choice of the model: log entry 64. -/
def Obligations.GazetteerSlots : Prop :=
  (∀ (a b : Src) (s : State) (key : BitVec 48) (idx : BitVec 16) (r : BitVec 512), SrcReady s a → SrcReady s b → (readSrc s a).toNat < 2 ^ 48 →
    (readSrc s b).toNat + 64 ≤ 0x60000 → (readSrc s b).toNat % 64 = 0 → granRace s s.cur s.cur (readSrc s b).toNat 64 .read = none →
    AccFree s → s.me.accPending = false → key = (readSrc s a).setWidth 48 → idx = s.me.bank.lat.kA.extractLsb' 32 16 →
    r = BitVec.ofNat 512 (spNatBefore s (readSrc s b).toNat 64) →
    (s.me.gzGrant = true → (s.die (coreDie s.cur)).gzRefuses key idx.toNat = false → exec (.gzPut a b) s = .next
      (((atSlot 7 s).modDie (coreDie s.cur) fun x => gzInsert (coreDie s.cur) s.meshCyc key idx.toNat r s.me.lclk x).upd fun c =>
        c.drawIf (srcDraws a || srcDraws b)))
    ∧ (s.me.gzGrant = false → s.me.issuing = false → exec (.gzPut a b) s = .next (s.upd fun c =>
      { c with held := { other := true }, gzAsk := some (key, idx) }))
    ∧ (s.me.gzGrant = false → s.me.issuing = true → exec (.gzPut a b) s
      = .next (waitsFor 7 (.gzPut key idx r (srcDraws a || srcDraws b)) s)))
    ∧ (∀ (a : Src) (s : State) (o : Nat) (tm : Team) (im : BitVec 1024), SrcReady s a → s.me.team = some o → tabGet? s.teams o = some tm →
      tm.crec = some im → readSrc s a = (im.extractLsb' 512 48).setWidth 64 →
      (tm.retired = false → tm.rcmp = false → exec (.gzDone a) s = .next (({ atSlot 7 s with
          teams := tabSet s.teams o { tm with retired := true }
          dies := tabMod {} s.dies tm.die fun x => { x with gzRet := x.gzRet ++ tm.recId.toList } } : State).upd fun c => c.drawIf (srcDraws a)))
      ∧ (tm.retired = true ∨ tm.rcmp = true → exec (.gzDone a) s = .next (coreAt 7 (srcDraws a) id s)))
    ∧ (∀ (n : Fin 16) (a : Src) (s : State), SrcReady s a → GClear s n → (readSrc s a).toNat % 8 = 0 → (readSrc s a).toNat ≤ 120 →
      exec (.gzRd n a) s = .next (coreAt 7 (srcDraws a) (fun c => (c.markG n .awaited).after 4 (.gData n
        (match (s.team s.cur).crec with
          | some im => BitVec.ofNat 64 (im.toNat / 2 ^ (8 * (readSrc s a).toNat) % 2 ^ 64)
          | none => 0) 0)) s))
    ∧ (∀ (a : Src) (s : State), SrcReady s a → ∃ w : Word, exec (.trustQ a) s = .next (pushSqAt 7 6 w (srcDraws a) s)
      ∧ (tabGet? s.cart.paths ((readSrc s a).toNat % 65536) = none → w = 0)
      ∧ (∀ p, tabGet? s.cart.paths ((readSrc s a).toNat % 65536) = some p →
          w.extractLsb' 32 32 = s.cart.epoch ∧ flagAt w 1 = true ∧ flagAt w 0 = p.att ∧ w.extractLsb' 8 8 = BitVec.ofNat 8 p.switches.length))

/-- R113, R115: the branches, the call and the loops record their effect for the completion of the bundle, with the target that the rule
gives; a loop of no passes skips to the address after its body, of whose bundles it reads the headers as code is fetched, and is held
while one cannot be read yet. Where it rests on a choice of the model: log entry 37. -/
def Obligations.Branches : Prop :=
  (∀ (d : BitVec 16) (s : State),
    exec (.br d) s = .next (pendAt 0 (s.me.pc + d.signExtend 64) false s)
      ∧ exec (.call d) s = .next ((pendAt 0 (s.me.pc + d.signExtend 64) false s).upd fun c => c.pushSq 1 s.nextPc)
      ∧ (SqReady s 0 →
        exec (.bz d) s = .next (if (s.me.sqAt 0).val = 0 then pendAt 0 (s.me.pc + d.signExtend 64) false s else atSlot 0 s)
          ∧ exec (.bnz d) s = .next (if (s.me.sqAt 0).val = 0 then atSlot 0 s else pendAt 0 (s.me.pc + d.signExtend 64) false s)))
    ∧ (∀ (a : Src) (s : State), SrcReady s a →
      exec (.ret a) s = .next (pendAt 0 (readSrc s a) (srcDraws a) s)
        ∧ exec (.jr a) s = .next (pendAt 0 (readSrc s a) (srcDraws a) s)
        ∧ (readSrc s a ≠ 0 → exec (.loop a) s = .next (pendAt 1 (readSrc s a) (srcDraws a) s))
        ∧ (readSrc s a = 0 → SkipsAt a (.loop a) s)
        ∧ (∀ n : Nat, CmdOk s (readSrc s a) 128 →
          n = (rangeFrom 0 6).foldl (fun n d => n * (spNatBefore s ((readSrc s a).toNat + 0x20 + 12 * d) 2)) 1 →
          (n ≠ 0 → exec (.loopn a) s = .next (pendAt 1 (BitVec.ofNat 64 (min n (2 ^ 64 - 1))) (srcDraws a) s)) ∧ (n = 0 → SkipsAt a (.loopn a) s)))
    ∧ ∀ s : State, exec .nop s = .next (atSlot 0 s)

/-- R119 to R121: a `wait.lt` whose counter is below its source goes on, after the clock of the counter's last decrement; a `wait.bar` whose
object has left the phase of its binding goes on with TOUT clear and the vector of the completed phases, and one whose limit is reached,
or that has no binding, with TOUT set; a `wait.wake` takes the oldest token. Where it rests on choices of the model: log entries 28 and
37. -/
def Obligations.Waits : Prop :=
  (∀ (k : Fin 16) (b : Src) (s : State), SrcReady s b → (s.me.getK k).toNat < (readSrc s b).toNat →
    unitFault s.me (some (BitVec.ofNat 4 k)) = none → s.me.nft.contains (BitVec.ofNat 4 k.val) = false →
    exec (.waitLt k b) s = .next (coreAt 0 (srcDraws b) (fun c => { c with lclk := match tabGet? s.me.kclk k with
        | some l => wordMax s.me.lclk (l + 1)
        | none => s.me.lclk }) s))
    ∧ (∀ (a b : Src) (s : State) (p : BitVec 4), SrcReady s a → SrcReady s b → s.me.bindingOf (readSrc s a) = some p →
      (readSrc s a).toNat + 16 ≤ 0x60000 → (readSrc s a).toNat % 16 = 0 →
      ((s.barAt s.cur (readSrc s a).toNat).ph ≠ p →
        exec (.waitBar a b) s = .next (coreAt 0 (srcDraws a || srcDraws b) (fun c =>
          ({ c with tout := false, wbT := 0 } : Core).acquire (tabGet {} s.me.barVecs (readSrc s a).toNat : BarVec).done) s))
      ∧ ((s.barAt s.cur (readSrc s a).toNat).ph = p → (readSrc s b).toNat ≤ s.me.wbT →
        exec (.waitBar a b) s = .next (coreAt 0 (srcDraws a || srcDraws b) (fun c => { c with tout := true, wbT := 0 }) s)))
    ∧ (∀ (a b : Src) (s : State), SrcReady s a → SrcReady s b → s.me.bindingOf (readSrc s a) = none →
      (readSrc s a).toNat + 16 ≤ 0x60000 → (readSrc s a).toNat % 16 = 0 →
      exec (.waitBar a b) s = .next (coreAt 0 (srcDraws a || srcDraws b) (fun c => { c with tout := true, wbT := 0 }) s))
    ∧ (∀ (s : State) (w : BitVec 3) (g : BitVec 13) (l : List (BitVec 3 × BitVec 13)), s.me.wakeq = (w, g) :: l →
      exec .waitWake s = .next (coreAt 0 false (fun c => { c with wakeq := l, wval := true, wcmp := w, wgrn := g }) s))

/-- R122 to R124: a halt with nothing outstanding and nothing frozen, a software trap and, in a handler, a `sysret` are recorded for the
completion of their bundle; outside a handler `sysret` is an illegal instruction. Where it rests on a choice of the model: log entry 19. -/
def Obligations.HaltTrapSysret : Prop :=
  (∀ s : State, s.me.tm = false → unitFault s.me none = none → s.me.outstanding = false → exec .halt s = .next (pendAt 2 0 false s))
    ∧ (∀ s : State, s.me.tm = true → s.me.e0.frz = false → s.me.e1.frz = false → s.me.stash.frz = false → s.me.chq.frz = false →
      s.me.colFaults = [] → s.me.outstanding = false → exec .halt s = .next (pendAt 2 0 false s))
    ∧ (∀ (code : BitVec 8) (s : State), exec (.trap code) s = .next (pendAt 3 (code.setWidth 64) false s))
    ∧ (∀ s : State, s.me.tm = true → exec .sysret s = .next (coreAt 0 false (fun c => { c with sret := true }) s))
    ∧ (∀ s : State, s.me.tm = false → exec .sysret s = .next (takeTrap s.cur { cls := 1, code := 3 } 0 s.me.pc true 0 s))

/-- R125 to R128: a fence and a stream barrier with nothing to wait for, a checkpoint, which records its step number and closes the undo
interval, and `next.tile`, which pushes the next schedule row or all ones. Where it rests on a choice of the model: log entry 27. -/
def Obligations.FencesAndTiles : Prop :=
  (∀ (sc : FenceScope) (s : State), s.me.accPending = false →
    exec (.fence sc) s = .next (if sc = .sys then writeBackOf s.cur (atSlot 0 s) else atSlot 0 s))
    ∧ (∀ (rd wr mem : Bool) (s : State), s.streamsBusy s.cur rd wr mem = false → exec (.sbar rd wr mem) s = .next (atSlot 0 s))
    ∧ (∀ (a : Src) (s : State), SrcReady s a → s.me.writesPending = false →
      ∃ t : State, exec (.ckpt a) s = .next t ∧ (t.ctx (s.team s.cur).ctx.toNat).cstep = readSrc s a
        ∧ (t.ctx (s.team s.cur).ctx.toNat).ulog = [] ∧ (t.ctx (s.team s.cur).ctx.toNat).ufull = false
        ∧ t.me = { s.me with held := {}, slot := 0, seed := if srcDraws a then advance s.me.seed else s.me.seed })
    ∧ (∀ s : State,
      (s.me.spos.toNat < s.me.slen.toNat → exec .nextTile s
          = .next (coreAt 0 false (fun c => { c.pushSq 2 (s.me.sched.getD s.me.spos.toNat 0) with spos := s.me.spos + 1 }) s))
      ∧ (s.me.slen.toNat ≤ s.me.spos.toNat → exec .nextTile s = .next (pushSqAt 0 2 (BitVec.allOnes 64) false s)))

/-- R129, R293, R294, R298: a launch whose descriptor can be read joins the launch queue of its die, with its stage block where it registers a
stage, or is refused; where NOTIFY asks for it, STATUS of the descriptor says which. Where it rests on choices of the model: log entries
28 and 34. -/
def Obligations.LaunchSlot : Prop :=
  (∀ (a : Src) (s : State) (d : BitVec 512) (blk : Option SBlk) (ad : Word) (die n : Nat), SrcReady s a → ad = readSrc s a →
    s.me.accPending = false → s.me.acqPending = false → ad.toNat + 64 ≤ 0x60000 → ad.toNat % 16 = 0 →
    granRace s s.cur s.cur ad.toNat 64 .read = none → d = BitVec.ofNat 512 (spNatBefore s ad.toNat 64) → die = launchDie (.core s.cur ad) d →
    queueFull s die = false → (ldKind d = 1 → (ldEntry d).toNat + 320 ≤ 0x60000 ∧ (ldEntry d).toNat % 16 = 0
      ∧ granRace s s.cur s.cur (ldEntry d).toNat 320 .read = none) →
    blk = (if ldKind d = 1 then some (BitVec.ofNat 2560 (spNatBefore s (ldEntry d).toNat 320)) else none) →
    n = refusal s (.core s.cur ad) d blk →
    ∃ t : State, exec (.launch a) s = .next t
      ∧ t.me = { s.me with held := {}, slot := 0, seed := if srcDraws a then advance s.me.seed else s.me.seed, sp := t.me.sp,
                           wakeq := t.me.wakeq, wcs := t.me.wcs, grpOld := t.me.grpOld }
      ∧ (n = 0 → ∃ l : Launch, l.desc = d ∧ l.blk = blk.getD 0 ∧ l.ctx = (s.team s.cur).ctx ∧ l.by_ = .core s.cur ad ∧ l.clk = s.me.lclk
        ∧ (t.die die).lq = (s.die die).lq ++ [l])
      ∧ (n ≠ 0 → (t.die die).lq = (s.die die).lq)
      ∧ (n ≠ 0 → ldScope d ≠ 4 → bitOf (ldNotify d) 1 = false → t = coreAt 0 (srcDraws a) id s)
      ∧ (bitOf (ldNotify d) 1 = false → t.me.sp = s.me.sp)
      ∧ (bitOf (ldNotify d) 1 = true → StoresAt s t (ad.toNat + 0x3C) 4 (if n = 0 then 1 else 0x80000000 + n)))
    ∧ (∀ (a : Src) (s : State) (d : BitVec 512) (ad : Word) (va : Nat), SrcReady s a → ad = readSrc s a → decodeEa ad = .global va →
      PagesKnown s (gUses ad 64 { r := true }) → readDesc (bringIn (.slot s.cur) (s.team s.cur).ctx ad 64 s) s.cur ad = .ok d →
      gAwaits s (.slot s.cur) (s.team s.cur).ctx ad 64 = false → s.me.accPending = false → s.me.acqPending = false →
      queueFull s (launchDie (.core s.cur ad) d) = false → ldKind d ≠ 1 → refusal s (.core s.cur ad) d none = 0 →
      ∃ (t : State) (l : Launch), exec (.launch a) s = .next t ∧ t.me.held = {} ∧ l.desc = d ∧ l.ctx = (s.team s.cur).ctx
        ∧ l.by_ = .core s.cur ad ∧ (t.die (launchDie (.core s.cur ad) d)).lq = (s.die (launchDie (.core s.cur ad) d)).lq ++ [l])

/-- R130, R55: `sysrd` pushes the word that the core, its team or its context holds, and `syswr` writes it, the words of the generator and of
the buffers when its group has committed; the generator never to 0, a status bit of CVSAT only to 0, and a read-only word not at all; a
program cannot write the words of its handler. R261: the rotation's position. R204, R206, R329, R330: what a write of the words of an
engine, a buffer or the stash queue does. Where it rests on choices of the model: log entries 22 and 23. -/
def Obligations.SystemWords : Prop :=
  (∀ (w : Fin 64) (s : State), exec (.sysrd w) s = .next (pushSqAt 0 1 (sysWord s s.cur w) false s))
    ∧ (∀ (s : State) (i : Nat), sysWord s i 1 = (s.core i).cause ∧ sysWord s i 2 = (s.core i).epc ∧ sysWord s i 3 = (s.core i).faddr
      ∧ sysWord s i 5 = (s.core i).sfall.setWidth 64 ∧ sysWord s i 7 = (s.core i).seed ∧ sysWord s i 8 = (s.core i).cvsat
      ∧ sysWord s i 43 = (s.core i).lclk ∧ sysWord s i 44 = s.horizon ∧ sysWord s i 51 = (s.core i).tvec ∧ sysWord s i 52 = (s.core i).dcause
      ∧ sysWord s i 54 = (s.ctx (s.team i).ctx.toNat).astep ∧ sysWord s i 55 = (s.ctx (s.team i).ctx.toNat).cstep
      ∧ (∀ w, 57 ≤ w → w < 64 → sysWord s i w = 0)
      ∧ (sysWord s i 15).extractLsb' 32 32 = BitVec.ofNat 32 (s.rotation / 125) ∧ (sysWord s i 15).extractLsb' 15 17 = 0
      ∧ (sysWord s i 15).extractLsb' 8 7 = BitVec.ofNat 7 (s.rotation % 125) ∧ (sysWord s i 15).extractLsb' 0 8 = BitVec.ofNat 8 (min 255 s.slotNs))
    ∧ (∀ (w : Fin 64) (b : Src) (s : State), SrcReady s b →
      ((w.val = 7 ∨ (16 ≤ w.val ∧ w.val < 24) ∨ (s.me.tm = true ∧ 24 ≤ w.val ∧ w.val < 32)) → exec (.syswr w b) s
        = .next (coreAt 0 (srcDraws b) (fun c => { c with grpSys := c.grpSys ++ [(w.val, readSrc s b)] }) s))
      ∧ (¬(w.val = 7 ∨ (16 ≤ w.val ∧ w.val < 24) ∨ (s.me.tm = true ∧ 24 ≤ w.val ∧ w.val < 32)) → exec (.syswr w b) s
        = .next (writeSys s.cur w (readSrc s b) (coreAt 0 (srcDraws b) id s)))
      ∧ (readOnlyWord w = true → exec (.syswr w b) s = .next (coreAt 0 (srcDraws b) id s)))
    ∧ (∀ (b : Src) (s : State), SrcReady s b →
      exec (.syswr 8 b) s = .next (coreAt 0 (srcDraws b) (fun c => { c with cvsat := s.me.cvsat &&& readSrc s b }) s)
        ∧ (s.me.tm = false → ∀ w : Fin 64, w.val ∈ [1, 2, 3, 4, 9, 10, 24, 25, 26, 27, 28, 29, 30, 31, 45, 46, 51, 52] →
          exec (.syswr w b) s = .next (coreAt 0 (srcDraws b) id s))
        ∧ (s.me.tm = true →
          exec (.syswr 2 b) s = .next (coreAt 0 (srcDraws b) (fun c => { c with epc := readSrc s b }) s)
          ∧ exec (.syswr 51 b) s = .next (coreAt 0 (srcDraws b) (fun c => { c with tvec := readSrc s b &&& 0x8000FFFFFFFFFFC0 }) s)))
    ∧ (∀ (c : CoreId) (v : Word) (s : State), Gives (.seedWrite c v) s fun t => OnlyCore c s t
      ∧ t.core c = { s.core c with seed := if v = 0 then 1 else v })
    ∧ (∀ (c : CoreId) (e : Eng) (v : Word) (s : State),
      ((s.core c).tm = false → Gives (.estatWrite c e v) s fun t => OnlyCore c s t
        ∧ t.core c = (s.core c).modEng e fun g =>
          { g with sat := g.sat && v.getLsbD 32, satc := if v.extractLsb' 48 16 = 0 then 0 else g.satc })
      ∧ ((s.core c).tm = true → (v.getLsbD 31 = true ∨ ((s.core c).eng e).frz = false) → Gives (.estatWrite c e v) s fun t => OnlyCore c s t
        ∧ t.core c = (s.core c).modEng e fun g => { g with sat := v.getLsbD 32, satc := v.extractLsb' 48 16 })
      ∧ ((s.core c).tm = true → v.getLsbD 31 = false → ((s.core c).eng e).frz = true → Gives (.estatWrite c e v) s fun t =>
        t = { s with cores := t.cores } ∧ (t.core c).eng e = { sat := v.getLsbD 32, satc := v.extractLsb' 48 16 }))
    ∧ (∀ (c : CoreId) (n : Fin 8) (v : Word) (s : State),
      (((s.core c).cb n).claims = [] → ((s.core c).cb n).awaits = [] → (∀ p ∈ s.cores, p.2.e0.q = [] ∧ p.2.e1.q = []) →
        Gives (.cbdefWrite c n v) s fun t => OnlyCore c s t ∧ t.core c = { s.core c with cbs := tabSet (s.core c).cbs n {
          en := v.getLsbD 26 && v.extractLsb' 13 13 != 0 && decide ((v.extractLsb' 0 13).toNat + (v.extractLsb' 13 13).toNat ≤ 6144)
          size := v.extractLsb' 13 13, base := v.extractLsb' 0 13 } })
      ∧ ((s.core c).tm = false → Gives (.cbptrWrite c n v) s fun t => OnlyCore c s t ∧ t.core c = s.core c)
      ∧ ((s.core c).tm = true → ((s.core c).cb n).en = true → (v.extractLsb' 0 13).toNat < ((s.core c).cb n).size.toNat →
        (v.extractLsb' 13 13).toNat ≤ (v.extractLsb' 26 13).toNat → (v.extractLsb' 26 13).toNat ≤ (v.extractLsb' 39 13).toNat →
        (v.extractLsb' 39 13).toNat ≤ ((s.core c).cb n).size.toNat → Gives (.cbptrWrite c n v) s fun t => OnlyCore c s t
          ∧ t.core c = (s.core c).modCb n fun b => { b with clm := v.extractLsb' 39 13, cmt := v.extractLsb' 26 13, awt := v.extractLsb' 13 13
                                                            head := v.extractLsb' 0 13 }))
    ∧ (∀ (c : CoreId) (v : Word) (s : State),
      ((s.core c).tm = true → (s.core c).stash.frz = true → v.getLsbD 31 = false → Gives (.ststatWrite c v) s fun t =>
        t = { s with dies := t.dies, cores := tabSet s.cores c (t.core c) }
        ∧ (t.core c).stash = { q := (s.core c).stash.q.filter fun m => decide (m.id < (s.core c).stash.fid) }
        ∧ (t.die (coreDie c)).jobs = (s.die (coreDie c)).jobs.filter fun j =>
          !(j.core == c.val && (s.core c).stash.q.any fun m => decide ((s.core c).stash.fid ≤ m.id) && m.id == j.id))
      ∧ ((s.core c).tm = false ∨ (s.core c).stash.frz = false ∨ v.getLsbD 31 = true → exec (.ststatWrite c v) s = .next s))

/-- R44, R48, R111: a result that is due sets its ready bit and nothing else; load data that are due are written and clear the scoreboard bit,
and data with an uncorrectable error leave it set. -/
def Obligations.ResultsAndData : Prop :=
  (∀ (c : CoreId) (s : State) (h : Bool) (n : Nat) (l : List (Nat × CalEv)),
    (DueFirst s c (.sqReady h n) l → Gives (.resultReady c) s fun t => t = s.setCore c { s.core c with
      cal := l, prog := if h then (s.core c).prog else (s.core c).prog.sqReady n
      hand := if h then (s.core c).hand.sqReady n else (s.core c).hand })
    ∧ (DueFirst s c (.vqReady h n) l → Gives (.resultReady c) s fun t => t = s.setCore c { s.core c with
      cal := l, prog := if h then (s.core c).prog else (s.core c).prog.vqReady n
      hand := if h then (s.core c).hand.vqReady n else (s.core c).hand }))
    ∧ (∀ (c : CoreId) (s : State) (n : Fin 16) (v a : Word) (l : List (Nat × CalEv)), DueFirst s c (.gData n v a) l →
      Gives (.loadDataArrival c false) s (fun t => t = s.setCore c { s.core c with
        cal := l, g := tabSet (s.core c).g n v, gsb := tabErase (s.core c).gsb n })
      ∧ Gives (.loadDataArrival c true) s fun t => t = s.setCore c { s.core c with
        cal := l, gsb := tabSet (s.core c).gsb n (.uncorrectable a) })
    ∧ (∀ (c : CoreId) (s : State) (n : Fin 32) (v : Vec) (a : Word) (l : List (Nat × CalEv)), DueFirst s c (.vData n v a) l →
      Gives (.loadDataArrival c false) s (fun t => t = s.setCore c { s.core c with
        cal := l, v := tabSet (s.core c).v n v, vsb := tabErase (s.core c).vsb n })
      ∧ Gives (.loadDataArrival c true) s fun t => t = s.setCore c { s.core c with
        cal := l, vsb := tabSet (s.core c).vsb n (.uncorrectable a) })

/-- A row of a slot after an `ato` of quarter `h` (R183): each element that the quarter fills is the conversion of its element of the tile's row, in the NX
formats each block of 16; every other bit stays; and whether an element was clamped. -/
def ConvertedRow (f : Fmt) (m : Mode) (sat : Bool) (h : Nat) (w : BitVec 32) (src : Row) (old new : ObRow) (clamp : Bool) : Prop :=
  (∀ x, nxOf f = some x → ∃ blk : Nat → Nat × List Nat,
    (∀ b, blk b = nxEncode x (fun i => rndOf m .rna w (16 * b + i)) ((rangeFrom (16 * b) 16).map fun c => ffAcc.value (rowElem src c)))
    ∧ (∀ b, b < min 4 (fmtDepth f / 16 - 4 * h) → new.toNat / 2 ^ (nxBits x * (4 * h + b)) % 2 ^ nxBits x = (blk b).1 % 2 ^ nxBits x)
    ∧ (∀ i, i < nxBits x * (4 * h) ∨ nxBits x * min (4 * h + 4) (fmtDepth f / 16) ≤ i → new.getLsbD i = old.getLsbD i)
    ∧ (clamp = true ↔ ∃ b, b < min 4 (fmtDepth f / 16 - 4 * h) ∧ (blk b).2 ≠ []))
  ∧ (nxOf f = none → ∃ el : Nat → Conv, (∀ c, el c = (atoTarget f).conv (rndOf m (atoTarget f).dflt w c) sat (ffAcc.value (rowElem src c)))
    ∧ (∀ c, c < 64 → new.toNat / 2 ^ ((atoTarget f).w * (64 * h + c)) % 2 ^ (atoTarget f).w = (el c).bits % 2 ^ (atoTarget f).w)
    ∧ (∀ i, i < (atoTarget f).w * (64 * h) ∨ (atoTarget f).w * (64 * h + 64) ≤ i → new.getLsbD i = old.getLsbD i)
    ∧ (clamp = true ↔ ∃ c, c < 64 ∧ (el c).clamp = true))

/-- R168, R180, R181, R183, R185, R187: rows and tiles as their operations end: `wrow` writes its row, rounded into ACC48, once its tile is
not busy otherwise; `adrain` adds a row to its queue at the row's place, which rows of earlier drains come before; `azero` leaves zeros
and clears the tile's status; `ascale` multiplies every element; an infinity or NaN that either writes sets NF; `ato` converts its quarter
of the tile into its slot, row by row, leaves the tile and every other byte as they are, and sets SAT where an element was clamped. -/
def Obligations.TilesFinish : Prop :=
  (∀ (c : CoreId) (s : State) (n r : Fin 64) (v : Vec) (l : List (Nat × CalEv)), DueFirst s c (.wrow n r v) l →
    (s.core c).wrowBlocked n = false → Gives (.wrowLand c) s fun t => OnlyCore c s t ∧ (t.core c).cal = l
      ∧ (∀ e, e < 64 → rowElem (tileRow (tileKey c n) ((t.core c).tile n) r) e = ffAcc.rne (f32 (lane v e)) % 2 ^ 48)
      ∧ (∀ q, q ≠ r.val → tileRow (tileKey c n) ((t.core c).tile n) q = tileRow (tileKey c n) ((s.core c).tile n) q)
      ∧ ((t.core c).tile n).sat = ((s.core c).tile n).sat
      ∧ (((t.core c).tile n).nf = true ↔ ((s.core c).tile n).nf = true
        ∨ ∃ e, e < 64 ∧ (ffAcc.value (rowElem (tileRow (tileKey c n) ((t.core c).tile n) r) e)).isFin = false))
    ∧ (∀ (c : CoreId) (s : State) (n : Fin 64) (q : Fin 4) (r : Nat) (l : List (Nat × CalEv)), DueFirst s c (.drain n q r) l → r < 64 →
      Gives (.adrainRowPresent c) s fun t => OnlyCore c s t ∧ (t.core c).cal = l
        ∧ (∀ d, ((s.core c).tq q).due = (r, none) :: d → (∀ p x, d.head? ≠ some (p, some x)) →
          ((t.core c).tq q).rows = ((s.core c).tq q).rows ++ [tileRow (tileKey c n) ((s.core c).tile n) r] ∧ ((t.core c).tq q).due = d)
        ∧ (∀ p d, ((s.core c).tq q).due = (p, none) :: d → p ≠ r → ((t.core c).tq q).rows = ((s.core c).tq q).rows)
        ∧ ∀ k, k ≠ q.val → (t.core c).tq k = (s.core c).tq k)
    ∧ (∀ (c : CoreId) (s : State) (n : Fin 64) (l : List (Nat × CalEv)), DueFirst s c (.azero n) l →
      Gives (.tileOperationFinish c) s fun t => OnlyCore c s t
        ∧ (∀ r, r < 64 → tileRow (tileKey c n) ((t.core c).tile n) r = 0)
        ∧ ((t.core c).tile n).mcnt = 0 ∧ ((t.core c).tile n).fv = false ∧ ((t.core c).tile n).fmt = 0 ∧ ((t.core c).tile n).nf = false
        ∧ ((t.core c).tile n).sat = false ∧ ((t.core c).tile n).pin = ((s.core c).tile n).pin)
    ∧ (∀ (c : CoreId) (s : State) (n : Fin 64) (x : BitVec 32) (l : List (Nat × CalEv)), DueFirst s c (.ascale n x) l →
      Gives (.tileOperationFinish c) s fun t => OnlyCore c s t
        ∧ (∀ r e, r < 64 → e < 64 → rowElem (tileRow (tileKey c n) ((t.core c).tile n) r) e
            = ffAcc.rne ((ffAcc.value (rowElem (tileRow (tileKey c n) ((s.core c).tile n) r) e)).mul (f32 x.toNat)) % 2 ^ 48)
        ∧ ((t.core c).tile n).mcnt = ((s.core c).tile n).mcnt ∧ ((t.core c).tile n).sat = ((s.core c).tile n).sat
        ∧ (((t.core c).tile n).nf = true ↔ ((s.core c).tile n).nf = true
          ∨ ∃ r e, r < 64 ∧ e < 64 ∧ (ffAcc.value (rowElem (tileRow (tileKey c n) ((t.core c).tile n) r) e)).isFin = false))
    ∧ (∀ (c : CoreId) (s : State) (f : Fmt) (m : Mode) (sat : Bool) (o : Fin 32) (n : Fin 64) (h : BitVec 2) (ws : List (BitVec 32))
      (l : List (Nat × CalEv)), DueFirst s c (.ato f m sat o n h ws) l → Gives (.tileOperationFinish c) s fun t => OnlyCore c s t
        ∧ (∀ p r, r < 64 → tileRow (tileKey c p) ((t.core c).tile p) r = tileRow (tileKey c p) ((s.core c).tile p) r)
        ∧ (∀ p, ((t.core c).tile p).nf = ((s.core c).tile p).nf ∧ ((t.core c).tile p).mcnt = ((s.core c).tile p).mcnt)
        ∧ (∀ p, p ≠ n.val → ((t.core c).tile p).sat = ((s.core c).tile p).sat)
        ∧ (∀ p r, p ≠ o.val ∨ fmtDepth f ≤ 64 * h.toNat → r < 64 → obRow (obKey c p) ((t.core c).obs p) r = obRow (obKey c p) ((s.core c).obs p) r)
        ∧ (fmtDepth f ≤ 64 * h.toNat → ((t.core c).tile n).sat = ((s.core c).tile n).sat)
        ∧ (64 * h.toNat < fmtDepth f → ∃ cl : Nat → Bool, (((t.core c).tile n).sat = true ↔ ((s.core c).tile n).sat = true ∨ ∃ r, r < 64 ∧ cl r = true)
          ∧ ∀ r, r < 64 → ConvertedRow f m sat h.toNat (ws.getD r 0) (tileRow (tileKey c n) ((s.core c).tile n) r)
              (obRow (obKey c o) ((s.core c).obs o) r) (obRow (obKey c o) ((t.core c).obs o) r) (cl r)))

/-- R173, R176 to R178: a multiply reads both of its slots as it starts, and 64 cycles later leaves in every element of its tile the chained
accumulation of its blocks of 16 products onto the old element, or onto -0 for `mmz`; MCNT counts it, from 1 after `mmz`, up to 65,535.
Where it rests on a choice of the model: log entry 79. -/
def Obligations.MatrixMultiply : Prop :=
  (∀ (c : CoreId) (s : State) (m : MmaOp) (ms : List MmaOp) (l : List (Nat × CalEv)), DueFirst s c .mmaStart l →
    (s.core c).mmas = m :: ms → m.rows = none → Gives (.mmaStart c) s fun t => OnlyCore c s t
      ∧ ∃ as bs : List ObRow, (t.core c).mmas = { m with rows := some (as, bs) } :: ms
        ∧ (∀ r, r < 64 → as.getD r 0 = obRow (obKey c m.a) ((s.core c).obs m.a) r ∧ bs.getD r 0 = obRow (obKey c m.b) ((s.core c).obs m.b) r))
    ∧ (∀ (c : CoreId) (s : State) (m : MmaOp) (ms : List MmaOp) (as bs : List ObRow) (l : List (Nat × CalEv)),
      DueFirst s c .mmaFinish l → (s.core c).mmas = m :: ms → m.rows = some (as, bs) → Gives (.mmaFinish c) s fun t => OnlyCore c s t
        ∧ (t.core c).mmas = ms ∧ (t.core c).cal = l
        ∧ (∀ r e, r < 64 → e < 64 → rowElem (tileRow (tileKey c m.tile) ((t.core c).tile m.tile) r) e
            = mmaElem m.f (as.getD r 0) (bs.getD e 0)
                (if m.zero then 2 ^ 47 else rowElem (tileRow (tileKey c m.tile) ((s.core c).tile m.tile) r) e) % 2 ^ 48)
        ∧ ((t.core c).tile m.tile).mcnt.toNat = (if m.zero then 1 else min 65535 (((s.core c).tile m.tile).mcnt.toNat + 1))
        ∧ ((t.core c).tile m.tile).fv = true ∧ ((t.core c).tile m.tile).fmt = BitVec.ofNat 3 (fmtNum m.f)
        ∧ (m.zero = true → ((t.core c).tile m.tile).sat = false)
        ∧ (m.zero = false → ((t.core c).tile m.tile).sat = ((s.core c).tile m.tile).sat)
        ∧ (((t.core c).tile m.tile).nf = true ↔ (m.zero = false ∧ ((s.core c).tile m.tile).nf = true)
          ∨ ∃ r e, r < 64 ∧ e < 64 ∧ (ffAcc.value (rowElem (tileRow (tileKey c m.tile) ((t.core c).tile m.tile) r) e)).isFin = false)
        ∧ ∀ n, n ≠ m.tile.val → (t.core c).tile n = (s.core c).tile n)

/-- R18, R31, R37, R110, R114, R303, R349, R416: the steps of a bundle, one by one: its fetch, which may fault, meet an uncorrectable error or
wait for a page; its decode as a whole; the issue of a group of one operation, which it tries first, and what the end of a group leaves;
the acceptance of a deferred slot that has been answered, and of an access whose pages are known: its trap, or its request at the home of
its line; its completion in sequence, at the target of a redirect or with a `sysret`, its stall count added; and the watchdog. Where it
rests on choices of the model: log entries 1, 4, 17, 20 and 53. -/
def Obligations.BundleSteps : Prop :=
  (∀ (c : CoreId) (s u : State) (x : FetchNow), (s.core c).run = .running → (s.core c).bun = none → (s.core c).fetched = none →
    fetchNow { s with cur := c } c = (x, u) →
    (∀ l, x = .bytes l → codeUe u c (s.core c).pc l.length = false → Gives (.instructionFetch c false) s fun t => t.cur = s.cur
      ∧ t.core c = { s.core c with fetched := some l, tlb := (t.core c).tlb })
    ∧ (∀ l ue, x = .bytes l → ue = true ∨ codeUe u c (s.core c).pc l.length = true → (s.core c).reent = none →
      Gives (.instructionFetch c ue) s fun t =>
        t = { takeTrap c { cls := 0xB, code := 0x02, faddr := (s.core c).pc } 0 (s.core c).pc true 0 u with cur := s.cur })
    ∧ (∀ f ue, x = .fault f → (s.core c).reent = none → Gives (.instructionFetch c ue) s fun t =>
      t = { takeTrap c (transTrap 4 f (s.core c).pc) 0 (s.core c).pc (!(s.core c).redir) 0 u with cur := s.cur })
    ∧ (∀ w ue, x = .waits w → Gives (.instructionFetch c ue) s fun t => t.cur = s.cur
      ∧ t.core c = { s.core c with cyc := (s.core c).cyc + 1, tlb := (t.core c).tlb }))
    ∧ (∀ (c : CoreId) (s : State) (l : List Byte) (d : Decoded), (s.core c).run = .running → (s.core c).fetched = some l → (s.core c).reent = none →
      decodeBundle (s.core c).tm (s.core c).hist l = .ok d → Gives (.bundleDecode c) s fun t => OnlyCore c s t
        ∧ t.core c = { s.core c with fetched := none, redir := false, bun := some (bundleOf d (s.core c).pc d.groups) })
    ∧ (∀ (c : CoreId) (s v u t : State) (b : Bundle) (tm inc : Bool) (n : Nat) (f : BitVec 24) (i : Instr) (gs : List (List (Nat × Instr))),
      v = { s with cur := c } → (s.core c).run = .running → (s.core c).defer = none → (s.core c).bun = some b → b.groups = [(n, i)] :: gs →
      n < 8 → decodeField tm n f inc = .ok i → (s.core c).token = false → (s.core c).wdDue = false → exec i (trying v) = .next u →
      (u.me.held = {} → exec i (issuedState n i v) = .next t → t.me.bun ≠ none →
        (t.me.defer = none → exec (.groupIssue c) s = .next { finishGroup t with cur := s.cur })
        ∧ (t.me.defer ≠ none → exec (.groupIssue c) s = .next { t.upd (fun c => { c with rest := [], gzGrant := false }) with cur := s.cur }))
      ∧ (u.me.held.other = true → Gives (.groupIssue c) s fun w => w.cur = s.cur ∧ (w.core c).bun = u.me.bun ∧ (w.core c).cyc = u.me.cyc + 1))
    ∧ (∀ (t : State) (b : Bundle), t.me.bun = some b → t.me.grpSys = [] → (finishGroup t).me.bun = some { b with groups := b.groups.drop 1 }
      ∧ (finishGroup t).me.cyc = t.me.cyc + 1 ∧ (finishGroup t).me.issuing = false ∧ (finishGroup t).me.pc = t.me.pc
      ∧ (finishGroup t).me.prog = t.me.prog ∧ (finishGroup t).me.hand = t.me.hand ∧ (finishGroup t).me.g = t.me.g ∧ (finishGroup t).me.v = t.me.v
      ∧ (finishGroup t).mem = t.mem ∧ ∀ r ∈ (finishGroup t).home, r.core = t.cur → r.grp = false)
    ∧ (∀ (c : CoreId) (s : State) (b : Bundle) (d : Defer) (k : ArrKind) (a : Word) (n : BitVec 32), (s.core c).run = .running →
      (s.core c).bun = some b → (s.core c).defer = some d → d.op = .barrier k a n → d.ans = some true → (s.core c).rest = [] →
      (s.core c).grpSys = [] → Gives (.deferredSlotAcceptance c) s fun t => (t.core c).defer = none
        ∧ (t.core c).bun = some { b with groups := b.groups.drop 1 } ∧ (t.core c).cyc = (s.core c).cyc + 1 ∧ (t.core c).grpOld = [])
    ∧ (∀ (c : CoreId) (s v w : State) (b : Bundle) (d : Defer) (a : Access), v = { s with cur := c } → (s.core c).run = .running →
      (s.core c).bun = some b → (s.core c).defer = some d → d.op = .access a → missesOf v (.slot c) (s.team c).ctx (accUses v c a) = [] →
      w = learnPages (.slot c) (s.team c).ctx (accUses v c a) v →
      (∀ t, homeTrap w c a = some t → exec (.deferredSlotAcceptance c) s
        = .next { endGroup c (s.core c).grpSys (takeTrap c t d.slot (s.core c).pc true d.slot v) with cur := s.cur })
      ∧ (∀ (e : Elem) (va pa : Nat) (pg : TlbEnt), homeTrap w c a = none → a.elems = [e] → decodeEa e.ea = .global va →
        translate w (.slot c) (s.team c).ctx va e.len a.kind.perm = .ok (pg, pa) → (s.core c).rest = [] → (s.core c).grpSys = [] →
        Gives (.deferredSlotAcceptance c) s fun t => (t.core c).defer = none ∧ (t.core c).bun = some { b with groups := b.groups.drop 1 }
          ∧ (t.core c).cyc = (s.core c).cyc + 1
          ∧ (∃ r ∈ t.home, r.core = c.val ∧ r.flight = (s.core c).nextId ∧ r.grp = false ∧ r.elems = [{ e with ea := BitVec.ofNat 64 pa }]
            ∧ (a.kind = .read ∨ a.kind = .write → r.kind = a.kind)
            ∧ ∀ x, a.kind = .atomic x → ∃ ts, r.kind = .atomic { x with ts := ts } ∧ (x.ord = .sc → ts = (s.core c).lclk + 1))
          ∧ (∃ f ∈ (t.core c).flights, f.id = (s.core c).nextId ∧ f.dest = a.dest ∧ f.left = 1 ∧ f.glob = true)
          ∧ (∀ k y z, a.dest = .g k y z → (t.core c).gsb = tabSet (s.core c).gsb k .awaited)
          ∧ (∀ k, a.dest = .v k → (t.core c).vsb = tabSet (s.core c).vsb k .awaited)
          ∧ t.mem = s.mem ∧ (∀ i, (t.core i).sp = (s.core i).sp)))
    ∧ (∀ (c : CoreId) (s : State) (b : Bundle), (s.core c).run = .running → (s.core c).bun = some b → b.groups = [] →
      (s.core c).defer = none → (s.core c).sret = false → (s.core c).bank.lp.act = false → b.yld = false →
      ((s.core c).pend = none → Gives (.bundleComplete c) s fun t => OnlyCore c s t ∧ (t.core c).pc = b.npc ∧ (t.core c).bun = none
        ∧ (t.core c).hist = b.fields ∧ (t.core c).cyc = (s.core c).cyc + b.stall)
      ∧ (∀ target, (s.core c).pend = some { kind := 0, arg := target } → Gives (.bundleComplete c) s fun t => OnlyCore c s t
        ∧ (t.core c).pc = target ∧ (t.core c).bun = none ∧ (t.core c).pend = none ∧ (t.core c).hist = List.replicate 8 none
        ∧ (t.core c).bank.lp.act = false ∧ (t.core c).cyc = (s.core c).cyc + max b.stall 2))
    ∧ (∀ (c : CoreId) (s : State) (b : Bundle), (s.core c).run = .running → (s.core c).bun = some b → b.groups = [] →
      (s.core c).defer = none → (s.core c).sret = true → Gives (.bundleComplete c) s fun t => OnlyCore c s t ∧ (t.core c).tm = false
        ∧ (t.core c).bun = none ∧ (t.core c).pc = (s.core c).epc ∧ (t.core c).cyc = (s.core c).cyc + b.stall)
    ∧ (∀ (c : CoreId) (s : State), (s.core c).run = .running → Gives (.watchdogPeriod c) s fun t => t = s.setCore c { s.core c with
        wdCount := (s.core c).wdCount + 1
        wdDue := (s.core c).wdDue || ((s.core c).wdLimit != 0 && (s.core c).wdCount + 1 == (s.core c).wdLimit) })
    ∧ (∀ (c : CoreId) (s : State) (b : Bundle) (g : List (Nat × Instr)) (gs : List (List (Nat × Instr))), (s.core c).run = .running →
      (s.core c).wdDue = true → (s.core c).defer = none → (s.core c).bun = some b → b.groups = g :: gs → (s.core c).token = false →
      (s.core c).tm = false → tvecEn (s.core c).tvec = true → (s.core c).regUe = false → (s.core c).grpSys = [] → firstSlot g < 16 →
      Gives (.watchdog c) s fun t => t.mem = s.mem ∧ t.teams = s.teams ∧ t.ctxs = s.ctxs ∧ (t.core c).tm = true
        ∧ (t.core c).pc = ((s.core c).tvec &&& 0x0000FFFFFFFFFFC0) + 64 * 7 ∧ (t.core c).epc = (s.core c).pc ∧ (t.core c).wdCount = 0
        ∧ (t.core c).wdDue = false ∧ (t.core c).cause.extractLsb' 12 4 = 7 ∧ (t.core c).cause.extractLsb' 0 8 = 1)

/-- R193, R195, R198, R201, R203, R208, R213, R214, R219, R251, R349, R416: a copy engine starts its oldest command, joins the order of a
buffer and is granted its region, asks for the pages of a run, waits where its first element waits, and else does its elements one after
another, up to a fault, at whose address it freezes; an element in the local scratchpad is written as its source reads, converted and
scaled as its block says, or as zero beyond the bounds; a unit sends its arrivals, and is counted off, the last one with its command; a
barrier object counts its arrivals and answers who made them; a wake token enters its queue; a mesh access reaches its scratchpad. Where
it rests on choices of the model: log entries 25 and 30. -/
def Obligations.EnginesAndBanks : Prop :=
  (∀ (c : CoreId) (e : Eng) (s : State) (m : EngCmd) (q : List EngCmd), ((s.core c).eng e).q = m :: q → ((s.core c).eng e).frz = false →
    (s.core c).live = true →
    (m.started = false → (nbN m.blk = 0 ∨ nbDkind m.blk ≠ 2 ∧ nbSkind m.blk ≠ 2) → Gives (.engineCommandStart c e) s fun t => OnlyCore c s t
      ∧ ((t.core c).eng e).q = { m with started := true } :: q)
    ∧ (m.started = false → nbN m.blk ≠ 0 → nbDkind m.blk = 2 → Gives (.engineCommandStart c e) s fun t =>
      ((t.core (nbCbCore (s.team c) m.blk)).cb (nbCb m.blk)).claims
        = ((s.core (nbCbCore (s.team c) m.blk)).cb (nbCb m.blk)).claims ++ [.eng c.val e])
    ∧ (m.started = false → nbN m.blk ≠ 0 → nbDkind m.blk ≠ 2 → nbSkind m.blk = 2 → Gives (.engineCommandStart c e) s fun t =>
      ((t.core (nbCbCore (s.team c) m.blk)).cb (nbCb m.blk)).awaits
        = ((s.core (nbCbCore (s.team c) m.blk)).cb (nbCb m.blk)).awaits ++ [.eng c.val e])
    ∧ (∀ (o : Nat) (b : CircBuf), o = nbCbCore (s.team c) m.blk → b = (s.core o).cb (nbCb m.blk) → m.waitsCb = true → nbDkind m.blk = 2 →
      b.claims.head? = some (.eng c.val e) →
      (b.en = true → b.clm.toNat + nbCbg m.blk ≤ b.size.toNat → Gives (.engineCbClaim c e) s fun t =>
        ((t.core o).cb (nbCb m.blk)).clm = b.clm + BitVec.ofNat 13 (nbCbg m.blk) ∧ ((t.core o).cb (nbCb m.blk)).claims = b.claims.drop 1
          ∧ ((t.core c).eng e).q = { m with dstReg := some ((b.head.toNat + b.clm.toNat) % b.size.toNat) } :: q)
      ∧ (b.en = true → nbCbg m.blk ≤ b.size.toNat → b.size.toNat < b.clm.toNat + nbCbg m.blk → exec (.engineCbClaim c e) s = .next s)
      ∧ (b.en = false → Gives (.engineCbClaim c e) s fun t => ((t.core c).eng e).frz = true ∧ ((t.core c).eng e).fcode = 0x07
        ∧ ((t.core o).cb (nbCb m.blk)).claims = b.claims.drop 1))
    ∧ (∀ (o : Nat) (b : CircBuf), o = nbCbCore (s.team c) m.blk → b = (s.core o).cb (nbCb m.blk) → m.waitsCb = true → nbDkind m.blk ≠ 2 →
      b.awaits.head? = some (.eng c.val e) → b.en = true → nbCbg m.blk ≤ b.size.toNat → b.awt.toNat + nbCbg m.blk ≤ b.cmt.toNat →
      Gives (.engineCbClaim c e) s fun t =>
        ((t.core o).cb (nbCb m.blk)).awt = b.awt + BitVec.ofNat 13 (nbCbg m.blk) ∧ ((t.core o).cb (nbCb m.blk)).awaits = b.awaits.drop 1
          ∧ ((t.core c).eng e).q = { m with srcReg := some ((b.head.toNat + b.awt.toNat) % b.size.toNat) } :: q)
    ∧ (m.canWalk = true → (s.core c).obWait m = false → missesOf s (.eng c e) (s.team c).ctx (runPages m) ≠ [] → ∀ ue,
      exec (.engineTransfer c e ue) s = .next (askWalks (s.team c).ctx (missesOf s (.eng c e) (s.team c).ctx (runPages m)) s))
    ∧ (∀ u : State, m.canWalk = true → (s.core c).obWait m = false → missesOf s (.eng c e) (s.team c).ctx (runPages m) = [] →
      u = learnPages (.eng c e) (s.team c).ctx (runPages m) s →
      (runStarts s c e m = [] → ∀ ue, exec (.engineTransfer c e ue) s = .next s)
      ∧ (∀ (ue : Bool) (row : Row) (t : State) (ws : List EngWrite) (o : Option EngFault), runStarts s c e m ≠ [] →
        engRow (s.core c) m = some (.ok (row, false)) → runSteps c e m row ue (runStarts s c e m) u = (t, ws, o) →
        (∀ f, o = some f → exec (.engineTransfer c e ue) s = .next (engFreeze c e f (putRun c e ws t)))
        ∧ (o = none → Gives (.engineTransfer c e ue) s fun w => ∃ n : EngCmd, ((w.core c).eng e).q = n :: q ∧ n.blk = m.blk ∧ n.units = m.units
          ∧ n.pos = m.pos + stepLen m * (runStarts s c e m).length))
      ∧ (∀ (x : Nat) (l : List Nat) (ps : List (Place × Nat)) (off : Int), runStarts s c e m = x :: l → nbSkind m.blk = 0 →
        codeNx (nbSfmt m.blk) = none → codeNx (nbDfmt m.blk) = none → nbInb m.blk (nbIndex m.blk x) = true → off = nbSoff m.blk (nbIndex m.blk x) →
        srcPlaces (stepFill c e m x u) c e m (codeAlign (nbSfmt m.blk)) (codeBytes (nbSfmt m.blk)) off = .ok ps →
        Gives (.engineTransfer c e true) s fun t => ((t.core c).eng e).q = m :: q ∧ ((t.core c).eng e).frz = true
          ∧ ((t.core c).eng e).fcode = 0x04 ∧ ((t.core c).eng e).faddr = walkAddr (blkBytes m.blk 0 8) off ∧ ∀ i, (t.core i).sp = (s.core i).sp)
      ∧ (∀ (x so d n k : Nat) (ix : List Nat) (v : FpNum), runStarts s c e m = [x] → nbSkind m.blk = 0 → nbDkind m.blk = 0 →
        nbFlag m.blk 5 = false → codeNx (nbSfmt m.blk) = none → codeNx (nbDfmt m.blk) = none → ix = nbIndex m.blk x →
        k = codeBytes (nbSfmt m.blk) → n = codeBytes (nbDfmt m.blk) →
        walkAddr (blkBytes m.blk 8 8) (nbDoff m.blk ix) = BitVec.ofNat 64 d → d + n ≤ 0x60000 → d % codeAlign (nbDfmt m.blk) = 0 →
        granRace s c c d n .write = none →
        (nbInb m.blk ix = true → walkAddr (blkBytes m.blk 0 8) (nbSoff m.blk ix) = BitVec.ofNat 64 so → so + k ≤ 0x60000 →
          so % codeAlign (nbSfmt m.blk) = 0 → granRace s c c so k .read = none →
          v = (if nbFlag m.blk 2 then (codeValue (nbSfmt m.blk) (bytesNat (s.spBytes c so k))).mul (f32 (blkBytes m.blk 0x1C 4))
            else codeValue (nbSfmt m.blk) (bytesNat (s.spBytes c so k))) →
          Gives (.engineTransfer c e false) s fun t =>
            bytesNat (t.spBytes c d n) = (if nbFlag m.blk 1 then (codeConvert (nbSfmt m.blk) (nbDfmt m.blk) (nbMode m.blk) (nbFlag m.blk 3) v).bits
              else bytesNat (s.spBytes c so k)) % 256 ^ n
            ∧ (∀ i a, ¬(i = c.val ∧ d ≤ a ∧ a < d + n) → t.spByte i a = s.spByte i a) ∧ t.mem = s.mem)
        ∧ (nbInb m.blk ix = false → nbFlag m.blk 1 = false → Gives (.engineTransfer c e false) s fun t => bytesNat (t.spBytes c d n) = 0
          ∧ ∀ i a, ¬(i = c.val ∧ d ≤ a ∧ a < d + n) → t.spByte i a = s.spByte i a)))
    ∧ (m.unitDone = true → m.units < nbUnits m.blk → nbN m.blk ≠ 0 → nbScope m.blk ≠ 4 → nbDkind m.blk ≠ 2 →
      nbSkind m.blk ≠ 2 → m.obRows = [] →
      (((m.arrs = none ∧ nbBar m.blk = none) ∨ (m.arrs = some 0 ∧ m.ovr = false)) → (s.core c).getK (nbKctr m.blk) ≠ 0 →
        Gives (.unitComplete c e) s fun t =>
          ((t.core c).eng e).q = (if m.units + 1 = nbUnits m.blk then q
            else { m with units := m.units + 1, arrs := none, ovr := false, touched := [], bytes := [], lines := [] } :: q)
          ∧ (t.core c).getK (nbKctr m.blk) = (s.core c).getK (nbKctr m.blk) - 1
            ∧ (t.core c).kclk = tabSet (s.core c).kclk (nbKctr m.blk) (s.core c).lclk)
      ∧ (∀ off, m.arrs = none → nbBar m.blk = some off → off % 16 = 0 → off + 16 ≤ 0x60000 → Gives (.unitComplete c e) s fun t =>
        ((t.core c).eng e).q = { m with arrs := some (m.counted c (s.team c)).length } :: q ∧ (t.core c).k = (s.core c).k
          ∧ ∀ j n, m.counted c (s.team c) = [(j, n)] → (t.core j).barArrs = (s.core j).barArrs
            ++ [{ off := off, kind := .engine e, who := c, cmd := m.id, n := BitVec.ofNat 32 n }])))
    ∧ (∀ (c : CoreId) (s : State) (r : BarArr) (o : BarObj), (s.core c).barArrs = [r] → r.may s = true → r.off < 2 ^ 19 → r.kind ≠ .drop →
      o = s.barAt c r.off → o.bm = false →
      (o.arr.toNat + r.n.toNat < o.exp.toNat → Gives (.barrierBankUpdate c (BitVec.ofNat 19 r.off)) s fun t =>
        t.barAt c r.off = { o with arr := BitVec.ofNat 16 (o.arr.toNat + r.n.toNat), last := BitVec.ofNat 9 r.who }
          ∧ (r.kind.binds = true → (t.core r.who).defer = (s.core r.who).defer.map fun d => { d with ans := some true }))
      ∧ (o.arr.toNat + r.n.toNat = o.exp.toNat → Gives (.barrierBankUpdate c (BitVec.ofNat 19 r.off)) s fun t =>
        t.barAt c r.off = { o with ph := o.ph + 1, arr := 0, bya := 0, exp := o.later, last := BitVec.ofNat 9 r.who }
          ∧ (r.kind.binds = true → (t.core r.who).defer = (s.core r.who).defer.map fun d => { d with ans := some true }))
      ∧ (o.exp.toNat < o.arr.toNat + r.n.toNat → Gives (.barrierBankUpdate c (BitVec.ofNat 19 r.off)) s fun t =>
        t.barAt c r.off = { o with ovr := true }
          ∧ (r.kind.binds = true → (t.core r.who).defer = (s.core r.who).defer.map fun d => { d with ans := some (!o.trp) })))
    ∧ (∀ (c : CoreId) (s : State) (w : Nat) (x : Comparator) (g : BitVec 13) (l : Tab Comparator), (s.core c).wcs = (w, x) :: l →
      x.pend = some g → (s.core c).wakeq.length < 16 → Gives (.wakeTokenEnqueue c) s fun t => OnlyCore c s t
        ∧ (t.core c).wakeq = (s.core c).wakeq ++ [(BitVec.ofNat 3 w, g)] ∧ (t.core c).wcs = (w, { x with pend := none }) :: l)
    ∧ (∀ (c : CoreId) (s : State) (r : Req) (e : Elem), (s.core c).mesh = [r] → r.spad = some c.val → r.kind = .write → r.elems = [e] →
      r.grp = false → s.scHeld = [] → Gives (.meshAccessArrival c) s fun t => (t.core c).mesh = []
        ∧ (∀ k (h : k < e.data.length), t.spByte c (e.ea.toNat + k) = e.data[k])
        ∧ ∀ i a, ¬(i = c.val ∧ e.ea.toNat ≤ a ∧ a < e.ea.toNat + e.data.length) → t.spByte i a = s.spByte i a)

/-- R48, R111, R140, R278, R279, R340, R341, R347, R349: the homes: an access is performed on its resident line; what a load reads there comes
to its register, whose scoreboard bit is cleared, or left set by an uncorrectable error; a wanted line is filled, a dirty line is written
back, two relaxed additions to one place merge, an `.sc` atomic is performed once the horizon has reached it; a walk starts, and its page
enters the die's TLB, or its fault, which an uncorrectable error of a table line is, reaches those who wait. Where it rests on choices of
the model: log entries 8, 9, 14, 16, 24 and 73. -/
def Obligations.HomesAndWalks : Prop :=
  (∀ (s : State) (r : Req) (e : Elem), s.home = [r] → r.spad = none → r.kind = .write → r.elems = [e] → r.grp = false → s.scHeld = [] →
    (s.l2At (lineOf e.ea.toNat)).isSome → Gives (.homeAccess (Fin.ofNat 1024 (homeSlice (lineOf e.ea.toNat)))) s fun t => t.home = []
      ∧ (∀ k (h : k < e.data.length), t.gByte (e.ea.toNat + k) = e.data[k])
      ∧ ∀ a, ¬(e.ea.toNat ≤ a ∧ a < e.ea.toNat + e.data.length) → t.gByte a = s.gByte a)
    ∧ (∀ (sl : Fin 1024) (s : State) (x : BitVec 3) (c : BitVec 2) (l : Nat) (ws : List (BitVec 3 × BitVec 2 × Nat)),
      wantedLines s sl = (x, c, l) :: ws → Gives (.l2Fill sl) s fun t => (t.l2At l).isSome)
    ∧ (∀ (s : State) (r : Req) (e : Elem) (f : Flight) (l : List Flight), s.home = [r] → r.spad = none → r.kind = .read → r.elems = [e] →
      e.dst = 0 → (s.core r.core).flights = f :: l → f.id = r.flight → (∀ g ∈ l, g.id ≠ r.flight) → f.dest ≠ .drop →
      (s.l2At (lineOf e.ea.toNat)).isSome → Gives (.homeAccess (Fin.ofNat 1024 (homeSlice (lineOf e.ea.toNat)))) s fun t => t.home = [] ∧ t.mem = s.mem
        ∧ ∃ g : Flight, (t.core r.core).flights = g :: l ∧ g.id = f.id ∧ g.dest = f.dest ∧ g.left = f.left - 1 ∧ g.ue = (f.ue || s.ueAt e.ea.toNat e.len)
          ∧ ∀ k, k < e.len → memByte g.data k = some (s.gByte (e.ea.toNat + k)))
    ∧ (∀ (c : CoreId) (s : State) (f : Flight) (l : List Flight), (s.core c).flights = f :: l → (∀ g ∈ l, g.id ≠ f.id) → f.left = 0 → f.banks = [] →
      (∀ x ∈ (s.core c).cal, x.1 ≤ (s.core c).cyc → x.2.isData = false) → f.ord ≠ .acq → f.ord ≠ .sc →
      (∀ n k sx, f.dest = .g n k sx → f.ue = false → Gives (.loadDataArrival c false) s fun t => t = s.setCore c { s.core c with
        flights := l, gsb := tabErase (s.core c).gsb n
        g := tabSet (s.core c).g n (regOf k sx (bytesNat ((rangeFrom 0 k).map fun a => (memByte f.data a).getD 0))) })
      ∧ (∀ n, f.dest = .v n → f.ue = false → Gives (.loadDataArrival c false) s fun t => t = s.setCore c { s.core c with
        flights := l, vsb := tabErase (s.core c).vsb n
        v := tabSet (s.core c).v n (BitVec.ofNat 2048 (bytesNat ((rangeFrom 0 256).map fun a => (memByte f.data a).getD 0))) })
      ∧ (∀ n k sx ue, f.dest = .g n k sx → ue = true ∨ f.ue = true → Gives (.loadDataArrival c ue) s fun t => t = s.setCore c { s.core c with
        flights := l, gsb := tabSet (s.core c).gsb n (.uncorrectable f.addr) }))
    ∧ (∀ (line : BitVec 41) (s : State) (y : L2Line), s.l2At line.toNat = some y → y.dirty = true → y.ue = false → paAperture (128 * line.toNat) = false →
      Gives (.dirtyWriteback line false) s fun t => t.l2At line.toNat = some y.clean ∧ ((s.ctx y.ctx.toNat).pol ≠ 1 → t.mem = s.mem))
    ∧ (∀ (sl : Fin 1024) (ia ib : Fin 6) (s : State) (a b : Req) (x y : Amo), s.home = [a, b] → a ≠ b → a.kind = .atomic x → b.kind = .atomic y →
      x.op = .addI64 → y.op = .addI64 → a.combinable s = true → b.combinable s = true → homeSlice a.unit = sl.val →
      b.unit = a.unit → a.elems.map (·.ea) = b.elems.map (·.ea) → Gives (.routerCombine sl ia ib) s fun t =>
        t = { s with home := [{ b with kind := .atomic { y with v := x.v + y.v }, merged := b.merged ++ (a.core, a.flight) :: a.merged }] })
    ∧ (∀ (s : State) (r : Req) (e : Elem) (x : Amo), s.scHeld = [r] → r.kind = .atomic x → r.elems = [e] → r.spad = none →
      x.ts.toNat ≤ s.horizon.toNat → e.len = amoSize x.op → (s.l2At (lineOf e.ea.toNat)).isSome → r.meetsUe s = false →
      Gives .scAtomicPerform s fun t => t.scHeld = []
        ∧ bytesNat (t.gBytes e.ea.toNat e.len) = amoResult x.op (bytesNat (s.gBytes e.ea.toNat e.len)) x.v x.c % 256 ^ e.len)
    ∧ (∀ (d : Die) (s : State) (w : Walk) (ws : List Walk), (s.die d).walks = w :: ws → w.started = false →
      (ws.filter (·.started)).length < 32 → Gives (.pageWalkStart d) s fun t => (t.die d).walks = { w with started := true } :: ws)
    ∧ (∀ (d : Die) (s u : State) (w : Walk) (ws : List Walk), (s.die d).walks = w :: ws → w.started = true →
      u = walkReads w.ctx (w.page * 2 ^ 16) s →
      (∀ p, walkUe u w.ctx (w.page * 2 ^ 16) = none → walkPage u w.ctx (w.page * 2 ^ 16) = .ok p →
        (∀ m ∈ w.waiters, foundFault u p m = none) → Gives (.pageWalkDone d none) s fun t =>
          (t.die d).walks = ws ∧ (t.die d).tlb = (p :: (s.die d).tlb).take 4096)
      ∧ (∀ f, walkUe u w.ctx (w.page * 2 ^ 16) = none → walkPage u w.ctx (w.page * 2 ^ 16) = .error f → Gives (.pageWalkDone d none) s fun t =>
        (t.die d).walks = ws ∧ (t.die d).tlb = (s.die d).tlb
          ∧ ∀ m, w.waiters = [m] → t.walkFaults m.who = s.walkFaults m.who ++ [{ who := m.who, ctx := w.ctx, page := m.va / 2 ^ 16, f := f }])
      ∧ (∀ l : Fin 4, 4 ≤ (walkLines u w.ctx (w.page * 2 ^ 16) 3 (s.ctx w.ctx.toNat).ptRoot).length + l.val →
        Gives (.pageWalkDone d (some l)) s fun t => (t.die d).walks = ws ∧ (t.die d).tlb = (s.die d).tlb
          ∧ ∀ m, w.waiters = [m] → t.walkFaults m.who = s.walkFaults m.who
            ++ [{ who := m.who, ctx := w.ctx, page := m.va / 2 ^ 16, f := { reason := 8, level := BitVec.ofNat 4 l.val } }]))

/-- R260, R278, R279: 16 mesh cycles add 1 to every core's clock; the horizon becomes the least that a running core reports; the refresh
rotation goes on by one slot, which is 256 ns, and reads of the weight store that its last slot held up go on. Where it rests on choices
of the model: log entries 4 and 14. -/
def Obligations.Clocks : Prop :=
  (∀ s : State, Gives .lclkTick s fun t => t.meshCyc = s.meshCyc + 16
    ∧ (∀ i c, tabGet? s.cores i = some c → t.core i = { c with lclk := c.lclk + 1 })
    ∧ t = { s with meshCyc := t.meshCyc, slotNs := s.slotNs + 10, cores := t.cores })
    ∧ (∀ (s : State) (v : Nat), (∃ p ∈ s.cores, p.2.runs = true ∧ horizonReport s p.1 = v) →
      (∀ p ∈ s.cores, p.2.runs = true → v ≤ horizonReport s p.1) → Gives .horizonRound s fun t => t = { s with horizon := BitVec.ofNat 64 v })
    ∧ (∀ s : State, Gives .weightRefreshSlot s fun t =>
      t = { s with rotation := s.rotation + 1, slotNs := s.slotNs - 256, cores := t.cores }
      ∧ ∀ i c, tabGet? s.cores i = some c → t.core i = { c with flights := c.flights.map fun f => f.refreshed (s.rotation % 125) })

/-- R229, R232, R234, R245: a grant of 64 units leaves for the sending end while PARK, INFL and it make at most 1,024; the far end of ch8 to
ch10 is credited, and a far end's grant credits this one. The oldest command's next message leaves by the channel, against its credit: a
`send` whole; a `send.m` message by message, the last of them with the command's count; an uncorrectable error or a race in its source
freezes the queue. While several bindings of a port have a message ready, the port sends a unit of one of them at a time. Where it rests
on choices of the model: log entries 43, 72 and 76. -/
def Obligations.MessagesLeave : Prop :=
  (∀ (s : State) (n : Nat) (b : Binding), tabGet? s.binds n = some b → n < 2 ^ 32 → s.farEnd b = true → s.linkUp b.port = true → 0 < b.pend →
    s.frameRoom b.port 1 0 = true → b.park + b.infl + 64 ≤ 1024 → Gives (.creditForward n) s fun t => t = { s with binds := t.binds, outbox := t.outbox, ports := t.ports }
      ∧ BindMoves s t n (fun b x => x.pend = b.pend - 1 ∧ x.infl = b.infl + 64 ∧ x.park = b.park ∧ x.parked = b.parked)
      ∧ (b.ch.val < 8 → t.outbox = s.outbox ++ framesOf s b.port (some n) .credit [])
      ∧ (∀ m, 8 ≤ b.ch.val → s.partner b = some m → m ≠ n → BindMoves s t m fun y z => z = { y with cred := y.cred + 64 }))
    ∧ (∀ (s : State) (n : Nat) (b : Binding), tabGet? s.binds n = some b → n < 2 ^ 32 → s.farEnd b = true → s.linkUp b.port = true →
      b.ch.val < 8 → b.cred + 64 ≤ 1024 → s.frameRoom b.port 1 0 = true → Gives (.creditForward (n + 2 ^ 32)) s fun t => t = { s with binds := t.binds, ports := t.ports }
        ∧ BindMoves s t n fun b x => x = { b with cred := b.cred + 64 })
    ∧ (∀ (c : CoreId) (s : State) (ue : Bool) (ch : Fin 11) (m : Msg) (q : List ChanCmd) (n : Nat) (b : Binding), (s.core c).chq.q = .send ch m :: q →
    s.bound c ch = some (n, b) → tabGet? s.binds n = some b → PortFree s c n b → msgUnits m ≤ b.cred → Gives (.channelMessageDepart c ue) s fun t =>
      t = { s with binds := t.binds, outbox := t.outbox, ports := t.ports, cores := tabSet s.cores c (t.core c) }
      ∧ t.core c = { s.core c with chq := { (s.core c).chq with q := q } }
      ∧ BindMoves s t n (fun b x => x.cred = b.cred - msgUnits m)
      ∧ (b.ch.val < 8 → t.outbox = s.outbox ++ framesOf s b.port (some n) (msgHead ((s.team c).index c) m) (msgBytes m))
      ∧ (∀ p, 8 ≤ b.ch.val → s.partner b = some p → p ≠ n → BindMoves s t p fun y z => z = { y with wire := y.wire ++ [((s.team c).index c, m)] }))
    ∧ (∀ (c : CoreId) (s : State) (ch : Fin 11) (a land : Word) (len idx sent k : Nat) (q : List ChanCmd) (n : Nat) (b : Binding),
      (s.core c).chq.q = .sendM ch a len idx land sent :: q → s.bound c ch = some (n, b) → tabGet? s.binds n = some b →
      PortFree s c n b → (ChanCmd.sendM ch a len idx land sent).units ≤ b.cred → k = (if lkind land = 1 then min 4096 (len - sent) else len) →
      (Gives (.channelMessageDepart c true) s fun t => (t.core c).chq.frz = true ∧ (t.core c).chq.info = 7 ∧ t.binds = s.binds
        ∧ (t.die (coreDie c)).fseq = (s.die (coreDie c)).fseq + 1)
      ∧ (granRace s c c (a.toNat + sent) k .read ≠ none → Gives (.channelMessageDepart c false) s fun t =>
        (t.core c).chq.frz = true ∧ (t.core c).chq.info = 8 ∧ t.binds = s.binds)
      ∧ (granRace s c c (a.toNat + sent) k .read = none → Gives (.channelMessageDepart c false) s fun t =>
        (∀ x, x = sendMsg land idx (s.spBytes c (a.toNat + sent) k) → b.ch.val < 8 →
          t.outbox = s.outbox ++ framesOf s b.port (some n) (msgHead ((s.team c).index c) x) (msgBytes x))
        ∧ (t.core c).sp = (s.core c).sp ∧ (t.core c).g = (s.core c).g
        ∧ (sent + k < len → (t.core c).chq.q = .sendM ch a len idx land (sent + k) :: q ∧ (t.core c).k = (s.core c).k)
        ∧ (len ≤ sent + k → (t.core c).chq.q = q ∧ (land.getLsbD 61 = true → (s.core c).getK (land.extractLsb' 57 4).toNat ≠ 0 →
            (t.core c).getK (land.extractLsb' 57 4).toNat = (s.core c).getK (land.extractLsb' 57 4).toNat - 1))))
    ∧ (∀ (c : CoreId) (s : State) (ue : Bool) (n : Nat) (b : Binding) (m : ChanCmd), s.canDepart c = some (n, b, m) →
      tabGet? (s.port b.port).served n = none → 2 ≤ (s.readyBinds b.port).length →
      (nextBind (s.port b.port).last (s.readyBinds b.port) ≠ some n → exec (.channelMessageDepart c ue) s = .next s)
      ∧ (nextBind (s.port b.port).last (s.readyBinds b.port) = some n → 2 ≤ m.units → Gives (.channelMessageDepart c ue) s fun t =>
        t = { s with ports := t.ports } ∧ (t.port b.port).last = n ∧ tabGet? (t.port b.port).served n = some (c.val, 1)))

/-- R229, R371: a message that its INFL covers moves from INFL to PARK where it cannot land at once, in the order of its stream; one that it
does not cover is a protocol fault, which is logged; a parked segment lands in its buffer once it can, claimed, written and committed; the
two ends of a binding over ch0 to ch7 meet if they state the same shape. R224, R235 to R237: the oldest receive takes the oldest message
of its stream, whose data are present 3 cycles later, or 6 for `recvadd.f32`: a scalar for its g register, a vector for its v register,
where `recvadd.f32` adds it to the old value; a message of the other kind, or an uncorrectable error, leaves the scoreboard bit set. Where
it rests on choices of the model: log entries 25, 40 and 43. -/
def Obligations.MessagesArrive : Prop :=
  (∀ (s : State) (n ti : Nat) (m : Msg) (b : Binding), tabGet? s.binds n = some b → s.linkUp b.port = true → s.farEnd b = true → b.ch.val < 8 →
    msgOk m = true → ti < 2 ^ (b.loc.lw + b.loc.lh) →
    (msgUnits m ≤ b.infl → ((∀ k l, m ≠ .segment k l) ∨ b.stream ti ≠ []) → Gives (.messageArrival n ti (some m)) s fun t =>
      t = { s with binds := t.binds, ports := t.ports } ∧ BindMoves s t n fun b x =>
        x = { b with infl := b.infl - msgUnits m, park := b.park + msgUnits m, parked := tabSet b.parked ti (b.stream ti ++ [m]) })
    ∧ (b.infl < msgUnits m → Gives (.messageArrival n ti (some m)) s fun t => t = { s with dies := t.dies, ports := t.ports }
      ∧ (t.die b.loc.die).fseq = (s.die b.loc.die).fseq + 1))
    ∧ (∀ (s : State) (n ti : Nat) (m : Msg) (w : List (Nat × Msg)) (b : Binding), tabGet? s.binds n = some b → s.linkUp b.port = true →
      8 ≤ b.ch.val → b.wire = (ti, m) :: w → msgUnits m ≤ b.infl → ((∀ k l, m ≠ .segment k l) ∨ b.stream ti ≠ []) → Gives (.messageArrival n ti none) s fun t =>
        t = { s with binds := t.binds } ∧ BindMoves s t n fun b x =>
          x = { b with wire := w, infl := b.infl - msgUnits m, park := b.park + msgUnits m, parked := tabSet b.parked ti (b.stream ti ++ [m]) })
    ∧ (∀ (s : State) (n ti k j g : Nat) (l : List Byte) (r : List Msg) (b : Binding) (tm : Team) (q : CircBuf), tabGet? s.binds n = some b →
      b.stream ti = .segment k l :: r → canLand s b ti (.segment k l) = true → s.teamAt b = some tm → j = tm.coreOf ti →
      q = (s.core j).cb k → l.length = 64 * g → q.cmt.toNat + g ≤ q.clm.toNat + g → (q.head.toNat + q.clm.toNat) % q.size.toNat + g ≤ q.size.toNat →
      Gives (.messageLand n ti) s fun t => BindMoves s t n (fun b x => x.park = b.park - g ∧ x.parked = tabSet b.parked ti r)
        ∧ ((t.core j).cb k).clm.toNat = q.clm.toNat + g ∧ ((t.core j).cb k).cmt.toNat = q.cmt.toNat + g
        ∧ (∀ i (h : i < l.length), t.spByte j (64 * (q.base.toNat + (q.head.toNat + q.clm.toNat) % q.size.toNat) + i) = l[i])
        ∧ t.mem = s.mem)
    ∧ (∀ (s : State) (n ti : Nat) (m : Msg) (r : List Msg) (b : Binding), tabGet? s.binds n = some b → b.stream ti = m :: r →
      canLand s b ti m = false → exec (.messageLand n ti) s = .next s)
    ∧ (∀ (s : State) (n lw lh : Nat) (b : Binding), tabGet? s.binds n = some b → b.ch.val < 8 → b.met = false → b.refused = false →
      s.linkUp b.port = true → Gives (.bindingMeet n lw lh) s fun t => t = { s with binds := t.binds } ∧ BindMoves s t n fun b x =>
        x = { b with met := decide (lw = b.loc.lw ∧ lh = b.loc.lh), refused := !decide (lw = b.loc.lw ∧ lh = b.loc.lh) })
    ∧ (∀ (c : CoreId) (s : State) (r : RecvReq) (l : List RecvReq) (n : Nat) (b : Binding) (m : Msg) (q : List Msg),
    (s.core c).recvs = r :: l → s.bound c r.ch = some (n, b) → tabGet? s.binds n = some b → b.stream ((s.team c).index c) = m :: q →
    msgIsReg m = true →
    (Gives (.receiveDelivery c false) s fun t => t = { s with binds := t.binds, cores := tabSet s.cores c (t.core c) }
      ∧ BindMoves s t n (fun b x => x = { b with park := b.park - msgUnits m, parked := tabSet b.parked ((s.team c).index c) q })
      ∧ (∀ k bs sx v, r.dest = .g k bs sx → m = .scalar v → t.core c = { s.core c with
          recvs := l, cal := calInsert ((s.core c).cyc + r.wait (s.core c).cyc) (.gData k v 0) (s.core c).cal })
      ∧ (∀ k v, r.dest = .v k → m = .vector v → ∃ x : Vec, t.core c = { s.core c with
          recvs := l, cal := calInsert ((s.core c).cyc + r.wait (s.core c).cyc) (.vData k x 0) (s.core c).cal }
          ∧ (r.add = none → x = v)
          ∧ ∀ o, r.add = some o → ∀ e, e < 64 → lane x e = ffF32.rne ((f32 (lane o e)).add (f32 (lane v e))) % 2 ^ 32)
      ∧ (∀ k bs sx v, r.dest = .g k bs sx → m = .vector v → t.core c = { s.core c with
          recvs := l, gsb := tabSet (s.core c).gsb k .wrongKind })
      ∧ (∀ k v, r.dest = .v k → m = .scalar v → t.core c = { s.core c with recvs := l, vsb := tabSet (s.core c).vsb k .wrongKind }))
    ∧ (Gives (.receiveDelivery c true) s fun t => t.core c = { (s.core c).markDest r.dest (.uncorrectable 0) with recvs := l })
    ∧ (r.wait (s.core c).cyc = match r.due with
        | some k => k + (if r.add.isSome then 6 else 3) - (s.core c).cyc
        | none => if r.add.isSome then 6 else 3))

/-- R373, R374, R432, R445: the links: a flit is sent again at most 16 times before a retrain, which is counted, and which ends the link's
silence or takes it down with a record; a payload leaves as one frame, or in the wide-area mode as frames of at most 9,216 bytes, sealed
under the key of its binding with successive numbers; one that is lost goes out again once the round-trip timer has run out, as it was
sealed; a ring frame that fails authentication under every key held is counted; once its interval has expired, or its frame numbers are
used up, a port changes its key: the new one is installed, then used, and the first frame under it ends the old one. Where it rests on
choices of the model: log entries 44, 74 and 76. -/
def Obligations.Links : Prop :=
  (∀ (p : PortId) (s : State), s.linkUp p.val = true →
    ((s.port p.val).retx < 16 → Gives (.flitRetransmit p) s fun t => OnlyPorts s t
      ∧ t.port p.val = { s.port p.val with retx := (s.port p.val).retx + 1 }
      ∧ t.survey.cnt = { s.survey.cnt with corr := countsUp (2 ^ 64 - 1) s.survey.cnt.corr 9 })
    ∧ ((s.port p.val).retx = 16 → Gives (.linkRetrain p) s fun t => OnlyPorts s t ∧ (t.port p.val).retrain = true ∧ (t.port p.val).retx = 0
      ∧ t.linkUp p.val = false ∧ t.survey.cnt = { s.survey.cnt with link := countsUp (2 ^ 32 - 1) s.survey.cnt.link p.val }))
    ∧ (∀ (p : PortId) (s : State), (s.port p.val).retrain = true →
      (Gives (.linkRetrainDone p) s fun t => OnlyPorts s t ∧ t.port p.val = { s.port p.val with retrain := false })
      ∧ (Gives (.linkDown p) s fun t => t = { s with ports := t.ports, dies := t.dies }
        ∧ t.port p.val = { s.port p.val with retrain := false, down := true } ∧ ∃ d, (t.die d).fseq = (s.die d).fseq + 1))
    ∧ (∀ (p : PortId) (s : State), p.val < 8 → s.linkUp p.val = true →
      (∀ (n : Nat) (l r : List Frame) (f : Frame), s.outbox = l ++ f :: r → (l.filter fun q => q.port == p.val).length = n → f.port = p.val →
        exec (.frameRetransmit p (.lost n)) s = .next { s with outbox := l ++ (if f.udp.isSome = true ∧ f.time + 1600 * (s.port p.val).rtt.toNat ≤ s.meshCyc
          then { f with time := s.meshCyc, tries := f.tries + 1 } else f) :: r })
      ∧ (∀ k, p.val = 6 ∨ p.val = 7 → (s.port p.val).holds k = false → Gives (.frameRetransmit p (.arrives k)) s fun t =>
        OnlyPorts s t ∧ t.ports = s.ports
          ∧ t.survey.cnt = { s.survey.cnt with auth := countsUp (2 ^ 32 - 1) s.survey.cnt.auth (p.val - 6) })
      ∧ ((s.port p.val).rekey = .sending → Gives (.frameRetransmit p (.arrives (s.port p.val).keyNo)) s fun t =>
        OnlyPorts s t ∧ t.survey = s.survey ∧ t.port p.val = { s.port p.val with rekey := .none }))
    ∧ (∀ (x : PortSt) (k : Nat), x.holds k = true ↔ k = x.keyNo ∨ (x.rekey = .installed ∧ k = x.keyNo + 1) ∨ (x.rekey = .sending ∧ k + 1 = x.keyNo))
    ∧ (∀ (s : State) (p : Nat) (b : Option Nat) (h : FrameHead) (l key : List Byte), key = s.frameKey p b (s.port p).keyNo →
      ∃ parts : List (List Byte), parts.flatten = l ∧ parts.length = (framesOf s p b h l).length
        ∧ ((s.port p).wide = false → parts = [l]) ∧ ((s.port p).wide = true → ∀ x ∈ parts, x.length ≤ 9216 - 82)
        ∧ ∀ n x, parts[n]? = some x → (framesOf s p b h l)[n]? = some
          ({ port := p, bind := b, keyNo := (s.port p).keyNo, ctr := (s.port p).frames + n, head := h, part := n, time := s.meshCyc
             udp := if (s.port p).wide then some (s.port p).udp else none, data := gcmSeal key (natBytes 12 ((s.port p).frames + n)) [] x } : Frame))
    ∧ (∀ (s : State) (p n k : Nat) (b : Binding) (x : Sess), tabGet? s.binds n = some b →
      s.cart.sessions.find? (fun y => y.role == .neighbour && y.open_ && y.peer == b.ch.val) = some x →
      s.frameKey p (some n) k = linkKey x.id n k true)
    ∧ (∀ (p : PortId) (s : State) (x y : PortSt), p.val < 8 → x = s.port p.val → Gives (.linkRekey p) s fun t => y = t.port p.val → OnlyPorts s t
      ∧ (x.rekey = .none → 0 < x.interval.toNat → x.interval.toNat ≤ x.flits → y = { x with rekey := .installed })
      ∧ (x.rekey = .none → Config.nonceLimit + 2 ^ 32 ≤ x.frames → y = { x with rekey := .installed })
      ∧ (x.rekey = .none → x.interval.toNat = 0 ∨ x.flits < x.interval.toNat → x.frames + 2 ^ 30 ≤ 2 ^ 32 → y = x)
      ∧ (x.rekey = .installed → y = { x with rekey := .sending, keyNo := x.keyNo + 1, flits := 0, frames := 0 })
      ∧ (x.rekey = .sending → y = x))

/-- A payload of a collective leaves this member by its chunk's port as the frames that it makes, with the members that are excluded from it; no copy
leaves where none is due. -/
def LeavesAs (s t : State) (x : Nat) (c : Coll) (al j m : Nat) (k : ColKind) (copies : Nat) (l : List Byte) : Prop :=
  (copies = 0 → t.outbox = s.outbox)
    ∧ (copies ≠ 0 → (colPorts s x c al j).2 < 8 → ∃ r, t.outbox = s.outbox ++ framesOf s (colPorts s x c al j).2 (colBind s x c (colPorts s x c al j).2)
        (.chunk k (BitVec.ofNat 3 x) (BitVec.ofNat 32 (cbGroup c.blk)) (cbStep c.blk) j m al c.lost) l ++ r)

/-- R373, R377, R379 to R382, R384, R386, R387, R390, R391, R416, R419: the steps of a collective: this member's contribution to a chunk is
read, whole where results could overwrite it, and sent as its code, and at its summing place recorded there, or the chunk starts where it
has none; a member of a barrier sends its control flit, which passes on; a contribution arrives, passes on, or shows that the members'
blocks differ; a chunk is summed once every member that is not lost has contributed, in i32 exactly; its result arrives with the members
that were left out, and passes on as it came; a lost member is left out or ends the collective, as the block's policy says; the completion
record ends it; an abort token opens an episode. A buffer that faults, or that has an uncorrectable error, ends the collective. Where it
rests on choices of the model: log entries 42, 67, 70 and 76. -/
def Obligations.CollectiveSteps : Prop :=
  (∀ (x : CtxId) (id j al a n : Nat) (s : State) (c : Coll), s.coll x id = some c → c.ended = false → (c.chunk j).sent = false →
    j ∈ allChunks c → al = (chunkAlgo s x c).1 → cbOp c.blk ≠ 5 →
    (c.keeps = true → c.snap = none → ∀ ps ue, bufRead s x c (cbSbuf c.blk) (cbElems c.blk * cbSize c.blk) = .ready ps →
      ∀ s0 l bad, bufBytes x c ps (cbSbuf c.blk) (cbElems c.blk * cbSize c.blk) s = (s0, l, bad) →
        Gives (.chunkStart x id ⟨j, ue⟩) s fun t => t.cores = s.cores ∧ t.teams = s.teams ∧ CollMoves s t x id fun _ d =>
          (ue = false → bad = false → d.snap = some l ∧ d.ended = false) ∧ (ue = true ∨ bad = true → d.ended = true ∧ d.status = 2 ∧ d.fcode = 4))
    ∧ (c.keeps = false ∨ c.snap.isSome = true → c.sends j = false → ∀ ue : Bool, Gives (.chunkStart x id ⟨j, ue⟩) s fun t => t = { s with ctxs := t.ctxs }
      ∧ CollMoves s t x id fun _ d => (d.chunk j).sent = true ∧ (d.chunk j).algo = al ∧ d.ended = false)
    ∧ (c.keeps = false → c.sends j = true → summed c.blk = true → c.snap = none → c.lost = [] →
      a = cbSbuf c.blk + chunkPart c.blk j * cbChunk c.blk → n = chunkElems c.blk (chunkPart c.blk j) * cbSize c.blk →
      canSend s x c al j (ownCopies c al j) = true → (cbSub c.blk = true → dieRoom s x c j = true) →
      (cbSub c.blk = false → sumPlace c j = c.member → al ≠ 4 → portRoom s x c al j = true) →
      (∀ ps s0 l bad, bufRead s x c a n = .ready ps → bufBytes x c ps a n s = (s0, l, bad) →
        (bad = false → Gives (.chunkStart x id ⟨j, false⟩) s fun t => t.cores = s.cores ∧ t.teams = s.teams
          ∧ CollMoves s t x id (fun _ d => (d.chunk j).sent = true ∧ d.ended = false ∧ (d.chunk j).algo = al
            ∧ d.wire = c.wire + ownCopies c al j * (encodeWire c.blk l).length
            ∧ (sumPlace c j = c.member → al ≠ 4 → tabGet? (d.chunk j).parts c.member = some (encodeWire c.blk l)))
          ∧ (cbSub c.blk = true → ∃ q ∈ (t.die c.die).colStage, q.chunk = j ∧ q.member = c.member ∧ q.data = encodeWire c.blk l)
          ∧ LeavesAs s t x c al j c.member .part (ownCopies c al j) (encodeWire c.blk l))
        ∧ (∀ ue, ue = true ∨ bad = true → Gives (.chunkStart x id ⟨j, ue⟩) s fun t => t.cores = s.cores
          ∧ CollMoves s t x id fun _ d => d.ended = true ∧ d.status = 2 ∧ d.fcode = 4))
      ∧ (∀ f ue, bufRead s x c a n = .fault f → Gives (.chunkStart x id ⟨j, ue⟩) s fun t =>
        t.cores = s.cores ∧ CollMoves s t x id fun _ d => d.ended = true ∧ d.status = 2 ∧ d.fcode = f)))
    ∧ (∀ (x : CtxId) (id m al : Nat) (data : List Byte) (s : State) (c : Coll), s.coll x id = some c → c.ended = false → cbOp c.blk = 5 →
      ((c.chunk c.member).sent = false → al = (chunkAlgo s x c).1 → canSend s x c al c.member (ownCopies c al c.member) = true →
        ∀ ue : Bool, Gives (.chunkStart x id ⟨c.member, ue⟩) s fun t => t = { s with ctxs := t.ctxs, ports := t.ports, outbox := t.outbox }
          ∧ CollMoves s t x id (fun _ d => (d.chunk c.member).sent = true ∧ d.ended = false)
          ∧ LeavesAs s t x c al c.member c.member .flit (ownCopies c al c.member) [])
      ∧ (m < c.n → m ∉ c.lost → m ∉ c.seen → cbSub c.blk = false → al = c.algoOf s x m → s.linkUp (colPorts s x c al m).1 = true →
        canSend s x c al m (resCopies c al m) = true →
        Gives (.contributionArrival x id m m data true) s fun t => t = { s with ctxs := t.ctxs, ports := t.ports, outbox := t.outbox }
          ∧ CollMoves s t x id (fun _ d => m ∈ d.seen ∧ d.ended = false) ∧ LeavesAs s t x c al m m .flit (resCopies c al m) []))
    ∧ (∀ (x : CtxId) (id m j al : Nat) (data : List Byte) (s : State) (c : Coll), s.coll x id = some c → c.ended = false → m < c.n →
      c.lost = [] → cbSub c.blk = false → al = c.algoOf s x j → s.linkUp (colPorts s x c al j).1 = true →
      (Gives (.contributionArrival x id m j data false) s fun t =>
        t = { s with ctxs := t.ctxs, dies := t.dies, ports := t.ports, outbox := t.outbox }
        ∧ CollMoves s t x id fun _ d => d.ended = true ∧ d.status = 2 ∧ d.fcode = 9)
      ∧ (summed c.blk = true → data.length = c.wireLen j → j ∈ allChunks c → c.sumsHere j = true → portRoom s x c al j = true →
        Gives (.contributionArrival x id m j data true) s fun t => t = { s with ctxs := t.ctxs, ports := t.ports }
          ∧ CollMoves s t x id fun _ d => m ∈ d.seen ∧ tabGet? (d.chunk j).parts m = some data ∧ (d.chunk j).since.isSome = true)
      ∧ (summed c.blk = true → data.length = c.wireLen j → j ∈ allChunks c → c.sumsHere j = false → m ∉ (c.chunk j).fwd →
        canSend s x c al j (fwdCopies c al j m) = true →
        Gives (.contributionArrival x id m j data true) s fun t => t = { s with ctxs := t.ctxs, ports := t.ports, outbox := t.outbox }
          ∧ CollMoves s t x id (fun _ d => m ∈ d.seen ∧ m ∈ (d.chunk j).fwd ∧ d.wire = c.wire + fwdCopies c al j m * c.wireLen j)
          ∧ LeavesAs s t x c al j m .part (fwdCopies c al j m) data))
    ∧ (∀ (x : CtxId) (id j n : Nat) (l : List Byte) (s : State) (c : Coll), s.coll x id = some c → c.ended = false → c.sumsHere j = true →
      (c.chunk j).sent = true → (c.chunk j).result = none → j ∈ allChunks c →
      (∀ m, m < c.n → m ∉ c.lost → (tabGet? (c.chunk j).parts m).isSome = true) →
      canSend s x c (c.chunk j).algo j (resCopies c (c.chunk j).algo j) = true → n = chunkElems c.blk (chunkPart c.blk j) →
      l = chunkSum c.blk n (((rangeFrom 0 c.n).filter fun m => !c.lost.contains m).filterMap fun m => tabGet? (c.chunk j).parts m) →
      (∀ ps, resultNow s x c j (n * cbSize c.blk) = .ready ps → Gives (.chunkSum x id ⟨j, false⟩) s fun t => t.cores = s.cores ∧ t.teams = s.teams
        ∧ CollMoves s t x id (fun _ d => (d.chunk j).written = true ∧ (d.chunk j).result = some l ∧ d.algo = (c.chunk j).algo)
        ∧ (c.writes j = false → t.mem = s.mem)
        ∧ LeavesAs s t x c (c.chunk j).algo j c.n .result (resCopies c (c.chunk j).algo j) l)
      ∧ (∀ f, resultNow s x c j (n * cbSize c.blk) = .fault f → Gives (.chunkSum x id ⟨j, false⟩) s fun t => t.cores = s.cores
        ∧ CollMoves s t x id fun _ d => d.ended = true ∧ d.status = 2 ∧ d.fcode = f)
      ∧ (Gives (.chunkSum x id ⟨j, true⟩) s fun t => t.cores = s.cores
        ∧ CollMoves s t x id fun _ d => d.ended = true ∧ d.status = 2 ∧ d.fcode = 4))
    ∧ (∀ (b : Blk) (ps : List (List Byte)) (n e : Nat), cbDtype b = 9 → cbRop b = 0 → ps ≠ [] → (∀ p ∈ ps, p.length = 4 * n) → e < n →
      word4 (chunkSum b n ps) e = (ps.map fun p => word4 p e).sum % 2 ^ 32)
    ∧ (∀ (x : CtxId) (id j n : Nat) (data : List Byte) (lost : List Nat) (s : State) (c c1 : Coll), s.coll x id = some c → c.ended = false →
      c1 = { c with lost := (c.lost ++ lost).eraseDups } →
      (c.chunk j).written = false → summed c.blk = true → c.sumsHere j = false → j ∈ allChunks c → (c.chunk j).sent = true →
      cbSub c.blk = false → s.linkUp (colPorts s x c (c.chunk j).algo j).1 = true → data.length = c.wireLen j →
      n = chunkElems c.blk (chunkPart c.blk j) * cbSize c.blk → canSend s x c (c.chunk j).algo j (resCopies c1 (c.chunk j).algo j) = true →
      (∀ ps, resultNow s x c j n = .ready ps → Gives (.chunkResultArrival x id j data lost) s fun t => t.cores = s.cores
        ∧ CollMoves s t x id (fun _ d => (d.chunk j).written = true ∧ (∀ m ∈ lost, m ∈ d.lost) ∧ d.ended = false ∧ d.algo = (c.chunk j).algo)
        ∧ LeavesAs s t x c1 (c.chunk j).algo j c.n .result (resCopies c1 (c.chunk j).algo j) data)
      ∧ (∀ f, resultNow s x c j n = .fault f → Gives (.chunkResultArrival x id j data lost) s fun t => t.cores = s.cores
        ∧ CollMoves s t x id fun _ d => d.ended = true ∧ d.status = 2 ∧ d.fcode = f))
    ∧ (∀ (x : CtxId) (id m : Nat) (s : State) (c : Coll), s.coll x id = some c → c.ended = false → m < c.n → m ∉ c.lost → c.misses m = true →
      (cbFpol c.blk % 4 = 2 → Gives (.memberLost x id m) s fun t => t = { s with ctxs := t.ctxs }
        ∧ CollMoves s t x id fun _ d => m ∈ d.lost ∧ d.ended = false)
      ∧ (cbFpol c.blk % 4 ≠ 2 → Gives (.memberLost x id m) s fun t => t.mem = s.mem ∧ t.teams = s.teams
        ∧ CollMoves s t x id fun _ d => m ∈ d.lost ∧ d.ended = true ∧ d.status = 2 ∧ d.fcode = 1))
    ∧ (∀ (c : Coll) (m : Nat), m = c.member ∨ m ∉ c.seen → c.misses m = true)
    ∧ (∀ (x : CtxId) (id : Nat) (s : State) (c : Coll), s.coll x id = some c →
      (∀ ps, bufNow s x c (cbCrec c.blk) 64 { w := true } = .ready ps →
        (c.ended = false → c.done = true → Gives (.completionRecordWrite x id) s fun t => t.coll x id = none
          ∧ ((s.core c.core).getK (cbKctr c.blk) ≠ 0 → (t.core c.core).getK (cbKctr c.blk) = (s.core c.core).getK (cbKctr c.blk) - 1)
          ∧ (bitOf (cbGzkey c.blk) 63 = true → ∃ r ∈ (t.die c.die).gzAgent, r.coll = true ∧ r.key = BitVec.ofNat 48 (cbGzkey c.blk)
              ∧ r.idx = c.member ∧ r.payload = BitVec.ofNat 512 (bytesNat (colRecord c))))
        ∧ (c.ended = true → Gives (.completionRecordWrite x id) s fun t => t.coll x id = none
          ∧ (t.core c.core).colFaults = (s.core c.core).colFaults ++ [{ kctr := BitVec.ofNat 4 (cbKctr c.blk), code := c.fcode, cnt := 1 }]))
      ∧ (∀ f, bufNow s x c (cbCrec c.blk) 64 { w := true } = .fault f → (c.ended = true ∨ c.done = true) →
        Gives (.completionRecordWrite x id) s fun t => t.coll x id = none
          ∧ (t.core c.core).colFaults = (s.core c.core).colFaults ++ [{ kctr := BitVec.ofNat 4 (cbKctr c.blk), code := 3, cnt := 0 }]
          ∧ ((s.core c.core).getK (cbKctr c.blk) ≠ 0 → (t.core c.core).getK (cbKctr c.blk) = (s.core c.core).getK (cbKctr c.blk) - 1)))
    ∧ (∀ (x : CtxId) (job : Nat) (g : Fin 64) (sender : Nat) (step : Word) (s : State) (gr : Group), tabGet? (s.ctx x).groups g = some gr →
      job = ((s.ctx x).job).getD 0 → (s.ctx x).abp = false → Gives (.abortTokenReceive x g ⟨job, sender⟩ step) s fun t =>
        t = { s with ctxs := t.ctxs, tokens := t.tokens, cores := t.cores }
        ∧ t.tokens = s.tokens ++ [{ job := job, ctx := BitVec.ofNat 3 x, group := g.val, member := gr.member, step := (s.ctx x).cstep }]
        ∧ (t.ctx x).abp = true ∧ (t.ctx x).acnt = 1 ∧ (t.ctx x).astep.toNat = min (s.ctx x).cstep.toNat step.toNat
        ∧ (t.ctx x).adone = decide (gr.n = 2)
        ∧ (∀ i k, tabGet? s.cores i = some k → t.core i = { k with token :=
            k.token || (s.coreIn x i && decide (k.run = .running ∨ k.run = .stopping)) })
        ∧ (∀ c ∈ (s.ctx x).colls, cbGroup c.blk = g.val → c.ended = false →
            ∃ d ∈ (t.ctx x).colls, d.id = c.id ∧ d.ended = true ∧ d.status = 4 ∧ d.fcode = 6))

/-- R305, R306, R314, R316 to R319, R240: a cycle removes the retired entries and inserts the record of a waiting `gz.put`, which its core is
told; a record makes an entry, or folds into the waiting one of its key, in i32 exactly, and counts; an ordered entry that is complete
reads its staging slots in their order, one in a cycle, and is then eligible; a record that its age promotes has its stage evaluated.
Where it rests on choices of the model: log entries 40 and 64. -/
def Obligations.GazetteerSteps : Prop :=
  (∀ (d : Die) (s : State), QuietDie s d → (∀ p ∈ s.cores, p.2.defer = none ∧ p.2.gzAsk = none) → Gives (.gazetteerCycle d) s fun t => t = { s with dies := t.dies }
    ∧ (t.die d).gz = (s.die d).gz.filter fun e => !((s.die d).gz.any fun r => r.st == .retired && r.id == e.id))
    ∧ (∀ (d : Die) (i : Nat) (k : Core) (q : Defer) (key : BitVec 48) (idx : BitVec 16) (p : BitVec 512) (draws : Bool) (s : State), QuietDie s d →
      s.cores = [(i, k)] → coreDie i = d → k.defer = some q → q.op = .gzPut key idx p draws → q.sent = true → q.ans = none →
      (∀ e ∈ (s.die d).gz, e.st ≠ .retired) → (s.die d).gzRefuses key idx.toNat = false → (s.die d).gzRoom (s.gzKept d none) key = true →
      Gives (.gazetteerCycle d) s fun t => t = { s with dies := t.dies, cores := t.cores }
        ∧ t.die d = gzInsert d s.meshCyc key idx.toNat p k.lclk { s.die d with arb := false } ∧ t.core i = { k with defer := some { q with ans := some true } })
    ∧ (∀ (d now idx : Nat) (k : BitVec 48) (r : BitVec 512) (clk : Word) (x : DieSt), clsOrd (x.cls k) = false →
      (x.gzWaiting k = none → ∃ e, (gzInsert d now k idx r clk x).gz = x.gz ++ [e] ∧ e.key = k ∧ e.st = .waiting ∧ e.ncon = 1
        ∧ e.elig = some now ∧ e.born = now ∧ e.clk = clk ∧ e.width = entrySlots (clsOp (x.cls k)))
      ∧ (∀ e, x.gzWaiting k = some e → e.ncon ≠ 0xFFFFFFFF → clsOp (x.cls k) = 3 → ∃ f ∈ (gzInsert d now k idx r clk x).gz, f.id = e.id
        ∧ f.key = e.key ∧ f.ncon = e.ncon + 1 ∧ f.ovf = e.ovf
        ∧ ∀ i, i < 16 → elem32 f.val.toNat i = (elem32 e.val.toNat i + elem32 r.toNat i) % 2 ^ 32))
    ∧ (∀ (d : Die) (s : State) (e : GzEnt) (w : Word), e ∈ (s.die d).gz → w = (s.die d).cls e.key → clsOrd w = true → e.elig = none →
      e.st = .waiting → e.slots.length = clsNexp w → Gives (.orderedFoldSweep d) s fun t => t = { s with dies := t.dies }
        ∧ ∃ f ∈ (t.die d).gz, f.id = e.id ∧ f.key = e.key ∧ f.slots = e.slots ∧ f.sweep = e.sweep + 1
          ∧ f.elig = (if e.sweep + 1 = clsNexp w then some s.meshCyc else none)
          ∧ (clsOp w = 3 → e.sweep = 0 → ∀ i, i < 16 → elem32 f.val.toNat i = elem32 (tabGet 0 e.slots 0 : BitVec 512).toNat i)
          ∧ (clsOp w = 3 → e.sweep ≠ 0 → ∀ i, i < 16 → elem32 f.val.toNat i
              = (elem32 e.val.toNat i + elem32 (tabGet 0 e.slots e.sweep : BitVec 512).toNat i) % 2 ^ 32))
    ∧ (∀ (d : Die) (s : State), Gives (.recordAgePromotion d) s fun t => t = { s with dies := t.dies }
      ∧ (∀ g ∈ (s.die d).stages, (∃ p ∈ eligible s d g, promoted s.meshCyc g p.1 = true) → { g with due := true } ∈ (t.die d).stages)
      ∧ ((∀ g ∈ (s.die d).stages, ∀ p ∈ eligible s d g, promoted s.meshCyc g p.1 = false) → (t.die d).stages = (s.die d).stages))

/-- R2, R291, R293 to R297, R299, R306 to R308, R362, R394: a kernel whose rectangle is free is dispatched, unless the arbiter's one dispatch
of the cycle goes to a stage, once its schedule table can be read, and its cores run at its entry with its arguments; a descriptor of an
earlier job stays queued; a stage is registered, and removed once it is idle; a stage dispatches its entry for the winner of its
evaluation, or keeps the winner while the schedule table is still to be read; an entry ends when every core has halted, and its record
retires; a team whose cores hold at their yields is suspended; the host's descriptor waits for room and is queued or refused; the
coalescing window ends with its interrupt. Where it rests on choices of the model: log entries 34, 35, 51, 68 and 81. -/
def Obligations.TeamsAndLaunches : Prop :=
  (∀ (d : Die) (s : State), (s.die d).arb = true ∨ (s.die d).stages.any (stageReady s d) = true → Gives (.launchDispatch d) s fun t =>
    t = { s with dies := t.dies } ∧ t.die d = { s.die d with arb := false })
    ∧ (∀ (d : Die) (s : State) (l : Launch) (r : List Launch), (s.die d).lq = l :: r → bitOf (ldNotify l.desc) 1 = false →
    (s.die d).arb = false → (s.die d).stages.any (stageReady s d) = false → s.ownJob (ldCtx l.desc) = true →
    (ldKind l.desc = 0 → s.rectBusy d (ldRect l.desc) = false → (launchReady d l s).ok = false →
      exec (.launchDispatch d) s = .next (launchReady d l s).st)
    ∧ (ldKind l.desc = 0 → s.rectBusy d (ldRect l.desc) = false → (s.ctx (BitVec.ofNat 3 (ldCtx l.desc)).toNat).abp = false →
      (ldSched l.desc = 0 → (launchReady d l s).ok = true ∧ (launchReady d l s).st = s)
      ∧ ((launchReady d l s).ok = true → Gives (.launchDispatch d) s fun t => (t.die d).lq = r ∧ t.mem = (launchReady d l s).st.mem
        ∧ ∃ tm, tabGet? t.teams (coreIndex d (ldRect l.desc).x (ldRect l.desc).y) = some tm ∧ tm.launch = some l ∧ tm.kind = 3
          ∧ tm.ctx = BitVec.ofNat 3 (ldCtx l.desc) ∧ tm.die = d ∧ tm.lw = (ldRect l.desc).lw ∧ tm.lh = (ldRect l.desc).lh
          ∧ ∀ i ∈ tm.rect, (t.core i).run = .running ∧ (t.core i).pc = ldEntry l.desc ∧ (t.core i).tm = false
            ∧ (t.core i).team = some tm.origin ∧ ∀ j, j < 3 → (t.core i).getG j = ldArg l.desc j))
    ∧ (ldKind l.desc = 1 → ldScope l.desc ≠ 4 → sbKeep l.blk = false → s.rectBusy d (ldRect l.desc) = false →
      Gives (.launchDispatch d) s fun t => t = { s with dies := t.dies } ∧ (t.die d).lq = r
        ∧ ∃ g, (t.die d).stages = (s.die d).stages ++ [g] ∧ g.num = sbStage l.blk ∧ g.blk = l.blk ∧ g.due = true ∧ g.fly = 0 ∧ g.step = 0)
    ∧ (ldKind l.desc = 2 → (s.die d).hasStage (ldStage l.desc) = true → Gives (.launchDispatch d) s fun t => t = { s with dies := t.dies }
      ∧ (t.die d).lq = r ∧ (∃ g ∈ (t.die d).stages, g.num = ldStage l.desc) ∧ ∀ g ∈ (t.die d).stages, g.num = ldStage l.desc → l ∈ g.removing)
    ∧ (ldKind l.desc = 2 → (s.die d).hasStage (ldStage l.desc) = false → ldScope l.desc ≠ 4 → Gives (.launchDispatch d) s fun t =>
      t = { s with dies := t.dies } ∧ t.die d = { s.die d with lq := r, wflt := (t.die d).wflt }))
    ∧ (∀ (d : Die) (s : State) (l : Launch), (s.die d).lq = [l] → (s.die d).arb = false → (s.die d).stages.any (stageReady s d) = false →
      s.ownJob (ldCtx l.desc) = false → exec (.launchDispatch d) s = .next s)
    ∧ (∀ (d : Die) (s : State) (g : Stage) (l : Launch), (s.die d).stages = [g] → g.removing = [l] → g.pick = none → s.teams = [] → (s.die d).susp = [] →
      (∀ p ∈ s.cores, p.2.gzKeep = none) → bitOf (ldNotify l.desc) 1 = false → ldScope l.desc ≠ 4 → Gives (.stageRemoval d) s fun t => t = { s with dies := t.dies }
        ∧ (t.die d).stages = [])
    ∧ (∀ (d : Die) (s : State) (g : Stage) (e : GzEnt) (r : Word) (p : Bool), (s.die d).stages = [g] → g.due = true → g.removing = [] → g.winner = none →
      g.pick = none → s.ownJob g.ctx.toNat = true → (s.die d).gz.find? (fun q => q.id == e.id) = some e → s.teams = [] → s.binds = [] → (s.die d).susp = [] → (s.die d).gzAgent = [] → (s.die d).gzRet = [] → (s.die d).regCols = [] →
      (s.die d).ueGz = [] → (∀ p ∈ s.cores, p.2.defer = none ∧ p.2.gzAsk = none) →
      (∀ q ∈ (s.die d).gz, q.st ≠ .retired) → (s.ctx g.ctx.toNat).abp = false → clsNft ((s.die d).cls e.key) = false →
      evaluate s d g = some (e, .go, r, p) → Gives (.gazetteerCycle d) s fun t =>
        (∃ tm, tabGet? t.teams (coreIndex d g.x0 g.y0) = some tm ∧ tm.recId = some e.id ∧ tm.kind = BitVec.ofNat 2 (ruKind r)
          ∧ tm.tag = keyTag e.key ∧ tm.ctx = g.ctx ∧ tm.stage = g.num ∧ tm.step = g.step ∧ tm.rcmp = false)
        ∨ (sbSched g.blk ≠ 0 ∧ ∃ f ∈ (t.die d).stages, f.num = g.num ∧ f.pick = some (e.id, r, false, p)))
    ∧ (∀ (o : CoreId) (s : State) (tm : Team), tabGet? s.teams o = some tm → allHalted s tm = true → tm.launch = none → tm.stop = none →
      (tm.recId = none → tm.kind = 3 → Gives (.teamHaltComplete o) s fun t => t = { s with teams := t.teams, cores := t.cores }
        ∧ t.teams = tabErase s.teams tm.origin
        ∧ ∀ i ∈ tm.rect, (s.core i).team = some tm.origin → t.core i = { s.core i with run := .idle, team := none, was := some tm })
      ∧ (∀ id, tm.recId = some id → tm.kind = 0 → tm.retired = false → tm.rcmp = false → Gives (.teamHaltComplete o) s fun t =>
        t.teams = tabErase s.teams tm.origin ∧ ∀ e ∈ (t.die tm.die).gz, e.id = id → e.st = .retired))
    ∧ (∀ (o : CoreId) (s : State) (tm : Team) (r : StopReq), tabGet? s.teams o = some tm → tm.stop = some r → tm.recId = none → tm.cores ≠ [] →
      (∀ i ∈ tm.cores, (s.core i).run = .stopping ∧ drained s i = true) → (∀ i ∈ tm.rect, (s.core i).regUe = false) → s.mc.wait = none → Gives (.teamSave o) s fun t =>
        t.teams = tabErase s.teams tm.origin
        ∧ ∃ e ∈ (t.die tm.die).susp, e.slot = r.slot ∧ e.soft = r.bySoft ∧ e.team.cores = tm.cores ∧ e.team.ctx = tm.ctx)
    ∧ (∀ (x : CtxId) (desc : BitVec 512) (s : State),
      ((s.ctx x).db.pend = none → Gives (.doorbell x desc) s fun t => t = { s with ctxs := t.ctxs } ∧ t.ctx x = { s.ctx x with db := { (s.ctx x).db with
        pend := some desc, status := BitVec.ofNat 32 (descBytes desc 0x3C 4) } })
      ∧ ((s.ctx x).db.pend ≠ none → Gives (.doorbell x desc) s fun t => t = { s with ctxs := t.ctxs } ∧ t.ctx x = s.ctx x))
    ∧ (∀ (x : CtxId) (d : BitVec 512) (s : State), (s.ctx x).db.pend = some d → queueFull s (ldDie d) = false → ldKind d ≠ 1 →
      Gives (.doorbellEnqueue x) s fun t => t = { s with ctxs := t.ctxs, dies := t.dies } ∧ (t.ctx x).db.pend = none
        ∧ (refusal s .host d none = 0 → ∃ l, (t.die (ldDie d)).lq = (s.die (ldDie d)).lq ++ [l] ∧ l.desc = d ∧ l.by_ = .host
          ∧ (bitOf (ldNotify d) 1 = true → (t.ctx x).db.status = 1))
        ∧ (refusal s .host d none ≠ 0 → (∀ k, (t.die k).lq = (s.die k).lq)
          ∧ (bitOf (ldNotify d) 1 = true → (t.ctx x).db.status = BitVec.ofNat 32 (0x80000000 + refusal s .host d none))))
    ∧ (∀ (x : CtxId) (s : State), (s.ctx x).db.window = true → Gives (.noticeInterrupt x) s fun t => t = { s with ctxs := t.ctxs, msis := t.msis }
      ∧ t.msis = s.msis ++ [(true, x.val)] ∧ t.ctx x = { s.ctx x with db := { (s.ctx x).db with window := false } })

/-- R221, R324 to R331, R333, R336: the stash engine takes a core's command: a put makes its entry, a free removes it, and a get without an
entry freezes the core's queue, which is logged; a put's source is read and encoded; an entry whose stored form fits its region, beside
what its context keeps there, is written to it and becomes resident, or spilled, unless a fatal fault has frozen its context (R418); a
fetched one becomes resident, or stays spilled where its stored form cannot be read, and the get that needs it freezes; a get writes the
decoded bytes; a record goes to the Gazetteer; a `wv.commit` makes its version current and retires the version that was. Where it rests on
choices of the model: log entries 41, 65, 71 and 72. -/
def Obligations.StashEngine : Prop :=
  (∀ (c : CoreId) (s : State) (m : StashCmd), OneCommand s c m →
    (m.op = .put → (s.die (coreDie c)).entryOf (jobOf s c m) = none → (s.die (coreDie c)).stash.length < 8192 → sdPolicy m.desc ≠ 3 →
      Gives (.stashAccept c) s fun t => t = { s with dies := t.dies, cores := tabSet s.cores c (t.core c) }
        ∧ (t.core c).stash.q = [{ m with sent := true }] ∧ (t.die (coreDie c)).jobs = [{ jobOf s c m with moving := true }]
        ∧ ∃ e, (t.die (coreDie c)).stash = (s.die (coreDie c)).stash ++ [e] ∧ e.is (jobOf s c m) = true ∧ e.st = .writing
          ∧ e.policy = sdPolicy m.desc ∧ e.coding = sdCoding m.desc ∧ e.fmt = sdFmt m.desc ∧ e.bytes = sdLen m.desc ∧ e.read = false)
    ∧ (m.op = .get → (s.die (coreDie c)).entryOf (jobOf s c m) = none → Gives (.stashAccept c) s fun t =>
      t = { s with dies := t.dies, cores := tabSet s.cores c (t.core c) } ∧ (t.core c).stash.frz = true ∧ (t.core c).stash.fcode = 0x52
        ∧ (t.die (coreDie c)).fseq = (s.die (coreDie c)).fseq + 1
        ∧ (t.core c).stash.faddr = sdAddr m.desc ∧ (t.die (coreDie c)).stash = (s.die (coreDie c)).stash)
    ∧ (∀ e, m.op = .free → (s.die (coreDie c)).entryOf (jobOf s c m) = some e → e.st = .resident → Gives (.stashAccept c) s fun t =>
      t = { s with dies := t.dies, cores := tabSet s.cores c (t.core c) } ∧ (t.core c).stash.q = [] ∧ (t.die (coreDie c)).jobs = []
        ∧ (t.die (coreDie c)).entryOf (jobOf s c m) = none
        ∧ ((s.core c).getK (m.desc.extractLsb' 128 4).toNat ≠ 0 → (t.core c).getK (m.desc.extractLsb' 128 4).toNat
            = (s.core c).getK (m.desc.extractLsb' 128 4).toNat - 1)))
    ∧ (∀ (d : Die) (s : State) (j : StashJob) (k off : Nat) (e : StashEnt), (s.die d).jobs = [j] → j.moving = true → j.op = .put →
      e ∈ (s.die d).stash → e.is j = true → s.jobRuns j = true →
      (∀ l, stPlace s j .read = .wait l → ∀ ue, exec (.stashSourceReadDone d ue) s = .next (askWalks j.ctx l s))
      ∧ (stPlace s j .read = .ready (.sp k off) → Gives (.stashSourceReadDone d false) s fun t => (t.die d).jobs = []
        ∧ { e with lens := (encodeStash e.policy e.coding e.fmt (s.spBytes k off (sdLen j.desc))).map List.length
                   data := (encodeStash e.policy e.coding e.fmt (s.spBytes k off (sdLen j.desc))).flatten, read := true } ∈ (t.die d).stash)
      ∧ (stPlace s j .read = .ready (.sp k off) → Gives (.stashSourceReadDone d true) s fun t => (t.die d).jobs = []
        ∧ ∀ q ∈ (t.die d).stash, q.is j = false))
    ∧ (∀ (d : Die) (s : State) (e : StashEnt), (s.die d).stash = [e] → e.st = .writing → e.read = true →
      ((s.ctx e.ctx.toNat).fatal = true → exec (.stashStoreDone d) s = .next s)
      ∧ ((s.ctx e.ctx.toNat).fatal = false → s.regionUsed e.ctx (s.entRegion e) + e.stored ≤ (s.entRegion e).size → Gives (.stashStoreDone d) s fun t => t.cores = s.cores
        ∧ (t.die d).stash = [{ e with st := if e.policy = 2 then .spilled else .resident, nrec := none, data := [], by_ := none
                                      place := s.regionPlace e.ctx (s.entRegion e) e.stored }])
      ∧ ((s.entRegion e).size < s.regionUsed e.ctx (s.entRegion e) + e.stored → exec (.stashStoreDone d) s = .next s))
    ∧ (∀ (d : Die) (s : State) (e : StashEnt), (s.die d).stash = [e] → e.st = .fetching → (s.ctx e.ctx.toNat).fatal = false →
      s.regionUsed e.ctx (s.ctx e.ctx.toNat).stash + e.stored ≤ (s.ctx e.ctx.toNat).stash.size →
      (e.place.any (fun q => s.ueExt q.1 q.2) = false → Gives (.stashFetchDone ⟨d, false⟩) s fun t => t.cores = s.cores
        ∧ (t.die d).stash = [{ e with st := .resident, place := s.regionPlace e.ctx (s.ctx e.ctx.toNat).stash e.stored }])
      ∧ (∀ ue, ue = true ∨ e.place.any (fun q => s.ueExt q.1 q.2) = true → Gives (.stashFetchDone ⟨d, ue⟩) s fun t => t.mem = s.mem
        ∧ (t.die d).stash = [{ e with st := .spilled }]
        ∧ ∀ j, (s.die d).jobs.find? (fun j => e.is j) = some j → j.op = .get → (s.core j.core).stash.q.any (fun m => m.id == j.id) = true →
          (s.core j.core).stash.frz = false → (t.core j.core).stash.frz = true ∧ (t.core j.core).stash.fcode = 0x55))
    ∧ (∀ (d : Die) (s : State) (j : StashJob) (k off : Nat) (e : StashEnt) (l : List Byte), (s.die d).jobs = [j] → j.moving = true → j.op = .get →
      (s.die d).entryOf j = some e → s.jobRuns j = true → stPlace s j .write = .ready (.sp k off) → l = e.decode (s.storedBytes e) →
      (e.place.any (fun q => s.ueExt q.1 q.2) = false → Gives (.stashGetDone d false) s fun t => (t.die d).jobs = [] ∧ t.mem = s.mem
        ∧ (∀ i (h : i < l.length), t.spByte k (off + i) = l[i])
        ∧ ∀ i a, ¬(i = k ∧ off ≤ a ∧ a < off + l.length) → t.spByte i a = s.spByte i a)
      ∧ (∀ ue, ue = true ∨ e.place.any (fun q => s.ueExt q.1 q.2) = true → Gives (.stashGetDone d ue) s fun t => (t.die d).jobs = []
        ∧ (∀ i a, t.spByte i a = s.spByte i a)
        ∧ ((s.core j.core).stash.q.any (fun m => m.id == j.id) = true → (s.core j.core).stash.frz = false →
          (t.core j.core).stash.frz = true ∧ (t.core j.core).stash.fcode = 0x55)))
    ∧ (∀ (d : Die) (s : State) (r : AgentRec) (l : List AgentRec), (s.die d).stRecs = r :: l → Gives (.stashRecordInsert d) s fun t =>
      t = { s with dies := t.dies } ∧ t.die d = { s.die d with stRecs := l, gzAgent := (s.die d).gzAgent ++ [r] })
    ∧ (∀ (c : CoreId) (s : State) (m : StashCmd) (n v : Nat) (e : WVer), OneCommand s c m → m.op = .wvCommit → n = sdBytes m.desc 0 4 →
      sdBytes m.desc 4 4 = 0xFFFFFFFF → v = m.tag.toNat % 4 → n < 4096 → tabGet? (s.die (coreDie c)).wdir (4 * n + v) = some e →
      (e.st = 1 → Gives (.wvCommitApply c) s fun t => t = { s with dies := t.dies, cores := tabSet s.cores c (t.core c) }
        ∧ (t.core c).stash.q = [] ∧ (∃ f, tabGet? (t.die (coreDie c)).wdir (4 * n + v) = some f ∧ f.st = 2 ∧ f.base = e.base ∧ f.len = e.len)
        ∧ ∀ u f, u < 4 → u ≠ v → tabGet? (s.die (coreDie c)).wdir (4 * n + u) = some f →
          tabGet? (t.die (coreDie c)).wdir (4 * n + u) = some (if f.st = 2 then { f with st := 3 } else f))
      ∧ (e.st ≠ 1 → Gives (.wvCommitApply c) s fun t => t = { s with dies := t.dies, cores := tabSet s.cores c (t.core c) }
        ∧ (t.die (coreDie c)).wdir = (s.die (coreDie c)).wdir
        ∧ (t.core c).stash.frz = true ∧ (t.core c).stash.fcode = 0x58))

/-- What a module reset leaves (R444, R445): nothing of the running machine, but the Survey's records, the host's memory and the number of the next memory
key. -/
def WipesModule (s t : State) : Prop :=
  t.ready = false ∧ t.cores = [] ∧ t.mem = [] ∧ t.teams = [] ∧ t.ctxs = [] ∧ t.hostMem = s.hostMem ∧ t.cart.keyNext = s.cart.keyNext
    ∧ t.survey = { s.survey with ran := t.survey.ran }

/-- Islands change, and with them only the rail and the Survey's list of frequencies (R439, R440, R445): the rail, while it has power, stands at
0.40 V, and where an island runs above 3.0 GHz at no more than 0.44 V. -/
def IslesMove (s t : State) : Prop :=
  t = { s with isles := t.isles, rail := t.rail, survey := { s.survey with ran := t.survey.ran } }
    ∧ (s.rail = 0 → t.rail = 0)
    ∧ (s.rail ≠ 0 → 400 ≤ t.rail ∧ t.rail ≤ 440 ∧ ((∀ p ∈ t.isles, p.2.freq ≤ 3000) → t.rail = 400))

/-- R415, R439 to R446: an error that has been corrected is counted in the row of its array; the scrubber logs what it cannot correct in the
memories that it reads, and every uncorrectable error stays where it is for its consumer; an island settles at its request, or below a
cap, within its voltages; the power manager lowers the cap by 50 MHz above the limit and raises it by 50 below 98 %; a hot island runs at
600 MHz until it cools; a droop is counted in its bin; a thermal trip takes the rail away, and every resident context with it, until a
module reset; the Survey is appended to; a module comes up from its reset state step by step, with its firmware measured, or stops at the
failing step with its cause. Where it rests on choices of the model: log entries 10, 45 and 74. -/
def Obligations.PowerAndSurvey : Prop :=
  (∀ (d : Die) (tg : ScrubTarget) (s : State), Gives (.patrolScrub d tg .clean) s fun t => t = s)
    ∧ (∀ (d : Die) (tg : ScrubTarget) (s : State),
      (∀ a, tg = .global a → paHole a.toNat = false ∧ paAperture a.toNat = false) → (∀ e o, tg = .weightStore e o → e = d) →
      Gives (.patrolScrub d tg .corrected) s fun t => t = { s with survey := { s.survey with cnt := { s.survey.cnt with
        corr := countsUp (2 ^ 64 - 1) s.survey.cnt.corr (scrubRow tg) } } })
    ∧ (∀ (d : Die) (a : BitVec 48) (s : State), paHole a.toNat = false → paAperture a.toNat = false →
      ((s.die d).scrub = 0 → exec (.patrolScrub d (.global a) .uncorrectable) s = .next { s with ueLines := s.ueLines ++ [a.toNat / 128] })
      ∧ ((s.die d).scrub ≠ 0 → Gives (.patrolScrub d (.global a) .uncorrectable) s fun t =>
        t = { s with dies := t.dies, ueLines := s.ueLines ++ [a.toNat / 128] } ∧ (t.die d).fseq = (s.die d).fseq + 1
        ∧ ((s.die d).flog.length < 1024 → ∃ r, (t.die d).flog = (s.die d).flog ++ [r] ∧ r.addr = a.setWidth 64 ∧ r.src = 10
          ∧ r.seq = (s.die d).fseq ∧ r.time = BitVec.ofNat 64 s.meshCyc)))
    ∧ (∀ (d : Die) (s : State),
      (∀ c : CoreId, Gives (.patrolScrub d (.registers c) .uncorrectable) s fun t => OnlyCore c s t ∧ t.core c = { s.core c with regUe := true })
      ∧ (∀ (e : Die) (n : Nat), Gives (.patrolScrub d (.gazetteer e n) .uncorrectable) s fun t =>
          t = { s with dies := tabSet s.dies e { s.die e with ueGz := (s.die e).ueGz ++ [n] } })
      ∧ (∀ l : BitVec 41, Gives (.patrolScrub d (.l2 l) .uncorrectable) s fun t => t = { s with l2 := t.l2 }
          ∧ ∀ y, s.l2At l.toNat = some y → t.l2At l.toNat = some { y with ue := true })
      ∧ (∀ o : BitVec 31, (s.die d).scrub ≠ 0 → Gives (.patrolScrub d (.weightStore d o) .uncorrectable) s fun t =>
          t = { s with dies := t.dies } ∧ (t.die d).ueWs = (s.die d).ueWs ++ [o.toNat / 32] ∧ (t.die d).fseq = (s.die d).fseq + 1))
    ∧ (∀ (i : Fin 128) (s : State), (s.island i).busy = true → Gives (.islandFreqChangeDone i) s fun t => IslesMove s t
      ∧ (t.island i).busy = false ∧ (t.island i).freq = (if (s.island i).hot then 600 else min (s.island i).req s.cap)
      ∧ (s.rail ≠ 0 → 300 ≤ (t.island i).volt ∧ (t.island i).volt ≤ t.rail) ∧ (t.island i).req = (s.island i).req
      ∧ ∀ j, j ≠ i.val → t.island j = s.island j)
    ∧ (∀ (watts : Nat) (s : State), Gives (.powerManagerPeriod watts) s fun t => IslesMove { s with cap := t.cap } t
      ∧ t.cap = (if s.plim < watts then max 600 (s.cap - 50) else if 100 * watts < 98 * s.plim then min 3200 (s.cap + 50) else s.cap)
      ∧ ∀ i, i < 128 → (t.island i).freq = min (s.island i).freq (if (s.island i).hot then 600 else min (s.island i).req t.cap)
        ∧ (t.island i).req = (s.island i).req)
    ∧ (∀ (i : Fin 128) (mv : Nat) (s : State), Gives (.droopStretch i mv) s fun t => t = { s with survey := { s.survey with cnt := { s.survey.cnt with
        droop := countsUp (2 ^ 64 - 1) s.survey.cnt.droop (min 15 (mv / 5)) } } })
    ∧ (∀ (i : Fin 128) (s : State),
      (Gives (.thermalCap i) s fun t => IslesMove s t ∧ (t.island i).hot = true ∧ (t.island i).freq = min (s.island i).freq 600)
      ∧ (Gives (.islandCools i) s fun t => IslesMove s t ∧ (t.island i).hot = false
        ∧ (t.island i).freq = min (s.island i).freq (min (s.island i).req s.cap)))
    ∧ (∀ s : State, s.tripped = false → Gives .thermalTrip s fun t => t.tripped = true ∧ t.ready = false ∧ t.rail = 0 ∧ SurveyTakes s t 3
        ∧ ∀ x, (s.ctx x).live = true → (t.ctx x).fatal = true)
    ∧ (∀ s : State, (Gives .surveyHourly s fun t => t = { s with survey := t.survey, fresh := t.fresh } ∧ SurveyTakes s t 1)
      ∧ (Gives .surveyShutdown s fun t => t = { s with survey := t.survey, fresh := t.fresh } ∧ SurveyTakes s t 2))
    ∧ (∀ s : State, Gives (.powerOn .start) s (fun t => WipesModule s t ∧ t.mc = {} ∧ t.mc.boot = some 1)
      ∧ Gives .powerFail s (fun t => WipesModule s t ∧ t.mc = { boot := none }))
    ∧ (∀ n, bootRefused n = true ↔ (n = 2 ∧ ∀ k, k < 2 → sigOk (Config.vendorKey k) (Config.fwImage 1) (Config.fwSig 1) = false)
      ∨ (n = 3 ∧ ∃ f, (f = 2 ∨ f = 3) ∧ ∀ k, k < 2 → sigOk (Config.vendorKey k) (Config.fwImage f) (Config.fwSig f) = false))
    ∧ (∀ (s : State) (n : Nat), s.mc.boot = some n →
      (∀ c, exec (.powerOn (.fails c)) s = .next { s with mc := { s.mc with boot := none, failed := some { step := n, cause := c } } })
      ∧ (bootRefused n = true → exec (.powerOn .done) s
        = .next { s with mc := { s.mc with boot := none, failed := some { step := n, cause := Config.bootCause n } } })
      ∧ (bootRefused n = false → n < 9 → Gives (.powerOn .done) s fun t => t.mc = { s.mc with boot := some (n + 1) } ∧ t.ready = s.ready
        ∧ t.cores = s.cores ∧ t.mem = s.mem ∧ t.ctxs = s.ctxs ∧ t.rail = (if n = 5 then 400 else s.rail)
        ∧ (∀ k, tabGet 0 t.cart.meas k = if (n = 2 ∧ k = 1) ∨ (n = 3 ∧ (k = 2 ∨ k = 3)) then sha512 (Config.fwImage k) else tabGet 0 s.cart.meas k)
        ∧ (n = 8 → SurveyTakes s t 0) ∧ (n ≠ 8 → t.survey = s.survey))
      ∧ (n = 9 → Gives (.powerOn .done) s fun t => t.ready = true ∧ t.mc.boot = none ∧ t.survey = s.survey ∧ t.cart = s.cart
        ∧ (s.mc.wait = none → t = { s with ready := true, mc := { s.mc with boot := none } })
        ∧ (s.mc.wait = some .reset → t.mc.wait = none ∧ t.mc.head = BitVec.ofNat 64 ((s.mc.head.toNat + 1) % 2 ^ (s.mc.size.toNat % 16))
          ∧ t.hostBytes (s.mc.entry + 0x30) 16 = natBytes 8 0 ++ natBytes 8 0)))

/-- R393, R423 to R434: the answers to the requests of DOE, a large one in chunks; a peer that offers every algorithm may open a session, and
one that does not may not; at most 64 sessions, none without authentication of both sides, and none with a neighbour or switch whose chain
leads to no anchor, of which the Cartouche makes the requests; FINISH opens a session where the peer's signature and MAC check, and ends
it else; what a session answers or asks is secured and counted; one load runs at a time, is answered with the loader's record, and one
that succeeds is measured; host DMA moves ciphertext through the windows that are open, and what it writes is read back as written. Where
it rests on choices of the model: log entries 46, 47, 48, 74, 75, 77, 82 and 83. -/
def Obligations.HostRequests : Prop :=
  (∀ s : State, s.pcieUp = true → Answers .getVersion s (.bytes "GET_VERSION" [0x13])
    ∧ Answers .getCapabilities s (.ack "GET_CAPABILITIES")
    ∧ Answers .getDigests s (.bytes "GET_DIGESTS" (natBytes 64 (sha512 certChain).toNat))
    ∧ (∀ k : Fin 8, k.val ≠ 0 → Answers (.getCertificate k) s (.error "InvalidRequest"))
    ∧ exec (.getCertificate 0) s = .next { s with cart := if certChain.length ≤ Config.doeSize + 1
        then { s.cart with doe := s.cart.doe ++ [.bytes "GET_CERTIFICATE" certChain] }
        else { s.cart with large := some certChain, doe := s.cart.doe ++ [.error "LargeResponse"] } }
    ∧ (∀ c : BitVec 8, c ≠ 0x86 ∨ s.cart.large = none → Answers (.spdmUnsupportedRequest c) s
        (.error (if c = 0x86 then "InvalidRequest" else "UnsupportedRequest")))
    ∧ (∀ l n, s.cart.large = some l → n = Config.doeSize + 1 → exec (.spdmUnsupportedRequest 0x86) s = .next { s with cart := { s.cart with
        large := if l.length ≤ n then none else some (l.drop n), doe := s.cart.doe ++ [.bytes "CHUNK_GET" (l.take n)] } })
    ∧ (∀ (peer : Nat) (rsa sha dhe aead sched : Bool), exec (.negotiateAlgorithms peer rsa sha ⟨dhe, aead, sched⟩) s = .next { s with
        cart := { s.cart with
          negFailed := s.cart.negFailed.filter (· != peer) ++ if rsa && sha && dhe && aead && sched then [] else [peer]
          doe := s.cart.doe ++ [if rsa && sha && dhe && aead && sched then .ack "NEGOTIATE_ALGORITHMS" else .error "Refused"] } })
    ∧ (∀ (nonce : BitVec 256) (m : List Byte), m = natBytes 64 (sha512 certChain).toNat ++ natBytes 32 nonce.toNat →
        exec (.challenge nonce) s = .next { s with fresh := s.fresh + 1, cart := { s.cart with
          doe := s.cart.doe ++ [.bytes "CHALLENGE" (m ++ natBytes 512 (signId s.fresh m).toNat)] } })
    ∧ (∀ (i : BitVec 8) (m : List Byte), (1 ≤ i.toNat ∧ i.toNat ≤ 4) ∨ (0x10 ≤ i.toNat ∧ i.toNat ≤ 0x17) →
      m = natBytes 1 i.toNat ++ [1] ++ natBytes 2 67 ++ natBytes 1 (measKind i.toNat) ++ natBytes 2 64 ++ natBytes 64 (measReg s.cart i.toNat).toNat →
      Answers (.getMeasurements i false) s (.bytes "GET_MEASUREMENTS" m)
      ∧ exec (.getMeasurements i true) s = .next { s with fresh := s.fresh + 1, cart := { s.cart with
          doe := s.cart.doe ++ [.bytes "GET_MEASUREMENTS" (m ++ natBytes 512 (signId s.fresh m).toNat)] } })
    ∧ (∀ (i : BitVec 8) (b : Bool), ¬((1 ≤ i.toNat ∧ i.toNat ≤ 4) ∨ (0x10 ≤ i.toNat ∧ i.toNat ≤ 0x17)) →
      Answers (.getMeasurements i b) s (.error "InvalidRequest")))
    ∧ (∀ (peer : Nat) (l : List Byte) (s : State), s.pcieUp = true →
      (64 ≤ s.cart.sessions.length → ∀ r b, Answers (.keyExchange peer r b) s (.error "Busy"))
      ∧ (s.cart.sessions.length < 64 → ∀ r, Answers (.keyExchange peer r none) s (.error "Refused"))
      ∧ (s.cart.sessions.length < 64 → peer ∈ s.cart.negFailed → ∀ r b, Answers (.keyExchange peer r b) s (.error "Refused"))
      ∧ (s.cart.sessions.length < 64 → peer ∉ s.cart.negFailed → ∀ m : List Byte, m = natBytes 8 s.cart.sessNext →
        ((∀ v, s.cart.job = some v → v = peer) →
          exec (.keyExchange peer .verifier (some l)) s = .next { s with fresh := s.fresh + 1, cart := { s.cart with
            sessions := s.cart.sessions ++ [{ id := s.cart.sessNext, role := .verifier, peer := peer, chain := l }]
            sessNext := s.cart.sessNext + 1, job := some peer
            jobSess := if s.cart.job = none then s.cart.sessNext else s.cart.jobSess
            doe := s.cart.doe ++ [.bytes "KEY_EXCHANGE" (m ++ natBytes 512 (signId s.fresh m).toNat)] } })
        ∧ exec (.keyExchange peer .host (some l)) s = .next { s with fresh := s.fresh + 1, cart := { s.cart with
            sessions := s.cart.sessions ++ [{ id := s.cart.sessNext, role := .host, peer := peer, chain := l }]
            sessNext := s.cart.sessNext + 1
            doe := s.cart.doe ++ [.bytes "KEY_EXCHANGE" (m ++ natBytes 512 (signId s.fresh m).toNat)] } })
      ∧ (s.cart.sessions.length < 64 → (∃ v, s.cart.job = some v ∧ v ≠ peer) →
        Answers (.keyExchange peer .verifier (some l)) s (.error "Refused"))
      ∧ (s.cart.sessions.length < 64 → peer ∉ s.cart.negFailed → ∀ r, r = .neighbour ∨ r = .switch →
        exec (.keyExchange peer r (some l)) s = .next { s with cart := if s.cart.anchors.any fun a => chains a l
          then { s.cart with sessions := s.cart.sessions ++ [{ id := s.cart.sessNext, role := r, peer := peer, chain := l }], sessNext := s.cart.sessNext + 1
                             asked := s.cart.asked ++ [0x84, 0xE1, 0xE3, 0x81, 0x82, 0xE4].map fun (k : Nat) =>
                               { role := r, peer := peer, sess := none, code := k, data := [0x13, BitVec.ofNat 8 k, 0, 0] } }
          else { s.cart with doe := s.cart.doe ++ [.error "Refused"] } }))
    ∧ (∀ (f : FinishMsg) (s : State) (x : Sess), s.pcieUp = true → s.cart.sess f.sess = some x →
      (x.open_ = true → Answers (.finish f) s (.error "Refused"))
      ∧ (x.open_ = false → finishOk x f = false → exec (.finish f) s = .next { s with cart := { s.cart with
        sessions := s.cart.sessions.filter fun y => y.id != x.id
        job := if x.role = .verifier ∧ s.cart.jobSess = x.id then none else s.cart.job
        doe := s.cart.doe ++ [.error "Refused"] } })
      ∧ (x.open_ = false → finishOk x f = true → x.role = .verifier ∨ x.role = .host → exec (.finish f) s = .next { s with cart := { s.cart with
        sessions := s.cart.sessions.map fun y => if y.id = x.id then { x with open_ := true, meas := f.meas } else y
        doe := s.cart.doe ++ [.ack "FINISH"] } })
      ∧ (x.open_ = false → finishOk x f = true → x.role = .neighbour ∨ x.role = .switch → Gives (.finish f) s fun t =>
        t = { s with cart := { s.cart with sessions := t.cart.sessions, asked := t.cart.asked } }
        ∧ (∃ y, t.cart.sess f.sess = some y ∧ y.open_ = true ∧ y.meas = f.meas ∧ y.role = x.role ∧ y.peer = x.peer)
        ∧ ∃ l, t.cart.asked = s.cart.asked ++ l ∧ (∀ q ∈ l, q.sess = some x.id ∧ q.peer = x.peer)
          ∧ l.map (·.code) = [0xE5, 0xE0] ++ if x.role = .switch ∧ s.cart.jobKey.isSome = true then [0xFE] else []))
    ∧ (∀ (f : FinishMsg) (x : Sess), finishOk x f = true ↔ (∃ k, leafKey x.chain = some k ∧ pssVerify k.1 k.2 (finishText x) f.sig = true)
      ∧ natBytes 64 f.mac.toNat = hmac512 (natBytes 64 (Config.finishKey x.id).toNat) (sessCtx x.id))
    ∧ (∀ (n : Nat) (s : State) (x : Sess) (c : Nat → String → Cart), s.pcieUp = true → s.cart.sess n = some x →
      (∀ k r, c k r = if x.role = .neighbour ∨ x.role = .switch then askedBy x k s.cart else securedBy x (.ack r) s.cart) →
      (x.open_ = false → Answers (.heartbeat n) s (.error "Refused") ∧ Answers (.keyUpdate n) s (.error "Refused")
        ∧ Answers (.endSession n) s (.error "Refused"))
      ∧ (x.open_ = true → exec (.heartbeat n) s = .next { s with cart := c 0xE8 "HEARTBEAT" }
        ∧ exec (.keyUpdate n) s = .next { s with cart := { c 0xE9 "KEY_UPDATE" with
          sessions := (c 0xE9 "KEY_UPDATE").sessions.map fun y => if y.id = n then { y with keyNo := y.keyNo + 1 } else y } }
        ∧ (x.role ≠ .switch ∨ (∀ w ∈ s.cart.switches, w.serial ≠ BitVec.ofNat 64 x.peer) →
          exec (.endSession n) s = .next { s with cart := { c 0xEC "END_SESSION" with
            sessions := (c 0xEC "END_SESSION").sessions.filter fun y => y.id != n } })
        ∧ (∀ serial, x.role = .switch → serial = BitVec.ofNat 64 x.peer → (∀ y ∈ s.cart.sessions, y.id ≠ n → ¬(y.role = .switch ∧ y.peer = serial.toNat)) →
          s.cart.admitted serial = true → s.cart.toWrite = [] → keysFrom 0 s.cart.paths = true → Gives (.endSession n) s fun t =>
            t = { s with cart := t.cart } ∧ t.cart.admitted serial = false ∧ t.cart.sessions = s.cart.sessions ∧ TrustFollows s t serial)))
    ∧ (∀ (off len : Word) (s : State), s.pcieUp = true →
      (s.cart.loading = none → exec (.load (some off) len) s = .next { s with cart := { s.cart with
        loading := some { off := off.toNat, len := len.toNat } } })
      ∧ (s.cart.loading ≠ none → Answers (.load (some off) len) s (.error "Busy")))
    ∧ (∀ (q : LoadReq) (len : Word) (s u : State), s.cart.loading = some q → u = { s with cart := { s.cart with loading := none } } →
      (q.changed = true ∨ openSeal q.len (s.cart.windowBytes q.off q.len) u = none →
        exec (.load none len) s = .next { u with cart := { u.cart with doe := s.cart.doe ++ [.bytes "LOAD" (natBytes 4 1 ++ natBytes 20 0)] } })
      ∧ (∀ x l v, q.changed = false → openSeal q.len (s.cart.windowBytes q.off q.len) u = some (x, l, v) →
        Gives (.load none len) s fun t => t.cart.doe = s.cart.doe ++ [.bytes "LOAD" (loadImage x l v).1] ∧ t.cart.loading = none
          ∧ (imgSigned s.cart.imgKeys l = false → (loadImage x l v).1 = natBytes 4 1 ++ natBytes 20 0)
          ∧ ((loadImage x l v).1 = natBytes 24 0 → (t.ctx x.toNat).entries.length = (s.ctx x.toNat).entries.length + imgNat l 0x3A 2
            ∧ tabGet 0 t.cart.meas (0x10 + x.toNat) = sha512 (natBytes 64 (tabGet 0 s.cart.meas (0x10 + x.toNat) : BitVec 512).toNat
                ++ natBytes 64 (sha512 (l.take (imgNat l 0x28 8))).toNat))))
    ∧ (∀ (base : BitVec 48) (size : Nat) (s : State),
      exec (.hostDma base size .openWindow) s = .next { s with dmaWins := s.dmaWins ++ [{ base := base.toNat, size := size }] }
      ∧ Gives (.hostDma base size .closeWindow) s fun t => t = { s with dmaWins := t.dmaWins }
        ∧ ∀ w, w ∈ t.dmaWins ↔ w ∈ s.dmaWins ∧ ¬(w.base = base.toNat ∧ w.size = size))
    ∧ (∀ (pa : BitVec 48) (n : Nat) (s : State), 0 < n → pa.toNat + n ≤ 0x6000000000 →
      ((∃ w ∈ s.dmaWins, w.base ≤ pa.toNat ∧ pa.toNat + n ≤ w.base + w.size) →
        exec (.hostDma pa n .read) s = .next { s with hostReads := s.hostReads ++ [dmaRead s pa.toNat n] }
        ∧ (pa.toNat % 128 + n ≤ 128 → dmaRead s pa.toNat n = ((s.cipherLine (pa.toNat / 128)).drop (pa.toNat % 128)).take n))
      ∧ ((∀ w ∈ s.dmaWins, ¬(w.base ≤ pa.toNat ∧ pa.toNat + n ≤ w.base + w.size)) → exec (.hostDma pa n .read) s = .next s
        ∧ ∀ l : List Byte, l.length = n → exec (.hostDma pa n (.write l)) s = .next s))
    ∧ (∀ (pa : BitVec 48) (l : List Byte) (s : State), 0 < l.length → pa.toNat % 128 + l.length ≤ 128 → pa.toNat + l.length ≤ 0x6000000000 →
      Memory.wf s.mem = true → (∃ w ∈ s.dmaWins, w.base ≤ pa.toNat ∧ pa.toNat + l.length ≤ w.base + w.size) →
      Gives (.hostDma pa l.length (.write l)) s fun t => dmaRead t pa.toNat l.length = l ∧ t.cores = s.cores ∧ t.teams = s.teams ∧ t.home = s.home)

/-- R430, R433, R435 to R438: what the job's verifier sets, and what a release takes away, each acknowledged or refused in its session; a new
job key goes to every switch with a session, and a switch that no longer meets a condition is not admitted; a switch is admitted where it
meets every condition, and withdrawn for each cause; the trust words of its paths follow one by one, each write counted by EPOCH; a path
is evaluated first; a withdrawn switch's session closes once its words are written and no chunk is left in it, with END_SESSION. Where it
rests on choices of the model: log entries 46, 74, 83 and 84. -/
def Obligations.Cartouche : Prop :=
  (∀ (n : Nat) (s : State), Verifier s n →
    (∀ key, s.cart.jobKey = none ∨ (∀ p ∈ s.ctxs, p.2.live = false) →
      ((∀ w ∈ s.cart.switches, w.admitted = false) → (∀ y ∈ s.cart.sessions, y.role = .switch → y.open_ = false) →
        VerifierSets n (.setJobKey n key) s "SET_JOB_KEY" fun c => { c with jobKey := some key })
      ∧ ∀ x, s.cart.sess n = some x → Gives (.setJobKey n key) s fun t => t = { s with cart := t.cart } ∧ t.cart.jobKey = some key
        ∧ t.cart.doe = s.cart.doe ++ [.secured x.id (secure "rsp app data" x x.seq (DoeResp.message (.ack "SET_JOB_KEY")))]
        ∧ (∀ w, w.admitted = true → (w ∈ t.cart.switches ↔ w ∈ s.cart.switches ∧ w.key = some key ∧ s.cart.hasSwitch w.serial = true
            ∧ s.cart.refsMet w.meas = true))
        ∧ ∃ l, t.cart.asked = s.cart.asked ++ l ∧ (∀ q ∈ l, q.code = 0xFE)
          ∧ l.map (·.sess) = (s.cart.sessions.filter fun y => y.open_ && y.role == .switch).map fun y => some y.id)
    ∧ (∀ key, s.cart.jobKey.isSome = true → (∃ p ∈ s.ctxs, p.2.live = true) → VerifierRefused n (.setJobKey n key) s)
    ∧ (∀ (k : Fin 4) key, VerifierSets n (.setImageKey n k key) s "SET_IMAGE_KEY" fun c => { c with imgKeys := tabSet c.imgKeys k key })
    ∧ (∀ cert, (s.cart.anchors.length < 8 →
        VerifierSets n (.setTrustAnchor n cert) s "SET_TRUST_ANCHOR" fun c => { c with anchors := c.anchors ++ [cert] })
      ∧ (8 ≤ s.cart.anchors.length → VerifierRefused n (.setTrustAnchor n cert) s))
    ∧ (∀ (i : BitVec 8) g, (tabGet? s.cart.refs i.toNat).isSome = true ∨ s.cart.refs.length < 16 →
      ((∀ w ∈ s.cart.switches, w.admitted = false) →
        VerifierSets n (.setReference n i g) s "SET_REFERENCE" fun c => { c with refs := tabSet c.refs i.toNat g })
      ∧ Gives (.setReference n i g) s fun t => t = { s with cart := t.cart } ∧ t.cart.refs = tabSet s.cart.refs i.toNat g
        ∧ ∀ w, w.admitted = true → (w ∈ t.cart.switches ↔ w ∈ s.cart.switches ∧ t.cart.refsMet w.meas = true ∧ s.cart.hasSwitch w.serial = true
            ∧ w.key.isSome = true ∧ w.key = s.cart.jobKey))
    ∧ (∀ (i : BitVec 8) g, tabGet? s.cart.refs i.toNat = none → 16 ≤ s.cart.refs.length → VerifierRefused n (.setReference n i g) s)
    ∧ (∀ x, s.cart.sess n = some x → Gives (.release n) s fun t => t.cart.jobKey = none ∧ t.cart.imgKeys = [] ∧ t.cart.anchors = []
        ∧ t.cart.refs = [] ∧ t.cart.job = none
        ∧ (∀ w ∈ t.cart.switches, w.admitted = false)
        ∧ (∀ y ∈ t.cart.sessions, y.role = .switch ∧ ∃ w ∈ t.cart.switches, y.peer = w.serial.toNat)
        ∧ (∀ y, (s.ctx y).memKey = none → (t.ctx y).memKey = none)
        ∧ (∀ y k, (s.ctx y).memKey = some k → ∃ m, (t.ctx y).memKey = some m ∧ s.cart.keyNext ≤ m ∧ m < t.cart.keyNext)
        ∧ t.cart.doe = s.cart.doe ++ [.secured x.id (secure "rsp app data" x x.seq (DoeResp.message (.ack "RELEASE")))]))
    ∧ (∀ (serial : Word) (root : List Byte) (meas : List (Nat × BitVec 512)) (s : State), keysFrom 0 s.cart.paths = true → s.cart.toWrite = [] →
      (∀ w ∈ s.cart.switches, w.serial ≠ serial) → s.cart.hasSwitch serial = true → (∀ r ∈ s.cart.refs, r ∈ meas) → s.cart.jobKey.isSome = true →
      Gives (.switchAdmit serial root meas true) s fun t =>
        ((∃ a ∈ s.cart.anchors, chains a root = true) → t = { s with cart := t.cart } ∧ t.cart.admitted serial = true
          ∧ (∀ w, w ≠ serial → t.cart.admitted w = s.cart.admitted w) ∧ TrustFollows s t serial)
        ∧ ((∀ a ∈ s.cart.anchors, chains a root = false) → t = s))
    ∧ (∀ (serial : Word) (root : List Byte) (meas : List (Nat × BitVec 512)) (ack : Bool) (s : State),
      s.cart.hasSwitch serial = false ∨ (∃ r ∈ s.cart.refs, r ∉ meas) ∨ ack = false ∨ s.cart.jobKey = none →
      exec (.switchAdmit serial root meas ack) s = .next s)
    ∧ (∀ (serial : Word) (cause : WithdrawCause) (s : State), keysFrom 0 s.cart.paths = true → s.cart.toWrite = [] → s.cart.admitted serial = true →
      cause = .asked ∨ (∃ n, 3 ≤ n ∧ cause = .heartbeats n) ∨ (∃ i g r, cause = .measured i g ∧ tabGet? s.cart.refs i.toNat = some r ∧ r ≠ g) →
      Gives (.switchWithdraw ⟨serial, cause⟩) s fun t => t = { s with cart := t.cart } ∧ t.cart.admitted serial = false
        ∧ (∀ w, w ≠ serial → t.cart.admitted w = s.cart.admitted w) ∧ TrustFollows s t serial)
    ∧ (∀ (c : Cart) (p : Nat) (d : PathDef) (l : List Nat), c.toWrite = p :: l → tabGet? c.paths p = some d →
      c.writeNext = { c with toWrite := l, paths := tabSet c.paths p { d with att := d.eval && d.switches.all c.admitted }, epoch := c.epoch + 1 })
    ∧ (∀ (serial : Word) (n : Nat) (s : State), n < 3 → exec (.switchWithdraw ⟨serial, .heartbeats n⟩) s = .next s)
    ∧ (∀ (p : Fin 1024) (s : State) (d : PathDef), tabGet? s.cart.paths p = some d → d.eval = false →
      Gives (.pathFirstEvaluation p) s fun t => t = { s with cart := { s.cart with
        paths := tabSet s.cart.paths p { d with eval := true, att := d.switches.all s.cart.admitted }, epoch := s.cart.epoch + 1 } })
    ∧ (∀ (serial : Word) (s : State) (w : Switch), w ∈ s.cart.switches → w.serial = serial → w.admitted = false →
      (s.cart.mustWrite serial = true ∨ chunkInSwitch s serial = true → exec (.switchSessionClose serial) s = .next s)
      ∧ (s.cart.mustWrite serial = false → chunkInSwitch s serial = false → (s.cart.sessions.map (·.id)).Nodup →
        Gives (.switchSessionClose serial) s fun t => t = { s with cart := t.cart }
          ∧ (∀ x ∈ t.cart.switches, x.serial ≠ serial)
          ∧ (∀ x, x ∈ t.cart.sessions ↔ x ∈ s.cart.sessions ∧ ¬(x.role = .switch ∧ x.peer = serial.toNat))
          ∧ ∃ l, t.cart.asked = s.cart.asked ++ l ∧ (∀ q ∈ l, q.code = 0xEC)
            ∧ l.map (·.sess) = (s.cart.sessions.filter fun x => x.role == .switch && x.peer == serial.toNat).map fun x => some x.id))

/-- R394, R433, R447 to R450: the host's registers, their reserved bits and ranges, and the words that it reads; what the completion of a
command writes; the commands that create, set and destroy a context, whose creation the Cartouche may refuse; and that a command which
R449 does not list has status 1, one that lacks its item status 2. Where it rests on a choice of the model: log entry 49. -/
def Obligations.ContextCommands : Prop :=
  (∀ (n : Nat) (r : Word) (s : State), n < 2 ^ 32 → mcComplete n r s = { s with
      hostMem := (mcComplete n r s).hostMem
      mc := { s.mc with head := BitVec.ofNat 64 ((s.mc.head.toNat + 1) % 2 ^ (s.mc.size.toNat % 16)), wait := none }
      msis := s.msis ++ if bitOf s.mcCmd 24 then [(false, s.mc.msi.toNat)] else [] }
    ∧ (mcComplete n r s).hostBytes (s.mc.entry + 0x30) 16 = natBytes 8 n ++ natBytes 8 r.toNat
    ∧ ∀ a, (a < s.mc.entry + 0x30 ∨ s.mc.entry + 0x40 ≤ a) → (mcComplete n r s).hostBytes a 1 = s.hostBytes a 1)
    ∧ (∀ (v : Word) (s : State), exec (.mctailWrite v) s = .next { s with mc := { s.mc with tail := v } })
    ∧ (∀ (v : Word) (s : State),
      (s.mc.head = s.mc.tail → exec (.mcRingConfigWrite false v) s = .next { s with mc := { s.mc with base := v &&& ~~~0xFFF } }
        ∧ exec (.mcRingConfigWrite true v) s = .next (if 4 ≤ v.toNat ∧ v.toNat ≤ 12 then { s with mc := { s.mc with size := v } } else s))
      ∧ (s.mc.head ≠ s.mc.tail → ∀ b, exec (.mcRingConfigWrite b v) s = .next s)
      ∧ s.mcheadWord = s.mc.head
      ∧ (∀ i, s.mcstatWord.getLsbD i = (decide (i = 0) && s.ready || decide (i = 1) && (s.mcGo || s.mc.wait.isSome)))
      ∧ ∀ d : Doorbell, d.pendWord = (if d.pend.isSome then 1 else 0) ∧ d.tailWord = d.nrTail)
    ∧ (∀ (v : Word) (x : CtxId) (s : State),
      (Gives (.hostRegisterWrite (.nrBase x) v) s fun t => t = { s with ctxs := t.ctxs }
        ∧ t.ctx x = { s.ctx x with db := { (s.ctx x).db with nrBase := v &&& ~~~0xFFF } })
      ∧ (4 ≤ v.toNat → v.toNat ≤ 16 → Gives (.hostRegisterWrite (.nrSize x) v) s fun t => t = { s with ctxs := t.ctxs }
        ∧ t.ctx x = { s.ctx x with db := { (s.ctx x).db with nrSize := v } })
      ∧ (v.toNat < 4 ∨ 16 < v.toNat → exec (.hostRegisterWrite (.nrSize x) v) s = .next s)
      ∧ (Gives (.hostRegisterWrite (.cwin x) v) s fun t => t = { s with ctxs := t.ctxs }
        ∧ t.ctx x = { s.ctx x with db := { (s.ctx x).db with cwin := v &&& 0xFFFF } })
      ∧ ((s.ctx x).db.held = [] → Gives (.hostRegisterWrite (.nrHead x) v) s fun t => t = { s with ctxs := t.ctxs }
        ∧ t.ctx x = { s.ctx x with db := { (s.ctx x).db with nrHead := v } })
      ∧ exec (.hostRegisterWrite .mcMsi v) s = .next { s with mc := { s.mc with msi := v } }
      ∧ ∀ off, Gives (.hostRegisterWrite (.staging off) v) s fun t =>
        t = { s with cart := { s.cart with window := t.cart.window, loading := t.cart.loading } }
        ∧ t.cart.windowBytes off.toNat 8 = natBytes 8 v.toNat ∧ (s.cart.loading = none → t.cart.loading = none))
    ∧ (∀ (s : State) (e : Nat), McStarts s e →
      (mcOpc e = 0 ∨ (0xD ≤ mcOpc e ∧ mcOpc e ≤ 0xF) ∨ (0x1C ≤ mcOpc e ∧ mcOpc e ≤ 0x1F) ∨ (0x24 ≤ mcOpc e ∧ mcOpc e ≤ 0x2F) ∨ 0x30 < mcOpc e →
        Completes .mcUnknownCommand s 1 0 s)
      ∧ (mcOpc e = 3 → mcArg e 0 = 0 ∨ 10 < mcArg e 0 → Completes .mcUnknownCommand s 2 0 s)
      ∧ (mcOpc e = 4 → mcArg e 1 = 0 ∨ 2 < mcArg e 1 → Completes .mcUnknownCommand s 2 0 s)
      ∧ (mcOpc e = 0x22 → mcArg e 1 = 0 ∨ 6 < mcArg e 1 → Completes .mcUnknownCommand s 2 0 s))
    ∧ (∀ (s : State) (e : Nat), McStarts s e → mcOpc e = 1 → mcCtx e ≤ 7 → (s.ctx (mcCtx e)).live = false →
      (s.cart.job = none → Completes .ctxCreate s 7 0 s)
      ∧ (s.cart.job ≠ none → keyRefused s.fresh = true → Completes .ctxCreate s 7 0 { s with fresh := s.fresh + 1 })
      ∧ (s.cart.job ≠ none → keyRefused s.fresh = false → Gives .ctxCreate s fun t => t.fresh = s.fresh + 1
        ∧ t.ctx (mcCtx e) =
          { live := true, job := s.cart.jobNow, memKey := some s.cart.keyNext, db := (s.ctx (mcCtx e)).db, entSer := (s.ctx (mcCtx e)).entSer }
        ∧ t.cart.keyNext = s.cart.keyNext + 1 ∧ tabGet 1 t.cart.meas (0x10 + mcCtx e) = 0 ∧ ∀ y, y ≠ mcCtx e → t.ctx y = s.ctx y))
    ∧ (∀ (s : State) (e : Nat), McStarts s e → mcOpc e = 2 → mcCtx e ≤ 7 → (s.ctx (mcCtx e)).live = true →
      ((∀ p ∈ s.teams, p.2.ctx.toNat ≠ mcCtx e) → Gives .ctxDestroy s fun t => (t.ctx (mcCtx e)).live = false
        ∧ (t.ctx (mcCtx e)).memKey = none ∧ (∀ p ∈ t.binds, p.2.ctx.toNat ≠ mcCtx e) ∧ (∀ y ∈ t.l2, mcX e ∉ y.locks)
        ∧ (∀ d, d < 4 → (∀ g ∈ (t.die d).stages, g.ctx.toNat ≠ mcCtx e) ∧ (∀ q ∈ (t.die d).susp, q.team.ctx.toNat ≠ mcCtx e)
          ∧ ∀ k ∈ (t.die d).stash, k.ctx.toNat ≠ mcCtx e))
      ∧ ((∃ p ∈ s.teams, p.2.ctx.toNat = mcCtx e) → exec .ctxDestroy s = .next { s with mc := { s.mc with wait := some (.destroy (mcX e)) } }))
    ∧ CtxSets 1 .ctxSetPageTableRoot (fun _ e => mcArg e 1 % 4096 = 0 ∧ (mcArg e 1 + 4096 ≤ 0x6000000000
        ∨ (0x8000000000 ≤ mcArg e 1 ∧ mcArg e 1 + 4096 ≤ 0x10000000000)))
      (fun e c => { c with ptRoot := mcArg e 1 })
    ∧ CtxSets 2 .ctxSetSaveRegion (fun s e => (∀ d, d < 4 → (s.die d).susp = []) ∧ mcArg e 1 + mcArg e 2 ≤ 0x6000000000)
      (fun e c => { c with save := { base := mcArg e 1, size := mcArg e 2 } })
    ∧ CtxSets 3 .ctxSetStashRegion (fun _ e => mcArg e 1 + mcArg e 2 ≤ 0x6000000000)
      (fun e c => { c with stash := { base := mcArg e 1, size := mcArg e 2 } })
    ∧ CtxSets 4 .ctxSetSpillRegion (fun _ e => 0x8000000000 ≤ mcArg e 1 ∧ mcArg e 1 + mcArg e 2 ≤ 0x10000000000)
      (fun e c => { c with spill := { base := mcArg e 1, size := mcArg e 2 } })
    ∧ CtxSets 5 .ctxSetUndoRegion (fun _ e => mcArg e 1 + mcArg e 2 ≤ 0x6000000000 ∧ mcArg e 2 ≤ 2 ^ 33)
      (fun e c => { c with undo := { base := mcArg e 1, size := mcArg e 2 } })
    ∧ CtxSets 6 .ctxSetPol (fun _ e => mcArg e 1 ≤ 1) (fun e c => { c with pol := BitVec.ofNat 2 (mcArg e 1) })
    ∧ CtxSets 7 .ctxSetWatchdogLimit (fun _ e => mcArg e 1 < 2 ^ 32) (fun e c => { c with wdLimit := BitVec.ofNat 32 (mcArg e 1) })
    ∧ CtxSets 8 .ctxSetLockQuota (fun _ e => mcArg e 1 < 2 ^ 24 ∧ mcArg e 2 ≤ 12)
      (fun e c => { c with lquota := BitVec.ofNat 24 (mcArg e 1), lways := BitVec.ofNat 4 (mcArg e 2) })
    ∧ CtxSets 9 .ctxSetTvec (fun _ e => mcArg e 1 / 2 ^ 48 % 2 ^ 15 = 0 ∧ mcArg e 1 % 64 = 0)
      (fun e c => { c with tvec := BitVec.ofNat 64 (mcArg e 1) })
    ∧ CtxSets 10 .ctxSetSaveStride (fun s e => (∀ d, d < 4 → (s.die d).susp = []) ∧ mcArg e 1 % 4096 = 0)
      (fun e c => { c with stride := mcArg e 1 })

/-- R297, R335, R342 to R344, R350, R360, R367, R371, R373, R374, R377, R381, R414, R415, R418, R419, R432, R436, R438, R440, R442, R444,
R446, R449: the other commands of the ring: each is done, with its status and result, under the conditions of its entry. Where it rests on
choices of the model: log entries 35, 44, 45 and 49. -/
def Obligations.ModuleCommands : Prop :=
  (∀ (s : State) (e : Nat), McStarts s e →
    (mcOpc e = 4 → mcArg e 1 = 1 → mcArg e 2 / 2 ^ 10 ≠ 0 ∨ mcArg e 2 / 2 ^ 5 % 2 ^ 3 ≠ 0 → Completes .dieSetWayQuota s 1 0 s)
    ∧ (mcOpc e = 4 → mcArg e 1 = 1 → mcArg e 0 ≤ 3 → mcArg e 2 / 2 ^ 10 = 0 → mcArg e 2 / 2 ^ 5 % 2 ^ 3 = 0 → 1 ≤ mcArg e 2 % 32 → mcArg e 2 % 32 ≤ 16 →
      Completes .dieSetWayQuota s 0 0 (s.modDie (mcArg e 0) fun d => { d with
        wq := tabSet d.wq (mcArg e 2 / 2 ^ 8 % 4) (BitVec.ofNat 5 (mcArg e 2 % 32)) }))
    ∧ (mcOpc e = 4 → mcArg e 1 = 2 → mcArg e 0 ≤ 3 →
      Completes .dieSetScrubRate s 0 0 (s.modDie (mcArg e 0) fun d => { d with scrub := BitVec.ofNat 64 (mcArg e 2) }))
    ∧ (mcOpc e = 5 → fwinResv s e = true → Completes .fwinWrite s 1 0 s)
    ∧ (mcOpc e = 5 → fwinResv s e = false → s.teams ≠ [] → Completes .fwinWrite s 3 0 s)
    ∧ (∀ (old : Fwin) (bad : Bool), mcOpc e = 5 → fwinResv s e = false → s.teams = [] → mcArg e 0 ≤ 31 → old = tabGet {} s.fwins (mcArg e 0) →
      bad = ((fwinOf s e).en && fwinBad s e) → ∃ u : State, Completes .fwinWrite s (if bad then 2 else 0) 0 u
        ∧ u.fwins = tabSet s.fwins (mcArg e 0) { fwinOf s e with en := (fwinOf s e).en && !bad }
        ∧ (old.en = false → u = { s with fwins := u.fwins })
        ∧ (old.en = true → (s.l2.map (·.line)).Nodup → u.cores = s.cores ∧ u.teams = s.teams
          ∧ ∀ y ∈ u.l2, y.locks = [] → ¬(old.ebase ≤ 128 * y.line ∧ 128 * y.line < old.ebase + old.esize)))
    ∧ (∀ (p : Nat) (full shape : Bool), mcOpc e = 6 → mcCtx e ≤ 7 → (s.ctx (mcCtx e)).live = true → p = payload s (mcArg e 0) 32 → bindResv p = false →
      ((∃ q ∈ s.teams, q.2.ctx.toNat = mcCtx e) → Completes .bind s 3 0 s)
      ∧ ((∀ q ∈ s.teams, q.2.ctx.toNat ≠ mcCtx e) → bindRange p = false → hasBind s (mcX e) (payAt p 0 1) (bindLoc p) = true → Completes .bind s 2 0 s)
      ∧ ((∀ q ∈ s.teams, q.2.ctx.toNat ≠ mcCtx e) → bindRange p = false → hasBind s (mcX e) (payAt p 0 1) (bindLoc p) = false →
        (shape = true ↔ 8 ≤ payAt p 0 1 ∧ ¬((bindLoc p).lw = (bindRem p).lw ∧ (bindLoc p).lh = (bindRem p).lh)) →
        ∃ b : Binding, ((full = true ↔ 64 ≤ (s.binds.filter fun q => q.2.port == b.port).length) →
            Completes .bind s (if full || shape then 2 else 0) (BitVec.ofNat 64 s.bindNext)
              { s with binds := tabSet s.binds s.bindNext { b with refused := full || shape }, bindNext := s.bindNext + 1 })
          ∧ b.ctx = mcX e ∧ b.ch.val = payAt p 0 1 ∧ b.loc = bindLoc p ∧ (8 ≤ payAt p 0 1 → b.rem = bindRem p)
          ∧ b.cred = 0 ∧ b.pend = 0 ∧ b.infl = 0 ∧ b.park = 0))
    ∧ (∀ b, mcOpc e = 7 → mcCtx e ≤ 7 → (s.ctx (mcCtx e)).live = true → (∀ q ∈ s.teams, q.2.ctx.toNat ≠ mcCtx e) →
      tabGet? s.binds (mcArg e 0) = some b → b.ctx = mcX e →
      Completes .unbind s 0 0 { s with binds := tabErase s.binds (mcArg e 0) })
    ∧ (∀ (p : Nat) (g : Group), mcOpc e = 8 → mcCtx e ≤ 7 → (s.ctx (mcCtx e)).live = true → mcArg e 0 ≤ 63 → p = payload s (mcArg e 1) 64 →
      g = groupOf p → payAt p 4 1 / 2 = 0 → payAt p 5 3 = 0 → payAt p 41 7 = 0 → 2 ≤ g.n → g.n ≤ 4096 → g.member < g.n → payAt p 40 1 ≤ 8 →
      (∀ k ∈ g.paths, k ≤ 1023) →
      Completes .groupWrite s 0 0 (s.modCtx (mcCtx e) fun c => { c with groups := tabSet c.groups (mcArg e 0) g }))
    ∧ (∀ p n, mcOpc e = 9 → mcArg e 0 ≤ 1023 → p = payload s (mcArg e 1) 72 → n = payAt p 0 1 → payAt (payload s (mcArg e 1) 8) 0 1 = n →
      payAt (payload s (mcArg e 1) 8) 1 7 = 0 → n ≤ 8 →
      Completes .pathDefine s 0 0 { s with cart := { s.cart with
        paths := tabSet s.cart.paths (mcArg e 0) { switches := (rangeFrom 0 n).map fun k => BitVec.ofNat 64 (payAt p (8 + 8 * k) 8) }
        epoch := s.cart.epoch + 1, toWrite := s.cart.toWrite.filter (· != mcArg e 0) } })
    ∧ (mcOpc e = 0xA → (tabGet? s.cart.paths (mcArg e 0)).isSome = true →
      Completes .pathRemove s 0 0 { s with cart := { s.cart with
        paths := tabErase s.cart.paths (mcArg e 0), epoch := s.cart.epoch + 1, toWrite := s.cart.toWrite.filter (· != mcArg e 0) } })
    ∧ (∀ (va : Option Nat) (lg : Nat), mcOpc e = 0xB → mcCtx e ≤ 7 → (s.ctx (mcCtx e)).live = true →
      (mcArg e 0 = 2 ^ 64 - 1 ∧ va = none ∧ lg = (pageLg (mcArg e 1)).getD 16)
        ∨ (mcArg e 0 < 2 ^ 48 ∧ va = some (mcArg e 0) ∧ (lg = 16 ∨ lg = 21 ∨ lg = 30) ∧ mcArg e 1 = 2 ^ lg) → Gives .tlbInval s fun t =>
      t = { s with mc := t.mc, cores := t.cores, dies := t.dies } ∧ t.mc = { s.mc with wait := some (.inval (mcX e) va lg) }
        ∧ (∀ p ∈ t.cores, ∀ y ∈ p.2.tlb ++ p.2.etlb0 ++ p.2.etlb1, y.coveredBy (mcX e) va lg = false)
        ∧ ∀ p ∈ t.dies, ∀ y ∈ p.2.tlb ++ p.2.stTlb ++ p.2.coTlb, y.coveredBy (mcX e) va lg = false)
    ∧ (∀ (y : TlbEnt) (x : BitVec 3), y.ctx = x → y.coveredBy x none 0 = true)
    ∧ (mcOpc e = 0xC → (mcArg e 2 / 2 ^ 10 ≠ 0 ∨ mcArg e 2 / 2 ^ 2 % 2 ^ 6 ≠ 0 → Completes .wvSet s 1 0 s)
      ∧ (mcArg e 2 / 2 ^ 10 = 0 → mcArg e 2 / 2 ^ 2 % 2 ^ 6 = 0 →
        ((∃ q ∈ s.teams, q.2.die = mcArg e 0 ∧ (tabGet? q.2.wver (mcArg e 1)).isSome = true) → Completes .wvSet s 3 0 s)
        ∧ ((∀ q ∈ s.teams, q.2.die = mcArg e 0 → tabGet? q.2.wver (mcArg e 1) = none) →
          (mcArg e 0 ≤ 3 → mcArg e 2 / 2 ^ 8 = 3 → Completes .wvSet s 2 0 s)
          ∧ (∀ st, mcArg e 0 ≤ 3 → mcArg e 1 ≤ 4095 → mcArg e 3 % 2 ^ 18 = 0 → mcArg e 3 + mcArg e 4 ≤ 2 ^ 31 → st = mcArg e 2 / 2 ^ 8 → st ≤ 2 →
            Completes .wvSet s 0 0 (s.modDie (mcArg e 0) fun d => { d with
              wdir := if st = 0 then tabErase d.wdir (4 * mcArg e 1 + mcArg e 2 % 4)
                else tabSet d.wdir (4 * mcArg e 1 + mcArg e 2 % 4) { st := BitVec.ofNat 2 (st - 1), base := mcArg e 3, len := mcArg e 4 } })))))
    ∧ (mcOpc e = 0x10 → stopResv (mcArg e 1) = true → Completes .stop s 1 0 s)
    ∧ (mcOpc e = 0x10 → stopResv (mcArg e 1) = false → mcCtx e ≤ 7 → (s.ctx (mcCtx e)).live = true → mcArg e 0 ≤ 3 →
      (stopTeam s e = none → Completes .stop s 0 (BitVec.allOnes 64) s)
      ∧ (∀ tm r, stopTeam s e = some tm → tm.stop = some r → exec .stop s = .next { s with
          teams := tabSet s.teams tm.origin { tm with stop := some { r with bySoft := true } }, mc := { s.mc with wait := some (.stop tm.origin) } })
      ∧ (∀ tm, stopTeam s e = some tm → tm.stop = none → stopRoom s tm = none → Completes .stop s 4 0 s)
      ∧ (∀ tm k, stopTeam s e = some tm → tm.stop = none → stopRoom s tm = some k → exec .stop s = .next { s with
          teams := tabSet s.teams tm.origin { tm with stop := some { byRule := false, bySoft := true, slot := k } }
          mc := { s.mc with wait := some (.stop tm.origin) } }))
    ∧ (∀ a, stopResv a = true ↔ if a / 2 ^ 63 % 2 = 1 then a / 2 ^ 8 % 2 ^ 55 ≠ 0 else 2 ^ 24 ≤ a)
    ∧ (mcOpc e = 0x11 → 2 ^ 16 ≤ mcArg e 2 → Completes .resume s 1 0 s)
    ∧ (∀ q x y, mcOpc e = 0x11 → mcCtx e ≤ 7 → (s.ctx (mcCtx e)).live = true → mcArg e 1 ≤ 3 → mcArg e 2 < 2 ^ 16 →
      suspAt s (mcX e) (mcArg e 0) = some q → x = mcArg e 2 % 256 → y = mcArg e 2 / 2 ^ 8 % 256 →
      (s.ownJob (mcCtx e) = false → Completes .resume s 7 0 s)
      ∧ (s.ownJob (mcCtx e) = true → resumeOk s q (mcArg e 1) x y = false → Completes .resume s 6 0 s)
      ∧ ∀ r, r = tableReady (q.placed (mcArg e 1) x y) s → s.ownJob (mcCtx e) = true → resumeOk s q (mcArg e 1) x y = true →
        (r.ok = false → exec .resume s = .next r.st)
        ∧ (r.ok = true → (s.ctx q.team.ctx.toNat).abp = false → recordUe q r.st = false → Gives .resume s fun t => ∃ tm, tabGet? t.teams (coreIndex (mcArg e 1) x y) = some tm ∧ tm.ctx = q.team.ctx ∧ tm.kind = q.team.kind
        ∧ tm.stage = q.team.stage ∧ tm.tag = q.team.tag ∧ tm.step = q.team.step ∧ ∀ i ∈ tm.cores, (t.core i).run = .running))
    ∧ (mcOpc e = 0x12 → mcCtx e ≤ 7 → (s.ctx (mcCtx e)).live = true → Gives .fatal s fun t => (t.ctx (mcCtx e)).abp = true
      ∧ (t.die 0).fseq = (s.die 0).fseq + 1
      ∧ ∀ i k, tabGet? s.cores i = some k → s.coreIn (mcCtx e) i = true → k.run ≠ .double → (t.core i).run = .frozen)
    ∧ (mcOpc e = 0x13 → mcCtx e ≤ 7 → (s.ctx (mcCtx e)).live = true →
      Completes .abortClose s 0 0 (s.modCtx (mcCtx e) fun c => { c with abp := false, adone := false, fatal := false, epGroup := none, heard := [] }))
    ∧ (mcOpc e = 0x14 → mcCtx e ≤ 7 → (s.ctx (mcCtx e)).live = true → s.teams = [] → (∀ d, d < 4 → ∀ q ∈ (s.die d).susp, q.team.recId = none) →
      Gives .discard s fun t => ∀ d, d < 4 → (t.die d).susp = (s.die d).susp.filter fun q => q.team.ctx.toNat != mcCtx e)
    ∧ (mcOpc e = 0x15 → mcArg e 0 ≤ 3 → mcArg e 1 ≤ 255 → (s.die (mcArg e 0)).hasStage (BitVec.ofNat 8 (mcArg e 1)) = false →
      Completes .gzPurge s 0 0 (s.modDie (mcArg e 0) fun d => { d with
        gz := d.gz.filter fun g => !(g.st == .waiting && (keyStage g.key).toNat == mcArg e 1) }))
    ∧ (mcOpc e = 0x16 → mcCtx e ≤ 7 → (s.ctx (mcCtx e)).live = true → mcArg e 0 ≤ 3 → mcArg e 1 ≤ 255 →
      Completes .stashPurge s 0 0 (s.modDie (mcArg e 0) fun d => { d with
        stash := d.stash.filter fun k => !(k.ctx == mcX e && k.stage.toNat == mcArg e 1)
        stages := d.stages.map fun g => if g.num.toNat = mcArg e 1 then { g with due := true } else g }))
    ∧ (mcOpc e = 0x17 → mcCtx e ≤ 7 → (s.ctx (mcCtx e)).live = true →
      Completes .lockPurge s 0 0 { s with l2 := s.l2.map fun l => { l with locks := l.locks.filter (· != mcX e) } })
    ∧ (mcOpc e = 0x18 → mcArg e 0 ≤ 3 → Completes .flogRead s 0 ((s.die (mcArg e 0)).flost.setWidth 64) (hostWrite (mcArg e 3)
      ((((s.die (mcArg e 0)).flog.filter fun r => decide (mcArg e 1 ≤ r.seq.toNat)).take (mcArg e 2)).flatMap (·.bytes)) s))
    ∧ (mcOpc e = 0x19 → mcArg e 0 ≤ 3 → Completes .flogClear s 0 0 (s.modDie (mcArg e 0) fun d => { d with flog := [], flost := 0 }))
    ∧ (∀ r, mcOpc e = 0x1A → mcArg e 0 = 2 ^ 64 - 1 → s.survey.recs.getLast? = some r →
      Completes .surveyRead s 0 (if 65536 ≤ s.survey.recs.length then 1 else 0) (hostWrite (mcArg e 1) r.bytes s))
    ∧ (∀ r, mcOpc e = 0x1A → mcArg e 0 ≠ 2 ^ 64 - 1 → s.survey.recs.find? (fun q => q.seq == mcArg e 0) = some r →
      Completes .surveyRead s 0 (if 65536 ≤ s.survey.recs.length then 1 else 0) (hostWrite (mcArg e 1) r.bytes s))
    ∧ (mcOpc e = 0x1A → (∀ r ∈ s.survey.recs, r.seq ≠ mcArg e 0) → s.survey.recs = [] ∨ mcArg e 0 ≠ 2 ^ 64 - 1 → Completes .surveyRead s 2 0 s)
    ∧ (mcOpc e = 0x1B → ∃ (r : SurveyRec) (u : State), Completes .surveySnapshot s 0 0 (hostWrite (mcArg e 0) r.bytes u)
      ∧ r.kind = 1 ∧ r.seq = s.survey.seq ∧ u.survey.recs = s.survey.recs ∧ u.survey.seq = s.survey.seq)
    ∧ (mcOpc e = 0x20 → mcArg e 0 < 128 → 600 ≤ mcArg e 1 → mcArg e 1 ≤ 3200 → mcArg e 1 % 50 = 0 → ∃ u : State, Completes .islFreq s 0 0 u
      ∧ IslesMove s u ∧ (u.island (mcArg e 0)).req = mcArg e 1
      ∧ (u.island (mcArg e 0)).freq = min (s.island (mcArg e 0)).freq (if (s.island (mcArg e 0)).hot then 600 else min (mcArg e 1) s.cap)
      ∧ ∀ j, j ≠ mcArg e 0 → u.island j = s.island j)
    ∧ (mcOpc e = 0x20 → mcArg e 0 = 2 ^ 64 - 1 → 600 ≤ mcArg e 1 → mcArg e 1 ≤ 3200 → mcArg e 1 % 50 = 0 → ∃ u : State, Completes .islFreq s 0 0 u
      ∧ IslesMove s u ∧ ∀ j, j < 128 → (u.island j).req = mcArg e 1)
    ∧ (mcOpc e = 0x21 → 2000 ≤ mcArg e 0 → mcArg e 0 ≤ 8000 → Completes .plimSet s 0 0 { s with plim := mcArg e 0 })
    ∧ (mcOpc e = 0x23 → mcArg e 0 ≤ 13 → ((s.port (mcArg e 0)).down = false → Completes .linkReset s 0 0 s)
      ∧ ((s.port (mcArg e 0)).down = true → ∃ u : State, Completes .linkReset s 0 0 u ∧ OnlyPorts s u ∧ (u.port (mcArg e 0)).retrain = true
        ∧ (u.port (mcArg e 0)).down = false))
    ∧ (mcOpc e = 0x30 → Gives .moduleReset s fun t => WipesModule s t ∧ t.mc = { s.mc with wait := some .reset, boot := some 1, failed := none }))
    ∧ (∀ s : State, s.mc.wait = some .reset → Gives .moduleReset s fun t =>
      WipesModule s t ∧ t.mc = { s.mc with boot := some 1, failed := none })
    ∧ (∀ (x : CtxId) (y : BitVec 3) (va : Option Nat) (lg : Nat) (s : State), s.mc.wait = some (.inval y va lg) → y.toNat = x.val →
      s.home = [] → s.scHeld = [] → (∀ p ∈ s.cores, s.coreIn x p.1 = false) → Completes (.tlbInvalComplete x) s 0 0 s)
    ∧ PortSets 1 6 .portSetRingMode (fun e => mcArg e 2 ≤ 1) (fun e p => { p with wide := decide (mcArg e 2 = 1) })
    ∧ PortSets 2 6 .portSetUdpPort (fun e => mcArg e 2 ≤ 65535) (fun e p => { p with udp := BitVec.ofNat 64 (mcArg e 2) })
    ∧ PortSets 3 6 .portSetRttTimer (fun e => mcArg e 2 ≤ 1000000) (fun e p => { p with rtt := BitVec.ofNat 64 (mcArg e 2) })
    ∧ PortSets 4 0 .portSetRekeyInterval (fun e => 1 ≤ mcArg e 2 ∧ mcArg e 2 ≤ 2 ^ 32) (fun e p => { p with interval := BitVec.ofNat 64 (mcArg e 2) })
    ∧ PortSets 5 6 .portSetOverflowStaging (fun e => mcArg e 3 ≤ 2 ^ 32 ∧ mcArg e 2 + mcArg e 3 ≤ 0x6000000000)
      (fun e p => { p with ovBase := BitVec.ofNat 64 (mcArg e 2), ovSize := BitVec.ofNat 64 (mcArg e 3) })
    ∧ PortSets 6 0 .portSetHeartbeat (fun e => 1 ≤ mcArg e 2 ∧ mcArg e 2 ≤ 60) (fun e p => { p with hbeat := BitVec.ofNat 64 (mcArg e 2) })

/-- R16, R49, R50, R53, R94 to R101: fields written out from the tables decode to the operations that they stand for: `br` by -2, `wait.lt k2,
5`, `add.i64 sq0, g3`, `ld.i32 g2, [g4+8]`, `amo.cas.acq [sq1]` returning in g6, `mov g5, 7`; `fma.f32 vq0, v2`, `vst [g1]`, `perm v3,
tq1` and `cvt.e4m3.f32.sr.sat vq2`; `mma.f16 ac9, ob17, ob3`, `ato.i8.rz.sat ob4, ac63`; `cp.nest sq1`, `cb.await cb3, g2`, `k.add k7,
sq4`; `send ch2, tq1` and `recv v31, ch10`. -/
def Obligations.DecodeTableWords : Prop :=
  decodeField false 0 0xFFFE01 false = .ok (.br 0xFFFE)
    ∧ decodeField false 0 0x850210 false = .ok (.waitLt 2 (.imm 5))
    ∧ decodeField false 1 0x130008 false = .ok (.addI64 (.sq 0) (.g 3))
    ∧ decodeField false 1 0x8814B2 true = .ok (.ldI32 2 (.g 4) (.imm 8) true)
    ∧ decodeField false 1 0x160165 false = .ok (.amoCas .acq (.sq 1) (some 6))
    ∧ decodeField false 1 0x0087F5 false = .ok (.movG 5 (.imm 7))
    ∧ decodeField false 2 0x12000A false = .ok (.fmaF32 .v0 (.vq 0) (.v 2))
    ∧ decodeField false 3 0x5D41D2 false = .ok (.vst .v1 (.g 1) .zero false)
    ∧ decodeField false 2 0x61134F false = .ok (.perm .v0 (.v 3) (.tq 1))
    ∧ decodeField false 3 0x0C0238 false = .ok (.cvtE4m3F32Mode .v1 (.vq 2) .sr true)
    ∧ decodeField false 4 0x310946 false = .ok (.mma .f16 9 17 3)
    ∧ decodeField false 4 0x443FAF false = .ok (.ato .i8 .rz true 4 63)
    ∧ decodeField false 5 0x008101 false = .ok (.cpNest .c0 (.sq 1))
    ∧ decodeField false 6 0x92730A false = .ok (.cbAwait .c1 3 (.g 2))
    ∧ decodeField false 5 0x846719 false = .ok (.kAdd .c0 7 (.sq 4))
    ∧ decodeField false 7 0x313601 false = .ok (.send 2 (.tq 1))
    ∧ decodeField false 7 0x003E5F false = .ok (.recvV 31 10)

/-- R16, R92 to R101: the encoding of every well-formed slot operation decodes to it, with every operand at every value; and every field that
a slot accepts stands for a well-formed operation, which has an encoding in that slot. Where it rests on a choice of the model: log entry
86. -/
def Obligations.EncodeDecode : Prop :=
  (∀ i : Instr, RoundTrip i)
    ∧ (∀ (tm : Bool) (slot : Nat) (f : BitVec 24) (inc : Bool) (i : Instr), slot < 8 → decodeField tm slot f inc = .ok i →
      i.wf = true ∧ ∃ g, encode i = some (slot, g))

/-- R14, R20, R24, R26, R32, R33, R37, R340, R349, R416: a step runs the instruction at the program counter. Where the bytes there are a
bundle of one slot `n` that holds the instruction `i`, the step is the meaning of `i`, tried first and then issued: a slot that traps
leaves its trap, one that waits for its acceptance keeps the turn's end open, and one that commits ends its group and, with it, the
bundle. A slot that is held leaves the core where it was, but for what it has asked for and the cycle it counts; held for an operand
alone, it counts a shortfall or traps. A bundle whose page or line is not there yet is waited for, and one that cannot be fetched or
decoded traps. Before the core moves, a context one of whose lines could not be written back is contained, and an event that has been
called for takes its step. Where it rests on choices of the model: log entries 1, 4, 17, 20, 53 and 85. -/
def Obligations.StepRunsDecoded : Prop :=
  (∀ (s f v : State) (l : List Byte) (d : Decoded) (n : Nat) (i : Instr), AboutToFetch s → fetchNow s s.cur = (.bytes l, v) →
    codeUe v s.cur s.me.pc l.length = false → decodeBundle s.me.tm s.me.hist l = .ok d → d.groups = [[(n, i)]] →
    f = fetchedState v (some (bundleOf d s.me.pc d.groups)) → ∀ u t : State, exec i (trying f) = .next u →
    (u.me.held = {} → exec i (issuedState n i f) = .next t →
      (t.me.bun = none → step s = .next (settle (completeBundle (endGroup s.cur s.me.grpSys t))))
      ∧ (t.me.bun ≠ none → t.me.defer ≠ none → step s = .next (settle (completeBundle (t.upd fun c => { c with rest := [], gzGrant := false }))))
      ∧ (t.me.bun ≠ none → t.me.defer = none → step s = .next (settle (completeBundle (finishGroup t)))))
    ∧ (u.me.held.other = true → step s = .next (settle (completeBundle (u.upd fun c =>
        { c.tick with grpStash := 0, gzGrant := false, held := { queue := u.me.held.queue, other := true } }))))
    ∧ (u.me.held.other = false → u.me.held.queue = true → s.me.sct = false → step s = .next (settle (completeBundle (u.upd fun c =>
        { c.shortfall.tick with grpStash := 0, gzGrant := false, held := { queue := true } }))))
    ∧ (u.me.held.other = false → u.me.held.queue = true → s.me.sct = true → step s = .next (settle (completeBundle
        (takeTrap s.cur { cls := 2, code := 1 } n s.me.pc true n ((trying f).upd Core.shortfall))))))
    ∧ (∀ (s v : State) (x : TFault), AboutToFetch s → fetchNow s s.cur = (.fault x, v) →
      step s = .next (passTurn (takeTrap s.cur (transTrap 4 x s.me.pc) 0 s.me.pc (!s.me.redir) 0 v)))
    ∧ (∀ (s v : State) (w : ReadWait), AboutToFetch s → fetchNow s s.cur = (.waits w, v) →
      step s = .next (passTurn ((askFor (s.team s.cur).ctx w v).upd Core.tick)))
    ∧ (∀ (s v : State) (l : List Byte), AboutToFetch s → fetchNow s s.cur = (.bytes l, v) → codeUe v s.cur s.me.pc l.length = true →
      step s = .next (passTurn (takeTrap s.cur { cls := 0xB, code := 0x02, faddr := s.me.pc } 0 s.me.pc true 0 v)))
    ∧ (∀ (s v : State) (l : List Byte) (code : BitVec 8) (n : Nat), AboutToFetch s → fetchNow s s.cur = (.bytes l, v) →
      codeUe v s.cur s.me.pc l.length = false → decodeBundle s.me.tm s.me.hist l = .error (.illegal code n) →
      step s = .next (passTurn (takeTrap s.cur { cls := 1, code := code } n s.me.pc true 0 (fetchedState v none))))
    ∧ (∀ (s : State) (e : Event) (l : List Event), s.lostLines = [] → s.agenda = e :: l → step s = runEvent e { s with agenda := l })
    ∧ (∀ (s : State) (p : BitVec 3 × Nat) (l : List (BitVec 3 × Nat)), s.lostLines = p :: l → step s = .next (containLine p.1 p.2 s))

/-- R9, R56 to R58, R75, R76, R118, R169, R174, R184, R190, R204, R206, R278, R279, R303, R322, R414, R417: what module reset leaves where the
spec gives a value. SEED holds 1; the other state words of the program hold 0; every completion counter reads 0; every operand slot is
FREE, every tile unpinned and every tile queue empty; no team runs, no context exists, every fault log is empty with its number 0, and
memory lists nothing. -/
def Obligations.ResetState : Prop :=
  (∀ i, i < 512 → sysWord State.reset i 7 = 1 ∧ sysWord State.reset i 6 = coreWord i
      ∧ (∀ w, w ∈ [0, 1, 5, 8, 9, 10, 11, 12, 13, 14, 15, 16, 17, 18, 19, 20, 21, 22, 23, 24, 25, 26, 27, 28, 29, 30, 31, 43, 44, 45, 46, 48, 49, 51,
          53, 54, 55] → sysWord State.reset i w = 0)
      ∧ (∀ k : Fin 16, (State.reset.core i).getK k = 0) ∧ (∀ n : Fin 32, ((State.reset.core i).obs n).st = .free)
      ∧ (∀ n : Fin 64, ((State.reset.core i).tile n).pin = false) ∧ (∀ q : Fin 4, ((State.reset.core i).tq q).rows = [])
      ∧ (State.reset.core i).run = .idle)
    ∧ State.reset.teams = [] ∧ (∀ x, x < 8 → (State.reset.ctx x).live = false)
    ∧ (∀ d, d < 4 → (State.reset.die d).flog = [] ∧ (State.reset.die d).fseq = 0 ∧ (State.reset.die d).flost = 0)
    ∧ State.reset.mem = [] ∧ Memory.wf State.reset.mem = true ∧ StoresOk State.reset

/-- R56, R57, R354, R355: taking a trap, for every cause: CAUSE, EPC, FADDR, SRES, RSM, QAS, QAV and, with RSM set, a pending effect of slot B
are saved; the core enters its handler at TVEC.BASE + 64 * class with an invalid history; its registers stay. R45, R117: the handler's
queues are ready and zero, and its loop is inactive; its latches stay. R356: in a handler, or with TVEC.EN clear, it is a double trap: the
core stops, DCAUSE receives the cause, the die's fault log its record, and CAUSE, EPC, FADDR and the bits of CSTAT keep what they hold.
Where it rests on choices of the model: log entries 18 and 21. -/
def Obligations.Traps : Prop :=
  ∀ (i : Nat) (t : Trap) (slot : Nat) (epc : Word) (rsm : Bool) (sres : Nat) (s : State),
    ((s.core i).regUe = false → (s.core i).tm = false → tvecEn (s.core i).tvec = true → ∃ u : State, u = takeTrap i t slot epc rsm sres s
      ∧ u = { s with cores := tabSet s.cores i (u.core i), fresh := u.fresh }
      ∧ (slot < 16 → (u.core i).cause = (t.info.setWidth 64 <<< 32) ||| (t.cls.setWidth 64 <<< 12) ||| (BitVec.ofNat 64 slot <<< 8)
          ||| t.code.setWidth 64)
      ∧ (u.core i).epc = epc ∧ (u.core i).faddr = t.faddr ∧ (u.core i).sres = BitVec.ofNat 3 sres ∧ (u.core i).rsm = rsm
      ∧ (u.core i).qas = BitVec.ofNat 3 (s.core i).grpSq ∧ (u.core i).qav = BitVec.ofNat 2 (s.core i).grpVq
      ∧ (rsm = true → ((s.core i).pend = none → (u.core i).prd = false ∧ (u.core i).pkind = 0)
        ∧ ∀ p, (s.core i).pend = some p → (u.core i).prd = true ∧ (u.core i).pkind = p.kind ∧ (u.core i).ptgt = p.arg)
      ∧ (rsm = false → (u.core i).prd = false ∧ (u.core i).pkind = 0)
      ∧ (u.core i).hand.sq.length = 24 ∧ (∀ q ∈ (u.core i).hand.sq, q.val = 0 ∧ q.ready = true)
      ∧ (u.core i).hand.vq.length = 18 ∧ (∀ q ∈ (u.core i).hand.vq, q.val = 0 ∧ q.ready = true)
      ∧ (u.core i).hand.lp = { rem := 0, act := false, pos := 0, start := 0 } ∧ (u.core i).hand.lat = (s.core i).hand.lat
      ∧ (u.core i).tm = true ∧ (u.core i).hist = List.replicate 8 none ∧ (u.core i).savedHist = (s.core i).hist
      ∧ (u.core i).pc = ((s.core i).tvec &&& 0x0000FFFFFFFFFFC0) + 64 * t.cls.setWidth 64
      ∧ (u.core i).prog = (s.core i).prog ∧ (u.core i).bun = none ∧ (u.core i).defer = none ∧ (u.core i).pend = none
      ∧ (u.core i).g = (s.core i).g ∧ (u.core i).v = (s.core i).v ∧ (u.core i).p = (s.core i).p ∧ (u.core i).sp = (s.core i).sp
      ∧ (u.core i).tvec = (s.core i).tvec ∧ (u.core i).seed = (s.core i).seed ∧ (u.core i).run = (s.core i).run)
    ∧ ((s.core i).regUe = false → (s.core i).tm = true ∨ tvecEn (s.core i).tvec = false → ∀ u, u = takeTrap i t slot epc rsm sres s →
      (u.core i).run = .double ∧ (u.core i).dcause = causeWord t slot ∧ (u.core i).cause = (s.core i).cause ∧ (u.core i).epc = (s.core i).epc
        ∧ (u.core i).faddr = (s.core i).faddr ∧ (u.core i).tm = (s.core i).tm ∧ (u.core i).sres = (s.core i).sres
        ∧ (u.core i).rsm = (s.core i).rsm ∧ (u.core i).qas = (s.core i).qas ∧ (u.core i).qav = (s.core i).qav
        ∧ (u.core i).prd = (s.core i).prd ∧ (u.core i).pkind = (s.core i).pkind ∧ (u.core i).pc = (s.core i).pc
        ∧ (u.ctx (s.team i).ctx.toNat).abp = true
        ∧ (u.die (coreDie i)).fseq = (s.die (coreDie i)).fseq + 1
        ∧ ((s.die (coreDie i)).flog.length < 1024 → ∃ r, (u.die (coreDie i)).flog = (s.die (coreDie i)).flog ++ [r] ∧ r.src = 0
          ∧ r.unit = BitVec.ofNat 16 i ∧ r.cause = (causeWord t slot).setWidth 16 ∧ r.info = t.info ∧ r.addr = t.faddr
          ∧ r.seq = (s.die (coreDie i)).fseq ∧ r.time = BitVec.ofNat 64 s.meshCyc ∧ r.flags.getLsbD 0 = true)
        ∧ ∀ j, j ≠ i → s.coreIn (s.team i).ctx.toNat j = true → (tabGet? s.cores j).isSome = true → (s.core j).run ≠ .double →
          (u.core j).run = .frozen)
    ∧ ((s.core i).regUe = true → ∀ u, u = takeTrap i t slot epc rsm sres s → (u.ctx (s.team i).ctx.toNat).abp = true
        ∧ (u.core i).tm = (s.core i).tm ∧ (u.core i).pc = (s.core i).pc
        ∧ ∀ j, s.coreIn (s.team i).ctx.toNat j = true → (tabGet? s.cores j).isSome = true → (s.core j).run ≠ .double →
          (u.core j).run = .frozen)

/-- Every step keeps memory in its canonical form: addresses strictly rising, so that equal memories are equal data; and so it keeps every
scratchpad, every weight store, the host's memory and the staging window. Where it rests on choices of the model: log entries 8 and 13. -/
def Obligations.MemoryStaysCanonical : Prop :=
  (∀ s t : State, Memory.wf s.mem = true → step s = .next t → Memory.wf t.mem = true)
    ∧ (∀ s t : State, StoresOk s → step s = .next t → StoresOk t)
end

