-- ==== Sys2Proof/Laws/Tab.lean ====
section
/-! SUPPORT. Tables and memories: reading after writing, and that every operation keeps the canonical form. -/
namespace Sys2Proof.Machine

/-! ### Reading after writing -/

@[simp] theorem tabGet?_nil {α : Type} (n : Nat) : tabGet? ([] : Tab α) n = none := rfl

@[simp] theorem tabGet?_set_self {α : Type} (t : Tab α) (n : Nat) (v : α) : tabGet? (tabSet t n v) n = some v := by
  induction t with
  | nil => simp [tabSet, tabGet?]
  | cons p t ih =>
    obtain ⟨k, w⟩ := p
    simp only [tabSet]
    split
    · simp [tabGet?]
    · split
      · simp [tabGet?]
      · simp only [tabGet?]
        rw [if_neg (by assumption), if_neg (by omega), ih]

theorem tabGet?_set_ne {α : Type} (t : Tab α) (n m : Nat) (v : α) (h : m ≠ n) :
    tabGet? (tabSet t n v) m = tabGet? t m := by
  induction t with
  | nil => simp [tabSet, tabGet?]; omega
  | cons p t ih =>
    obtain ⟨k, w⟩ := p
    simp only [tabSet]
    split
    · simp only [tabGet?]
      rw [if_neg (by omega)]
      by_cases hm : m < n
      · rw [if_pos hm, if_neg (by omega), if_pos (by omega)]
      · rw [if_neg hm]
    · split
      · subst_vars
        simp [tabGet?, Ne.symm h]
      · simp only [tabGet?, ih]

@[simp] theorem tabGet_set_self {α : Type} (d : α) (t : Tab α) (n : Nat) (v : α) : tabGet d (tabSet t n v) n = v := by
  simp [tabGet]

theorem tabGet_set_ne {α : Type} (d : α) (t : Tab α) (n m : Nat) (v : α) (h : m ≠ n) :
    tabGet d (tabSet t n v) m = tabGet d t m := by
  simp [tabGet, tabGet?_set_ne t n m v h]

/-- A table after a write, read anywhere. -/
theorem tabGet_set {α : Type} (d : α) (t : Tab α) (n m : Nat) (v : α) :
    tabGet d (tabSet t n v) m = if m = n then v else tabGet d t m := by
  split
  · subst_vars; simp
  · exact tabGet_set_ne d t n m v (by assumption)

@[simp] theorem tabGet_mod_self {α : Type} (d : α) (t : Tab α) (n : Nat) (f : α → α) :
    tabGet d (tabMod d t n f) n = f (tabGet d t n) := by simp [tabMod]

theorem tabGet_mod_ne {α : Type} (d : α) (t : Tab α) (n m : Nat) (f : α → α) (h : m ≠ n) :
    tabGet d (tabMod d t n f) m = tabGet d t m := tabGet_set_ne _ _ _ _ _ h

/-- Writing a table twice at one place is writing it once. -/
@[simp] theorem tabSet_set {α : Type} (t : Tab α) (n : Nat) (v w : α) : tabSet (tabSet t n v) n w = tabSet t n w := by
  induction t with
  | nil => simp [tabSet]
  | cons p t ih =>
    obtain ⟨k, x⟩ := p
    simp only [tabSet]
    split
    · simp [tabSet]
    · split
      · simp [tabSet]
      · simp only [tabSet]
        rw [if_neg (by assumption), if_neg (by assumption), ih]

/-! ### The canonical form -/

theorem keysFrom_le {α : Type} {lo lo' : Nat} (h : lo' ≤ lo) : ∀ {t : Tab α}, keysFrom lo t = true → keysFrom lo' t = true
  | [], _ => rfl
  | (k, _) :: t, hk => by
    simp only [keysFrom, Bool.and_eq_true, decide_eq_true_eq] at hk ⊢
    exact ⟨by omega, hk.2⟩

theorem keysFrom_set {α : Type} {lo n : Nat} {v : α} (h : lo ≤ n) :
    ∀ {t : Tab α}, keysFrom lo t = true → keysFrom lo (tabSet t n v) = true
  | [], _ => by simp [tabSet, keysFrom, h]
  | (k, w) :: t, hk => by
    simp only [keysFrom, Bool.and_eq_true, decide_eq_true_eq] at hk
    simp only [tabSet]
    split
    · simp only [keysFrom, Bool.and_eq_true, decide_eq_true_eq]
      exact ⟨h, by omega, hk.2⟩
    · split
      · subst_vars
        simp only [keysFrom, Bool.and_eq_true, decide_eq_true_eq]
        exact ⟨h, hk.2⟩
      · simp only [keysFrom, Bool.and_eq_true, decide_eq_true_eq]
        exact ⟨hk.1, keysFrom_set (by omega) hk.2⟩

theorem keysFrom_erase {α : Type} {lo n : Nat} : ∀ {t : Tab α}, keysFrom lo t = true → keysFrom lo (tabErase t n) = true
  | [], _ => rfl
  | (k, w) :: t, hk => by
    simp only [tabErase]
    split
    · exact hk
    · simp only [keysFrom, Bool.and_eq_true, decide_eq_true_eq] at hk
      split
      · exact keysFrom_le (by omega) hk.2
      · simp only [keysFrom, Bool.and_eq_true, decide_eq_true_eq]
        exact ⟨hk.1, keysFrom_erase hk.2⟩

theorem keysFrom_filter {α : Type} {p : Nat × α → Bool} :
    ∀ {lo : Nat} {t : Tab α}, keysFrom lo t = true → keysFrom lo (t.filter p) = true
  | _, [], _ => rfl
  | lo, (k, w) :: t, hk => by
    simp only [keysFrom, Bool.and_eq_true, decide_eq_true_eq] at hk
    simp only [List.filter]
    split
    · simp only [keysFrom, Bool.and_eq_true, decide_eq_true_eq]
      exact ⟨hk.1, keysFrom_filter hk.2⟩
    · exact keysFrom_le (by omega) (keysFrom_filter hk.2)

theorem Memory.wf_nil : Memory.wf [] = true := rfl

theorem Memory.wf_put {m : Mem} (h : Memory.wf m = true) (a : Nat) (b : Byte) : Memory.wf (memPut m a b) = true :=
  keysFrom_set (Nat.zero_le _) h

theorem Memory.wf_write {bs : List Byte} : ∀ {m : Mem} {a : Nat}, Memory.wf m = true → Memory.wf (memWrite m a bs) = true := by
  induction bs with
  | nil => intro m a h; exact h
  | cons b bs ih => intro m a h; exact ih (Memory.wf_put h a b)

theorem Memory.wf_erase {m : Mem} (h : Memory.wf m = true) (a : Nat) : Memory.wf (tabErase m a) = true := keysFrom_erase h

theorem Memory.wf_restore {m : Mem} (h : Memory.wf m = true) (a : Nat) (b : Option Byte) : Memory.wf (memRestore m a b) = true := by
  cases b with
  | none => exact Memory.wf_erase h a
  | some b => exact Memory.wf_put h a b

theorem Memory.wf_filter {m : Mem} (h : Memory.wf m = true) (p : Nat × Byte → Bool) : Memory.wf (m.filter p) = true :=
  keysFrom_filter h

/-! ### Memories byte by byte -/

@[simp] theorem memByte_put_self (m : Mem) (a : Nat) (b : Byte) : memByte (memPut m a b) a = some b := tabGet?_set_self m a b

theorem memByte_put_ne (m : Mem) (a x : Nat) (b : Byte) (h : x ≠ a) : memByte (memPut m a b) x = memByte m x :=
  tabGet?_set_ne m a x b h

/-- A write leaves every byte outside it alone. -/
theorem memByte_write_other : ∀ (bs : List Byte) (m : Mem) (a x : Nat), (x < a ∨ a + bs.length ≤ x) →
    memByte (memWrite m a bs) x = memByte m x
  | [], _, _, _, _ => rfl
  | b :: bs, m, a, x, h => by
    simp only [List.length_cons] at h
    rw [memWrite, memByte_write_other bs _ _ _ (by omega), memByte_put_ne _ _ _ _ (by omega)]

/-- A byte inside a write reads as what was written. -/
theorem memByte_write_inside : ∀ (bs : List Byte) (m : Mem) (a k : Nat) (h : k < bs.length),
    memByte (memWrite m a bs) (a + k) = some bs[k]
  | b :: bs, m, a, 0, _ => by
    rw [memWrite, memByte_write_other bs _ _ _ (by omega)]; simp
  | b :: bs, m, a, k + 1, h => by
    rw [memWrite, show a + (k + 1) = a + 1 + k by omega, memByte_write_inside bs _ _ k (by simpa using h)]; rfl

/-! ### Numbers and bytes -/

theorem length_rangeFrom : ∀ (n a : Nat), (rangeFrom a n).length = n
  | 0, _ => rfl
  | n + 1, a => by simp [rangeFrom, length_rangeFrom n]

theorem getElem_rangeFrom : ∀ (n a k : Nat) (h : k < (rangeFrom a n).length), (rangeFrom a n)[k] = a + k
  | 0, _, _, h => by simp [rangeFrom] at h
  | n + 1, a, 0, _ => rfl
  | n + 1, a, k + 1, h => by
    simp only [rangeFrom, List.getElem_cons_succ]
    rw [getElem_rangeFrom n (a + 1) k (by simpa [rangeFrom] using h)]; omega

theorem mem_rangeFrom {n a x : Nat} : x ∈ rangeFrom a n ↔ a ≤ x ∧ x < a + n := by
  induction n generalizing a with
  | zero => simp only [rangeFrom, List.not_mem_nil, false_iff]; omega
  | succ n ih => simp only [rangeFrom, List.mem_cons, ih]; omega

theorem length_natBytes : ∀ (n x : Nat), (natBytes n x).length = n
  | 0, _ => rfl
  | n + 1, x => by simp [natBytes, length_natBytes n]

/-- The bytes of a number give the number back, modulo their size. -/
theorem bytesNat_natBytes : ∀ (n x : Nat), bytesNat (natBytes n x) = x % 256 ^ n
  | 0, x => by simp [natBytes, bytesNat, Nat.mod_one]
  | n + 1, x => by
    have h : x % 256 ^ (n + 1) = x % 256 + 256 * (x / 256 % 256 ^ n) := by
      rw [Nat.pow_succ, Nat.mul_comm (256 ^ n) 256, Nat.mod_mul]
    simpa [natBytes, bytesNat, bytesNat_natBytes n] using h.symm

end Sys2Proof.Machine
end

