-- ==== Sys2Proof/Laws/State.lean ====
section
/-! SUPPORT. What each update of the state leaves alone, one lemma per field, and what it gives back where it was made. -/
namespace Sys2Proof.Machine

/-! ### The module -/

@[simp] theorem State.setCore_agenda (s : State) (i : Nat) (c : Core) : (s.setCore i c).agenda = s.agenda := rfl
@[simp] theorem State.setCore_cur (s : State) (i : Nat) (c : Core) : (s.setCore i c).cur = s.cur := rfl
@[simp] theorem State.setCore_rounds (s : State) (i : Nat) (c : Core) : (s.setCore i c).rounds = s.rounds := rfl
@[simp] theorem State.setCore_fresh (s : State) (i : Nat) (c : Core) : (s.setCore i c).fresh = s.fresh := rfl
@[simp] theorem State.setCore_era (s : State) (i : Nat) (c : Core) : (s.setCore i c).era = s.era := rfl
@[simp] theorem State.setCore_teams (s : State) (i : Nat) (c : Core) : (s.setCore i c).teams = s.teams := rfl
@[simp] theorem State.setCore_ctxs (s : State) (i : Nat) (c : Core) : (s.setCore i c).ctxs = s.ctxs := rfl
@[simp] theorem State.setCore_dies (s : State) (i : Nat) (c : Core) : (s.setCore i c).dies = s.dies := rfl
@[simp] theorem State.setCore_mem (s : State) (i : Nat) (c : Core) : (s.setCore i c).mem = s.mem := rfl
@[simp] theorem State.setCore_keys (s : State) (i : Nat) (c : Core) : (s.setCore i c).keys = s.keys := rfl
@[simp] theorem State.setCore_ueLines (s : State) (i : Nat) (c : Core) : (s.setCore i c).ueLines = s.ueLines := rfl
@[simp] theorem State.setCore_lostLines (s : State) (i : Nat) (c : Core) : (s.setCore i c).lostLines = s.lostLines := rfl
@[simp] theorem State.setCore_dmaWins (s : State) (i : Nat) (c : Core) : (s.setCore i c).dmaWins = s.dmaWins := rfl
@[simp] theorem State.setCore_l2 (s : State) (i : Nat) (c : Core) : (s.setCore i c).l2 = s.l2 := rfl
@[simp] theorem State.setCore_prefs (s : State) (i : Nat) (c : Core) : (s.setCore i c).prefs = s.prefs := rfl
@[simp] theorem State.setCore_fwins (s : State) (i : Nat) (c : Core) : (s.setCore i c).fwins = s.fwins := rfl
@[simp] theorem State.setCore_home (s : State) (i : Nat) (c : Core) : (s.setCore i c).home = s.home := rfl
@[simp] theorem State.setCore_scHeld (s : State) (i : Nat) (c : Core) : (s.setCore i c).scHeld = s.scHeld := rfl
@[simp] theorem State.setCore_scLast (s : State) (i : Nat) (c : Core) : (s.setCore i c).scLast = s.scLast := rfl
@[simp] theorem State.setCore_relClk (s : State) (i : Nat) (c : Core) : (s.setCore i c).relClk = s.relClk := rfl
@[simp] theorem State.setCore_horizon (s : State) (i : Nat) (c : Core) : (s.setCore i c).horizon = s.horizon := rfl
@[simp] theorem State.setCore_meshCyc (s : State) (i : Nat) (c : Core) : (s.setCore i c).meshCyc = s.meshCyc := rfl
@[simp] theorem State.setCore_binds (s : State) (i : Nat) (c : Core) : (s.setCore i c).binds = s.binds := rfl
@[simp] theorem State.setCore_bindNext (s : State) (i : Nat) (c : Core) : (s.setCore i c).bindNext = s.bindNext := rfl
@[simp] theorem State.setCore_ports (s : State) (i : Nat) (c : Core) : (s.setCore i c).ports = s.ports := rfl
@[simp] theorem State.setCore_outbox (s : State) (i : Nat) (c : Core) : (s.setCore i c).outbox = s.outbox := rfl
@[simp] theorem State.setCore_tokens (s : State) (i : Nat) (c : Core) : (s.setCore i c).tokens = s.tokens := rfl
@[simp] theorem State.setCore_cart (s : State) (i : Nat) (c : Core) : (s.setCore i c).cart = s.cart := rfl
@[simp] theorem State.setCore_isles (s : State) (i : Nat) (c : Core) : (s.setCore i c).isles = s.isles := rfl
@[simp] theorem State.setCore_cap (s : State) (i : Nat) (c : Core) : (s.setCore i c).cap = s.cap := rfl
@[simp] theorem State.setCore_plim (s : State) (i : Nat) (c : Core) : (s.setCore i c).plim = s.plim := rfl
@[simp] theorem State.setCore_rail (s : State) (i : Nat) (c : Core) : (s.setCore i c).rail = s.rail := rfl
@[simp] theorem State.setCore_tripped (s : State) (i : Nat) (c : Core) : (s.setCore i c).tripped = s.tripped := rfl
@[simp] theorem State.setCore_ready (s : State) (i : Nat) (c : Core) : (s.setCore i c).ready = s.ready := rfl
@[simp] theorem State.setCore_survey (s : State) (i : Nat) (c : Core) : (s.setCore i c).survey = s.survey := rfl
@[simp] theorem State.setCore_mc (s : State) (i : Nat) (c : Core) : (s.setCore i c).mc = s.mc := rfl
@[simp] theorem State.setCore_hostMem (s : State) (i : Nat) (c : Core) : (s.setCore i c).hostMem = s.hostMem := rfl
@[simp] theorem State.setCore_hostReads (s : State) (i : Nat) (c : Core) : (s.setCore i c).hostReads = s.hostReads := rfl
@[simp] theorem State.setCore_msis (s : State) (i : Nat) (c : Core) : (s.setCore i c).msis = s.msis := rfl
@[simp] theorem State.setCore_rotation (s : State) (i : Nat) (c : Core) : (s.setCore i c).rotation = s.rotation := rfl
@[simp] theorem State.setCore_slotNs (s : State) (i : Nat) (c : Core) : (s.setCore i c).slotNs = s.slotNs := rfl
@[simp] theorem State.modCore_agenda (s : State) (i : Nat) (f : Core → Core) : (s.modCore i f).agenda = s.agenda := rfl
@[simp] theorem State.modCore_cur (s : State) (i : Nat) (f : Core → Core) : (s.modCore i f).cur = s.cur := rfl
@[simp] theorem State.modCore_rounds (s : State) (i : Nat) (f : Core → Core) : (s.modCore i f).rounds = s.rounds := rfl
@[simp] theorem State.modCore_fresh (s : State) (i : Nat) (f : Core → Core) : (s.modCore i f).fresh = s.fresh := rfl
@[simp] theorem State.modCore_era (s : State) (i : Nat) (f : Core → Core) : (s.modCore i f).era = s.era := rfl
@[simp] theorem State.modCore_teams (s : State) (i : Nat) (f : Core → Core) : (s.modCore i f).teams = s.teams := rfl
@[simp] theorem State.modCore_ctxs (s : State) (i : Nat) (f : Core → Core) : (s.modCore i f).ctxs = s.ctxs := rfl
@[simp] theorem State.modCore_dies (s : State) (i : Nat) (f : Core → Core) : (s.modCore i f).dies = s.dies := rfl
@[simp] theorem State.modCore_mem (s : State) (i : Nat) (f : Core → Core) : (s.modCore i f).mem = s.mem := rfl
@[simp] theorem State.modCore_keys (s : State) (i : Nat) (f : Core → Core) : (s.modCore i f).keys = s.keys := rfl
@[simp] theorem State.modCore_ueLines (s : State) (i : Nat) (f : Core → Core) : (s.modCore i f).ueLines = s.ueLines := rfl
@[simp] theorem State.modCore_lostLines (s : State) (i : Nat) (f : Core → Core) : (s.modCore i f).lostLines = s.lostLines := rfl
@[simp] theorem State.modCore_dmaWins (s : State) (i : Nat) (f : Core → Core) : (s.modCore i f).dmaWins = s.dmaWins := rfl
@[simp] theorem State.modCore_l2 (s : State) (i : Nat) (f : Core → Core) : (s.modCore i f).l2 = s.l2 := rfl
@[simp] theorem State.modCore_prefs (s : State) (i : Nat) (f : Core → Core) : (s.modCore i f).prefs = s.prefs := rfl
@[simp] theorem State.modCore_fwins (s : State) (i : Nat) (f : Core → Core) : (s.modCore i f).fwins = s.fwins := rfl
@[simp] theorem State.modCore_home (s : State) (i : Nat) (f : Core → Core) : (s.modCore i f).home = s.home := rfl
@[simp] theorem State.modCore_scHeld (s : State) (i : Nat) (f : Core → Core) : (s.modCore i f).scHeld = s.scHeld := rfl
@[simp] theorem State.modCore_scLast (s : State) (i : Nat) (f : Core → Core) : (s.modCore i f).scLast = s.scLast := rfl
@[simp] theorem State.modCore_relClk (s : State) (i : Nat) (f : Core → Core) : (s.modCore i f).relClk = s.relClk := rfl
@[simp] theorem State.modCore_horizon (s : State) (i : Nat) (f : Core → Core) : (s.modCore i f).horizon = s.horizon := rfl
@[simp] theorem State.modCore_meshCyc (s : State) (i : Nat) (f : Core → Core) : (s.modCore i f).meshCyc = s.meshCyc := rfl
@[simp] theorem State.modCore_binds (s : State) (i : Nat) (f : Core → Core) : (s.modCore i f).binds = s.binds := rfl
@[simp] theorem State.modCore_bindNext (s : State) (i : Nat) (f : Core → Core) : (s.modCore i f).bindNext = s.bindNext := rfl
@[simp] theorem State.modCore_ports (s : State) (i : Nat) (f : Core → Core) : (s.modCore i f).ports = s.ports := rfl
@[simp] theorem State.modCore_outbox (s : State) (i : Nat) (f : Core → Core) : (s.modCore i f).outbox = s.outbox := rfl
@[simp] theorem State.modCore_tokens (s : State) (i : Nat) (f : Core → Core) : (s.modCore i f).tokens = s.tokens := rfl
@[simp] theorem State.modCore_cart (s : State) (i : Nat) (f : Core → Core) : (s.modCore i f).cart = s.cart := rfl
@[simp] theorem State.modCore_isles (s : State) (i : Nat) (f : Core → Core) : (s.modCore i f).isles = s.isles := rfl
@[simp] theorem State.modCore_cap (s : State) (i : Nat) (f : Core → Core) : (s.modCore i f).cap = s.cap := rfl
@[simp] theorem State.modCore_plim (s : State) (i : Nat) (f : Core → Core) : (s.modCore i f).plim = s.plim := rfl
@[simp] theorem State.modCore_rail (s : State) (i : Nat) (f : Core → Core) : (s.modCore i f).rail = s.rail := rfl
@[simp] theorem State.modCore_tripped (s : State) (i : Nat) (f : Core → Core) : (s.modCore i f).tripped = s.tripped := rfl
@[simp] theorem State.modCore_ready (s : State) (i : Nat) (f : Core → Core) : (s.modCore i f).ready = s.ready := rfl
@[simp] theorem State.modCore_survey (s : State) (i : Nat) (f : Core → Core) : (s.modCore i f).survey = s.survey := rfl
@[simp] theorem State.modCore_mc (s : State) (i : Nat) (f : Core → Core) : (s.modCore i f).mc = s.mc := rfl
@[simp] theorem State.modCore_hostMem (s : State) (i : Nat) (f : Core → Core) : (s.modCore i f).hostMem = s.hostMem := rfl
@[simp] theorem State.modCore_hostReads (s : State) (i : Nat) (f : Core → Core) : (s.modCore i f).hostReads = s.hostReads := rfl
@[simp] theorem State.modCore_msis (s : State) (i : Nat) (f : Core → Core) : (s.modCore i f).msis = s.msis := rfl
@[simp] theorem State.modCore_rotation (s : State) (i : Nat) (f : Core → Core) : (s.modCore i f).rotation = s.rotation := rfl
@[simp] theorem State.modCore_slotNs (s : State) (i : Nat) (f : Core → Core) : (s.modCore i f).slotNs = s.slotNs := rfl
@[simp] theorem State.upd_agenda (s : State) (f : Core → Core) : (s.upd f).agenda = s.agenda := rfl
@[simp] theorem State.upd_cur (s : State) (f : Core → Core) : (s.upd f).cur = s.cur := rfl
@[simp] theorem State.upd_rounds (s : State) (f : Core → Core) : (s.upd f).rounds = s.rounds := rfl
@[simp] theorem State.upd_fresh (s : State) (f : Core → Core) : (s.upd f).fresh = s.fresh := rfl
@[simp] theorem State.upd_era (s : State) (f : Core → Core) : (s.upd f).era = s.era := rfl
@[simp] theorem State.upd_teams (s : State) (f : Core → Core) : (s.upd f).teams = s.teams := rfl
@[simp] theorem State.upd_ctxs (s : State) (f : Core → Core) : (s.upd f).ctxs = s.ctxs := rfl
@[simp] theorem State.upd_dies (s : State) (f : Core → Core) : (s.upd f).dies = s.dies := rfl
@[simp] theorem State.upd_mem (s : State) (f : Core → Core) : (s.upd f).mem = s.mem := rfl
@[simp] theorem State.upd_keys (s : State) (f : Core → Core) : (s.upd f).keys = s.keys := rfl
@[simp] theorem State.upd_ueLines (s : State) (f : Core → Core) : (s.upd f).ueLines = s.ueLines := rfl
@[simp] theorem State.upd_lostLines (s : State) (f : Core → Core) : (s.upd f).lostLines = s.lostLines := rfl
@[simp] theorem State.upd_dmaWins (s : State) (f : Core → Core) : (s.upd f).dmaWins = s.dmaWins := rfl
@[simp] theorem State.upd_l2 (s : State) (f : Core → Core) : (s.upd f).l2 = s.l2 := rfl
@[simp] theorem State.upd_prefs (s : State) (f : Core → Core) : (s.upd f).prefs = s.prefs := rfl
@[simp] theorem State.upd_fwins (s : State) (f : Core → Core) : (s.upd f).fwins = s.fwins := rfl
@[simp] theorem State.upd_home (s : State) (f : Core → Core) : (s.upd f).home = s.home := rfl
@[simp] theorem State.upd_scHeld (s : State) (f : Core → Core) : (s.upd f).scHeld = s.scHeld := rfl
@[simp] theorem State.upd_scLast (s : State) (f : Core → Core) : (s.upd f).scLast = s.scLast := rfl
@[simp] theorem State.upd_relClk (s : State) (f : Core → Core) : (s.upd f).relClk = s.relClk := rfl
@[simp] theorem State.upd_horizon (s : State) (f : Core → Core) : (s.upd f).horizon = s.horizon := rfl
@[simp] theorem State.upd_meshCyc (s : State) (f : Core → Core) : (s.upd f).meshCyc = s.meshCyc := rfl
@[simp] theorem State.upd_binds (s : State) (f : Core → Core) : (s.upd f).binds = s.binds := rfl
@[simp] theorem State.upd_bindNext (s : State) (f : Core → Core) : (s.upd f).bindNext = s.bindNext := rfl
@[simp] theorem State.upd_ports (s : State) (f : Core → Core) : (s.upd f).ports = s.ports := rfl
@[simp] theorem State.upd_outbox (s : State) (f : Core → Core) : (s.upd f).outbox = s.outbox := rfl
@[simp] theorem State.upd_tokens (s : State) (f : Core → Core) : (s.upd f).tokens = s.tokens := rfl
@[simp] theorem State.upd_cart (s : State) (f : Core → Core) : (s.upd f).cart = s.cart := rfl
@[simp] theorem State.upd_isles (s : State) (f : Core → Core) : (s.upd f).isles = s.isles := rfl
@[simp] theorem State.upd_cap (s : State) (f : Core → Core) : (s.upd f).cap = s.cap := rfl
@[simp] theorem State.upd_plim (s : State) (f : Core → Core) : (s.upd f).plim = s.plim := rfl
@[simp] theorem State.upd_rail (s : State) (f : Core → Core) : (s.upd f).rail = s.rail := rfl
@[simp] theorem State.upd_tripped (s : State) (f : Core → Core) : (s.upd f).tripped = s.tripped := rfl
@[simp] theorem State.upd_ready (s : State) (f : Core → Core) : (s.upd f).ready = s.ready := rfl
@[simp] theorem State.upd_survey (s : State) (f : Core → Core) : (s.upd f).survey = s.survey := rfl
@[simp] theorem State.upd_mc (s : State) (f : Core → Core) : (s.upd f).mc = s.mc := rfl
@[simp] theorem State.upd_hostMem (s : State) (f : Core → Core) : (s.upd f).hostMem = s.hostMem := rfl
@[simp] theorem State.upd_hostReads (s : State) (f : Core → Core) : (s.upd f).hostReads = s.hostReads := rfl
@[simp] theorem State.upd_msis (s : State) (f : Core → Core) : (s.upd f).msis = s.msis := rfl
@[simp] theorem State.upd_rotation (s : State) (f : Core → Core) : (s.upd f).rotation = s.rotation := rfl
@[simp] theorem State.upd_slotNs (s : State) (f : Core → Core) : (s.upd f).slotNs = s.slotNs := rfl
@[simp] theorem State.modDie_agenda (s : State) (d : Nat) (f : DieSt → DieSt) : (s.modDie d f).agenda = s.agenda := rfl
@[simp] theorem State.modDie_cur (s : State) (d : Nat) (f : DieSt → DieSt) : (s.modDie d f).cur = s.cur := rfl
@[simp] theorem State.modDie_rounds (s : State) (d : Nat) (f : DieSt → DieSt) : (s.modDie d f).rounds = s.rounds := rfl
@[simp] theorem State.modDie_fresh (s : State) (d : Nat) (f : DieSt → DieSt) : (s.modDie d f).fresh = s.fresh := rfl
@[simp] theorem State.modDie_era (s : State) (d : Nat) (f : DieSt → DieSt) : (s.modDie d f).era = s.era := rfl
@[simp] theorem State.modDie_cores (s : State) (d : Nat) (f : DieSt → DieSt) : (s.modDie d f).cores = s.cores := rfl
@[simp] theorem State.modDie_teams (s : State) (d : Nat) (f : DieSt → DieSt) : (s.modDie d f).teams = s.teams := rfl
@[simp] theorem State.modDie_ctxs (s : State) (d : Nat) (f : DieSt → DieSt) : (s.modDie d f).ctxs = s.ctxs := rfl
@[simp] theorem State.modDie_mem (s : State) (d : Nat) (f : DieSt → DieSt) : (s.modDie d f).mem = s.mem := rfl
@[simp] theorem State.modDie_keys (s : State) (d : Nat) (f : DieSt → DieSt) : (s.modDie d f).keys = s.keys := rfl
@[simp] theorem State.modDie_ueLines (s : State) (d : Nat) (f : DieSt → DieSt) : (s.modDie d f).ueLines = s.ueLines := rfl
@[simp] theorem State.modDie_lostLines (s : State) (d : Nat) (f : DieSt → DieSt) : (s.modDie d f).lostLines = s.lostLines := rfl
@[simp] theorem State.modDie_dmaWins (s : State) (d : Nat) (f : DieSt → DieSt) : (s.modDie d f).dmaWins = s.dmaWins := rfl
@[simp] theorem State.modDie_l2 (s : State) (d : Nat) (f : DieSt → DieSt) : (s.modDie d f).l2 = s.l2 := rfl
@[simp] theorem State.modDie_prefs (s : State) (d : Nat) (f : DieSt → DieSt) : (s.modDie d f).prefs = s.prefs := rfl
@[simp] theorem State.modDie_fwins (s : State) (d : Nat) (f : DieSt → DieSt) : (s.modDie d f).fwins = s.fwins := rfl
@[simp] theorem State.modDie_home (s : State) (d : Nat) (f : DieSt → DieSt) : (s.modDie d f).home = s.home := rfl
@[simp] theorem State.modDie_scHeld (s : State) (d : Nat) (f : DieSt → DieSt) : (s.modDie d f).scHeld = s.scHeld := rfl
@[simp] theorem State.modDie_scLast (s : State) (d : Nat) (f : DieSt → DieSt) : (s.modDie d f).scLast = s.scLast := rfl
@[simp] theorem State.modDie_relClk (s : State) (d : Nat) (f : DieSt → DieSt) : (s.modDie d f).relClk = s.relClk := rfl
@[simp] theorem State.modDie_horizon (s : State) (d : Nat) (f : DieSt → DieSt) : (s.modDie d f).horizon = s.horizon := rfl
@[simp] theorem State.modDie_meshCyc (s : State) (d : Nat) (f : DieSt → DieSt) : (s.modDie d f).meshCyc = s.meshCyc := rfl
@[simp] theorem State.modDie_binds (s : State) (d : Nat) (f : DieSt → DieSt) : (s.modDie d f).binds = s.binds := rfl
@[simp] theorem State.modDie_bindNext (s : State) (d : Nat) (f : DieSt → DieSt) : (s.modDie d f).bindNext = s.bindNext := rfl
@[simp] theorem State.modDie_ports (s : State) (d : Nat) (f : DieSt → DieSt) : (s.modDie d f).ports = s.ports := rfl
@[simp] theorem State.modDie_outbox (s : State) (d : Nat) (f : DieSt → DieSt) : (s.modDie d f).outbox = s.outbox := rfl
@[simp] theorem State.modDie_tokens (s : State) (d : Nat) (f : DieSt → DieSt) : (s.modDie d f).tokens = s.tokens := rfl
@[simp] theorem State.modDie_cart (s : State) (d : Nat) (f : DieSt → DieSt) : (s.modDie d f).cart = s.cart := rfl
@[simp] theorem State.modDie_isles (s : State) (d : Nat) (f : DieSt → DieSt) : (s.modDie d f).isles = s.isles := rfl
@[simp] theorem State.modDie_cap (s : State) (d : Nat) (f : DieSt → DieSt) : (s.modDie d f).cap = s.cap := rfl
@[simp] theorem State.modDie_plim (s : State) (d : Nat) (f : DieSt → DieSt) : (s.modDie d f).plim = s.plim := rfl
@[simp] theorem State.modDie_rail (s : State) (d : Nat) (f : DieSt → DieSt) : (s.modDie d f).rail = s.rail := rfl
@[simp] theorem State.modDie_tripped (s : State) (d : Nat) (f : DieSt → DieSt) : (s.modDie d f).tripped = s.tripped := rfl
@[simp] theorem State.modDie_ready (s : State) (d : Nat) (f : DieSt → DieSt) : (s.modDie d f).ready = s.ready := rfl
@[simp] theorem State.modDie_survey (s : State) (d : Nat) (f : DieSt → DieSt) : (s.modDie d f).survey = s.survey := rfl
@[simp] theorem State.modDie_mc (s : State) (d : Nat) (f : DieSt → DieSt) : (s.modDie d f).mc = s.mc := rfl
@[simp] theorem State.modDie_hostMem (s : State) (d : Nat) (f : DieSt → DieSt) : (s.modDie d f).hostMem = s.hostMem := rfl
@[simp] theorem State.modDie_hostReads (s : State) (d : Nat) (f : DieSt → DieSt) : (s.modDie d f).hostReads = s.hostReads := rfl
@[simp] theorem State.modDie_msis (s : State) (d : Nat) (f : DieSt → DieSt) : (s.modDie d f).msis = s.msis := rfl
@[simp] theorem State.modDie_rotation (s : State) (d : Nat) (f : DieSt → DieSt) : (s.modDie d f).rotation = s.rotation := rfl
@[simp] theorem State.modDie_slotNs (s : State) (d : Nat) (f : DieSt → DieSt) : (s.modDie d f).slotNs = s.slotNs := rfl
@[simp] theorem State.modCtx_agenda (s : State) (x : Nat) (f : Ctx → Ctx) : (s.modCtx x f).agenda = s.agenda := rfl
@[simp] theorem State.modCtx_cur (s : State) (x : Nat) (f : Ctx → Ctx) : (s.modCtx x f).cur = s.cur := rfl
@[simp] theorem State.modCtx_rounds (s : State) (x : Nat) (f : Ctx → Ctx) : (s.modCtx x f).rounds = s.rounds := rfl
@[simp] theorem State.modCtx_fresh (s : State) (x : Nat) (f : Ctx → Ctx) : (s.modCtx x f).fresh = s.fresh := rfl
@[simp] theorem State.modCtx_era (s : State) (x : Nat) (f : Ctx → Ctx) : (s.modCtx x f).era = s.era := rfl
@[simp] theorem State.modCtx_cores (s : State) (x : Nat) (f : Ctx → Ctx) : (s.modCtx x f).cores = s.cores := rfl
@[simp] theorem State.modCtx_teams (s : State) (x : Nat) (f : Ctx → Ctx) : (s.modCtx x f).teams = s.teams := rfl
@[simp] theorem State.modCtx_dies (s : State) (x : Nat) (f : Ctx → Ctx) : (s.modCtx x f).dies = s.dies := rfl
@[simp] theorem State.modCtx_mem (s : State) (x : Nat) (f : Ctx → Ctx) : (s.modCtx x f).mem = s.mem := rfl
@[simp] theorem State.modCtx_keys (s : State) (x : Nat) (f : Ctx → Ctx) : (s.modCtx x f).keys = s.keys := rfl
@[simp] theorem State.modCtx_ueLines (s : State) (x : Nat) (f : Ctx → Ctx) : (s.modCtx x f).ueLines = s.ueLines := rfl
@[simp] theorem State.modCtx_lostLines (s : State) (x : Nat) (f : Ctx → Ctx) : (s.modCtx x f).lostLines = s.lostLines := rfl
@[simp] theorem State.modCtx_dmaWins (s : State) (x : Nat) (f : Ctx → Ctx) : (s.modCtx x f).dmaWins = s.dmaWins := rfl
@[simp] theorem State.modCtx_l2 (s : State) (x : Nat) (f : Ctx → Ctx) : (s.modCtx x f).l2 = s.l2 := rfl
@[simp] theorem State.modCtx_prefs (s : State) (x : Nat) (f : Ctx → Ctx) : (s.modCtx x f).prefs = s.prefs := rfl
@[simp] theorem State.modCtx_fwins (s : State) (x : Nat) (f : Ctx → Ctx) : (s.modCtx x f).fwins = s.fwins := rfl
@[simp] theorem State.modCtx_home (s : State) (x : Nat) (f : Ctx → Ctx) : (s.modCtx x f).home = s.home := rfl
@[simp] theorem State.modCtx_scHeld (s : State) (x : Nat) (f : Ctx → Ctx) : (s.modCtx x f).scHeld = s.scHeld := rfl
@[simp] theorem State.modCtx_scLast (s : State) (x : Nat) (f : Ctx → Ctx) : (s.modCtx x f).scLast = s.scLast := rfl
@[simp] theorem State.modCtx_relClk (s : State) (x : Nat) (f : Ctx → Ctx) : (s.modCtx x f).relClk = s.relClk := rfl
@[simp] theorem State.modCtx_horizon (s : State) (x : Nat) (f : Ctx → Ctx) : (s.modCtx x f).horizon = s.horizon := rfl
@[simp] theorem State.modCtx_meshCyc (s : State) (x : Nat) (f : Ctx → Ctx) : (s.modCtx x f).meshCyc = s.meshCyc := rfl
@[simp] theorem State.modCtx_binds (s : State) (x : Nat) (f : Ctx → Ctx) : (s.modCtx x f).binds = s.binds := rfl
@[simp] theorem State.modCtx_bindNext (s : State) (x : Nat) (f : Ctx → Ctx) : (s.modCtx x f).bindNext = s.bindNext := rfl
@[simp] theorem State.modCtx_ports (s : State) (x : Nat) (f : Ctx → Ctx) : (s.modCtx x f).ports = s.ports := rfl
@[simp] theorem State.modCtx_outbox (s : State) (x : Nat) (f : Ctx → Ctx) : (s.modCtx x f).outbox = s.outbox := rfl
@[simp] theorem State.modCtx_tokens (s : State) (x : Nat) (f : Ctx → Ctx) : (s.modCtx x f).tokens = s.tokens := rfl
@[simp] theorem State.modCtx_cart (s : State) (x : Nat) (f : Ctx → Ctx) : (s.modCtx x f).cart = s.cart := rfl
@[simp] theorem State.modCtx_isles (s : State) (x : Nat) (f : Ctx → Ctx) : (s.modCtx x f).isles = s.isles := rfl
@[simp] theorem State.modCtx_cap (s : State) (x : Nat) (f : Ctx → Ctx) : (s.modCtx x f).cap = s.cap := rfl
@[simp] theorem State.modCtx_plim (s : State) (x : Nat) (f : Ctx → Ctx) : (s.modCtx x f).plim = s.plim := rfl
@[simp] theorem State.modCtx_rail (s : State) (x : Nat) (f : Ctx → Ctx) : (s.modCtx x f).rail = s.rail := rfl
@[simp] theorem State.modCtx_tripped (s : State) (x : Nat) (f : Ctx → Ctx) : (s.modCtx x f).tripped = s.tripped := rfl
@[simp] theorem State.modCtx_ready (s : State) (x : Nat) (f : Ctx → Ctx) : (s.modCtx x f).ready = s.ready := rfl
@[simp] theorem State.modCtx_survey (s : State) (x : Nat) (f : Ctx → Ctx) : (s.modCtx x f).survey = s.survey := rfl
@[simp] theorem State.modCtx_mc (s : State) (x : Nat) (f : Ctx → Ctx) : (s.modCtx x f).mc = s.mc := rfl
@[simp] theorem State.modCtx_hostMem (s : State) (x : Nat) (f : Ctx → Ctx) : (s.modCtx x f).hostMem = s.hostMem := rfl
@[simp] theorem State.modCtx_hostReads (s : State) (x : Nat) (f : Ctx → Ctx) : (s.modCtx x f).hostReads = s.hostReads := rfl
@[simp] theorem State.modCtx_msis (s : State) (x : Nat) (f : Ctx → Ctx) : (s.modCtx x f).msis = s.msis := rfl
@[simp] theorem State.modCtx_rotation (s : State) (x : Nat) (f : Ctx → Ctx) : (s.modCtx x f).rotation = s.rotation := rfl
@[simp] theorem State.modCtx_slotNs (s : State) (x : Nat) (f : Ctx → Ctx) : (s.modCtx x f).slotNs = s.slotNs := rfl
@[simp] theorem State.modCart_agenda (s : State) (f : Cart → Cart) : (s.modCart f).agenda = s.agenda := rfl
@[simp] theorem State.modCart_cur (s : State) (f : Cart → Cart) : (s.modCart f).cur = s.cur := rfl
@[simp] theorem State.modCart_rounds (s : State) (f : Cart → Cart) : (s.modCart f).rounds = s.rounds := rfl
@[simp] theorem State.modCart_fresh (s : State) (f : Cart → Cart) : (s.modCart f).fresh = s.fresh := rfl
@[simp] theorem State.modCart_era (s : State) (f : Cart → Cart) : (s.modCart f).era = s.era := rfl
@[simp] theorem State.modCart_cores (s : State) (f : Cart → Cart) : (s.modCart f).cores = s.cores := rfl
@[simp] theorem State.modCart_teams (s : State) (f : Cart → Cart) : (s.modCart f).teams = s.teams := rfl
@[simp] theorem State.modCart_ctxs (s : State) (f : Cart → Cart) : (s.modCart f).ctxs = s.ctxs := rfl
@[simp] theorem State.modCart_dies (s : State) (f : Cart → Cart) : (s.modCart f).dies = s.dies := rfl
@[simp] theorem State.modCart_mem (s : State) (f : Cart → Cart) : (s.modCart f).mem = s.mem := rfl
@[simp] theorem State.modCart_keys (s : State) (f : Cart → Cart) : (s.modCart f).keys = s.keys := rfl
@[simp] theorem State.modCart_ueLines (s : State) (f : Cart → Cart) : (s.modCart f).ueLines = s.ueLines := rfl
@[simp] theorem State.modCart_lostLines (s : State) (f : Cart → Cart) : (s.modCart f).lostLines = s.lostLines := rfl
@[simp] theorem State.modCart_dmaWins (s : State) (f : Cart → Cart) : (s.modCart f).dmaWins = s.dmaWins := rfl
@[simp] theorem State.modCart_l2 (s : State) (f : Cart → Cart) : (s.modCart f).l2 = s.l2 := rfl
@[simp] theorem State.modCart_prefs (s : State) (f : Cart → Cart) : (s.modCart f).prefs = s.prefs := rfl
@[simp] theorem State.modCart_fwins (s : State) (f : Cart → Cart) : (s.modCart f).fwins = s.fwins := rfl
@[simp] theorem State.modCart_home (s : State) (f : Cart → Cart) : (s.modCart f).home = s.home := rfl
@[simp] theorem State.modCart_scHeld (s : State) (f : Cart → Cart) : (s.modCart f).scHeld = s.scHeld := rfl
@[simp] theorem State.modCart_scLast (s : State) (f : Cart → Cart) : (s.modCart f).scLast = s.scLast := rfl
@[simp] theorem State.modCart_relClk (s : State) (f : Cart → Cart) : (s.modCart f).relClk = s.relClk := rfl
@[simp] theorem State.modCart_horizon (s : State) (f : Cart → Cart) : (s.modCart f).horizon = s.horizon := rfl
@[simp] theorem State.modCart_meshCyc (s : State) (f : Cart → Cart) : (s.modCart f).meshCyc = s.meshCyc := rfl
@[simp] theorem State.modCart_binds (s : State) (f : Cart → Cart) : (s.modCart f).binds = s.binds := rfl
@[simp] theorem State.modCart_bindNext (s : State) (f : Cart → Cart) : (s.modCart f).bindNext = s.bindNext := rfl
@[simp] theorem State.modCart_ports (s : State) (f : Cart → Cart) : (s.modCart f).ports = s.ports := rfl
@[simp] theorem State.modCart_outbox (s : State) (f : Cart → Cart) : (s.modCart f).outbox = s.outbox := rfl
@[simp] theorem State.modCart_tokens (s : State) (f : Cart → Cart) : (s.modCart f).tokens = s.tokens := rfl
@[simp] theorem State.modCart_isles (s : State) (f : Cart → Cart) : (s.modCart f).isles = s.isles := rfl
@[simp] theorem State.modCart_cap (s : State) (f : Cart → Cart) : (s.modCart f).cap = s.cap := rfl
@[simp] theorem State.modCart_plim (s : State) (f : Cart → Cart) : (s.modCart f).plim = s.plim := rfl
@[simp] theorem State.modCart_rail (s : State) (f : Cart → Cart) : (s.modCart f).rail = s.rail := rfl
@[simp] theorem State.modCart_tripped (s : State) (f : Cart → Cart) : (s.modCart f).tripped = s.tripped := rfl
@[simp] theorem State.modCart_ready (s : State) (f : Cart → Cart) : (s.modCart f).ready = s.ready := rfl
@[simp] theorem State.modCart_survey (s : State) (f : Cart → Cart) : (s.modCart f).survey = s.survey := rfl
@[simp] theorem State.modCart_mc (s : State) (f : Cart → Cart) : (s.modCart f).mc = s.mc := rfl
@[simp] theorem State.modCart_hostMem (s : State) (f : Cart → Cart) : (s.modCart f).hostMem = s.hostMem := rfl
@[simp] theorem State.modCart_hostReads (s : State) (f : Cart → Cart) : (s.modCart f).hostReads = s.hostReads := rfl
@[simp] theorem State.modCart_msis (s : State) (f : Cart → Cart) : (s.modCart f).msis = s.msis := rfl
@[simp] theorem State.modCart_rotation (s : State) (f : Cart → Cart) : (s.modCart f).rotation = s.rotation := rfl
@[simp] theorem State.modCart_slotNs (s : State) (f : Cart → Cart) : (s.modCart f).slotNs = s.slotNs := rfl
@[simp] theorem State.modPort_agenda (s : State) (p : Nat) (f : PortSt → PortSt) : (s.modPort p f).agenda = s.agenda := rfl
@[simp] theorem State.modPort_cur (s : State) (p : Nat) (f : PortSt → PortSt) : (s.modPort p f).cur = s.cur := rfl
@[simp] theorem State.modPort_rounds (s : State) (p : Nat) (f : PortSt → PortSt) : (s.modPort p f).rounds = s.rounds := rfl
@[simp] theorem State.modPort_fresh (s : State) (p : Nat) (f : PortSt → PortSt) : (s.modPort p f).fresh = s.fresh := rfl
@[simp] theorem State.modPort_era (s : State) (p : Nat) (f : PortSt → PortSt) : (s.modPort p f).era = s.era := rfl
@[simp] theorem State.modPort_cores (s : State) (p : Nat) (f : PortSt → PortSt) : (s.modPort p f).cores = s.cores := rfl
@[simp] theorem State.modPort_teams (s : State) (p : Nat) (f : PortSt → PortSt) : (s.modPort p f).teams = s.teams := rfl
@[simp] theorem State.modPort_ctxs (s : State) (p : Nat) (f : PortSt → PortSt) : (s.modPort p f).ctxs = s.ctxs := rfl
@[simp] theorem State.modPort_dies (s : State) (p : Nat) (f : PortSt → PortSt) : (s.modPort p f).dies = s.dies := rfl
@[simp] theorem State.modPort_mem (s : State) (p : Nat) (f : PortSt → PortSt) : (s.modPort p f).mem = s.mem := rfl
@[simp] theorem State.modPort_keys (s : State) (p : Nat) (f : PortSt → PortSt) : (s.modPort p f).keys = s.keys := rfl
@[simp] theorem State.modPort_ueLines (s : State) (p : Nat) (f : PortSt → PortSt) : (s.modPort p f).ueLines = s.ueLines := rfl
@[simp] theorem State.modPort_lostLines (s : State) (p : Nat) (f : PortSt → PortSt) : (s.modPort p f).lostLines = s.lostLines := rfl
@[simp] theorem State.modPort_dmaWins (s : State) (p : Nat) (f : PortSt → PortSt) : (s.modPort p f).dmaWins = s.dmaWins := rfl
@[simp] theorem State.modPort_l2 (s : State) (p : Nat) (f : PortSt → PortSt) : (s.modPort p f).l2 = s.l2 := rfl
@[simp] theorem State.modPort_prefs (s : State) (p : Nat) (f : PortSt → PortSt) : (s.modPort p f).prefs = s.prefs := rfl
@[simp] theorem State.modPort_fwins (s : State) (p : Nat) (f : PortSt → PortSt) : (s.modPort p f).fwins = s.fwins := rfl
@[simp] theorem State.modPort_home (s : State) (p : Nat) (f : PortSt → PortSt) : (s.modPort p f).home = s.home := rfl
@[simp] theorem State.modPort_scHeld (s : State) (p : Nat) (f : PortSt → PortSt) : (s.modPort p f).scHeld = s.scHeld := rfl
@[simp] theorem State.modPort_scLast (s : State) (p : Nat) (f : PortSt → PortSt) : (s.modPort p f).scLast = s.scLast := rfl
@[simp] theorem State.modPort_relClk (s : State) (p : Nat) (f : PortSt → PortSt) : (s.modPort p f).relClk = s.relClk := rfl
@[simp] theorem State.modPort_horizon (s : State) (p : Nat) (f : PortSt → PortSt) : (s.modPort p f).horizon = s.horizon := rfl
@[simp] theorem State.modPort_meshCyc (s : State) (p : Nat) (f : PortSt → PortSt) : (s.modPort p f).meshCyc = s.meshCyc := rfl
@[simp] theorem State.modPort_binds (s : State) (p : Nat) (f : PortSt → PortSt) : (s.modPort p f).binds = s.binds := rfl
@[simp] theorem State.modPort_bindNext (s : State) (p : Nat) (f : PortSt → PortSt) : (s.modPort p f).bindNext = s.bindNext := rfl
@[simp] theorem State.modPort_outbox (s : State) (p : Nat) (f : PortSt → PortSt) : (s.modPort p f).outbox = s.outbox := rfl
@[simp] theorem State.modPort_tokens (s : State) (p : Nat) (f : PortSt → PortSt) : (s.modPort p f).tokens = s.tokens := rfl
@[simp] theorem State.modPort_cart (s : State) (p : Nat) (f : PortSt → PortSt) : (s.modPort p f).cart = s.cart := rfl
@[simp] theorem State.modPort_isles (s : State) (p : Nat) (f : PortSt → PortSt) : (s.modPort p f).isles = s.isles := rfl
@[simp] theorem State.modPort_cap (s : State) (p : Nat) (f : PortSt → PortSt) : (s.modPort p f).cap = s.cap := rfl
@[simp] theorem State.modPort_plim (s : State) (p : Nat) (f : PortSt → PortSt) : (s.modPort p f).plim = s.plim := rfl
@[simp] theorem State.modPort_rail (s : State) (p : Nat) (f : PortSt → PortSt) : (s.modPort p f).rail = s.rail := rfl
@[simp] theorem State.modPort_tripped (s : State) (p : Nat) (f : PortSt → PortSt) : (s.modPort p f).tripped = s.tripped := rfl
@[simp] theorem State.modPort_ready (s : State) (p : Nat) (f : PortSt → PortSt) : (s.modPort p f).ready = s.ready := rfl
@[simp] theorem State.modPort_survey (s : State) (p : Nat) (f : PortSt → PortSt) : (s.modPort p f).survey = s.survey := rfl
@[simp] theorem State.modPort_mc (s : State) (p : Nat) (f : PortSt → PortSt) : (s.modPort p f).mc = s.mc := rfl
@[simp] theorem State.modPort_hostMem (s : State) (p : Nat) (f : PortSt → PortSt) : (s.modPort p f).hostMem = s.hostMem := rfl
@[simp] theorem State.modPort_hostReads (s : State) (p : Nat) (f : PortSt → PortSt) : (s.modPort p f).hostReads = s.hostReads := rfl
@[simp] theorem State.modPort_msis (s : State) (p : Nat) (f : PortSt → PortSt) : (s.modPort p f).msis = s.msis := rfl
@[simp] theorem State.modPort_rotation (s : State) (p : Nat) (f : PortSt → PortSt) : (s.modPort p f).rotation = s.rotation := rfl
@[simp] theorem State.modPort_slotNs (s : State) (p : Nat) (f : PortSt → PortSt) : (s.modPort p f).slotNs = s.slotNs := rfl
@[simp] theorem State.modIsland_agenda (s : State) (i : Nat) (f : Island → Island) : (s.modIsland i f).agenda = s.agenda := rfl
@[simp] theorem State.modIsland_cur (s : State) (i : Nat) (f : Island → Island) : (s.modIsland i f).cur = s.cur := rfl
@[simp] theorem State.modIsland_rounds (s : State) (i : Nat) (f : Island → Island) : (s.modIsland i f).rounds = s.rounds := rfl
@[simp] theorem State.modIsland_fresh (s : State) (i : Nat) (f : Island → Island) : (s.modIsland i f).fresh = s.fresh := rfl
@[simp] theorem State.modIsland_era (s : State) (i : Nat) (f : Island → Island) : (s.modIsland i f).era = s.era := rfl
@[simp] theorem State.modIsland_cores (s : State) (i : Nat) (f : Island → Island) : (s.modIsland i f).cores = s.cores := rfl
@[simp] theorem State.modIsland_teams (s : State) (i : Nat) (f : Island → Island) : (s.modIsland i f).teams = s.teams := rfl
@[simp] theorem State.modIsland_ctxs (s : State) (i : Nat) (f : Island → Island) : (s.modIsland i f).ctxs = s.ctxs := rfl
@[simp] theorem State.modIsland_dies (s : State) (i : Nat) (f : Island → Island) : (s.modIsland i f).dies = s.dies := rfl
@[simp] theorem State.modIsland_mem (s : State) (i : Nat) (f : Island → Island) : (s.modIsland i f).mem = s.mem := rfl
@[simp] theorem State.modIsland_keys (s : State) (i : Nat) (f : Island → Island) : (s.modIsland i f).keys = s.keys := rfl
@[simp] theorem State.modIsland_ueLines (s : State) (i : Nat) (f : Island → Island) : (s.modIsland i f).ueLines = s.ueLines := rfl
@[simp] theorem State.modIsland_lostLines (s : State) (i : Nat) (f : Island → Island) : (s.modIsland i f).lostLines = s.lostLines := rfl
@[simp] theorem State.modIsland_dmaWins (s : State) (i : Nat) (f : Island → Island) : (s.modIsland i f).dmaWins = s.dmaWins := rfl
@[simp] theorem State.modIsland_l2 (s : State) (i : Nat) (f : Island → Island) : (s.modIsland i f).l2 = s.l2 := rfl
@[simp] theorem State.modIsland_prefs (s : State) (i : Nat) (f : Island → Island) : (s.modIsland i f).prefs = s.prefs := rfl
@[simp] theorem State.modIsland_fwins (s : State) (i : Nat) (f : Island → Island) : (s.modIsland i f).fwins = s.fwins := rfl
@[simp] theorem State.modIsland_home (s : State) (i : Nat) (f : Island → Island) : (s.modIsland i f).home = s.home := rfl
@[simp] theorem State.modIsland_scHeld (s : State) (i : Nat) (f : Island → Island) : (s.modIsland i f).scHeld = s.scHeld := rfl
@[simp] theorem State.modIsland_scLast (s : State) (i : Nat) (f : Island → Island) : (s.modIsland i f).scLast = s.scLast := rfl
@[simp] theorem State.modIsland_relClk (s : State) (i : Nat) (f : Island → Island) : (s.modIsland i f).relClk = s.relClk := rfl
@[simp] theorem State.modIsland_horizon (s : State) (i : Nat) (f : Island → Island) : (s.modIsland i f).horizon = s.horizon := rfl
@[simp] theorem State.modIsland_meshCyc (s : State) (i : Nat) (f : Island → Island) : (s.modIsland i f).meshCyc = s.meshCyc := rfl
@[simp] theorem State.modIsland_binds (s : State) (i : Nat) (f : Island → Island) : (s.modIsland i f).binds = s.binds := rfl
@[simp] theorem State.modIsland_bindNext (s : State) (i : Nat) (f : Island → Island) : (s.modIsland i f).bindNext = s.bindNext := rfl
@[simp] theorem State.modIsland_ports (s : State) (i : Nat) (f : Island → Island) : (s.modIsland i f).ports = s.ports := rfl
@[simp] theorem State.modIsland_outbox (s : State) (i : Nat) (f : Island → Island) : (s.modIsland i f).outbox = s.outbox := rfl
@[simp] theorem State.modIsland_tokens (s : State) (i : Nat) (f : Island → Island) : (s.modIsland i f).tokens = s.tokens := rfl
@[simp] theorem State.modIsland_cart (s : State) (i : Nat) (f : Island → Island) : (s.modIsland i f).cart = s.cart := rfl
@[simp] theorem State.modIsland_cap (s : State) (i : Nat) (f : Island → Island) : (s.modIsland i f).cap = s.cap := rfl
@[simp] theorem State.modIsland_plim (s : State) (i : Nat) (f : Island → Island) : (s.modIsland i f).plim = s.plim := rfl
@[simp] theorem State.modIsland_tripped (s : State) (i : Nat) (f : Island → Island) : (s.modIsland i f).tripped = s.tripped := rfl
@[simp] theorem State.modIsland_ready (s : State) (i : Nat) (f : Island → Island) : (s.modIsland i f).ready = s.ready := rfl
@[simp] theorem State.modIsland_mc (s : State) (i : Nat) (f : Island → Island) : (s.modIsland i f).mc = s.mc := rfl
@[simp] theorem State.modIsland_hostMem (s : State) (i : Nat) (f : Island → Island) : (s.modIsland i f).hostMem = s.hostMem := rfl
@[simp] theorem State.modIsland_hostReads (s : State) (i : Nat) (f : Island → Island) : (s.modIsland i f).hostReads = s.hostReads := rfl
@[simp] theorem State.modIsland_msis (s : State) (i : Nat) (f : Island → Island) : (s.modIsland i f).msis = s.msis := rfl
@[simp] theorem State.modIsland_rotation (s : State) (i : Nat) (f : Island → Island) : (s.modIsland i f).rotation = s.rotation := rfl
@[simp] theorem State.modIsland_slotNs (s : State) (i : Nat) (f : Island → Island) : (s.modIsland i f).slotNs = s.slotNs := rfl
@[simp] theorem State.setIsles_agenda (s : State) (t : Tab Island) : (s.setIsles t).agenda = s.agenda := rfl
@[simp] theorem State.setIsles_cur (s : State) (t : Tab Island) : (s.setIsles t).cur = s.cur := rfl
@[simp] theorem State.setIsles_rounds (s : State) (t : Tab Island) : (s.setIsles t).rounds = s.rounds := rfl
@[simp] theorem State.setIsles_fresh (s : State) (t : Tab Island) : (s.setIsles t).fresh = s.fresh := rfl
@[simp] theorem State.setIsles_era (s : State) (t : Tab Island) : (s.setIsles t).era = s.era := rfl
@[simp] theorem State.setIsles_cores (s : State) (t : Tab Island) : (s.setIsles t).cores = s.cores := rfl
@[simp] theorem State.setIsles_teams (s : State) (t : Tab Island) : (s.setIsles t).teams = s.teams := rfl
@[simp] theorem State.setIsles_ctxs (s : State) (t : Tab Island) : (s.setIsles t).ctxs = s.ctxs := rfl
@[simp] theorem State.setIsles_dies (s : State) (t : Tab Island) : (s.setIsles t).dies = s.dies := rfl
@[simp] theorem State.setIsles_mem (s : State) (t : Tab Island) : (s.setIsles t).mem = s.mem := rfl
@[simp] theorem State.setIsles_keys (s : State) (t : Tab Island) : (s.setIsles t).keys = s.keys := rfl
@[simp] theorem State.setIsles_ueLines (s : State) (t : Tab Island) : (s.setIsles t).ueLines = s.ueLines := rfl
@[simp] theorem State.setIsles_lostLines (s : State) (t : Tab Island) : (s.setIsles t).lostLines = s.lostLines := rfl
@[simp] theorem State.setIsles_dmaWins (s : State) (t : Tab Island) : (s.setIsles t).dmaWins = s.dmaWins := rfl
@[simp] theorem State.setIsles_l2 (s : State) (t : Tab Island) : (s.setIsles t).l2 = s.l2 := rfl
@[simp] theorem State.setIsles_prefs (s : State) (t : Tab Island) : (s.setIsles t).prefs = s.prefs := rfl
@[simp] theorem State.setIsles_fwins (s : State) (t : Tab Island) : (s.setIsles t).fwins = s.fwins := rfl
@[simp] theorem State.setIsles_home (s : State) (t : Tab Island) : (s.setIsles t).home = s.home := rfl
@[simp] theorem State.setIsles_scHeld (s : State) (t : Tab Island) : (s.setIsles t).scHeld = s.scHeld := rfl
@[simp] theorem State.setIsles_scLast (s : State) (t : Tab Island) : (s.setIsles t).scLast = s.scLast := rfl
@[simp] theorem State.setIsles_relClk (s : State) (t : Tab Island) : (s.setIsles t).relClk = s.relClk := rfl
@[simp] theorem State.setIsles_horizon (s : State) (t : Tab Island) : (s.setIsles t).horizon = s.horizon := rfl
@[simp] theorem State.setIsles_meshCyc (s : State) (t : Tab Island) : (s.setIsles t).meshCyc = s.meshCyc := rfl
@[simp] theorem State.setIsles_binds (s : State) (t : Tab Island) : (s.setIsles t).binds = s.binds := rfl
@[simp] theorem State.setIsles_bindNext (s : State) (t : Tab Island) : (s.setIsles t).bindNext = s.bindNext := rfl
@[simp] theorem State.setIsles_ports (s : State) (t : Tab Island) : (s.setIsles t).ports = s.ports := rfl
@[simp] theorem State.setIsles_outbox (s : State) (t : Tab Island) : (s.setIsles t).outbox = s.outbox := rfl
@[simp] theorem State.setIsles_tokens (s : State) (t : Tab Island) : (s.setIsles t).tokens = s.tokens := rfl
@[simp] theorem State.setIsles_cart (s : State) (t : Tab Island) : (s.setIsles t).cart = s.cart := rfl
@[simp] theorem State.setIsles_cap (s : State) (t : Tab Island) : (s.setIsles t).cap = s.cap := rfl
@[simp] theorem State.setIsles_plim (s : State) (t : Tab Island) : (s.setIsles t).plim = s.plim := rfl
@[simp] theorem State.setIsles_tripped (s : State) (t : Tab Island) : (s.setIsles t).tripped = s.tripped := rfl
@[simp] theorem State.setIsles_ready (s : State) (t : Tab Island) : (s.setIsles t).ready = s.ready := rfl
@[simp] theorem State.setIsles_mc (s : State) (t : Tab Island) : (s.setIsles t).mc = s.mc := rfl
@[simp] theorem State.setIsles_hostMem (s : State) (t : Tab Island) : (s.setIsles t).hostMem = s.hostMem := rfl
@[simp] theorem State.setIsles_hostReads (s : State) (t : Tab Island) : (s.setIsles t).hostReads = s.hostReads := rfl
@[simp] theorem State.setIsles_msis (s : State) (t : Tab Island) : (s.setIsles t).msis = s.msis := rfl
@[simp] theorem State.setIsles_rotation (s : State) (t : Tab Island) : (s.setIsles t).rotation = s.rotation := rfl
@[simp] theorem State.setIsles_slotNs (s : State) (t : Tab Island) : (s.setIsles t).slotNs = s.slotNs := rfl
@[simp] theorem State.modCnt_agenda (s : State) (f : Counters → Counters) : (s.modCnt f).agenda = s.agenda := rfl
@[simp] theorem State.modCnt_cur (s : State) (f : Counters → Counters) : (s.modCnt f).cur = s.cur := rfl
@[simp] theorem State.modCnt_rounds (s : State) (f : Counters → Counters) : (s.modCnt f).rounds = s.rounds := rfl
@[simp] theorem State.modCnt_fresh (s : State) (f : Counters → Counters) : (s.modCnt f).fresh = s.fresh := rfl
@[simp] theorem State.modCnt_era (s : State) (f : Counters → Counters) : (s.modCnt f).era = s.era := rfl
@[simp] theorem State.modCnt_cores (s : State) (f : Counters → Counters) : (s.modCnt f).cores = s.cores := rfl
@[simp] theorem State.modCnt_teams (s : State) (f : Counters → Counters) : (s.modCnt f).teams = s.teams := rfl
@[simp] theorem State.modCnt_ctxs (s : State) (f : Counters → Counters) : (s.modCnt f).ctxs = s.ctxs := rfl
@[simp] theorem State.modCnt_dies (s : State) (f : Counters → Counters) : (s.modCnt f).dies = s.dies := rfl
@[simp] theorem State.modCnt_mem (s : State) (f : Counters → Counters) : (s.modCnt f).mem = s.mem := rfl
@[simp] theorem State.modCnt_keys (s : State) (f : Counters → Counters) : (s.modCnt f).keys = s.keys := rfl
@[simp] theorem State.modCnt_ueLines (s : State) (f : Counters → Counters) : (s.modCnt f).ueLines = s.ueLines := rfl
@[simp] theorem State.modCnt_lostLines (s : State) (f : Counters → Counters) : (s.modCnt f).lostLines = s.lostLines := rfl
@[simp] theorem State.modCnt_dmaWins (s : State) (f : Counters → Counters) : (s.modCnt f).dmaWins = s.dmaWins := rfl
@[simp] theorem State.modCnt_l2 (s : State) (f : Counters → Counters) : (s.modCnt f).l2 = s.l2 := rfl
@[simp] theorem State.modCnt_prefs (s : State) (f : Counters → Counters) : (s.modCnt f).prefs = s.prefs := rfl
@[simp] theorem State.modCnt_fwins (s : State) (f : Counters → Counters) : (s.modCnt f).fwins = s.fwins := rfl
@[simp] theorem State.modCnt_home (s : State) (f : Counters → Counters) : (s.modCnt f).home = s.home := rfl
@[simp] theorem State.modCnt_scHeld (s : State) (f : Counters → Counters) : (s.modCnt f).scHeld = s.scHeld := rfl
@[simp] theorem State.modCnt_scLast (s : State) (f : Counters → Counters) : (s.modCnt f).scLast = s.scLast := rfl
@[simp] theorem State.modCnt_relClk (s : State) (f : Counters → Counters) : (s.modCnt f).relClk = s.relClk := rfl
@[simp] theorem State.modCnt_horizon (s : State) (f : Counters → Counters) : (s.modCnt f).horizon = s.horizon := rfl
@[simp] theorem State.modCnt_meshCyc (s : State) (f : Counters → Counters) : (s.modCnt f).meshCyc = s.meshCyc := rfl
@[simp] theorem State.modCnt_binds (s : State) (f : Counters → Counters) : (s.modCnt f).binds = s.binds := rfl
@[simp] theorem State.modCnt_bindNext (s : State) (f : Counters → Counters) : (s.modCnt f).bindNext = s.bindNext := rfl
@[simp] theorem State.modCnt_ports (s : State) (f : Counters → Counters) : (s.modCnt f).ports = s.ports := rfl
@[simp] theorem State.modCnt_outbox (s : State) (f : Counters → Counters) : (s.modCnt f).outbox = s.outbox := rfl
@[simp] theorem State.modCnt_tokens (s : State) (f : Counters → Counters) : (s.modCnt f).tokens = s.tokens := rfl
@[simp] theorem State.modCnt_cart (s : State) (f : Counters → Counters) : (s.modCnt f).cart = s.cart := rfl
@[simp] theorem State.modCnt_isles (s : State) (f : Counters → Counters) : (s.modCnt f).isles = s.isles := rfl
@[simp] theorem State.modCnt_cap (s : State) (f : Counters → Counters) : (s.modCnt f).cap = s.cap := rfl
@[simp] theorem State.modCnt_plim (s : State) (f : Counters → Counters) : (s.modCnt f).plim = s.plim := rfl
@[simp] theorem State.modCnt_rail (s : State) (f : Counters → Counters) : (s.modCnt f).rail = s.rail := rfl
@[simp] theorem State.modCnt_tripped (s : State) (f : Counters → Counters) : (s.modCnt f).tripped = s.tripped := rfl
@[simp] theorem State.modCnt_ready (s : State) (f : Counters → Counters) : (s.modCnt f).ready = s.ready := rfl
@[simp] theorem State.modCnt_mc (s : State) (f : Counters → Counters) : (s.modCnt f).mc = s.mc := rfl
@[simp] theorem State.modCnt_hostMem (s : State) (f : Counters → Counters) : (s.modCnt f).hostMem = s.hostMem := rfl
@[simp] theorem State.modCnt_hostReads (s : State) (f : Counters → Counters) : (s.modCnt f).hostReads = s.hostReads := rfl
@[simp] theorem State.modCnt_msis (s : State) (f : Counters → Counters) : (s.modCnt f).msis = s.msis := rfl
@[simp] theorem State.modCnt_rotation (s : State) (f : Counters → Counters) : (s.modCnt f).rotation = s.rotation := rfl
@[simp] theorem State.modCnt_slotNs (s : State) (f : Counters → Counters) : (s.modCnt f).slotNs = s.slotNs := rfl

/-! ### What is read back -/

@[simp] theorem State.core_setCore_self (s : State) (i : Nat) (c : Core) : (s.setCore i c).core i = c := tabGet_set_self _ _ _ _
theorem State.core_setCore_ne (s : State) (i j : Nat) (c : Core) (h : j ≠ i) : (s.setCore i c).core j = s.core j :=
  tabGet_set_ne _ _ _ _ _ h
@[simp] theorem State.core_modCore_self (s : State) (i : Nat) (f : Core → Core) : (s.modCore i f).core i = f (s.core i) :=
  tabGet_set_self _ _ _ _
theorem State.core_modCore_ne (s : State) (i j : Nat) (f : Core → Core) (h : j ≠ i) : (s.modCore i f).core j = s.core j :=
  tabGet_set_ne _ _ _ _ _ h
@[simp] theorem State.core_upd_self (s : State) (f : Core → Core) : (s.upd f).core s.cur = f s.me := tabGet_set_self _ _ _ _
theorem State.core_upd_ne (s : State) (j : Nat) (f : Core → Core) (h : j ≠ s.cur) : (s.upd f).core j = s.core j :=
  tabGet_set_ne _ _ _ _ _ h
@[simp] theorem State.me_upd (s : State) (f : Core → Core) : (s.upd f).me = f s.me := tabGet_set_self _ _ _ _
@[simp] theorem State.me_setCore_cur (s : State) (c : Core) : (s.setCore s.cur c).me = c := tabGet_set_self _ _ _ _
@[simp] theorem State.upd_upd (s : State) (f g : Core → Core) : (s.upd f).upd g = s.upd fun c => g (f c) := by
  simp [State.upd, State.modCore, State.setCore, State.core]
@[simp] theorem State.die_modDie_self (s : State) (d : Nat) (f : DieSt → DieSt) : (s.modDie d f).die d = f (s.die d) :=
  tabGet_set_self _ _ _ _
theorem State.die_modDie_ne (s : State) (d e : Nat) (f : DieSt → DieSt) (h : e ≠ d) : (s.modDie d f).die e = s.die e :=
  tabGet_set_ne _ _ _ _ _ h
@[simp] theorem State.ctx_modCtx_self (s : State) (x : Nat) (f : Ctx → Ctx) : (s.modCtx x f).ctx x = f (s.ctx x) :=
  tabGet_set_self _ _ _ _
theorem State.ctx_modCtx_ne (s : State) (x y : Nat) (f : Ctx → Ctx) (h : y ≠ x) : (s.modCtx x f).ctx y = s.ctx y :=
  tabGet_set_ne _ _ _ _ _ h

/-! ### Reads that an update of a core leaves alone -/

@[simp] theorem State.die_setCore (s : State) (i : Nat) (c : Core) (d : Nat) : (s.setCore i c).die d = s.die d := rfl
@[simp] theorem State.ctx_setCore (s : State) (i : Nat) (c : Core) (x : Nat) : (s.setCore i c).ctx x = s.ctx x := rfl
@[simp] theorem State.gByte_setCore (s : State) (i : Nat) (c : Core) (a : Nat) : (s.setCore i c).gByte a = s.gByte a := rfl
@[simp] theorem State.openByte_setCore (s : State) (i : Nat) (c : Core) (a : Nat) : (s.setCore i c).openByte a = s.openByte a := rfl
@[simp] theorem State.gBytes_setCore (s : State) (i : Nat) (c : Core) (a n : Nat) : (s.setCore i c).gBytes a n = s.gBytes a n := rfl
@[simp] theorem State.die_modCore (s : State) (i : Nat) (f : Core → Core) (d : Nat) : (s.modCore i f).die d = s.die d := rfl
@[simp] theorem State.ctx_modCore (s : State) (i : Nat) (f : Core → Core) (x : Nat) : (s.modCore i f).ctx x = s.ctx x := rfl
@[simp] theorem State.gByte_modCore (s : State) (i : Nat) (f : Core → Core) (a : Nat) : (s.modCore i f).gByte a = s.gByte a := rfl
@[simp] theorem State.openByte_modCore (s : State) (i : Nat) (f : Core → Core) (a : Nat) : (s.modCore i f).openByte a = s.openByte a := rfl
@[simp] theorem State.gBytes_modCore (s : State) (i : Nat) (f : Core → Core) (a n : Nat) : (s.modCore i f).gBytes a n = s.gBytes a n := rfl
@[simp] theorem State.die_upd (s : State) (f : Core → Core) (d : Nat) : (s.upd f).die d = s.die d := rfl
@[simp] theorem State.ctx_upd (s : State) (f : Core → Core) (x : Nat) : (s.upd f).ctx x = s.ctx x := rfl
@[simp] theorem State.gByte_upd (s : State) (f : Core → Core) (a : Nat) : (s.upd f).gByte a = s.gByte a := rfl
@[simp] theorem State.openByte_upd (s : State) (f : Core → Core) (a : Nat) : (s.upd f).openByte a = s.openByte a := rfl
@[simp] theorem State.gBytes_upd (s : State) (f : Core → Core) (a n : Nat) : (s.upd f).gBytes a n = s.gBytes a n := rfl
@[simp] theorem State.core_modDie (s : State) (d : Nat) (f : DieSt → DieSt) (i : Nat) : (s.modDie d f).core i = s.core i := rfl
@[simp] theorem State.gByte_modDie (s : State) (d : Nat) (f : DieSt → DieSt) (a : Nat) : (s.modDie d f).gByte a = s.gByte a := rfl
@[simp] theorem State.spByte_modDie (s : State) (d : Nat) (f : DieSt → DieSt) (i a : Nat) : (s.modDie d f).spByte i a = s.spByte i a := rfl
@[simp] theorem State.me_modDie (s : State) (d : Nat) (f : DieSt → DieSt) : (s.modDie d f).me = s.me := rfl
@[simp] theorem State.core_modCtx (s : State) (x : Nat) (f : Ctx → Ctx) (i : Nat) : (s.modCtx x f).core i = s.core i := rfl
@[simp] theorem State.gByte_modCtx (s : State) (x : Nat) (f : Ctx → Ctx) (a : Nat) : (s.modCtx x f).gByte a = s.gByte a := rfl
@[simp] theorem State.spByte_modCtx (s : State) (x : Nat) (f : Ctx → Ctx) (i a : Nat) : (s.modCtx x f).spByte i a = s.spByte i a := rfl
@[simp] theorem State.me_modCtx (s : State) (x : Nat) (f : Ctx → Ctx) : (s.modCtx x f).me = s.me := rfl
@[simp] theorem State.core_modCart (s : State) (f : Cart → Cart) (i : Nat) : (s.modCart f).core i = s.core i := rfl
@[simp] theorem State.gByte_modCart (s : State) (f : Cart → Cart) (a : Nat) : (s.modCart f).gByte a = s.gByte a := rfl
@[simp] theorem State.spByte_modCart (s : State) (f : Cart → Cart) (i a : Nat) : (s.modCart f).spByte i a = s.spByte i a := rfl
@[simp] theorem State.me_modCart (s : State) (f : Cart → Cart) : (s.modCart f).me = s.me := rfl

/-! ### The acting core -/

@[simp] theorem Core.setG_run (c : Core) (n : Nat) (v : Word) : (c.setG n v).run = c.run := rfl
@[simp] theorem Core.setG_team (c : Core) (n : Nat) (v : Word) : (c.setG n v).team = c.team := rfl
@[simp] theorem Core.setG_was (c : Core) (n : Nat) (v : Word) : (c.setG n v).was = c.was := rfl
@[simp] theorem Core.setG_cyc (c : Core) (n : Nat) (v : Word) : (c.setG n v).cyc = c.cyc := rfl
@[simp] theorem Core.setG_nextId (c : Core) (n : Nat) (v : Word) : (c.setG n v).nextId = c.nextId := rfl
@[simp] theorem Core.setG_v (c : Core) (n : Nat) (v : Word) : (c.setG n v).v = c.v := rfl
@[simp] theorem Core.setG_p (c : Core) (n : Nat) (v : Word) : (c.setG n v).p = c.p := rfl
@[simp] theorem Core.setG_gsb (c : Core) (n : Nat) (v : Word) : (c.setG n v).gsb = c.gsb := rfl
@[simp] theorem Core.setG_vsb (c : Core) (n : Nat) (v : Word) : (c.setG n v).vsb = c.vsb := rfl
@[simp] theorem Core.setG_prog (c : Core) (n : Nat) (v : Word) : (c.setG n v).prog = c.prog := rfl
@[simp] theorem Core.setG_hand (c : Core) (n : Nat) (v : Word) : (c.setG n v).hand = c.hand := rfl
@[simp] theorem Core.setG_pc (c : Core) (n : Nat) (v : Word) : (c.setG n v).pc = c.pc := rfl
@[simp] theorem Core.setG_hist (c : Core) (n : Nat) (v : Word) : (c.setG n v).hist = c.hist := rfl
@[simp] theorem Core.setG_savedHist (c : Core) (n : Nat) (v : Word) : (c.setG n v).savedHist = c.savedHist := rfl
@[simp] theorem Core.setG_fetched (c : Core) (n : Nat) (v : Word) : (c.setG n v).fetched = c.fetched := rfl
@[simp] theorem Core.setG_bun (c : Core) (n : Nat) (v : Word) : (c.setG n v).bun = c.bun := rfl
@[simp] theorem Core.setG_pend (c : Core) (n : Nat) (v : Word) : (c.setG n v).pend = c.pend := rfl
@[simp] theorem Core.setG_reent (c : Core) (n : Nat) (v : Word) : (c.setG n v).reent = c.reent := rfl
@[simp] theorem Core.setG_redir (c : Core) (n : Nat) (v : Word) : (c.setG n v).redir = c.redir := rfl
@[simp] theorem Core.setG_issuing (c : Core) (n : Nat) (v : Word) : (c.setG n v).issuing = c.issuing := rfl
@[simp] theorem Core.setG_slot (c : Core) (n : Nat) (v : Word) : (c.setG n v).slot = c.slot := rfl
@[simp] theorem Core.setG_grpSq (c : Core) (n : Nat) (v : Word) : (c.setG n v).grpSq = c.grpSq := rfl
@[simp] theorem Core.setG_grpVq (c : Core) (n : Nat) (v : Word) : (c.setG n v).grpVq = c.grpVq := rfl
@[simp] theorem Core.setG_rest (c : Core) (n : Nat) (v : Word) : (c.setG n v).rest = c.rest := rfl
@[simp] theorem Core.setG_defer (c : Core) (n : Nat) (v : Word) : (c.setG n v).defer = c.defer := rfl
@[simp] theorem Core.setG_grpOld (c : Core) (n : Nat) (v : Word) : (c.setG n v).grpOld = c.grpOld := rfl
@[simp] theorem Core.setG_grpSys (c : Core) (n : Nat) (v : Word) : (c.setG n v).grpSys = c.grpSys := rfl
@[simp] theorem Core.setG_grpBanks (c : Core) (n : Nat) (v : Word) : (c.setG n v).grpBanks = c.grpBanks := rfl
@[simp] theorem Core.setG_snap (c : Core) (n : Nat) (v : Word) : (c.setG n v).snap = c.snap := rfl
@[simp] theorem Core.setG_grpStash (c : Core) (n : Nat) (v : Word) : (c.setG n v).grpStash = c.grpStash := rfl
@[simp] theorem Core.setG_gzAsk (c : Core) (n : Nat) (v : Word) : (c.setG n v).gzAsk = c.gzAsk := rfl
@[simp] theorem Core.setG_gzGrant (c : Core) (n : Nat) (v : Word) : (c.setG n v).gzGrant = c.gzGrant := rfl
@[simp] theorem Core.setG_gzKeep (c : Core) (n : Nat) (v : Word) : (c.setG n v).gzKeep = c.gzKeep := rfl
@[simp] theorem Core.setG_held (c : Core) (n : Nat) (v : Word) : (c.setG n v).held = c.held := rfl
@[simp] theorem Core.setG_sret (c : Core) (n : Nat) (v : Word) : (c.setG n v).sret = c.sret := rfl
@[simp] theorem Core.setG_wbT (c : Core) (n : Nat) (v : Word) : (c.setG n v).wbT = c.wbT := rfl
@[simp] theorem Core.setG_sct (c : Core) (n : Nat) (v : Word) : (c.setG n v).sct = c.sct := rfl
@[simp] theorem Core.setG_moved (c : Core) (n : Nat) (v : Word) : (c.setG n v).moved = c.moved := rfl
@[simp] theorem Core.setG_tm (c : Core) (n : Nat) (v : Word) : (c.setG n v).tm = c.tm := rfl
@[simp] theorem Core.setG_prd (c : Core) (n : Nat) (v : Word) : (c.setG n v).prd = c.prd := rfl
@[simp] theorem Core.setG_pkind (c : Core) (n : Nat) (v : Word) : (c.setG n v).pkind = c.pkind := rfl
@[simp] theorem Core.setG_rsm (c : Core) (n : Nat) (v : Word) : (c.setG n v).rsm = c.rsm := rfl
@[simp] theorem Core.setG_sres (c : Core) (n : Nat) (v : Word) : (c.setG n v).sres = c.sres := rfl
@[simp] theorem Core.setG_qas (c : Core) (n : Nat) (v : Word) : (c.setG n v).qas = c.qas := rfl
@[simp] theorem Core.setG_qav (c : Core) (n : Nat) (v : Word) : (c.setG n v).qav = c.qav := rfl
@[simp] theorem Core.setG_cause (c : Core) (n : Nat) (v : Word) : (c.setG n v).cause = c.cause := rfl
@[simp] theorem Core.setG_epc (c : Core) (n : Nat) (v : Word) : (c.setG n v).epc = c.epc := rfl
@[simp] theorem Core.setG_faddr (c : Core) (n : Nat) (v : Word) : (c.setG n v).faddr = c.faddr := rfl
@[simp] theorem Core.setG_ptgt (c : Core) (n : Nat) (v : Word) : (c.setG n v).ptgt = c.ptgt := rfl
@[simp] theorem Core.setG_sfall (c : Core) (n : Nat) (v : Word) : (c.setG n v).sfall = c.sfall := rfl
@[simp] theorem Core.setG_seed (c : Core) (n : Nat) (v : Word) : (c.setG n v).seed = c.seed := rfl
@[simp] theorem Core.setG_cvsat (c : Core) (n : Nat) (v : Word) : (c.setG n v).cvsat = c.cvsat := rfl
@[simp] theorem Core.setG_tout (c : Core) (n : Nat) (v : Word) : (c.setG n v).tout = c.tout := rfl
@[simp] theorem Core.setG_wval (c : Core) (n : Nat) (v : Word) : (c.setG n v).wval = c.wval := rfl
@[simp] theorem Core.setG_wcmp (c : Core) (n : Nat) (v : Word) : (c.setG n v).wcmp = c.wcmp := rfl
@[simp] theorem Core.setG_wgrn (c : Core) (n : Nat) (v : Word) : (c.setG n v).wgrn = c.wgrn := rfl
@[simp] theorem Core.setG_kund (c : Core) (n : Nat) (v : Word) : (c.setG n v).kund = c.kund := rfl
@[simp] theorem Core.setG_lclk (c : Core) (n : Nat) (v : Word) : (c.setG n v).lclk = c.lclk := rfl
@[simp] theorem Core.setG_wdCount (c : Core) (n : Nat) (v : Word) : (c.setG n v).wdCount = c.wdCount := rfl
@[simp] theorem Core.setG_wdLimit (c : Core) (n : Nat) (v : Word) : (c.setG n v).wdLimit = c.wdLimit := rfl
@[simp] theorem Core.setG_wdDue (c : Core) (n : Nat) (v : Word) : (c.setG n v).wdDue = c.wdDue := rfl
@[simp] theorem Core.setG_wdFrom (c : Core) (n : Nat) (v : Word) : (c.setG n v).wdFrom = c.wdFrom := rfl
@[simp] theorem Core.setG_slen (c : Core) (n : Nat) (v : Word) : (c.setG n v).slen = c.slen := rfl
@[simp] theorem Core.setG_spos (c : Core) (n : Nat) (v : Word) : (c.setG n v).spos = c.spos := rfl
@[simp] theorem Core.setG_tvec (c : Core) (n : Nat) (v : Word) : (c.setG n v).tvec = c.tvec := rfl
@[simp] theorem Core.setG_dcause (c : Core) (n : Nat) (v : Word) : (c.setG n v).dcause = c.dcause := rfl
@[simp] theorem Core.setG_spFill (c : Core) (n : Nat) (v : Word) : (c.setG n v).spFill = c.spFill := rfl
@[simp] theorem Core.setG_sp (c : Core) (n : Nat) (v : Word) : (c.setG n v).sp = c.sp := rfl
@[simp] theorem Core.setG_tags (c : Core) (n : Nat) (v : Word) : (c.setG n v).tags = c.tags := rfl
@[simp] theorem Core.setG_rs (c : Core) (n : Nat) (v : Word) : (c.setG n v).rs = c.rs := rfl
@[simp] theorem Core.setG_vclk (c : Core) (n : Nat) (v : Word) : (c.setG n v).vclk = c.vclk := rfl
@[simp] theorem Core.setG_barVecs (c : Core) (n : Nat) (v : Word) : (c.setG n v).barVecs = c.barVecs := rfl
@[simp] theorem Core.setG_barArrs (c : Core) (n : Nat) (v : Word) : (c.setG n v).barArrs = c.barArrs := rfl
@[simp] theorem Core.setG_ob (c : Core) (n : Nat) (v : Word) : (c.setG n v).ob = c.ob := rfl
@[simp] theorem Core.setG_ac (c : Core) (n : Nat) (v : Word) : (c.setG n v).ac = c.ac := rfl
@[simp] theorem Core.setG_mmas (c : Core) (n : Nat) (v : Word) : (c.setG n v).mmas = c.mmas := rfl
@[simp] theorem Core.setG_lastMma (c : Core) (n : Nat) (v : Word) : (c.setG n v).lastMma = c.lastMma := rfl
@[simp] theorem Core.setG_tqs (c : Core) (n : Nat) (v : Word) : (c.setG n v).tqs = c.tqs := rfl
@[simp] theorem Core.setG_k (c : Core) (n : Nat) (v : Word) : (c.setG n v).k = c.k := rfl
@[simp] theorem Core.setG_kclk (c : Core) (n : Nat) (v : Word) : (c.setG n v).kclk = c.kclk := rfl
@[simp] theorem Core.setG_e0 (c : Core) (n : Nat) (v : Word) : (c.setG n v).e0 = c.e0 := rfl
@[simp] theorem Core.setG_e1 (c : Core) (n : Nat) (v : Word) : (c.setG n v).e1 = c.e1 := rfl
@[simp] theorem Core.setG_cbs (c : Core) (n : Nat) (v : Word) : (c.setG n v).cbs = c.cbs := rfl
@[simp] theorem Core.setG_binds (c : Core) (n : Nat) (v : Word) : (c.setG n v).binds = c.binds := rfl
@[simp] theorem Core.setG_wcs (c : Core) (n : Nat) (v : Word) : (c.setG n v).wcs = c.wcs := rfl
@[simp] theorem Core.setG_wakeq (c : Core) (n : Nat) (v : Word) : (c.setG n v).wakeq = c.wakeq := rfl
@[simp] theorem Core.setG_stash (c : Core) (n : Nat) (v : Word) : (c.setG n v).stash = c.stash := rfl
@[simp] theorem Core.setG_chq (c : Core) (n : Nat) (v : Word) : (c.setG n v).chq = c.chq := rfl
@[simp] theorem Core.setG_recvs (c : Core) (n : Nat) (v : Word) : (c.setG n v).recvs = c.recvs := rfl
@[simp] theorem Core.setG_colFaults (c : Core) (n : Nat) (v : Word) : (c.setG n v).colFaults = c.colFaults := rfl
@[simp] theorem Core.setG_nft (c : Core) (n : Nat) (v : Word) : (c.setG n v).nft = c.nft := rfl
@[simp] theorem Core.setG_sched (c : Core) (n : Nat) (v : Word) : (c.setG n v).sched = c.sched := rfl
@[simp] theorem Core.setG_tlb (c : Core) (n : Nat) (v : Word) : (c.setG n v).tlb = c.tlb := rfl
@[simp] theorem Core.setG_etlb0 (c : Core) (n : Nat) (v : Word) : (c.setG n v).etlb0 = c.etlb0 := rfl
@[simp] theorem Core.setG_etlb1 (c : Core) (n : Nat) (v : Word) : (c.setG n v).etlb1 = c.etlb1 := rfl
@[simp] theorem Core.setG_wflt (c : Core) (n : Nat) (v : Word) : (c.setG n v).wflt = c.wflt := rfl
@[simp] theorem Core.setG_cal (c : Core) (n : Nat) (v : Word) : (c.setG n v).cal = c.cal := rfl
@[simp] theorem Core.setG_flights (c : Core) (n : Nat) (v : Word) : (c.setG n v).flights = c.flights := rfl
@[simp] theorem Core.setG_mesh (c : Core) (n : Nat) (v : Word) : (c.setG n v).mesh = c.mesh := rfl
@[simp] theorem Core.setG_token (c : Core) (n : Nat) (v : Word) : (c.setG n v).token = c.token := rfl
@[simp] theorem Core.setG_regUe (c : Core) (n : Nat) (v : Word) : (c.setG n v).regUe = c.regUe := rfl
@[simp] theorem Core.setV_run (c : Core) (n : Nat) (v : Vec) : (c.setV n v).run = c.run := rfl
@[simp] theorem Core.setV_team (c : Core) (n : Nat) (v : Vec) : (c.setV n v).team = c.team := rfl
@[simp] theorem Core.setV_was (c : Core) (n : Nat) (v : Vec) : (c.setV n v).was = c.was := rfl
@[simp] theorem Core.setV_cyc (c : Core) (n : Nat) (v : Vec) : (c.setV n v).cyc = c.cyc := rfl
@[simp] theorem Core.setV_nextId (c : Core) (n : Nat) (v : Vec) : (c.setV n v).nextId = c.nextId := rfl
@[simp] theorem Core.setV_g (c : Core) (n : Nat) (v : Vec) : (c.setV n v).g = c.g := rfl
@[simp] theorem Core.setV_p (c : Core) (n : Nat) (v : Vec) : (c.setV n v).p = c.p := rfl
@[simp] theorem Core.setV_gsb (c : Core) (n : Nat) (v : Vec) : (c.setV n v).gsb = c.gsb := rfl
@[simp] theorem Core.setV_vsb (c : Core) (n : Nat) (v : Vec) : (c.setV n v).vsb = c.vsb := rfl
@[simp] theorem Core.setV_prog (c : Core) (n : Nat) (v : Vec) : (c.setV n v).prog = c.prog := rfl
@[simp] theorem Core.setV_hand (c : Core) (n : Nat) (v : Vec) : (c.setV n v).hand = c.hand := rfl
@[simp] theorem Core.setV_pc (c : Core) (n : Nat) (v : Vec) : (c.setV n v).pc = c.pc := rfl
@[simp] theorem Core.setV_hist (c : Core) (n : Nat) (v : Vec) : (c.setV n v).hist = c.hist := rfl
@[simp] theorem Core.setV_savedHist (c : Core) (n : Nat) (v : Vec) : (c.setV n v).savedHist = c.savedHist := rfl
@[simp] theorem Core.setV_fetched (c : Core) (n : Nat) (v : Vec) : (c.setV n v).fetched = c.fetched := rfl
@[simp] theorem Core.setV_bun (c : Core) (n : Nat) (v : Vec) : (c.setV n v).bun = c.bun := rfl
@[simp] theorem Core.setV_pend (c : Core) (n : Nat) (v : Vec) : (c.setV n v).pend = c.pend := rfl
@[simp] theorem Core.setV_reent (c : Core) (n : Nat) (v : Vec) : (c.setV n v).reent = c.reent := rfl
@[simp] theorem Core.setV_redir (c : Core) (n : Nat) (v : Vec) : (c.setV n v).redir = c.redir := rfl
@[simp] theorem Core.setV_issuing (c : Core) (n : Nat) (v : Vec) : (c.setV n v).issuing = c.issuing := rfl
@[simp] theorem Core.setV_slot (c : Core) (n : Nat) (v : Vec) : (c.setV n v).slot = c.slot := rfl
@[simp] theorem Core.setV_grpSq (c : Core) (n : Nat) (v : Vec) : (c.setV n v).grpSq = c.grpSq := rfl
@[simp] theorem Core.setV_grpVq (c : Core) (n : Nat) (v : Vec) : (c.setV n v).grpVq = c.grpVq := rfl
@[simp] theorem Core.setV_rest (c : Core) (n : Nat) (v : Vec) : (c.setV n v).rest = c.rest := rfl
@[simp] theorem Core.setV_defer (c : Core) (n : Nat) (v : Vec) : (c.setV n v).defer = c.defer := rfl
@[simp] theorem Core.setV_grpOld (c : Core) (n : Nat) (v : Vec) : (c.setV n v).grpOld = c.grpOld := rfl
@[simp] theorem Core.setV_grpSys (c : Core) (n : Nat) (v : Vec) : (c.setV n v).grpSys = c.grpSys := rfl
@[simp] theorem Core.setV_grpBanks (c : Core) (n : Nat) (v : Vec) : (c.setV n v).grpBanks = c.grpBanks := rfl
@[simp] theorem Core.setV_snap (c : Core) (n : Nat) (v : Vec) : (c.setV n v).snap = c.snap := rfl
@[simp] theorem Core.setV_grpStash (c : Core) (n : Nat) (v : Vec) : (c.setV n v).grpStash = c.grpStash := rfl
@[simp] theorem Core.setV_gzAsk (c : Core) (n : Nat) (v : Vec) : (c.setV n v).gzAsk = c.gzAsk := rfl
@[simp] theorem Core.setV_gzGrant (c : Core) (n : Nat) (v : Vec) : (c.setV n v).gzGrant = c.gzGrant := rfl
@[simp] theorem Core.setV_gzKeep (c : Core) (n : Nat) (v : Vec) : (c.setV n v).gzKeep = c.gzKeep := rfl
@[simp] theorem Core.setV_held (c : Core) (n : Nat) (v : Vec) : (c.setV n v).held = c.held := rfl
@[simp] theorem Core.setV_sret (c : Core) (n : Nat) (v : Vec) : (c.setV n v).sret = c.sret := rfl
@[simp] theorem Core.setV_wbT (c : Core) (n : Nat) (v : Vec) : (c.setV n v).wbT = c.wbT := rfl
@[simp] theorem Core.setV_sct (c : Core) (n : Nat) (v : Vec) : (c.setV n v).sct = c.sct := rfl
@[simp] theorem Core.setV_moved (c : Core) (n : Nat) (v : Vec) : (c.setV n v).moved = c.moved := rfl
@[simp] theorem Core.setV_tm (c : Core) (n : Nat) (v : Vec) : (c.setV n v).tm = c.tm := rfl
@[simp] theorem Core.setV_prd (c : Core) (n : Nat) (v : Vec) : (c.setV n v).prd = c.prd := rfl
@[simp] theorem Core.setV_pkind (c : Core) (n : Nat) (v : Vec) : (c.setV n v).pkind = c.pkind := rfl
@[simp] theorem Core.setV_rsm (c : Core) (n : Nat) (v : Vec) : (c.setV n v).rsm = c.rsm := rfl
@[simp] theorem Core.setV_sres (c : Core) (n : Nat) (v : Vec) : (c.setV n v).sres = c.sres := rfl
@[simp] theorem Core.setV_qas (c : Core) (n : Nat) (v : Vec) : (c.setV n v).qas = c.qas := rfl
@[simp] theorem Core.setV_qav (c : Core) (n : Nat) (v : Vec) : (c.setV n v).qav = c.qav := rfl
@[simp] theorem Core.setV_cause (c : Core) (n : Nat) (v : Vec) : (c.setV n v).cause = c.cause := rfl
@[simp] theorem Core.setV_epc (c : Core) (n : Nat) (v : Vec) : (c.setV n v).epc = c.epc := rfl
@[simp] theorem Core.setV_faddr (c : Core) (n : Nat) (v : Vec) : (c.setV n v).faddr = c.faddr := rfl
@[simp] theorem Core.setV_ptgt (c : Core) (n : Nat) (v : Vec) : (c.setV n v).ptgt = c.ptgt := rfl
@[simp] theorem Core.setV_sfall (c : Core) (n : Nat) (v : Vec) : (c.setV n v).sfall = c.sfall := rfl
@[simp] theorem Core.setV_seed (c : Core) (n : Nat) (v : Vec) : (c.setV n v).seed = c.seed := rfl
@[simp] theorem Core.setV_cvsat (c : Core) (n : Nat) (v : Vec) : (c.setV n v).cvsat = c.cvsat := rfl
@[simp] theorem Core.setV_tout (c : Core) (n : Nat) (v : Vec) : (c.setV n v).tout = c.tout := rfl
@[simp] theorem Core.setV_wval (c : Core) (n : Nat) (v : Vec) : (c.setV n v).wval = c.wval := rfl
@[simp] theorem Core.setV_wcmp (c : Core) (n : Nat) (v : Vec) : (c.setV n v).wcmp = c.wcmp := rfl
@[simp] theorem Core.setV_wgrn (c : Core) (n : Nat) (v : Vec) : (c.setV n v).wgrn = c.wgrn := rfl
@[simp] theorem Core.setV_kund (c : Core) (n : Nat) (v : Vec) : (c.setV n v).kund = c.kund := rfl
@[simp] theorem Core.setV_lclk (c : Core) (n : Nat) (v : Vec) : (c.setV n v).lclk = c.lclk := rfl
@[simp] theorem Core.setV_wdCount (c : Core) (n : Nat) (v : Vec) : (c.setV n v).wdCount = c.wdCount := rfl
@[simp] theorem Core.setV_wdLimit (c : Core) (n : Nat) (v : Vec) : (c.setV n v).wdLimit = c.wdLimit := rfl
@[simp] theorem Core.setV_wdDue (c : Core) (n : Nat) (v : Vec) : (c.setV n v).wdDue = c.wdDue := rfl
@[simp] theorem Core.setV_wdFrom (c : Core) (n : Nat) (v : Vec) : (c.setV n v).wdFrom = c.wdFrom := rfl
@[simp] theorem Core.setV_slen (c : Core) (n : Nat) (v : Vec) : (c.setV n v).slen = c.slen := rfl
@[simp] theorem Core.setV_spos (c : Core) (n : Nat) (v : Vec) : (c.setV n v).spos = c.spos := rfl
@[simp] theorem Core.setV_tvec (c : Core) (n : Nat) (v : Vec) : (c.setV n v).tvec = c.tvec := rfl
@[simp] theorem Core.setV_dcause (c : Core) (n : Nat) (v : Vec) : (c.setV n v).dcause = c.dcause := rfl
@[simp] theorem Core.setV_spFill (c : Core) (n : Nat) (v : Vec) : (c.setV n v).spFill = c.spFill := rfl
@[simp] theorem Core.setV_sp (c : Core) (n : Nat) (v : Vec) : (c.setV n v).sp = c.sp := rfl
@[simp] theorem Core.setV_tags (c : Core) (n : Nat) (v : Vec) : (c.setV n v).tags = c.tags := rfl
@[simp] theorem Core.setV_rs (c : Core) (n : Nat) (v : Vec) : (c.setV n v).rs = c.rs := rfl
@[simp] theorem Core.setV_vclk (c : Core) (n : Nat) (v : Vec) : (c.setV n v).vclk = c.vclk := rfl
@[simp] theorem Core.setV_barVecs (c : Core) (n : Nat) (v : Vec) : (c.setV n v).barVecs = c.barVecs := rfl
@[simp] theorem Core.setV_barArrs (c : Core) (n : Nat) (v : Vec) : (c.setV n v).barArrs = c.barArrs := rfl
@[simp] theorem Core.setV_ob (c : Core) (n : Nat) (v : Vec) : (c.setV n v).ob = c.ob := rfl
@[simp] theorem Core.setV_ac (c : Core) (n : Nat) (v : Vec) : (c.setV n v).ac = c.ac := rfl
@[simp] theorem Core.setV_mmas (c : Core) (n : Nat) (v : Vec) : (c.setV n v).mmas = c.mmas := rfl
@[simp] theorem Core.setV_lastMma (c : Core) (n : Nat) (v : Vec) : (c.setV n v).lastMma = c.lastMma := rfl
@[simp] theorem Core.setV_tqs (c : Core) (n : Nat) (v : Vec) : (c.setV n v).tqs = c.tqs := rfl
@[simp] theorem Core.setV_k (c : Core) (n : Nat) (v : Vec) : (c.setV n v).k = c.k := rfl
@[simp] theorem Core.setV_kclk (c : Core) (n : Nat) (v : Vec) : (c.setV n v).kclk = c.kclk := rfl
@[simp] theorem Core.setV_e0 (c : Core) (n : Nat) (v : Vec) : (c.setV n v).e0 = c.e0 := rfl
@[simp] theorem Core.setV_e1 (c : Core) (n : Nat) (v : Vec) : (c.setV n v).e1 = c.e1 := rfl
@[simp] theorem Core.setV_cbs (c : Core) (n : Nat) (v : Vec) : (c.setV n v).cbs = c.cbs := rfl
@[simp] theorem Core.setV_binds (c : Core) (n : Nat) (v : Vec) : (c.setV n v).binds = c.binds := rfl
@[simp] theorem Core.setV_wcs (c : Core) (n : Nat) (v : Vec) : (c.setV n v).wcs = c.wcs := rfl
@[simp] theorem Core.setV_wakeq (c : Core) (n : Nat) (v : Vec) : (c.setV n v).wakeq = c.wakeq := rfl
@[simp] theorem Core.setV_stash (c : Core) (n : Nat) (v : Vec) : (c.setV n v).stash = c.stash := rfl
@[simp] theorem Core.setV_chq (c : Core) (n : Nat) (v : Vec) : (c.setV n v).chq = c.chq := rfl
@[simp] theorem Core.setV_recvs (c : Core) (n : Nat) (v : Vec) : (c.setV n v).recvs = c.recvs := rfl
@[simp] theorem Core.setV_colFaults (c : Core) (n : Nat) (v : Vec) : (c.setV n v).colFaults = c.colFaults := rfl
@[simp] theorem Core.setV_nft (c : Core) (n : Nat) (v : Vec) : (c.setV n v).nft = c.nft := rfl
@[simp] theorem Core.setV_sched (c : Core) (n : Nat) (v : Vec) : (c.setV n v).sched = c.sched := rfl
@[simp] theorem Core.setV_tlb (c : Core) (n : Nat) (v : Vec) : (c.setV n v).tlb = c.tlb := rfl
@[simp] theorem Core.setV_etlb0 (c : Core) (n : Nat) (v : Vec) : (c.setV n v).etlb0 = c.etlb0 := rfl
@[simp] theorem Core.setV_etlb1 (c : Core) (n : Nat) (v : Vec) : (c.setV n v).etlb1 = c.etlb1 := rfl
@[simp] theorem Core.setV_wflt (c : Core) (n : Nat) (v : Vec) : (c.setV n v).wflt = c.wflt := rfl
@[simp] theorem Core.setV_cal (c : Core) (n : Nat) (v : Vec) : (c.setV n v).cal = c.cal := rfl
@[simp] theorem Core.setV_flights (c : Core) (n : Nat) (v : Vec) : (c.setV n v).flights = c.flights := rfl
@[simp] theorem Core.setV_mesh (c : Core) (n : Nat) (v : Vec) : (c.setV n v).mesh = c.mesh := rfl
@[simp] theorem Core.setV_token (c : Core) (n : Nat) (v : Vec) : (c.setV n v).token = c.token := rfl
@[simp] theorem Core.setV_regUe (c : Core) (n : Nat) (v : Vec) : (c.setV n v).regUe = c.regUe := rfl
@[simp] theorem Core.setP_run (c : Core) (n : Nat) (v : Word) : (c.setP n v).run = c.run := rfl
@[simp] theorem Core.setP_team (c : Core) (n : Nat) (v : Word) : (c.setP n v).team = c.team := rfl
@[simp] theorem Core.setP_was (c : Core) (n : Nat) (v : Word) : (c.setP n v).was = c.was := rfl
@[simp] theorem Core.setP_cyc (c : Core) (n : Nat) (v : Word) : (c.setP n v).cyc = c.cyc := rfl
@[simp] theorem Core.setP_nextId (c : Core) (n : Nat) (v : Word) : (c.setP n v).nextId = c.nextId := rfl
@[simp] theorem Core.setP_g (c : Core) (n : Nat) (v : Word) : (c.setP n v).g = c.g := rfl
@[simp] theorem Core.setP_v (c : Core) (n : Nat) (v : Word) : (c.setP n v).v = c.v := rfl
@[simp] theorem Core.setP_gsb (c : Core) (n : Nat) (v : Word) : (c.setP n v).gsb = c.gsb := rfl
@[simp] theorem Core.setP_vsb (c : Core) (n : Nat) (v : Word) : (c.setP n v).vsb = c.vsb := rfl
@[simp] theorem Core.setP_prog (c : Core) (n : Nat) (v : Word) : (c.setP n v).prog = c.prog := rfl
@[simp] theorem Core.setP_hand (c : Core) (n : Nat) (v : Word) : (c.setP n v).hand = c.hand := rfl
@[simp] theorem Core.setP_pc (c : Core) (n : Nat) (v : Word) : (c.setP n v).pc = c.pc := rfl
@[simp] theorem Core.setP_hist (c : Core) (n : Nat) (v : Word) : (c.setP n v).hist = c.hist := rfl
@[simp] theorem Core.setP_savedHist (c : Core) (n : Nat) (v : Word) : (c.setP n v).savedHist = c.savedHist := rfl
@[simp] theorem Core.setP_fetched (c : Core) (n : Nat) (v : Word) : (c.setP n v).fetched = c.fetched := rfl
@[simp] theorem Core.setP_bun (c : Core) (n : Nat) (v : Word) : (c.setP n v).bun = c.bun := rfl
@[simp] theorem Core.setP_pend (c : Core) (n : Nat) (v : Word) : (c.setP n v).pend = c.pend := rfl
@[simp] theorem Core.setP_reent (c : Core) (n : Nat) (v : Word) : (c.setP n v).reent = c.reent := rfl
@[simp] theorem Core.setP_redir (c : Core) (n : Nat) (v : Word) : (c.setP n v).redir = c.redir := rfl
@[simp] theorem Core.setP_issuing (c : Core) (n : Nat) (v : Word) : (c.setP n v).issuing = c.issuing := rfl
@[simp] theorem Core.setP_slot (c : Core) (n : Nat) (v : Word) : (c.setP n v).slot = c.slot := rfl
@[simp] theorem Core.setP_grpSq (c : Core) (n : Nat) (v : Word) : (c.setP n v).grpSq = c.grpSq := rfl
@[simp] theorem Core.setP_grpVq (c : Core) (n : Nat) (v : Word) : (c.setP n v).grpVq = c.grpVq := rfl
@[simp] theorem Core.setP_rest (c : Core) (n : Nat) (v : Word) : (c.setP n v).rest = c.rest := rfl
@[simp] theorem Core.setP_defer (c : Core) (n : Nat) (v : Word) : (c.setP n v).defer = c.defer := rfl
@[simp] theorem Core.setP_grpOld (c : Core) (n : Nat) (v : Word) : (c.setP n v).grpOld = c.grpOld := rfl
@[simp] theorem Core.setP_grpSys (c : Core) (n : Nat) (v : Word) : (c.setP n v).grpSys = c.grpSys := rfl
@[simp] theorem Core.setP_grpBanks (c : Core) (n : Nat) (v : Word) : (c.setP n v).grpBanks = c.grpBanks := rfl
@[simp] theorem Core.setP_snap (c : Core) (n : Nat) (v : Word) : (c.setP n v).snap = c.snap := rfl
@[simp] theorem Core.setP_grpStash (c : Core) (n : Nat) (v : Word) : (c.setP n v).grpStash = c.grpStash := rfl
@[simp] theorem Core.setP_gzAsk (c : Core) (n : Nat) (v : Word) : (c.setP n v).gzAsk = c.gzAsk := rfl
@[simp] theorem Core.setP_gzGrant (c : Core) (n : Nat) (v : Word) : (c.setP n v).gzGrant = c.gzGrant := rfl
@[simp] theorem Core.setP_gzKeep (c : Core) (n : Nat) (v : Word) : (c.setP n v).gzKeep = c.gzKeep := rfl
@[simp] theorem Core.setP_held (c : Core) (n : Nat) (v : Word) : (c.setP n v).held = c.held := rfl
@[simp] theorem Core.setP_sret (c : Core) (n : Nat) (v : Word) : (c.setP n v).sret = c.sret := rfl
@[simp] theorem Core.setP_wbT (c : Core) (n : Nat) (v : Word) : (c.setP n v).wbT = c.wbT := rfl
@[simp] theorem Core.setP_sct (c : Core) (n : Nat) (v : Word) : (c.setP n v).sct = c.sct := rfl
@[simp] theorem Core.setP_moved (c : Core) (n : Nat) (v : Word) : (c.setP n v).moved = c.moved := rfl
@[simp] theorem Core.setP_tm (c : Core) (n : Nat) (v : Word) : (c.setP n v).tm = c.tm := rfl
@[simp] theorem Core.setP_prd (c : Core) (n : Nat) (v : Word) : (c.setP n v).prd = c.prd := rfl
@[simp] theorem Core.setP_pkind (c : Core) (n : Nat) (v : Word) : (c.setP n v).pkind = c.pkind := rfl
@[simp] theorem Core.setP_rsm (c : Core) (n : Nat) (v : Word) : (c.setP n v).rsm = c.rsm := rfl
@[simp] theorem Core.setP_sres (c : Core) (n : Nat) (v : Word) : (c.setP n v).sres = c.sres := rfl
@[simp] theorem Core.setP_qas (c : Core) (n : Nat) (v : Word) : (c.setP n v).qas = c.qas := rfl
@[simp] theorem Core.setP_qav (c : Core) (n : Nat) (v : Word) : (c.setP n v).qav = c.qav := rfl
@[simp] theorem Core.setP_cause (c : Core) (n : Nat) (v : Word) : (c.setP n v).cause = c.cause := rfl
@[simp] theorem Core.setP_epc (c : Core) (n : Nat) (v : Word) : (c.setP n v).epc = c.epc := rfl
@[simp] theorem Core.setP_faddr (c : Core) (n : Nat) (v : Word) : (c.setP n v).faddr = c.faddr := rfl
@[simp] theorem Core.setP_ptgt (c : Core) (n : Nat) (v : Word) : (c.setP n v).ptgt = c.ptgt := rfl
@[simp] theorem Core.setP_sfall (c : Core) (n : Nat) (v : Word) : (c.setP n v).sfall = c.sfall := rfl
@[simp] theorem Core.setP_seed (c : Core) (n : Nat) (v : Word) : (c.setP n v).seed = c.seed := rfl
@[simp] theorem Core.setP_cvsat (c : Core) (n : Nat) (v : Word) : (c.setP n v).cvsat = c.cvsat := rfl
@[simp] theorem Core.setP_tout (c : Core) (n : Nat) (v : Word) : (c.setP n v).tout = c.tout := rfl
@[simp] theorem Core.setP_wval (c : Core) (n : Nat) (v : Word) : (c.setP n v).wval = c.wval := rfl
@[simp] theorem Core.setP_wcmp (c : Core) (n : Nat) (v : Word) : (c.setP n v).wcmp = c.wcmp := rfl
@[simp] theorem Core.setP_wgrn (c : Core) (n : Nat) (v : Word) : (c.setP n v).wgrn = c.wgrn := rfl
@[simp] theorem Core.setP_kund (c : Core) (n : Nat) (v : Word) : (c.setP n v).kund = c.kund := rfl
@[simp] theorem Core.setP_lclk (c : Core) (n : Nat) (v : Word) : (c.setP n v).lclk = c.lclk := rfl
@[simp] theorem Core.setP_wdCount (c : Core) (n : Nat) (v : Word) : (c.setP n v).wdCount = c.wdCount := rfl
@[simp] theorem Core.setP_wdLimit (c : Core) (n : Nat) (v : Word) : (c.setP n v).wdLimit = c.wdLimit := rfl
@[simp] theorem Core.setP_wdDue (c : Core) (n : Nat) (v : Word) : (c.setP n v).wdDue = c.wdDue := rfl
@[simp] theorem Core.setP_wdFrom (c : Core) (n : Nat) (v : Word) : (c.setP n v).wdFrom = c.wdFrom := rfl
@[simp] theorem Core.setP_slen (c : Core) (n : Nat) (v : Word) : (c.setP n v).slen = c.slen := rfl
@[simp] theorem Core.setP_spos (c : Core) (n : Nat) (v : Word) : (c.setP n v).spos = c.spos := rfl
@[simp] theorem Core.setP_tvec (c : Core) (n : Nat) (v : Word) : (c.setP n v).tvec = c.tvec := rfl
@[simp] theorem Core.setP_dcause (c : Core) (n : Nat) (v : Word) : (c.setP n v).dcause = c.dcause := rfl
@[simp] theorem Core.setP_spFill (c : Core) (n : Nat) (v : Word) : (c.setP n v).spFill = c.spFill := rfl
@[simp] theorem Core.setP_sp (c : Core) (n : Nat) (v : Word) : (c.setP n v).sp = c.sp := rfl
@[simp] theorem Core.setP_tags (c : Core) (n : Nat) (v : Word) : (c.setP n v).tags = c.tags := rfl
@[simp] theorem Core.setP_rs (c : Core) (n : Nat) (v : Word) : (c.setP n v).rs = c.rs := rfl
@[simp] theorem Core.setP_vclk (c : Core) (n : Nat) (v : Word) : (c.setP n v).vclk = c.vclk := rfl
@[simp] theorem Core.setP_barVecs (c : Core) (n : Nat) (v : Word) : (c.setP n v).barVecs = c.barVecs := rfl
@[simp] theorem Core.setP_barArrs (c : Core) (n : Nat) (v : Word) : (c.setP n v).barArrs = c.barArrs := rfl
@[simp] theorem Core.setP_ob (c : Core) (n : Nat) (v : Word) : (c.setP n v).ob = c.ob := rfl
@[simp] theorem Core.setP_ac (c : Core) (n : Nat) (v : Word) : (c.setP n v).ac = c.ac := rfl
@[simp] theorem Core.setP_mmas (c : Core) (n : Nat) (v : Word) : (c.setP n v).mmas = c.mmas := rfl
@[simp] theorem Core.setP_lastMma (c : Core) (n : Nat) (v : Word) : (c.setP n v).lastMma = c.lastMma := rfl
@[simp] theorem Core.setP_tqs (c : Core) (n : Nat) (v : Word) : (c.setP n v).tqs = c.tqs := rfl
@[simp] theorem Core.setP_k (c : Core) (n : Nat) (v : Word) : (c.setP n v).k = c.k := rfl
@[simp] theorem Core.setP_kclk (c : Core) (n : Nat) (v : Word) : (c.setP n v).kclk = c.kclk := rfl
@[simp] theorem Core.setP_e0 (c : Core) (n : Nat) (v : Word) : (c.setP n v).e0 = c.e0 := rfl
@[simp] theorem Core.setP_e1 (c : Core) (n : Nat) (v : Word) : (c.setP n v).e1 = c.e1 := rfl
@[simp] theorem Core.setP_cbs (c : Core) (n : Nat) (v : Word) : (c.setP n v).cbs = c.cbs := rfl
@[simp] theorem Core.setP_binds (c : Core) (n : Nat) (v : Word) : (c.setP n v).binds = c.binds := rfl
@[simp] theorem Core.setP_wcs (c : Core) (n : Nat) (v : Word) : (c.setP n v).wcs = c.wcs := rfl
@[simp] theorem Core.setP_wakeq (c : Core) (n : Nat) (v : Word) : (c.setP n v).wakeq = c.wakeq := rfl
@[simp] theorem Core.setP_stash (c : Core) (n : Nat) (v : Word) : (c.setP n v).stash = c.stash := rfl
@[simp] theorem Core.setP_chq (c : Core) (n : Nat) (v : Word) : (c.setP n v).chq = c.chq := rfl
@[simp] theorem Core.setP_recvs (c : Core) (n : Nat) (v : Word) : (c.setP n v).recvs = c.recvs := rfl
@[simp] theorem Core.setP_colFaults (c : Core) (n : Nat) (v : Word) : (c.setP n v).colFaults = c.colFaults := rfl
@[simp] theorem Core.setP_nft (c : Core) (n : Nat) (v : Word) : (c.setP n v).nft = c.nft := rfl
@[simp] theorem Core.setP_sched (c : Core) (n : Nat) (v : Word) : (c.setP n v).sched = c.sched := rfl
@[simp] theorem Core.setP_tlb (c : Core) (n : Nat) (v : Word) : (c.setP n v).tlb = c.tlb := rfl
@[simp] theorem Core.setP_etlb0 (c : Core) (n : Nat) (v : Word) : (c.setP n v).etlb0 = c.etlb0 := rfl
@[simp] theorem Core.setP_etlb1 (c : Core) (n : Nat) (v : Word) : (c.setP n v).etlb1 = c.etlb1 := rfl
@[simp] theorem Core.setP_wflt (c : Core) (n : Nat) (v : Word) : (c.setP n v).wflt = c.wflt := rfl
@[simp] theorem Core.setP_cal (c : Core) (n : Nat) (v : Word) : (c.setP n v).cal = c.cal := rfl
@[simp] theorem Core.setP_flights (c : Core) (n : Nat) (v : Word) : (c.setP n v).flights = c.flights := rfl
@[simp] theorem Core.setP_mesh (c : Core) (n : Nat) (v : Word) : (c.setP n v).mesh = c.mesh := rfl
@[simp] theorem Core.setP_token (c : Core) (n : Nat) (v : Word) : (c.setP n v).token = c.token := rfl
@[simp] theorem Core.setP_regUe (c : Core) (n : Nat) (v : Word) : (c.setP n v).regUe = c.regUe := rfl
@[simp] theorem Core.markG_run (c : Core) (n : Nat) (m : RegMark) : (c.markG n m).run = c.run := rfl
@[simp] theorem Core.markG_team (c : Core) (n : Nat) (m : RegMark) : (c.markG n m).team = c.team := rfl
@[simp] theorem Core.markG_was (c : Core) (n : Nat) (m : RegMark) : (c.markG n m).was = c.was := rfl
@[simp] theorem Core.markG_cyc (c : Core) (n : Nat) (m : RegMark) : (c.markG n m).cyc = c.cyc := rfl
@[simp] theorem Core.markG_nextId (c : Core) (n : Nat) (m : RegMark) : (c.markG n m).nextId = c.nextId := rfl
@[simp] theorem Core.markG_g (c : Core) (n : Nat) (m : RegMark) : (c.markG n m).g = c.g := rfl
@[simp] theorem Core.markG_v (c : Core) (n : Nat) (m : RegMark) : (c.markG n m).v = c.v := rfl
@[simp] theorem Core.markG_p (c : Core) (n : Nat) (m : RegMark) : (c.markG n m).p = c.p := rfl
@[simp] theorem Core.markG_vsb (c : Core) (n : Nat) (m : RegMark) : (c.markG n m).vsb = c.vsb := rfl
@[simp] theorem Core.markG_prog (c : Core) (n : Nat) (m : RegMark) : (c.markG n m).prog = c.prog := rfl
@[simp] theorem Core.markG_hand (c : Core) (n : Nat) (m : RegMark) : (c.markG n m).hand = c.hand := rfl
@[simp] theorem Core.markG_pc (c : Core) (n : Nat) (m : RegMark) : (c.markG n m).pc = c.pc := rfl
@[simp] theorem Core.markG_hist (c : Core) (n : Nat) (m : RegMark) : (c.markG n m).hist = c.hist := rfl
@[simp] theorem Core.markG_savedHist (c : Core) (n : Nat) (m : RegMark) : (c.markG n m).savedHist = c.savedHist := rfl
@[simp] theorem Core.markG_fetched (c : Core) (n : Nat) (m : RegMark) : (c.markG n m).fetched = c.fetched := rfl
@[simp] theorem Core.markG_bun (c : Core) (n : Nat) (m : RegMark) : (c.markG n m).bun = c.bun := rfl
@[simp] theorem Core.markG_pend (c : Core) (n : Nat) (m : RegMark) : (c.markG n m).pend = c.pend := rfl
@[simp] theorem Core.markG_reent (c : Core) (n : Nat) (m : RegMark) : (c.markG n m).reent = c.reent := rfl
@[simp] theorem Core.markG_redir (c : Core) (n : Nat) (m : RegMark) : (c.markG n m).redir = c.redir := rfl
@[simp] theorem Core.markG_issuing (c : Core) (n : Nat) (m : RegMark) : (c.markG n m).issuing = c.issuing := rfl
@[simp] theorem Core.markG_slot (c : Core) (n : Nat) (m : RegMark) : (c.markG n m).slot = c.slot := rfl
@[simp] theorem Core.markG_grpSq (c : Core) (n : Nat) (m : RegMark) : (c.markG n m).grpSq = c.grpSq := rfl
@[simp] theorem Core.markG_grpVq (c : Core) (n : Nat) (m : RegMark) : (c.markG n m).grpVq = c.grpVq := rfl
@[simp] theorem Core.markG_rest (c : Core) (n : Nat) (m : RegMark) : (c.markG n m).rest = c.rest := rfl
@[simp] theorem Core.markG_defer (c : Core) (n : Nat) (m : RegMark) : (c.markG n m).defer = c.defer := rfl
@[simp] theorem Core.markG_grpOld (c : Core) (n : Nat) (m : RegMark) : (c.markG n m).grpOld = c.grpOld := rfl
@[simp] theorem Core.markG_grpSys (c : Core) (n : Nat) (m : RegMark) : (c.markG n m).grpSys = c.grpSys := rfl
@[simp] theorem Core.markG_grpBanks (c : Core) (n : Nat) (m : RegMark) : (c.markG n m).grpBanks = c.grpBanks := rfl
@[simp] theorem Core.markG_snap (c : Core) (n : Nat) (m : RegMark) : (c.markG n m).snap = c.snap := rfl
@[simp] theorem Core.markG_grpStash (c : Core) (n : Nat) (m : RegMark) : (c.markG n m).grpStash = c.grpStash := rfl
@[simp] theorem Core.markG_gzAsk (c : Core) (n : Nat) (m : RegMark) : (c.markG n m).gzAsk = c.gzAsk := rfl
@[simp] theorem Core.markG_gzGrant (c : Core) (n : Nat) (m : RegMark) : (c.markG n m).gzGrant = c.gzGrant := rfl
@[simp] theorem Core.markG_gzKeep (c : Core) (n : Nat) (m : RegMark) : (c.markG n m).gzKeep = c.gzKeep := rfl
@[simp] theorem Core.markG_held (c : Core) (n : Nat) (m : RegMark) : (c.markG n m).held = c.held := rfl
@[simp] theorem Core.markG_sret (c : Core) (n : Nat) (m : RegMark) : (c.markG n m).sret = c.sret := rfl
@[simp] theorem Core.markG_wbT (c : Core) (n : Nat) (m : RegMark) : (c.markG n m).wbT = c.wbT := rfl
@[simp] theorem Core.markG_sct (c : Core) (n : Nat) (m : RegMark) : (c.markG n m).sct = c.sct := rfl
@[simp] theorem Core.markG_moved (c : Core) (n : Nat) (m : RegMark) : (c.markG n m).moved = c.moved := rfl
@[simp] theorem Core.markG_tm (c : Core) (n : Nat) (m : RegMark) : (c.markG n m).tm = c.tm := rfl
@[simp] theorem Core.markG_prd (c : Core) (n : Nat) (m : RegMark) : (c.markG n m).prd = c.prd := rfl
@[simp] theorem Core.markG_pkind (c : Core) (n : Nat) (m : RegMark) : (c.markG n m).pkind = c.pkind := rfl
@[simp] theorem Core.markG_rsm (c : Core) (n : Nat) (m : RegMark) : (c.markG n m).rsm = c.rsm := rfl
@[simp] theorem Core.markG_sres (c : Core) (n : Nat) (m : RegMark) : (c.markG n m).sres = c.sres := rfl
@[simp] theorem Core.markG_qas (c : Core) (n : Nat) (m : RegMark) : (c.markG n m).qas = c.qas := rfl
@[simp] theorem Core.markG_qav (c : Core) (n : Nat) (m : RegMark) : (c.markG n m).qav = c.qav := rfl
@[simp] theorem Core.markG_cause (c : Core) (n : Nat) (m : RegMark) : (c.markG n m).cause = c.cause := rfl
@[simp] theorem Core.markG_epc (c : Core) (n : Nat) (m : RegMark) : (c.markG n m).epc = c.epc := rfl
@[simp] theorem Core.markG_faddr (c : Core) (n : Nat) (m : RegMark) : (c.markG n m).faddr = c.faddr := rfl
@[simp] theorem Core.markG_ptgt (c : Core) (n : Nat) (m : RegMark) : (c.markG n m).ptgt = c.ptgt := rfl
@[simp] theorem Core.markG_sfall (c : Core) (n : Nat) (m : RegMark) : (c.markG n m).sfall = c.sfall := rfl
@[simp] theorem Core.markG_seed (c : Core) (n : Nat) (m : RegMark) : (c.markG n m).seed = c.seed := rfl
@[simp] theorem Core.markG_cvsat (c : Core) (n : Nat) (m : RegMark) : (c.markG n m).cvsat = c.cvsat := rfl
@[simp] theorem Core.markG_tout (c : Core) (n : Nat) (m : RegMark) : (c.markG n m).tout = c.tout := rfl
@[simp] theorem Core.markG_wval (c : Core) (n : Nat) (m : RegMark) : (c.markG n m).wval = c.wval := rfl
@[simp] theorem Core.markG_wcmp (c : Core) (n : Nat) (m : RegMark) : (c.markG n m).wcmp = c.wcmp := rfl
@[simp] theorem Core.markG_wgrn (c : Core) (n : Nat) (m : RegMark) : (c.markG n m).wgrn = c.wgrn := rfl
@[simp] theorem Core.markG_kund (c : Core) (n : Nat) (m : RegMark) : (c.markG n m).kund = c.kund := rfl
@[simp] theorem Core.markG_lclk (c : Core) (n : Nat) (m : RegMark) : (c.markG n m).lclk = c.lclk := rfl
@[simp] theorem Core.markG_wdCount (c : Core) (n : Nat) (m : RegMark) : (c.markG n m).wdCount = c.wdCount := rfl
@[simp] theorem Core.markG_wdLimit (c : Core) (n : Nat) (m : RegMark) : (c.markG n m).wdLimit = c.wdLimit := rfl
@[simp] theorem Core.markG_wdDue (c : Core) (n : Nat) (m : RegMark) : (c.markG n m).wdDue = c.wdDue := rfl
@[simp] theorem Core.markG_wdFrom (c : Core) (n : Nat) (m : RegMark) : (c.markG n m).wdFrom = c.wdFrom := rfl
@[simp] theorem Core.markG_slen (c : Core) (n : Nat) (m : RegMark) : (c.markG n m).slen = c.slen := rfl
@[simp] theorem Core.markG_spos (c : Core) (n : Nat) (m : RegMark) : (c.markG n m).spos = c.spos := rfl
@[simp] theorem Core.markG_tvec (c : Core) (n : Nat) (m : RegMark) : (c.markG n m).tvec = c.tvec := rfl
@[simp] theorem Core.markG_dcause (c : Core) (n : Nat) (m : RegMark) : (c.markG n m).dcause = c.dcause := rfl
@[simp] theorem Core.markG_spFill (c : Core) (n : Nat) (m : RegMark) : (c.markG n m).spFill = c.spFill := rfl
@[simp] theorem Core.markG_sp (c : Core) (n : Nat) (m : RegMark) : (c.markG n m).sp = c.sp := rfl
@[simp] theorem Core.markG_tags (c : Core) (n : Nat) (m : RegMark) : (c.markG n m).tags = c.tags := rfl
@[simp] theorem Core.markG_rs (c : Core) (n : Nat) (m : RegMark) : (c.markG n m).rs = c.rs := rfl
@[simp] theorem Core.markG_vclk (c : Core) (n : Nat) (m : RegMark) : (c.markG n m).vclk = c.vclk := rfl
@[simp] theorem Core.markG_barVecs (c : Core) (n : Nat) (m : RegMark) : (c.markG n m).barVecs = c.barVecs := rfl
@[simp] theorem Core.markG_barArrs (c : Core) (n : Nat) (m : RegMark) : (c.markG n m).barArrs = c.barArrs := rfl
@[simp] theorem Core.markG_ob (c : Core) (n : Nat) (m : RegMark) : (c.markG n m).ob = c.ob := rfl
@[simp] theorem Core.markG_ac (c : Core) (n : Nat) (m : RegMark) : (c.markG n m).ac = c.ac := rfl
@[simp] theorem Core.markG_mmas (c : Core) (n : Nat) (m : RegMark) : (c.markG n m).mmas = c.mmas := rfl
@[simp] theorem Core.markG_lastMma (c : Core) (n : Nat) (m : RegMark) : (c.markG n m).lastMma = c.lastMma := rfl
@[simp] theorem Core.markG_tqs (c : Core) (n : Nat) (m : RegMark) : (c.markG n m).tqs = c.tqs := rfl
@[simp] theorem Core.markG_k (c : Core) (n : Nat) (m : RegMark) : (c.markG n m).k = c.k := rfl
@[simp] theorem Core.markG_kclk (c : Core) (n : Nat) (m : RegMark) : (c.markG n m).kclk = c.kclk := rfl
@[simp] theorem Core.markG_e0 (c : Core) (n : Nat) (m : RegMark) : (c.markG n m).e0 = c.e0 := rfl
@[simp] theorem Core.markG_e1 (c : Core) (n : Nat) (m : RegMark) : (c.markG n m).e1 = c.e1 := rfl
@[simp] theorem Core.markG_cbs (c : Core) (n : Nat) (m : RegMark) : (c.markG n m).cbs = c.cbs := rfl
@[simp] theorem Core.markG_binds (c : Core) (n : Nat) (m : RegMark) : (c.markG n m).binds = c.binds := rfl
@[simp] theorem Core.markG_wcs (c : Core) (n : Nat) (m : RegMark) : (c.markG n m).wcs = c.wcs := rfl
@[simp] theorem Core.markG_wakeq (c : Core) (n : Nat) (m : RegMark) : (c.markG n m).wakeq = c.wakeq := rfl
@[simp] theorem Core.markG_stash (c : Core) (n : Nat) (m : RegMark) : (c.markG n m).stash = c.stash := rfl
@[simp] theorem Core.markG_chq (c : Core) (n : Nat) (m : RegMark) : (c.markG n m).chq = c.chq := rfl
@[simp] theorem Core.markG_recvs (c : Core) (n : Nat) (m : RegMark) : (c.markG n m).recvs = c.recvs := rfl
@[simp] theorem Core.markG_colFaults (c : Core) (n : Nat) (m : RegMark) : (c.markG n m).colFaults = c.colFaults := rfl
@[simp] theorem Core.markG_nft (c : Core) (n : Nat) (m : RegMark) : (c.markG n m).nft = c.nft := rfl
@[simp] theorem Core.markG_sched (c : Core) (n : Nat) (m : RegMark) : (c.markG n m).sched = c.sched := rfl
@[simp] theorem Core.markG_tlb (c : Core) (n : Nat) (m : RegMark) : (c.markG n m).tlb = c.tlb := rfl
@[simp] theorem Core.markG_etlb0 (c : Core) (n : Nat) (m : RegMark) : (c.markG n m).etlb0 = c.etlb0 := rfl
@[simp] theorem Core.markG_etlb1 (c : Core) (n : Nat) (m : RegMark) : (c.markG n m).etlb1 = c.etlb1 := rfl
@[simp] theorem Core.markG_wflt (c : Core) (n : Nat) (m : RegMark) : (c.markG n m).wflt = c.wflt := rfl
@[simp] theorem Core.markG_cal (c : Core) (n : Nat) (m : RegMark) : (c.markG n m).cal = c.cal := rfl
@[simp] theorem Core.markG_flights (c : Core) (n : Nat) (m : RegMark) : (c.markG n m).flights = c.flights := rfl
@[simp] theorem Core.markG_mesh (c : Core) (n : Nat) (m : RegMark) : (c.markG n m).mesh = c.mesh := rfl
@[simp] theorem Core.markG_token (c : Core) (n : Nat) (m : RegMark) : (c.markG n m).token = c.token := rfl
@[simp] theorem Core.markG_regUe (c : Core) (n : Nat) (m : RegMark) : (c.markG n m).regUe = c.regUe := rfl
@[simp] theorem Core.markV_run (c : Core) (n : Nat) (m : RegMark) : (c.markV n m).run = c.run := rfl
@[simp] theorem Core.markV_team (c : Core) (n : Nat) (m : RegMark) : (c.markV n m).team = c.team := rfl
@[simp] theorem Core.markV_was (c : Core) (n : Nat) (m : RegMark) : (c.markV n m).was = c.was := rfl
@[simp] theorem Core.markV_cyc (c : Core) (n : Nat) (m : RegMark) : (c.markV n m).cyc = c.cyc := rfl
@[simp] theorem Core.markV_nextId (c : Core) (n : Nat) (m : RegMark) : (c.markV n m).nextId = c.nextId := rfl
@[simp] theorem Core.markV_g (c : Core) (n : Nat) (m : RegMark) : (c.markV n m).g = c.g := rfl
@[simp] theorem Core.markV_v (c : Core) (n : Nat) (m : RegMark) : (c.markV n m).v = c.v := rfl
@[simp] theorem Core.markV_p (c : Core) (n : Nat) (m : RegMark) : (c.markV n m).p = c.p := rfl
@[simp] theorem Core.markV_gsb (c : Core) (n : Nat) (m : RegMark) : (c.markV n m).gsb = c.gsb := rfl
@[simp] theorem Core.markV_prog (c : Core) (n : Nat) (m : RegMark) : (c.markV n m).prog = c.prog := rfl
@[simp] theorem Core.markV_hand (c : Core) (n : Nat) (m : RegMark) : (c.markV n m).hand = c.hand := rfl
@[simp] theorem Core.markV_pc (c : Core) (n : Nat) (m : RegMark) : (c.markV n m).pc = c.pc := rfl
@[simp] theorem Core.markV_hist (c : Core) (n : Nat) (m : RegMark) : (c.markV n m).hist = c.hist := rfl
@[simp] theorem Core.markV_savedHist (c : Core) (n : Nat) (m : RegMark) : (c.markV n m).savedHist = c.savedHist := rfl
@[simp] theorem Core.markV_fetched (c : Core) (n : Nat) (m : RegMark) : (c.markV n m).fetched = c.fetched := rfl
@[simp] theorem Core.markV_bun (c : Core) (n : Nat) (m : RegMark) : (c.markV n m).bun = c.bun := rfl
@[simp] theorem Core.markV_pend (c : Core) (n : Nat) (m : RegMark) : (c.markV n m).pend = c.pend := rfl
@[simp] theorem Core.markV_reent (c : Core) (n : Nat) (m : RegMark) : (c.markV n m).reent = c.reent := rfl
@[simp] theorem Core.markV_redir (c : Core) (n : Nat) (m : RegMark) : (c.markV n m).redir = c.redir := rfl
@[simp] theorem Core.markV_issuing (c : Core) (n : Nat) (m : RegMark) : (c.markV n m).issuing = c.issuing := rfl
@[simp] theorem Core.markV_slot (c : Core) (n : Nat) (m : RegMark) : (c.markV n m).slot = c.slot := rfl
@[simp] theorem Core.markV_grpSq (c : Core) (n : Nat) (m : RegMark) : (c.markV n m).grpSq = c.grpSq := rfl
@[simp] theorem Core.markV_grpVq (c : Core) (n : Nat) (m : RegMark) : (c.markV n m).grpVq = c.grpVq := rfl
@[simp] theorem Core.markV_rest (c : Core) (n : Nat) (m : RegMark) : (c.markV n m).rest = c.rest := rfl
@[simp] theorem Core.markV_defer (c : Core) (n : Nat) (m : RegMark) : (c.markV n m).defer = c.defer := rfl
@[simp] theorem Core.markV_grpOld (c : Core) (n : Nat) (m : RegMark) : (c.markV n m).grpOld = c.grpOld := rfl
@[simp] theorem Core.markV_grpSys (c : Core) (n : Nat) (m : RegMark) : (c.markV n m).grpSys = c.grpSys := rfl
@[simp] theorem Core.markV_grpBanks (c : Core) (n : Nat) (m : RegMark) : (c.markV n m).grpBanks = c.grpBanks := rfl
@[simp] theorem Core.markV_snap (c : Core) (n : Nat) (m : RegMark) : (c.markV n m).snap = c.snap := rfl
@[simp] theorem Core.markV_grpStash (c : Core) (n : Nat) (m : RegMark) : (c.markV n m).grpStash = c.grpStash := rfl
@[simp] theorem Core.markV_gzAsk (c : Core) (n : Nat) (m : RegMark) : (c.markV n m).gzAsk = c.gzAsk := rfl
@[simp] theorem Core.markV_gzGrant (c : Core) (n : Nat) (m : RegMark) : (c.markV n m).gzGrant = c.gzGrant := rfl
@[simp] theorem Core.markV_gzKeep (c : Core) (n : Nat) (m : RegMark) : (c.markV n m).gzKeep = c.gzKeep := rfl
@[simp] theorem Core.markV_held (c : Core) (n : Nat) (m : RegMark) : (c.markV n m).held = c.held := rfl
@[simp] theorem Core.markV_sret (c : Core) (n : Nat) (m : RegMark) : (c.markV n m).sret = c.sret := rfl
@[simp] theorem Core.markV_wbT (c : Core) (n : Nat) (m : RegMark) : (c.markV n m).wbT = c.wbT := rfl
@[simp] theorem Core.markV_sct (c : Core) (n : Nat) (m : RegMark) : (c.markV n m).sct = c.sct := rfl
@[simp] theorem Core.markV_moved (c : Core) (n : Nat) (m : RegMark) : (c.markV n m).moved = c.moved := rfl
@[simp] theorem Core.markV_tm (c : Core) (n : Nat) (m : RegMark) : (c.markV n m).tm = c.tm := rfl
@[simp] theorem Core.markV_prd (c : Core) (n : Nat) (m : RegMark) : (c.markV n m).prd = c.prd := rfl
@[simp] theorem Core.markV_pkind (c : Core) (n : Nat) (m : RegMark) : (c.markV n m).pkind = c.pkind := rfl
@[simp] theorem Core.markV_rsm (c : Core) (n : Nat) (m : RegMark) : (c.markV n m).rsm = c.rsm := rfl
@[simp] theorem Core.markV_sres (c : Core) (n : Nat) (m : RegMark) : (c.markV n m).sres = c.sres := rfl
@[simp] theorem Core.markV_qas (c : Core) (n : Nat) (m : RegMark) : (c.markV n m).qas = c.qas := rfl
@[simp] theorem Core.markV_qav (c : Core) (n : Nat) (m : RegMark) : (c.markV n m).qav = c.qav := rfl
@[simp] theorem Core.markV_cause (c : Core) (n : Nat) (m : RegMark) : (c.markV n m).cause = c.cause := rfl
@[simp] theorem Core.markV_epc (c : Core) (n : Nat) (m : RegMark) : (c.markV n m).epc = c.epc := rfl
@[simp] theorem Core.markV_faddr (c : Core) (n : Nat) (m : RegMark) : (c.markV n m).faddr = c.faddr := rfl
@[simp] theorem Core.markV_ptgt (c : Core) (n : Nat) (m : RegMark) : (c.markV n m).ptgt = c.ptgt := rfl
@[simp] theorem Core.markV_sfall (c : Core) (n : Nat) (m : RegMark) : (c.markV n m).sfall = c.sfall := rfl
@[simp] theorem Core.markV_seed (c : Core) (n : Nat) (m : RegMark) : (c.markV n m).seed = c.seed := rfl
@[simp] theorem Core.markV_cvsat (c : Core) (n : Nat) (m : RegMark) : (c.markV n m).cvsat = c.cvsat := rfl
@[simp] theorem Core.markV_tout (c : Core) (n : Nat) (m : RegMark) : (c.markV n m).tout = c.tout := rfl
@[simp] theorem Core.markV_wval (c : Core) (n : Nat) (m : RegMark) : (c.markV n m).wval = c.wval := rfl
@[simp] theorem Core.markV_wcmp (c : Core) (n : Nat) (m : RegMark) : (c.markV n m).wcmp = c.wcmp := rfl
@[simp] theorem Core.markV_wgrn (c : Core) (n : Nat) (m : RegMark) : (c.markV n m).wgrn = c.wgrn := rfl
@[simp] theorem Core.markV_kund (c : Core) (n : Nat) (m : RegMark) : (c.markV n m).kund = c.kund := rfl
@[simp] theorem Core.markV_lclk (c : Core) (n : Nat) (m : RegMark) : (c.markV n m).lclk = c.lclk := rfl
@[simp] theorem Core.markV_wdCount (c : Core) (n : Nat) (m : RegMark) : (c.markV n m).wdCount = c.wdCount := rfl
@[simp] theorem Core.markV_wdLimit (c : Core) (n : Nat) (m : RegMark) : (c.markV n m).wdLimit = c.wdLimit := rfl
@[simp] theorem Core.markV_wdDue (c : Core) (n : Nat) (m : RegMark) : (c.markV n m).wdDue = c.wdDue := rfl
@[simp] theorem Core.markV_wdFrom (c : Core) (n : Nat) (m : RegMark) : (c.markV n m).wdFrom = c.wdFrom := rfl
@[simp] theorem Core.markV_slen (c : Core) (n : Nat) (m : RegMark) : (c.markV n m).slen = c.slen := rfl
@[simp] theorem Core.markV_spos (c : Core) (n : Nat) (m : RegMark) : (c.markV n m).spos = c.spos := rfl
@[simp] theorem Core.markV_tvec (c : Core) (n : Nat) (m : RegMark) : (c.markV n m).tvec = c.tvec := rfl
@[simp] theorem Core.markV_dcause (c : Core) (n : Nat) (m : RegMark) : (c.markV n m).dcause = c.dcause := rfl
@[simp] theorem Core.markV_spFill (c : Core) (n : Nat) (m : RegMark) : (c.markV n m).spFill = c.spFill := rfl
@[simp] theorem Core.markV_sp (c : Core) (n : Nat) (m : RegMark) : (c.markV n m).sp = c.sp := rfl
@[simp] theorem Core.markV_tags (c : Core) (n : Nat) (m : RegMark) : (c.markV n m).tags = c.tags := rfl
@[simp] theorem Core.markV_rs (c : Core) (n : Nat) (m : RegMark) : (c.markV n m).rs = c.rs := rfl
@[simp] theorem Core.markV_vclk (c : Core) (n : Nat) (m : RegMark) : (c.markV n m).vclk = c.vclk := rfl
@[simp] theorem Core.markV_barVecs (c : Core) (n : Nat) (m : RegMark) : (c.markV n m).barVecs = c.barVecs := rfl
@[simp] theorem Core.markV_barArrs (c : Core) (n : Nat) (m : RegMark) : (c.markV n m).barArrs = c.barArrs := rfl
@[simp] theorem Core.markV_ob (c : Core) (n : Nat) (m : RegMark) : (c.markV n m).ob = c.ob := rfl
@[simp] theorem Core.markV_ac (c : Core) (n : Nat) (m : RegMark) : (c.markV n m).ac = c.ac := rfl
@[simp] theorem Core.markV_mmas (c : Core) (n : Nat) (m : RegMark) : (c.markV n m).mmas = c.mmas := rfl
@[simp] theorem Core.markV_lastMma (c : Core) (n : Nat) (m : RegMark) : (c.markV n m).lastMma = c.lastMma := rfl
@[simp] theorem Core.markV_tqs (c : Core) (n : Nat) (m : RegMark) : (c.markV n m).tqs = c.tqs := rfl
@[simp] theorem Core.markV_k (c : Core) (n : Nat) (m : RegMark) : (c.markV n m).k = c.k := rfl
@[simp] theorem Core.markV_kclk (c : Core) (n : Nat) (m : RegMark) : (c.markV n m).kclk = c.kclk := rfl
@[simp] theorem Core.markV_e0 (c : Core) (n : Nat) (m : RegMark) : (c.markV n m).e0 = c.e0 := rfl
@[simp] theorem Core.markV_e1 (c : Core) (n : Nat) (m : RegMark) : (c.markV n m).e1 = c.e1 := rfl
@[simp] theorem Core.markV_cbs (c : Core) (n : Nat) (m : RegMark) : (c.markV n m).cbs = c.cbs := rfl
@[simp] theorem Core.markV_binds (c : Core) (n : Nat) (m : RegMark) : (c.markV n m).binds = c.binds := rfl
@[simp] theorem Core.markV_wcs (c : Core) (n : Nat) (m : RegMark) : (c.markV n m).wcs = c.wcs := rfl
@[simp] theorem Core.markV_wakeq (c : Core) (n : Nat) (m : RegMark) : (c.markV n m).wakeq = c.wakeq := rfl
@[simp] theorem Core.markV_stash (c : Core) (n : Nat) (m : RegMark) : (c.markV n m).stash = c.stash := rfl
@[simp] theorem Core.markV_chq (c : Core) (n : Nat) (m : RegMark) : (c.markV n m).chq = c.chq := rfl
@[simp] theorem Core.markV_recvs (c : Core) (n : Nat) (m : RegMark) : (c.markV n m).recvs = c.recvs := rfl
@[simp] theorem Core.markV_colFaults (c : Core) (n : Nat) (m : RegMark) : (c.markV n m).colFaults = c.colFaults := rfl
@[simp] theorem Core.markV_nft (c : Core) (n : Nat) (m : RegMark) : (c.markV n m).nft = c.nft := rfl
@[simp] theorem Core.markV_sched (c : Core) (n : Nat) (m : RegMark) : (c.markV n m).sched = c.sched := rfl
@[simp] theorem Core.markV_tlb (c : Core) (n : Nat) (m : RegMark) : (c.markV n m).tlb = c.tlb := rfl
@[simp] theorem Core.markV_etlb0 (c : Core) (n : Nat) (m : RegMark) : (c.markV n m).etlb0 = c.etlb0 := rfl
@[simp] theorem Core.markV_etlb1 (c : Core) (n : Nat) (m : RegMark) : (c.markV n m).etlb1 = c.etlb1 := rfl
@[simp] theorem Core.markV_wflt (c : Core) (n : Nat) (m : RegMark) : (c.markV n m).wflt = c.wflt := rfl
@[simp] theorem Core.markV_cal (c : Core) (n : Nat) (m : RegMark) : (c.markV n m).cal = c.cal := rfl
@[simp] theorem Core.markV_flights (c : Core) (n : Nat) (m : RegMark) : (c.markV n m).flights = c.flights := rfl
@[simp] theorem Core.markV_mesh (c : Core) (n : Nat) (m : RegMark) : (c.markV n m).mesh = c.mesh := rfl
@[simp] theorem Core.markV_token (c : Core) (n : Nat) (m : RegMark) : (c.markV n m).token = c.token := rfl
@[simp] theorem Core.markV_regUe (c : Core) (n : Nat) (m : RegMark) : (c.markV n m).regUe = c.regUe := rfl
@[simp] theorem Core.clearG_run (c : Core) (n : Nat) : (c.clearG n).run = c.run := rfl
@[simp] theorem Core.clearG_team (c : Core) (n : Nat) : (c.clearG n).team = c.team := rfl
@[simp] theorem Core.clearG_was (c : Core) (n : Nat) : (c.clearG n).was = c.was := rfl
@[simp] theorem Core.clearG_cyc (c : Core) (n : Nat) : (c.clearG n).cyc = c.cyc := rfl
@[simp] theorem Core.clearG_nextId (c : Core) (n : Nat) : (c.clearG n).nextId = c.nextId := rfl
@[simp] theorem Core.clearG_g (c : Core) (n : Nat) : (c.clearG n).g = c.g := rfl
@[simp] theorem Core.clearG_v (c : Core) (n : Nat) : (c.clearG n).v = c.v := rfl
@[simp] theorem Core.clearG_p (c : Core) (n : Nat) : (c.clearG n).p = c.p := rfl
@[simp] theorem Core.clearG_vsb (c : Core) (n : Nat) : (c.clearG n).vsb = c.vsb := rfl
@[simp] theorem Core.clearG_prog (c : Core) (n : Nat) : (c.clearG n).prog = c.prog := rfl
@[simp] theorem Core.clearG_hand (c : Core) (n : Nat) : (c.clearG n).hand = c.hand := rfl
@[simp] theorem Core.clearG_pc (c : Core) (n : Nat) : (c.clearG n).pc = c.pc := rfl
@[simp] theorem Core.clearG_hist (c : Core) (n : Nat) : (c.clearG n).hist = c.hist := rfl
@[simp] theorem Core.clearG_savedHist (c : Core) (n : Nat) : (c.clearG n).savedHist = c.savedHist := rfl
@[simp] theorem Core.clearG_fetched (c : Core) (n : Nat) : (c.clearG n).fetched = c.fetched := rfl
@[simp] theorem Core.clearG_bun (c : Core) (n : Nat) : (c.clearG n).bun = c.bun := rfl
@[simp] theorem Core.clearG_pend (c : Core) (n : Nat) : (c.clearG n).pend = c.pend := rfl
@[simp] theorem Core.clearG_reent (c : Core) (n : Nat) : (c.clearG n).reent = c.reent := rfl
@[simp] theorem Core.clearG_redir (c : Core) (n : Nat) : (c.clearG n).redir = c.redir := rfl
@[simp] theorem Core.clearG_issuing (c : Core) (n : Nat) : (c.clearG n).issuing = c.issuing := rfl
@[simp] theorem Core.clearG_slot (c : Core) (n : Nat) : (c.clearG n).slot = c.slot := rfl
@[simp] theorem Core.clearG_grpSq (c : Core) (n : Nat) : (c.clearG n).grpSq = c.grpSq := rfl
@[simp] theorem Core.clearG_grpVq (c : Core) (n : Nat) : (c.clearG n).grpVq = c.grpVq := rfl
@[simp] theorem Core.clearG_rest (c : Core) (n : Nat) : (c.clearG n).rest = c.rest := rfl
@[simp] theorem Core.clearG_defer (c : Core) (n : Nat) : (c.clearG n).defer = c.defer := rfl
@[simp] theorem Core.clearG_grpOld (c : Core) (n : Nat) : (c.clearG n).grpOld = c.grpOld := rfl
@[simp] theorem Core.clearG_grpSys (c : Core) (n : Nat) : (c.clearG n).grpSys = c.grpSys := rfl
@[simp] theorem Core.clearG_grpBanks (c : Core) (n : Nat) : (c.clearG n).grpBanks = c.grpBanks := rfl
@[simp] theorem Core.clearG_snap (c : Core) (n : Nat) : (c.clearG n).snap = c.snap := rfl
@[simp] theorem Core.clearG_grpStash (c : Core) (n : Nat) : (c.clearG n).grpStash = c.grpStash := rfl
@[simp] theorem Core.clearG_gzAsk (c : Core) (n : Nat) : (c.clearG n).gzAsk = c.gzAsk := rfl
@[simp] theorem Core.clearG_gzGrant (c : Core) (n : Nat) : (c.clearG n).gzGrant = c.gzGrant := rfl
@[simp] theorem Core.clearG_gzKeep (c : Core) (n : Nat) : (c.clearG n).gzKeep = c.gzKeep := rfl
@[simp] theorem Core.clearG_held (c : Core) (n : Nat) : (c.clearG n).held = c.held := rfl
@[simp] theorem Core.clearG_sret (c : Core) (n : Nat) : (c.clearG n).sret = c.sret := rfl
@[simp] theorem Core.clearG_wbT (c : Core) (n : Nat) : (c.clearG n).wbT = c.wbT := rfl
@[simp] theorem Core.clearG_sct (c : Core) (n : Nat) : (c.clearG n).sct = c.sct := rfl
@[simp] theorem Core.clearG_moved (c : Core) (n : Nat) : (c.clearG n).moved = c.moved := rfl
@[simp] theorem Core.clearG_tm (c : Core) (n : Nat) : (c.clearG n).tm = c.tm := rfl
@[simp] theorem Core.clearG_prd (c : Core) (n : Nat) : (c.clearG n).prd = c.prd := rfl
@[simp] theorem Core.clearG_pkind (c : Core) (n : Nat) : (c.clearG n).pkind = c.pkind := rfl
@[simp] theorem Core.clearG_rsm (c : Core) (n : Nat) : (c.clearG n).rsm = c.rsm := rfl
@[simp] theorem Core.clearG_sres (c : Core) (n : Nat) : (c.clearG n).sres = c.sres := rfl
@[simp] theorem Core.clearG_qas (c : Core) (n : Nat) : (c.clearG n).qas = c.qas := rfl
@[simp] theorem Core.clearG_qav (c : Core) (n : Nat) : (c.clearG n).qav = c.qav := rfl
@[simp] theorem Core.clearG_cause (c : Core) (n : Nat) : (c.clearG n).cause = c.cause := rfl
@[simp] theorem Core.clearG_epc (c : Core) (n : Nat) : (c.clearG n).epc = c.epc := rfl
@[simp] theorem Core.clearG_faddr (c : Core) (n : Nat) : (c.clearG n).faddr = c.faddr := rfl
@[simp] theorem Core.clearG_ptgt (c : Core) (n : Nat) : (c.clearG n).ptgt = c.ptgt := rfl
@[simp] theorem Core.clearG_sfall (c : Core) (n : Nat) : (c.clearG n).sfall = c.sfall := rfl
@[simp] theorem Core.clearG_seed (c : Core) (n : Nat) : (c.clearG n).seed = c.seed := rfl
@[simp] theorem Core.clearG_cvsat (c : Core) (n : Nat) : (c.clearG n).cvsat = c.cvsat := rfl
@[simp] theorem Core.clearG_tout (c : Core) (n : Nat) : (c.clearG n).tout = c.tout := rfl
@[simp] theorem Core.clearG_wval (c : Core) (n : Nat) : (c.clearG n).wval = c.wval := rfl
@[simp] theorem Core.clearG_wcmp (c : Core) (n : Nat) : (c.clearG n).wcmp = c.wcmp := rfl
@[simp] theorem Core.clearG_wgrn (c : Core) (n : Nat) : (c.clearG n).wgrn = c.wgrn := rfl
@[simp] theorem Core.clearG_kund (c : Core) (n : Nat) : (c.clearG n).kund = c.kund := rfl
@[simp] theorem Core.clearG_lclk (c : Core) (n : Nat) : (c.clearG n).lclk = c.lclk := rfl
@[simp] theorem Core.clearG_wdCount (c : Core) (n : Nat) : (c.clearG n).wdCount = c.wdCount := rfl
@[simp] theorem Core.clearG_wdLimit (c : Core) (n : Nat) : (c.clearG n).wdLimit = c.wdLimit := rfl
@[simp] theorem Core.clearG_wdDue (c : Core) (n : Nat) : (c.clearG n).wdDue = c.wdDue := rfl
@[simp] theorem Core.clearG_wdFrom (c : Core) (n : Nat) : (c.clearG n).wdFrom = c.wdFrom := rfl
@[simp] theorem Core.clearG_slen (c : Core) (n : Nat) : (c.clearG n).slen = c.slen := rfl
@[simp] theorem Core.clearG_spos (c : Core) (n : Nat) : (c.clearG n).spos = c.spos := rfl
@[simp] theorem Core.clearG_tvec (c : Core) (n : Nat) : (c.clearG n).tvec = c.tvec := rfl
@[simp] theorem Core.clearG_dcause (c : Core) (n : Nat) : (c.clearG n).dcause = c.dcause := rfl
@[simp] theorem Core.clearG_spFill (c : Core) (n : Nat) : (c.clearG n).spFill = c.spFill := rfl
@[simp] theorem Core.clearG_sp (c : Core) (n : Nat) : (c.clearG n).sp = c.sp := rfl
@[simp] theorem Core.clearG_tags (c : Core) (n : Nat) : (c.clearG n).tags = c.tags := rfl
@[simp] theorem Core.clearG_rs (c : Core) (n : Nat) : (c.clearG n).rs = c.rs := rfl
@[simp] theorem Core.clearG_vclk (c : Core) (n : Nat) : (c.clearG n).vclk = c.vclk := rfl
@[simp] theorem Core.clearG_barVecs (c : Core) (n : Nat) : (c.clearG n).barVecs = c.barVecs := rfl
@[simp] theorem Core.clearG_barArrs (c : Core) (n : Nat) : (c.clearG n).barArrs = c.barArrs := rfl
@[simp] theorem Core.clearG_ob (c : Core) (n : Nat) : (c.clearG n).ob = c.ob := rfl
@[simp] theorem Core.clearG_ac (c : Core) (n : Nat) : (c.clearG n).ac = c.ac := rfl
@[simp] theorem Core.clearG_mmas (c : Core) (n : Nat) : (c.clearG n).mmas = c.mmas := rfl
@[simp] theorem Core.clearG_lastMma (c : Core) (n : Nat) : (c.clearG n).lastMma = c.lastMma := rfl
@[simp] theorem Core.clearG_tqs (c : Core) (n : Nat) : (c.clearG n).tqs = c.tqs := rfl
@[simp] theorem Core.clearG_k (c : Core) (n : Nat) : (c.clearG n).k = c.k := rfl
@[simp] theorem Core.clearG_kclk (c : Core) (n : Nat) : (c.clearG n).kclk = c.kclk := rfl
@[simp] theorem Core.clearG_e0 (c : Core) (n : Nat) : (c.clearG n).e0 = c.e0 := rfl
@[simp] theorem Core.clearG_e1 (c : Core) (n : Nat) : (c.clearG n).e1 = c.e1 := rfl
@[simp] theorem Core.clearG_cbs (c : Core) (n : Nat) : (c.clearG n).cbs = c.cbs := rfl
@[simp] theorem Core.clearG_binds (c : Core) (n : Nat) : (c.clearG n).binds = c.binds := rfl
@[simp] theorem Core.clearG_wcs (c : Core) (n : Nat) : (c.clearG n).wcs = c.wcs := rfl
@[simp] theorem Core.clearG_wakeq (c : Core) (n : Nat) : (c.clearG n).wakeq = c.wakeq := rfl
@[simp] theorem Core.clearG_stash (c : Core) (n : Nat) : (c.clearG n).stash = c.stash := rfl
@[simp] theorem Core.clearG_chq (c : Core) (n : Nat) : (c.clearG n).chq = c.chq := rfl
@[simp] theorem Core.clearG_recvs (c : Core) (n : Nat) : (c.clearG n).recvs = c.recvs := rfl
@[simp] theorem Core.clearG_colFaults (c : Core) (n : Nat) : (c.clearG n).colFaults = c.colFaults := rfl
@[simp] theorem Core.clearG_nft (c : Core) (n : Nat) : (c.clearG n).nft = c.nft := rfl
@[simp] theorem Core.clearG_sched (c : Core) (n : Nat) : (c.clearG n).sched = c.sched := rfl
@[simp] theorem Core.clearG_tlb (c : Core) (n : Nat) : (c.clearG n).tlb = c.tlb := rfl
@[simp] theorem Core.clearG_etlb0 (c : Core) (n : Nat) : (c.clearG n).etlb0 = c.etlb0 := rfl
@[simp] theorem Core.clearG_etlb1 (c : Core) (n : Nat) : (c.clearG n).etlb1 = c.etlb1 := rfl
@[simp] theorem Core.clearG_wflt (c : Core) (n : Nat) : (c.clearG n).wflt = c.wflt := rfl
@[simp] theorem Core.clearG_cal (c : Core) (n : Nat) : (c.clearG n).cal = c.cal := rfl
@[simp] theorem Core.clearG_flights (c : Core) (n : Nat) : (c.clearG n).flights = c.flights := rfl
@[simp] theorem Core.clearG_mesh (c : Core) (n : Nat) : (c.clearG n).mesh = c.mesh := rfl
@[simp] theorem Core.clearG_token (c : Core) (n : Nat) : (c.clearG n).token = c.token := rfl
@[simp] theorem Core.clearG_regUe (c : Core) (n : Nat) : (c.clearG n).regUe = c.regUe := rfl
@[simp] theorem Core.clearV_run (c : Core) (n : Nat) : (c.clearV n).run = c.run := rfl
@[simp] theorem Core.clearV_team (c : Core) (n : Nat) : (c.clearV n).team = c.team := rfl
@[simp] theorem Core.clearV_was (c : Core) (n : Nat) : (c.clearV n).was = c.was := rfl
@[simp] theorem Core.clearV_cyc (c : Core) (n : Nat) : (c.clearV n).cyc = c.cyc := rfl
@[simp] theorem Core.clearV_nextId (c : Core) (n : Nat) : (c.clearV n).nextId = c.nextId := rfl
@[simp] theorem Core.clearV_g (c : Core) (n : Nat) : (c.clearV n).g = c.g := rfl
@[simp] theorem Core.clearV_v (c : Core) (n : Nat) : (c.clearV n).v = c.v := rfl
@[simp] theorem Core.clearV_p (c : Core) (n : Nat) : (c.clearV n).p = c.p := rfl
@[simp] theorem Core.clearV_gsb (c : Core) (n : Nat) : (c.clearV n).gsb = c.gsb := rfl
@[simp] theorem Core.clearV_prog (c : Core) (n : Nat) : (c.clearV n).prog = c.prog := rfl
@[simp] theorem Core.clearV_hand (c : Core) (n : Nat) : (c.clearV n).hand = c.hand := rfl
@[simp] theorem Core.clearV_pc (c : Core) (n : Nat) : (c.clearV n).pc = c.pc := rfl
@[simp] theorem Core.clearV_hist (c : Core) (n : Nat) : (c.clearV n).hist = c.hist := rfl
@[simp] theorem Core.clearV_savedHist (c : Core) (n : Nat) : (c.clearV n).savedHist = c.savedHist := rfl
@[simp] theorem Core.clearV_fetched (c : Core) (n : Nat) : (c.clearV n).fetched = c.fetched := rfl
@[simp] theorem Core.clearV_bun (c : Core) (n : Nat) : (c.clearV n).bun = c.bun := rfl
@[simp] theorem Core.clearV_pend (c : Core) (n : Nat) : (c.clearV n).pend = c.pend := rfl
@[simp] theorem Core.clearV_reent (c : Core) (n : Nat) : (c.clearV n).reent = c.reent := rfl
@[simp] theorem Core.clearV_redir (c : Core) (n : Nat) : (c.clearV n).redir = c.redir := rfl
@[simp] theorem Core.clearV_issuing (c : Core) (n : Nat) : (c.clearV n).issuing = c.issuing := rfl
@[simp] theorem Core.clearV_slot (c : Core) (n : Nat) : (c.clearV n).slot = c.slot := rfl
@[simp] theorem Core.clearV_grpSq (c : Core) (n : Nat) : (c.clearV n).grpSq = c.grpSq := rfl
@[simp] theorem Core.clearV_grpVq (c : Core) (n : Nat) : (c.clearV n).grpVq = c.grpVq := rfl
@[simp] theorem Core.clearV_rest (c : Core) (n : Nat) : (c.clearV n).rest = c.rest := rfl
@[simp] theorem Core.clearV_defer (c : Core) (n : Nat) : (c.clearV n).defer = c.defer := rfl
@[simp] theorem Core.clearV_grpOld (c : Core) (n : Nat) : (c.clearV n).grpOld = c.grpOld := rfl
@[simp] theorem Core.clearV_grpSys (c : Core) (n : Nat) : (c.clearV n).grpSys = c.grpSys := rfl
@[simp] theorem Core.clearV_grpBanks (c : Core) (n : Nat) : (c.clearV n).grpBanks = c.grpBanks := rfl
@[simp] theorem Core.clearV_snap (c : Core) (n : Nat) : (c.clearV n).snap = c.snap := rfl
@[simp] theorem Core.clearV_grpStash (c : Core) (n : Nat) : (c.clearV n).grpStash = c.grpStash := rfl
@[simp] theorem Core.clearV_gzAsk (c : Core) (n : Nat) : (c.clearV n).gzAsk = c.gzAsk := rfl
@[simp] theorem Core.clearV_gzGrant (c : Core) (n : Nat) : (c.clearV n).gzGrant = c.gzGrant := rfl
@[simp] theorem Core.clearV_gzKeep (c : Core) (n : Nat) : (c.clearV n).gzKeep = c.gzKeep := rfl
@[simp] theorem Core.clearV_held (c : Core) (n : Nat) : (c.clearV n).held = c.held := rfl
@[simp] theorem Core.clearV_sret (c : Core) (n : Nat) : (c.clearV n).sret = c.sret := rfl
@[simp] theorem Core.clearV_wbT (c : Core) (n : Nat) : (c.clearV n).wbT = c.wbT := rfl
@[simp] theorem Core.clearV_sct (c : Core) (n : Nat) : (c.clearV n).sct = c.sct := rfl
@[simp] theorem Core.clearV_moved (c : Core) (n : Nat) : (c.clearV n).moved = c.moved := rfl
@[simp] theorem Core.clearV_tm (c : Core) (n : Nat) : (c.clearV n).tm = c.tm := rfl
@[simp] theorem Core.clearV_prd (c : Core) (n : Nat) : (c.clearV n).prd = c.prd := rfl
@[simp] theorem Core.clearV_pkind (c : Core) (n : Nat) : (c.clearV n).pkind = c.pkind := rfl
@[simp] theorem Core.clearV_rsm (c : Core) (n : Nat) : (c.clearV n).rsm = c.rsm := rfl
@[simp] theorem Core.clearV_sres (c : Core) (n : Nat) : (c.clearV n).sres = c.sres := rfl
@[simp] theorem Core.clearV_qas (c : Core) (n : Nat) : (c.clearV n).qas = c.qas := rfl
@[simp] theorem Core.clearV_qav (c : Core) (n : Nat) : (c.clearV n).qav = c.qav := rfl
@[simp] theorem Core.clearV_cause (c : Core) (n : Nat) : (c.clearV n).cause = c.cause := rfl
@[simp] theorem Core.clearV_epc (c : Core) (n : Nat) : (c.clearV n).epc = c.epc := rfl
@[simp] theorem Core.clearV_faddr (c : Core) (n : Nat) : (c.clearV n).faddr = c.faddr := rfl
@[simp] theorem Core.clearV_ptgt (c : Core) (n : Nat) : (c.clearV n).ptgt = c.ptgt := rfl
@[simp] theorem Core.clearV_sfall (c : Core) (n : Nat) : (c.clearV n).sfall = c.sfall := rfl
@[simp] theorem Core.clearV_seed (c : Core) (n : Nat) : (c.clearV n).seed = c.seed := rfl
@[simp] theorem Core.clearV_cvsat (c : Core) (n : Nat) : (c.clearV n).cvsat = c.cvsat := rfl
@[simp] theorem Core.clearV_tout (c : Core) (n : Nat) : (c.clearV n).tout = c.tout := rfl
@[simp] theorem Core.clearV_wval (c : Core) (n : Nat) : (c.clearV n).wval = c.wval := rfl
@[simp] theorem Core.clearV_wcmp (c : Core) (n : Nat) : (c.clearV n).wcmp = c.wcmp := rfl
@[simp] theorem Core.clearV_wgrn (c : Core) (n : Nat) : (c.clearV n).wgrn = c.wgrn := rfl
@[simp] theorem Core.clearV_kund (c : Core) (n : Nat) : (c.clearV n).kund = c.kund := rfl
@[simp] theorem Core.clearV_lclk (c : Core) (n : Nat) : (c.clearV n).lclk = c.lclk := rfl
@[simp] theorem Core.clearV_wdCount (c : Core) (n : Nat) : (c.clearV n).wdCount = c.wdCount := rfl
@[simp] theorem Core.clearV_wdLimit (c : Core) (n : Nat) : (c.clearV n).wdLimit = c.wdLimit := rfl
@[simp] theorem Core.clearV_wdDue (c : Core) (n : Nat) : (c.clearV n).wdDue = c.wdDue := rfl
@[simp] theorem Core.clearV_wdFrom (c : Core) (n : Nat) : (c.clearV n).wdFrom = c.wdFrom := rfl
@[simp] theorem Core.clearV_slen (c : Core) (n : Nat) : (c.clearV n).slen = c.slen := rfl
@[simp] theorem Core.clearV_spos (c : Core) (n : Nat) : (c.clearV n).spos = c.spos := rfl
@[simp] theorem Core.clearV_tvec (c : Core) (n : Nat) : (c.clearV n).tvec = c.tvec := rfl
@[simp] theorem Core.clearV_dcause (c : Core) (n : Nat) : (c.clearV n).dcause = c.dcause := rfl
@[simp] theorem Core.clearV_spFill (c : Core) (n : Nat) : (c.clearV n).spFill = c.spFill := rfl
@[simp] theorem Core.clearV_sp (c : Core) (n : Nat) : (c.clearV n).sp = c.sp := rfl
@[simp] theorem Core.clearV_tags (c : Core) (n : Nat) : (c.clearV n).tags = c.tags := rfl
@[simp] theorem Core.clearV_rs (c : Core) (n : Nat) : (c.clearV n).rs = c.rs := rfl
@[simp] theorem Core.clearV_vclk (c : Core) (n : Nat) : (c.clearV n).vclk = c.vclk := rfl
@[simp] theorem Core.clearV_barVecs (c : Core) (n : Nat) : (c.clearV n).barVecs = c.barVecs := rfl
@[simp] theorem Core.clearV_barArrs (c : Core) (n : Nat) : (c.clearV n).barArrs = c.barArrs := rfl
@[simp] theorem Core.clearV_ob (c : Core) (n : Nat) : (c.clearV n).ob = c.ob := rfl
@[simp] theorem Core.clearV_ac (c : Core) (n : Nat) : (c.clearV n).ac = c.ac := rfl
@[simp] theorem Core.clearV_mmas (c : Core) (n : Nat) : (c.clearV n).mmas = c.mmas := rfl
@[simp] theorem Core.clearV_lastMma (c : Core) (n : Nat) : (c.clearV n).lastMma = c.lastMma := rfl
@[simp] theorem Core.clearV_tqs (c : Core) (n : Nat) : (c.clearV n).tqs = c.tqs := rfl
@[simp] theorem Core.clearV_k (c : Core) (n : Nat) : (c.clearV n).k = c.k := rfl
@[simp] theorem Core.clearV_kclk (c : Core) (n : Nat) : (c.clearV n).kclk = c.kclk := rfl
@[simp] theorem Core.clearV_e0 (c : Core) (n : Nat) : (c.clearV n).e0 = c.e0 := rfl
@[simp] theorem Core.clearV_e1 (c : Core) (n : Nat) : (c.clearV n).e1 = c.e1 := rfl
@[simp] theorem Core.clearV_cbs (c : Core) (n : Nat) : (c.clearV n).cbs = c.cbs := rfl
@[simp] theorem Core.clearV_binds (c : Core) (n : Nat) : (c.clearV n).binds = c.binds := rfl
@[simp] theorem Core.clearV_wcs (c : Core) (n : Nat) : (c.clearV n).wcs = c.wcs := rfl
@[simp] theorem Core.clearV_wakeq (c : Core) (n : Nat) : (c.clearV n).wakeq = c.wakeq := rfl
@[simp] theorem Core.clearV_stash (c : Core) (n : Nat) : (c.clearV n).stash = c.stash := rfl
@[simp] theorem Core.clearV_chq (c : Core) (n : Nat) : (c.clearV n).chq = c.chq := rfl
@[simp] theorem Core.clearV_recvs (c : Core) (n : Nat) : (c.clearV n).recvs = c.recvs := rfl
@[simp] theorem Core.clearV_colFaults (c : Core) (n : Nat) : (c.clearV n).colFaults = c.colFaults := rfl
@[simp] theorem Core.clearV_nft (c : Core) (n : Nat) : (c.clearV n).nft = c.nft := rfl
@[simp] theorem Core.clearV_sched (c : Core) (n : Nat) : (c.clearV n).sched = c.sched := rfl
@[simp] theorem Core.clearV_tlb (c : Core) (n : Nat) : (c.clearV n).tlb = c.tlb := rfl
@[simp] theorem Core.clearV_etlb0 (c : Core) (n : Nat) : (c.clearV n).etlb0 = c.etlb0 := rfl
@[simp] theorem Core.clearV_etlb1 (c : Core) (n : Nat) : (c.clearV n).etlb1 = c.etlb1 := rfl
@[simp] theorem Core.clearV_wflt (c : Core) (n : Nat) : (c.clearV n).wflt = c.wflt := rfl
@[simp] theorem Core.clearV_cal (c : Core) (n : Nat) : (c.clearV n).cal = c.cal := rfl
@[simp] theorem Core.clearV_flights (c : Core) (n : Nat) : (c.clearV n).flights = c.flights := rfl
@[simp] theorem Core.clearV_mesh (c : Core) (n : Nat) : (c.clearV n).mesh = c.mesh := rfl
@[simp] theorem Core.clearV_token (c : Core) (n : Nat) : (c.clearV n).token = c.token := rfl
@[simp] theorem Core.clearV_regUe (c : Core) (n : Nat) : (c.clearV n).regUe = c.regUe := rfl
@[simp] theorem Core.setK_run (c : Core) (n : Nat) (v : BitVec 32) : (c.setK n v).run = c.run := rfl
@[simp] theorem Core.setK_team (c : Core) (n : Nat) (v : BitVec 32) : (c.setK n v).team = c.team := rfl
@[simp] theorem Core.setK_was (c : Core) (n : Nat) (v : BitVec 32) : (c.setK n v).was = c.was := rfl
@[simp] theorem Core.setK_cyc (c : Core) (n : Nat) (v : BitVec 32) : (c.setK n v).cyc = c.cyc := rfl
@[simp] theorem Core.setK_nextId (c : Core) (n : Nat) (v : BitVec 32) : (c.setK n v).nextId = c.nextId := rfl
@[simp] theorem Core.setK_g (c : Core) (n : Nat) (v : BitVec 32) : (c.setK n v).g = c.g := rfl
@[simp] theorem Core.setK_v (c : Core) (n : Nat) (v : BitVec 32) : (c.setK n v).v = c.v := rfl
@[simp] theorem Core.setK_p (c : Core) (n : Nat) (v : BitVec 32) : (c.setK n v).p = c.p := rfl
@[simp] theorem Core.setK_gsb (c : Core) (n : Nat) (v : BitVec 32) : (c.setK n v).gsb = c.gsb := rfl
@[simp] theorem Core.setK_vsb (c : Core) (n : Nat) (v : BitVec 32) : (c.setK n v).vsb = c.vsb := rfl
@[simp] theorem Core.setK_prog (c : Core) (n : Nat) (v : BitVec 32) : (c.setK n v).prog = c.prog := rfl
@[simp] theorem Core.setK_hand (c : Core) (n : Nat) (v : BitVec 32) : (c.setK n v).hand = c.hand := rfl
@[simp] theorem Core.setK_pc (c : Core) (n : Nat) (v : BitVec 32) : (c.setK n v).pc = c.pc := rfl
@[simp] theorem Core.setK_hist (c : Core) (n : Nat) (v : BitVec 32) : (c.setK n v).hist = c.hist := rfl
@[simp] theorem Core.setK_savedHist (c : Core) (n : Nat) (v : BitVec 32) : (c.setK n v).savedHist = c.savedHist := rfl
@[simp] theorem Core.setK_fetched (c : Core) (n : Nat) (v : BitVec 32) : (c.setK n v).fetched = c.fetched := rfl
@[simp] theorem Core.setK_bun (c : Core) (n : Nat) (v : BitVec 32) : (c.setK n v).bun = c.bun := rfl
@[simp] theorem Core.setK_pend (c : Core) (n : Nat) (v : BitVec 32) : (c.setK n v).pend = c.pend := rfl
@[simp] theorem Core.setK_reent (c : Core) (n : Nat) (v : BitVec 32) : (c.setK n v).reent = c.reent := rfl
@[simp] theorem Core.setK_redir (c : Core) (n : Nat) (v : BitVec 32) : (c.setK n v).redir = c.redir := rfl
@[simp] theorem Core.setK_issuing (c : Core) (n : Nat) (v : BitVec 32) : (c.setK n v).issuing = c.issuing := rfl
@[simp] theorem Core.setK_slot (c : Core) (n : Nat) (v : BitVec 32) : (c.setK n v).slot = c.slot := rfl
@[simp] theorem Core.setK_grpSq (c : Core) (n : Nat) (v : BitVec 32) : (c.setK n v).grpSq = c.grpSq := rfl
@[simp] theorem Core.setK_grpVq (c : Core) (n : Nat) (v : BitVec 32) : (c.setK n v).grpVq = c.grpVq := rfl
@[simp] theorem Core.setK_rest (c : Core) (n : Nat) (v : BitVec 32) : (c.setK n v).rest = c.rest := rfl
@[simp] theorem Core.setK_defer (c : Core) (n : Nat) (v : BitVec 32) : (c.setK n v).defer = c.defer := rfl
@[simp] theorem Core.setK_grpOld (c : Core) (n : Nat) (v : BitVec 32) : (c.setK n v).grpOld = c.grpOld := rfl
@[simp] theorem Core.setK_grpSys (c : Core) (n : Nat) (v : BitVec 32) : (c.setK n v).grpSys = c.grpSys := rfl
@[simp] theorem Core.setK_grpBanks (c : Core) (n : Nat) (v : BitVec 32) : (c.setK n v).grpBanks = c.grpBanks := rfl
@[simp] theorem Core.setK_snap (c : Core) (n : Nat) (v : BitVec 32) : (c.setK n v).snap = c.snap := rfl
@[simp] theorem Core.setK_grpStash (c : Core) (n : Nat) (v : BitVec 32) : (c.setK n v).grpStash = c.grpStash := rfl
@[simp] theorem Core.setK_gzAsk (c : Core) (n : Nat) (v : BitVec 32) : (c.setK n v).gzAsk = c.gzAsk := rfl
@[simp] theorem Core.setK_gzGrant (c : Core) (n : Nat) (v : BitVec 32) : (c.setK n v).gzGrant = c.gzGrant := rfl
@[simp] theorem Core.setK_gzKeep (c : Core) (n : Nat) (v : BitVec 32) : (c.setK n v).gzKeep = c.gzKeep := rfl
@[simp] theorem Core.setK_held (c : Core) (n : Nat) (v : BitVec 32) : (c.setK n v).held = c.held := rfl
@[simp] theorem Core.setK_sret (c : Core) (n : Nat) (v : BitVec 32) : (c.setK n v).sret = c.sret := rfl
@[simp] theorem Core.setK_wbT (c : Core) (n : Nat) (v : BitVec 32) : (c.setK n v).wbT = c.wbT := rfl
@[simp] theorem Core.setK_sct (c : Core) (n : Nat) (v : BitVec 32) : (c.setK n v).sct = c.sct := rfl
@[simp] theorem Core.setK_moved (c : Core) (n : Nat) (v : BitVec 32) : (c.setK n v).moved = c.moved := rfl
@[simp] theorem Core.setK_tm (c : Core) (n : Nat) (v : BitVec 32) : (c.setK n v).tm = c.tm := rfl
@[simp] theorem Core.setK_prd (c : Core) (n : Nat) (v : BitVec 32) : (c.setK n v).prd = c.prd := rfl
@[simp] theorem Core.setK_pkind (c : Core) (n : Nat) (v : BitVec 32) : (c.setK n v).pkind = c.pkind := rfl
@[simp] theorem Core.setK_rsm (c : Core) (n : Nat) (v : BitVec 32) : (c.setK n v).rsm = c.rsm := rfl
@[simp] theorem Core.setK_sres (c : Core) (n : Nat) (v : BitVec 32) : (c.setK n v).sres = c.sres := rfl
@[simp] theorem Core.setK_qas (c : Core) (n : Nat) (v : BitVec 32) : (c.setK n v).qas = c.qas := rfl
@[simp] theorem Core.setK_qav (c : Core) (n : Nat) (v : BitVec 32) : (c.setK n v).qav = c.qav := rfl
@[simp] theorem Core.setK_cause (c : Core) (n : Nat) (v : BitVec 32) : (c.setK n v).cause = c.cause := rfl
@[simp] theorem Core.setK_epc (c : Core) (n : Nat) (v : BitVec 32) : (c.setK n v).epc = c.epc := rfl
@[simp] theorem Core.setK_faddr (c : Core) (n : Nat) (v : BitVec 32) : (c.setK n v).faddr = c.faddr := rfl
@[simp] theorem Core.setK_ptgt (c : Core) (n : Nat) (v : BitVec 32) : (c.setK n v).ptgt = c.ptgt := rfl
@[simp] theorem Core.setK_sfall (c : Core) (n : Nat) (v : BitVec 32) : (c.setK n v).sfall = c.sfall := rfl
@[simp] theorem Core.setK_seed (c : Core) (n : Nat) (v : BitVec 32) : (c.setK n v).seed = c.seed := rfl
@[simp] theorem Core.setK_cvsat (c : Core) (n : Nat) (v : BitVec 32) : (c.setK n v).cvsat = c.cvsat := rfl
@[simp] theorem Core.setK_tout (c : Core) (n : Nat) (v : BitVec 32) : (c.setK n v).tout = c.tout := rfl
@[simp] theorem Core.setK_wval (c : Core) (n : Nat) (v : BitVec 32) : (c.setK n v).wval = c.wval := rfl
@[simp] theorem Core.setK_wcmp (c : Core) (n : Nat) (v : BitVec 32) : (c.setK n v).wcmp = c.wcmp := rfl
@[simp] theorem Core.setK_wgrn (c : Core) (n : Nat) (v : BitVec 32) : (c.setK n v).wgrn = c.wgrn := rfl
@[simp] theorem Core.setK_kund (c : Core) (n : Nat) (v : BitVec 32) : (c.setK n v).kund = c.kund := rfl
@[simp] theorem Core.setK_lclk (c : Core) (n : Nat) (v : BitVec 32) : (c.setK n v).lclk = c.lclk := rfl
@[simp] theorem Core.setK_wdCount (c : Core) (n : Nat) (v : BitVec 32) : (c.setK n v).wdCount = c.wdCount := rfl
@[simp] theorem Core.setK_wdLimit (c : Core) (n : Nat) (v : BitVec 32) : (c.setK n v).wdLimit = c.wdLimit := rfl
@[simp] theorem Core.setK_wdDue (c : Core) (n : Nat) (v : BitVec 32) : (c.setK n v).wdDue = c.wdDue := rfl
@[simp] theorem Core.setK_wdFrom (c : Core) (n : Nat) (v : BitVec 32) : (c.setK n v).wdFrom = c.wdFrom := rfl
@[simp] theorem Core.setK_slen (c : Core) (n : Nat) (v : BitVec 32) : (c.setK n v).slen = c.slen := rfl
@[simp] theorem Core.setK_spos (c : Core) (n : Nat) (v : BitVec 32) : (c.setK n v).spos = c.spos := rfl
@[simp] theorem Core.setK_tvec (c : Core) (n : Nat) (v : BitVec 32) : (c.setK n v).tvec = c.tvec := rfl
@[simp] theorem Core.setK_dcause (c : Core) (n : Nat) (v : BitVec 32) : (c.setK n v).dcause = c.dcause := rfl
@[simp] theorem Core.setK_spFill (c : Core) (n : Nat) (v : BitVec 32) : (c.setK n v).spFill = c.spFill := rfl
@[simp] theorem Core.setK_sp (c : Core) (n : Nat) (v : BitVec 32) : (c.setK n v).sp = c.sp := rfl
@[simp] theorem Core.setK_tags (c : Core) (n : Nat) (v : BitVec 32) : (c.setK n v).tags = c.tags := rfl
@[simp] theorem Core.setK_rs (c : Core) (n : Nat) (v : BitVec 32) : (c.setK n v).rs = c.rs := rfl
@[simp] theorem Core.setK_vclk (c : Core) (n : Nat) (v : BitVec 32) : (c.setK n v).vclk = c.vclk := rfl
@[simp] theorem Core.setK_barVecs (c : Core) (n : Nat) (v : BitVec 32) : (c.setK n v).barVecs = c.barVecs := rfl
@[simp] theorem Core.setK_barArrs (c : Core) (n : Nat) (v : BitVec 32) : (c.setK n v).barArrs = c.barArrs := rfl
@[simp] theorem Core.setK_ob (c : Core) (n : Nat) (v : BitVec 32) : (c.setK n v).ob = c.ob := rfl
@[simp] theorem Core.setK_ac (c : Core) (n : Nat) (v : BitVec 32) : (c.setK n v).ac = c.ac := rfl
@[simp] theorem Core.setK_mmas (c : Core) (n : Nat) (v : BitVec 32) : (c.setK n v).mmas = c.mmas := rfl
@[simp] theorem Core.setK_lastMma (c : Core) (n : Nat) (v : BitVec 32) : (c.setK n v).lastMma = c.lastMma := rfl
@[simp] theorem Core.setK_tqs (c : Core) (n : Nat) (v : BitVec 32) : (c.setK n v).tqs = c.tqs := rfl
@[simp] theorem Core.setK_kclk (c : Core) (n : Nat) (v : BitVec 32) : (c.setK n v).kclk = c.kclk := rfl
@[simp] theorem Core.setK_e0 (c : Core) (n : Nat) (v : BitVec 32) : (c.setK n v).e0 = c.e0 := rfl
@[simp] theorem Core.setK_e1 (c : Core) (n : Nat) (v : BitVec 32) : (c.setK n v).e1 = c.e1 := rfl
@[simp] theorem Core.setK_cbs (c : Core) (n : Nat) (v : BitVec 32) : (c.setK n v).cbs = c.cbs := rfl
@[simp] theorem Core.setK_binds (c : Core) (n : Nat) (v : BitVec 32) : (c.setK n v).binds = c.binds := rfl
@[simp] theorem Core.setK_wcs (c : Core) (n : Nat) (v : BitVec 32) : (c.setK n v).wcs = c.wcs := rfl
@[simp] theorem Core.setK_wakeq (c : Core) (n : Nat) (v : BitVec 32) : (c.setK n v).wakeq = c.wakeq := rfl
@[simp] theorem Core.setK_stash (c : Core) (n : Nat) (v : BitVec 32) : (c.setK n v).stash = c.stash := rfl
@[simp] theorem Core.setK_chq (c : Core) (n : Nat) (v : BitVec 32) : (c.setK n v).chq = c.chq := rfl
@[simp] theorem Core.setK_recvs (c : Core) (n : Nat) (v : BitVec 32) : (c.setK n v).recvs = c.recvs := rfl
@[simp] theorem Core.setK_colFaults (c : Core) (n : Nat) (v : BitVec 32) : (c.setK n v).colFaults = c.colFaults := rfl
@[simp] theorem Core.setK_nft (c : Core) (n : Nat) (v : BitVec 32) : (c.setK n v).nft = c.nft := rfl
@[simp] theorem Core.setK_sched (c : Core) (n : Nat) (v : BitVec 32) : (c.setK n v).sched = c.sched := rfl
@[simp] theorem Core.setK_tlb (c : Core) (n : Nat) (v : BitVec 32) : (c.setK n v).tlb = c.tlb := rfl
@[simp] theorem Core.setK_etlb0 (c : Core) (n : Nat) (v : BitVec 32) : (c.setK n v).etlb0 = c.etlb0 := rfl
@[simp] theorem Core.setK_etlb1 (c : Core) (n : Nat) (v : BitVec 32) : (c.setK n v).etlb1 = c.etlb1 := rfl
@[simp] theorem Core.setK_wflt (c : Core) (n : Nat) (v : BitVec 32) : (c.setK n v).wflt = c.wflt := rfl
@[simp] theorem Core.setK_cal (c : Core) (n : Nat) (v : BitVec 32) : (c.setK n v).cal = c.cal := rfl
@[simp] theorem Core.setK_flights (c : Core) (n : Nat) (v : BitVec 32) : (c.setK n v).flights = c.flights := rfl
@[simp] theorem Core.setK_mesh (c : Core) (n : Nat) (v : BitVec 32) : (c.setK n v).mesh = c.mesh := rfl
@[simp] theorem Core.setK_token (c : Core) (n : Nat) (v : BitVec 32) : (c.setK n v).token = c.token := rfl
@[simp] theorem Core.setK_regUe (c : Core) (n : Nat) (v : BitVec 32) : (c.setK n v).regUe = c.regUe := rfl
@[simp] theorem Core.after_run (c : Core) (n : Nat) (e : CalEv) : (c.after n e).run = c.run := rfl
@[simp] theorem Core.after_team (c : Core) (n : Nat) (e : CalEv) : (c.after n e).team = c.team := rfl
@[simp] theorem Core.after_was (c : Core) (n : Nat) (e : CalEv) : (c.after n e).was = c.was := rfl
@[simp] theorem Core.after_cyc (c : Core) (n : Nat) (e : CalEv) : (c.after n e).cyc = c.cyc := rfl
@[simp] theorem Core.after_nextId (c : Core) (n : Nat) (e : CalEv) : (c.after n e).nextId = c.nextId := rfl
@[simp] theorem Core.after_g (c : Core) (n : Nat) (e : CalEv) : (c.after n e).g = c.g := rfl
@[simp] theorem Core.after_v (c : Core) (n : Nat) (e : CalEv) : (c.after n e).v = c.v := rfl
@[simp] theorem Core.after_p (c : Core) (n : Nat) (e : CalEv) : (c.after n e).p = c.p := rfl
@[simp] theorem Core.after_gsb (c : Core) (n : Nat) (e : CalEv) : (c.after n e).gsb = c.gsb := rfl
@[simp] theorem Core.after_vsb (c : Core) (n : Nat) (e : CalEv) : (c.after n e).vsb = c.vsb := rfl
@[simp] theorem Core.after_prog (c : Core) (n : Nat) (e : CalEv) : (c.after n e).prog = c.prog := rfl
@[simp] theorem Core.after_hand (c : Core) (n : Nat) (e : CalEv) : (c.after n e).hand = c.hand := rfl
@[simp] theorem Core.after_pc (c : Core) (n : Nat) (e : CalEv) : (c.after n e).pc = c.pc := rfl
@[simp] theorem Core.after_hist (c : Core) (n : Nat) (e : CalEv) : (c.after n e).hist = c.hist := rfl
@[simp] theorem Core.after_savedHist (c : Core) (n : Nat) (e : CalEv) : (c.after n e).savedHist = c.savedHist := rfl
@[simp] theorem Core.after_fetched (c : Core) (n : Nat) (e : CalEv) : (c.after n e).fetched = c.fetched := rfl
@[simp] theorem Core.after_bun (c : Core) (n : Nat) (e : CalEv) : (c.after n e).bun = c.bun := rfl
@[simp] theorem Core.after_pend (c : Core) (n : Nat) (e : CalEv) : (c.after n e).pend = c.pend := rfl
@[simp] theorem Core.after_reent (c : Core) (n : Nat) (e : CalEv) : (c.after n e).reent = c.reent := rfl
@[simp] theorem Core.after_redir (c : Core) (n : Nat) (e : CalEv) : (c.after n e).redir = c.redir := rfl
@[simp] theorem Core.after_issuing (c : Core) (n : Nat) (e : CalEv) : (c.after n e).issuing = c.issuing := rfl
@[simp] theorem Core.after_slot (c : Core) (n : Nat) (e : CalEv) : (c.after n e).slot = c.slot := rfl
@[simp] theorem Core.after_grpSq (c : Core) (n : Nat) (e : CalEv) : (c.after n e).grpSq = c.grpSq := rfl
@[simp] theorem Core.after_grpVq (c : Core) (n : Nat) (e : CalEv) : (c.after n e).grpVq = c.grpVq := rfl
@[simp] theorem Core.after_rest (c : Core) (n : Nat) (e : CalEv) : (c.after n e).rest = c.rest := rfl
@[simp] theorem Core.after_defer (c : Core) (n : Nat) (e : CalEv) : (c.after n e).defer = c.defer := rfl
@[simp] theorem Core.after_grpOld (c : Core) (n : Nat) (e : CalEv) : (c.after n e).grpOld = c.grpOld := rfl
@[simp] theorem Core.after_grpSys (c : Core) (n : Nat) (e : CalEv) : (c.after n e).grpSys = c.grpSys := rfl
@[simp] theorem Core.after_grpBanks (c : Core) (n : Nat) (e : CalEv) : (c.after n e).grpBanks = c.grpBanks := rfl
@[simp] theorem Core.after_snap (c : Core) (n : Nat) (e : CalEv) : (c.after n e).snap = c.snap := rfl
@[simp] theorem Core.after_grpStash (c : Core) (n : Nat) (e : CalEv) : (c.after n e).grpStash = c.grpStash := rfl
@[simp] theorem Core.after_gzAsk (c : Core) (n : Nat) (e : CalEv) : (c.after n e).gzAsk = c.gzAsk := rfl
@[simp] theorem Core.after_gzGrant (c : Core) (n : Nat) (e : CalEv) : (c.after n e).gzGrant = c.gzGrant := rfl
@[simp] theorem Core.after_gzKeep (c : Core) (n : Nat) (e : CalEv) : (c.after n e).gzKeep = c.gzKeep := rfl
@[simp] theorem Core.after_held (c : Core) (n : Nat) (e : CalEv) : (c.after n e).held = c.held := rfl
@[simp] theorem Core.after_sret (c : Core) (n : Nat) (e : CalEv) : (c.after n e).sret = c.sret := rfl
@[simp] theorem Core.after_wbT (c : Core) (n : Nat) (e : CalEv) : (c.after n e).wbT = c.wbT := rfl
@[simp] theorem Core.after_sct (c : Core) (n : Nat) (e : CalEv) : (c.after n e).sct = c.sct := rfl
@[simp] theorem Core.after_moved (c : Core) (n : Nat) (e : CalEv) : (c.after n e).moved = c.moved := rfl
@[simp] theorem Core.after_tm (c : Core) (n : Nat) (e : CalEv) : (c.after n e).tm = c.tm := rfl
@[simp] theorem Core.after_prd (c : Core) (n : Nat) (e : CalEv) : (c.after n e).prd = c.prd := rfl
@[simp] theorem Core.after_pkind (c : Core) (n : Nat) (e : CalEv) : (c.after n e).pkind = c.pkind := rfl
@[simp] theorem Core.after_rsm (c : Core) (n : Nat) (e : CalEv) : (c.after n e).rsm = c.rsm := rfl
@[simp] theorem Core.after_sres (c : Core) (n : Nat) (e : CalEv) : (c.after n e).sres = c.sres := rfl
@[simp] theorem Core.after_qas (c : Core) (n : Nat) (e : CalEv) : (c.after n e).qas = c.qas := rfl
@[simp] theorem Core.after_qav (c : Core) (n : Nat) (e : CalEv) : (c.after n e).qav = c.qav := rfl
@[simp] theorem Core.after_cause (c : Core) (n : Nat) (e : CalEv) : (c.after n e).cause = c.cause := rfl
@[simp] theorem Core.after_epc (c : Core) (n : Nat) (e : CalEv) : (c.after n e).epc = c.epc := rfl
@[simp] theorem Core.after_faddr (c : Core) (n : Nat) (e : CalEv) : (c.after n e).faddr = c.faddr := rfl
@[simp] theorem Core.after_ptgt (c : Core) (n : Nat) (e : CalEv) : (c.after n e).ptgt = c.ptgt := rfl
@[simp] theorem Core.after_sfall (c : Core) (n : Nat) (e : CalEv) : (c.after n e).sfall = c.sfall := rfl
@[simp] theorem Core.after_seed (c : Core) (n : Nat) (e : CalEv) : (c.after n e).seed = c.seed := rfl
@[simp] theorem Core.after_cvsat (c : Core) (n : Nat) (e : CalEv) : (c.after n e).cvsat = c.cvsat := rfl
@[simp] theorem Core.after_tout (c : Core) (n : Nat) (e : CalEv) : (c.after n e).tout = c.tout := rfl
@[simp] theorem Core.after_wval (c : Core) (n : Nat) (e : CalEv) : (c.after n e).wval = c.wval := rfl
@[simp] theorem Core.after_wcmp (c : Core) (n : Nat) (e : CalEv) : (c.after n e).wcmp = c.wcmp := rfl
@[simp] theorem Core.after_wgrn (c : Core) (n : Nat) (e : CalEv) : (c.after n e).wgrn = c.wgrn := rfl
@[simp] theorem Core.after_kund (c : Core) (n : Nat) (e : CalEv) : (c.after n e).kund = c.kund := rfl
@[simp] theorem Core.after_lclk (c : Core) (n : Nat) (e : CalEv) : (c.after n e).lclk = c.lclk := rfl
@[simp] theorem Core.after_wdCount (c : Core) (n : Nat) (e : CalEv) : (c.after n e).wdCount = c.wdCount := rfl
@[simp] theorem Core.after_wdLimit (c : Core) (n : Nat) (e : CalEv) : (c.after n e).wdLimit = c.wdLimit := rfl
@[simp] theorem Core.after_wdDue (c : Core) (n : Nat) (e : CalEv) : (c.after n e).wdDue = c.wdDue := rfl
@[simp] theorem Core.after_wdFrom (c : Core) (n : Nat) (e : CalEv) : (c.after n e).wdFrom = c.wdFrom := rfl
@[simp] theorem Core.after_slen (c : Core) (n : Nat) (e : CalEv) : (c.after n e).slen = c.slen := rfl
@[simp] theorem Core.after_spos (c : Core) (n : Nat) (e : CalEv) : (c.after n e).spos = c.spos := rfl
@[simp] theorem Core.after_tvec (c : Core) (n : Nat) (e : CalEv) : (c.after n e).tvec = c.tvec := rfl
@[simp] theorem Core.after_dcause (c : Core) (n : Nat) (e : CalEv) : (c.after n e).dcause = c.dcause := rfl
@[simp] theorem Core.after_spFill (c : Core) (n : Nat) (e : CalEv) : (c.after n e).spFill = c.spFill := rfl
@[simp] theorem Core.after_sp (c : Core) (n : Nat) (e : CalEv) : (c.after n e).sp = c.sp := rfl
@[simp] theorem Core.after_tags (c : Core) (n : Nat) (e : CalEv) : (c.after n e).tags = c.tags := rfl
@[simp] theorem Core.after_rs (c : Core) (n : Nat) (e : CalEv) : (c.after n e).rs = c.rs := rfl
@[simp] theorem Core.after_vclk (c : Core) (n : Nat) (e : CalEv) : (c.after n e).vclk = c.vclk := rfl
@[simp] theorem Core.after_barVecs (c : Core) (n : Nat) (e : CalEv) : (c.after n e).barVecs = c.barVecs := rfl
@[simp] theorem Core.after_barArrs (c : Core) (n : Nat) (e : CalEv) : (c.after n e).barArrs = c.barArrs := rfl
@[simp] theorem Core.after_ob (c : Core) (n : Nat) (e : CalEv) : (c.after n e).ob = c.ob := rfl
@[simp] theorem Core.after_ac (c : Core) (n : Nat) (e : CalEv) : (c.after n e).ac = c.ac := rfl
@[simp] theorem Core.after_mmas (c : Core) (n : Nat) (e : CalEv) : (c.after n e).mmas = c.mmas := rfl
@[simp] theorem Core.after_lastMma (c : Core) (n : Nat) (e : CalEv) : (c.after n e).lastMma = c.lastMma := rfl
@[simp] theorem Core.after_tqs (c : Core) (n : Nat) (e : CalEv) : (c.after n e).tqs = c.tqs := rfl
@[simp] theorem Core.after_k (c : Core) (n : Nat) (e : CalEv) : (c.after n e).k = c.k := rfl
@[simp] theorem Core.after_kclk (c : Core) (n : Nat) (e : CalEv) : (c.after n e).kclk = c.kclk := rfl
@[simp] theorem Core.after_e0 (c : Core) (n : Nat) (e : CalEv) : (c.after n e).e0 = c.e0 := rfl
@[simp] theorem Core.after_e1 (c : Core) (n : Nat) (e : CalEv) : (c.after n e).e1 = c.e1 := rfl
@[simp] theorem Core.after_cbs (c : Core) (n : Nat) (e : CalEv) : (c.after n e).cbs = c.cbs := rfl
@[simp] theorem Core.after_binds (c : Core) (n : Nat) (e : CalEv) : (c.after n e).binds = c.binds := rfl
@[simp] theorem Core.after_wcs (c : Core) (n : Nat) (e : CalEv) : (c.after n e).wcs = c.wcs := rfl
@[simp] theorem Core.after_wakeq (c : Core) (n : Nat) (e : CalEv) : (c.after n e).wakeq = c.wakeq := rfl
@[simp] theorem Core.after_stash (c : Core) (n : Nat) (e : CalEv) : (c.after n e).stash = c.stash := rfl
@[simp] theorem Core.after_chq (c : Core) (n : Nat) (e : CalEv) : (c.after n e).chq = c.chq := rfl
@[simp] theorem Core.after_recvs (c : Core) (n : Nat) (e : CalEv) : (c.after n e).recvs = c.recvs := rfl
@[simp] theorem Core.after_colFaults (c : Core) (n : Nat) (e : CalEv) : (c.after n e).colFaults = c.colFaults := rfl
@[simp] theorem Core.after_nft (c : Core) (n : Nat) (e : CalEv) : (c.after n e).nft = c.nft := rfl
@[simp] theorem Core.after_sched (c : Core) (n : Nat) (e : CalEv) : (c.after n e).sched = c.sched := rfl
@[simp] theorem Core.after_tlb (c : Core) (n : Nat) (e : CalEv) : (c.after n e).tlb = c.tlb := rfl
@[simp] theorem Core.after_etlb0 (c : Core) (n : Nat) (e : CalEv) : (c.after n e).etlb0 = c.etlb0 := rfl
@[simp] theorem Core.after_etlb1 (c : Core) (n : Nat) (e : CalEv) : (c.after n e).etlb1 = c.etlb1 := rfl
@[simp] theorem Core.after_wflt (c : Core) (n : Nat) (e : CalEv) : (c.after n e).wflt = c.wflt := rfl
@[simp] theorem Core.after_flights (c : Core) (n : Nat) (e : CalEv) : (c.after n e).flights = c.flights := rfl
@[simp] theorem Core.after_mesh (c : Core) (n : Nat) (e : CalEv) : (c.after n e).mesh = c.mesh := rfl
@[simp] theorem Core.after_token (c : Core) (n : Nat) (e : CalEv) : (c.after n e).token = c.token := rfl
@[simp] theorem Core.after_regUe (c : Core) (n : Nat) (e : CalEv) : (c.after n e).regUe = c.regUe := rfl
@[simp] theorem Core.modTile_run (c : Core) (n : Nat) (f : Tile → Tile) : (c.modTile n f).run = c.run := rfl
@[simp] theorem Core.modTile_team (c : Core) (n : Nat) (f : Tile → Tile) : (c.modTile n f).team = c.team := rfl
@[simp] theorem Core.modTile_was (c : Core) (n : Nat) (f : Tile → Tile) : (c.modTile n f).was = c.was := rfl
@[simp] theorem Core.modTile_cyc (c : Core) (n : Nat) (f : Tile → Tile) : (c.modTile n f).cyc = c.cyc := rfl
@[simp] theorem Core.modTile_nextId (c : Core) (n : Nat) (f : Tile → Tile) : (c.modTile n f).nextId = c.nextId := rfl
@[simp] theorem Core.modTile_g (c : Core) (n : Nat) (f : Tile → Tile) : (c.modTile n f).g = c.g := rfl
@[simp] theorem Core.modTile_v (c : Core) (n : Nat) (f : Tile → Tile) : (c.modTile n f).v = c.v := rfl
@[simp] theorem Core.modTile_p (c : Core) (n : Nat) (f : Tile → Tile) : (c.modTile n f).p = c.p := rfl
@[simp] theorem Core.modTile_gsb (c : Core) (n : Nat) (f : Tile → Tile) : (c.modTile n f).gsb = c.gsb := rfl
@[simp] theorem Core.modTile_vsb (c : Core) (n : Nat) (f : Tile → Tile) : (c.modTile n f).vsb = c.vsb := rfl
@[simp] theorem Core.modTile_prog (c : Core) (n : Nat) (f : Tile → Tile) : (c.modTile n f).prog = c.prog := rfl
@[simp] theorem Core.modTile_hand (c : Core) (n : Nat) (f : Tile → Tile) : (c.modTile n f).hand = c.hand := rfl
@[simp] theorem Core.modTile_pc (c : Core) (n : Nat) (f : Tile → Tile) : (c.modTile n f).pc = c.pc := rfl
@[simp] theorem Core.modTile_hist (c : Core) (n : Nat) (f : Tile → Tile) : (c.modTile n f).hist = c.hist := rfl
@[simp] theorem Core.modTile_savedHist (c : Core) (n : Nat) (f : Tile → Tile) : (c.modTile n f).savedHist = c.savedHist := rfl
@[simp] theorem Core.modTile_fetched (c : Core) (n : Nat) (f : Tile → Tile) : (c.modTile n f).fetched = c.fetched := rfl
@[simp] theorem Core.modTile_bun (c : Core) (n : Nat) (f : Tile → Tile) : (c.modTile n f).bun = c.bun := rfl
@[simp] theorem Core.modTile_pend (c : Core) (n : Nat) (f : Tile → Tile) : (c.modTile n f).pend = c.pend := rfl
@[simp] theorem Core.modTile_reent (c : Core) (n : Nat) (f : Tile → Tile) : (c.modTile n f).reent = c.reent := rfl
@[simp] theorem Core.modTile_redir (c : Core) (n : Nat) (f : Tile → Tile) : (c.modTile n f).redir = c.redir := rfl
@[simp] theorem Core.modTile_issuing (c : Core) (n : Nat) (f : Tile → Tile) : (c.modTile n f).issuing = c.issuing := rfl
@[simp] theorem Core.modTile_slot (c : Core) (n : Nat) (f : Tile → Tile) : (c.modTile n f).slot = c.slot := rfl
@[simp] theorem Core.modTile_grpSq (c : Core) (n : Nat) (f : Tile → Tile) : (c.modTile n f).grpSq = c.grpSq := rfl
@[simp] theorem Core.modTile_grpVq (c : Core) (n : Nat) (f : Tile → Tile) : (c.modTile n f).grpVq = c.grpVq := rfl
@[simp] theorem Core.modTile_rest (c : Core) (n : Nat) (f : Tile → Tile) : (c.modTile n f).rest = c.rest := rfl
@[simp] theorem Core.modTile_defer (c : Core) (n : Nat) (f : Tile → Tile) : (c.modTile n f).defer = c.defer := rfl
@[simp] theorem Core.modTile_grpOld (c : Core) (n : Nat) (f : Tile → Tile) : (c.modTile n f).grpOld = c.grpOld := rfl
@[simp] theorem Core.modTile_grpSys (c : Core) (n : Nat) (f : Tile → Tile) : (c.modTile n f).grpSys = c.grpSys := rfl
@[simp] theorem Core.modTile_grpBanks (c : Core) (n : Nat) (f : Tile → Tile) : (c.modTile n f).grpBanks = c.grpBanks := rfl
@[simp] theorem Core.modTile_snap (c : Core) (n : Nat) (f : Tile → Tile) : (c.modTile n f).snap = c.snap := rfl
@[simp] theorem Core.modTile_grpStash (c : Core) (n : Nat) (f : Tile → Tile) : (c.modTile n f).grpStash = c.grpStash := rfl
@[simp] theorem Core.modTile_gzAsk (c : Core) (n : Nat) (f : Tile → Tile) : (c.modTile n f).gzAsk = c.gzAsk := rfl
@[simp] theorem Core.modTile_gzGrant (c : Core) (n : Nat) (f : Tile → Tile) : (c.modTile n f).gzGrant = c.gzGrant := rfl
@[simp] theorem Core.modTile_gzKeep (c : Core) (n : Nat) (f : Tile → Tile) : (c.modTile n f).gzKeep = c.gzKeep := rfl
@[simp] theorem Core.modTile_held (c : Core) (n : Nat) (f : Tile → Tile) : (c.modTile n f).held = c.held := rfl
@[simp] theorem Core.modTile_sret (c : Core) (n : Nat) (f : Tile → Tile) : (c.modTile n f).sret = c.sret := rfl
@[simp] theorem Core.modTile_wbT (c : Core) (n : Nat) (f : Tile → Tile) : (c.modTile n f).wbT = c.wbT := rfl
@[simp] theorem Core.modTile_sct (c : Core) (n : Nat) (f : Tile → Tile) : (c.modTile n f).sct = c.sct := rfl
@[simp] theorem Core.modTile_moved (c : Core) (n : Nat) (f : Tile → Tile) : (c.modTile n f).moved = c.moved := rfl
@[simp] theorem Core.modTile_tm (c : Core) (n : Nat) (f : Tile → Tile) : (c.modTile n f).tm = c.tm := rfl
@[simp] theorem Core.modTile_prd (c : Core) (n : Nat) (f : Tile → Tile) : (c.modTile n f).prd = c.prd := rfl
@[simp] theorem Core.modTile_pkind (c : Core) (n : Nat) (f : Tile → Tile) : (c.modTile n f).pkind = c.pkind := rfl
@[simp] theorem Core.modTile_rsm (c : Core) (n : Nat) (f : Tile → Tile) : (c.modTile n f).rsm = c.rsm := rfl
@[simp] theorem Core.modTile_sres (c : Core) (n : Nat) (f : Tile → Tile) : (c.modTile n f).sres = c.sres := rfl
@[simp] theorem Core.modTile_qas (c : Core) (n : Nat) (f : Tile → Tile) : (c.modTile n f).qas = c.qas := rfl
@[simp] theorem Core.modTile_qav (c : Core) (n : Nat) (f : Tile → Tile) : (c.modTile n f).qav = c.qav := rfl
@[simp] theorem Core.modTile_cause (c : Core) (n : Nat) (f : Tile → Tile) : (c.modTile n f).cause = c.cause := rfl
@[simp] theorem Core.modTile_epc (c : Core) (n : Nat) (f : Tile → Tile) : (c.modTile n f).epc = c.epc := rfl
@[simp] theorem Core.modTile_faddr (c : Core) (n : Nat) (f : Tile → Tile) : (c.modTile n f).faddr = c.faddr := rfl
@[simp] theorem Core.modTile_ptgt (c : Core) (n : Nat) (f : Tile → Tile) : (c.modTile n f).ptgt = c.ptgt := rfl
@[simp] theorem Core.modTile_sfall (c : Core) (n : Nat) (f : Tile → Tile) : (c.modTile n f).sfall = c.sfall := rfl
@[simp] theorem Core.modTile_seed (c : Core) (n : Nat) (f : Tile → Tile) : (c.modTile n f).seed = c.seed := rfl
@[simp] theorem Core.modTile_cvsat (c : Core) (n : Nat) (f : Tile → Tile) : (c.modTile n f).cvsat = c.cvsat := rfl
@[simp] theorem Core.modTile_tout (c : Core) (n : Nat) (f : Tile → Tile) : (c.modTile n f).tout = c.tout := rfl
@[simp] theorem Core.modTile_wval (c : Core) (n : Nat) (f : Tile → Tile) : (c.modTile n f).wval = c.wval := rfl
@[simp] theorem Core.modTile_wcmp (c : Core) (n : Nat) (f : Tile → Tile) : (c.modTile n f).wcmp = c.wcmp := rfl
@[simp] theorem Core.modTile_wgrn (c : Core) (n : Nat) (f : Tile → Tile) : (c.modTile n f).wgrn = c.wgrn := rfl
@[simp] theorem Core.modTile_kund (c : Core) (n : Nat) (f : Tile → Tile) : (c.modTile n f).kund = c.kund := rfl
@[simp] theorem Core.modTile_lclk (c : Core) (n : Nat) (f : Tile → Tile) : (c.modTile n f).lclk = c.lclk := rfl
@[simp] theorem Core.modTile_wdCount (c : Core) (n : Nat) (f : Tile → Tile) : (c.modTile n f).wdCount = c.wdCount := rfl
@[simp] theorem Core.modTile_wdLimit (c : Core) (n : Nat) (f : Tile → Tile) : (c.modTile n f).wdLimit = c.wdLimit := rfl
@[simp] theorem Core.modTile_wdDue (c : Core) (n : Nat) (f : Tile → Tile) : (c.modTile n f).wdDue = c.wdDue := rfl
@[simp] theorem Core.modTile_wdFrom (c : Core) (n : Nat) (f : Tile → Tile) : (c.modTile n f).wdFrom = c.wdFrom := rfl
@[simp] theorem Core.modTile_slen (c : Core) (n : Nat) (f : Tile → Tile) : (c.modTile n f).slen = c.slen := rfl
@[simp] theorem Core.modTile_spos (c : Core) (n : Nat) (f : Tile → Tile) : (c.modTile n f).spos = c.spos := rfl
@[simp] theorem Core.modTile_tvec (c : Core) (n : Nat) (f : Tile → Tile) : (c.modTile n f).tvec = c.tvec := rfl
@[simp] theorem Core.modTile_dcause (c : Core) (n : Nat) (f : Tile → Tile) : (c.modTile n f).dcause = c.dcause := rfl
@[simp] theorem Core.modTile_spFill (c : Core) (n : Nat) (f : Tile → Tile) : (c.modTile n f).spFill = c.spFill := rfl
@[simp] theorem Core.modTile_sp (c : Core) (n : Nat) (f : Tile → Tile) : (c.modTile n f).sp = c.sp := rfl
@[simp] theorem Core.modTile_tags (c : Core) (n : Nat) (f : Tile → Tile) : (c.modTile n f).tags = c.tags := rfl
@[simp] theorem Core.modTile_rs (c : Core) (n : Nat) (f : Tile → Tile) : (c.modTile n f).rs = c.rs := rfl
@[simp] theorem Core.modTile_vclk (c : Core) (n : Nat) (f : Tile → Tile) : (c.modTile n f).vclk = c.vclk := rfl
@[simp] theorem Core.modTile_barVecs (c : Core) (n : Nat) (f : Tile → Tile) : (c.modTile n f).barVecs = c.barVecs := rfl
@[simp] theorem Core.modTile_barArrs (c : Core) (n : Nat) (f : Tile → Tile) : (c.modTile n f).barArrs = c.barArrs := rfl
@[simp] theorem Core.modTile_ob (c : Core) (n : Nat) (f : Tile → Tile) : (c.modTile n f).ob = c.ob := rfl
@[simp] theorem Core.modTile_mmas (c : Core) (n : Nat) (f : Tile → Tile) : (c.modTile n f).mmas = c.mmas := rfl
@[simp] theorem Core.modTile_lastMma (c : Core) (n : Nat) (f : Tile → Tile) : (c.modTile n f).lastMma = c.lastMma := rfl
@[simp] theorem Core.modTile_tqs (c : Core) (n : Nat) (f : Tile → Tile) : (c.modTile n f).tqs = c.tqs := rfl
@[simp] theorem Core.modTile_k (c : Core) (n : Nat) (f : Tile → Tile) : (c.modTile n f).k = c.k := rfl
@[simp] theorem Core.modTile_kclk (c : Core) (n : Nat) (f : Tile → Tile) : (c.modTile n f).kclk = c.kclk := rfl
@[simp] theorem Core.modTile_e0 (c : Core) (n : Nat) (f : Tile → Tile) : (c.modTile n f).e0 = c.e0 := rfl
@[simp] theorem Core.modTile_e1 (c : Core) (n : Nat) (f : Tile → Tile) : (c.modTile n f).e1 = c.e1 := rfl
@[simp] theorem Core.modTile_cbs (c : Core) (n : Nat) (f : Tile → Tile) : (c.modTile n f).cbs = c.cbs := rfl
@[simp] theorem Core.modTile_binds (c : Core) (n : Nat) (f : Tile → Tile) : (c.modTile n f).binds = c.binds := rfl
@[simp] theorem Core.modTile_wcs (c : Core) (n : Nat) (f : Tile → Tile) : (c.modTile n f).wcs = c.wcs := rfl
@[simp] theorem Core.modTile_wakeq (c : Core) (n : Nat) (f : Tile → Tile) : (c.modTile n f).wakeq = c.wakeq := rfl
@[simp] theorem Core.modTile_stash (c : Core) (n : Nat) (f : Tile → Tile) : (c.modTile n f).stash = c.stash := rfl
@[simp] theorem Core.modTile_chq (c : Core) (n : Nat) (f : Tile → Tile) : (c.modTile n f).chq = c.chq := rfl
@[simp] theorem Core.modTile_recvs (c : Core) (n : Nat) (f : Tile → Tile) : (c.modTile n f).recvs = c.recvs := rfl
@[simp] theorem Core.modTile_colFaults (c : Core) (n : Nat) (f : Tile → Tile) : (c.modTile n f).colFaults = c.colFaults := rfl
@[simp] theorem Core.modTile_nft (c : Core) (n : Nat) (f : Tile → Tile) : (c.modTile n f).nft = c.nft := rfl
@[simp] theorem Core.modTile_sched (c : Core) (n : Nat) (f : Tile → Tile) : (c.modTile n f).sched = c.sched := rfl
@[simp] theorem Core.modTile_tlb (c : Core) (n : Nat) (f : Tile → Tile) : (c.modTile n f).tlb = c.tlb := rfl
@[simp] theorem Core.modTile_etlb0 (c : Core) (n : Nat) (f : Tile → Tile) : (c.modTile n f).etlb0 = c.etlb0 := rfl
@[simp] theorem Core.modTile_etlb1 (c : Core) (n : Nat) (f : Tile → Tile) : (c.modTile n f).etlb1 = c.etlb1 := rfl
@[simp] theorem Core.modTile_wflt (c : Core) (n : Nat) (f : Tile → Tile) : (c.modTile n f).wflt = c.wflt := rfl
@[simp] theorem Core.modTile_cal (c : Core) (n : Nat) (f : Tile → Tile) : (c.modTile n f).cal = c.cal := rfl
@[simp] theorem Core.modTile_flights (c : Core) (n : Nat) (f : Tile → Tile) : (c.modTile n f).flights = c.flights := rfl
@[simp] theorem Core.modTile_mesh (c : Core) (n : Nat) (f : Tile → Tile) : (c.modTile n f).mesh = c.mesh := rfl
@[simp] theorem Core.modTile_token (c : Core) (n : Nat) (f : Tile → Tile) : (c.modTile n f).token = c.token := rfl
@[simp] theorem Core.modTile_regUe (c : Core) (n : Nat) (f : Tile → Tile) : (c.modTile n f).regUe = c.regUe := rfl
@[simp] theorem Core.modOb_run (c : Core) (n : Nat) (f : ObSlot → ObSlot) : (c.modOb n f).run = c.run := rfl
@[simp] theorem Core.modOb_team (c : Core) (n : Nat) (f : ObSlot → ObSlot) : (c.modOb n f).team = c.team := rfl
@[simp] theorem Core.modOb_was (c : Core) (n : Nat) (f : ObSlot → ObSlot) : (c.modOb n f).was = c.was := rfl
@[simp] theorem Core.modOb_cyc (c : Core) (n : Nat) (f : ObSlot → ObSlot) : (c.modOb n f).cyc = c.cyc := rfl
@[simp] theorem Core.modOb_nextId (c : Core) (n : Nat) (f : ObSlot → ObSlot) : (c.modOb n f).nextId = c.nextId := rfl
@[simp] theorem Core.modOb_g (c : Core) (n : Nat) (f : ObSlot → ObSlot) : (c.modOb n f).g = c.g := rfl
@[simp] theorem Core.modOb_v (c : Core) (n : Nat) (f : ObSlot → ObSlot) : (c.modOb n f).v = c.v := rfl
@[simp] theorem Core.modOb_p (c : Core) (n : Nat) (f : ObSlot → ObSlot) : (c.modOb n f).p = c.p := rfl
@[simp] theorem Core.modOb_gsb (c : Core) (n : Nat) (f : ObSlot → ObSlot) : (c.modOb n f).gsb = c.gsb := rfl
@[simp] theorem Core.modOb_vsb (c : Core) (n : Nat) (f : ObSlot → ObSlot) : (c.modOb n f).vsb = c.vsb := rfl
@[simp] theorem Core.modOb_prog (c : Core) (n : Nat) (f : ObSlot → ObSlot) : (c.modOb n f).prog = c.prog := rfl
@[simp] theorem Core.modOb_hand (c : Core) (n : Nat) (f : ObSlot → ObSlot) : (c.modOb n f).hand = c.hand := rfl
@[simp] theorem Core.modOb_pc (c : Core) (n : Nat) (f : ObSlot → ObSlot) : (c.modOb n f).pc = c.pc := rfl
@[simp] theorem Core.modOb_hist (c : Core) (n : Nat) (f : ObSlot → ObSlot) : (c.modOb n f).hist = c.hist := rfl
@[simp] theorem Core.modOb_savedHist (c : Core) (n : Nat) (f : ObSlot → ObSlot) : (c.modOb n f).savedHist = c.savedHist := rfl
@[simp] theorem Core.modOb_fetched (c : Core) (n : Nat) (f : ObSlot → ObSlot) : (c.modOb n f).fetched = c.fetched := rfl
@[simp] theorem Core.modOb_bun (c : Core) (n : Nat) (f : ObSlot → ObSlot) : (c.modOb n f).bun = c.bun := rfl
@[simp] theorem Core.modOb_pend (c : Core) (n : Nat) (f : ObSlot → ObSlot) : (c.modOb n f).pend = c.pend := rfl
@[simp] theorem Core.modOb_reent (c : Core) (n : Nat) (f : ObSlot → ObSlot) : (c.modOb n f).reent = c.reent := rfl
@[simp] theorem Core.modOb_redir (c : Core) (n : Nat) (f : ObSlot → ObSlot) : (c.modOb n f).redir = c.redir := rfl
@[simp] theorem Core.modOb_issuing (c : Core) (n : Nat) (f : ObSlot → ObSlot) : (c.modOb n f).issuing = c.issuing := rfl
@[simp] theorem Core.modOb_slot (c : Core) (n : Nat) (f : ObSlot → ObSlot) : (c.modOb n f).slot = c.slot := rfl
@[simp] theorem Core.modOb_grpSq (c : Core) (n : Nat) (f : ObSlot → ObSlot) : (c.modOb n f).grpSq = c.grpSq := rfl
@[simp] theorem Core.modOb_grpVq (c : Core) (n : Nat) (f : ObSlot → ObSlot) : (c.modOb n f).grpVq = c.grpVq := rfl
@[simp] theorem Core.modOb_rest (c : Core) (n : Nat) (f : ObSlot → ObSlot) : (c.modOb n f).rest = c.rest := rfl
@[simp] theorem Core.modOb_defer (c : Core) (n : Nat) (f : ObSlot → ObSlot) : (c.modOb n f).defer = c.defer := rfl
@[simp] theorem Core.modOb_grpOld (c : Core) (n : Nat) (f : ObSlot → ObSlot) : (c.modOb n f).grpOld = c.grpOld := rfl
@[simp] theorem Core.modOb_grpSys (c : Core) (n : Nat) (f : ObSlot → ObSlot) : (c.modOb n f).grpSys = c.grpSys := rfl
@[simp] theorem Core.modOb_grpBanks (c : Core) (n : Nat) (f : ObSlot → ObSlot) : (c.modOb n f).grpBanks = c.grpBanks := rfl
@[simp] theorem Core.modOb_snap (c : Core) (n : Nat) (f : ObSlot → ObSlot) : (c.modOb n f).snap = c.snap := rfl
@[simp] theorem Core.modOb_grpStash (c : Core) (n : Nat) (f : ObSlot → ObSlot) : (c.modOb n f).grpStash = c.grpStash := rfl
@[simp] theorem Core.modOb_gzAsk (c : Core) (n : Nat) (f : ObSlot → ObSlot) : (c.modOb n f).gzAsk = c.gzAsk := rfl
@[simp] theorem Core.modOb_gzGrant (c : Core) (n : Nat) (f : ObSlot → ObSlot) : (c.modOb n f).gzGrant = c.gzGrant := rfl
@[simp] theorem Core.modOb_gzKeep (c : Core) (n : Nat) (f : ObSlot → ObSlot) : (c.modOb n f).gzKeep = c.gzKeep := rfl
@[simp] theorem Core.modOb_held (c : Core) (n : Nat) (f : ObSlot → ObSlot) : (c.modOb n f).held = c.held := rfl
@[simp] theorem Core.modOb_sret (c : Core) (n : Nat) (f : ObSlot → ObSlot) : (c.modOb n f).sret = c.sret := rfl
@[simp] theorem Core.modOb_wbT (c : Core) (n : Nat) (f : ObSlot → ObSlot) : (c.modOb n f).wbT = c.wbT := rfl
@[simp] theorem Core.modOb_sct (c : Core) (n : Nat) (f : ObSlot → ObSlot) : (c.modOb n f).sct = c.sct := rfl
@[simp] theorem Core.modOb_moved (c : Core) (n : Nat) (f : ObSlot → ObSlot) : (c.modOb n f).moved = c.moved := rfl
@[simp] theorem Core.modOb_tm (c : Core) (n : Nat) (f : ObSlot → ObSlot) : (c.modOb n f).tm = c.tm := rfl
@[simp] theorem Core.modOb_prd (c : Core) (n : Nat) (f : ObSlot → ObSlot) : (c.modOb n f).prd = c.prd := rfl
@[simp] theorem Core.modOb_pkind (c : Core) (n : Nat) (f : ObSlot → ObSlot) : (c.modOb n f).pkind = c.pkind := rfl
@[simp] theorem Core.modOb_rsm (c : Core) (n : Nat) (f : ObSlot → ObSlot) : (c.modOb n f).rsm = c.rsm := rfl
@[simp] theorem Core.modOb_sres (c : Core) (n : Nat) (f : ObSlot → ObSlot) : (c.modOb n f).sres = c.sres := rfl
@[simp] theorem Core.modOb_qas (c : Core) (n : Nat) (f : ObSlot → ObSlot) : (c.modOb n f).qas = c.qas := rfl
@[simp] theorem Core.modOb_qav (c : Core) (n : Nat) (f : ObSlot → ObSlot) : (c.modOb n f).qav = c.qav := rfl
@[simp] theorem Core.modOb_cause (c : Core) (n : Nat) (f : ObSlot → ObSlot) : (c.modOb n f).cause = c.cause := rfl
@[simp] theorem Core.modOb_epc (c : Core) (n : Nat) (f : ObSlot → ObSlot) : (c.modOb n f).epc = c.epc := rfl
@[simp] theorem Core.modOb_faddr (c : Core) (n : Nat) (f : ObSlot → ObSlot) : (c.modOb n f).faddr = c.faddr := rfl
@[simp] theorem Core.modOb_ptgt (c : Core) (n : Nat) (f : ObSlot → ObSlot) : (c.modOb n f).ptgt = c.ptgt := rfl
@[simp] theorem Core.modOb_sfall (c : Core) (n : Nat) (f : ObSlot → ObSlot) : (c.modOb n f).sfall = c.sfall := rfl
@[simp] theorem Core.modOb_seed (c : Core) (n : Nat) (f : ObSlot → ObSlot) : (c.modOb n f).seed = c.seed := rfl
@[simp] theorem Core.modOb_cvsat (c : Core) (n : Nat) (f : ObSlot → ObSlot) : (c.modOb n f).cvsat = c.cvsat := rfl
@[simp] theorem Core.modOb_tout (c : Core) (n : Nat) (f : ObSlot → ObSlot) : (c.modOb n f).tout = c.tout := rfl
@[simp] theorem Core.modOb_wval (c : Core) (n : Nat) (f : ObSlot → ObSlot) : (c.modOb n f).wval = c.wval := rfl
@[simp] theorem Core.modOb_wcmp (c : Core) (n : Nat) (f : ObSlot → ObSlot) : (c.modOb n f).wcmp = c.wcmp := rfl
@[simp] theorem Core.modOb_wgrn (c : Core) (n : Nat) (f : ObSlot → ObSlot) : (c.modOb n f).wgrn = c.wgrn := rfl
@[simp] theorem Core.modOb_kund (c : Core) (n : Nat) (f : ObSlot → ObSlot) : (c.modOb n f).kund = c.kund := rfl
@[simp] theorem Core.modOb_lclk (c : Core) (n : Nat) (f : ObSlot → ObSlot) : (c.modOb n f).lclk = c.lclk := rfl
@[simp] theorem Core.modOb_wdCount (c : Core) (n : Nat) (f : ObSlot → ObSlot) : (c.modOb n f).wdCount = c.wdCount := rfl
@[simp] theorem Core.modOb_wdLimit (c : Core) (n : Nat) (f : ObSlot → ObSlot) : (c.modOb n f).wdLimit = c.wdLimit := rfl
@[simp] theorem Core.modOb_wdDue (c : Core) (n : Nat) (f : ObSlot → ObSlot) : (c.modOb n f).wdDue = c.wdDue := rfl
@[simp] theorem Core.modOb_wdFrom (c : Core) (n : Nat) (f : ObSlot → ObSlot) : (c.modOb n f).wdFrom = c.wdFrom := rfl
@[simp] theorem Core.modOb_slen (c : Core) (n : Nat) (f : ObSlot → ObSlot) : (c.modOb n f).slen = c.slen := rfl
@[simp] theorem Core.modOb_spos (c : Core) (n : Nat) (f : ObSlot → ObSlot) : (c.modOb n f).spos = c.spos := rfl
@[simp] theorem Core.modOb_tvec (c : Core) (n : Nat) (f : ObSlot → ObSlot) : (c.modOb n f).tvec = c.tvec := rfl
@[simp] theorem Core.modOb_dcause (c : Core) (n : Nat) (f : ObSlot → ObSlot) : (c.modOb n f).dcause = c.dcause := rfl
@[simp] theorem Core.modOb_spFill (c : Core) (n : Nat) (f : ObSlot → ObSlot) : (c.modOb n f).spFill = c.spFill := rfl
@[simp] theorem Core.modOb_sp (c : Core) (n : Nat) (f : ObSlot → ObSlot) : (c.modOb n f).sp = c.sp := rfl
@[simp] theorem Core.modOb_tags (c : Core) (n : Nat) (f : ObSlot → ObSlot) : (c.modOb n f).tags = c.tags := rfl
@[simp] theorem Core.modOb_rs (c : Core) (n : Nat) (f : ObSlot → ObSlot) : (c.modOb n f).rs = c.rs := rfl
@[simp] theorem Core.modOb_vclk (c : Core) (n : Nat) (f : ObSlot → ObSlot) : (c.modOb n f).vclk = c.vclk := rfl
@[simp] theorem Core.modOb_barVecs (c : Core) (n : Nat) (f : ObSlot → ObSlot) : (c.modOb n f).barVecs = c.barVecs := rfl
@[simp] theorem Core.modOb_barArrs (c : Core) (n : Nat) (f : ObSlot → ObSlot) : (c.modOb n f).barArrs = c.barArrs := rfl
@[simp] theorem Core.modOb_ac (c : Core) (n : Nat) (f : ObSlot → ObSlot) : (c.modOb n f).ac = c.ac := rfl
@[simp] theorem Core.modOb_mmas (c : Core) (n : Nat) (f : ObSlot → ObSlot) : (c.modOb n f).mmas = c.mmas := rfl
@[simp] theorem Core.modOb_lastMma (c : Core) (n : Nat) (f : ObSlot → ObSlot) : (c.modOb n f).lastMma = c.lastMma := rfl
@[simp] theorem Core.modOb_tqs (c : Core) (n : Nat) (f : ObSlot → ObSlot) : (c.modOb n f).tqs = c.tqs := rfl
@[simp] theorem Core.modOb_k (c : Core) (n : Nat) (f : ObSlot → ObSlot) : (c.modOb n f).k = c.k := rfl
@[simp] theorem Core.modOb_kclk (c : Core) (n : Nat) (f : ObSlot → ObSlot) : (c.modOb n f).kclk = c.kclk := rfl
@[simp] theorem Core.modOb_e0 (c : Core) (n : Nat) (f : ObSlot → ObSlot) : (c.modOb n f).e0 = c.e0 := rfl
@[simp] theorem Core.modOb_e1 (c : Core) (n : Nat) (f : ObSlot → ObSlot) : (c.modOb n f).e1 = c.e1 := rfl
@[simp] theorem Core.modOb_cbs (c : Core) (n : Nat) (f : ObSlot → ObSlot) : (c.modOb n f).cbs = c.cbs := rfl
@[simp] theorem Core.modOb_binds (c : Core) (n : Nat) (f : ObSlot → ObSlot) : (c.modOb n f).binds = c.binds := rfl
@[simp] theorem Core.modOb_wcs (c : Core) (n : Nat) (f : ObSlot → ObSlot) : (c.modOb n f).wcs = c.wcs := rfl
@[simp] theorem Core.modOb_wakeq (c : Core) (n : Nat) (f : ObSlot → ObSlot) : (c.modOb n f).wakeq = c.wakeq := rfl
@[simp] theorem Core.modOb_stash (c : Core) (n : Nat) (f : ObSlot → ObSlot) : (c.modOb n f).stash = c.stash := rfl
@[simp] theorem Core.modOb_chq (c : Core) (n : Nat) (f : ObSlot → ObSlot) : (c.modOb n f).chq = c.chq := rfl
@[simp] theorem Core.modOb_recvs (c : Core) (n : Nat) (f : ObSlot → ObSlot) : (c.modOb n f).recvs = c.recvs := rfl
@[simp] theorem Core.modOb_colFaults (c : Core) (n : Nat) (f : ObSlot → ObSlot) : (c.modOb n f).colFaults = c.colFaults := rfl
@[simp] theorem Core.modOb_nft (c : Core) (n : Nat) (f : ObSlot → ObSlot) : (c.modOb n f).nft = c.nft := rfl
@[simp] theorem Core.modOb_sched (c : Core) (n : Nat) (f : ObSlot → ObSlot) : (c.modOb n f).sched = c.sched := rfl
@[simp] theorem Core.modOb_tlb (c : Core) (n : Nat) (f : ObSlot → ObSlot) : (c.modOb n f).tlb = c.tlb := rfl
@[simp] theorem Core.modOb_etlb0 (c : Core) (n : Nat) (f : ObSlot → ObSlot) : (c.modOb n f).etlb0 = c.etlb0 := rfl
@[simp] theorem Core.modOb_etlb1 (c : Core) (n : Nat) (f : ObSlot → ObSlot) : (c.modOb n f).etlb1 = c.etlb1 := rfl
@[simp] theorem Core.modOb_wflt (c : Core) (n : Nat) (f : ObSlot → ObSlot) : (c.modOb n f).wflt = c.wflt := rfl
@[simp] theorem Core.modOb_cal (c : Core) (n : Nat) (f : ObSlot → ObSlot) : (c.modOb n f).cal = c.cal := rfl
@[simp] theorem Core.modOb_flights (c : Core) (n : Nat) (f : ObSlot → ObSlot) : (c.modOb n f).flights = c.flights := rfl
@[simp] theorem Core.modOb_mesh (c : Core) (n : Nat) (f : ObSlot → ObSlot) : (c.modOb n f).mesh = c.mesh := rfl
@[simp] theorem Core.modOb_token (c : Core) (n : Nat) (f : ObSlot → ObSlot) : (c.modOb n f).token = c.token := rfl
@[simp] theorem Core.modOb_regUe (c : Core) (n : Nat) (f : ObSlot → ObSlot) : (c.modOb n f).regUe = c.regUe := rfl
@[simp] theorem Core.modTq_run (c : Core) (q : Nat) (f : TileQueue → TileQueue) : (c.modTq q f).run = c.run := rfl
@[simp] theorem Core.modTq_team (c : Core) (q : Nat) (f : TileQueue → TileQueue) : (c.modTq q f).team = c.team := rfl
@[simp] theorem Core.modTq_was (c : Core) (q : Nat) (f : TileQueue → TileQueue) : (c.modTq q f).was = c.was := rfl
@[simp] theorem Core.modTq_cyc (c : Core) (q : Nat) (f : TileQueue → TileQueue) : (c.modTq q f).cyc = c.cyc := rfl
@[simp] theorem Core.modTq_nextId (c : Core) (q : Nat) (f : TileQueue → TileQueue) : (c.modTq q f).nextId = c.nextId := rfl
@[simp] theorem Core.modTq_g (c : Core) (q : Nat) (f : TileQueue → TileQueue) : (c.modTq q f).g = c.g := rfl
@[simp] theorem Core.modTq_v (c : Core) (q : Nat) (f : TileQueue → TileQueue) : (c.modTq q f).v = c.v := rfl
@[simp] theorem Core.modTq_p (c : Core) (q : Nat) (f : TileQueue → TileQueue) : (c.modTq q f).p = c.p := rfl
@[simp] theorem Core.modTq_gsb (c : Core) (q : Nat) (f : TileQueue → TileQueue) : (c.modTq q f).gsb = c.gsb := rfl
@[simp] theorem Core.modTq_vsb (c : Core) (q : Nat) (f : TileQueue → TileQueue) : (c.modTq q f).vsb = c.vsb := rfl
@[simp] theorem Core.modTq_prog (c : Core) (q : Nat) (f : TileQueue → TileQueue) : (c.modTq q f).prog = c.prog := rfl
@[simp] theorem Core.modTq_hand (c : Core) (q : Nat) (f : TileQueue → TileQueue) : (c.modTq q f).hand = c.hand := rfl
@[simp] theorem Core.modTq_pc (c : Core) (q : Nat) (f : TileQueue → TileQueue) : (c.modTq q f).pc = c.pc := rfl
@[simp] theorem Core.modTq_hist (c : Core) (q : Nat) (f : TileQueue → TileQueue) : (c.modTq q f).hist = c.hist := rfl
@[simp] theorem Core.modTq_savedHist (c : Core) (q : Nat) (f : TileQueue → TileQueue) : (c.modTq q f).savedHist = c.savedHist := rfl
@[simp] theorem Core.modTq_fetched (c : Core) (q : Nat) (f : TileQueue → TileQueue) : (c.modTq q f).fetched = c.fetched := rfl
@[simp] theorem Core.modTq_bun (c : Core) (q : Nat) (f : TileQueue → TileQueue) : (c.modTq q f).bun = c.bun := rfl
@[simp] theorem Core.modTq_pend (c : Core) (q : Nat) (f : TileQueue → TileQueue) : (c.modTq q f).pend = c.pend := rfl
@[simp] theorem Core.modTq_reent (c : Core) (q : Nat) (f : TileQueue → TileQueue) : (c.modTq q f).reent = c.reent := rfl
@[simp] theorem Core.modTq_redir (c : Core) (q : Nat) (f : TileQueue → TileQueue) : (c.modTq q f).redir = c.redir := rfl
@[simp] theorem Core.modTq_issuing (c : Core) (q : Nat) (f : TileQueue → TileQueue) : (c.modTq q f).issuing = c.issuing := rfl
@[simp] theorem Core.modTq_slot (c : Core) (q : Nat) (f : TileQueue → TileQueue) : (c.modTq q f).slot = c.slot := rfl
@[simp] theorem Core.modTq_grpSq (c : Core) (q : Nat) (f : TileQueue → TileQueue) : (c.modTq q f).grpSq = c.grpSq := rfl
@[simp] theorem Core.modTq_grpVq (c : Core) (q : Nat) (f : TileQueue → TileQueue) : (c.modTq q f).grpVq = c.grpVq := rfl
@[simp] theorem Core.modTq_rest (c : Core) (q : Nat) (f : TileQueue → TileQueue) : (c.modTq q f).rest = c.rest := rfl
@[simp] theorem Core.modTq_defer (c : Core) (q : Nat) (f : TileQueue → TileQueue) : (c.modTq q f).defer = c.defer := rfl
@[simp] theorem Core.modTq_grpOld (c : Core) (q : Nat) (f : TileQueue → TileQueue) : (c.modTq q f).grpOld = c.grpOld := rfl
@[simp] theorem Core.modTq_grpSys (c : Core) (q : Nat) (f : TileQueue → TileQueue) : (c.modTq q f).grpSys = c.grpSys := rfl
@[simp] theorem Core.modTq_grpBanks (c : Core) (q : Nat) (f : TileQueue → TileQueue) : (c.modTq q f).grpBanks = c.grpBanks := rfl
@[simp] theorem Core.modTq_snap (c : Core) (q : Nat) (f : TileQueue → TileQueue) : (c.modTq q f).snap = c.snap := rfl
@[simp] theorem Core.modTq_grpStash (c : Core) (q : Nat) (f : TileQueue → TileQueue) : (c.modTq q f).grpStash = c.grpStash := rfl
@[simp] theorem Core.modTq_gzAsk (c : Core) (q : Nat) (f : TileQueue → TileQueue) : (c.modTq q f).gzAsk = c.gzAsk := rfl
@[simp] theorem Core.modTq_gzGrant (c : Core) (q : Nat) (f : TileQueue → TileQueue) : (c.modTq q f).gzGrant = c.gzGrant := rfl
@[simp] theorem Core.modTq_gzKeep (c : Core) (q : Nat) (f : TileQueue → TileQueue) : (c.modTq q f).gzKeep = c.gzKeep := rfl
@[simp] theorem Core.modTq_held (c : Core) (q : Nat) (f : TileQueue → TileQueue) : (c.modTq q f).held = c.held := rfl
@[simp] theorem Core.modTq_sret (c : Core) (q : Nat) (f : TileQueue → TileQueue) : (c.modTq q f).sret = c.sret := rfl
@[simp] theorem Core.modTq_wbT (c : Core) (q : Nat) (f : TileQueue → TileQueue) : (c.modTq q f).wbT = c.wbT := rfl
@[simp] theorem Core.modTq_sct (c : Core) (q : Nat) (f : TileQueue → TileQueue) : (c.modTq q f).sct = c.sct := rfl
@[simp] theorem Core.modTq_moved (c : Core) (q : Nat) (f : TileQueue → TileQueue) : (c.modTq q f).moved = c.moved := rfl
@[simp] theorem Core.modTq_tm (c : Core) (q : Nat) (f : TileQueue → TileQueue) : (c.modTq q f).tm = c.tm := rfl
@[simp] theorem Core.modTq_prd (c : Core) (q : Nat) (f : TileQueue → TileQueue) : (c.modTq q f).prd = c.prd := rfl
@[simp] theorem Core.modTq_pkind (c : Core) (q : Nat) (f : TileQueue → TileQueue) : (c.modTq q f).pkind = c.pkind := rfl
@[simp] theorem Core.modTq_rsm (c : Core) (q : Nat) (f : TileQueue → TileQueue) : (c.modTq q f).rsm = c.rsm := rfl
@[simp] theorem Core.modTq_sres (c : Core) (q : Nat) (f : TileQueue → TileQueue) : (c.modTq q f).sres = c.sres := rfl
@[simp] theorem Core.modTq_qas (c : Core) (q : Nat) (f : TileQueue → TileQueue) : (c.modTq q f).qas = c.qas := rfl
@[simp] theorem Core.modTq_qav (c : Core) (q : Nat) (f : TileQueue → TileQueue) : (c.modTq q f).qav = c.qav := rfl
@[simp] theorem Core.modTq_cause (c : Core) (q : Nat) (f : TileQueue → TileQueue) : (c.modTq q f).cause = c.cause := rfl
@[simp] theorem Core.modTq_epc (c : Core) (q : Nat) (f : TileQueue → TileQueue) : (c.modTq q f).epc = c.epc := rfl
@[simp] theorem Core.modTq_faddr (c : Core) (q : Nat) (f : TileQueue → TileQueue) : (c.modTq q f).faddr = c.faddr := rfl
@[simp] theorem Core.modTq_ptgt (c : Core) (q : Nat) (f : TileQueue → TileQueue) : (c.modTq q f).ptgt = c.ptgt := rfl
@[simp] theorem Core.modTq_sfall (c : Core) (q : Nat) (f : TileQueue → TileQueue) : (c.modTq q f).sfall = c.sfall := rfl
@[simp] theorem Core.modTq_seed (c : Core) (q : Nat) (f : TileQueue → TileQueue) : (c.modTq q f).seed = c.seed := rfl
@[simp] theorem Core.modTq_cvsat (c : Core) (q : Nat) (f : TileQueue → TileQueue) : (c.modTq q f).cvsat = c.cvsat := rfl
@[simp] theorem Core.modTq_tout (c : Core) (q : Nat) (f : TileQueue → TileQueue) : (c.modTq q f).tout = c.tout := rfl
@[simp] theorem Core.modTq_wval (c : Core) (q : Nat) (f : TileQueue → TileQueue) : (c.modTq q f).wval = c.wval := rfl
@[simp] theorem Core.modTq_wcmp (c : Core) (q : Nat) (f : TileQueue → TileQueue) : (c.modTq q f).wcmp = c.wcmp := rfl
@[simp] theorem Core.modTq_wgrn (c : Core) (q : Nat) (f : TileQueue → TileQueue) : (c.modTq q f).wgrn = c.wgrn := rfl
@[simp] theorem Core.modTq_kund (c : Core) (q : Nat) (f : TileQueue → TileQueue) : (c.modTq q f).kund = c.kund := rfl
@[simp] theorem Core.modTq_lclk (c : Core) (q : Nat) (f : TileQueue → TileQueue) : (c.modTq q f).lclk = c.lclk := rfl
@[simp] theorem Core.modTq_wdCount (c : Core) (q : Nat) (f : TileQueue → TileQueue) : (c.modTq q f).wdCount = c.wdCount := rfl
@[simp] theorem Core.modTq_wdLimit (c : Core) (q : Nat) (f : TileQueue → TileQueue) : (c.modTq q f).wdLimit = c.wdLimit := rfl
@[simp] theorem Core.modTq_wdDue (c : Core) (q : Nat) (f : TileQueue → TileQueue) : (c.modTq q f).wdDue = c.wdDue := rfl
@[simp] theorem Core.modTq_wdFrom (c : Core) (q : Nat) (f : TileQueue → TileQueue) : (c.modTq q f).wdFrom = c.wdFrom := rfl
@[simp] theorem Core.modTq_slen (c : Core) (q : Nat) (f : TileQueue → TileQueue) : (c.modTq q f).slen = c.slen := rfl
@[simp] theorem Core.modTq_spos (c : Core) (q : Nat) (f : TileQueue → TileQueue) : (c.modTq q f).spos = c.spos := rfl
@[simp] theorem Core.modTq_tvec (c : Core) (q : Nat) (f : TileQueue → TileQueue) : (c.modTq q f).tvec = c.tvec := rfl
@[simp] theorem Core.modTq_dcause (c : Core) (q : Nat) (f : TileQueue → TileQueue) : (c.modTq q f).dcause = c.dcause := rfl
@[simp] theorem Core.modTq_spFill (c : Core) (q : Nat) (f : TileQueue → TileQueue) : (c.modTq q f).spFill = c.spFill := rfl
@[simp] theorem Core.modTq_sp (c : Core) (q : Nat) (f : TileQueue → TileQueue) : (c.modTq q f).sp = c.sp := rfl
@[simp] theorem Core.modTq_tags (c : Core) (q : Nat) (f : TileQueue → TileQueue) : (c.modTq q f).tags = c.tags := rfl
@[simp] theorem Core.modTq_rs (c : Core) (q : Nat) (f : TileQueue → TileQueue) : (c.modTq q f).rs = c.rs := rfl
@[simp] theorem Core.modTq_vclk (c : Core) (q : Nat) (f : TileQueue → TileQueue) : (c.modTq q f).vclk = c.vclk := rfl
@[simp] theorem Core.modTq_barVecs (c : Core) (q : Nat) (f : TileQueue → TileQueue) : (c.modTq q f).barVecs = c.barVecs := rfl
@[simp] theorem Core.modTq_barArrs (c : Core) (q : Nat) (f : TileQueue → TileQueue) : (c.modTq q f).barArrs = c.barArrs := rfl
@[simp] theorem Core.modTq_ob (c : Core) (q : Nat) (f : TileQueue → TileQueue) : (c.modTq q f).ob = c.ob := rfl
@[simp] theorem Core.modTq_ac (c : Core) (q : Nat) (f : TileQueue → TileQueue) : (c.modTq q f).ac = c.ac := rfl
@[simp] theorem Core.modTq_mmas (c : Core) (q : Nat) (f : TileQueue → TileQueue) : (c.modTq q f).mmas = c.mmas := rfl
@[simp] theorem Core.modTq_lastMma (c : Core) (q : Nat) (f : TileQueue → TileQueue) : (c.modTq q f).lastMma = c.lastMma := rfl
@[simp] theorem Core.modTq_k (c : Core) (q : Nat) (f : TileQueue → TileQueue) : (c.modTq q f).k = c.k := rfl
@[simp] theorem Core.modTq_kclk (c : Core) (q : Nat) (f : TileQueue → TileQueue) : (c.modTq q f).kclk = c.kclk := rfl
@[simp] theorem Core.modTq_e0 (c : Core) (q : Nat) (f : TileQueue → TileQueue) : (c.modTq q f).e0 = c.e0 := rfl
@[simp] theorem Core.modTq_e1 (c : Core) (q : Nat) (f : TileQueue → TileQueue) : (c.modTq q f).e1 = c.e1 := rfl
@[simp] theorem Core.modTq_cbs (c : Core) (q : Nat) (f : TileQueue → TileQueue) : (c.modTq q f).cbs = c.cbs := rfl
@[simp] theorem Core.modTq_binds (c : Core) (q : Nat) (f : TileQueue → TileQueue) : (c.modTq q f).binds = c.binds := rfl
@[simp] theorem Core.modTq_wcs (c : Core) (q : Nat) (f : TileQueue → TileQueue) : (c.modTq q f).wcs = c.wcs := rfl
@[simp] theorem Core.modTq_wakeq (c : Core) (q : Nat) (f : TileQueue → TileQueue) : (c.modTq q f).wakeq = c.wakeq := rfl
@[simp] theorem Core.modTq_stash (c : Core) (q : Nat) (f : TileQueue → TileQueue) : (c.modTq q f).stash = c.stash := rfl
@[simp] theorem Core.modTq_chq (c : Core) (q : Nat) (f : TileQueue → TileQueue) : (c.modTq q f).chq = c.chq := rfl
@[simp] theorem Core.modTq_recvs (c : Core) (q : Nat) (f : TileQueue → TileQueue) : (c.modTq q f).recvs = c.recvs := rfl
@[simp] theorem Core.modTq_colFaults (c : Core) (q : Nat) (f : TileQueue → TileQueue) : (c.modTq q f).colFaults = c.colFaults := rfl
@[simp] theorem Core.modTq_nft (c : Core) (q : Nat) (f : TileQueue → TileQueue) : (c.modTq q f).nft = c.nft := rfl
@[simp] theorem Core.modTq_sched (c : Core) (q : Nat) (f : TileQueue → TileQueue) : (c.modTq q f).sched = c.sched := rfl
@[simp] theorem Core.modTq_tlb (c : Core) (q : Nat) (f : TileQueue → TileQueue) : (c.modTq q f).tlb = c.tlb := rfl
@[simp] theorem Core.modTq_etlb0 (c : Core) (q : Nat) (f : TileQueue → TileQueue) : (c.modTq q f).etlb0 = c.etlb0 := rfl
@[simp] theorem Core.modTq_etlb1 (c : Core) (q : Nat) (f : TileQueue → TileQueue) : (c.modTq q f).etlb1 = c.etlb1 := rfl
@[simp] theorem Core.modTq_wflt (c : Core) (q : Nat) (f : TileQueue → TileQueue) : (c.modTq q f).wflt = c.wflt := rfl
@[simp] theorem Core.modTq_cal (c : Core) (q : Nat) (f : TileQueue → TileQueue) : (c.modTq q f).cal = c.cal := rfl
@[simp] theorem Core.modTq_flights (c : Core) (q : Nat) (f : TileQueue → TileQueue) : (c.modTq q f).flights = c.flights := rfl
@[simp] theorem Core.modTq_mesh (c : Core) (q : Nat) (f : TileQueue → TileQueue) : (c.modTq q f).mesh = c.mesh := rfl
@[simp] theorem Core.modTq_token (c : Core) (q : Nat) (f : TileQueue → TileQueue) : (c.modTq q f).token = c.token := rfl
@[simp] theorem Core.modTq_regUe (c : Core) (q : Nat) (f : TileQueue → TileQueue) : (c.modTq q f).regUe = c.regUe := rfl
@[simp] theorem Core.modCb_run (c : Core) (n : Nat) (f : CircBuf → CircBuf) : (c.modCb n f).run = c.run := rfl
@[simp] theorem Core.modCb_team (c : Core) (n : Nat) (f : CircBuf → CircBuf) : (c.modCb n f).team = c.team := rfl
@[simp] theorem Core.modCb_was (c : Core) (n : Nat) (f : CircBuf → CircBuf) : (c.modCb n f).was = c.was := rfl
@[simp] theorem Core.modCb_cyc (c : Core) (n : Nat) (f : CircBuf → CircBuf) : (c.modCb n f).cyc = c.cyc := rfl
@[simp] theorem Core.modCb_nextId (c : Core) (n : Nat) (f : CircBuf → CircBuf) : (c.modCb n f).nextId = c.nextId := rfl
@[simp] theorem Core.modCb_g (c : Core) (n : Nat) (f : CircBuf → CircBuf) : (c.modCb n f).g = c.g := rfl
@[simp] theorem Core.modCb_v (c : Core) (n : Nat) (f : CircBuf → CircBuf) : (c.modCb n f).v = c.v := rfl
@[simp] theorem Core.modCb_p (c : Core) (n : Nat) (f : CircBuf → CircBuf) : (c.modCb n f).p = c.p := rfl
@[simp] theorem Core.modCb_gsb (c : Core) (n : Nat) (f : CircBuf → CircBuf) : (c.modCb n f).gsb = c.gsb := rfl
@[simp] theorem Core.modCb_vsb (c : Core) (n : Nat) (f : CircBuf → CircBuf) : (c.modCb n f).vsb = c.vsb := rfl
@[simp] theorem Core.modCb_prog (c : Core) (n : Nat) (f : CircBuf → CircBuf) : (c.modCb n f).prog = c.prog := rfl
@[simp] theorem Core.modCb_hand (c : Core) (n : Nat) (f : CircBuf → CircBuf) : (c.modCb n f).hand = c.hand := rfl
@[simp] theorem Core.modCb_pc (c : Core) (n : Nat) (f : CircBuf → CircBuf) : (c.modCb n f).pc = c.pc := rfl
@[simp] theorem Core.modCb_hist (c : Core) (n : Nat) (f : CircBuf → CircBuf) : (c.modCb n f).hist = c.hist := rfl
@[simp] theorem Core.modCb_savedHist (c : Core) (n : Nat) (f : CircBuf → CircBuf) : (c.modCb n f).savedHist = c.savedHist := rfl
@[simp] theorem Core.modCb_fetched (c : Core) (n : Nat) (f : CircBuf → CircBuf) : (c.modCb n f).fetched = c.fetched := rfl
@[simp] theorem Core.modCb_bun (c : Core) (n : Nat) (f : CircBuf → CircBuf) : (c.modCb n f).bun = c.bun := rfl
@[simp] theorem Core.modCb_pend (c : Core) (n : Nat) (f : CircBuf → CircBuf) : (c.modCb n f).pend = c.pend := rfl
@[simp] theorem Core.modCb_reent (c : Core) (n : Nat) (f : CircBuf → CircBuf) : (c.modCb n f).reent = c.reent := rfl
@[simp] theorem Core.modCb_redir (c : Core) (n : Nat) (f : CircBuf → CircBuf) : (c.modCb n f).redir = c.redir := rfl
@[simp] theorem Core.modCb_issuing (c : Core) (n : Nat) (f : CircBuf → CircBuf) : (c.modCb n f).issuing = c.issuing := rfl
@[simp] theorem Core.modCb_slot (c : Core) (n : Nat) (f : CircBuf → CircBuf) : (c.modCb n f).slot = c.slot := rfl
@[simp] theorem Core.modCb_grpSq (c : Core) (n : Nat) (f : CircBuf → CircBuf) : (c.modCb n f).grpSq = c.grpSq := rfl
@[simp] theorem Core.modCb_grpVq (c : Core) (n : Nat) (f : CircBuf → CircBuf) : (c.modCb n f).grpVq = c.grpVq := rfl
@[simp] theorem Core.modCb_rest (c : Core) (n : Nat) (f : CircBuf → CircBuf) : (c.modCb n f).rest = c.rest := rfl
@[simp] theorem Core.modCb_defer (c : Core) (n : Nat) (f : CircBuf → CircBuf) : (c.modCb n f).defer = c.defer := rfl
@[simp] theorem Core.modCb_grpOld (c : Core) (n : Nat) (f : CircBuf → CircBuf) : (c.modCb n f).grpOld = c.grpOld := rfl
@[simp] theorem Core.modCb_grpSys (c : Core) (n : Nat) (f : CircBuf → CircBuf) : (c.modCb n f).grpSys = c.grpSys := rfl
@[simp] theorem Core.modCb_grpBanks (c : Core) (n : Nat) (f : CircBuf → CircBuf) : (c.modCb n f).grpBanks = c.grpBanks := rfl
@[simp] theorem Core.modCb_snap (c : Core) (n : Nat) (f : CircBuf → CircBuf) : (c.modCb n f).snap = c.snap := rfl
@[simp] theorem Core.modCb_grpStash (c : Core) (n : Nat) (f : CircBuf → CircBuf) : (c.modCb n f).grpStash = c.grpStash := rfl
@[simp] theorem Core.modCb_gzAsk (c : Core) (n : Nat) (f : CircBuf → CircBuf) : (c.modCb n f).gzAsk = c.gzAsk := rfl
@[simp] theorem Core.modCb_gzGrant (c : Core) (n : Nat) (f : CircBuf → CircBuf) : (c.modCb n f).gzGrant = c.gzGrant := rfl
@[simp] theorem Core.modCb_gzKeep (c : Core) (n : Nat) (f : CircBuf → CircBuf) : (c.modCb n f).gzKeep = c.gzKeep := rfl
@[simp] theorem Core.modCb_held (c : Core) (n : Nat) (f : CircBuf → CircBuf) : (c.modCb n f).held = c.held := rfl
@[simp] theorem Core.modCb_sret (c : Core) (n : Nat) (f : CircBuf → CircBuf) : (c.modCb n f).sret = c.sret := rfl
@[simp] theorem Core.modCb_wbT (c : Core) (n : Nat) (f : CircBuf → CircBuf) : (c.modCb n f).wbT = c.wbT := rfl
@[simp] theorem Core.modCb_sct (c : Core) (n : Nat) (f : CircBuf → CircBuf) : (c.modCb n f).sct = c.sct := rfl
@[simp] theorem Core.modCb_moved (c : Core) (n : Nat) (f : CircBuf → CircBuf) : (c.modCb n f).moved = c.moved := rfl
@[simp] theorem Core.modCb_tm (c : Core) (n : Nat) (f : CircBuf → CircBuf) : (c.modCb n f).tm = c.tm := rfl
@[simp] theorem Core.modCb_prd (c : Core) (n : Nat) (f : CircBuf → CircBuf) : (c.modCb n f).prd = c.prd := rfl
@[simp] theorem Core.modCb_pkind (c : Core) (n : Nat) (f : CircBuf → CircBuf) : (c.modCb n f).pkind = c.pkind := rfl
@[simp] theorem Core.modCb_rsm (c : Core) (n : Nat) (f : CircBuf → CircBuf) : (c.modCb n f).rsm = c.rsm := rfl
@[simp] theorem Core.modCb_sres (c : Core) (n : Nat) (f : CircBuf → CircBuf) : (c.modCb n f).sres = c.sres := rfl
@[simp] theorem Core.modCb_qas (c : Core) (n : Nat) (f : CircBuf → CircBuf) : (c.modCb n f).qas = c.qas := rfl
@[simp] theorem Core.modCb_qav (c : Core) (n : Nat) (f : CircBuf → CircBuf) : (c.modCb n f).qav = c.qav := rfl
@[simp] theorem Core.modCb_cause (c : Core) (n : Nat) (f : CircBuf → CircBuf) : (c.modCb n f).cause = c.cause := rfl
@[simp] theorem Core.modCb_epc (c : Core) (n : Nat) (f : CircBuf → CircBuf) : (c.modCb n f).epc = c.epc := rfl
@[simp] theorem Core.modCb_faddr (c : Core) (n : Nat) (f : CircBuf → CircBuf) : (c.modCb n f).faddr = c.faddr := rfl
@[simp] theorem Core.modCb_ptgt (c : Core) (n : Nat) (f : CircBuf → CircBuf) : (c.modCb n f).ptgt = c.ptgt := rfl
@[simp] theorem Core.modCb_sfall (c : Core) (n : Nat) (f : CircBuf → CircBuf) : (c.modCb n f).sfall = c.sfall := rfl
@[simp] theorem Core.modCb_seed (c : Core) (n : Nat) (f : CircBuf → CircBuf) : (c.modCb n f).seed = c.seed := rfl
@[simp] theorem Core.modCb_cvsat (c : Core) (n : Nat) (f : CircBuf → CircBuf) : (c.modCb n f).cvsat = c.cvsat := rfl
@[simp] theorem Core.modCb_tout (c : Core) (n : Nat) (f : CircBuf → CircBuf) : (c.modCb n f).tout = c.tout := rfl
@[simp] theorem Core.modCb_wval (c : Core) (n : Nat) (f : CircBuf → CircBuf) : (c.modCb n f).wval = c.wval := rfl
@[simp] theorem Core.modCb_wcmp (c : Core) (n : Nat) (f : CircBuf → CircBuf) : (c.modCb n f).wcmp = c.wcmp := rfl
@[simp] theorem Core.modCb_wgrn (c : Core) (n : Nat) (f : CircBuf → CircBuf) : (c.modCb n f).wgrn = c.wgrn := rfl
@[simp] theorem Core.modCb_kund (c : Core) (n : Nat) (f : CircBuf → CircBuf) : (c.modCb n f).kund = c.kund := rfl
@[simp] theorem Core.modCb_lclk (c : Core) (n : Nat) (f : CircBuf → CircBuf) : (c.modCb n f).lclk = c.lclk := rfl
@[simp] theorem Core.modCb_wdCount (c : Core) (n : Nat) (f : CircBuf → CircBuf) : (c.modCb n f).wdCount = c.wdCount := rfl
@[simp] theorem Core.modCb_wdLimit (c : Core) (n : Nat) (f : CircBuf → CircBuf) : (c.modCb n f).wdLimit = c.wdLimit := rfl
@[simp] theorem Core.modCb_wdDue (c : Core) (n : Nat) (f : CircBuf → CircBuf) : (c.modCb n f).wdDue = c.wdDue := rfl
@[simp] theorem Core.modCb_wdFrom (c : Core) (n : Nat) (f : CircBuf → CircBuf) : (c.modCb n f).wdFrom = c.wdFrom := rfl
@[simp] theorem Core.modCb_slen (c : Core) (n : Nat) (f : CircBuf → CircBuf) : (c.modCb n f).slen = c.slen := rfl
@[simp] theorem Core.modCb_spos (c : Core) (n : Nat) (f : CircBuf → CircBuf) : (c.modCb n f).spos = c.spos := rfl
@[simp] theorem Core.modCb_tvec (c : Core) (n : Nat) (f : CircBuf → CircBuf) : (c.modCb n f).tvec = c.tvec := rfl
@[simp] theorem Core.modCb_dcause (c : Core) (n : Nat) (f : CircBuf → CircBuf) : (c.modCb n f).dcause = c.dcause := rfl
@[simp] theorem Core.modCb_spFill (c : Core) (n : Nat) (f : CircBuf → CircBuf) : (c.modCb n f).spFill = c.spFill := rfl
@[simp] theorem Core.modCb_sp (c : Core) (n : Nat) (f : CircBuf → CircBuf) : (c.modCb n f).sp = c.sp := rfl
@[simp] theorem Core.modCb_tags (c : Core) (n : Nat) (f : CircBuf → CircBuf) : (c.modCb n f).tags = c.tags := rfl
@[simp] theorem Core.modCb_rs (c : Core) (n : Nat) (f : CircBuf → CircBuf) : (c.modCb n f).rs = c.rs := rfl
@[simp] theorem Core.modCb_vclk (c : Core) (n : Nat) (f : CircBuf → CircBuf) : (c.modCb n f).vclk = c.vclk := rfl
@[simp] theorem Core.modCb_barVecs (c : Core) (n : Nat) (f : CircBuf → CircBuf) : (c.modCb n f).barVecs = c.barVecs := rfl
@[simp] theorem Core.modCb_barArrs (c : Core) (n : Nat) (f : CircBuf → CircBuf) : (c.modCb n f).barArrs = c.barArrs := rfl
@[simp] theorem Core.modCb_ob (c : Core) (n : Nat) (f : CircBuf → CircBuf) : (c.modCb n f).ob = c.ob := rfl
@[simp] theorem Core.modCb_ac (c : Core) (n : Nat) (f : CircBuf → CircBuf) : (c.modCb n f).ac = c.ac := rfl
@[simp] theorem Core.modCb_mmas (c : Core) (n : Nat) (f : CircBuf → CircBuf) : (c.modCb n f).mmas = c.mmas := rfl
@[simp] theorem Core.modCb_lastMma (c : Core) (n : Nat) (f : CircBuf → CircBuf) : (c.modCb n f).lastMma = c.lastMma := rfl
@[simp] theorem Core.modCb_tqs (c : Core) (n : Nat) (f : CircBuf → CircBuf) : (c.modCb n f).tqs = c.tqs := rfl
@[simp] theorem Core.modCb_k (c : Core) (n : Nat) (f : CircBuf → CircBuf) : (c.modCb n f).k = c.k := rfl
@[simp] theorem Core.modCb_kclk (c : Core) (n : Nat) (f : CircBuf → CircBuf) : (c.modCb n f).kclk = c.kclk := rfl
@[simp] theorem Core.modCb_e0 (c : Core) (n : Nat) (f : CircBuf → CircBuf) : (c.modCb n f).e0 = c.e0 := rfl
@[simp] theorem Core.modCb_e1 (c : Core) (n : Nat) (f : CircBuf → CircBuf) : (c.modCb n f).e1 = c.e1 := rfl
@[simp] theorem Core.modCb_binds (c : Core) (n : Nat) (f : CircBuf → CircBuf) : (c.modCb n f).binds = c.binds := rfl
@[simp] theorem Core.modCb_wcs (c : Core) (n : Nat) (f : CircBuf → CircBuf) : (c.modCb n f).wcs = c.wcs := rfl
@[simp] theorem Core.modCb_wakeq (c : Core) (n : Nat) (f : CircBuf → CircBuf) : (c.modCb n f).wakeq = c.wakeq := rfl
@[simp] theorem Core.modCb_stash (c : Core) (n : Nat) (f : CircBuf → CircBuf) : (c.modCb n f).stash = c.stash := rfl
@[simp] theorem Core.modCb_chq (c : Core) (n : Nat) (f : CircBuf → CircBuf) : (c.modCb n f).chq = c.chq := rfl
@[simp] theorem Core.modCb_recvs (c : Core) (n : Nat) (f : CircBuf → CircBuf) : (c.modCb n f).recvs = c.recvs := rfl
@[simp] theorem Core.modCb_colFaults (c : Core) (n : Nat) (f : CircBuf → CircBuf) : (c.modCb n f).colFaults = c.colFaults := rfl
@[simp] theorem Core.modCb_nft (c : Core) (n : Nat) (f : CircBuf → CircBuf) : (c.modCb n f).nft = c.nft := rfl
@[simp] theorem Core.modCb_sched (c : Core) (n : Nat) (f : CircBuf → CircBuf) : (c.modCb n f).sched = c.sched := rfl
@[simp] theorem Core.modCb_tlb (c : Core) (n : Nat) (f : CircBuf → CircBuf) : (c.modCb n f).tlb = c.tlb := rfl
@[simp] theorem Core.modCb_etlb0 (c : Core) (n : Nat) (f : CircBuf → CircBuf) : (c.modCb n f).etlb0 = c.etlb0 := rfl
@[simp] theorem Core.modCb_etlb1 (c : Core) (n : Nat) (f : CircBuf → CircBuf) : (c.modCb n f).etlb1 = c.etlb1 := rfl
@[simp] theorem Core.modCb_wflt (c : Core) (n : Nat) (f : CircBuf → CircBuf) : (c.modCb n f).wflt = c.wflt := rfl
@[simp] theorem Core.modCb_cal (c : Core) (n : Nat) (f : CircBuf → CircBuf) : (c.modCb n f).cal = c.cal := rfl
@[simp] theorem Core.modCb_flights (c : Core) (n : Nat) (f : CircBuf → CircBuf) : (c.modCb n f).flights = c.flights := rfl
@[simp] theorem Core.modCb_mesh (c : Core) (n : Nat) (f : CircBuf → CircBuf) : (c.modCb n f).mesh = c.mesh := rfl
@[simp] theorem Core.modCb_token (c : Core) (n : Nat) (f : CircBuf → CircBuf) : (c.modCb n f).token = c.token := rfl
@[simp] theorem Core.modCb_regUe (c : Core) (n : Nat) (f : CircBuf → CircBuf) : (c.modCb n f).regUe = c.regUe := rfl
@[simp] theorem Core.setBank_run (c : Core) (b : Bank) : (c.setBank b).run = c.run := by unfold Core.setBank; split <;> rfl
@[simp] theorem Core.setBank_team (c : Core) (b : Bank) : (c.setBank b).team = c.team := by unfold Core.setBank; split <;> rfl
@[simp] theorem Core.setBank_was (c : Core) (b : Bank) : (c.setBank b).was = c.was := by unfold Core.setBank; split <;> rfl
@[simp] theorem Core.setBank_cyc (c : Core) (b : Bank) : (c.setBank b).cyc = c.cyc := by unfold Core.setBank; split <;> rfl
@[simp] theorem Core.setBank_nextId (c : Core) (b : Bank) : (c.setBank b).nextId = c.nextId := by unfold Core.setBank; split <;> rfl
@[simp] theorem Core.setBank_g (c : Core) (b : Bank) : (c.setBank b).g = c.g := by unfold Core.setBank; split <;> rfl
@[simp] theorem Core.setBank_v (c : Core) (b : Bank) : (c.setBank b).v = c.v := by unfold Core.setBank; split <;> rfl
@[simp] theorem Core.setBank_p (c : Core) (b : Bank) : (c.setBank b).p = c.p := by unfold Core.setBank; split <;> rfl
@[simp] theorem Core.setBank_gsb (c : Core) (b : Bank) : (c.setBank b).gsb = c.gsb := by unfold Core.setBank; split <;> rfl
@[simp] theorem Core.setBank_vsb (c : Core) (b : Bank) : (c.setBank b).vsb = c.vsb := by unfold Core.setBank; split <;> rfl
@[simp] theorem Core.setBank_pc (c : Core) (b : Bank) : (c.setBank b).pc = c.pc := by unfold Core.setBank; split <;> rfl
@[simp] theorem Core.setBank_hist (c : Core) (b : Bank) : (c.setBank b).hist = c.hist := by unfold Core.setBank; split <;> rfl
@[simp] theorem Core.setBank_savedHist (c : Core) (b : Bank) : (c.setBank b).savedHist = c.savedHist := by unfold Core.setBank; split <;> rfl
@[simp] theorem Core.setBank_fetched (c : Core) (b : Bank) : (c.setBank b).fetched = c.fetched := by unfold Core.setBank; split <;> rfl
@[simp] theorem Core.setBank_bun (c : Core) (b : Bank) : (c.setBank b).bun = c.bun := by unfold Core.setBank; split <;> rfl
@[simp] theorem Core.setBank_pend (c : Core) (b : Bank) : (c.setBank b).pend = c.pend := by unfold Core.setBank; split <;> rfl
@[simp] theorem Core.setBank_reent (c : Core) (b : Bank) : (c.setBank b).reent = c.reent := by unfold Core.setBank; split <;> rfl
@[simp] theorem Core.setBank_redir (c : Core) (b : Bank) : (c.setBank b).redir = c.redir := by unfold Core.setBank; split <;> rfl
@[simp] theorem Core.setBank_issuing (c : Core) (b : Bank) : (c.setBank b).issuing = c.issuing := by unfold Core.setBank; split <;> rfl
@[simp] theorem Core.setBank_slot (c : Core) (b : Bank) : (c.setBank b).slot = c.slot := by unfold Core.setBank; split <;> rfl
@[simp] theorem Core.setBank_grpSq (c : Core) (b : Bank) : (c.setBank b).grpSq = c.grpSq := by unfold Core.setBank; split <;> rfl
@[simp] theorem Core.setBank_grpVq (c : Core) (b : Bank) : (c.setBank b).grpVq = c.grpVq := by unfold Core.setBank; split <;> rfl
@[simp] theorem Core.setBank_rest (c : Core) (b : Bank) : (c.setBank b).rest = c.rest := by unfold Core.setBank; split <;> rfl
@[simp] theorem Core.setBank_defer (c : Core) (b : Bank) : (c.setBank b).defer = c.defer := by unfold Core.setBank; split <;> rfl
@[simp] theorem Core.setBank_grpOld (c : Core) (b : Bank) : (c.setBank b).grpOld = c.grpOld := by unfold Core.setBank; split <;> rfl
@[simp] theorem Core.setBank_grpSys (c : Core) (b : Bank) : (c.setBank b).grpSys = c.grpSys := by unfold Core.setBank; split <;> rfl
@[simp] theorem Core.setBank_grpBanks (c : Core) (b : Bank) : (c.setBank b).grpBanks = c.grpBanks := by unfold Core.setBank; split <;> rfl
@[simp] theorem Core.setBank_snap (c : Core) (b : Bank) : (c.setBank b).snap = c.snap := by unfold Core.setBank; split <;> rfl
@[simp] theorem Core.setBank_grpStash (c : Core) (b : Bank) : (c.setBank b).grpStash = c.grpStash := by unfold Core.setBank; split <;> rfl
@[simp] theorem Core.setBank_gzAsk (c : Core) (b : Bank) : (c.setBank b).gzAsk = c.gzAsk := by unfold Core.setBank; split <;> rfl
@[simp] theorem Core.setBank_gzGrant (c : Core) (b : Bank) : (c.setBank b).gzGrant = c.gzGrant := by unfold Core.setBank; split <;> rfl
@[simp] theorem Core.setBank_gzKeep (c : Core) (b : Bank) : (c.setBank b).gzKeep = c.gzKeep := by unfold Core.setBank; split <;> rfl
@[simp] theorem Core.setBank_held (c : Core) (b : Bank) : (c.setBank b).held = c.held := by unfold Core.setBank; split <;> rfl
@[simp] theorem Core.setBank_sret (c : Core) (b : Bank) : (c.setBank b).sret = c.sret := by unfold Core.setBank; split <;> rfl
@[simp] theorem Core.setBank_wbT (c : Core) (b : Bank) : (c.setBank b).wbT = c.wbT := by unfold Core.setBank; split <;> rfl
@[simp] theorem Core.setBank_sct (c : Core) (b : Bank) : (c.setBank b).sct = c.sct := by unfold Core.setBank; split <;> rfl
@[simp] theorem Core.setBank_moved (c : Core) (b : Bank) : (c.setBank b).moved = c.moved := by unfold Core.setBank; split <;> rfl
@[simp] theorem Core.setBank_tm (c : Core) (b : Bank) : (c.setBank b).tm = c.tm := by unfold Core.setBank; split <;> rfl
@[simp] theorem Core.setBank_prd (c : Core) (b : Bank) : (c.setBank b).prd = c.prd := by unfold Core.setBank; split <;> rfl
@[simp] theorem Core.setBank_pkind (c : Core) (b : Bank) : (c.setBank b).pkind = c.pkind := by unfold Core.setBank; split <;> rfl
@[simp] theorem Core.setBank_rsm (c : Core) (b : Bank) : (c.setBank b).rsm = c.rsm := by unfold Core.setBank; split <;> rfl
@[simp] theorem Core.setBank_sres (c : Core) (b : Bank) : (c.setBank b).sres = c.sres := by unfold Core.setBank; split <;> rfl
@[simp] theorem Core.setBank_qas (c : Core) (b : Bank) : (c.setBank b).qas = c.qas := by unfold Core.setBank; split <;> rfl
@[simp] theorem Core.setBank_qav (c : Core) (b : Bank) : (c.setBank b).qav = c.qav := by unfold Core.setBank; split <;> rfl
@[simp] theorem Core.setBank_cause (c : Core) (b : Bank) : (c.setBank b).cause = c.cause := by unfold Core.setBank; split <;> rfl
@[simp] theorem Core.setBank_epc (c : Core) (b : Bank) : (c.setBank b).epc = c.epc := by unfold Core.setBank; split <;> rfl
@[simp] theorem Core.setBank_faddr (c : Core) (b : Bank) : (c.setBank b).faddr = c.faddr := by unfold Core.setBank; split <;> rfl
@[simp] theorem Core.setBank_ptgt (c : Core) (b : Bank) : (c.setBank b).ptgt = c.ptgt := by unfold Core.setBank; split <;> rfl
@[simp] theorem Core.setBank_sfall (c : Core) (b : Bank) : (c.setBank b).sfall = c.sfall := by unfold Core.setBank; split <;> rfl
@[simp] theorem Core.setBank_seed (c : Core) (b : Bank) : (c.setBank b).seed = c.seed := by unfold Core.setBank; split <;> rfl
@[simp] theorem Core.setBank_cvsat (c : Core) (b : Bank) : (c.setBank b).cvsat = c.cvsat := by unfold Core.setBank; split <;> rfl
@[simp] theorem Core.setBank_tout (c : Core) (b : Bank) : (c.setBank b).tout = c.tout := by unfold Core.setBank; split <;> rfl
@[simp] theorem Core.setBank_wval (c : Core) (b : Bank) : (c.setBank b).wval = c.wval := by unfold Core.setBank; split <;> rfl
@[simp] theorem Core.setBank_wcmp (c : Core) (b : Bank) : (c.setBank b).wcmp = c.wcmp := by unfold Core.setBank; split <;> rfl
@[simp] theorem Core.setBank_wgrn (c : Core) (b : Bank) : (c.setBank b).wgrn = c.wgrn := by unfold Core.setBank; split <;> rfl
@[simp] theorem Core.setBank_kund (c : Core) (b : Bank) : (c.setBank b).kund = c.kund := by unfold Core.setBank; split <;> rfl
@[simp] theorem Core.setBank_lclk (c : Core) (b : Bank) : (c.setBank b).lclk = c.lclk := by unfold Core.setBank; split <;> rfl
@[simp] theorem Core.setBank_wdCount (c : Core) (b : Bank) : (c.setBank b).wdCount = c.wdCount := by unfold Core.setBank; split <;> rfl
@[simp] theorem Core.setBank_wdLimit (c : Core) (b : Bank) : (c.setBank b).wdLimit = c.wdLimit := by unfold Core.setBank; split <;> rfl
@[simp] theorem Core.setBank_wdDue (c : Core) (b : Bank) : (c.setBank b).wdDue = c.wdDue := by unfold Core.setBank; split <;> rfl
@[simp] theorem Core.setBank_wdFrom (c : Core) (b : Bank) : (c.setBank b).wdFrom = c.wdFrom := by unfold Core.setBank; split <;> rfl
@[simp] theorem Core.setBank_slen (c : Core) (b : Bank) : (c.setBank b).slen = c.slen := by unfold Core.setBank; split <;> rfl
@[simp] theorem Core.setBank_spos (c : Core) (b : Bank) : (c.setBank b).spos = c.spos := by unfold Core.setBank; split <;> rfl
@[simp] theorem Core.setBank_tvec (c : Core) (b : Bank) : (c.setBank b).tvec = c.tvec := by unfold Core.setBank; split <;> rfl
@[simp] theorem Core.setBank_dcause (c : Core) (b : Bank) : (c.setBank b).dcause = c.dcause := by unfold Core.setBank; split <;> rfl
@[simp] theorem Core.setBank_spFill (c : Core) (b : Bank) : (c.setBank b).spFill = c.spFill := by unfold Core.setBank; split <;> rfl
@[simp] theorem Core.setBank_sp (c : Core) (b : Bank) : (c.setBank b).sp = c.sp := by unfold Core.setBank; split <;> rfl
@[simp] theorem Core.setBank_tags (c : Core) (b : Bank) : (c.setBank b).tags = c.tags := by unfold Core.setBank; split <;> rfl
@[simp] theorem Core.setBank_rs (c : Core) (b : Bank) : (c.setBank b).rs = c.rs := by unfold Core.setBank; split <;> rfl
@[simp] theorem Core.setBank_vclk (c : Core) (b : Bank) : (c.setBank b).vclk = c.vclk := by unfold Core.setBank; split <;> rfl
@[simp] theorem Core.setBank_barVecs (c : Core) (b : Bank) : (c.setBank b).barVecs = c.barVecs := by unfold Core.setBank; split <;> rfl
@[simp] theorem Core.setBank_barArrs (c : Core) (b : Bank) : (c.setBank b).barArrs = c.barArrs := by unfold Core.setBank; split <;> rfl
@[simp] theorem Core.setBank_ob (c : Core) (b : Bank) : (c.setBank b).ob = c.ob := by unfold Core.setBank; split <;> rfl
@[simp] theorem Core.setBank_ac (c : Core) (b : Bank) : (c.setBank b).ac = c.ac := by unfold Core.setBank; split <;> rfl
@[simp] theorem Core.setBank_mmas (c : Core) (b : Bank) : (c.setBank b).mmas = c.mmas := by unfold Core.setBank; split <;> rfl
@[simp] theorem Core.setBank_lastMma (c : Core) (b : Bank) : (c.setBank b).lastMma = c.lastMma := by unfold Core.setBank; split <;> rfl
@[simp] theorem Core.setBank_tqs (c : Core) (b : Bank) : (c.setBank b).tqs = c.tqs := by unfold Core.setBank; split <;> rfl
@[simp] theorem Core.setBank_k (c : Core) (b : Bank) : (c.setBank b).k = c.k := by unfold Core.setBank; split <;> rfl
@[simp] theorem Core.setBank_kclk (c : Core) (b : Bank) : (c.setBank b).kclk = c.kclk := by unfold Core.setBank; split <;> rfl
@[simp] theorem Core.setBank_e0 (c : Core) (b : Bank) : (c.setBank b).e0 = c.e0 := by unfold Core.setBank; split <;> rfl
@[simp] theorem Core.setBank_e1 (c : Core) (b : Bank) : (c.setBank b).e1 = c.e1 := by unfold Core.setBank; split <;> rfl
@[simp] theorem Core.setBank_cbs (c : Core) (b : Bank) : (c.setBank b).cbs = c.cbs := by unfold Core.setBank; split <;> rfl
@[simp] theorem Core.setBank_binds (c : Core) (b : Bank) : (c.setBank b).binds = c.binds := by unfold Core.setBank; split <;> rfl
@[simp] theorem Core.setBank_wcs (c : Core) (b : Bank) : (c.setBank b).wcs = c.wcs := by unfold Core.setBank; split <;> rfl
@[simp] theorem Core.setBank_wakeq (c : Core) (b : Bank) : (c.setBank b).wakeq = c.wakeq := by unfold Core.setBank; split <;> rfl
@[simp] theorem Core.setBank_stash (c : Core) (b : Bank) : (c.setBank b).stash = c.stash := by unfold Core.setBank; split <;> rfl
@[simp] theorem Core.setBank_chq (c : Core) (b : Bank) : (c.setBank b).chq = c.chq := by unfold Core.setBank; split <;> rfl
@[simp] theorem Core.setBank_recvs (c : Core) (b : Bank) : (c.setBank b).recvs = c.recvs := by unfold Core.setBank; split <;> rfl
@[simp] theorem Core.setBank_colFaults (c : Core) (b : Bank) : (c.setBank b).colFaults = c.colFaults := by unfold Core.setBank; split <;> rfl
@[simp] theorem Core.setBank_nft (c : Core) (b : Bank) : (c.setBank b).nft = c.nft := by unfold Core.setBank; split <;> rfl
@[simp] theorem Core.setBank_sched (c : Core) (b : Bank) : (c.setBank b).sched = c.sched := by unfold Core.setBank; split <;> rfl
@[simp] theorem Core.setBank_tlb (c : Core) (b : Bank) : (c.setBank b).tlb = c.tlb := by unfold Core.setBank; split <;> rfl
@[simp] theorem Core.setBank_etlb0 (c : Core) (b : Bank) : (c.setBank b).etlb0 = c.etlb0 := by unfold Core.setBank; split <;> rfl
@[simp] theorem Core.setBank_etlb1 (c : Core) (b : Bank) : (c.setBank b).etlb1 = c.etlb1 := by unfold Core.setBank; split <;> rfl
@[simp] theorem Core.setBank_wflt (c : Core) (b : Bank) : (c.setBank b).wflt = c.wflt := by unfold Core.setBank; split <;> rfl
@[simp] theorem Core.setBank_cal (c : Core) (b : Bank) : (c.setBank b).cal = c.cal := by unfold Core.setBank; split <;> rfl
@[simp] theorem Core.setBank_flights (c : Core) (b : Bank) : (c.setBank b).flights = c.flights := by unfold Core.setBank; split <;> rfl
@[simp] theorem Core.setBank_mesh (c : Core) (b : Bank) : (c.setBank b).mesh = c.mesh := by unfold Core.setBank; split <;> rfl
@[simp] theorem Core.setBank_token (c : Core) (b : Bank) : (c.setBank b).token = c.token := by unfold Core.setBank; split <;> rfl
@[simp] theorem Core.setBank_regUe (c : Core) (b : Bank) : (c.setBank b).regUe = c.regUe := by unfold Core.setBank; split <;> rfl
@[simp] theorem Core.modLat_run (c : Core) (f : Latches → Latches) : (c.modLat f).run = c.run := by simp [Core.modLat]
@[simp] theorem Core.modLat_team (c : Core) (f : Latches → Latches) : (c.modLat f).team = c.team := by simp [Core.modLat]
@[simp] theorem Core.modLat_was (c : Core) (f : Latches → Latches) : (c.modLat f).was = c.was := by simp [Core.modLat]
@[simp] theorem Core.modLat_cyc (c : Core) (f : Latches → Latches) : (c.modLat f).cyc = c.cyc := by simp [Core.modLat]
@[simp] theorem Core.modLat_nextId (c : Core) (f : Latches → Latches) : (c.modLat f).nextId = c.nextId := by simp [Core.modLat]
@[simp] theorem Core.modLat_g (c : Core) (f : Latches → Latches) : (c.modLat f).g = c.g := by simp [Core.modLat]
@[simp] theorem Core.modLat_v (c : Core) (f : Latches → Latches) : (c.modLat f).v = c.v := by simp [Core.modLat]
@[simp] theorem Core.modLat_p (c : Core) (f : Latches → Latches) : (c.modLat f).p = c.p := by simp [Core.modLat]
@[simp] theorem Core.modLat_gsb (c : Core) (f : Latches → Latches) : (c.modLat f).gsb = c.gsb := by simp [Core.modLat]
@[simp] theorem Core.modLat_vsb (c : Core) (f : Latches → Latches) : (c.modLat f).vsb = c.vsb := by simp [Core.modLat]
@[simp] theorem Core.modLat_pc (c : Core) (f : Latches → Latches) : (c.modLat f).pc = c.pc := by simp [Core.modLat]
@[simp] theorem Core.modLat_hist (c : Core) (f : Latches → Latches) : (c.modLat f).hist = c.hist := by simp [Core.modLat]
@[simp] theorem Core.modLat_savedHist (c : Core) (f : Latches → Latches) : (c.modLat f).savedHist = c.savedHist := by simp [Core.modLat]
@[simp] theorem Core.modLat_fetched (c : Core) (f : Latches → Latches) : (c.modLat f).fetched = c.fetched := by simp [Core.modLat]
@[simp] theorem Core.modLat_bun (c : Core) (f : Latches → Latches) : (c.modLat f).bun = c.bun := by simp [Core.modLat]
@[simp] theorem Core.modLat_pend (c : Core) (f : Latches → Latches) : (c.modLat f).pend = c.pend := by simp [Core.modLat]
@[simp] theorem Core.modLat_reent (c : Core) (f : Latches → Latches) : (c.modLat f).reent = c.reent := by simp [Core.modLat]
@[simp] theorem Core.modLat_redir (c : Core) (f : Latches → Latches) : (c.modLat f).redir = c.redir := by simp [Core.modLat]
@[simp] theorem Core.modLat_issuing (c : Core) (f : Latches → Latches) : (c.modLat f).issuing = c.issuing := by simp [Core.modLat]
@[simp] theorem Core.modLat_slot (c : Core) (f : Latches → Latches) : (c.modLat f).slot = c.slot := by simp [Core.modLat]
@[simp] theorem Core.modLat_grpSq (c : Core) (f : Latches → Latches) : (c.modLat f).grpSq = c.grpSq := by simp [Core.modLat]
@[simp] theorem Core.modLat_grpVq (c : Core) (f : Latches → Latches) : (c.modLat f).grpVq = c.grpVq := by simp [Core.modLat]
@[simp] theorem Core.modLat_rest (c : Core) (f : Latches → Latches) : (c.modLat f).rest = c.rest := by simp [Core.modLat]
@[simp] theorem Core.modLat_defer (c : Core) (f : Latches → Latches) : (c.modLat f).defer = c.defer := by simp [Core.modLat]
@[simp] theorem Core.modLat_grpOld (c : Core) (f : Latches → Latches) : (c.modLat f).grpOld = c.grpOld := by simp [Core.modLat]
@[simp] theorem Core.modLat_grpSys (c : Core) (f : Latches → Latches) : (c.modLat f).grpSys = c.grpSys := by simp [Core.modLat]
@[simp] theorem Core.modLat_grpBanks (c : Core) (f : Latches → Latches) : (c.modLat f).grpBanks = c.grpBanks := by simp [Core.modLat]
@[simp] theorem Core.modLat_snap (c : Core) (f : Latches → Latches) : (c.modLat f).snap = c.snap := by simp [Core.modLat]
@[simp] theorem Core.modLat_grpStash (c : Core) (f : Latches → Latches) : (c.modLat f).grpStash = c.grpStash := by simp [Core.modLat]
@[simp] theorem Core.modLat_gzAsk (c : Core) (f : Latches → Latches) : (c.modLat f).gzAsk = c.gzAsk := by simp [Core.modLat]
@[simp] theorem Core.modLat_gzGrant (c : Core) (f : Latches → Latches) : (c.modLat f).gzGrant = c.gzGrant := by simp [Core.modLat]
@[simp] theorem Core.modLat_gzKeep (c : Core) (f : Latches → Latches) : (c.modLat f).gzKeep = c.gzKeep := by simp [Core.modLat]
@[simp] theorem Core.modLat_held (c : Core) (f : Latches → Latches) : (c.modLat f).held = c.held := by simp [Core.modLat]
@[simp] theorem Core.modLat_sret (c : Core) (f : Latches → Latches) : (c.modLat f).sret = c.sret := by simp [Core.modLat]
@[simp] theorem Core.modLat_wbT (c : Core) (f : Latches → Latches) : (c.modLat f).wbT = c.wbT := by simp [Core.modLat]
@[simp] theorem Core.modLat_sct (c : Core) (f : Latches → Latches) : (c.modLat f).sct = c.sct := by simp [Core.modLat]
@[simp] theorem Core.modLat_moved (c : Core) (f : Latches → Latches) : (c.modLat f).moved = c.moved := by simp [Core.modLat]
@[simp] theorem Core.modLat_tm (c : Core) (f : Latches → Latches) : (c.modLat f).tm = c.tm := by simp [Core.modLat]
@[simp] theorem Core.modLat_prd (c : Core) (f : Latches → Latches) : (c.modLat f).prd = c.prd := by simp [Core.modLat]
@[simp] theorem Core.modLat_pkind (c : Core) (f : Latches → Latches) : (c.modLat f).pkind = c.pkind := by simp [Core.modLat]
@[simp] theorem Core.modLat_rsm (c : Core) (f : Latches → Latches) : (c.modLat f).rsm = c.rsm := by simp [Core.modLat]
@[simp] theorem Core.modLat_sres (c : Core) (f : Latches → Latches) : (c.modLat f).sres = c.sres := by simp [Core.modLat]
@[simp] theorem Core.modLat_qas (c : Core) (f : Latches → Latches) : (c.modLat f).qas = c.qas := by simp [Core.modLat]
@[simp] theorem Core.modLat_qav (c : Core) (f : Latches → Latches) : (c.modLat f).qav = c.qav := by simp [Core.modLat]
@[simp] theorem Core.modLat_cause (c : Core) (f : Latches → Latches) : (c.modLat f).cause = c.cause := by simp [Core.modLat]
@[simp] theorem Core.modLat_epc (c : Core) (f : Latches → Latches) : (c.modLat f).epc = c.epc := by simp [Core.modLat]
@[simp] theorem Core.modLat_faddr (c : Core) (f : Latches → Latches) : (c.modLat f).faddr = c.faddr := by simp [Core.modLat]
@[simp] theorem Core.modLat_ptgt (c : Core) (f : Latches → Latches) : (c.modLat f).ptgt = c.ptgt := by simp [Core.modLat]
@[simp] theorem Core.modLat_sfall (c : Core) (f : Latches → Latches) : (c.modLat f).sfall = c.sfall := by simp [Core.modLat]
@[simp] theorem Core.modLat_seed (c : Core) (f : Latches → Latches) : (c.modLat f).seed = c.seed := by simp [Core.modLat]
@[simp] theorem Core.modLat_cvsat (c : Core) (f : Latches → Latches) : (c.modLat f).cvsat = c.cvsat := by simp [Core.modLat]
@[simp] theorem Core.modLat_tout (c : Core) (f : Latches → Latches) : (c.modLat f).tout = c.tout := by simp [Core.modLat]
@[simp] theorem Core.modLat_wval (c : Core) (f : Latches → Latches) : (c.modLat f).wval = c.wval := by simp [Core.modLat]
@[simp] theorem Core.modLat_wcmp (c : Core) (f : Latches → Latches) : (c.modLat f).wcmp = c.wcmp := by simp [Core.modLat]
@[simp] theorem Core.modLat_wgrn (c : Core) (f : Latches → Latches) : (c.modLat f).wgrn = c.wgrn := by simp [Core.modLat]
@[simp] theorem Core.modLat_kund (c : Core) (f : Latches → Latches) : (c.modLat f).kund = c.kund := by simp [Core.modLat]
@[simp] theorem Core.modLat_lclk (c : Core) (f : Latches → Latches) : (c.modLat f).lclk = c.lclk := by simp [Core.modLat]
@[simp] theorem Core.modLat_wdCount (c : Core) (f : Latches → Latches) : (c.modLat f).wdCount = c.wdCount := by simp [Core.modLat]
@[simp] theorem Core.modLat_wdLimit (c : Core) (f : Latches → Latches) : (c.modLat f).wdLimit = c.wdLimit := by simp [Core.modLat]
@[simp] theorem Core.modLat_wdDue (c : Core) (f : Latches → Latches) : (c.modLat f).wdDue = c.wdDue := by simp [Core.modLat]
@[simp] theorem Core.modLat_wdFrom (c : Core) (f : Latches → Latches) : (c.modLat f).wdFrom = c.wdFrom := by simp [Core.modLat]
@[simp] theorem Core.modLat_slen (c : Core) (f : Latches → Latches) : (c.modLat f).slen = c.slen := by simp [Core.modLat]
@[simp] theorem Core.modLat_spos (c : Core) (f : Latches → Latches) : (c.modLat f).spos = c.spos := by simp [Core.modLat]
@[simp] theorem Core.modLat_tvec (c : Core) (f : Latches → Latches) : (c.modLat f).tvec = c.tvec := by simp [Core.modLat]
@[simp] theorem Core.modLat_dcause (c : Core) (f : Latches → Latches) : (c.modLat f).dcause = c.dcause := by simp [Core.modLat]
@[simp] theorem Core.modLat_spFill (c : Core) (f : Latches → Latches) : (c.modLat f).spFill = c.spFill := by simp [Core.modLat]
@[simp] theorem Core.modLat_sp (c : Core) (f : Latches → Latches) : (c.modLat f).sp = c.sp := by simp [Core.modLat]
@[simp] theorem Core.modLat_tags (c : Core) (f : Latches → Latches) : (c.modLat f).tags = c.tags := by simp [Core.modLat]
@[simp] theorem Core.modLat_rs (c : Core) (f : Latches → Latches) : (c.modLat f).rs = c.rs := by simp [Core.modLat]
@[simp] theorem Core.modLat_vclk (c : Core) (f : Latches → Latches) : (c.modLat f).vclk = c.vclk := by simp [Core.modLat]
@[simp] theorem Core.modLat_barVecs (c : Core) (f : Latches → Latches) : (c.modLat f).barVecs = c.barVecs := by simp [Core.modLat]
@[simp] theorem Core.modLat_barArrs (c : Core) (f : Latches → Latches) : (c.modLat f).barArrs = c.barArrs := by simp [Core.modLat]
@[simp] theorem Core.modLat_ob (c : Core) (f : Latches → Latches) : (c.modLat f).ob = c.ob := by simp [Core.modLat]
@[simp] theorem Core.modLat_ac (c : Core) (f : Latches → Latches) : (c.modLat f).ac = c.ac := by simp [Core.modLat]
@[simp] theorem Core.modLat_mmas (c : Core) (f : Latches → Latches) : (c.modLat f).mmas = c.mmas := by simp [Core.modLat]
@[simp] theorem Core.modLat_lastMma (c : Core) (f : Latches → Latches) : (c.modLat f).lastMma = c.lastMma := by simp [Core.modLat]
@[simp] theorem Core.modLat_tqs (c : Core) (f : Latches → Latches) : (c.modLat f).tqs = c.tqs := by simp [Core.modLat]
@[simp] theorem Core.modLat_k (c : Core) (f : Latches → Latches) : (c.modLat f).k = c.k := by simp [Core.modLat]
@[simp] theorem Core.modLat_kclk (c : Core) (f : Latches → Latches) : (c.modLat f).kclk = c.kclk := by simp [Core.modLat]
@[simp] theorem Core.modLat_e0 (c : Core) (f : Latches → Latches) : (c.modLat f).e0 = c.e0 := by simp [Core.modLat]
@[simp] theorem Core.modLat_e1 (c : Core) (f : Latches → Latches) : (c.modLat f).e1 = c.e1 := by simp [Core.modLat]
@[simp] theorem Core.modLat_cbs (c : Core) (f : Latches → Latches) : (c.modLat f).cbs = c.cbs := by simp [Core.modLat]
@[simp] theorem Core.modLat_binds (c : Core) (f : Latches → Latches) : (c.modLat f).binds = c.binds := by simp [Core.modLat]
@[simp] theorem Core.modLat_wcs (c : Core) (f : Latches → Latches) : (c.modLat f).wcs = c.wcs := by simp [Core.modLat]
@[simp] theorem Core.modLat_wakeq (c : Core) (f : Latches → Latches) : (c.modLat f).wakeq = c.wakeq := by simp [Core.modLat]
@[simp] theorem Core.modLat_stash (c : Core) (f : Latches → Latches) : (c.modLat f).stash = c.stash := by simp [Core.modLat]
@[simp] theorem Core.modLat_chq (c : Core) (f : Latches → Latches) : (c.modLat f).chq = c.chq := by simp [Core.modLat]
@[simp] theorem Core.modLat_recvs (c : Core) (f : Latches → Latches) : (c.modLat f).recvs = c.recvs := by simp [Core.modLat]
@[simp] theorem Core.modLat_colFaults (c : Core) (f : Latches → Latches) : (c.modLat f).colFaults = c.colFaults := by simp [Core.modLat]
@[simp] theorem Core.modLat_nft (c : Core) (f : Latches → Latches) : (c.modLat f).nft = c.nft := by simp [Core.modLat]
@[simp] theorem Core.modLat_sched (c : Core) (f : Latches → Latches) : (c.modLat f).sched = c.sched := by simp [Core.modLat]
@[simp] theorem Core.modLat_tlb (c : Core) (f : Latches → Latches) : (c.modLat f).tlb = c.tlb := by simp [Core.modLat]
@[simp] theorem Core.modLat_etlb0 (c : Core) (f : Latches → Latches) : (c.modLat f).etlb0 = c.etlb0 := by simp [Core.modLat]
@[simp] theorem Core.modLat_etlb1 (c : Core) (f : Latches → Latches) : (c.modLat f).etlb1 = c.etlb1 := by simp [Core.modLat]
@[simp] theorem Core.modLat_wflt (c : Core) (f : Latches → Latches) : (c.modLat f).wflt = c.wflt := by simp [Core.modLat]
@[simp] theorem Core.modLat_cal (c : Core) (f : Latches → Latches) : (c.modLat f).cal = c.cal := by simp [Core.modLat]
@[simp] theorem Core.modLat_flights (c : Core) (f : Latches → Latches) : (c.modLat f).flights = c.flights := by simp [Core.modLat]
@[simp] theorem Core.modLat_mesh (c : Core) (f : Latches → Latches) : (c.modLat f).mesh = c.mesh := by simp [Core.modLat]
@[simp] theorem Core.modLat_token (c : Core) (f : Latches → Latches) : (c.modLat f).token = c.token := by simp [Core.modLat]
@[simp] theorem Core.modLat_regUe (c : Core) (f : Latches → Latches) : (c.modLat f).regUe = c.regUe := by simp [Core.modLat]
@[simp] theorem Core.drawIf_run (c : Core) (b : Bool) : (c.drawIf b).run = c.run := by unfold Core.drawIf; split <;> rfl
@[simp] theorem Core.drawIf_team (c : Core) (b : Bool) : (c.drawIf b).team = c.team := by unfold Core.drawIf; split <;> rfl
@[simp] theorem Core.drawIf_was (c : Core) (b : Bool) : (c.drawIf b).was = c.was := by unfold Core.drawIf; split <;> rfl
@[simp] theorem Core.drawIf_cyc (c : Core) (b : Bool) : (c.drawIf b).cyc = c.cyc := by unfold Core.drawIf; split <;> rfl
@[simp] theorem Core.drawIf_nextId (c : Core) (b : Bool) : (c.drawIf b).nextId = c.nextId := by unfold Core.drawIf; split <;> rfl
@[simp] theorem Core.drawIf_g (c : Core) (b : Bool) : (c.drawIf b).g = c.g := by unfold Core.drawIf; split <;> rfl
@[simp] theorem Core.drawIf_v (c : Core) (b : Bool) : (c.drawIf b).v = c.v := by unfold Core.drawIf; split <;> rfl
@[simp] theorem Core.drawIf_p (c : Core) (b : Bool) : (c.drawIf b).p = c.p := by unfold Core.drawIf; split <;> rfl
@[simp] theorem Core.drawIf_gsb (c : Core) (b : Bool) : (c.drawIf b).gsb = c.gsb := by unfold Core.drawIf; split <;> rfl
@[simp] theorem Core.drawIf_vsb (c : Core) (b : Bool) : (c.drawIf b).vsb = c.vsb := by unfold Core.drawIf; split <;> rfl
@[simp] theorem Core.drawIf_prog (c : Core) (b : Bool) : (c.drawIf b).prog = c.prog := by unfold Core.drawIf; split <;> rfl
@[simp] theorem Core.drawIf_hand (c : Core) (b : Bool) : (c.drawIf b).hand = c.hand := by unfold Core.drawIf; split <;> rfl
@[simp] theorem Core.drawIf_pc (c : Core) (b : Bool) : (c.drawIf b).pc = c.pc := by unfold Core.drawIf; split <;> rfl
@[simp] theorem Core.drawIf_hist (c : Core) (b : Bool) : (c.drawIf b).hist = c.hist := by unfold Core.drawIf; split <;> rfl
@[simp] theorem Core.drawIf_savedHist (c : Core) (b : Bool) : (c.drawIf b).savedHist = c.savedHist := by unfold Core.drawIf; split <;> rfl
@[simp] theorem Core.drawIf_fetched (c : Core) (b : Bool) : (c.drawIf b).fetched = c.fetched := by unfold Core.drawIf; split <;> rfl
@[simp] theorem Core.drawIf_bun (c : Core) (b : Bool) : (c.drawIf b).bun = c.bun := by unfold Core.drawIf; split <;> rfl
@[simp] theorem Core.drawIf_pend (c : Core) (b : Bool) : (c.drawIf b).pend = c.pend := by unfold Core.drawIf; split <;> rfl
@[simp] theorem Core.drawIf_reent (c : Core) (b : Bool) : (c.drawIf b).reent = c.reent := by unfold Core.drawIf; split <;> rfl
@[simp] theorem Core.drawIf_redir (c : Core) (b : Bool) : (c.drawIf b).redir = c.redir := by unfold Core.drawIf; split <;> rfl
@[simp] theorem Core.drawIf_issuing (c : Core) (b : Bool) : (c.drawIf b).issuing = c.issuing := by unfold Core.drawIf; split <;> rfl
@[simp] theorem Core.drawIf_slot (c : Core) (b : Bool) : (c.drawIf b).slot = c.slot := by unfold Core.drawIf; split <;> rfl
@[simp] theorem Core.drawIf_grpSq (c : Core) (b : Bool) : (c.drawIf b).grpSq = c.grpSq := by unfold Core.drawIf; split <;> rfl
@[simp] theorem Core.drawIf_grpVq (c : Core) (b : Bool) : (c.drawIf b).grpVq = c.grpVq := by unfold Core.drawIf; split <;> rfl
@[simp] theorem Core.drawIf_rest (c : Core) (b : Bool) : (c.drawIf b).rest = c.rest := by unfold Core.drawIf; split <;> rfl
@[simp] theorem Core.drawIf_defer (c : Core) (b : Bool) : (c.drawIf b).defer = c.defer := by unfold Core.drawIf; split <;> rfl
@[simp] theorem Core.drawIf_grpOld (c : Core) (b : Bool) : (c.drawIf b).grpOld = c.grpOld := by unfold Core.drawIf; split <;> rfl
@[simp] theorem Core.drawIf_grpSys (c : Core) (b : Bool) : (c.drawIf b).grpSys = c.grpSys := by unfold Core.drawIf; split <;> rfl
@[simp] theorem Core.drawIf_grpBanks (c : Core) (b : Bool) : (c.drawIf b).grpBanks = c.grpBanks := by unfold Core.drawIf; split <;> rfl
@[simp] theorem Core.drawIf_snap (c : Core) (b : Bool) : (c.drawIf b).snap = c.snap := by unfold Core.drawIf; split <;> rfl
@[simp] theorem Core.drawIf_grpStash (c : Core) (b : Bool) : (c.drawIf b).grpStash = c.grpStash := by unfold Core.drawIf; split <;> rfl
@[simp] theorem Core.drawIf_gzAsk (c : Core) (b : Bool) : (c.drawIf b).gzAsk = c.gzAsk := by unfold Core.drawIf; split <;> rfl
@[simp] theorem Core.drawIf_gzGrant (c : Core) (b : Bool) : (c.drawIf b).gzGrant = c.gzGrant := by unfold Core.drawIf; split <;> rfl
@[simp] theorem Core.drawIf_gzKeep (c : Core) (b : Bool) : (c.drawIf b).gzKeep = c.gzKeep := by unfold Core.drawIf; split <;> rfl
@[simp] theorem Core.drawIf_held (c : Core) (b : Bool) : (c.drawIf b).held = c.held := by unfold Core.drawIf; split <;> rfl
@[simp] theorem Core.drawIf_sret (c : Core) (b : Bool) : (c.drawIf b).sret = c.sret := by unfold Core.drawIf; split <;> rfl
@[simp] theorem Core.drawIf_wbT (c : Core) (b : Bool) : (c.drawIf b).wbT = c.wbT := by unfold Core.drawIf; split <;> rfl
@[simp] theorem Core.drawIf_sct (c : Core) (b : Bool) : (c.drawIf b).sct = c.sct := by unfold Core.drawIf; split <;> rfl
@[simp] theorem Core.drawIf_moved (c : Core) (b : Bool) : (c.drawIf b).moved = c.moved := by unfold Core.drawIf; split <;> rfl
@[simp] theorem Core.drawIf_tm (c : Core) (b : Bool) : (c.drawIf b).tm = c.tm := by unfold Core.drawIf; split <;> rfl
@[simp] theorem Core.drawIf_prd (c : Core) (b : Bool) : (c.drawIf b).prd = c.prd := by unfold Core.drawIf; split <;> rfl
@[simp] theorem Core.drawIf_pkind (c : Core) (b : Bool) : (c.drawIf b).pkind = c.pkind := by unfold Core.drawIf; split <;> rfl
@[simp] theorem Core.drawIf_rsm (c : Core) (b : Bool) : (c.drawIf b).rsm = c.rsm := by unfold Core.drawIf; split <;> rfl
@[simp] theorem Core.drawIf_sres (c : Core) (b : Bool) : (c.drawIf b).sres = c.sres := by unfold Core.drawIf; split <;> rfl
@[simp] theorem Core.drawIf_qas (c : Core) (b : Bool) : (c.drawIf b).qas = c.qas := by unfold Core.drawIf; split <;> rfl
@[simp] theorem Core.drawIf_qav (c : Core) (b : Bool) : (c.drawIf b).qav = c.qav := by unfold Core.drawIf; split <;> rfl
@[simp] theorem Core.drawIf_cause (c : Core) (b : Bool) : (c.drawIf b).cause = c.cause := by unfold Core.drawIf; split <;> rfl
@[simp] theorem Core.drawIf_epc (c : Core) (b : Bool) : (c.drawIf b).epc = c.epc := by unfold Core.drawIf; split <;> rfl
@[simp] theorem Core.drawIf_faddr (c : Core) (b : Bool) : (c.drawIf b).faddr = c.faddr := by unfold Core.drawIf; split <;> rfl
@[simp] theorem Core.drawIf_ptgt (c : Core) (b : Bool) : (c.drawIf b).ptgt = c.ptgt := by unfold Core.drawIf; split <;> rfl
@[simp] theorem Core.drawIf_sfall (c : Core) (b : Bool) : (c.drawIf b).sfall = c.sfall := by unfold Core.drawIf; split <;> rfl
@[simp] theorem Core.drawIf_cvsat (c : Core) (b : Bool) : (c.drawIf b).cvsat = c.cvsat := by unfold Core.drawIf; split <;> rfl
@[simp] theorem Core.drawIf_tout (c : Core) (b : Bool) : (c.drawIf b).tout = c.tout := by unfold Core.drawIf; split <;> rfl
@[simp] theorem Core.drawIf_wval (c : Core) (b : Bool) : (c.drawIf b).wval = c.wval := by unfold Core.drawIf; split <;> rfl
@[simp] theorem Core.drawIf_wcmp (c : Core) (b : Bool) : (c.drawIf b).wcmp = c.wcmp := by unfold Core.drawIf; split <;> rfl
@[simp] theorem Core.drawIf_wgrn (c : Core) (b : Bool) : (c.drawIf b).wgrn = c.wgrn := by unfold Core.drawIf; split <;> rfl
@[simp] theorem Core.drawIf_kund (c : Core) (b : Bool) : (c.drawIf b).kund = c.kund := by unfold Core.drawIf; split <;> rfl
@[simp] theorem Core.drawIf_lclk (c : Core) (b : Bool) : (c.drawIf b).lclk = c.lclk := by unfold Core.drawIf; split <;> rfl
@[simp] theorem Core.drawIf_wdCount (c : Core) (b : Bool) : (c.drawIf b).wdCount = c.wdCount := by unfold Core.drawIf; split <;> rfl
@[simp] theorem Core.drawIf_wdLimit (c : Core) (b : Bool) : (c.drawIf b).wdLimit = c.wdLimit := by unfold Core.drawIf; split <;> rfl
@[simp] theorem Core.drawIf_wdDue (c : Core) (b : Bool) : (c.drawIf b).wdDue = c.wdDue := by unfold Core.drawIf; split <;> rfl
@[simp] theorem Core.drawIf_wdFrom (c : Core) (b : Bool) : (c.drawIf b).wdFrom = c.wdFrom := by unfold Core.drawIf; split <;> rfl
@[simp] theorem Core.drawIf_slen (c : Core) (b : Bool) : (c.drawIf b).slen = c.slen := by unfold Core.drawIf; split <;> rfl
@[simp] theorem Core.drawIf_spos (c : Core) (b : Bool) : (c.drawIf b).spos = c.spos := by unfold Core.drawIf; split <;> rfl
@[simp] theorem Core.drawIf_tvec (c : Core) (b : Bool) : (c.drawIf b).tvec = c.tvec := by unfold Core.drawIf; split <;> rfl
@[simp] theorem Core.drawIf_dcause (c : Core) (b : Bool) : (c.drawIf b).dcause = c.dcause := by unfold Core.drawIf; split <;> rfl
@[simp] theorem Core.drawIf_spFill (c : Core) (b : Bool) : (c.drawIf b).spFill = c.spFill := by unfold Core.drawIf; split <;> rfl
@[simp] theorem Core.drawIf_sp (c : Core) (b : Bool) : (c.drawIf b).sp = c.sp := by unfold Core.drawIf; split <;> rfl
@[simp] theorem Core.drawIf_tags (c : Core) (b : Bool) : (c.drawIf b).tags = c.tags := by unfold Core.drawIf; split <;> rfl
@[simp] theorem Core.drawIf_rs (c : Core) (b : Bool) : (c.drawIf b).rs = c.rs := by unfold Core.drawIf; split <;> rfl
@[simp] theorem Core.drawIf_vclk (c : Core) (b : Bool) : (c.drawIf b).vclk = c.vclk := by unfold Core.drawIf; split <;> rfl
@[simp] theorem Core.drawIf_barVecs (c : Core) (b : Bool) : (c.drawIf b).barVecs = c.barVecs := by unfold Core.drawIf; split <;> rfl
@[simp] theorem Core.drawIf_barArrs (c : Core) (b : Bool) : (c.drawIf b).barArrs = c.barArrs := by unfold Core.drawIf; split <;> rfl
@[simp] theorem Core.drawIf_ob (c : Core) (b : Bool) : (c.drawIf b).ob = c.ob := by unfold Core.drawIf; split <;> rfl
@[simp] theorem Core.drawIf_ac (c : Core) (b : Bool) : (c.drawIf b).ac = c.ac := by unfold Core.drawIf; split <;> rfl
@[simp] theorem Core.drawIf_mmas (c : Core) (b : Bool) : (c.drawIf b).mmas = c.mmas := by unfold Core.drawIf; split <;> rfl
@[simp] theorem Core.drawIf_lastMma (c : Core) (b : Bool) : (c.drawIf b).lastMma = c.lastMma := by unfold Core.drawIf; split <;> rfl
@[simp] theorem Core.drawIf_tqs (c : Core) (b : Bool) : (c.drawIf b).tqs = c.tqs := by unfold Core.drawIf; split <;> rfl
@[simp] theorem Core.drawIf_k (c : Core) (b : Bool) : (c.drawIf b).k = c.k := by unfold Core.drawIf; split <;> rfl
@[simp] theorem Core.drawIf_kclk (c : Core) (b : Bool) : (c.drawIf b).kclk = c.kclk := by unfold Core.drawIf; split <;> rfl
@[simp] theorem Core.drawIf_e0 (c : Core) (b : Bool) : (c.drawIf b).e0 = c.e0 := by unfold Core.drawIf; split <;> rfl
@[simp] theorem Core.drawIf_e1 (c : Core) (b : Bool) : (c.drawIf b).e1 = c.e1 := by unfold Core.drawIf; split <;> rfl
@[simp] theorem Core.drawIf_cbs (c : Core) (b : Bool) : (c.drawIf b).cbs = c.cbs := by unfold Core.drawIf; split <;> rfl
@[simp] theorem Core.drawIf_binds (c : Core) (b : Bool) : (c.drawIf b).binds = c.binds := by unfold Core.drawIf; split <;> rfl
@[simp] theorem Core.drawIf_wcs (c : Core) (b : Bool) : (c.drawIf b).wcs = c.wcs := by unfold Core.drawIf; split <;> rfl
@[simp] theorem Core.drawIf_wakeq (c : Core) (b : Bool) : (c.drawIf b).wakeq = c.wakeq := by unfold Core.drawIf; split <;> rfl
@[simp] theorem Core.drawIf_stash (c : Core) (b : Bool) : (c.drawIf b).stash = c.stash := by unfold Core.drawIf; split <;> rfl
@[simp] theorem Core.drawIf_chq (c : Core) (b : Bool) : (c.drawIf b).chq = c.chq := by unfold Core.drawIf; split <;> rfl
@[simp] theorem Core.drawIf_recvs (c : Core) (b : Bool) : (c.drawIf b).recvs = c.recvs := by unfold Core.drawIf; split <;> rfl
@[simp] theorem Core.drawIf_colFaults (c : Core) (b : Bool) : (c.drawIf b).colFaults = c.colFaults := by unfold Core.drawIf; split <;> rfl
@[simp] theorem Core.drawIf_nft (c : Core) (b : Bool) : (c.drawIf b).nft = c.nft := by unfold Core.drawIf; split <;> rfl
@[simp] theorem Core.drawIf_sched (c : Core) (b : Bool) : (c.drawIf b).sched = c.sched := by unfold Core.drawIf; split <;> rfl
@[simp] theorem Core.drawIf_tlb (c : Core) (b : Bool) : (c.drawIf b).tlb = c.tlb := by unfold Core.drawIf; split <;> rfl
@[simp] theorem Core.drawIf_etlb0 (c : Core) (b : Bool) : (c.drawIf b).etlb0 = c.etlb0 := by unfold Core.drawIf; split <;> rfl
@[simp] theorem Core.drawIf_etlb1 (c : Core) (b : Bool) : (c.drawIf b).etlb1 = c.etlb1 := by unfold Core.drawIf; split <;> rfl
@[simp] theorem Core.drawIf_wflt (c : Core) (b : Bool) : (c.drawIf b).wflt = c.wflt := by unfold Core.drawIf; split <;> rfl
@[simp] theorem Core.drawIf_cal (c : Core) (b : Bool) : (c.drawIf b).cal = c.cal := by unfold Core.drawIf; split <;> rfl
@[simp] theorem Core.drawIf_flights (c : Core) (b : Bool) : (c.drawIf b).flights = c.flights := by unfold Core.drawIf; split <;> rfl
@[simp] theorem Core.drawIf_mesh (c : Core) (b : Bool) : (c.drawIf b).mesh = c.mesh := by unfold Core.drawIf; split <;> rfl
@[simp] theorem Core.drawIf_token (c : Core) (b : Bool) : (c.drawIf b).token = c.token := by unfold Core.drawIf; split <;> rfl
@[simp] theorem Core.drawIf_regUe (c : Core) (b : Bool) : (c.drawIf b).regUe = c.regUe := by unfold Core.drawIf; split <;> rfl
@[simp] theorem Core.popTq_run (c : Core) (q : Nat) : (c.popTq q).run = c.run := rfl
@[simp] theorem Core.popTq_team (c : Core) (q : Nat) : (c.popTq q).team = c.team := rfl
@[simp] theorem Core.popTq_was (c : Core) (q : Nat) : (c.popTq q).was = c.was := rfl
@[simp] theorem Core.popTq_cyc (c : Core) (q : Nat) : (c.popTq q).cyc = c.cyc := rfl
@[simp] theorem Core.popTq_nextId (c : Core) (q : Nat) : (c.popTq q).nextId = c.nextId := rfl
@[simp] theorem Core.popTq_g (c : Core) (q : Nat) : (c.popTq q).g = c.g := rfl
@[simp] theorem Core.popTq_v (c : Core) (q : Nat) : (c.popTq q).v = c.v := rfl
@[simp] theorem Core.popTq_p (c : Core) (q : Nat) : (c.popTq q).p = c.p := rfl
@[simp] theorem Core.popTq_gsb (c : Core) (q : Nat) : (c.popTq q).gsb = c.gsb := rfl
@[simp] theorem Core.popTq_vsb (c : Core) (q : Nat) : (c.popTq q).vsb = c.vsb := rfl
@[simp] theorem Core.popTq_prog (c : Core) (q : Nat) : (c.popTq q).prog = c.prog := rfl
@[simp] theorem Core.popTq_hand (c : Core) (q : Nat) : (c.popTq q).hand = c.hand := rfl
@[simp] theorem Core.popTq_pc (c : Core) (q : Nat) : (c.popTq q).pc = c.pc := rfl
@[simp] theorem Core.popTq_hist (c : Core) (q : Nat) : (c.popTq q).hist = c.hist := rfl
@[simp] theorem Core.popTq_savedHist (c : Core) (q : Nat) : (c.popTq q).savedHist = c.savedHist := rfl
@[simp] theorem Core.popTq_fetched (c : Core) (q : Nat) : (c.popTq q).fetched = c.fetched := rfl
@[simp] theorem Core.popTq_bun (c : Core) (q : Nat) : (c.popTq q).bun = c.bun := rfl
@[simp] theorem Core.popTq_pend (c : Core) (q : Nat) : (c.popTq q).pend = c.pend := rfl
@[simp] theorem Core.popTq_reent (c : Core) (q : Nat) : (c.popTq q).reent = c.reent := rfl
@[simp] theorem Core.popTq_redir (c : Core) (q : Nat) : (c.popTq q).redir = c.redir := rfl
@[simp] theorem Core.popTq_issuing (c : Core) (q : Nat) : (c.popTq q).issuing = c.issuing := rfl
@[simp] theorem Core.popTq_slot (c : Core) (q : Nat) : (c.popTq q).slot = c.slot := rfl
@[simp] theorem Core.popTq_grpSq (c : Core) (q : Nat) : (c.popTq q).grpSq = c.grpSq := rfl
@[simp] theorem Core.popTq_grpVq (c : Core) (q : Nat) : (c.popTq q).grpVq = c.grpVq := rfl
@[simp] theorem Core.popTq_rest (c : Core) (q : Nat) : (c.popTq q).rest = c.rest := rfl
@[simp] theorem Core.popTq_defer (c : Core) (q : Nat) : (c.popTq q).defer = c.defer := rfl
@[simp] theorem Core.popTq_grpOld (c : Core) (q : Nat) : (c.popTq q).grpOld = c.grpOld := rfl
@[simp] theorem Core.popTq_grpSys (c : Core) (q : Nat) : (c.popTq q).grpSys = c.grpSys := rfl
@[simp] theorem Core.popTq_grpBanks (c : Core) (q : Nat) : (c.popTq q).grpBanks = c.grpBanks := rfl
@[simp] theorem Core.popTq_snap (c : Core) (q : Nat) : (c.popTq q).snap = c.snap := rfl
@[simp] theorem Core.popTq_grpStash (c : Core) (q : Nat) : (c.popTq q).grpStash = c.grpStash := rfl
@[simp] theorem Core.popTq_gzAsk (c : Core) (q : Nat) : (c.popTq q).gzAsk = c.gzAsk := rfl
@[simp] theorem Core.popTq_gzGrant (c : Core) (q : Nat) : (c.popTq q).gzGrant = c.gzGrant := rfl
@[simp] theorem Core.popTq_gzKeep (c : Core) (q : Nat) : (c.popTq q).gzKeep = c.gzKeep := rfl
@[simp] theorem Core.popTq_held (c : Core) (q : Nat) : (c.popTq q).held = c.held := rfl
@[simp] theorem Core.popTq_sret (c : Core) (q : Nat) : (c.popTq q).sret = c.sret := rfl
@[simp] theorem Core.popTq_wbT (c : Core) (q : Nat) : (c.popTq q).wbT = c.wbT := rfl
@[simp] theorem Core.popTq_sct (c : Core) (q : Nat) : (c.popTq q).sct = c.sct := rfl
@[simp] theorem Core.popTq_moved (c : Core) (q : Nat) : (c.popTq q).moved = c.moved := rfl
@[simp] theorem Core.popTq_tm (c : Core) (q : Nat) : (c.popTq q).tm = c.tm := rfl
@[simp] theorem Core.popTq_prd (c : Core) (q : Nat) : (c.popTq q).prd = c.prd := rfl
@[simp] theorem Core.popTq_pkind (c : Core) (q : Nat) : (c.popTq q).pkind = c.pkind := rfl
@[simp] theorem Core.popTq_rsm (c : Core) (q : Nat) : (c.popTq q).rsm = c.rsm := rfl
@[simp] theorem Core.popTq_sres (c : Core) (q : Nat) : (c.popTq q).sres = c.sres := rfl
@[simp] theorem Core.popTq_qas (c : Core) (q : Nat) : (c.popTq q).qas = c.qas := rfl
@[simp] theorem Core.popTq_qav (c : Core) (q : Nat) : (c.popTq q).qav = c.qav := rfl
@[simp] theorem Core.popTq_cause (c : Core) (q : Nat) : (c.popTq q).cause = c.cause := rfl
@[simp] theorem Core.popTq_epc (c : Core) (q : Nat) : (c.popTq q).epc = c.epc := rfl
@[simp] theorem Core.popTq_faddr (c : Core) (q : Nat) : (c.popTq q).faddr = c.faddr := rfl
@[simp] theorem Core.popTq_ptgt (c : Core) (q : Nat) : (c.popTq q).ptgt = c.ptgt := rfl
@[simp] theorem Core.popTq_sfall (c : Core) (q : Nat) : (c.popTq q).sfall = c.sfall := rfl
@[simp] theorem Core.popTq_seed (c : Core) (q : Nat) : (c.popTq q).seed = c.seed := rfl
@[simp] theorem Core.popTq_cvsat (c : Core) (q : Nat) : (c.popTq q).cvsat = c.cvsat := rfl
@[simp] theorem Core.popTq_tout (c : Core) (q : Nat) : (c.popTq q).tout = c.tout := rfl
@[simp] theorem Core.popTq_wval (c : Core) (q : Nat) : (c.popTq q).wval = c.wval := rfl
@[simp] theorem Core.popTq_wcmp (c : Core) (q : Nat) : (c.popTq q).wcmp = c.wcmp := rfl
@[simp] theorem Core.popTq_wgrn (c : Core) (q : Nat) : (c.popTq q).wgrn = c.wgrn := rfl
@[simp] theorem Core.popTq_kund (c : Core) (q : Nat) : (c.popTq q).kund = c.kund := rfl
@[simp] theorem Core.popTq_lclk (c : Core) (q : Nat) : (c.popTq q).lclk = c.lclk := rfl
@[simp] theorem Core.popTq_wdCount (c : Core) (q : Nat) : (c.popTq q).wdCount = c.wdCount := rfl
@[simp] theorem Core.popTq_wdLimit (c : Core) (q : Nat) : (c.popTq q).wdLimit = c.wdLimit := rfl
@[simp] theorem Core.popTq_wdDue (c : Core) (q : Nat) : (c.popTq q).wdDue = c.wdDue := rfl
@[simp] theorem Core.popTq_wdFrom (c : Core) (q : Nat) : (c.popTq q).wdFrom = c.wdFrom := rfl
@[simp] theorem Core.popTq_slen (c : Core) (q : Nat) : (c.popTq q).slen = c.slen := rfl
@[simp] theorem Core.popTq_spos (c : Core) (q : Nat) : (c.popTq q).spos = c.spos := rfl
@[simp] theorem Core.popTq_tvec (c : Core) (q : Nat) : (c.popTq q).tvec = c.tvec := rfl
@[simp] theorem Core.popTq_dcause (c : Core) (q : Nat) : (c.popTq q).dcause = c.dcause := rfl
@[simp] theorem Core.popTq_spFill (c : Core) (q : Nat) : (c.popTq q).spFill = c.spFill := rfl
@[simp] theorem Core.popTq_sp (c : Core) (q : Nat) : (c.popTq q).sp = c.sp := rfl
@[simp] theorem Core.popTq_tags (c : Core) (q : Nat) : (c.popTq q).tags = c.tags := rfl
@[simp] theorem Core.popTq_rs (c : Core) (q : Nat) : (c.popTq q).rs = c.rs := rfl
@[simp] theorem Core.popTq_vclk (c : Core) (q : Nat) : (c.popTq q).vclk = c.vclk := rfl
@[simp] theorem Core.popTq_barVecs (c : Core) (q : Nat) : (c.popTq q).barVecs = c.barVecs := rfl
@[simp] theorem Core.popTq_barArrs (c : Core) (q : Nat) : (c.popTq q).barArrs = c.barArrs := rfl
@[simp] theorem Core.popTq_ob (c : Core) (q : Nat) : (c.popTq q).ob = c.ob := rfl
@[simp] theorem Core.popTq_ac (c : Core) (q : Nat) : (c.popTq q).ac = c.ac := rfl
@[simp] theorem Core.popTq_mmas (c : Core) (q : Nat) : (c.popTq q).mmas = c.mmas := rfl
@[simp] theorem Core.popTq_lastMma (c : Core) (q : Nat) : (c.popTq q).lastMma = c.lastMma := rfl
@[simp] theorem Core.popTq_k (c : Core) (q : Nat) : (c.popTq q).k = c.k := rfl
@[simp] theorem Core.popTq_kclk (c : Core) (q : Nat) : (c.popTq q).kclk = c.kclk := rfl
@[simp] theorem Core.popTq_e0 (c : Core) (q : Nat) : (c.popTq q).e0 = c.e0 := rfl
@[simp] theorem Core.popTq_e1 (c : Core) (q : Nat) : (c.popTq q).e1 = c.e1 := rfl
@[simp] theorem Core.popTq_cbs (c : Core) (q : Nat) : (c.popTq q).cbs = c.cbs := rfl
@[simp] theorem Core.popTq_binds (c : Core) (q : Nat) : (c.popTq q).binds = c.binds := rfl
@[simp] theorem Core.popTq_wcs (c : Core) (q : Nat) : (c.popTq q).wcs = c.wcs := rfl
@[simp] theorem Core.popTq_wakeq (c : Core) (q : Nat) : (c.popTq q).wakeq = c.wakeq := rfl
@[simp] theorem Core.popTq_stash (c : Core) (q : Nat) : (c.popTq q).stash = c.stash := rfl
@[simp] theorem Core.popTq_chq (c : Core) (q : Nat) : (c.popTq q).chq = c.chq := rfl
@[simp] theorem Core.popTq_recvs (c : Core) (q : Nat) : (c.popTq q).recvs = c.recvs := rfl
@[simp] theorem Core.popTq_colFaults (c : Core) (q : Nat) : (c.popTq q).colFaults = c.colFaults := rfl
@[simp] theorem Core.popTq_nft (c : Core) (q : Nat) : (c.popTq q).nft = c.nft := rfl
@[simp] theorem Core.popTq_sched (c : Core) (q : Nat) : (c.popTq q).sched = c.sched := rfl
@[simp] theorem Core.popTq_tlb (c : Core) (q : Nat) : (c.popTq q).tlb = c.tlb := rfl
@[simp] theorem Core.popTq_etlb0 (c : Core) (q : Nat) : (c.popTq q).etlb0 = c.etlb0 := rfl
@[simp] theorem Core.popTq_etlb1 (c : Core) (q : Nat) : (c.popTq q).etlb1 = c.etlb1 := rfl
@[simp] theorem Core.popTq_wflt (c : Core) (q : Nat) : (c.popTq q).wflt = c.wflt := rfl
@[simp] theorem Core.popTq_cal (c : Core) (q : Nat) : (c.popTq q).cal = c.cal := rfl
@[simp] theorem Core.popTq_flights (c : Core) (q : Nat) : (c.popTq q).flights = c.flights := rfl
@[simp] theorem Core.popTq_mesh (c : Core) (q : Nat) : (c.popTq q).mesh = c.mesh := rfl
@[simp] theorem Core.popTq_token (c : Core) (q : Nat) : (c.popTq q).token = c.token := rfl
@[simp] theorem Core.popTq_regUe (c : Core) (q : Nat) : (c.popTq q).regUe = c.regUe := rfl
@[simp] theorem Core.popV_run (c : Core) (a b : Option (Fin 4)) : (c.popV a b).run = c.run := by unfold Core.popV; repeat (first | split | rfl | simp)
@[simp] theorem Core.popV_team (c : Core) (a b : Option (Fin 4)) : (c.popV a b).team = c.team := by unfold Core.popV; repeat (first | split | rfl | simp)
@[simp] theorem Core.popV_was (c : Core) (a b : Option (Fin 4)) : (c.popV a b).was = c.was := by unfold Core.popV; repeat (first | split | rfl | simp)
@[simp] theorem Core.popV_cyc (c : Core) (a b : Option (Fin 4)) : (c.popV a b).cyc = c.cyc := by unfold Core.popV; repeat (first | split | rfl | simp)
@[simp] theorem Core.popV_nextId (c : Core) (a b : Option (Fin 4)) : (c.popV a b).nextId = c.nextId := by unfold Core.popV; repeat (first | split | rfl | simp)
@[simp] theorem Core.popV_g (c : Core) (a b : Option (Fin 4)) : (c.popV a b).g = c.g := by unfold Core.popV; repeat (first | split | rfl | simp)
@[simp] theorem Core.popV_v (c : Core) (a b : Option (Fin 4)) : (c.popV a b).v = c.v := by unfold Core.popV; repeat (first | split | rfl | simp)
@[simp] theorem Core.popV_p (c : Core) (a b : Option (Fin 4)) : (c.popV a b).p = c.p := by unfold Core.popV; repeat (first | split | rfl | simp)
@[simp] theorem Core.popV_gsb (c : Core) (a b : Option (Fin 4)) : (c.popV a b).gsb = c.gsb := by unfold Core.popV; repeat (first | split | rfl | simp)
@[simp] theorem Core.popV_vsb (c : Core) (a b : Option (Fin 4)) : (c.popV a b).vsb = c.vsb := by unfold Core.popV; repeat (first | split | rfl | simp)
@[simp] theorem Core.popV_prog (c : Core) (a b : Option (Fin 4)) : (c.popV a b).prog = c.prog := by unfold Core.popV; repeat (first | split | rfl | simp)
@[simp] theorem Core.popV_hand (c : Core) (a b : Option (Fin 4)) : (c.popV a b).hand = c.hand := by unfold Core.popV; repeat (first | split | rfl | simp)
@[simp] theorem Core.popV_pc (c : Core) (a b : Option (Fin 4)) : (c.popV a b).pc = c.pc := by unfold Core.popV; repeat (first | split | rfl | simp)
@[simp] theorem Core.popV_hist (c : Core) (a b : Option (Fin 4)) : (c.popV a b).hist = c.hist := by unfold Core.popV; repeat (first | split | rfl | simp)
@[simp] theorem Core.popV_savedHist (c : Core) (a b : Option (Fin 4)) : (c.popV a b).savedHist = c.savedHist := by unfold Core.popV; repeat (first | split | rfl | simp)
@[simp] theorem Core.popV_fetched (c : Core) (a b : Option (Fin 4)) : (c.popV a b).fetched = c.fetched := by unfold Core.popV; repeat (first | split | rfl | simp)
@[simp] theorem Core.popV_bun (c : Core) (a b : Option (Fin 4)) : (c.popV a b).bun = c.bun := by unfold Core.popV; repeat (first | split | rfl | simp)
@[simp] theorem Core.popV_pend (c : Core) (a b : Option (Fin 4)) : (c.popV a b).pend = c.pend := by unfold Core.popV; repeat (first | split | rfl | simp)
@[simp] theorem Core.popV_reent (c : Core) (a b : Option (Fin 4)) : (c.popV a b).reent = c.reent := by unfold Core.popV; repeat (first | split | rfl | simp)
@[simp] theorem Core.popV_redir (c : Core) (a b : Option (Fin 4)) : (c.popV a b).redir = c.redir := by unfold Core.popV; repeat (first | split | rfl | simp)
@[simp] theorem Core.popV_issuing (c : Core) (a b : Option (Fin 4)) : (c.popV a b).issuing = c.issuing := by unfold Core.popV; repeat (first | split | rfl | simp)
@[simp] theorem Core.popV_slot (c : Core) (a b : Option (Fin 4)) : (c.popV a b).slot = c.slot := by unfold Core.popV; repeat (first | split | rfl | simp)
@[simp] theorem Core.popV_grpSq (c : Core) (a b : Option (Fin 4)) : (c.popV a b).grpSq = c.grpSq := by unfold Core.popV; repeat (first | split | rfl | simp)
@[simp] theorem Core.popV_grpVq (c : Core) (a b : Option (Fin 4)) : (c.popV a b).grpVq = c.grpVq := by unfold Core.popV; repeat (first | split | rfl | simp)
@[simp] theorem Core.popV_rest (c : Core) (a b : Option (Fin 4)) : (c.popV a b).rest = c.rest := by unfold Core.popV; repeat (first | split | rfl | simp)
@[simp] theorem Core.popV_defer (c : Core) (a b : Option (Fin 4)) : (c.popV a b).defer = c.defer := by unfold Core.popV; repeat (first | split | rfl | simp)
@[simp] theorem Core.popV_grpOld (c : Core) (a b : Option (Fin 4)) : (c.popV a b).grpOld = c.grpOld := by unfold Core.popV; repeat (first | split | rfl | simp)
@[simp] theorem Core.popV_grpSys (c : Core) (a b : Option (Fin 4)) : (c.popV a b).grpSys = c.grpSys := by unfold Core.popV; repeat (first | split | rfl | simp)
@[simp] theorem Core.popV_grpBanks (c : Core) (a b : Option (Fin 4)) : (c.popV a b).grpBanks = c.grpBanks := by unfold Core.popV; repeat (first | split | rfl | simp)
@[simp] theorem Core.popV_snap (c : Core) (a b : Option (Fin 4)) : (c.popV a b).snap = c.snap := by unfold Core.popV; repeat (first | split | rfl | simp)
@[simp] theorem Core.popV_grpStash (c : Core) (a b : Option (Fin 4)) : (c.popV a b).grpStash = c.grpStash := by unfold Core.popV; repeat (first | split | rfl | simp)
@[simp] theorem Core.popV_gzAsk (c : Core) (a b : Option (Fin 4)) : (c.popV a b).gzAsk = c.gzAsk := by unfold Core.popV; repeat (first | split | rfl | simp)
@[simp] theorem Core.popV_gzGrant (c : Core) (a b : Option (Fin 4)) : (c.popV a b).gzGrant = c.gzGrant := by unfold Core.popV; repeat (first | split | rfl | simp)
@[simp] theorem Core.popV_gzKeep (c : Core) (a b : Option (Fin 4)) : (c.popV a b).gzKeep = c.gzKeep := by unfold Core.popV; repeat (first | split | rfl | simp)
@[simp] theorem Core.popV_held (c : Core) (a b : Option (Fin 4)) : (c.popV a b).held = c.held := by unfold Core.popV; repeat (first | split | rfl | simp)
@[simp] theorem Core.popV_sret (c : Core) (a b : Option (Fin 4)) : (c.popV a b).sret = c.sret := by unfold Core.popV; repeat (first | split | rfl | simp)
@[simp] theorem Core.popV_wbT (c : Core) (a b : Option (Fin 4)) : (c.popV a b).wbT = c.wbT := by unfold Core.popV; repeat (first | split | rfl | simp)
@[simp] theorem Core.popV_sct (c : Core) (a b : Option (Fin 4)) : (c.popV a b).sct = c.sct := by unfold Core.popV; repeat (first | split | rfl | simp)
@[simp] theorem Core.popV_moved (c : Core) (a b : Option (Fin 4)) : (c.popV a b).moved = c.moved := by unfold Core.popV; repeat (first | split | rfl | simp)
@[simp] theorem Core.popV_tm (c : Core) (a b : Option (Fin 4)) : (c.popV a b).tm = c.tm := by unfold Core.popV; repeat (first | split | rfl | simp)
@[simp] theorem Core.popV_prd (c : Core) (a b : Option (Fin 4)) : (c.popV a b).prd = c.prd := by unfold Core.popV; repeat (first | split | rfl | simp)
@[simp] theorem Core.popV_pkind (c : Core) (a b : Option (Fin 4)) : (c.popV a b).pkind = c.pkind := by unfold Core.popV; repeat (first | split | rfl | simp)
@[simp] theorem Core.popV_rsm (c : Core) (a b : Option (Fin 4)) : (c.popV a b).rsm = c.rsm := by unfold Core.popV; repeat (first | split | rfl | simp)
@[simp] theorem Core.popV_sres (c : Core) (a b : Option (Fin 4)) : (c.popV a b).sres = c.sres := by unfold Core.popV; repeat (first | split | rfl | simp)
@[simp] theorem Core.popV_qas (c : Core) (a b : Option (Fin 4)) : (c.popV a b).qas = c.qas := by unfold Core.popV; repeat (first | split | rfl | simp)
@[simp] theorem Core.popV_qav (c : Core) (a b : Option (Fin 4)) : (c.popV a b).qav = c.qav := by unfold Core.popV; repeat (first | split | rfl | simp)
@[simp] theorem Core.popV_cause (c : Core) (a b : Option (Fin 4)) : (c.popV a b).cause = c.cause := by unfold Core.popV; repeat (first | split | rfl | simp)
@[simp] theorem Core.popV_epc (c : Core) (a b : Option (Fin 4)) : (c.popV a b).epc = c.epc := by unfold Core.popV; repeat (first | split | rfl | simp)
@[simp] theorem Core.popV_faddr (c : Core) (a b : Option (Fin 4)) : (c.popV a b).faddr = c.faddr := by unfold Core.popV; repeat (first | split | rfl | simp)
@[simp] theorem Core.popV_ptgt (c : Core) (a b : Option (Fin 4)) : (c.popV a b).ptgt = c.ptgt := by unfold Core.popV; repeat (first | split | rfl | simp)
@[simp] theorem Core.popV_sfall (c : Core) (a b : Option (Fin 4)) : (c.popV a b).sfall = c.sfall := by unfold Core.popV; repeat (first | split | rfl | simp)
@[simp] theorem Core.popV_seed (c : Core) (a b : Option (Fin 4)) : (c.popV a b).seed = c.seed := by unfold Core.popV; repeat (first | split | rfl | simp)
@[simp] theorem Core.popV_cvsat (c : Core) (a b : Option (Fin 4)) : (c.popV a b).cvsat = c.cvsat := by unfold Core.popV; repeat (first | split | rfl | simp)
@[simp] theorem Core.popV_tout (c : Core) (a b : Option (Fin 4)) : (c.popV a b).tout = c.tout := by unfold Core.popV; repeat (first | split | rfl | simp)
@[simp] theorem Core.popV_wval (c : Core) (a b : Option (Fin 4)) : (c.popV a b).wval = c.wval := by unfold Core.popV; repeat (first | split | rfl | simp)
@[simp] theorem Core.popV_wcmp (c : Core) (a b : Option (Fin 4)) : (c.popV a b).wcmp = c.wcmp := by unfold Core.popV; repeat (first | split | rfl | simp)
@[simp] theorem Core.popV_wgrn (c : Core) (a b : Option (Fin 4)) : (c.popV a b).wgrn = c.wgrn := by unfold Core.popV; repeat (first | split | rfl | simp)
@[simp] theorem Core.popV_kund (c : Core) (a b : Option (Fin 4)) : (c.popV a b).kund = c.kund := by unfold Core.popV; repeat (first | split | rfl | simp)
@[simp] theorem Core.popV_lclk (c : Core) (a b : Option (Fin 4)) : (c.popV a b).lclk = c.lclk := by unfold Core.popV; repeat (first | split | rfl | simp)
@[simp] theorem Core.popV_wdCount (c : Core) (a b : Option (Fin 4)) : (c.popV a b).wdCount = c.wdCount := by unfold Core.popV; repeat (first | split | rfl | simp)
@[simp] theorem Core.popV_wdLimit (c : Core) (a b : Option (Fin 4)) : (c.popV a b).wdLimit = c.wdLimit := by unfold Core.popV; repeat (first | split | rfl | simp)
@[simp] theorem Core.popV_wdDue (c : Core) (a b : Option (Fin 4)) : (c.popV a b).wdDue = c.wdDue := by unfold Core.popV; repeat (first | split | rfl | simp)
@[simp] theorem Core.popV_wdFrom (c : Core) (a b : Option (Fin 4)) : (c.popV a b).wdFrom = c.wdFrom := by unfold Core.popV; repeat (first | split | rfl | simp)
@[simp] theorem Core.popV_slen (c : Core) (a b : Option (Fin 4)) : (c.popV a b).slen = c.slen := by unfold Core.popV; repeat (first | split | rfl | simp)
@[simp] theorem Core.popV_spos (c : Core) (a b : Option (Fin 4)) : (c.popV a b).spos = c.spos := by unfold Core.popV; repeat (first | split | rfl | simp)
@[simp] theorem Core.popV_tvec (c : Core) (a b : Option (Fin 4)) : (c.popV a b).tvec = c.tvec := by unfold Core.popV; repeat (first | split | rfl | simp)
@[simp] theorem Core.popV_dcause (c : Core) (a b : Option (Fin 4)) : (c.popV a b).dcause = c.dcause := by unfold Core.popV; repeat (first | split | rfl | simp)
@[simp] theorem Core.popV_spFill (c : Core) (a b : Option (Fin 4)) : (c.popV a b).spFill = c.spFill := by unfold Core.popV; repeat (first | split | rfl | simp)
@[simp] theorem Core.popV_sp (c : Core) (a b : Option (Fin 4)) : (c.popV a b).sp = c.sp := by unfold Core.popV; repeat (first | split | rfl | simp)
@[simp] theorem Core.popV_tags (c : Core) (a b : Option (Fin 4)) : (c.popV a b).tags = c.tags := by unfold Core.popV; repeat (first | split | rfl | simp)
@[simp] theorem Core.popV_rs (c : Core) (a b : Option (Fin 4)) : (c.popV a b).rs = c.rs := by unfold Core.popV; repeat (first | split | rfl | simp)
@[simp] theorem Core.popV_vclk (c : Core) (a b : Option (Fin 4)) : (c.popV a b).vclk = c.vclk := by unfold Core.popV; repeat (first | split | rfl | simp)
@[simp] theorem Core.popV_barVecs (c : Core) (a b : Option (Fin 4)) : (c.popV a b).barVecs = c.barVecs := by unfold Core.popV; repeat (first | split | rfl | simp)
@[simp] theorem Core.popV_barArrs (c : Core) (a b : Option (Fin 4)) : (c.popV a b).barArrs = c.barArrs := by unfold Core.popV; repeat (first | split | rfl | simp)
@[simp] theorem Core.popV_ob (c : Core) (a b : Option (Fin 4)) : (c.popV a b).ob = c.ob := by unfold Core.popV; repeat (first | split | rfl | simp)
@[simp] theorem Core.popV_ac (c : Core) (a b : Option (Fin 4)) : (c.popV a b).ac = c.ac := by unfold Core.popV; repeat (first | split | rfl | simp)
@[simp] theorem Core.popV_mmas (c : Core) (a b : Option (Fin 4)) : (c.popV a b).mmas = c.mmas := by unfold Core.popV; repeat (first | split | rfl | simp)
@[simp] theorem Core.popV_lastMma (c : Core) (a b : Option (Fin 4)) : (c.popV a b).lastMma = c.lastMma := by unfold Core.popV; repeat (first | split | rfl | simp)
@[simp] theorem Core.popV_k (c : Core) (a b : Option (Fin 4)) : (c.popV a b).k = c.k := by unfold Core.popV; repeat (first | split | rfl | simp)
@[simp] theorem Core.popV_kclk (c : Core) (a b : Option (Fin 4)) : (c.popV a b).kclk = c.kclk := by unfold Core.popV; repeat (first | split | rfl | simp)
@[simp] theorem Core.popV_e0 (c : Core) (a b : Option (Fin 4)) : (c.popV a b).e0 = c.e0 := by unfold Core.popV; repeat (first | split | rfl | simp)
@[simp] theorem Core.popV_e1 (c : Core) (a b : Option (Fin 4)) : (c.popV a b).e1 = c.e1 := by unfold Core.popV; repeat (first | split | rfl | simp)
@[simp] theorem Core.popV_cbs (c : Core) (a b : Option (Fin 4)) : (c.popV a b).cbs = c.cbs := by unfold Core.popV; repeat (first | split | rfl | simp)
@[simp] theorem Core.popV_binds (c : Core) (a b : Option (Fin 4)) : (c.popV a b).binds = c.binds := by unfold Core.popV; repeat (first | split | rfl | simp)
@[simp] theorem Core.popV_wcs (c : Core) (a b : Option (Fin 4)) : (c.popV a b).wcs = c.wcs := by unfold Core.popV; repeat (first | split | rfl | simp)
@[simp] theorem Core.popV_wakeq (c : Core) (a b : Option (Fin 4)) : (c.popV a b).wakeq = c.wakeq := by unfold Core.popV; repeat (first | split | rfl | simp)
@[simp] theorem Core.popV_stash (c : Core) (a b : Option (Fin 4)) : (c.popV a b).stash = c.stash := by unfold Core.popV; repeat (first | split | rfl | simp)
@[simp] theorem Core.popV_chq (c : Core) (a b : Option (Fin 4)) : (c.popV a b).chq = c.chq := by unfold Core.popV; repeat (first | split | rfl | simp)
@[simp] theorem Core.popV_recvs (c : Core) (a b : Option (Fin 4)) : (c.popV a b).recvs = c.recvs := by unfold Core.popV; repeat (first | split | rfl | simp)
@[simp] theorem Core.popV_colFaults (c : Core) (a b : Option (Fin 4)) : (c.popV a b).colFaults = c.colFaults := by unfold Core.popV; repeat (first | split | rfl | simp)
@[simp] theorem Core.popV_nft (c : Core) (a b : Option (Fin 4)) : (c.popV a b).nft = c.nft := by unfold Core.popV; repeat (first | split | rfl | simp)
@[simp] theorem Core.popV_sched (c : Core) (a b : Option (Fin 4)) : (c.popV a b).sched = c.sched := by unfold Core.popV; repeat (first | split | rfl | simp)
@[simp] theorem Core.popV_tlb (c : Core) (a b : Option (Fin 4)) : (c.popV a b).tlb = c.tlb := by unfold Core.popV; repeat (first | split | rfl | simp)
@[simp] theorem Core.popV_etlb0 (c : Core) (a b : Option (Fin 4)) : (c.popV a b).etlb0 = c.etlb0 := by unfold Core.popV; repeat (first | split | rfl | simp)
@[simp] theorem Core.popV_etlb1 (c : Core) (a b : Option (Fin 4)) : (c.popV a b).etlb1 = c.etlb1 := by unfold Core.popV; repeat (first | split | rfl | simp)
@[simp] theorem Core.popV_wflt (c : Core) (a b : Option (Fin 4)) : (c.popV a b).wflt = c.wflt := by unfold Core.popV; repeat (first | split | rfl | simp)
@[simp] theorem Core.popV_cal (c : Core) (a b : Option (Fin 4)) : (c.popV a b).cal = c.cal := by unfold Core.popV; repeat (first | split | rfl | simp)
@[simp] theorem Core.popV_flights (c : Core) (a b : Option (Fin 4)) : (c.popV a b).flights = c.flights := by unfold Core.popV; repeat (first | split | rfl | simp)
@[simp] theorem Core.popV_mesh (c : Core) (a b : Option (Fin 4)) : (c.popV a b).mesh = c.mesh := by unfold Core.popV; repeat (first | split | rfl | simp)
@[simp] theorem Core.popV_token (c : Core) (a b : Option (Fin 4)) : (c.popV a b).token = c.token := by unfold Core.popV; repeat (first | split | rfl | simp)
@[simp] theorem Core.popV_regUe (c : Core) (a b : Option (Fin 4)) : (c.popV a b).regUe = c.regUe := by unfold Core.popV; repeat (first | split | rfl | simp)
@[simp] theorem Core.pushSq_run (c : Core) (n : Nat) (v : Word) : (c.pushSq n v).run = c.run := by simp [Core.pushSq]
@[simp] theorem Core.pushSq_team (c : Core) (n : Nat) (v : Word) : (c.pushSq n v).team = c.team := by simp [Core.pushSq]
@[simp] theorem Core.pushSq_was (c : Core) (n : Nat) (v : Word) : (c.pushSq n v).was = c.was := by simp [Core.pushSq]
@[simp] theorem Core.pushSq_cyc (c : Core) (n : Nat) (v : Word) : (c.pushSq n v).cyc = c.cyc := by simp [Core.pushSq]
@[simp] theorem Core.pushSq_g (c : Core) (n : Nat) (v : Word) : (c.pushSq n v).g = c.g := by simp [Core.pushSq]
@[simp] theorem Core.pushSq_v (c : Core) (n : Nat) (v : Word) : (c.pushSq n v).v = c.v := by simp [Core.pushSq]
@[simp] theorem Core.pushSq_p (c : Core) (n : Nat) (v : Word) : (c.pushSq n v).p = c.p := by simp [Core.pushSq]
@[simp] theorem Core.pushSq_gsb (c : Core) (n : Nat) (v : Word) : (c.pushSq n v).gsb = c.gsb := by simp [Core.pushSq]
@[simp] theorem Core.pushSq_vsb (c : Core) (n : Nat) (v : Word) : (c.pushSq n v).vsb = c.vsb := by simp [Core.pushSq]
@[simp] theorem Core.pushSq_pc (c : Core) (n : Nat) (v : Word) : (c.pushSq n v).pc = c.pc := by simp [Core.pushSq]
@[simp] theorem Core.pushSq_hist (c : Core) (n : Nat) (v : Word) : (c.pushSq n v).hist = c.hist := by simp [Core.pushSq]
@[simp] theorem Core.pushSq_savedHist (c : Core) (n : Nat) (v : Word) : (c.pushSq n v).savedHist = c.savedHist := by simp [Core.pushSq]
@[simp] theorem Core.pushSq_fetched (c : Core) (n : Nat) (v : Word) : (c.pushSq n v).fetched = c.fetched := by simp [Core.pushSq]
@[simp] theorem Core.pushSq_bun (c : Core) (n : Nat) (v : Word) : (c.pushSq n v).bun = c.bun := by simp [Core.pushSq]
@[simp] theorem Core.pushSq_pend (c : Core) (n : Nat) (v : Word) : (c.pushSq n v).pend = c.pend := by simp [Core.pushSq]
@[simp] theorem Core.pushSq_reent (c : Core) (n : Nat) (v : Word) : (c.pushSq n v).reent = c.reent := by simp [Core.pushSq]
@[simp] theorem Core.pushSq_redir (c : Core) (n : Nat) (v : Word) : (c.pushSq n v).redir = c.redir := by simp [Core.pushSq]
@[simp] theorem Core.pushSq_issuing (c : Core) (n : Nat) (v : Word) : (c.pushSq n v).issuing = c.issuing := by simp [Core.pushSq]
@[simp] theorem Core.pushSq_slot (c : Core) (n : Nat) (v : Word) : (c.pushSq n v).slot = c.slot := by simp [Core.pushSq]
@[simp] theorem Core.pushSq_grpVq (c : Core) (n : Nat) (v : Word) : (c.pushSq n v).grpVq = c.grpVq := by simp [Core.pushSq]
@[simp] theorem Core.pushSq_rest (c : Core) (n : Nat) (v : Word) : (c.pushSq n v).rest = c.rest := by simp [Core.pushSq]
@[simp] theorem Core.pushSq_defer (c : Core) (n : Nat) (v : Word) : (c.pushSq n v).defer = c.defer := by simp [Core.pushSq]
@[simp] theorem Core.pushSq_grpOld (c : Core) (n : Nat) (v : Word) : (c.pushSq n v).grpOld = c.grpOld := by simp [Core.pushSq]
@[simp] theorem Core.pushSq_grpSys (c : Core) (n : Nat) (v : Word) : (c.pushSq n v).grpSys = c.grpSys := by simp [Core.pushSq]
@[simp] theorem Core.pushSq_grpBanks (c : Core) (n : Nat) (v : Word) : (c.pushSq n v).grpBanks = c.grpBanks := by simp [Core.pushSq]
@[simp] theorem Core.pushSq_snap (c : Core) (n : Nat) (v : Word) : (c.pushSq n v).snap = c.snap := by simp [Core.pushSq]
@[simp] theorem Core.pushSq_grpStash (c : Core) (n : Nat) (v : Word) : (c.pushSq n v).grpStash = c.grpStash := by simp [Core.pushSq]
@[simp] theorem Core.pushSq_gzAsk (c : Core) (n : Nat) (v : Word) : (c.pushSq n v).gzAsk = c.gzAsk := by simp [Core.pushSq]
@[simp] theorem Core.pushSq_gzGrant (c : Core) (n : Nat) (v : Word) : (c.pushSq n v).gzGrant = c.gzGrant := by simp [Core.pushSq]
@[simp] theorem Core.pushSq_gzKeep (c : Core) (n : Nat) (v : Word) : (c.pushSq n v).gzKeep = c.gzKeep := by simp [Core.pushSq]
@[simp] theorem Core.pushSq_held (c : Core) (n : Nat) (v : Word) : (c.pushSq n v).held = c.held := by simp [Core.pushSq]
@[simp] theorem Core.pushSq_sret (c : Core) (n : Nat) (v : Word) : (c.pushSq n v).sret = c.sret := by simp [Core.pushSq]
@[simp] theorem Core.pushSq_wbT (c : Core) (n : Nat) (v : Word) : (c.pushSq n v).wbT = c.wbT := by simp [Core.pushSq]
@[simp] theorem Core.pushSq_sct (c : Core) (n : Nat) (v : Word) : (c.pushSq n v).sct = c.sct := by simp [Core.pushSq]
@[simp] theorem Core.pushSq_moved (c : Core) (n : Nat) (v : Word) : (c.pushSq n v).moved = c.moved := by simp [Core.pushSq]
@[simp] theorem Core.pushSq_tm (c : Core) (n : Nat) (v : Word) : (c.pushSq n v).tm = c.tm := by simp [Core.pushSq]
@[simp] theorem Core.pushSq_prd (c : Core) (n : Nat) (v : Word) : (c.pushSq n v).prd = c.prd := by simp [Core.pushSq]
@[simp] theorem Core.pushSq_pkind (c : Core) (n : Nat) (v : Word) : (c.pushSq n v).pkind = c.pkind := by simp [Core.pushSq]
@[simp] theorem Core.pushSq_rsm (c : Core) (n : Nat) (v : Word) : (c.pushSq n v).rsm = c.rsm := by simp [Core.pushSq]
@[simp] theorem Core.pushSq_sres (c : Core) (n : Nat) (v : Word) : (c.pushSq n v).sres = c.sres := by simp [Core.pushSq]
@[simp] theorem Core.pushSq_qas (c : Core) (n : Nat) (v : Word) : (c.pushSq n v).qas = c.qas := by simp [Core.pushSq]
@[simp] theorem Core.pushSq_qav (c : Core) (n : Nat) (v : Word) : (c.pushSq n v).qav = c.qav := by simp [Core.pushSq]
@[simp] theorem Core.pushSq_cause (c : Core) (n : Nat) (v : Word) : (c.pushSq n v).cause = c.cause := by simp [Core.pushSq]
@[simp] theorem Core.pushSq_epc (c : Core) (n : Nat) (v : Word) : (c.pushSq n v).epc = c.epc := by simp [Core.pushSq]
@[simp] theorem Core.pushSq_faddr (c : Core) (n : Nat) (v : Word) : (c.pushSq n v).faddr = c.faddr := by simp [Core.pushSq]
@[simp] theorem Core.pushSq_ptgt (c : Core) (n : Nat) (v : Word) : (c.pushSq n v).ptgt = c.ptgt := by simp [Core.pushSq]
@[simp] theorem Core.pushSq_sfall (c : Core) (n : Nat) (v : Word) : (c.pushSq n v).sfall = c.sfall := by simp [Core.pushSq]
@[simp] theorem Core.pushSq_seed (c : Core) (n : Nat) (v : Word) : (c.pushSq n v).seed = c.seed := by simp [Core.pushSq]
@[simp] theorem Core.pushSq_cvsat (c : Core) (n : Nat) (v : Word) : (c.pushSq n v).cvsat = c.cvsat := by simp [Core.pushSq]
@[simp] theorem Core.pushSq_tout (c : Core) (n : Nat) (v : Word) : (c.pushSq n v).tout = c.tout := by simp [Core.pushSq]
@[simp] theorem Core.pushSq_wval (c : Core) (n : Nat) (v : Word) : (c.pushSq n v).wval = c.wval := by simp [Core.pushSq]
@[simp] theorem Core.pushSq_wcmp (c : Core) (n : Nat) (v : Word) : (c.pushSq n v).wcmp = c.wcmp := by simp [Core.pushSq]
@[simp] theorem Core.pushSq_wgrn (c : Core) (n : Nat) (v : Word) : (c.pushSq n v).wgrn = c.wgrn := by simp [Core.pushSq]
@[simp] theorem Core.pushSq_kund (c : Core) (n : Nat) (v : Word) : (c.pushSq n v).kund = c.kund := by simp [Core.pushSq]
@[simp] theorem Core.pushSq_lclk (c : Core) (n : Nat) (v : Word) : (c.pushSq n v).lclk = c.lclk := by simp [Core.pushSq]
@[simp] theorem Core.pushSq_wdCount (c : Core) (n : Nat) (v : Word) : (c.pushSq n v).wdCount = c.wdCount := by simp [Core.pushSq]
@[simp] theorem Core.pushSq_wdLimit (c : Core) (n : Nat) (v : Word) : (c.pushSq n v).wdLimit = c.wdLimit := by simp [Core.pushSq]
@[simp] theorem Core.pushSq_wdDue (c : Core) (n : Nat) (v : Word) : (c.pushSq n v).wdDue = c.wdDue := by simp [Core.pushSq]
@[simp] theorem Core.pushSq_wdFrom (c : Core) (n : Nat) (v : Word) : (c.pushSq n v).wdFrom = c.wdFrom := by simp [Core.pushSq]
@[simp] theorem Core.pushSq_slen (c : Core) (n : Nat) (v : Word) : (c.pushSq n v).slen = c.slen := by simp [Core.pushSq]
@[simp] theorem Core.pushSq_spos (c : Core) (n : Nat) (v : Word) : (c.pushSq n v).spos = c.spos := by simp [Core.pushSq]
@[simp] theorem Core.pushSq_tvec (c : Core) (n : Nat) (v : Word) : (c.pushSq n v).tvec = c.tvec := by simp [Core.pushSq]
@[simp] theorem Core.pushSq_dcause (c : Core) (n : Nat) (v : Word) : (c.pushSq n v).dcause = c.dcause := by simp [Core.pushSq]
@[simp] theorem Core.pushSq_spFill (c : Core) (n : Nat) (v : Word) : (c.pushSq n v).spFill = c.spFill := by simp [Core.pushSq]
@[simp] theorem Core.pushSq_sp (c : Core) (n : Nat) (v : Word) : (c.pushSq n v).sp = c.sp := by simp [Core.pushSq]
@[simp] theorem Core.pushSq_tags (c : Core) (n : Nat) (v : Word) : (c.pushSq n v).tags = c.tags := by simp [Core.pushSq]
@[simp] theorem Core.pushSq_rs (c : Core) (n : Nat) (v : Word) : (c.pushSq n v).rs = c.rs := by simp [Core.pushSq]
@[simp] theorem Core.pushSq_vclk (c : Core) (n : Nat) (v : Word) : (c.pushSq n v).vclk = c.vclk := by simp [Core.pushSq]
@[simp] theorem Core.pushSq_barVecs (c : Core) (n : Nat) (v : Word) : (c.pushSq n v).barVecs = c.barVecs := by simp [Core.pushSq]
@[simp] theorem Core.pushSq_barArrs (c : Core) (n : Nat) (v : Word) : (c.pushSq n v).barArrs = c.barArrs := by simp [Core.pushSq]
@[simp] theorem Core.pushSq_ob (c : Core) (n : Nat) (v : Word) : (c.pushSq n v).ob = c.ob := by simp [Core.pushSq]
@[simp] theorem Core.pushSq_ac (c : Core) (n : Nat) (v : Word) : (c.pushSq n v).ac = c.ac := by simp [Core.pushSq]
@[simp] theorem Core.pushSq_mmas (c : Core) (n : Nat) (v : Word) : (c.pushSq n v).mmas = c.mmas := by simp [Core.pushSq]
@[simp] theorem Core.pushSq_lastMma (c : Core) (n : Nat) (v : Word) : (c.pushSq n v).lastMma = c.lastMma := by simp [Core.pushSq]
@[simp] theorem Core.pushSq_tqs (c : Core) (n : Nat) (v : Word) : (c.pushSq n v).tqs = c.tqs := by simp [Core.pushSq]
@[simp] theorem Core.pushSq_k (c : Core) (n : Nat) (v : Word) : (c.pushSq n v).k = c.k := by simp [Core.pushSq]
@[simp] theorem Core.pushSq_kclk (c : Core) (n : Nat) (v : Word) : (c.pushSq n v).kclk = c.kclk := by simp [Core.pushSq]
@[simp] theorem Core.pushSq_e0 (c : Core) (n : Nat) (v : Word) : (c.pushSq n v).e0 = c.e0 := by simp [Core.pushSq]
@[simp] theorem Core.pushSq_e1 (c : Core) (n : Nat) (v : Word) : (c.pushSq n v).e1 = c.e1 := by simp [Core.pushSq]
@[simp] theorem Core.pushSq_cbs (c : Core) (n : Nat) (v : Word) : (c.pushSq n v).cbs = c.cbs := by simp [Core.pushSq]
@[simp] theorem Core.pushSq_binds (c : Core) (n : Nat) (v : Word) : (c.pushSq n v).binds = c.binds := by simp [Core.pushSq]
@[simp] theorem Core.pushSq_wcs (c : Core) (n : Nat) (v : Word) : (c.pushSq n v).wcs = c.wcs := by simp [Core.pushSq]
@[simp] theorem Core.pushSq_wakeq (c : Core) (n : Nat) (v : Word) : (c.pushSq n v).wakeq = c.wakeq := by simp [Core.pushSq]
@[simp] theorem Core.pushSq_stash (c : Core) (n : Nat) (v : Word) : (c.pushSq n v).stash = c.stash := by simp [Core.pushSq]
@[simp] theorem Core.pushSq_chq (c : Core) (n : Nat) (v : Word) : (c.pushSq n v).chq = c.chq := by simp [Core.pushSq]
@[simp] theorem Core.pushSq_recvs (c : Core) (n : Nat) (v : Word) : (c.pushSq n v).recvs = c.recvs := by simp [Core.pushSq]
@[simp] theorem Core.pushSq_colFaults (c : Core) (n : Nat) (v : Word) : (c.pushSq n v).colFaults = c.colFaults := by simp [Core.pushSq]
@[simp] theorem Core.pushSq_nft (c : Core) (n : Nat) (v : Word) : (c.pushSq n v).nft = c.nft := by simp [Core.pushSq]
@[simp] theorem Core.pushSq_sched (c : Core) (n : Nat) (v : Word) : (c.pushSq n v).sched = c.sched := by simp [Core.pushSq]
@[simp] theorem Core.pushSq_tlb (c : Core) (n : Nat) (v : Word) : (c.pushSq n v).tlb = c.tlb := by simp [Core.pushSq]
@[simp] theorem Core.pushSq_etlb0 (c : Core) (n : Nat) (v : Word) : (c.pushSq n v).etlb0 = c.etlb0 := by simp [Core.pushSq]
@[simp] theorem Core.pushSq_etlb1 (c : Core) (n : Nat) (v : Word) : (c.pushSq n v).etlb1 = c.etlb1 := by simp [Core.pushSq]
@[simp] theorem Core.pushSq_wflt (c : Core) (n : Nat) (v : Word) : (c.pushSq n v).wflt = c.wflt := by simp [Core.pushSq]
@[simp] theorem Core.pushSq_flights (c : Core) (n : Nat) (v : Word) : (c.pushSq n v).flights = c.flights := by simp [Core.pushSq]
@[simp] theorem Core.pushSq_mesh (c : Core) (n : Nat) (v : Word) : (c.pushSq n v).mesh = c.mesh := by simp [Core.pushSq]
@[simp] theorem Core.pushSq_token (c : Core) (n : Nat) (v : Word) : (c.pushSq n v).token = c.token := by simp [Core.pushSq]
@[simp] theorem Core.pushSq_regUe (c : Core) (n : Nat) (v : Word) : (c.pushSq n v).regUe = c.regUe := by simp [Core.pushSq]
@[simp] theorem Core.pushVq_run (c : Core) (n : Nat) (v : Vec) : (c.pushVq n v).run = c.run := by simp [Core.pushVq]
@[simp] theorem Core.pushVq_team (c : Core) (n : Nat) (v : Vec) : (c.pushVq n v).team = c.team := by simp [Core.pushVq]
@[simp] theorem Core.pushVq_was (c : Core) (n : Nat) (v : Vec) : (c.pushVq n v).was = c.was := by simp [Core.pushVq]
@[simp] theorem Core.pushVq_cyc (c : Core) (n : Nat) (v : Vec) : (c.pushVq n v).cyc = c.cyc := by simp [Core.pushVq]
@[simp] theorem Core.pushVq_g (c : Core) (n : Nat) (v : Vec) : (c.pushVq n v).g = c.g := by simp [Core.pushVq]
@[simp] theorem Core.pushVq_v (c : Core) (n : Nat) (v : Vec) : (c.pushVq n v).v = c.v := by simp [Core.pushVq]
@[simp] theorem Core.pushVq_p (c : Core) (n : Nat) (v : Vec) : (c.pushVq n v).p = c.p := by simp [Core.pushVq]
@[simp] theorem Core.pushVq_gsb (c : Core) (n : Nat) (v : Vec) : (c.pushVq n v).gsb = c.gsb := by simp [Core.pushVq]
@[simp] theorem Core.pushVq_vsb (c : Core) (n : Nat) (v : Vec) : (c.pushVq n v).vsb = c.vsb := by simp [Core.pushVq]
@[simp] theorem Core.pushVq_pc (c : Core) (n : Nat) (v : Vec) : (c.pushVq n v).pc = c.pc := by simp [Core.pushVq]
@[simp] theorem Core.pushVq_hist (c : Core) (n : Nat) (v : Vec) : (c.pushVq n v).hist = c.hist := by simp [Core.pushVq]
@[simp] theorem Core.pushVq_savedHist (c : Core) (n : Nat) (v : Vec) : (c.pushVq n v).savedHist = c.savedHist := by simp [Core.pushVq]
@[simp] theorem Core.pushVq_fetched (c : Core) (n : Nat) (v : Vec) : (c.pushVq n v).fetched = c.fetched := by simp [Core.pushVq]
@[simp] theorem Core.pushVq_bun (c : Core) (n : Nat) (v : Vec) : (c.pushVq n v).bun = c.bun := by simp [Core.pushVq]
@[simp] theorem Core.pushVq_pend (c : Core) (n : Nat) (v : Vec) : (c.pushVq n v).pend = c.pend := by simp [Core.pushVq]
@[simp] theorem Core.pushVq_reent (c : Core) (n : Nat) (v : Vec) : (c.pushVq n v).reent = c.reent := by simp [Core.pushVq]
@[simp] theorem Core.pushVq_redir (c : Core) (n : Nat) (v : Vec) : (c.pushVq n v).redir = c.redir := by simp [Core.pushVq]
@[simp] theorem Core.pushVq_issuing (c : Core) (n : Nat) (v : Vec) : (c.pushVq n v).issuing = c.issuing := by simp [Core.pushVq]
@[simp] theorem Core.pushVq_slot (c : Core) (n : Nat) (v : Vec) : (c.pushVq n v).slot = c.slot := by simp [Core.pushVq]
@[simp] theorem Core.pushVq_grpSq (c : Core) (n : Nat) (v : Vec) : (c.pushVq n v).grpSq = c.grpSq := by simp [Core.pushVq]
@[simp] theorem Core.pushVq_rest (c : Core) (n : Nat) (v : Vec) : (c.pushVq n v).rest = c.rest := by simp [Core.pushVq]
@[simp] theorem Core.pushVq_defer (c : Core) (n : Nat) (v : Vec) : (c.pushVq n v).defer = c.defer := by simp [Core.pushVq]
@[simp] theorem Core.pushVq_grpOld (c : Core) (n : Nat) (v : Vec) : (c.pushVq n v).grpOld = c.grpOld := by simp [Core.pushVq]
@[simp] theorem Core.pushVq_grpSys (c : Core) (n : Nat) (v : Vec) : (c.pushVq n v).grpSys = c.grpSys := by simp [Core.pushVq]
@[simp] theorem Core.pushVq_grpBanks (c : Core) (n : Nat) (v : Vec) : (c.pushVq n v).grpBanks = c.grpBanks := by simp [Core.pushVq]
@[simp] theorem Core.pushVq_snap (c : Core) (n : Nat) (v : Vec) : (c.pushVq n v).snap = c.snap := by simp [Core.pushVq]
@[simp] theorem Core.pushVq_grpStash (c : Core) (n : Nat) (v : Vec) : (c.pushVq n v).grpStash = c.grpStash := by simp [Core.pushVq]
@[simp] theorem Core.pushVq_gzAsk (c : Core) (n : Nat) (v : Vec) : (c.pushVq n v).gzAsk = c.gzAsk := by simp [Core.pushVq]
@[simp] theorem Core.pushVq_gzGrant (c : Core) (n : Nat) (v : Vec) : (c.pushVq n v).gzGrant = c.gzGrant := by simp [Core.pushVq]
@[simp] theorem Core.pushVq_gzKeep (c : Core) (n : Nat) (v : Vec) : (c.pushVq n v).gzKeep = c.gzKeep := by simp [Core.pushVq]
@[simp] theorem Core.pushVq_held (c : Core) (n : Nat) (v : Vec) : (c.pushVq n v).held = c.held := by simp [Core.pushVq]
@[simp] theorem Core.pushVq_sret (c : Core) (n : Nat) (v : Vec) : (c.pushVq n v).sret = c.sret := by simp [Core.pushVq]
@[simp] theorem Core.pushVq_wbT (c : Core) (n : Nat) (v : Vec) : (c.pushVq n v).wbT = c.wbT := by simp [Core.pushVq]
@[simp] theorem Core.pushVq_sct (c : Core) (n : Nat) (v : Vec) : (c.pushVq n v).sct = c.sct := by simp [Core.pushVq]
@[simp] theorem Core.pushVq_moved (c : Core) (n : Nat) (v : Vec) : (c.pushVq n v).moved = c.moved := by simp [Core.pushVq]
@[simp] theorem Core.pushVq_tm (c : Core) (n : Nat) (v : Vec) : (c.pushVq n v).tm = c.tm := by simp [Core.pushVq]
@[simp] theorem Core.pushVq_prd (c : Core) (n : Nat) (v : Vec) : (c.pushVq n v).prd = c.prd := by simp [Core.pushVq]
@[simp] theorem Core.pushVq_pkind (c : Core) (n : Nat) (v : Vec) : (c.pushVq n v).pkind = c.pkind := by simp [Core.pushVq]
@[simp] theorem Core.pushVq_rsm (c : Core) (n : Nat) (v : Vec) : (c.pushVq n v).rsm = c.rsm := by simp [Core.pushVq]
@[simp] theorem Core.pushVq_sres (c : Core) (n : Nat) (v : Vec) : (c.pushVq n v).sres = c.sres := by simp [Core.pushVq]
@[simp] theorem Core.pushVq_qas (c : Core) (n : Nat) (v : Vec) : (c.pushVq n v).qas = c.qas := by simp [Core.pushVq]
@[simp] theorem Core.pushVq_qav (c : Core) (n : Nat) (v : Vec) : (c.pushVq n v).qav = c.qav := by simp [Core.pushVq]
@[simp] theorem Core.pushVq_cause (c : Core) (n : Nat) (v : Vec) : (c.pushVq n v).cause = c.cause := by simp [Core.pushVq]
@[simp] theorem Core.pushVq_epc (c : Core) (n : Nat) (v : Vec) : (c.pushVq n v).epc = c.epc := by simp [Core.pushVq]
@[simp] theorem Core.pushVq_faddr (c : Core) (n : Nat) (v : Vec) : (c.pushVq n v).faddr = c.faddr := by simp [Core.pushVq]
@[simp] theorem Core.pushVq_ptgt (c : Core) (n : Nat) (v : Vec) : (c.pushVq n v).ptgt = c.ptgt := by simp [Core.pushVq]
@[simp] theorem Core.pushVq_sfall (c : Core) (n : Nat) (v : Vec) : (c.pushVq n v).sfall = c.sfall := by simp [Core.pushVq]
@[simp] theorem Core.pushVq_seed (c : Core) (n : Nat) (v : Vec) : (c.pushVq n v).seed = c.seed := by simp [Core.pushVq]
@[simp] theorem Core.pushVq_cvsat (c : Core) (n : Nat) (v : Vec) : (c.pushVq n v).cvsat = c.cvsat := by simp [Core.pushVq]
@[simp] theorem Core.pushVq_tout (c : Core) (n : Nat) (v : Vec) : (c.pushVq n v).tout = c.tout := by simp [Core.pushVq]
@[simp] theorem Core.pushVq_wval (c : Core) (n : Nat) (v : Vec) : (c.pushVq n v).wval = c.wval := by simp [Core.pushVq]
@[simp] theorem Core.pushVq_wcmp (c : Core) (n : Nat) (v : Vec) : (c.pushVq n v).wcmp = c.wcmp := by simp [Core.pushVq]
@[simp] theorem Core.pushVq_wgrn (c : Core) (n : Nat) (v : Vec) : (c.pushVq n v).wgrn = c.wgrn := by simp [Core.pushVq]
@[simp] theorem Core.pushVq_kund (c : Core) (n : Nat) (v : Vec) : (c.pushVq n v).kund = c.kund := by simp [Core.pushVq]
@[simp] theorem Core.pushVq_lclk (c : Core) (n : Nat) (v : Vec) : (c.pushVq n v).lclk = c.lclk := by simp [Core.pushVq]
@[simp] theorem Core.pushVq_wdCount (c : Core) (n : Nat) (v : Vec) : (c.pushVq n v).wdCount = c.wdCount := by simp [Core.pushVq]
@[simp] theorem Core.pushVq_wdLimit (c : Core) (n : Nat) (v : Vec) : (c.pushVq n v).wdLimit = c.wdLimit := by simp [Core.pushVq]
@[simp] theorem Core.pushVq_wdDue (c : Core) (n : Nat) (v : Vec) : (c.pushVq n v).wdDue = c.wdDue := by simp [Core.pushVq]
@[simp] theorem Core.pushVq_wdFrom (c : Core) (n : Nat) (v : Vec) : (c.pushVq n v).wdFrom = c.wdFrom := by simp [Core.pushVq]
@[simp] theorem Core.pushVq_slen (c : Core) (n : Nat) (v : Vec) : (c.pushVq n v).slen = c.slen := by simp [Core.pushVq]
@[simp] theorem Core.pushVq_spos (c : Core) (n : Nat) (v : Vec) : (c.pushVq n v).spos = c.spos := by simp [Core.pushVq]
@[simp] theorem Core.pushVq_tvec (c : Core) (n : Nat) (v : Vec) : (c.pushVq n v).tvec = c.tvec := by simp [Core.pushVq]
@[simp] theorem Core.pushVq_dcause (c : Core) (n : Nat) (v : Vec) : (c.pushVq n v).dcause = c.dcause := by simp [Core.pushVq]
@[simp] theorem Core.pushVq_spFill (c : Core) (n : Nat) (v : Vec) : (c.pushVq n v).spFill = c.spFill := by simp [Core.pushVq]
@[simp] theorem Core.pushVq_sp (c : Core) (n : Nat) (v : Vec) : (c.pushVq n v).sp = c.sp := by simp [Core.pushVq]
@[simp] theorem Core.pushVq_tags (c : Core) (n : Nat) (v : Vec) : (c.pushVq n v).tags = c.tags := by simp [Core.pushVq]
@[simp] theorem Core.pushVq_rs (c : Core) (n : Nat) (v : Vec) : (c.pushVq n v).rs = c.rs := by simp [Core.pushVq]
@[simp] theorem Core.pushVq_vclk (c : Core) (n : Nat) (v : Vec) : (c.pushVq n v).vclk = c.vclk := by simp [Core.pushVq]
@[simp] theorem Core.pushVq_barVecs (c : Core) (n : Nat) (v : Vec) : (c.pushVq n v).barVecs = c.barVecs := by simp [Core.pushVq]
@[simp] theorem Core.pushVq_barArrs (c : Core) (n : Nat) (v : Vec) : (c.pushVq n v).barArrs = c.barArrs := by simp [Core.pushVq]
@[simp] theorem Core.pushVq_ob (c : Core) (n : Nat) (v : Vec) : (c.pushVq n v).ob = c.ob := by simp [Core.pushVq]
@[simp] theorem Core.pushVq_ac (c : Core) (n : Nat) (v : Vec) : (c.pushVq n v).ac = c.ac := by simp [Core.pushVq]
@[simp] theorem Core.pushVq_mmas (c : Core) (n : Nat) (v : Vec) : (c.pushVq n v).mmas = c.mmas := by simp [Core.pushVq]
@[simp] theorem Core.pushVq_lastMma (c : Core) (n : Nat) (v : Vec) : (c.pushVq n v).lastMma = c.lastMma := by simp [Core.pushVq]
@[simp] theorem Core.pushVq_tqs (c : Core) (n : Nat) (v : Vec) : (c.pushVq n v).tqs = c.tqs := by simp [Core.pushVq]
@[simp] theorem Core.pushVq_k (c : Core) (n : Nat) (v : Vec) : (c.pushVq n v).k = c.k := by simp [Core.pushVq]
@[simp] theorem Core.pushVq_kclk (c : Core) (n : Nat) (v : Vec) : (c.pushVq n v).kclk = c.kclk := by simp [Core.pushVq]
@[simp] theorem Core.pushVq_e0 (c : Core) (n : Nat) (v : Vec) : (c.pushVq n v).e0 = c.e0 := by simp [Core.pushVq]
@[simp] theorem Core.pushVq_e1 (c : Core) (n : Nat) (v : Vec) : (c.pushVq n v).e1 = c.e1 := by simp [Core.pushVq]
@[simp] theorem Core.pushVq_cbs (c : Core) (n : Nat) (v : Vec) : (c.pushVq n v).cbs = c.cbs := by simp [Core.pushVq]
@[simp] theorem Core.pushVq_binds (c : Core) (n : Nat) (v : Vec) : (c.pushVq n v).binds = c.binds := by simp [Core.pushVq]
@[simp] theorem Core.pushVq_wcs (c : Core) (n : Nat) (v : Vec) : (c.pushVq n v).wcs = c.wcs := by simp [Core.pushVq]
@[simp] theorem Core.pushVq_wakeq (c : Core) (n : Nat) (v : Vec) : (c.pushVq n v).wakeq = c.wakeq := by simp [Core.pushVq]
@[simp] theorem Core.pushVq_stash (c : Core) (n : Nat) (v : Vec) : (c.pushVq n v).stash = c.stash := by simp [Core.pushVq]
@[simp] theorem Core.pushVq_chq (c : Core) (n : Nat) (v : Vec) : (c.pushVq n v).chq = c.chq := by simp [Core.pushVq]
@[simp] theorem Core.pushVq_recvs (c : Core) (n : Nat) (v : Vec) : (c.pushVq n v).recvs = c.recvs := by simp [Core.pushVq]
@[simp] theorem Core.pushVq_colFaults (c : Core) (n : Nat) (v : Vec) : (c.pushVq n v).colFaults = c.colFaults := by simp [Core.pushVq]
@[simp] theorem Core.pushVq_nft (c : Core) (n : Nat) (v : Vec) : (c.pushVq n v).nft = c.nft := by simp [Core.pushVq]
@[simp] theorem Core.pushVq_sched (c : Core) (n : Nat) (v : Vec) : (c.pushVq n v).sched = c.sched := by simp [Core.pushVq]
@[simp] theorem Core.pushVq_tlb (c : Core) (n : Nat) (v : Vec) : (c.pushVq n v).tlb = c.tlb := by simp [Core.pushVq]
@[simp] theorem Core.pushVq_etlb0 (c : Core) (n : Nat) (v : Vec) : (c.pushVq n v).etlb0 = c.etlb0 := by simp [Core.pushVq]
@[simp] theorem Core.pushVq_etlb1 (c : Core) (n : Nat) (v : Vec) : (c.pushVq n v).etlb1 = c.etlb1 := by simp [Core.pushVq]
@[simp] theorem Core.pushVq_wflt (c : Core) (n : Nat) (v : Vec) : (c.pushVq n v).wflt = c.wflt := by simp [Core.pushVq]
@[simp] theorem Core.pushVq_flights (c : Core) (n : Nat) (v : Vec) : (c.pushVq n v).flights = c.flights := by simp [Core.pushVq]
@[simp] theorem Core.pushVq_mesh (c : Core) (n : Nat) (v : Vec) : (c.pushVq n v).mesh = c.mesh := by simp [Core.pushVq]
@[simp] theorem Core.pushVq_token (c : Core) (n : Nat) (v : Vec) : (c.pushVq n v).token = c.token := by simp [Core.pushVq]
@[simp] theorem Core.pushVq_regUe (c : Core) (n : Nat) (v : Vec) : (c.pushVq n v).regUe = c.regUe := by simp [Core.pushVq]

@[simp] theorem Core.bank_setBank (c : Core) (b : Bank) : (c.setBank b).bank = b := by
  unfold Core.setBank Core.bank; split <;> simp_all
@[simp] theorem Core.getG_setG_self (c : Core) (n : Nat) (v : Word) : (c.setG n v).getG n = v := tabGet_set_self _ _ _ _
theorem Core.getG_setG_ne (c : Core) (n m : Nat) (v : Word) (h : m ≠ n) : (c.setG n v).getG m = c.getG m := tabGet_set_ne _ _ _ _ _ h
@[simp] theorem Core.getV_setV_self (c : Core) (n : Nat) (v : Vec) : (c.setV n v).getV n = v := tabGet_set_self _ _ _ _
theorem Core.getV_setV_ne (c : Core) (n m : Nat) (v : Vec) (h : m ≠ n) : (c.setV n v).getV m = c.getV m := tabGet_set_ne _ _ _ _ _ h
@[simp] theorem Core.getP_setP_self (c : Core) (n : Nat) (v : Word) : (c.setP n v).getP n = v := tabGet_set_self _ _ _ _
theorem Core.getP_setP_ne (c : Core) (n m : Nat) (v : Word) (h : m ≠ n) : (c.setP n v).getP m = c.getP m := tabGet_set_ne _ _ _ _ _ h
@[simp] theorem Core.getK_setK_self (c : Core) (n : Nat) (v : BitVec 32) : (c.setK n v).getK n = v := tabGet_set_self _ _ _ _
theorem Core.getK_setK_ne (c : Core) (n m : Nat) (v : BitVec 32) (h : m ≠ n) : (c.setK n v).getK m = c.getK m := tabGet_set_ne _ _ _ _ _ h

end Sys2Proof.Machine
end

