-- ==== Sys2Proof/Laws/Ops.lean ====
section
/-! SUPPORT. What the shared operations can do: a slot operation, a gate, a push, a trap and the return from it. -/
namespace Sys2Proof.Machine

/-! ### Gates -/

@[simp] theorem Gate.and_empty (a : Gate) : a.and {} = a := by
  obtain ⟨q, o, t⟩ := a
  cases t <;> simp [Gate.and, trapOr]

@[simp] theorem Gate.empty_and (a : Gate) : Gate.and {} a = a := by
  obtain ⟨q, o, t⟩ := a
  cases t <;> simp [Gate.and, trapOr]

@[simp] theorem Gate.holdIf_false : Gate.holdIf false = {} := rfl

@[simp] theorem Gate.need_true (t : Trap) : Gate.need true t = {} := rfl

/-! ### Slot operations -/

/-- Everything that a slot operation can do: it is held before its group issues, it traps on its slot, or it has its effect. -/
theorem runSlot_cases (n : Nat) (g : Gate) (eff : State → State) (s : State) :
    (s.me.issuing = false ∧ (g.q || g.o) = true
        ∧ runSlot n g eff s = .next (s.upd fun c => { c with held := { queue := g.q, other := g.o } }))
      ∨ (¬(s.me.issuing = false ∧ (g.q || g.o) = true) ∧ ∃ t, g.trap = some t ∧ runSlot n g eff s = .next (slotTrap n t s))
      ∨ (¬(s.me.issuing = false ∧ (g.q || g.o) = true) ∧ g.trap = none ∧ runSlot n g eff s = .next (eff (atSlot n s))) := by
  unfold runSlot
  by_cases h : s.me.issuing = false ∧ (g.q || g.o) = true
  · exact .inl ⟨h.1, h.2, by rw [if_pos h]⟩
  · rw [if_neg h]
    cases ht : g.trap with
    | some t => exact .inr (.inl ⟨h, t, rfl, rfl⟩)
    | none => exact .inr (.inr ⟨h, rfl, rfl⟩)

/-- A slot operation that nothing holds and nothing traps has its effect. -/
theorem runSlot_free (n : Nat) (eff : State → State) (s : State) : runSlot n {} eff s = .next (eff (atSlot n s)) := by
  simp [runSlot, atSlot]

/-- A slot operation always answers a next state. -/
theorem runSlot_next (n : Nat) (g : Gate) (eff : State → State) (s : State) : ∃ t, runSlot n g eff s = .next t := by
  rcases runSlot_cases n g eff s with ⟨_, _, h⟩ | ⟨_, _, _, h⟩ | ⟨_, _, h⟩ <;> exact ⟨_, h⟩

/-! ### The state in which an operation takes its effect -/

@[simp] theorem atSlot_cur (n : Nat) (s : State) : (atSlot n s).cur = s.cur := rfl
@[simp] theorem atSlot_me (n : Nat) (s : State) : (atSlot n s).me = { s.me with held := {}, slot := n } := State.me_upd _ _
@[simp] theorem atSlot_teams (n : Nat) (s : State) : (atSlot n s).teams = s.teams := rfl

theorem teamOf_upd (s : State) (f : Core → Core) (i : Nat) (h : ∀ c, (f c).team = c.team) : (s.upd f).teamOf i = s.teamOf i := by
  unfold State.teamOf
  have hc : ((s.upd f).core i).team = (s.core i).team := by
    by_cases hi : i = s.cur
    · subst hi; simp [h, State.me]
    · rw [State.core_upd_ne _ _ _ hi]
  rw [hc]; rfl

theorem team_upd (s : State) (f : Core → Core) (i : Nat) (h : ∀ c, (f c).team = c.team) : (s.upd f).team i = s.team i := by
  simp [State.team, teamOf_upd s f i h]

@[simp] theorem atSlot_team (n : Nat) (s : State) (i : Nat) : (atSlot n s).team i = s.team i := team_upd s _ i fun _ => rfl

/-- Sources read the same in it. -/
@[simp] theorem readSrc_atSlot (n : Nat) (s : State) (a : Src) : readSrc (atSlot n s) a = readSrc s a := by
  cases a <;> simp [readSrc, Core.sqAt, Core.bank, Core.getG, Core.getP]

@[simp] theorem readSg_atSlot (n : Nat) (s : State) (a : SqG) : readSg (atSlot n s) a = readSg s a := by
  cases a <;> simp [readSg, Core.sqAt, Core.bank, Core.getG]

@[simp] theorem readV_atSlot (n : Nat) (s : State) (f : ElemFmt) (a : SrcV) : readV (atSlot n s) f a = readV s f a := by
  have hp : ∀ k, (atSlot n s).me.getP k = s.me.getP k := fun k => by simp [Core.getP]
  cases a <;> simp [readV, Core.vqAt, Core.sqAt, Core.bank, Core.getG, Core.getV, headRow, Core.tq]
  simp only [← atSlot_me n, hp]

@[simp] theorem readIdx_atSlot (n : Nat) (s : State) (a : IdxV) : readIdx (atSlot n s) a = readIdx s a := by
  cases a <;> simp [readIdx, Core.vqAt, Core.bank, Core.getV, headRow, Core.tq]

@[simp] theorem readOff_atSlot (n : Nat) (s : State) (a : OffV) : readOff (atSlot n s) a = readOff s a := by
  cases a <;> simp [readOff, Core.sqAt, Core.bank, Core.getG]

@[simp] theorem readCnt_atSlot (n : Nat) (s : State) (a : CntV) : readCnt (atSlot n s) a = readCnt s a := by
  cases a <;> simp [readCnt, Core.sqAt, Core.bank, Core.getG]

/-! ### Memory read through the state -/

@[simp] theorem gByte_atSlot (n : Nat) (s : State) (a : Nat) : (atSlot n s).gByte a = s.gByte a := rfl

/-- An update of a core that keeps its scratchpad leaves every scratchpad byte alone. -/
theorem spByte_upd (s : State) (f : Core → Core) (i a : Nat) (h : ∀ c, (f c).sp = c.sp ∧ (f c).spFill = c.spFill) :
    (s.upd f).spByte i a = s.spByte i a := by
  by_cases hi : i = s.cur
  · subst hi
    simp [State.spByte, spKey, h, State.me]
  · simp [State.spByte, State.core_upd_ne _ _ _ hi]

@[simp] theorem spByte_atSlot (n : Nat) (s : State) (i a : Nat) : (atSlot n s).spByte i a = s.spByte i a :=
  spByte_upd s _ i a fun _ => ⟨rfl, rfl⟩

/-! ### Traps -/

/-- Taking a trap is fatal where a register has an uncorrectable error (R416), and else a double trap, or the entry of the handler (R354, R356). -/
theorem takeTrap_cases (i : Nat) (t : Trap) (slot : Nat) (epc : Word) (rsm : Bool) (sres : Nat) (s : State) :
    ((s.core i).regUe = true ∧ takeTrap i t slot epc rsm sres s = registerFault i s)
      ∨ ((s.core i).regUe = false ∧ ((s.core i).tm = true ∨ tvecEn (s.core i).tvec = false)
          ∧ takeTrap i t slot epc rsm sres s = doubleTrap i t slot s)
      ∨ ((s.core i).regUe = false ∧ ¬((s.core i).tm = true ∨ tvecEn (s.core i).tvec = false)
          ∧ ∃ (s' : State) (w : Word), takeTrap i t slot epc rsm sres s
            = s'.setCore i ((s.core i).enterHandler t slot epc rsm sres w) ∧ s' = { s with fresh := s'.fresh }) := by
  cases hr : (s.core i).regUe
  · refine .inr ?_
    by_cases h : (s.core i).tm = true ∨ tvecEn (s.core i).tvec = false
    · exact .inl ⟨rfl, h, by simp [takeTrap, hr, h]⟩
    · refine .inr ⟨rfl, h, ?_⟩
      cases rsm
      · exact ⟨{ s with fresh := s.fresh + 1 }, Config.freeWord s.fresh, by simp [takeTrap, hr, h, State.take], rfl⟩
      · exact ⟨s, 0, by simp [takeTrap, hr, h], rfl⟩
  · exact .inl ⟨rfl, by simp [takeTrap, hr]⟩

end Sys2Proof.Machine
end

