-- ==== Sys2Proof/Laws/Ready.lean ====
section
/-! SUPPORT. The gates of operands that can be read hold nothing and trap nothing. -/
namespace Sys2Proof.Machine

theorem gateSq_of_ready {s : State} {a : Fin 16} (h : SqReady s a) : gateSq s.me a = {} := by
  simp [gateSq, SqReady] at *; exact h

theorem gateVq_of_ready {s : State} {a : Fin 16} (h : VqReady s a) : gateVq s.me a = {} := by
  simp [gateVq, VqReady] at *; exact h

theorem gateG_of_clear {s : State} {n : Fin 16} (h : GClear s n) : gateG s.me n = {} := by
  simp only [gateG, h, gateMark]

theorem gateV_of_clear {s : State} {n : Fin 32} (h : VClear s n) : gateV s.me n = {} := by
  simp only [gateV, h, gateMark]

theorem gateWG_of_clear {s : State} {n : Fin 16} (h : GClear s n) : gateWG s.me n = {} := by
  simp only [gateWG, h, gateMarkW]

theorem gateWV_of_clear {s : State} {n : Fin 32} (h : VClear s n) : gateWV s.me n = {} := by
  simp only [gateWV, h, gateMarkW]

theorem gateTq_of_full {s : State} {q : Fin 4} (h : TqFull s q) : gateTq s.me q = {} := by
  simp only [gateTq, TqFull] at *; rw [h]; rfl

theorem gateSrc_of_ready {s : State} {a : Src} (h : SrcReady s a) : gateSrc s a = {} := by
  cases a <;> first | rfl | exact gateSq_of_ready h | exact gateG_of_clear h

theorem gateSg_of_ready {s : State} {a : SqG} (h : SgReady s a) : gateSg s a = {} := by
  cases a
  · exact gateSq_of_ready h
  · exact gateG_of_clear h

theorem gateV1_of_ready {s : State} {a : SrcV} (h : SrcVReady s a) : gateV1 s a = {} := by
  cases a <;> first
    | rfl | exact gateVq_of_ready h | exact gateV_of_clear h | exact gateSq_of_ready h | exact gateG_of_clear h
    | exact gateTq_of_full h

theorem gateIdx_of_ready {s : State} {a : IdxV} (h : IdxReady s a) : gateIdx s a = {} := by
  cases a
  · exact gateVq_of_ready h
  · exact gateV_of_clear h
  · exact gateTq_of_full h

theorem gateOff_of_ready {s : State} {a : OffV} (h : OffReady s a) : gateOff s a = {} := by
  cases a <;> first | rfl | exact gateSq_of_ready h | exact gateG_of_clear h

theorem gateCnt_of_ready {s : State} {a : CntV} (h : CntReady s a) : gateCnt s a = {} := by
  cases a <;> first | rfl | exact gateSq_of_ready h | exact gateG_of_clear h

end Sys2Proof.Machine
end

