-- ==== Sys2Proof/Laws/Access.lean ====
section
/-! SUPPORT. What an S or V access can do: the checks it passes, and its effect in the local scratchpad or its wait for acceptance. -/
namespace Sys2Proof.Machine

theorem accTrap_none (k : AccKind) (l : List (Elem × Option TFault × Option RaceTag)) (h : ∀ x ∈ l, x.2.1 = none ∧ x.2.2 = none) :
    accTrap k l = none := by
  unfold accTrap
  have : (l.find? fun x => x.2.1.isSome || x.2.2.isSome) = none := by
    rw [List.find?_eq_none]; intro x hx; simp [h x hx]
  rw [this]

/-- An access whose elements meet no fault and no race passes the checks of its slot (R110). -/
theorem slotCheck_none {s : State} {i : Nat} {a : Access}
    (h : ∀ e ∈ a.elems, elemFault s i a.kind a.cls a.align e = none ∧ elemRace s i a.kind e = none) : slotCheck s i a = none := by
  unfold slotCheck
  split
  · rfl
  · apply accTrap_none
    intro x hx
    obtain ⟨e, he, rfl⟩ := List.mem_map.1 hx
    rw [(h e he).1]
    exact ⟨rfl, (h e he).2⟩

/-- An access to peer or global memory is checked at its home (R110, R164). -/
theorem slotCheck_home {s : State} {i : Nat} {a : Access} (h : a.cls = .peer ∨ a.cls = .global) : slotCheck s i a = none := by
  simp [slotCheck, h]

/-- Low addresses are local (R247). -/
theorem decodeEa_local {w : Word} (h : w.toNat < 0x60000) : decodeEa w = .local w.toNat := by
  unfold decodeEa
  have h1 : w.toNat / 2 ^ 48 = 0 := by omega
  have h2 : w.toNat % 2 ^ 48 = w.toNat := by omega
  simp only [h1, h2, if_true, h]

/-- Addresses from 0x10000000 to 2^48 - 1 are global (R247). -/
theorem decodeEa_global {w : Word} (h : 0x10000000 ≤ w.toNat) (h' : w.toNat < 2 ^ 48) : decodeEa w = .global w.toNat := by
  unfold decodeEa
  have h1 : w.toNat / 2 ^ 48 = 0 := by omega
  have h2 : w.toNat % 2 ^ 48 = w.toNat := by omega
  simp only [h1, h2, if_true]
  rw [if_neg (by omega), if_neg (by omega), if_neg (by omega), if_neg (by omega)]

/-- A local element that is aligned and in its bounds meets no fault. -/
theorem elemFault_local {s : State} {i : Nat} {k : AccKind} {al : Nat} {e : Elem} (hl : e.ea.toNat < 0x60000) (hb : e.bad = false)
    (ha : e.rep.toNat % al = 0) : elemFault s i k .local al e = none := by
  simp [elemFault, decodeEa_local hl, hb, ha, Space.cls]

theorem elemRace_local {s : State} {i : Nat} {k : AccKind} {e : Elem} (hl : e.ea.toNat < 0x60000)
    (hr : granRace s i i e.ea.toNat e.len k = none) : elemRace s i k e = none := by
  simp [elemRace, decodeEa_local hl, hr]

theorem elemFault_global {s : State} {i : Nat} {k : AccKind} {al : Nat} {e : Elem} (hl : 0x10000000 ≤ e.ea.toNat)
    (hh : e.ea.toNat < 2 ^ 48) (hb : e.bad = false) (ha : e.rep.toNat % al = 0) : elemFault s i k .global al e = none := by
  simp [elemFault, decodeEa_global hl hh, hb, ha, Space.cls]

theorem elemRace_global {s : State} {i : Nat} {k : AccKind} {e : Elem} (hl : 0x10000000 ≤ e.ea.toNat)
    (hh : e.ea.toNat < 2 ^ 48) : elemRace s i k e = none := by
  simp [elemRace, decodeEa_global hl hh]

/-- The access record that the slot works on: with its address class and its alignment. -/
abbrev accessRec (mk : State → Access) (cls : State → SpaceClass) (al : Nat) (s : State) : Access :=
  { mk s with cls := cls s, align := al }

/-- An access that nothing holds and no check traps has its effect: in the local scratchpad at once, in the weight store at once, and
elsewhere it waits. -/
theorem accessOp_free {n : Nat} {g : State → Gate} {mk : State → Access} {cls : State → SpaceClass} {al base : Nat} {perm joined : Bool}
    {s : State} (hg : g s = {}) (hd : gateDest s.me (mk s).dest = {}) (ha : s.me.acqPending = false)
    (hr : ∀ x, (mk s).kind = .atomic x → x.ord = .rel ∨ x.ord = .sc → s.me.accPending = false)
    (hs : cls s = .local → s.me.selfPending s.cur = false) (hc : slotCheck s s.cur (accessRec mk cls al s) = none) :
    accessOp n g mk cls al base perm joined s = .next (match cls s with
      | .local => if viaMesh (atSlot n s).me s.cur (mk s).kind then deferEffect n (accessRec mk cls al s) (atSlot n s)
        else localEffect base perm joined (accessRec mk cls al s) (atSlot n s)
      | .weight => weightEffect (accessRec mk cls al s) (atSlot n s)
      | _ => deferEffect n (accessRec mk cls al s) (atSlot n s)) := by
  have h2 : (cls s == SpaceClass.local && s.me.selfPending s.cur) = false := by
    by_cases h : cls s = .local
    · rw [hs h, Bool.and_false]
    · have : (cls s == SpaceClass.local) = false := by simpa using h
      rw [this, Bool.false_and]
  have h3 : (match (mk s).kind with
      | .atomic x => x.ord == .rel || x.ord == .sc
      | _ => false) = true → s.me.accPending = false := by
    split
    · rename_i x hx
      intro h
      exact hr x hx (by simpa using h)
    · intro h; exact absurd h (by decide)
  have e : ∀ (b : Bool) (eff : State → State), (b = true → s.me.accPending = false) →
      runSlot n (((({ } : Gate).and { }).and (Gate.holdIf (false || (b && s.me.accPending) || false))).and { }) eff s
        = .next (eff (atSlot n s)) := by
    intro b eff hb
    have : (b && s.me.accPending) = false := by
      cases b with
      | false => rfl
      | true => rw [hb rfl, Bool.and_false]
    rw [this]
    exact runSlot_free n eff s
  unfold accessOp
  simp only [hg, hd, ha, h2, hc]
  exact e _ _ h3

end Sys2Proof.Machine
end

