-- ==== Sys2Proof/Laws/Crypto.lean ====
section
/-! SUPPORT. The lengths of digests, and that what RSASSA-PSS encodes is what it accepts. -/
namespace Sys2Proof.Machine

/-- A round of 8 words gives 8 words, and so does a block. -/
theorem shaBlock_length (h : List Word) (b : List Byte) (n : h.length = 8) : (shaBlock h b).length = 8 := by
  have f : ∀ (l g : List Word), g.length = 8 → (l.foldl shaRound g).length = 8 := by
    intro l
    induction l with
    | nil => exact fun _ e => e
    | cons w l ih => exact fun g _ => ih _ rfl
  simp [shaBlock, List.length_zipWith, n, f _ h n]

theorem beBytes_length (n x : Nat) : (beBytes n x).length = n := by rw [beBytes, List.length_reverse, length_natBytes]

theorem sha512Bytes_length (m : List Byte) : (sha512Bytes m).length = 64 := by
  have f : ∀ (l : List Nat) (p : List Byte) (h : List Word), h.length = 8 →
      (l.foldl (fun h k => shaBlock h ((p.drop (128 * k)).take 128)) h).length = 8 := by
    intro l p
    induction l with
    | nil => exact fun _ e => e
    | cons k l ih => exact fun h e => ih _ (shaBlock_length _ _ e)
  have g : ∀ l : List Word, (l.flatMap fun x => beBytes 8 x.toNat).length = 8 * l.length := by
    intro l
    induction l with
    | nil => rfl
    | cons w l ih => simp only [List.flatMap_cons, List.length_append, ih, beBytes_length, List.length_cons]; omega
  simp only [sha512Bytes, g]
  rw [f _ _ _ rfl]

theorem mgf1_length (s : List Byte) (n : Nat) : (mgf1 s n).length = n := by
  have g : ∀ l : List Nat, (l.flatMap fun i => sha512Bytes (s ++ beBytes 4 i)).length = 64 * l.length := by
    intro l
    induction l with
    | nil => rfl
    | cons w l ih => simp only [List.flatMap_cons, List.length_append, ih, sha512Bytes_length, List.length_cons]; omega
  simp only [mgf1, List.length_take, g, length_rangeFrom]
  omega

theorem xorBytes_length (a b : List Byte) : (xorBytes a b).length = min a.length b.length := List.length_zipWith

/-- Adding the same bytes twice without carry changes nothing, once the first bit is cleared. -/
theorem unmask (d m : List Byte) (y : Byte) (n : d.length ≤ m.length) :
    clearTop (xorBytes (clearTop (xorBytes (0 :: d) (y :: m))) (y :: m)) = 0 :: d := by
  have f : ∀ d m : List Byte, d.length ≤ m.length → List.zipWith (· ^^^ ·) (List.zipWith (· ^^^ ·) d m) m = d := by
    intro d
    induction d with
    | nil => exact fun _ _ => rfl
    | cons x d ih =>
      intro m h
      cases m with
      | nil => simp at h
      | cons y m =>
        simp only [List.zipWith_cons_cons, List.cons.injEq]
        exact ⟨by rw [BitVec.xor_assoc, BitVec.xor_self, BitVec.xor_zero], ih m (by simpa using h)⟩
  have g : ∀ y : Byte, ((0 ^^^ y) &&& 0x7F ^^^ y) &&& 0x7F = 0 := by decide
  simp only [xorBytes, List.zipWith_cons_cons, clearTop, f d m n, g]

/-- The check accepts what is encoded with any salt of 64 bytes (R424). -/
theorem pssOk_pssEncode (m salt : List Byte) (n : salt.length = 64) : pssOk m (pssEncode m salt) = true := by
  obtain ⟨h, hh⟩ : ∃ h, h = sha512Bytes (List.replicate 8 0 ++ sha512Bytes m ++ salt) := ⟨_, rfl⟩
  have lh : h.length = 64 := hh ▸ sha512Bytes_length _
  obtain ⟨k, hk⟩ : ∃ k, k = mgf1 h 447 := ⟨_, rfl⟩
  have lk : k.length = 447 := hk ▸ mgf1_length _ _
  obtain ⟨z, hz⟩ : ∃ z, z = List.replicate 381 (0 : Byte) := ⟨_, rfl⟩
  have lz : z.length = 381 := hz ▸ List.length_replicate
  have hz2 : List.replicate 382 (0 : Byte) = 0 :: z := by rw [hz]; exact List.replicate_succ
  obtain ⟨d, hd⟩ : ∃ d, d = clearTop (xorBytes (List.replicate 382 0 ++ [1] ++ salt) k) := ⟨_, rfl⟩
  have e : pssEncode m salt = d ++ h ++ [0xBC] := by simp only [pssEncode, ← hh, ← hk, ← hd]
  rw [hz2] at hd
  cases k with
  | nil => simp at lk
  | cons y k =>
    simp only [List.length_cons, Nat.reduceEqDiff] at lk
    have ld : d.length = 447 := by
      simp only [hd, xorBytes, List.cons_append, List.zipWith_cons_cons, clearTop, List.length_cons, List.length_zipWith, List.length_append,
        List.length_nil, n, lz]
      omega
    have u : clearTop (xorBytes d (y :: k)) = 0 :: (z ++ [1] ++ salt) := by
      rw [hd]
      exact unmask (z ++ [1] ++ salt) k y (by simp only [List.length_append, List.length_cons, List.length_nil, n, lz]; omega)
    have top : (d.getD 0 0).getLsbD 7 = false := by
      rw [hd]
      have : ∀ y : Byte, ((0 ^^^ y) &&& 0x7F).getLsbD 7 = false := by decide
      exact this y
    have a1 : (d ++ h ++ [0xBC]).take 447 = d := by rw [List.append_assoc, List.take_append_of_le_length (by omega), ← ld, List.take_length]
    have a2 : ((d ++ h ++ [0xBC]).drop 447).take 64 = h := by
      rw [List.append_assoc, ← ld, List.drop_left, ← lh, List.take_left]
    have a3 : (d ++ h ++ [0xBC]).getD 511 0 = 0xBC := by
      rw [List.getD_eq_getElem?_getD, List.getElem?_append_right (by simp [ld, lh])]; simp [ld, lh]
    have a4 : (d ++ h ++ [0xBC]).getD 0 0 = d.getD 0 0 := by
      rw [List.getD_eq_getElem?_getD, List.getD_eq_getElem?_getD, List.append_assoc, List.getElem?_append_left (by omega)]
    have l1 : (0 :: (z ++ [1])).length = 383 := by simp only [List.length_cons, List.length_append, List.length_nil, lz]
    have b1 : (0 :: (z ++ [1] ++ salt)).take 383 = 0 :: z ++ [1] := by
      rw [← List.cons_append, ← l1, List.take_left]; rfl
    have b2 : (0 :: (z ++ [1] ++ salt)).drop 383 = salt := by rw [← List.cons_append, ← l1, List.drop_left]
    have len : (d ++ h ++ [0xBC]).length = 512 := by simp [ld, lh]
    simp only [e, pssOk, a1, a2, a3, a4, len, ← hk, u, b1, b2, hz2, top, ← hh, beq_self_eq_true, Bool.and_self]

/-- Big-endian bytes of the number that bytes make are those bytes. -/
theorem natBytes_bytesNat : ∀ l : List Byte, natBytes l.length (bytesNat l) = l
  | [] => rfl
  | b :: l => by
    have h : (b.toNat + 256 * bytesNat l) / 256 = bytesNat l := by have := b.isLt; omega
    simp only [List.length_cons, bytesNat, natBytes, h, natBytes_bytesNat l, List.cons.injEq, and_true]
    exact BitVec.eq_of_toNat_eq (by rw [BitVec.toNat_ofNat]; have := b.isLt; omega)

/-- Bytes make a number below their size, and with the last one below a half, below half of it. -/
theorem bytesNat_lt : ∀ l : List Byte, bytesNat l < 256 ^ l.length
  | [] => by simp [bytesNat]
  | b :: l => by
    have := bytesNat_lt l
    have := b.isLt
    simp only [bytesNat, List.length_cons, Nat.pow_succ]; omega

theorem bytesNat_snoc (b : Byte) : ∀ l : List Byte, bytesNat (l ++ [b]) = bytesNat l + 256 ^ l.length * b.toNat
  | [] => by simp [bytesNat]
  | a :: l => by simp only [List.cons_append, bytesNat, bytesNat_snoc b l, List.length_cons, Nat.pow_succ, Nat.mul_add, Nat.mul_comm, Nat.mul_left_comm, Nat.add_assoc]

theorem bytesNat_snoc_lt (b : Byte) (k : Nat) (l : List Byte) (h : b.toNat < k) : bytesNat (l ++ [b]) < 256 ^ l.length * k := by
  have p := bytesNat_lt l
  rw [bytesNat_snoc]
  calc _ < 256 ^ l.length * (b.toNat + 1) := by rw [Nat.mul_succ]; omega
    _ ≤ _ := Nat.mul_le_mul_left _ h

/-- A digest's number has its bytes. -/
theorem natBytes_digest (l : List Byte) (h : l.length = 64) : natBytes 64 (BitVec.ofNat 512 (bytesNat l)).toNat = l := by
  have b := bytesNat_lt l
  have e := natBytes_bytesNat l
  rw [h] at b e
  rw [BitVec.toNat_ofNat, Nat.mod_eq_of_lt (Nat.lt_of_lt_of_le b (by decide +kernel)), e]

theorem hmac512_length (k m : List Byte) : (hmac512 k m).length = 64 := sha512Bytes_length _

theorem powMod_zero {n : Nat} (h : 1 < n) : ∀ f b : Nat, powMod n f b 0 = 1
  | 0, _ => Nat.mod_eq_of_lt h
  | f + 1, b => by simp [powMod, powMod_zero h f, Nat.mod_eq_of_lt h]

/-- Under the largest modulus and exponent 1, an encoded message is its own signature. -/
theorem pssVerify_one (m salt : List Byte) (n : salt.length = 64) :
    pssVerify (BitVec.allOnes 4096) 1 m (BitVec.ofNat 4096 (bytesNat (pssEncode m salt))) = true := by
  have ok := pssOk_pssEncode m salt n
  obtain ⟨l, hl⟩ : ∃ l, l = pssEncode m salt := ⟨_, rfl⟩
  rw [← hl] at ok ⊢
  have ok' := ok
  simp only [pssOk, Bool.and_eq_true, beq_iff_eq] at ok'
  have len : l.length = 512 := ok'.1.1.1.1
  have top : (l.getD 0 0).getLsbD 7 = false := ok'.1.1.2
  have toN : (BitVec.ofNat 4096 (bytesNat l)).toNat = bytesNat l :=
    Nat.mod_eq_of_lt (by have := bytesNat_lt l; rw [len] at this; exact Nat.lt_of_lt_of_le this (by decide +kernel))
  have key : beNat (natBytes 512 (BitVec.allOnes 4096).toNat) = 2 ^ 4096 - 1 := by decide +kernel
  have own : natBytes 512 (bytesNat l) = l := len ▸ natBytes_bytesNat l
  have small : beNat l < 2 ^ 4095 := by
    cases l with
    | nil => simp at len
    | cons b l =>
      have hb : ∀ b : Byte, b.getLsbD 7 = false → b.toNat ≤ 127 := by decide
      have h1 := bytesNat_snoc_lt b 128 l.reverse (Nat.lt_succ_of_le (hb b top))
      simp only [List.length_cons, Nat.reduceEqDiff] at len
      rw [List.length_reverse, len] at h1
      rw [beNat, List.reverse_cons]
      exact Nat.lt_of_lt_of_le h1 (by decide +kernel)
  have pw : powMod (2 ^ 4096 - 1) 4096 (beNat l) 1 = beNat l := by
    rw [show (4096 : Nat) = 4095 + 1 from rfl, powMod, show (1 : Nat) / 2 = 0 from rfl, powMod_zero (by decide +kernel), if_pos rfl, Nat.mul_one]
    exact Nat.mod_eq_of_lt (Nat.lt_of_lt_of_le small (by decide +kernel))
  have back : beBytes 512 (beNat l) = l := by
    rw [beBytes, beNat, ← List.reverse_reverse l, List.reverse_reverse, show 512 = l.reverse.length by simp [len], natBytes_bytesNat]
  simp only [pssVerify, toN, key, own, pw, back, ok, Bool.and_true, decide_eq_true_eq]
  exact ⟨by decide +kernel, Nat.lt_of_lt_of_le small (by decide +kernel)⟩

end Sys2Proof.Machine
end

