-- ==== Sys2Proof/Laws/Decode.lean ====
section
/-! SUPPORT. What decoding gives for a field that is put together from its port and its operands. -/
namespace Sys2Proof
open Machine

/-! ### The bytes of a field -/

theorem saOf_fld (p : Nat) (sa sb : BitVec 8) : saOf (fld p sa sb) = sa := by
  apply BitVec.eq_of_getLsbD_eq
  intro i hi
  simp only [saOf, fld, mkField, BitVec.getLsbD_extractLsb', BitVec.getLsbD_append]
  simp [hi, show ¬(8 + i < 8) by omega]

theorem sbOf_fld (p : Nat) (sa sb : BitVec 8) : sbOf (fld p sa sb) = sb := by
  apply BitVec.eq_of_getLsbD_eq
  intro i hi
  simp only [sbOf, fld, mkField, BitVec.getLsbD_extractLsb', BitVec.getLsbD_append]
  simp [hi, show ¬(16 + i < 8) by omega, show ¬(16 + i - 8 < 8) by omega, show 16 + i - 8 - 8 = i by omega]

theorem portOf_fld {p : Nat} (h : p < 256) (sa sb : BitVec 8) : (portOf (fld p sa sb)).toNat = p := by
  have h1 : portOf (fld p sa sb) = BitVec.ofNat 8 p := by
    apply BitVec.eq_of_getLsbD_eq
    intro i hi
    simp only [portOf, fld, mkField, BitVec.getLsbD_extractLsb', BitVec.getLsbD_append]
    simp [hi]
  rw [h1, BitVec.toNat_ofNat]
  omega

/-- A field whose operands its port accepts decodes to the port's instruction. -/
theorem decodeField_fld {tm : Bool} {slot p : Nat} {sa sb : BitVec 8} {inc : Bool} {info : PortInfo} (hp : p < 256)
    (hi : portInfo tm slot p = some info) (ha : fieldErr info.a sa = none) (hb : fieldErr info.b sb = none) :
    decodeField tm slot (fld p sa sb) inc = .ok (instrOf slot (fld p sa sb) inc) := by
  simp only [decodeField, slotErr, portOf_fld hp, saOf_fld, sbOf_fld, hi, ha, hb]

/-- See `decodeField_fld`, for an instruction that is encoded so. -/
theorem roundTrip_fld {i : Instr} {slot p : Nat} {sa sb : BitVec 8} (info : PortInfo) (he : encode i = some (slot, fld p sa sb)) (hp : p < 256)
    (hi : ∀ tm, (tm = true ∨ i ≠ .sysret) → portInfo tm slot p = some info) (ha : fieldErr info.a sa = none) (hb : fieldErr info.b sb = none)
    (ho : instrOf slot (fld p sa sb) (incOf i) = i) : RoundTrip i := by
  intro _ sl f h tm ht
  rw [he] at h
  cases h
  rw [decodeField_fld hp (hi tm ht) ha hb, ho]

/-- An instruction without an encoding. -/
theorem roundTrip_none {i : Instr} (h : encode i = none) : RoundTrip i := by
  intro _ sl f h'
  rw [h] at h'
  cases h'

theorem instrOf_B {p : Nat} (h : p < 256) (sa sb : BitVec 8) (inc : Bool) : instrOf 0 (fld p sa sb) inc = instrB p sa sb := by
  simp only [instrOf, portOf_fld h, saOf_fld, sbOf_fld]
theorem instrOf_S {p : Nat} (h : p < 256) (sa sb : BitVec 8) (inc : Bool) : instrOf 1 (fld p sa sb) inc = instrS p sa sb inc := by
  simp only [instrOf, portOf_fld h, saOf_fld, sbOf_fld]
theorem instrOf_V {p : Nat} (u : Pipe) (h : p < 256) (sa sb : BitVec 8) (inc : Bool) :
    instrOf u.slot (fld p sa sb) inc = instrV u p sa sb inc := by
  cases u <;> simp only [instrOf, Pipe.slot, portOf_fld h, saOf_fld, sbOf_fld]
theorem instrOf_M {p : Nat} (h : p < 256) (sa sb : BitVec 8) (inc : Bool) : instrOf 4 (fld p sa sb) inc = instrM p sa sb := by
  simp only [instrOf, portOf_fld h, saOf_fld, sbOf_fld]
theorem instrOf_C {p : Nat} (e : Eng) (h : p < 256) (sa sb : BitVec 8) (inc : Bool) :
    instrOf e.slot (fld p sa sb) inc = instrC e p sa sb := by
  cases e <;> simp only [instrOf, Eng.slot, portOf_fld h, saOf_fld, sbOf_fld]
theorem instrOf_K {p : Nat} (h : p < 256) (sa sb : BitVec 8) (inc : Bool) : instrOf 7 (fld p sa sb) inc = instrK p sa sb := by
  simp only [instrOf, portOf_fld h, saOf_fld, sbOf_fld]

theorem portInfo_V (tm : Bool) (u : Pipe) (p : Nat) : portInfo tm u.slot p = infoV p := by cases u <;> rfl
theorem portInfo_C (tm : Bool) (e : Eng) (p : Nat) : portInfo tm e.slot p = infoC p := by cases e <;> rfl

/-! ### Operands -/

theorem ofNat8_toNat {n : Nat} (h : n < 256) : (BitVec.ofNat 8 n).toNat = n := by
  rw [BitVec.toNat_ofNat]; omega

/-- A number below `n` in the low bits of a byte. -/
theorem lowFin_eq {n : Nat} [NeZero n] (k : Fin n) {b : Nat} (h : b + k.val < 256) (hd : n ∣ b) :
    lowFin n (BitVec.ofNat 8 (b + k.val)) = k := by
  apply Fin.ext
  obtain ⟨c, rfl⟩ := hd
  simp only [lowFin, ofNat8_toNat h, Fin.ofNat]
  rw [Nat.mul_add_mod, Nat.mod_eq_of_lt k.isLt]

theorem specS_encSrc (a : Src) : specS (encSrc a) = .src a := by
  cases a with
  | sq n => revert n; decide
  | g n => revert n; decide
  | p n => revert n; decide
  | imm v => revert v; decide
  | _ => rfl

@[simp] theorem srcOf_encSrc (a : Src) : srcOf (encSrc a) = a := by simp only [srcOf, specS_encSrc]
@[simp] theorem val_ok (a : Src) : fieldErr .val (encSrc a) = none := by simp only [fieldErr, specS_encSrc]
@[simp] theorem kval_ok (a : Src) : fieldErr .kval (encSrc a) = none := by simp [fieldErr, specS_encSrc]

theorem klat_ok {a : Src} (h : latchSrcOk .k a = true) : fieldErr .klat (encSrc a) = none := by
  cases a <;> simp_all [fieldErr, specS_encSrc, latchSrcOk]

@[simp] theorem ch_ok (c : Fin 11) : fieldErr .ch (encCh c) = none := by revert c; decide
@[simp] theorem chOf_encCh (c : Fin 11) : chOf (encCh c) = c := by revert c; decide

theorem specS_encSend (a : SendSrc) : specS (encSend a) = match a with
    | .src s => .src s
    | .tq q => .tq q := by
  cases a with
  | src s => exact specS_encSrc s
  | tq q => revert q; decide

@[simp] theorem sendOf_encSend (a : SendSrc) : sendOf (encSend a) = a := by
  simp only [sendOf, specS_encSend]
  cases a <;> rfl
@[simp] theorem send_ok (a : SendSrc) : fieldErr .send (encSend a) = none := by
  cases a <;> simp [fieldErr, specS_encSend]

theorem specV_encSrcV (a : SrcV) : specV (encSrcV a) = .src a := by
  cases a with
  | vq n => revert n; decide
  | v n => revert n; decide
  | sq n => revert n; decide
  | g n => revert n; decide
  | p n => revert n; decide
  | tq n => revert n; decide
  | imm v => revert v; decide
  | _ => rfl

@[simp] theorem srcVOf_encSrcV (a : SrcV) : srcVOf (encSrcV a) = a := by simp only [srcVOf, specV_encSrcV]
@[simp] theorem vval_ok (a : SrcV) : fieldErr .vval (encSrcV a) = none := by simp [fieldErr, specV_encSrcV]

@[simp] theorem vbaseOf_encBase (a : SqG) : vbaseOf (encBase a) = a := by
  cases a with
  | sq n => revert n; decide
  | g n => revert n; decide
@[simp] theorem vbase_ok (a : SqG) : fieldErr .vbase (encBase a) = none := by
  cases a with
  | sq n => revert n; decide
  | g n => revert n; decide
@[simp] theorem voffOf_encOff (a : OffV) : voffOf (encOff a) = a := by
  cases a with
  | sq n => revert n; decide
  | g n => revert n; decide
  | imm v => revert v; decide
  | zero => rfl
@[simp] theorem voff_ok (a : OffV) : fieldErr .voff (encOff a) = none := by
  cases a with
  | sq n => revert n; decide
  | g n => revert n; decide
  | imm v => revert v; decide
  | zero => rfl
@[simp] theorem vidxOf_encIdx (a : IdxV) : vidxOf (encIdx a) = a := by
  cases a with
  | vq n => revert n; decide
  | v n => revert n; decide
  | tq n => revert n; decide
@[simp] theorem vidx_ok (a : IdxV) : fieldErr .vidx (encIdx a) = none := by
  cases a with
  | vq n => revert n; decide
  | v n => revert n; decide
  | tq n => revert n; decide
@[simp] theorem vcntOf_encCnt (a : CntV) : vcntOf (encCnt a) = a := by
  cases a with
  | sq n => revert n; decide
  | g n => revert n; decide
  | imm v => revert v; decide
@[simp] theorem vcnt_ok (a : CntV) : fieldErr .vcnt (encCnt a) = none := by
  cases a with
  | sq n => revert n; decide
  | g n => revert n; decide
  | imm v => revert v; decide

@[simp] theorem sgOf_encSg (a : SqG) : sgOf (encSg a) = a := by
  cases a with
  | sq n => revert n; decide
  | g n => revert n; decide
@[simp] theorem sg_ok (a : SqG) : fieldErr .sg (encSg a) = none := by
  cases a with
  | sq n => revert n; decide
  | g n => revert n; decide
theorem sgSrc_encSgSrc {u : MckUnit} (hu : u ≠ .k) {a : Src} (h : latchSrcOk u a = true) : sgSrc (encSgSrc a) = a := by
  cases a with
  | sq n => clear h hu; revert n; decide
  | g n => clear h hu; revert n; decide
  | _ => cases u <;> simp_all [latchSrcOk]
theorem sgSrc_ok (a : Src) : fieldErr .sg (encSgSrc a) = none := by
  cases a with
  | sq n => revert n; decide
  | g n => revert n; decide
  | _ => rfl

theorem ac_ok (n : Fin 64) : fieldErr .ac (BitVec.ofNat 8 n) = none := by revert n; decide
theorem ob_ok (n : Fin 32) : fieldErr .ob (BitVec.ofNat 8 (0x40 + n)) = none := by revert n; decide
theorem kctr_ok (n : Fin 16) : fieldErr .kctr (BitVec.ofNat 8 (0x60 + n)) = none := by revert n; decide
theorem cb_ok (n : Fin 8) : fieldErr .cb (BitVec.ofNat 8 (0x70 + n)) = none := by revert n; decide
theorem tq_ok (n : Fin 4) : fieldErr .tq (BitVec.ofNat 8 (0x78 + n)) = none := by revert n; decide
theorem ctrLit_ok (n : Fin 16) : fieldErr .litCounter (BitVec.ofNat 8 n) = none := by revert n; decide
theorem wordLit_ok (n : Fin 64) : fieldErr .litWord (BitVec.ofNat 8 n) = none := by revert n; decide
theorem low64_ac (n : Fin 64) : lowFin 64 (BitVec.ofNat 8 n) = n := by revert n; decide
theorem low32_ob (n : Fin 32) : lowFin 32 (BitVec.ofNat 8 (0x40 + n)) = n := by revert n; decide
theorem low16_k (n : Fin 16) : lowFin 16 (BitVec.ofNat 8 (0x60 + n)) = n := by revert n; decide
theorem low8_cb (n : Fin 8) : lowFin 8 (BitVec.ofNat 8 (0x70 + n)) = n := by revert n; decide
theorem low4_tq (n : Fin 4) : lowFin 4 (BitVec.ofNat 8 (0x78 + n)) = n := by revert n; decide
theorem low16_lit (n : Fin 16) : lowFin 16 (BitVec.ofNat 8 n) = n := by revert n; decide
theorem ret_ok (r : Option (Fin 16)) : fieldErr .litReturn (encRet r) = none := by
  cases r with
  | none => rfl
  | some n => revert n; decide
@[simp] theorem retOf_encRet (r : Option (Fin 16)) : retOf (encRet r) = r := by
  cases r with
  | none => rfl
  | some n => revert n; decide
theorem mode_ok (m : Mode) (s : Bool) : fieldErr .litMode (encMode m s) = none := by cases m <;> cases s <;> rfl
theorem modeOf_encMode (m : Mode) (s : Bool) : modeOf ((encMode m s).toNat % 8) = m := by cases m <;> cases s <;> rfl
theorem sat_encMode (m : Mode) (s : Bool) : (encMode m s).getLsbD 3 = s := by cases m <;> cases s <;> rfl
theorem red_ok (o : RedOp) : fieldErr .litRed (encRed o false) = none := by cases o <;> rfl
theorem scan_ok (o : RedOp) (x : Bool) : fieldErr .litScan (encRed o x) = none := by cases o <;> cases x <;> rfl
theorem redOf_encRed (o : RedOp) (x : Bool) : redOf (encRed o x) = o := by cases o <;> cases x <;> rfl
theorem ex_encRed (o : RedOp) (x : Bool) : (encRed o x).getLsbD 2 = x := by cases o <;> cases x <;> rfl
theorem imm_halves (d : BitVec 16) : d.extractLsb' 8 8 ++ d.extractLsb' 0 8 = d := by
  apply BitVec.eq_of_getLsbD_eq
  intro i hi
  simp only [BitVec.getLsbD_append, BitVec.getLsbD_extractLsb']
  by_cases h : i < 8
  · simp [h]
  · simp [h, show i - 8 < 8 by omega, show 8 + (i - 8) = i by omega]

/-! ### Ports that carry a number -/

/-- A number that a port carries above its base. -/
theorem fin_sub {m : Nat} [NeZero m] {b p : Nat} (n : Fin m) (h : p = b + n.val) : Fin.ofNat m (p - b) = n := by
  apply Fin.ext
  simp only [Fin.ofNat]
  rw [show p - b = n.val by omega, Nat.mod_eq_of_lt n.isLt]

/-- The same in the low bits of the port. -/
theorem fin_mod {m k : Nat} [NeZero m] (n : Fin m) (h : k % m = n.val) : Fin.ofNat m (k % m) = n := by
  apply Fin.ext
  simp only [Fin.ofNat, h]
  exact Nat.mod_eq_of_lt n.isLt

theorem infoS_ld {p : Nat} (h : 0x70 ≤ p) (h' : p ≤ 0xDF) : infoS p = some { a := .val, b := .val, d := .mem } := by
  unfold infoS
  repeat (first | rw [if_pos (by omega)] | rw [if_neg (by omega)])
theorem instrS_ld {p : Nat} (h : 0x70 ≤ p) (h' : p ≤ 0xDF) (sa sb : BitVec 8) (inc : Bool) :
    instrS p sa sb inc = instrLd (p - 0x70) sa sb inc := by
  unfold instrS
  simp only []
  repeat (first | rw [if_pos (by omega)] | rw [if_neg (by omega)])
theorem infoS_amo {p : Nat} (h : 0x40 ≤ p) (h' : p ≤ 0x6B) : infoS p = some { a := .val, b := .litReturn } := by
  unfold infoS
  repeat (first | rw [if_pos (by omega)] | rw [if_neg (by omega)])
theorem infoS_mov {p : Nat} (h : 0xE8 ≤ p) (h' : p ≤ 0xFF) : infoS p = some { a := .val } := by
  unfold infoS
  repeat (first | rw [if_pos (by omega)] | rw [if_neg (by omega)])
theorem instrS_movP {p : Nat} (h : 0xE8 ≤ p) (h' : p < 0xF0) (sa sb : BitVec 8) (inc : Bool) :
    instrS p sa sb inc = .sMovP (Fin.ofNat 8 (p - 0xE8)) (srcOf sa) := by
  unfold instrS
  simp only []
  repeat (first | rw [if_pos (by omega)] | rw [if_neg (by omega)])
theorem instrS_movG {p : Nat} (h : 0xF0 ≤ p) (sa sb : BitVec 8) (inc : Bool) :
    instrS p sa sb inc = .movG (Fin.ofNat 16 (p - 0xF0)) (srcOf sa) := by
  unfold instrS
  simp only []
  rw [if_pos h]

theorem infoV_mem {p : Nat} (h : 0x50 ≤ p ∧ p ≤ 0x8F ∨ 0xB0 ≤ p ∧ p ≤ 0xCF) : infoV p = some { a := .vbase, b := .voff, d := .mem } := by
  unfold infoV
  rcases h with h | h <;> repeat (first | rw [if_pos (by omega)] | rw [if_neg (by omega)])
theorem infoV_idx {p : Nat} (h : 0x90 ≤ p) (h' : p ≤ 0xAF) : infoV p = some { a := .vbase, b := .vidx } := by
  unfold infoV
  repeat (first | rw [if_pos (by omega)] | rw [if_neg (by omega)])
theorem infoV_mov {p : Nat} (h : 0xD8 ≤ p) : infoV p = some { a := .vval } := by
  unfold infoV
  repeat (first | rw [if_pos (by omega)] | rw [if_neg (by omega)])
theorem instrV_vld {p : Nat} (u : Pipe) (h : 0x50 ≤ p) (h' : p < 0x70) (sa sb : BitVec 8) (inc : Bool) :
    instrV u p sa sb inc = .vld u (Fin.ofNat 32 (p - 0x50)) (vbaseOf sa) (voffOf sb) inc := by
  unfold instrV
  repeat (first | rw [if_pos (by omega)] | rw [if_neg (by omega)])
theorem instrV_vldS {p : Nat} (u : Pipe) (h : 0x70 ≤ p) (h' : p < 0x90) (sa sb : BitVec 8) (inc : Bool) :
    instrV u p sa sb inc = .vldS u (Fin.ofNat 32 (p - 0x70)) (vbaseOf sa) (voffOf sb) inc := by
  unfold instrV
  repeat (first | rw [if_pos (by omega)] | rw [if_neg (by omega)])
theorem instrV_vldX {p : Nat} (u : Pipe) (h : 0x90 ≤ p) (h' : p < 0xB0) (sa sb : BitVec 8) (inc : Bool) :
    instrV u p sa sb inc = .vldX u (Fin.ofNat 32 (p - 0x90)) (vbaseOf sa) (vidxOf sb) := by
  unfold instrV
  repeat (first | rw [if_pos (by omega)] | rw [if_neg (by omega)])
theorem instrV_ldTr {p : Nat} (u : Pipe) (h : 0xB0 ≤ p) (h' : p < 0xD0) (sa sb : BitVec 8) (inc : Bool) :
    instrV u p sa sb inc = .ldTr u (Fin.ofNat 32 (p - 0xB0)) (vbaseOf sa) (voffOf sb) inc := by
  unfold instrV
  repeat (first | rw [if_pos (by omega)] | rw [if_neg (by omega)])
theorem instrV_movP {p : Nat} (u : Pipe) (h : 0xD8 ≤ p) (h' : p < 0xE0) (sa sb : BitVec 8) (inc : Bool) :
    instrV u p sa sb inc = .vMovP u (Fin.ofNat 8 (p - 0xD8)) (srcVOf sa) := by
  unfold instrV
  repeat (first | rw [if_pos (by omega)] | rw [if_neg (by omega)])
theorem instrV_movV {p : Nat} (u : Pipe) (h : 0xE0 ≤ p) (sa sb : BitVec 8) (inc : Bool) :
    instrV u p sa sb inc = .movV u (Fin.ofNat 32 (p - 0xE0)) (srcVOf sa) := by
  unfold instrV
  repeat (first | rw [if_pos (by omega)] | rw [if_neg (by omega)])

theorem infoK_recv {p : Nat} (h : 0x40 ≤ p ∧ p ≤ 0x6F ∨ 0x80 ≤ p ∧ p ≤ 0x9F) : infoK p = some { a := .ch } := by
  unfold infoK
  rcases h with h | h <;> repeat (first | rw [if_pos (by omega)] | rw [if_neg (by omega)])
theorem infoK_gzRd {p : Nat} (h : 0x70 ≤ p) (h' : p ≤ 0x7F) : infoK p = some { a := .kval } := by
  unfold infoK
  repeat (first | rw [if_pos (by omega)] | rw [if_neg (by omega)])
theorem instrK_recvV {p : Nat} (h : 0x40 ≤ p) (h' : p < 0x60) (sa sb : BitVec 8) :
    instrK p sa sb = .recvV (Fin.ofNat 32 (p - 0x40)) (chOf sa) := by
  unfold instrK
  repeat (first | rw [if_pos (by omega)] | rw [if_neg (by omega)])
theorem instrK_recvG {p : Nat} (h : 0x60 ≤ p) (h' : p < 0x70) (sa sb : BitVec 8) :
    instrK p sa sb = .recvG (Fin.ofNat 16 (p - 0x60)) (chOf sa) := by
  unfold instrK
  repeat (first | rw [if_pos (by omega)] | rw [if_neg (by omega)])
theorem instrK_gzRd {p : Nat} (h : 0x70 ≤ p) (h' : p < 0x80) (sa sb : BitVec 8) :
    instrK p sa sb = .gzRd (Fin.ofNat 16 (p - 0x70)) (srcOf sa) := by
  unfold instrK
  repeat (first | rw [if_pos (by omega)] | rw [if_neg (by omega)])
theorem instrK_recvadd {p : Nat} (h : 0x80 ≤ p) (h' : p < 0xA0) (sa sb : BitVec 8) :
    instrK p sa sb = .recvaddF32 (Fin.ofNat 32 (p - 0x80)) (chOf sa) := by
  unfold instrK
  repeat (first | rw [if_pos (by omega)] | rw [if_neg (by omega)])

theorem infoM_mma {p : Nat} (h : 0x40 ≤ p) (h' : p ≤ 0x7F) : infoM p = some { a := .ac, b := .lit, d := .sa } := by
  unfold infoM
  repeat (first | rw [if_pos (by omega)] | rw [if_neg (by omega)])
theorem infoM_ato {p : Nat} (h : 0x80 ≤ p) (h' : p ≤ 0xCF) : infoM p = some { a := .ac, b := .ob, d := .sb } := by
  unfold infoM
  repeat (first | rw [if_pos (by omega)] | rw [if_neg (by omega)])
theorem fmtOf_code (f : Fmt) : fmtOf f.code = f := by cases f <;> rfl
theorem Fmt.code_lt (f : Fmt) : f.code < 8 := by cases f <;> decide
theorem modeOf_code (m : Mode) : modeOf m.code = m := by cases m <;> rfl
theorem Mode.code_lt (m : Mode) : m.code < 5 := by cases m <;> decide

/-- The operand slots of a multiply: bit 4 in the port and the low bits in the pair (R94, R99). -/
theorem pair_slots (a b : Fin 32) (k : Nat) (h : k / 2 % 2 = a.val / 16) (h' : k % 2 = b.val / 16) :
    (Fin.ofNat 32 (k / 2 % 2 * 16 + (BitVec.ofNat 8 (a.val % 16 + 16 * (b.val % 16))).toNat % 16) : Fin 32) = a
      ∧ (Fin.ofNat 32 (k % 2 * 16 + (BitVec.ofNat 8 (a.val % 16 + 16 * (b.val % 16))).toNat / 16) : Fin 32) = b := by
  have ha := a.isLt
  have hb := b.isLt
  rw [ofNat8_toNat (by omega)]
  constructor
  · apply Fin.ext; simp only [Fin.ofNat]; omega
  · apply Fin.ext; simp only [Fin.ofNat]; omega

theorem instrM_mma {p : Nat} (h : 0x40 ≤ p) (h' : p < 0x60) (n : Fin 64) (f : Fmt) (a b : Fin 32)
    (hp : p = 0x40 + 4 * f.code + 2 * (a.val / 16) + b.val / 16) :
    instrM p (BitVec.ofNat 8 n) (BitVec.ofNat 8 (a.val % 16 + 16 * (b.val % 16))) = .mma f n a b := by
  have hf := f.code_lt
  have ha := a.isLt
  have hb := b.isLt
  obtain ⟨h1, h2⟩ := pair_slots a b (p % 32) (by omega) (by omega)
  unfold instrM
  simp only []
  rw [if_neg (by omega), if_neg (by omega), if_neg (by omega), if_pos (by omega), if_pos (by omega), h1, h2, low64_ac,
    show p % 32 / 4 = f.code by omega, fmtOf_code]

theorem instrM_mmz {p : Nat} (h : 0x60 ≤ p) (h' : p < 0x80) (n : Fin 64) (f : Fmt) (a b : Fin 32)
    (hp : p = 0x60 + 4 * f.code + 2 * (a.val / 16) + b.val / 16) :
    instrM p (BitVec.ofNat 8 n) (BitVec.ofNat 8 (a.val % 16 + 16 * (b.val % 16))) = .mmz f n a b := by
  have hf := f.code_lt
  have ha := a.isLt
  have hb := b.isLt
  obtain ⟨h1, h2⟩ := pair_slots a b (p % 32) (by omega) (by omega)
  unfold instrM
  simp only []
  rw [if_neg (by omega), if_neg (by omega), if_neg (by omega), if_pos (by omega), if_neg (by omega), h1, h2, low64_ac,
    show p % 32 / 4 = f.code by omega, fmtOf_code]

theorem instrM_ato {p : Nat} (f : Fmt) (m : Mode) (s : Bool) (o : Fin 32) (n : Fin 64)
    (hp : p = 0x80 + 10 * f.code + 2 * m.code + if s then 1 else 0) :
    instrM p (BitVec.ofNat 8 n) (BitVec.ofNat 8 (0x40 + o)) = .ato f m s o n := by
  have hf := f.code_lt
  have hm := m.code_lt
  have hs : (p - 0x80) % 2 = if s then 1 else 0 := by cases s <;> simp_all <;> omega
  have hk : (p - 0x80) / 10 = f.code ∧ (p - 0x80) % 10 / 2 = m.code := by cases s <;> simp_all <;> omega
  have hb : 0x80 ≤ p ∧ p ≤ 0xCF := by cases s <;> simp_all <;> omega
  unfold instrM
  simp only []
  rw [if_neg (by omega), if_neg (by omega), if_pos hb.1, hk.1, hk.2, hs, fmtOf_code, modeOf_code, low32_ob, low64_ac]
  cases s <;> rfl

/-! ### Loads and wake comparators -/

theorem instrLd_ldI8 (n : Fin 16) (a b : Src) (inc : Bool) : instrLd (0 * 16 + n.val) (encSrc a) (encSrc b) inc = .ldI8 n a b inc := by
  have hn := n.isLt
  simp only [instrLd, srcOf_encSrc, show (0 * 16 + n.val) / 16 = 0 by omega, fin_mod n (show (0 * 16 + n.val) % 16 = n.val by omega)]
theorem instrLd_ldN8 (n : Fin 16) (a b : Src) (inc : Bool) : instrLd (1 * 16 + n.val) (encSrc a) (encSrc b) inc = .ldN8 n a b inc := by
  have hn := n.isLt
  simp only [instrLd, srcOf_encSrc, show (1 * 16 + n.val) / 16 = 1 by omega, fin_mod n (show (1 * 16 + n.val) % 16 = n.val by omega)]
theorem instrLd_ldI16 (n : Fin 16) (a b : Src) (inc : Bool) : instrLd (2 * 16 + n.val) (encSrc a) (encSrc b) inc = .ldI16 n a b inc := by
  have hn := n.isLt
  simp only [instrLd, srcOf_encSrc, show (2 * 16 + n.val) / 16 = 2 by omega, fin_mod n (show (2 * 16 + n.val) % 16 = n.val by omega)]
theorem instrLd_ldN16 (n : Fin 16) (a b : Src) (inc : Bool) : instrLd (3 * 16 + n.val) (encSrc a) (encSrc b) inc = .ldN16 n a b inc := by
  have hn := n.isLt
  simp only [instrLd, srcOf_encSrc, show (3 * 16 + n.val) / 16 = 3 by omega, fin_mod n (show (3 * 16 + n.val) % 16 = n.val by omega)]
theorem instrLd_ldI32 (n : Fin 16) (a b : Src) (inc : Bool) : instrLd (4 * 16 + n.val) (encSrc a) (encSrc b) inc = .ldI32 n a b inc := by
  have hn := n.isLt
  simp only [instrLd, srcOf_encSrc, show (4 * 16 + n.val) / 16 = 4 by omega, fin_mod n (show (4 * 16 + n.val) % 16 = n.val by omega)]
theorem instrLd_ldN32 (n : Fin 16) (a b : Src) (inc : Bool) : instrLd (5 * 16 + n.val) (encSrc a) (encSrc b) inc = .ldN32 n a b inc := by
  have hn := n.isLt
  simp only [instrLd, srcOf_encSrc, show (5 * 16 + n.val) / 16 = 5 by omega, fin_mod n (show (5 * 16 + n.val) % 16 = n.val by omega)]
theorem instrLd_ldN64 (n : Fin 16) (a b : Src) (inc : Bool) : instrLd (6 * 16 + n.val) (encSrc a) (encSrc b) inc = .ldN64 n a b inc := by
  have hn := n.isLt
  simp only [instrLd, srcOf_encSrc, show (6 * 16 + n.val) / 16 = 6 by omega, fin_mod n (show (6 * 16 + n.val) % 16 = n.val by omega)]

theorem infoC_wk (w : Fin 8) : infoC (0x20 + w) = some { a := .sg, b := .sg } := by revert w; decide
theorem infoC_wk' (w : Fin 8) : infoC (0x28 + w) = some {} := by revert w; decide
theorem instrC_wkArm (e : Eng) (w : Fin 8) (sa sb : BitVec 8) : instrC e (0x20 + w) sa sb = .wkArm e w (sgOf sa) (sgOf sb) := by
  have h : ∀ k : Nat, k < 8 → instrC e (0x20 + k) sa sb = .wkArm e (Fin.ofNat 8 k) (sgOf sa) (sgOf sb) := fun
    | 0, _ | 1, _ | 2, _ | 3, _ | 4, _ | 5, _ | 6, _ | 7, _ => rfl
    | k + 8, h => absurd h (by omega)
  rw [h w.val w.isLt]
  congr 1
  exact Fin.ext (Nat.mod_eq_of_lt w.isLt)
theorem instrC_wkDisarm (e : Eng) (w : Fin 8) (sa sb : BitVec 8) : instrC e (0x28 + w) sa sb = .wkDisarm e w := by
  have h : ∀ k : Nat, k < 8 → instrC e (0x28 + k) sa sb = .wkDisarm e (Fin.ofNat 8 k) := fun
    | 0, _ | 1, _ | 2, _ | 3, _ | 4, _ | 5, _ | 6, _ | 7, _ => rfl
    | k + 8, h => absurd h (by omega)
  rw [h w.val w.isLt]
  congr 1
  exact Fin.ext (Nat.mod_eq_of_lt w.isLt)

end Sys2Proof
end

