-- ==== Sys2Proof/Laws/Dispatch.lean ====
section
/-! SUPPORT. What the dispatch gives each instruction, and that a slot operation means the same in a group. -/
namespace Sys2Proof.Machine

/-! ### The meaning of each instruction -/

@[simp] theorem exec_nop  (s : State) : exec (.nop) s = execNop s := rfl
@[simp] theorem exec_br (d : BitVec 16) (s : State) : exec (.br d) s = execBr d s := rfl
@[simp] theorem exec_bz (d : BitVec 16) (s : State) : exec (.bz d) s = execBz d s := rfl
@[simp] theorem exec_bnz (d : BitVec 16) (s : State) : exec (.bnz d) s = execBnz d s := rfl
@[simp] theorem exec_call (d : BitVec 16) (s : State) : exec (.call d) s = execCall d s := rfl
@[simp] theorem exec_ret (a : Src) (s : State) : exec (.ret a) s = execRet a s := rfl
@[simp] theorem exec_jr (a : Src) (s : State) : exec (.jr a) s = execJr a s := rfl
@[simp] theorem exec_loop (a : Src) (s : State) : exec (.loop a) s = execLoop a s := rfl
@[simp] theorem exec_loopn (a : Src) (s : State) : exec (.loopn a) s = execLoopn a s := rfl
@[simp] theorem exec_waitLt (k : Fin 16) (b : Src) (s : State) : exec (.waitLt k b) s = execWaitLt k b s := rfl
@[simp] theorem exec_waitBar (a b : Src) (s : State) : exec (.waitBar a b) s = execWaitBar a b s := rfl
@[simp] theorem exec_waitWake  (s : State) : exec (.waitWake) s = execWaitWake s := rfl
@[simp] theorem exec_halt  (s : State) : exec (.halt) s = execHalt s := rfl
@[simp] theorem exec_trap (code : BitVec 8) (s : State) : exec (.trap code) s = execTrap code s := rfl
@[simp] theorem exec_sysret  (s : State) : exec (.sysret) s = execSysret s := rfl
@[simp] theorem exec_fence (sc : FenceScope) (s : State) : exec (.fence sc) s = execFence sc s := rfl
@[simp] theorem exec_sbar (rd wr mem : Bool) (s : State) : exec (.sbar rd wr mem) s = execSbar rd wr mem s := rfl
@[simp] theorem exec_ckpt (a : Src) (s : State) : exec (.ckpt a) s = execCkpt a s := rfl
@[simp] theorem exec_nextTile  (s : State) : exec (.nextTile) s = execNextTile s := rfl
@[simp] theorem exec_launch (a : Src) (s : State) : exec (.launch a) s = execLaunch a s := rfl
@[simp] theorem exec_sysrd (w : Fin 64) (s : State) : exec (.sysrd w) s = execSysrd w s := rfl
@[simp] theorem exec_syswr (w : Fin 64) (b : Src) (s : State) : exec (.syswr w b) s = execSyswr w b s := rfl
@[simp] theorem exec_li (imm : BitVec 16) (s : State) : exec (.li imm) s = execLi imm s := rfl
@[simp] theorem exec_lih (imm : BitVec 16) (s : State) : exec (.lih imm) s = execLih imm s := rfl
@[simp] theorem exec_sMov (a : Src) (s : State) : exec (.sMov a) s = execSMov a s := rfl
@[simp] theorem exec_sSel (a b : Src) (s : State) : exec (.sSel a b) s = execSSel a b s := rfl
@[simp] theorem exec_addI64 (a b : Src) (s : State) : exec (.addI64 a b) s = execAddI64 a b s := rfl
@[simp] theorem exec_subI64 (a b : Src) (s : State) : exec (.subI64 a b) s = execSubI64 a b s := rfl
@[simp] theorem exec_mulI64 (a b : Src) (s : State) : exec (.mulI64 a b) s = execMulI64 a b s := rfl
@[simp] theorem exec_mulhI64 (a b : Src) (s : State) : exec (.mulhI64 a b) s = execMulhI64 a b s := rfl
@[simp] theorem exec_mulhN64 (a b : Src) (s : State) : exec (.mulhN64 a b) s = execMulhN64 a b s := rfl
@[simp] theorem exec_divI64 (a b : Src) (s : State) : exec (.divI64 a b) s = execDivI64 a b s := rfl
@[simp] theorem exec_divN64 (a b : Src) (s : State) : exec (.divN64 a b) s = execDivN64 a b s := rfl
@[simp] theorem exec_sAnd (a b : Src) (s : State) : exec (.sAnd a b) s = execSAnd a b s := rfl
@[simp] theorem exec_sOr (a b : Src) (s : State) : exec (.sOr a b) s = execSOr a b s := rfl
@[simp] theorem exec_sXor (a b : Src) (s : State) : exec (.sXor a b) s = execSXor a b s := rfl
@[simp] theorem exec_sAndn (a b : Src) (s : State) : exec (.sAndn a b) s = execSAndn a b s := rfl
@[simp] theorem exec_sShl (a b : Src) (s : State) : exec (.sShl a b) s = execSShl a b s := rfl
@[simp] theorem exec_shrN64 (a b : Src) (s : State) : exec (.shrN64 a b) s = execShrN64 a b s := rfl
@[simp] theorem exec_shrI64 (a b : Src) (s : State) : exec (.shrI64 a b) s = execShrI64 a b s := rfl
@[simp] theorem exec_rotl (a b : Src) (s : State) : exec (.rotl a b) s = execRotl a b s := rfl
@[simp] theorem exec_clz (a : Src) (s : State) : exec (.clz a) s = execClz a s := rfl
@[simp] theorem exec_popc (a : Src) (s : State) : exec (.popc a) s = execPopc a s := rfl
@[simp] theorem exec_minI64 (a b : Src) (s : State) : exec (.minI64 a b) s = execMinI64 a b s := rfl
@[simp] theorem exec_minN64 (a b : Src) (s : State) : exec (.minN64 a b) s = execMinN64 a b s := rfl
@[simp] theorem exec_maxI64 (a b : Src) (s : State) : exec (.maxI64 a b) s = execMaxI64 a b s := rfl
@[simp] theorem exec_maxN64 (a b : Src) (s : State) : exec (.maxN64 a b) s = execMaxN64 a b s := rfl
@[simp] theorem exec_ceq (a b : Src) (s : State) : exec (.ceq a b) s = execCeq a b s := rfl
@[simp] theorem exec_cne (a b : Src) (s : State) : exec (.cne a b) s = execCne a b s := rfl
@[simp] theorem exec_cltI64 (a b : Src) (s : State) : exec (.cltI64 a b) s = execCltI64 a b s := rfl
@[simp] theorem exec_cltN64 (a b : Src) (s : State) : exec (.cltN64 a b) s = execCltN64 a b s := rfl
@[simp] theorem exec_cleI64 (a b : Src) (s : State) : exec (.cleI64 a b) s = execCleI64 a b s := rfl
@[simp] theorem exec_cleN64 (a b : Src) (s : State) : exec (.cleN64 a b) s = execCleN64 a b s := rfl
@[simp] theorem exec_st (w : StW) (a b : Src) (inc : Bool) (s : State) : exec (.st w a b inc) s = execSt w a b inc s := rfl
@[simp] theorem exec_amoAddI64 (o : AmoOrd) (a : Src) (r : Option (Fin 16)) (s : State) : exec (.amoAddI64 o a r) s = execAmoAddI64 o a r s := rfl
@[simp] theorem exec_amoAnd (o : AmoOrd) (a : Src) (r : Option (Fin 16)) (s : State) : exec (.amoAnd o a r) s = execAmoAnd o a r s := rfl
@[simp] theorem exec_amoOr (o : AmoOrd) (a : Src) (r : Option (Fin 16)) (s : State) : exec (.amoOr o a r) s = execAmoOr o a r s := rfl
@[simp] theorem exec_amoXor (o : AmoOrd) (a : Src) (r : Option (Fin 16)) (s : State) : exec (.amoXor o a r) s = execAmoXor o a r s := rfl
@[simp] theorem exec_amoMinI64 (o : AmoOrd) (a : Src) (r : Option (Fin 16)) (s : State) : exec (.amoMinI64 o a r) s = execAmoMinI64 o a r s := rfl
@[simp] theorem exec_amoMaxI64 (o : AmoOrd) (a : Src) (r : Option (Fin 16)) (s : State) : exec (.amoMaxI64 o a r) s = execAmoMaxI64 o a r s := rfl
@[simp] theorem exec_amoMinN64 (o : AmoOrd) (a : Src) (r : Option (Fin 16)) (s : State) : exec (.amoMinN64 o a r) s = execAmoMinN64 o a r s := rfl
@[simp] theorem exec_amoMaxN64 (o : AmoOrd) (a : Src) (r : Option (Fin 16)) (s : State) : exec (.amoMaxN64 o a r) s = execAmoMaxN64 o a r s := rfl
@[simp] theorem exec_amoSwap (o : AmoOrd) (a : Src) (r : Option (Fin 16)) (s : State) : exec (.amoSwap o a r) s = execAmoSwap o a r s := rfl
@[simp] theorem exec_amoCas (o : AmoOrd) (a : Src) (r : Option (Fin 16)) (s : State) : exec (.amoCas o a r) s = execAmoCas o a r s := rfl
@[simp] theorem exec_amoFaddF32 (o : AmoOrd) (a : Src) (r : Option (Fin 16)) (s : State) : exec (.amoFaddF32 o a r) s = execAmoFaddF32 o a r s := rfl
@[simp] theorem exec_lockL2 (a b : Src) (s : State) : exec (.lockL2 a b) s = execLockL2 a b s := rfl
@[simp] theorem exec_unlockL2 (a b : Src) (s : State) : exec (.unlockL2 a b) s = execUnlockL2 a b s := rfl
@[simp] theorem exec_pref (a : Src) (s : State) : exec (.pref a) s = execPref a s := rfl
@[simp] theorem exec_ldI8 (n : Fin 16) (a b : Src) (inc : Bool) (s : State) : exec (.ldI8 n a b inc) s = execLdI8 n a b inc s := rfl
@[simp] theorem exec_ldN8 (n : Fin 16) (a b : Src) (inc : Bool) (s : State) : exec (.ldN8 n a b inc) s = execLdN8 n a b inc s := rfl
@[simp] theorem exec_ldI16 (n : Fin 16) (a b : Src) (inc : Bool) (s : State) : exec (.ldI16 n a b inc) s = execLdI16 n a b inc s := rfl
@[simp] theorem exec_ldN16 (n : Fin 16) (a b : Src) (inc : Bool) (s : State) : exec (.ldN16 n a b inc) s = execLdN16 n a b inc s := rfl
@[simp] theorem exec_ldI32 (n : Fin 16) (a b : Src) (inc : Bool) (s : State) : exec (.ldI32 n a b inc) s = execLdI32 n a b inc s := rfl
@[simp] theorem exec_ldN32 (n : Fin 16) (a b : Src) (inc : Bool) (s : State) : exec (.ldN32 n a b inc) s = execLdN32 n a b inc s := rfl
@[simp] theorem exec_ldN64 (n : Fin 16) (a b : Src) (inc : Bool) (s : State) : exec (.ldN64 n a b inc) s = execLdN64 n a b inc s := rfl
@[simp] theorem exec_sLatA (a : Src) (s : State) : exec (.sLatA a) s = execSLatA a s := rfl
@[simp] theorem exec_sLatAb (a b : Src) (s : State) : exec (.sLatAb a b) s = execSLatAb a b s := rfl
@[simp] theorem exec_sMovP (n : Fin 8) (a : Src) (s : State) : exec (.sMovP n a) s = execSMovP n a s := rfl
@[simp] theorem exec_movG (n : Fin 16) (a : Src) (s : State) : exec (.movG n a) s = execMovG n a s := rfl
@[simp] theorem exec_addF32 (u : Pipe) (a b : SrcV) (s : State) : exec (.addF32 u a b) s = execAddF32 u a b s := rfl
@[simp] theorem exec_addBf16 (u : Pipe) (a b : SrcV) (s : State) : exec (.addBf16 u a b) s = execAddBf16 u a b s := rfl
@[simp] theorem exec_addF16 (u : Pipe) (a b : SrcV) (s : State) : exec (.addF16 u a b) s = execAddF16 u a b s := rfl
@[simp] theorem exec_subF32 (u : Pipe) (a b : SrcV) (s : State) : exec (.subF32 u a b) s = execSubF32 u a b s := rfl
@[simp] theorem exec_subBf16 (u : Pipe) (a b : SrcV) (s : State) : exec (.subBf16 u a b) s = execSubBf16 u a b s := rfl
@[simp] theorem exec_subF16 (u : Pipe) (a b : SrcV) (s : State) : exec (.subF16 u a b) s = execSubF16 u a b s := rfl
@[simp] theorem exec_mulF32 (u : Pipe) (a b : SrcV) (s : State) : exec (.mulF32 u a b) s = execMulF32 u a b s := rfl
@[simp] theorem exec_mulBf16 (u : Pipe) (a b : SrcV) (s : State) : exec (.mulBf16 u a b) s = execMulBf16 u a b s := rfl
@[simp] theorem exec_mulF16 (u : Pipe) (a b : SrcV) (s : State) : exec (.mulF16 u a b) s = execMulF16 u a b s := rfl
@[simp] theorem exec_fmaF32 (u : Pipe) (a b : SrcV) (s : State) : exec (.fmaF32 u a b) s = execFmaF32 u a b s := rfl
@[simp] theorem exec_fmaBf16 (u : Pipe) (a b : SrcV) (s : State) : exec (.fmaBf16 u a b) s = execFmaBf16 u a b s := rfl
@[simp] theorem exec_fmaF16 (u : Pipe) (a b : SrcV) (s : State) : exec (.fmaF16 u a b) s = execFmaF16 u a b s := rfl
@[simp] theorem exec_minF32 (u : Pipe) (a b : SrcV) (s : State) : exec (.minF32 u a b) s = execMinF32 u a b s := rfl
@[simp] theorem exec_minBf16 (u : Pipe) (a b : SrcV) (s : State) : exec (.minBf16 u a b) s = execMinBf16 u a b s := rfl
@[simp] theorem exec_minF16 (u : Pipe) (a b : SrcV) (s : State) : exec (.minF16 u a b) s = execMinF16 u a b s := rfl
@[simp] theorem exec_maxF32 (u : Pipe) (a b : SrcV) (s : State) : exec (.maxF32 u a b) s = execMaxF32 u a b s := rfl
@[simp] theorem exec_maxBf16 (u : Pipe) (a b : SrcV) (s : State) : exec (.maxBf16 u a b) s = execMaxBf16 u a b s := rfl
@[simp] theorem exec_maxF16 (u : Pipe) (a b : SrcV) (s : State) : exec (.maxF16 u a b) s = execMaxF16 u a b s := rfl
@[simp] theorem exec_rcpF32 (u : Pipe) (a : SrcV) (s : State) : exec (.rcpF32 u a) s = execRcpF32 u a s := rfl
@[simp] theorem exec_rsqrtF32 (u : Pipe) (a : SrcV) (s : State) : exec (.rsqrtF32 u a) s = execRsqrtF32 u a s := rfl
@[simp] theorem exec_exp2F32 (u : Pipe) (a : SrcV) (s : State) : exec (.exp2F32 u a) s = execExp2F32 u a s := rfl
@[simp] theorem exec_log2F32 (u : Pipe) (a : SrcV) (s : State) : exec (.log2F32 u a) s = execLog2F32 u a s := rfl
@[simp] theorem exec_addI32 (u : Pipe) (a b : SrcV) (s : State) : exec (.addI32 u a b) s = execAddI32 u a b s := rfl
@[simp] theorem exec_subI32 (u : Pipe) (a b : SrcV) (s : State) : exec (.subI32 u a b) s = execSubI32 u a b s := rfl
@[simp] theorem exec_mulI32 (u : Pipe) (a b : SrcV) (s : State) : exec (.mulI32 u a b) s = execMulI32 u a b s := rfl
@[simp] theorem exec_addSatI32 (u : Pipe) (a b : SrcV) (s : State) : exec (.addSatI32 u a b) s = execAddSatI32 u a b s := rfl
@[simp] theorem exec_subSatI32 (u : Pipe) (a b : SrcV) (s : State) : exec (.subSatI32 u a b) s = execSubSatI32 u a b s := rfl
@[simp] theorem exec_minI32 (u : Pipe) (a b : SrcV) (s : State) : exec (.minI32 u a b) s = execMinI32 u a b s := rfl
@[simp] theorem exec_minN32 (u : Pipe) (a b : SrcV) (s : State) : exec (.minN32 u a b) s = execMinN32 u a b s := rfl
@[simp] theorem exec_maxI32 (u : Pipe) (a b : SrcV) (s : State) : exec (.maxI32 u a b) s = execMaxI32 u a b s := rfl
@[simp] theorem exec_maxN32 (u : Pipe) (a b : SrcV) (s : State) : exec (.maxN32 u a b) s = execMaxN32 u a b s := rfl
@[simp] theorem exec_vAnd (u : Pipe) (a b : SrcV) (s : State) : exec (.vAnd u a b) s = execVAnd u a b s := rfl
@[simp] theorem exec_vOr (u : Pipe) (a b : SrcV) (s : State) : exec (.vOr u a b) s = execVOr u a b s := rfl
@[simp] theorem exec_vXor (u : Pipe) (a b : SrcV) (s : State) : exec (.vXor u a b) s = execVXor u a b s := rfl
@[simp] theorem exec_vAndn (u : Pipe) (a b : SrcV) (s : State) : exec (.vAndn u a b) s = execVAndn u a b s := rfl
@[simp] theorem exec_vShl (u : Pipe) (a b : SrcV) (s : State) : exec (.vShl u a b) s = execVShl u a b s := rfl
@[simp] theorem exec_shrN32 (u : Pipe) (a b : SrcV) (s : State) : exec (.shrN32 u a b) s = execShrN32 u a b s := rfl
@[simp] theorem exec_shrI32 (u : Pipe) (a b : SrcV) (s : State) : exec (.shrI32 u a b) s = execShrI32 u a b s := rfl
@[simp] theorem exec_ceqF32 (u : Pipe) (a b : SrcV) (s : State) : exec (.ceqF32 u a b) s = execCeqF32 u a b s := rfl
@[simp] theorem exec_cltF32 (u : Pipe) (a b : SrcV) (s : State) : exec (.cltF32 u a b) s = execCltF32 u a b s := rfl
@[simp] theorem exec_cleF32 (u : Pipe) (a b : SrcV) (s : State) : exec (.cleF32 u a b) s = execCleF32 u a b s := rfl
@[simp] theorem exec_ceqI32 (u : Pipe) (a b : SrcV) (s : State) : exec (.ceqI32 u a b) s = execCeqI32 u a b s := rfl
@[simp] theorem exec_cltI32 (u : Pipe) (a b : SrcV) (s : State) : exec (.cltI32 u a b) s = execCltI32 u a b s := rfl
@[simp] theorem exec_cltN32 (u : Pipe) (a b : SrcV) (s : State) : exec (.cltN32 u a b) s = execCltN32 u a b s := rfl
@[simp] theorem exec_vSel (u : Pipe) (a b : SrcV) (s : State) : exec (.vSel u a b) s = execVSel u a b s := rfl
@[simp] theorem exec_vMov (u : Pipe) (a : SrcV) (s : State) : exec (.vMov u a) s = execVMov u a s := rfl
@[simp] theorem exec_cvt (u : Pipe) (d : CvtFmt) (a : SrcV) (s : State) : exec (.cvt u d a) s = execCvt u d a s := rfl
@[simp] theorem exec_cvtBf16F32Mode (u : Pipe) (a : SrcV) (m : Mode) (sat : Bool) (s : State) : exec (.cvtBf16F32Mode u a m sat) s = execCvtBf16F32Mode u a m sat s := rfl
@[simp] theorem exec_cvtF16F32Mode (u : Pipe) (a : SrcV) (m : Mode) (sat : Bool) (s : State) : exec (.cvtF16F32Mode u a m sat) s = execCvtF16F32Mode u a m sat s := rfl
@[simp] theorem exec_cvtE4m3F32Mode (u : Pipe) (a : SrcV) (m : Mode) (sat : Bool) (s : State) : exec (.cvtE4m3F32Mode u a m sat) s = execCvtE4m3F32Mode u a m sat s := rfl
@[simp] theorem exec_cvtE5m2F32Mode (u : Pipe) (a : SrcV) (m : Mode) (sat : Bool) (s : State) : exec (.cvtE5m2F32Mode u a m sat) s = execCvtE5m2F32Mode u a m sat s := rfl
@[simp] theorem exec_cvtI32F32Mode (u : Pipe) (a : SrcV) (m : Mode) (sat : Bool) (s : State) : exec (.cvtI32F32Mode u a m sat) s = execCvtI32F32Mode u a m sat s := rfl
@[simp] theorem exec_cvtI8F32Mode (u : Pipe) (a : SrcV) (m : Mode) (sat : Bool) (s : State) : exec (.cvtI8F32Mode u a m sat) s = execCvtI8F32Mode u a m sat s := rfl
@[simp] theorem exec_cvtF32Bf16 (u : Pipe) (a : SrcV) (s : State) : exec (.cvtF32Bf16 u a) s = execCvtF32Bf16 u a s := rfl
@[simp] theorem exec_cvtF32F16 (u : Pipe) (a : SrcV) (s : State) : exec (.cvtF32F16 u a) s = execCvtF32F16 u a s := rfl
@[simp] theorem exec_cvtF32E4m3 (u : Pipe) (a : SrcV) (s : State) : exec (.cvtF32E4m3 u a) s = execCvtF32E4m3 u a s := rfl
@[simp] theorem exec_cvtF32E5m2 (u : Pipe) (a : SrcV) (s : State) : exec (.cvtF32E5m2 u a) s = execCvtF32E5m2 u a s := rfl
@[simp] theorem exec_cvtF32I32 (u : Pipe) (a : SrcV) (s : State) : exec (.cvtF32I32 u a) s = execCvtF32I32 u a s := rfl
@[simp] theorem exec_cvtF32I8 (u : Pipe) (a : SrcV) (s : State) : exec (.cvtF32I8 u a) s = execCvtF32I8 u a s := rfl
@[simp] theorem exec_packNx2 (u : Pipe) (a : SrcV) (s : State) : exec (.packNx2 u a) s = execPackNx2 u a s := rfl
@[simp] theorem exec_packNx4 (u : Pipe) (a : SrcV) (s : State) : exec (.packNx4 u a) s = execPackNx4 u a s := rfl
@[simp] theorem exec_packNx7 (u : Pipe) (a : SrcV) (s : State) : exec (.packNx7 u a) s = execPackNx7 u a s := rfl
@[simp] theorem exec_packNx2Mode (u : Pipe) (a : SrcV) (m : Mode) (sat : Bool) (s : State) : exec (.packNx2Mode u a m sat) s = execPackNx2Mode u a m sat s := rfl
@[simp] theorem exec_packNx4Mode (u : Pipe) (a : SrcV) (m : Mode) (sat : Bool) (s : State) : exec (.packNx4Mode u a m sat) s = execPackNx4Mode u a m sat s := rfl
@[simp] theorem exec_packNx7Mode (u : Pipe) (a : SrcV) (m : Mode) (sat : Bool) (s : State) : exec (.packNx7Mode u a m sat) s = execPackNx7Mode u a m sat s := rfl
@[simp] theorem exec_unpkNx2 (u : Pipe) (a : SrcV) (s : State) : exec (.unpkNx2 u a) s = execUnpkNx2 u a s := rfl
@[simp] theorem exec_unpkNx4 (u : Pipe) (a : SrcV) (s : State) : exec (.unpkNx4 u a) s = execUnpkNx4 u a s := rfl
@[simp] theorem exec_unpkNx7 (u : Pipe) (a : SrcV) (s : State) : exec (.unpkNx7 u a) s = execUnpkNx7 u a s := rfl
@[simp] theorem exec_redF32 (u : Pipe) (a : SrcV) (op : RedOp) (s : State) : exec (.redF32 u a op) s = execRedF32 u a op s := rfl
@[simp] theorem exec_redI32 (u : Pipe) (a : SrcV) (op : RedOp) (s : State) : exec (.redI32 u a op) s = execRedI32 u a op s := rfl
@[simp] theorem exec_scanF32 (u : Pipe) (a : SrcV) (op : RedOp) (ex : Bool) (s : State) : exec (.scanF32 u a op ex) s = execScanF32 u a op ex s := rfl
@[simp] theorem exec_scanI32 (u : Pipe) (a : SrcV) (op : RedOp) (ex : Bool) (s : State) : exec (.scanI32 u a op ex) s = execScanI32 u a op ex s := rfl
@[simp] theorem exec_perm (u : Pipe) (a : SrcV) (ix : IdxV) (s : State) : exec (.perm u a ix) s = execPerm u a ix s := rfl
@[simp] theorem exec_vld (u : Pipe) (n : Fin 32) (a : SqG) (ix : OffV) (inc : Bool) (s : State) : exec (.vld u n a ix inc) s = execVld u n a ix inc s := rfl
@[simp] theorem exec_vldS (u : Pipe) (n : Fin 32) (a : SqG) (ix : OffV) (inc : Bool) (s : State) : exec (.vldS u n a ix inc) s = execVldS u n a ix inc s := rfl
@[simp] theorem exec_vldX (u : Pipe) (n : Fin 32) (a : SqG) (ix : IdxV) (s : State) : exec (.vldX u n a ix) s = execVldX u n a ix s := rfl
@[simp] theorem exec_ldTr (u : Pipe) (n : Fin 32) (a : SqG) (ix : OffV) (inc : Bool) (s : State) : exec (.ldTr u n a ix inc) s = execLdTr u n a ix inc s := rfl
@[simp] theorem exec_bcast (u : Pipe) (a : SrcV) (n : CntV) (s : State) : exec (.bcast u a n) s = execBcast u a n s := rfl
@[simp] theorem exec_lrot (u : Pipe) (a : SrcV) (n : CntV) (s : State) : exec (.lrot u a n) s = execLrot u a n s := rfl
@[simp] theorem exec_vst (u : Pipe) (a : SqG) (ix : OffV) (inc : Bool) (s : State) : exec (.vst u a ix inc) s = execVst u a ix inc s := rfl
@[simp] theorem exec_vstS (u : Pipe) (a : SqG) (ix : OffV) (inc : Bool) (s : State) : exec (.vstS u a ix inc) s = execVstS u a ix inc s := rfl
@[simp] theorem exec_vstX (u : Pipe) (a : SqG) (ix : IdxV) (s : State) : exec (.vstX u a ix) s = execVstX u a ix s := rfl
@[simp] theorem exec_wrow (u : Pipe) (a : SrcV) (sel : CntV) (s : State) : exec (.wrow u a sel) s = execWrow u a sel s := rfl
@[simp] theorem exec_vLatA (u : Pipe) (a : SrcV) (s : State) : exec (.vLatA u a) s = execVLatA u a s := rfl
@[simp] theorem exec_vLatAb (u : Pipe) (a b : SrcV) (s : State) : exec (.vLatAb u a b) s = execVLatAb u a b s := rfl
@[simp] theorem exec_vMovP (u : Pipe) (n : Fin 8) (a : SrcV) (s : State) : exec (.vMovP u n a) s = execVMovP u n a s := rfl
@[simp] theorem exec_movV (u : Pipe) (n : Fin 32) (a : SrcV) (s : State) : exec (.movV u n a) s = execMovV u n a s := rfl
@[simp] theorem exec_oclaim (n : Fin 32) (s : State) : exec (.oclaim n) s = execOclaim n s := rfl
@[simp] theorem exec_orel (n : Fin 32) (s : State) : exec (.orel n) s = execOrel n s := rfl
@[simp] theorem exec_azero (n : Fin 64) (s : State) : exec (.azero n) s = execAzero n s := rfl
@[simp] theorem exec_ascale (n : Fin 64) (b : SqG) (s : State) : exec (.ascale n b) s = execAscale n b s := rfl
@[simp] theorem exec_apin (n : Fin 64) (s : State) : exec (.apin n) s = execApin n s := rfl
@[simp] theorem exec_aunpin (n : Fin 64) (s : State) : exec (.aunpin n) s = execAunpin n s := rfl
@[simp] theorem exec_adrain (n : Fin 64) (q : Fin 4) (s : State) : exec (.adrain n q) s = execAdrain n q s := rfl
@[simp] theorem exec_astat (n : Fin 64) (s : State) : exec (.astat n) s = execAstat n s := rfl
@[simp] theorem exec_mma (f : Fmt) (n : Fin 64) (a b : Fin 32) (s : State) : exec (.mma f n a b) s = execMma f n a b s := rfl
@[simp] theorem exec_mmz (f : Fmt) (n : Fin 64) (a b : Fin 32) (s : State) : exec (.mmz f n a b) s = execMmz f n a b s := rfl
@[simp] theorem exec_ato (f : Fmt) (m : Mode) (sat : Bool) (o : Fin 32) (n : Fin 64) (s : State) : exec (.ato f m sat o n) s = execAto f m sat o n s := rfl
@[simp] theorem exec_mckLatA (u : MckUnit) (a : Src) (s : State) : exec (.mckLatA u a) s = execMckLatA u a s := rfl
@[simp] theorem exec_mckLatAb (u : MckUnit) (a b : Src) (s : State) : exec (.mckLatAb u a b) s = execMckLatAb u a b s := rfl
@[simp] theorem exec_cpNest (e : Eng) (a : SqG) (s : State) : exec (.cpNest e a) s = execCpNest e a s := rfl
@[simp] theorem exec_cpMcast (e : Eng) (a : SqG) (s : State) : exec (.cpMcast e a) s = execCpMcast e a s := rfl
@[simp] theorem exec_cbClaim (e : Eng) (n : Fin 8) (b : SqG) (s : State) : exec (.cbClaim e n b) s = execCbClaim e n b s := rfl
@[simp] theorem exec_cbCommit (e : Eng) (n : Fin 8) (b : SqG) (s : State) : exec (.cbCommit e n b) s = execCbCommit e n b s := rfl
@[simp] theorem exec_cbAwait (e : Eng) (n : Fin 8) (b : SqG) (s : State) : exec (.cbAwait e n b) s = execCbAwait e n b s := rfl
@[simp] theorem exec_cbRetire (e : Eng) (n : Fin 8) (b : SqG) (s : State) : exec (.cbRetire e n b) s = execCbRetire e n b s := rfl
@[simp] theorem exec_barInit (e : Eng) (a b : SqG) (s : State) : exec (.barInit e a b) s = execBarInit e a b s := rfl
@[simp] theorem exec_barArriveRel (e : Eng) (a b : SqG) (s : State) : exec (.barArriveRel e a b) s = execBarArriveRel e a b s := rfl
@[simp] theorem exec_barArriveRlx (e : Eng) (a b : SqG) (s : State) : exec (.barArriveRlx e a b) s = execBarArriveRlx e a b s := rfl
@[simp] theorem exec_barDrop (e : Eng) (a : SqG) (s : State) : exec (.barDrop e a) s = execBarDrop e a s := rfl
@[simp] theorem exec_barTest (e : Eng) (a : SqG) (s : State) : exec (.barTest e a) s = execBarTest e a s := rfl
@[simp] theorem exec_kSet (e : Eng) (n : Fin 16) (b : SqG) (s : State) : exec (.kSet e n b) s = execKSet e n b s := rfl
@[simp] theorem exec_kAdd (e : Eng) (n : Fin 16) (b : SqG) (s : State) : exec (.kAdd e n b) s = execKAdd e n b s := rfl
@[simp] theorem exec_wkArm (e : Eng) (w : Fin 8) (a b : SqG) (s : State) : exec (.wkArm e w a b) s = execWkArm e w a b s := rfl
@[simp] theorem exec_wkDisarm (e : Eng) (w : Fin 8) (s : State) : exec (.wkDisarm e w) s = execWkDisarm e w s := rfl
@[simp] theorem exec_stashPut (e : Eng) (a b : SqG) (s : State) : exec (.stashPut e a b) s = execStashPut e a b s := rfl
@[simp] theorem exec_stashGet (e : Eng) (a b : SqG) (s : State) : exec (.stashGet e a b) s = execStashGet e a b s := rfl
@[simp] theorem exec_stashPf (e : Eng) (a b : SqG) (s : State) : exec (.stashPf e a b) s = execStashPf e a b s := rfl
@[simp] theorem exec_stashDrop (e : Eng) (a b : SqG) (s : State) : exec (.stashDrop e a b) s = execStashDrop e a b s := rfl
@[simp] theorem exec_stashFree (e : Eng) (a b : SqG) (s : State) : exec (.stashFree e a b) s = execStashFree e a b s := rfl
@[simp] theorem exec_wvCommit (e : Eng) (a b : SqG) (s : State) : exec (.wvCommit e a b) s = execWvCommit e a b s := rfl
@[simp] theorem exec_send (c : Fin 11) (a : SendSrc) (s : State) : exec (.send c a) s = execSend c a s := rfl
@[simp] theorem exec_sendM (c : Fin 11) (a : Src) (s : State) : exec (.sendM c a) s = execSendM c a s := rfl
@[simp] theorem exec_chwin (c : Fin 11) (b : Src) (s : State) : exec (.chwin c b) s = execChwin c b s := rfl
@[simp] theorem exec_colGo (a : Src) (s : State) : exec (.colGo a) s = execColGo a s := rfl
@[simp] theorem exec_colAbort (a : Src) (s : State) : exec (.colAbort a) s = execColAbort a s := rfl
@[simp] theorem exec_gzPut (a b : Src) (s : State) : exec (.gzPut a b) s = execGzPut a b s := rfl
@[simp] theorem exec_gzDone (a : Src) (s : State) : exec (.gzDone a) s = execGzDone a s := rfl
@[simp] theorem exec_trustQ (a : Src) (s : State) : exec (.trustQ a) s = execTrustQ a s := rfl
@[simp] theorem exec_recvV (n : Fin 32) (c : Fin 11) (s : State) : exec (.recvV n c) s = execRecvV n c s := rfl
@[simp] theorem exec_recvG (n : Fin 16) (c : Fin 11) (s : State) : exec (.recvG n c) s = execRecvG n c s := rfl
@[simp] theorem exec_gzRd (n : Fin 16) (a : Src) (s : State) : exec (.gzRd n a) s = execGzRd n a s := rfl
@[simp] theorem exec_recvaddF32 (n : Fin 32) (c : Fin 11) (s : State) : exec (.recvaddF32 n c) s = execRecvaddF32 n c s := rfl
@[simp] theorem exec_instructionFetch (c : CoreId) (ue : Bool) (s : State) : exec (.instructionFetch c ue) s = execInstructionFetch c ue s := rfl
@[simp] theorem exec_bundleDecode (c : CoreId) (s : State) : exec (.bundleDecode c) s = execBundleDecode c s := rfl
@[simp] theorem exec_groupIssue (c : CoreId) (s : State) : exec (.groupIssue c) s = execGroupIssue c s := rfl
@[simp] theorem exec_deferredSlotAcceptance (c : CoreId) (s : State) : exec (.deferredSlotAcceptance c) s = execDeferredSlotAcceptance c s := rfl
@[simp] theorem exec_resultReady (c : CoreId) (s : State) : exec (.resultReady c) s = execResultReady c s := rfl
@[simp] theorem exec_loadDataArrival (c : CoreId) (ue : Bool) (s : State) : exec (.loadDataArrival c ue) s = execLoadDataArrival c ue s := rfl
@[simp] theorem exec_bundleComplete (c : CoreId) (s : State) : exec (.bundleComplete c) s = execBundleComplete c s := rfl
@[simp] theorem exec_teamSave (o : CoreId) (s : State) : exec (.teamSave o) s = execTeamSave o s := rfl
@[simp] theorem exec_watchdogPeriod (c : CoreId) (s : State) : exec (.watchdogPeriod c) s = execWatchdogPeriod c s := rfl
@[simp] theorem exec_watchdog (c : CoreId) (s : State) : exec (.watchdog c) s = execWatchdog c s := rfl
@[simp] theorem exec_mmaStart (c : CoreId) (s : State) : exec (.mmaStart c) s = execMmaStart c s := rfl
@[simp] theorem exec_mmaFinish (c : CoreId) (s : State) : exec (.mmaFinish c) s = execMmaFinish c s := rfl
@[simp] theorem exec_tileOperationFinish (c : CoreId) (s : State) : exec (.tileOperationFinish c) s = execTileOperationFinish c s := rfl
@[simp] theorem exec_adrainRowPresent (c : CoreId) (s : State) : exec (.adrainRowPresent c) s = execAdrainRowPresent c s := rfl
@[simp] theorem exec_wrowLand (c : CoreId) (s : State) : exec (.wrowLand c) s = execWrowLand c s := rfl
@[simp] theorem exec_engineCommandStart (c : CoreId) (e : Eng) (s : State) : exec (.engineCommandStart c e) s = execEngineCommandStart c e s := rfl
@[simp] theorem exec_engineTransfer (c : CoreId) (e : Eng) (ue : Bool) (s : State) : exec (.engineTransfer c e ue) s = execEngineTransfer c e ue s := rfl
@[simp] theorem exec_engineCbClaim (c : CoreId) (e : Eng) (s : State) : exec (.engineCbClaim c e) s = execEngineCbClaim c e s := rfl
@[simp] theorem exec_unitComplete (c : CoreId) (e : Eng) (s : State) : exec (.unitComplete c e) s = execUnitComplete c e s := rfl
@[simp] theorem exec_barrierBankUpdate (c : CoreId) (off : BitVec 19) (s : State) : exec (.barrierBankUpdate c off) s = execBarrierBankUpdate c off s := rfl
@[simp] theorem exec_meshAccessArrival (c : CoreId) (s : State) : exec (.meshAccessArrival c) s = execMeshAccessArrival c s := rfl
@[simp] theorem exec_wakeTokenEnqueue (c : CoreId) (s : State) : exec (.wakeTokenEnqueue c) s = execWakeTokenEnqueue c s := rfl
@[simp] theorem exec_homeAccess (sl : Fin 1024) (s : State) : exec (.homeAccess sl) s = execHomeAccess sl s := rfl
@[simp] theorem exec_l2Fill (sl : Fin 1024) (s : State) : exec (.l2Fill sl) s = execL2Fill sl s := rfl
@[simp] theorem exec_dirtyWriteback (line : BitVec 41) (ue : Bool) (s : State) : exec (.dirtyWriteback line ue) s = execDirtyWriteback line ue s := rfl
@[simp] theorem exec_routerCombine (sl : Fin 1024) (ia ib : Fin 6) (s : State) : exec (.routerCombine sl ia ib) s = execRouterCombine sl ia ib s := rfl
@[simp] theorem exec_pageWalkStart (d : Die) (s : State) : exec (.pageWalkStart d) s = execPageWalkStart d s := rfl
@[simp] theorem exec_pageWalkDone (d : Die) (ue : Option (Fin 4)) (s : State) : exec (.pageWalkDone d ue) s = execPageWalkDone d ue s := rfl
@[simp] theorem exec_tlbInvalComplete (x : CtxId) (s : State) : exec (.tlbInvalComplete x) s = execTlbInvalComplete x s := rfl
@[simp] theorem exec_lclkTick  (s : State) : exec (.lclkTick) s = execLclkTick s := rfl
@[simp] theorem exec_horizonRound  (s : State) : exec (.horizonRound) s = execHorizonRound s := rfl
@[simp] theorem exec_scAtomicPerform  (s : State) : exec (.scAtomicPerform) s = execScAtomicPerform s := rfl
@[simp] theorem exec_weightRefreshSlot  (s : State) : exec (.weightRefreshSlot) s = execWeightRefreshSlot s := rfl
@[simp] theorem exec_creditForward (b : Nat) (s : State) : exec (.creditForward b) s = execCreditForward b s := rfl
@[simp] theorem exec_channelMessageDepart (c : CoreId) (ue : Bool) (s : State) : exec (.channelMessageDepart c ue) s = execChannelMessageDepart c ue s := rfl
@[simp] theorem exec_messageArrival (b ti : Nat) (m : Option Msg) (s : State) : exec (.messageArrival b ti m) s = execMessageArrival b ti m s := rfl
@[simp] theorem exec_messageLand (b ti : Nat) (s : State) : exec (.messageLand b ti) s = execMessageLand b ti s := rfl
@[simp] theorem exec_receiveDelivery (c : CoreId) (ue : Bool) (s : State) : exec (.receiveDelivery c ue) s = execReceiveDelivery c ue s := rfl
@[simp] theorem exec_bindingMeet (b lw lh : Nat) (s : State) : exec (.bindingMeet b lw lh) s = execBindingMeet b lw lh s := rfl
@[simp] theorem exec_flitRetransmit (p : PortId) (s : State) : exec (.flitRetransmit p) s = execFlitRetransmit p s := rfl
@[simp] theorem exec_linkRetrain (p : PortId) (s : State) : exec (.linkRetrain p) s = execLinkRetrain p s := rfl
@[simp] theorem exec_linkRetrainDone (p : PortId) (s : State) : exec (.linkRetrainDone p) s = execLinkRetrainDone p s := rfl
@[simp] theorem exec_linkDown (p : PortId) (s : State) : exec (.linkDown p) s = execLinkDown p s := rfl
@[simp] theorem exec_frameRetransmit (p : PortId) (fate : FrameFate) (s : State) : exec (.frameRetransmit p fate) s = execFrameRetransmit p fate s := rfl
@[simp] theorem exec_linkRekey (p : PortId) (s : State) : exec (.linkRekey p) s = execLinkRekey p s := rfl
@[simp] theorem exec_chunkStart (x : CtxId) (id : Nat) (chunk : ChunkRead) (s : State) : exec (.chunkStart x id chunk) s = execChunkStart x id chunk s := rfl
@[simp] theorem exec_contributionArrival (x : CtxId) (id member chunk : Nat) (data : List Byte) (agrees : Bool) (s : State) : exec (.contributionArrival x id member chunk data agrees) s = execContributionArrival x id member chunk data agrees s := rfl
@[simp] theorem exec_chunkSum (x : CtxId) (id : Nat) (chunk : ChunkRead) (s : State) : exec (.chunkSum x id chunk) s = execChunkSum x id chunk s := rfl
@[simp] theorem exec_chunkResultArrival (x : CtxId) (id chunk : Nat) (data : List Byte) (lost : List Nat) (s : State) : exec (.chunkResultArrival x id chunk data lost) s = execChunkResultArrival x id chunk data lost s := rfl
@[simp] theorem exec_memberLost (x : CtxId) (id member : Nat) (s : State) : exec (.memberLost x id member) s = execMemberLost x id member s := rfl
@[simp] theorem exec_completionRecordWrite (x : CtxId) (id : Nat) (s : State) : exec (.completionRecordWrite x id) s = execCompletionRecordWrite x id s := rfl
@[simp] theorem exec_abortTokenReceive (x : CtxId) (g : Fin 64) (sender : TokenFrom) (step : Word) (s : State) : exec (.abortTokenReceive x g sender step) s = execAbortTokenReceive x g sender step s := rfl
@[simp] theorem exec_gazetteerCycle (d : Die) (s : State) : exec (.gazetteerCycle d) s = execGazetteerCycle d s := rfl
@[simp] theorem exec_orderedFoldSweep (d : Die) (s : State) : exec (.orderedFoldSweep d) s = execOrderedFoldSweep d s := rfl
@[simp] theorem exec_recordAgePromotion (d : Die) (s : State) : exec (.recordAgePromotion d) s = execRecordAgePromotion d s := rfl
@[simp] theorem exec_launchDispatch (d : Die) (s : State) : exec (.launchDispatch d) s = execLaunchDispatch d s := rfl
@[simp] theorem exec_stageRemoval (d : Die) (s : State) : exec (.stageRemoval d) s = execStageRemoval d s := rfl
@[simp] theorem exec_teamHaltComplete (o : CoreId) (s : State) : exec (.teamHaltComplete o) s = execTeamHaltComplete o s := rfl
@[simp] theorem exec_noticeInterrupt (x : CtxId) (s : State) : exec (.noticeInterrupt x) s = execNoticeInterrupt x s := rfl
@[simp] theorem exec_doorbell (x : CtxId) (desc : BitVec 512) (s : State) : exec (.doorbell x desc) s = execDoorbell x desc s := rfl
@[simp] theorem exec_doorbellEnqueue (x : CtxId) (s : State) : exec (.doorbellEnqueue x) s = execDoorbellEnqueue x s := rfl
@[simp] theorem exec_stashAccept (c : CoreId) (s : State) : exec (.stashAccept c) s = execStashAccept c s := rfl
@[simp] theorem exec_stashSourceReadDone (d : Die) (ue : Bool) (s : State) : exec (.stashSourceReadDone d ue) s = execStashSourceReadDone d ue s := rfl
@[simp] theorem exec_stashStoreDone (d : Die) (s : State) : exec (.stashStoreDone d) s = execStashStoreDone d s := rfl
@[simp] theorem exec_stashGetDone (d : Die) (ue : Bool) (s : State) : exec (.stashGetDone d ue) s = execStashGetDone d ue s := rfl
@[simp] theorem exec_stashFetchDone (d : DieRead) (s : State) : exec (.stashFetchDone d) s = execStashFetchDone d s := rfl
@[simp] theorem exec_stashRecordInsert (d : Die) (s : State) : exec (.stashRecordInsert d) s = execStashRecordInsert d s := rfl
@[simp] theorem exec_wvCommitApply (c : CoreId) (s : State) : exec (.wvCommitApply c) s = execWvCommitApply c s := rfl
@[simp] theorem exec_patrolScrub (d : Die) (t : ScrubTarget) (r : ScrubResult) (s : State) : exec (.patrolScrub d t r) s = execPatrolScrub d t r s := rfl
@[simp] theorem exec_powerOn (b : BootEvent) (s : State) : exec (.powerOn b) s = execPowerOn b s := rfl
@[simp] theorem exec_islandFreqChangeDone (ix : Fin 128) (s : State) : exec (.islandFreqChangeDone ix) s = execIslandFreqChangeDone ix s := rfl
@[simp] theorem exec_powerManagerPeriod (watts : Nat) (s : State) : exec (.powerManagerPeriod watts) s = execPowerManagerPeriod watts s := rfl
@[simp] theorem exec_droopStretch (ix : Fin 128) (depthMv : Nat) (s : State) : exec (.droopStretch ix depthMv) s = execDroopStretch ix depthMv s := rfl
@[simp] theorem exec_thermalCap (ix : Fin 128) (s : State) : exec (.thermalCap ix) s = execThermalCap ix s := rfl
@[simp] theorem exec_islandCools (ix : Fin 128) (s : State) : exec (.islandCools ix) s = execIslandCools ix s := rfl
@[simp] theorem exec_thermalTrip  (s : State) : exec (.thermalTrip) s = execThermalTrip s := rfl
@[simp] theorem exec_surveyHourly  (s : State) : exec (.surveyHourly) s = execSurveyHourly s := rfl
@[simp] theorem exec_surveyShutdown  (s : State) : exec (.surveyShutdown) s = execSurveyShutdown s := rfl
@[simp] theorem exec_powerFail  (s : State) : exec (.powerFail) s = execPowerFail s := rfl
@[simp] theorem exec_hostDma (pa : BitVec 48) (len : Nat) (op : DmaOp) (s : State) : exec (.hostDma pa len op) s = execHostDma pa len op s := rfl
@[simp] theorem exec_load (off : Option Word) (len : Word) (s : State) : exec (.load off len) s = execLoad off len s := rfl
@[simp] theorem exec_getVersion  (s : State) : exec (.getVersion) s = execGetVersion s := rfl
@[simp] theorem exec_getCapabilities  (s : State) : exec (.getCapabilities) s = execGetCapabilities s := rfl
@[simp] theorem exec_negotiateAlgorithms (peer : Nat) (rsa sha : Bool) (offer : SessOffer) (s : State) : exec (.negotiateAlgorithms peer rsa sha offer) s = execNegotiateAlgorithms peer rsa sha offer s := rfl
@[simp] theorem exec_getDigests  (s : State) : exec (.getDigests) s = execGetDigests s := rfl
@[simp] theorem exec_getCertificate (slot : Fin 8) (s : State) : exec (.getCertificate slot) s = execGetCertificate slot s := rfl
@[simp] theorem exec_challenge (nonce : BitVec 256) (s : State) : exec (.challenge nonce) s = execChallenge nonce s := rfl
@[simp] theorem exec_getMeasurements (idx : BitVec 8) (signed : Bool) (s : State) : exec (.getMeasurements idx signed) s = execGetMeasurements idx signed s := rfl
@[simp] theorem exec_keyExchange (peer : Nat) (role : PeerRole) (auth : Option (List Byte)) (s : State) : exec (.keyExchange peer role auth) s = execKeyExchange peer role auth s := rfl
@[simp] theorem exec_finish (m : FinishMsg) (s : State) : exec (.finish m) s = execFinish m s := rfl
@[simp] theorem exec_heartbeat (sess : Nat) (s : State) : exec (.heartbeat sess) s = execHeartbeat sess s := rfl
@[simp] theorem exec_keyUpdate (sess : Nat) (s : State) : exec (.keyUpdate sess) s = execKeyUpdate sess s := rfl
@[simp] theorem exec_endSession (sess : Nat) (s : State) : exec (.endSession sess) s = execEndSession sess s := rfl
@[simp] theorem exec_spdmUnsupportedRequest (code : BitVec 8) (s : State) : exec (.spdmUnsupportedRequest code) s = execSpdmUnsupportedRequest code s := rfl
@[simp] theorem exec_setJobKey (sess : Nat) (key : BitVec 256) (s : State) : exec (.setJobKey sess key) s = execSetJobKey sess key s := rfl
@[simp] theorem exec_setImageKey (sess : Nat) (slot : Fin 4) (key : BitVec 4096) (s : State) : exec (.setImageKey sess slot key) s = execSetImageKey sess slot key s := rfl
@[simp] theorem exec_setTrustAnchor (sess : Nat) (cert : List Byte) (s : State) : exec (.setTrustAnchor sess cert) s = execSetTrustAnchor sess cert s := rfl
@[simp] theorem exec_setReference (sess : Nat) (idx : BitVec 8) (digest : BitVec 512) (s : State) : exec (.setReference sess idx digest) s = execSetReference sess idx digest s := rfl
@[simp] theorem exec_release (sess : Nat) (s : State) : exec (.release sess) s = execRelease sess s := rfl
@[simp] theorem exec_switchAdmit (serial : Word) (root : List Byte) (meas : List (Nat × BitVec 512)) (ack : Bool) (s : State) : exec (.switchAdmit serial root meas ack) s = execSwitchAdmit serial root meas ack s := rfl
@[simp] theorem exec_pathFirstEvaluation (p : Fin 1024) (s : State) : exec (.pathFirstEvaluation p) s = execPathFirstEvaluation p s := rfl
@[simp] theorem exec_switchWithdraw (w : Withdrawal) (s : State) : exec (.switchWithdraw w) s = execSwitchWithdraw w s := rfl
@[simp] theorem exec_switchSessionClose (serial : Word) (s : State) : exec (.switchSessionClose serial) s = execSwitchSessionClose serial s := rfl
@[simp] theorem exec_mctailWrite (v : Word) (s : State) : exec (.mctailWrite v) s = execMctailWrite v s := rfl
@[simp] theorem exec_mcRingConfigWrite (size : Bool) (v : Word) (s : State) : exec (.mcRingConfigWrite size v) s = execMcRingConfigWrite size v s := rfl
@[simp] theorem exec_hostRegisterWrite (r : HostReg) (v : Word) (s : State) : exec (.hostRegisterWrite r v) s = execHostRegisterWrite r v s := rfl
@[simp] theorem exec_mcUnknownCommand  (s : State) : exec (.mcUnknownCommand) s = execMcUnknownCommand s := rfl
@[simp] theorem exec_ctxCreate  (s : State) : exec (.ctxCreate) s = execCtxCreate s := rfl
@[simp] theorem exec_ctxDestroy  (s : State) : exec (.ctxDestroy) s = execCtxDestroy s := rfl
@[simp] theorem exec_ctxSetPageTableRoot  (s : State) : exec (.ctxSetPageTableRoot) s = execCtxSetPageTableRoot s := rfl
@[simp] theorem exec_ctxSetSaveRegion  (s : State) : exec (.ctxSetSaveRegion) s = execCtxSetSaveRegion s := rfl
@[simp] theorem exec_ctxSetStashRegion  (s : State) : exec (.ctxSetStashRegion) s = execCtxSetStashRegion s := rfl
@[simp] theorem exec_ctxSetSpillRegion  (s : State) : exec (.ctxSetSpillRegion) s = execCtxSetSpillRegion s := rfl
@[simp] theorem exec_ctxSetUndoRegion  (s : State) : exec (.ctxSetUndoRegion) s = execCtxSetUndoRegion s := rfl
@[simp] theorem exec_ctxSetPol  (s : State) : exec (.ctxSetPol) s = execCtxSetPol s := rfl
@[simp] theorem exec_ctxSetWatchdogLimit  (s : State) : exec (.ctxSetWatchdogLimit) s = execCtxSetWatchdogLimit s := rfl
@[simp] theorem exec_ctxSetLockQuota  (s : State) : exec (.ctxSetLockQuota) s = execCtxSetLockQuota s := rfl
@[simp] theorem exec_ctxSetTvec  (s : State) : exec (.ctxSetTvec) s = execCtxSetTvec s := rfl
@[simp] theorem exec_ctxSetSaveStride  (s : State) : exec (.ctxSetSaveStride) s = execCtxSetSaveStride s := rfl
@[simp] theorem exec_dieSetWayQuota  (s : State) : exec (.dieSetWayQuota) s = execDieSetWayQuota s := rfl
@[simp] theorem exec_dieSetScrubRate  (s : State) : exec (.dieSetScrubRate) s = execDieSetScrubRate s := rfl
@[simp] theorem exec_fwinWrite  (s : State) : exec (.fwinWrite) s = execFwinWrite s := rfl
@[simp] theorem exec_bind  (s : State) : exec (.bind) s = execBind s := rfl
@[simp] theorem exec_unbind  (s : State) : exec (.unbind) s = execUnbind s := rfl
@[simp] theorem exec_groupWrite  (s : State) : exec (.groupWrite) s = execGroupWrite s := rfl
@[simp] theorem exec_pathDefine  (s : State) : exec (.pathDefine) s = execPathDefine s := rfl
@[simp] theorem exec_pathRemove  (s : State) : exec (.pathRemove) s = execPathRemove s := rfl
@[simp] theorem exec_tlbInval  (s : State) : exec (.tlbInval) s = execTlbInval s := rfl
@[simp] theorem exec_wvSet  (s : State) : exec (.wvSet) s = execWvSet s := rfl
@[simp] theorem exec_stop  (s : State) : exec (.stop) s = execStop s := rfl
@[simp] theorem exec_resume  (s : State) : exec (.resume) s = execResume s := rfl
@[simp] theorem exec_fatal  (s : State) : exec (.fatal) s = execFatal s := rfl
@[simp] theorem exec_abortClose  (s : State) : exec (.abortClose) s = execAbortClose s := rfl
@[simp] theorem exec_discard  (s : State) : exec (.discard) s = execDiscard s := rfl
@[simp] theorem exec_gzPurge  (s : State) : exec (.gzPurge) s = execGzPurge s := rfl
@[simp] theorem exec_stashPurge  (s : State) : exec (.stashPurge) s = execStashPurge s := rfl
@[simp] theorem exec_lockPurge  (s : State) : exec (.lockPurge) s = execLockPurge s := rfl
@[simp] theorem exec_flogRead  (s : State) : exec (.flogRead) s = execFlogRead s := rfl
@[simp] theorem exec_flogClear  (s : State) : exec (.flogClear) s = execFlogClear s := rfl
@[simp] theorem exec_surveyRead  (s : State) : exec (.surveyRead) s = execSurveyRead s := rfl
@[simp] theorem exec_surveySnapshot  (s : State) : exec (.surveySnapshot) s = execSurveySnapshot s := rfl
@[simp] theorem exec_islFreq  (s : State) : exec (.islFreq) s = execIslFreq s := rfl
@[simp] theorem exec_plimSet  (s : State) : exec (.plimSet) s = execPlimSet s := rfl
@[simp] theorem exec_portSetRingMode  (s : State) : exec (.portSetRingMode) s = execPortSetRingMode s := rfl
@[simp] theorem exec_portSetUdpPort  (s : State) : exec (.portSetUdpPort) s = execPortSetUdpPort s := rfl
@[simp] theorem exec_portSetRttTimer  (s : State) : exec (.portSetRttTimer) s = execPortSetRttTimer s := rfl
@[simp] theorem exec_portSetRekeyInterval  (s : State) : exec (.portSetRekeyInterval) s = execPortSetRekeyInterval s := rfl
@[simp] theorem exec_portSetOverflowStaging  (s : State) : exec (.portSetOverflowStaging) s = execPortSetOverflowStaging s := rfl
@[simp] theorem exec_portSetHeartbeat  (s : State) : exec (.portSetHeartbeat) s = execPortSetHeartbeat s := rfl
@[simp] theorem exec_linkReset  (s : State) : exec (.linkReset) s = execLinkReset s := rfl
@[simp] theorem exec_moduleReset  (s : State) : exec (.moduleReset) s = execModuleReset s := rfl
@[simp] theorem exec_cbdefWrite (c : CoreId) (n : Fin 8) (v : Word) (s : State) : exec (.cbdefWrite c n v) s = execCbdefWrite c n v s := rfl
@[simp] theorem exec_cbptrWrite (c : CoreId) (n : Fin 8) (v : Word) (s : State) : exec (.cbptrWrite c n v) s = execCbptrWrite c n v s := rfl
@[simp] theorem exec_estatWrite (c : CoreId) (e : Eng) (v : Word) (s : State) : exec (.estatWrite c e v) s = execEstatWrite c e v s := rfl
@[simp] theorem exec_ststatWrite (c : CoreId) (v : Word) (s : State) : exec (.ststatWrite c v) s = execStstatWrite c v s := rfl
@[simp] theorem exec_seedWrite (c : CoreId) (v : Word) (s : State) : exec (.seedWrite c v) s = execSeedWrite c v s := rfl

/-! ### Slot operations -/

/-- Whether an instruction is a slot operation. -/
def isSlotOp : Instr → Bool
  | .nop => true
  | .br _ => true
  | .bz _ => true
  | .bnz _ => true
  | .call _ => true
  | .ret _ => true
  | .jr _ => true
  | .loop _ => true
  | .loopn _ => true
  | .waitLt _ _ => true
  | .waitBar _ _ => true
  | .waitWake => true
  | .halt => true
  | .trap _ => true
  | .sysret => true
  | .fence _ => true
  | .sbar _ _ _ => true
  | .ckpt _ => true
  | .nextTile => true
  | .launch _ => true
  | .sysrd _ => true
  | .syswr _ _ => true
  | .li _ => true
  | .lih _ => true
  | .sMov _ => true
  | .sSel _ _ => true
  | .addI64 _ _ => true
  | .subI64 _ _ => true
  | .mulI64 _ _ => true
  | .mulhI64 _ _ => true
  | .mulhN64 _ _ => true
  | .divI64 _ _ => true
  | .divN64 _ _ => true
  | .sAnd _ _ => true
  | .sOr _ _ => true
  | .sXor _ _ => true
  | .sAndn _ _ => true
  | .sShl _ _ => true
  | .shrN64 _ _ => true
  | .shrI64 _ _ => true
  | .rotl _ _ => true
  | .clz _ => true
  | .popc _ => true
  | .minI64 _ _ => true
  | .minN64 _ _ => true
  | .maxI64 _ _ => true
  | .maxN64 _ _ => true
  | .ceq _ _ => true
  | .cne _ _ => true
  | .cltI64 _ _ => true
  | .cltN64 _ _ => true
  | .cleI64 _ _ => true
  | .cleN64 _ _ => true
  | .st _ _ _ _ => true
  | .amoAddI64 _ _ _ => true
  | .amoAnd _ _ _ => true
  | .amoOr _ _ _ => true
  | .amoXor _ _ _ => true
  | .amoMinI64 _ _ _ => true
  | .amoMaxI64 _ _ _ => true
  | .amoMinN64 _ _ _ => true
  | .amoMaxN64 _ _ _ => true
  | .amoSwap _ _ _ => true
  | .amoCas _ _ _ => true
  | .amoFaddF32 _ _ _ => true
  | .lockL2 _ _ => true
  | .unlockL2 _ _ => true
  | .pref _ => true
  | .ldI8 _ _ _ _ => true
  | .ldN8 _ _ _ _ => true
  | .ldI16 _ _ _ _ => true
  | .ldN16 _ _ _ _ => true
  | .ldI32 _ _ _ _ => true
  | .ldN32 _ _ _ _ => true
  | .ldN64 _ _ _ _ => true
  | .sLatA _ => true
  | .sLatAb _ _ => true
  | .sMovP _ _ => true
  | .movG _ _ => true
  | .addF32 _ _ _ => true
  | .addBf16 _ _ _ => true
  | .addF16 _ _ _ => true
  | .subF32 _ _ _ => true
  | .subBf16 _ _ _ => true
  | .subF16 _ _ _ => true
  | .mulF32 _ _ _ => true
  | .mulBf16 _ _ _ => true
  | .mulF16 _ _ _ => true
  | .fmaF32 _ _ _ => true
  | .fmaBf16 _ _ _ => true
  | .fmaF16 _ _ _ => true
  | .minF32 _ _ _ => true
  | .minBf16 _ _ _ => true
  | .minF16 _ _ _ => true
  | .maxF32 _ _ _ => true
  | .maxBf16 _ _ _ => true
  | .maxF16 _ _ _ => true
  | .rcpF32 _ _ => true
  | .rsqrtF32 _ _ => true
  | .exp2F32 _ _ => true
  | .log2F32 _ _ => true
  | .addI32 _ _ _ => true
  | .subI32 _ _ _ => true
  | .mulI32 _ _ _ => true
  | .addSatI32 _ _ _ => true
  | .subSatI32 _ _ _ => true
  | .minI32 _ _ _ => true
  | .minN32 _ _ _ => true
  | .maxI32 _ _ _ => true
  | .maxN32 _ _ _ => true
  | .vAnd _ _ _ => true
  | .vOr _ _ _ => true
  | .vXor _ _ _ => true
  | .vAndn _ _ _ => true
  | .vShl _ _ _ => true
  | .shrN32 _ _ _ => true
  | .shrI32 _ _ _ => true
  | .ceqF32 _ _ _ => true
  | .cltF32 _ _ _ => true
  | .cleF32 _ _ _ => true
  | .ceqI32 _ _ _ => true
  | .cltI32 _ _ _ => true
  | .cltN32 _ _ _ => true
  | .vSel _ _ _ => true
  | .vMov _ _ => true
  | .cvt _ _ _ => true
  | .cvtBf16F32Mode _ _ _ _ => true
  | .cvtF16F32Mode _ _ _ _ => true
  | .cvtE4m3F32Mode _ _ _ _ => true
  | .cvtE5m2F32Mode _ _ _ _ => true
  | .cvtI32F32Mode _ _ _ _ => true
  | .cvtI8F32Mode _ _ _ _ => true
  | .cvtF32Bf16 _ _ => true
  | .cvtF32F16 _ _ => true
  | .cvtF32E4m3 _ _ => true
  | .cvtF32E5m2 _ _ => true
  | .cvtF32I32 _ _ => true
  | .cvtF32I8 _ _ => true
  | .packNx2 _ _ => true
  | .packNx4 _ _ => true
  | .packNx7 _ _ => true
  | .packNx2Mode _ _ _ _ => true
  | .packNx4Mode _ _ _ _ => true
  | .packNx7Mode _ _ _ _ => true
  | .unpkNx2 _ _ => true
  | .unpkNx4 _ _ => true
  | .unpkNx7 _ _ => true
  | .redF32 _ _ _ => true
  | .redI32 _ _ _ => true
  | .scanF32 _ _ _ _ => true
  | .scanI32 _ _ _ _ => true
  | .perm _ _ _ => true
  | .vld _ _ _ _ _ => true
  | .vldS _ _ _ _ _ => true
  | .vldX _ _ _ _ => true
  | .ldTr _ _ _ _ _ => true
  | .bcast _ _ _ => true
  | .lrot _ _ _ => true
  | .vst _ _ _ _ => true
  | .vstS _ _ _ _ => true
  | .vstX _ _ _ => true
  | .wrow _ _ _ => true
  | .vLatA _ _ => true
  | .vLatAb _ _ _ => true
  | .vMovP _ _ _ => true
  | .movV _ _ _ => true
  | .oclaim _ => true
  | .orel _ => true
  | .azero _ => true
  | .ascale _ _ => true
  | .apin _ => true
  | .aunpin _ => true
  | .adrain _ _ => true
  | .astat _ => true
  | .mma _ _ _ _ => true
  | .mmz _ _ _ _ => true
  | .ato _ _ _ _ _ => true
  | .mckLatA _ _ => true
  | .mckLatAb _ _ _ => true
  | .cpNest _ _ => true
  | .cpMcast _ _ => true
  | .cbClaim _ _ _ => true
  | .cbCommit _ _ _ => true
  | .cbAwait _ _ _ => true
  | .cbRetire _ _ _ => true
  | .barInit _ _ _ => true
  | .barArriveRel _ _ _ => true
  | .barArriveRlx _ _ _ => true
  | .barDrop _ _ => true
  | .barTest _ _ => true
  | .kSet _ _ _ => true
  | .kAdd _ _ _ => true
  | .wkArm _ _ _ _ => true
  | .wkDisarm _ _ => true
  | .stashPut _ _ _ => true
  | .stashGet _ _ _ => true
  | .stashPf _ _ _ => true
  | .stashDrop _ _ _ => true
  | .stashFree _ _ _ => true
  | .wvCommit _ _ _ => true
  | .send _ _ => true
  | .sendM _ _ => true
  | .chwin _ _ => true
  | .colGo _ => true
  | .colAbort _ => true
  | .gzPut _ _ => true
  | .gzDone _ => true
  | .trustQ _ => true
  | .recvV _ _ => true
  | .recvG _ _ => true
  | .gzRd _ _ => true
  | .recvaddF32 _ _ => true
  | .instructionFetch _ _ => false
  | .bundleDecode _ => false
  | .groupIssue _ => false
  | .deferredSlotAcceptance _ => false
  | .resultReady _ => false
  | .loadDataArrival _ _ => false
  | .bundleComplete _ => false
  | .teamSave _ => false
  | .watchdogPeriod _ => false
  | .watchdog _ => false
  | .mmaStart _ => false
  | .mmaFinish _ => false
  | .tileOperationFinish _ => false
  | .adrainRowPresent _ => false
  | .wrowLand _ => false
  | .engineCommandStart _ _ => false
  | .engineTransfer _ _ _ => false
  | .engineCbClaim _ _ => false
  | .unitComplete _ _ => false
  | .barrierBankUpdate _ _ => false
  | .meshAccessArrival _ => false
  | .wakeTokenEnqueue _ => false
  | .homeAccess _ => false
  | .l2Fill _ => false
  | .dirtyWriteback _ _ => false
  | .routerCombine _ _ _ => false
  | .pageWalkStart _ => false
  | .pageWalkDone _ _ => false
  | .tlbInvalComplete _ => false
  | .lclkTick => false
  | .horizonRound => false
  | .scAtomicPerform => false
  | .weightRefreshSlot => false
  | .creditForward _ => false
  | .channelMessageDepart _ _ => false
  | .messageArrival _ _ _ => false
  | .messageLand _ _ => false
  | .receiveDelivery _ _ => false
  | .bindingMeet _ _ _ => false
  | .flitRetransmit _ => false
  | .linkRetrain _ => false
  | .linkRetrainDone _ => false
  | .linkDown _ => false
  | .frameRetransmit _ _ => false
  | .linkRekey _ => false
  | .chunkStart _ _ _ => false
  | .contributionArrival _ _ _ _ _ _ => false
  | .chunkSum _ _ _ => false
  | .chunkResultArrival _ _ _ _ _ => false
  | .memberLost _ _ _ => false
  | .completionRecordWrite _ _ => false
  | .abortTokenReceive _ _ _ _ => false
  | .gazetteerCycle _ => false
  | .orderedFoldSweep _ => false
  | .recordAgePromotion _ => false
  | .launchDispatch _ => false
  | .stageRemoval _ => false
  | .teamHaltComplete _ => false
  | .noticeInterrupt _ => false
  | .doorbell _ _ => false
  | .doorbellEnqueue _ => false
  | .stashAccept _ => false
  | .stashSourceReadDone _ _ => false
  | .stashStoreDone _ => false
  | .stashGetDone _ _ => false
  | .stashFetchDone _ => false
  | .stashRecordInsert _ => false
  | .wvCommitApply _ => false
  | .patrolScrub _ _ _ => false
  | .powerOn _ => false
  | .islandFreqChangeDone _ => false
  | .powerManagerPeriod _ => false
  | .droopStretch _ _ => false
  | .thermalCap _ => false
  | .islandCools _ => false
  | .thermalTrip => false
  | .surveyHourly => false
  | .surveyShutdown => false
  | .powerFail => false
  | .hostDma _ _ _ => false
  | .load _ _ => false
  | .getVersion => false
  | .getCapabilities => false
  | .negotiateAlgorithms _ _ _ _ => false
  | .getDigests => false
  | .getCertificate _ => false
  | .challenge _ => false
  | .getMeasurements _ _ => false
  | .keyExchange _ _ _ => false
  | .finish _ => false
  | .heartbeat _ => false
  | .keyUpdate _ => false
  | .endSession _ => false
  | .spdmUnsupportedRequest _ => false
  | .setJobKey _ _ => false
  | .setImageKey _ _ _ => false
  | .setTrustAnchor _ _ => false
  | .setReference _ _ _ => false
  | .release _ => false
  | .switchAdmit _ _ _ _ => false
  | .pathFirstEvaluation _ => false
  | .switchWithdraw _ => false
  | .switchSessionClose _ => false
  | .mctailWrite _ => false
  | .mcRingConfigWrite _ _ => false
  | .hostRegisterWrite _ _ => false
  | .mcUnknownCommand => false
  | .ctxCreate => false
  | .ctxDestroy => false
  | .ctxSetPageTableRoot => false
  | .ctxSetSaveRegion => false
  | .ctxSetStashRegion => false
  | .ctxSetSpillRegion => false
  | .ctxSetUndoRegion => false
  | .ctxSetPol => false
  | .ctxSetWatchdogLimit => false
  | .ctxSetLockQuota => false
  | .ctxSetTvec => false
  | .ctxSetSaveStride => false
  | .dieSetWayQuota => false
  | .dieSetScrubRate => false
  | .fwinWrite => false
  | .bind => false
  | .unbind => false
  | .groupWrite => false
  | .pathDefine => false
  | .pathRemove => false
  | .tlbInval => false
  | .wvSet => false
  | .stop => false
  | .resume => false
  | .fatal => false
  | .abortClose => false
  | .discard => false
  | .gzPurge => false
  | .stashPurge => false
  | .lockPurge => false
  | .flogRead => false
  | .flogClear => false
  | .surveyRead => false
  | .surveySnapshot => false
  | .islFreq => false
  | .plimSet => false
  | .portSetRingMode => false
  | .portSetUdpPort => false
  | .portSetRttTimer => false
  | .portSetRekeyInterval => false
  | .portSetOverflowStaging => false
  | .portSetHeartbeat => false
  | .linkReset => false
  | .moduleReset => false
  | .cbdefWrite _ _ _ => false
  | .cbptrWrite _ _ _ => false
  | .estatWrite _ _ _ => false
  | .ststatWrite _ _ => false
  | .seedWrite _ _ => false

theorem execSlot_nop  (s : State) : execSlot (.nop) s = execNop s := rfl
theorem execSlot_br (d : BitVec 16) (s : State) : execSlot (.br d) s = execBr d s := rfl
theorem execSlot_bz (d : BitVec 16) (s : State) : execSlot (.bz d) s = execBz d s := rfl
theorem execSlot_bnz (d : BitVec 16) (s : State) : execSlot (.bnz d) s = execBnz d s := rfl
theorem execSlot_call (d : BitVec 16) (s : State) : execSlot (.call d) s = execCall d s := rfl
theorem execSlot_ret (a : Src) (s : State) : execSlot (.ret a) s = execRet a s := rfl
theorem execSlot_jr (a : Src) (s : State) : execSlot (.jr a) s = execJr a s := rfl
theorem execSlot_loop (a : Src) (s : State) : execSlot (.loop a) s = execLoop a s := rfl
theorem execSlot_loopn (a : Src) (s : State) : execSlot (.loopn a) s = execLoopn a s := rfl
theorem execSlot_waitLt (k : Fin 16) (b : Src) (s : State) : execSlot (.waitLt k b) s = execWaitLt k b s := rfl
theorem execSlot_waitBar (a b : Src) (s : State) : execSlot (.waitBar a b) s = execWaitBar a b s := rfl
theorem execSlot_waitWake  (s : State) : execSlot (.waitWake) s = execWaitWake s := rfl
theorem execSlot_halt  (s : State) : execSlot (.halt) s = execHalt s := rfl
theorem execSlot_trap (code : BitVec 8) (s : State) : execSlot (.trap code) s = execTrap code s := rfl
theorem execSlot_sysret  (s : State) : execSlot (.sysret) s = execSysret s := rfl
theorem execSlot_fence (sc : FenceScope) (s : State) : execSlot (.fence sc) s = execFence sc s := rfl
theorem execSlot_sbar (rd wr mem : Bool) (s : State) : execSlot (.sbar rd wr mem) s = execSbar rd wr mem s := rfl
theorem execSlot_ckpt (a : Src) (s : State) : execSlot (.ckpt a) s = execCkpt a s := rfl
theorem execSlot_nextTile  (s : State) : execSlot (.nextTile) s = execNextTile s := rfl
theorem execSlot_launch (a : Src) (s : State) : execSlot (.launch a) s = execLaunch a s := rfl
theorem execSlot_sysrd (w : Fin 64) (s : State) : execSlot (.sysrd w) s = execSysrd w s := rfl
theorem execSlot_syswr (w : Fin 64) (b : Src) (s : State) : execSlot (.syswr w b) s = execSyswr w b s := rfl
theorem execSlot_li (imm : BitVec 16) (s : State) : execSlot (.li imm) s = execLi imm s := rfl
theorem execSlot_lih (imm : BitVec 16) (s : State) : execSlot (.lih imm) s = execLih imm s := rfl
theorem execSlot_sMov (a : Src) (s : State) : execSlot (.sMov a) s = execSMov a s := rfl
theorem execSlot_sSel (a b : Src) (s : State) : execSlot (.sSel a b) s = execSSel a b s := rfl
theorem execSlot_addI64 (a b : Src) (s : State) : execSlot (.addI64 a b) s = execAddI64 a b s := rfl
theorem execSlot_subI64 (a b : Src) (s : State) : execSlot (.subI64 a b) s = execSubI64 a b s := rfl
theorem execSlot_mulI64 (a b : Src) (s : State) : execSlot (.mulI64 a b) s = execMulI64 a b s := rfl
theorem execSlot_mulhI64 (a b : Src) (s : State) : execSlot (.mulhI64 a b) s = execMulhI64 a b s := rfl
theorem execSlot_mulhN64 (a b : Src) (s : State) : execSlot (.mulhN64 a b) s = execMulhN64 a b s := rfl
theorem execSlot_divI64 (a b : Src) (s : State) : execSlot (.divI64 a b) s = execDivI64 a b s := rfl
theorem execSlot_divN64 (a b : Src) (s : State) : execSlot (.divN64 a b) s = execDivN64 a b s := rfl
theorem execSlot_sAnd (a b : Src) (s : State) : execSlot (.sAnd a b) s = execSAnd a b s := rfl
theorem execSlot_sOr (a b : Src) (s : State) : execSlot (.sOr a b) s = execSOr a b s := rfl
theorem execSlot_sXor (a b : Src) (s : State) : execSlot (.sXor a b) s = execSXor a b s := rfl
theorem execSlot_sAndn (a b : Src) (s : State) : execSlot (.sAndn a b) s = execSAndn a b s := rfl
theorem execSlot_sShl (a b : Src) (s : State) : execSlot (.sShl a b) s = execSShl a b s := rfl
theorem execSlot_shrN64 (a b : Src) (s : State) : execSlot (.shrN64 a b) s = execShrN64 a b s := rfl
theorem execSlot_shrI64 (a b : Src) (s : State) : execSlot (.shrI64 a b) s = execShrI64 a b s := rfl
theorem execSlot_rotl (a b : Src) (s : State) : execSlot (.rotl a b) s = execRotl a b s := rfl
theorem execSlot_clz (a : Src) (s : State) : execSlot (.clz a) s = execClz a s := rfl
theorem execSlot_popc (a : Src) (s : State) : execSlot (.popc a) s = execPopc a s := rfl
theorem execSlot_minI64 (a b : Src) (s : State) : execSlot (.minI64 a b) s = execMinI64 a b s := rfl
theorem execSlot_minN64 (a b : Src) (s : State) : execSlot (.minN64 a b) s = execMinN64 a b s := rfl
theorem execSlot_maxI64 (a b : Src) (s : State) : execSlot (.maxI64 a b) s = execMaxI64 a b s := rfl
theorem execSlot_maxN64 (a b : Src) (s : State) : execSlot (.maxN64 a b) s = execMaxN64 a b s := rfl
theorem execSlot_ceq (a b : Src) (s : State) : execSlot (.ceq a b) s = execCeq a b s := rfl
theorem execSlot_cne (a b : Src) (s : State) : execSlot (.cne a b) s = execCne a b s := rfl
theorem execSlot_cltI64 (a b : Src) (s : State) : execSlot (.cltI64 a b) s = execCltI64 a b s := rfl
theorem execSlot_cltN64 (a b : Src) (s : State) : execSlot (.cltN64 a b) s = execCltN64 a b s := rfl
theorem execSlot_cleI64 (a b : Src) (s : State) : execSlot (.cleI64 a b) s = execCleI64 a b s := rfl
theorem execSlot_cleN64 (a b : Src) (s : State) : execSlot (.cleN64 a b) s = execCleN64 a b s := rfl
theorem execSlot_st (w : StW) (a b : Src) (inc : Bool) (s : State) : execSlot (.st w a b inc) s = execSt w a b inc s := rfl
theorem execSlot_amoAddI64 (o : AmoOrd) (a : Src) (r : Option (Fin 16)) (s : State) : execSlot (.amoAddI64 o a r) s = execAmoAddI64 o a r s := rfl
theorem execSlot_amoAnd (o : AmoOrd) (a : Src) (r : Option (Fin 16)) (s : State) : execSlot (.amoAnd o a r) s = execAmoAnd o a r s := rfl
theorem execSlot_amoOr (o : AmoOrd) (a : Src) (r : Option (Fin 16)) (s : State) : execSlot (.amoOr o a r) s = execAmoOr o a r s := rfl
theorem execSlot_amoXor (o : AmoOrd) (a : Src) (r : Option (Fin 16)) (s : State) : execSlot (.amoXor o a r) s = execAmoXor o a r s := rfl
theorem execSlot_amoMinI64 (o : AmoOrd) (a : Src) (r : Option (Fin 16)) (s : State) : execSlot (.amoMinI64 o a r) s = execAmoMinI64 o a r s := rfl
theorem execSlot_amoMaxI64 (o : AmoOrd) (a : Src) (r : Option (Fin 16)) (s : State) : execSlot (.amoMaxI64 o a r) s = execAmoMaxI64 o a r s := rfl
theorem execSlot_amoMinN64 (o : AmoOrd) (a : Src) (r : Option (Fin 16)) (s : State) : execSlot (.amoMinN64 o a r) s = execAmoMinN64 o a r s := rfl
theorem execSlot_amoMaxN64 (o : AmoOrd) (a : Src) (r : Option (Fin 16)) (s : State) : execSlot (.amoMaxN64 o a r) s = execAmoMaxN64 o a r s := rfl
theorem execSlot_amoSwap (o : AmoOrd) (a : Src) (r : Option (Fin 16)) (s : State) : execSlot (.amoSwap o a r) s = execAmoSwap o a r s := rfl
theorem execSlot_amoCas (o : AmoOrd) (a : Src) (r : Option (Fin 16)) (s : State) : execSlot (.amoCas o a r) s = execAmoCas o a r s := rfl
theorem execSlot_amoFaddF32 (o : AmoOrd) (a : Src) (r : Option (Fin 16)) (s : State) : execSlot (.amoFaddF32 o a r) s = execAmoFaddF32 o a r s := rfl
theorem execSlot_lockL2 (a b : Src) (s : State) : execSlot (.lockL2 a b) s = execLockL2 a b s := rfl
theorem execSlot_unlockL2 (a b : Src) (s : State) : execSlot (.unlockL2 a b) s = execUnlockL2 a b s := rfl
theorem execSlot_pref (a : Src) (s : State) : execSlot (.pref a) s = execPref a s := rfl
theorem execSlot_ldI8 (n : Fin 16) (a b : Src) (inc : Bool) (s : State) : execSlot (.ldI8 n a b inc) s = execLdI8 n a b inc s := rfl
theorem execSlot_ldN8 (n : Fin 16) (a b : Src) (inc : Bool) (s : State) : execSlot (.ldN8 n a b inc) s = execLdN8 n a b inc s := rfl
theorem execSlot_ldI16 (n : Fin 16) (a b : Src) (inc : Bool) (s : State) : execSlot (.ldI16 n a b inc) s = execLdI16 n a b inc s := rfl
theorem execSlot_ldN16 (n : Fin 16) (a b : Src) (inc : Bool) (s : State) : execSlot (.ldN16 n a b inc) s = execLdN16 n a b inc s := rfl
theorem execSlot_ldI32 (n : Fin 16) (a b : Src) (inc : Bool) (s : State) : execSlot (.ldI32 n a b inc) s = execLdI32 n a b inc s := rfl
theorem execSlot_ldN32 (n : Fin 16) (a b : Src) (inc : Bool) (s : State) : execSlot (.ldN32 n a b inc) s = execLdN32 n a b inc s := rfl
theorem execSlot_ldN64 (n : Fin 16) (a b : Src) (inc : Bool) (s : State) : execSlot (.ldN64 n a b inc) s = execLdN64 n a b inc s := rfl
theorem execSlot_sLatA (a : Src) (s : State) : execSlot (.sLatA a) s = execSLatA a s := rfl
theorem execSlot_sLatAb (a b : Src) (s : State) : execSlot (.sLatAb a b) s = execSLatAb a b s := rfl
theorem execSlot_sMovP (n : Fin 8) (a : Src) (s : State) : execSlot (.sMovP n a) s = execSMovP n a s := rfl
theorem execSlot_movG (n : Fin 16) (a : Src) (s : State) : execSlot (.movG n a) s = execMovG n a s := rfl
theorem execSlot_addF32 (u : Pipe) (a b : SrcV) (s : State) : execSlot (.addF32 u a b) s = execAddF32 u a b s := rfl
theorem execSlot_addBf16 (u : Pipe) (a b : SrcV) (s : State) : execSlot (.addBf16 u a b) s = execAddBf16 u a b s := rfl
theorem execSlot_addF16 (u : Pipe) (a b : SrcV) (s : State) : execSlot (.addF16 u a b) s = execAddF16 u a b s := rfl
theorem execSlot_subF32 (u : Pipe) (a b : SrcV) (s : State) : execSlot (.subF32 u a b) s = execSubF32 u a b s := rfl
theorem execSlot_subBf16 (u : Pipe) (a b : SrcV) (s : State) : execSlot (.subBf16 u a b) s = execSubBf16 u a b s := rfl
theorem execSlot_subF16 (u : Pipe) (a b : SrcV) (s : State) : execSlot (.subF16 u a b) s = execSubF16 u a b s := rfl
theorem execSlot_mulF32 (u : Pipe) (a b : SrcV) (s : State) : execSlot (.mulF32 u a b) s = execMulF32 u a b s := rfl
theorem execSlot_mulBf16 (u : Pipe) (a b : SrcV) (s : State) : execSlot (.mulBf16 u a b) s = execMulBf16 u a b s := rfl
theorem execSlot_mulF16 (u : Pipe) (a b : SrcV) (s : State) : execSlot (.mulF16 u a b) s = execMulF16 u a b s := rfl
theorem execSlot_fmaF32 (u : Pipe) (a b : SrcV) (s : State) : execSlot (.fmaF32 u a b) s = execFmaF32 u a b s := rfl
theorem execSlot_fmaBf16 (u : Pipe) (a b : SrcV) (s : State) : execSlot (.fmaBf16 u a b) s = execFmaBf16 u a b s := rfl
theorem execSlot_fmaF16 (u : Pipe) (a b : SrcV) (s : State) : execSlot (.fmaF16 u a b) s = execFmaF16 u a b s := rfl
theorem execSlot_minF32 (u : Pipe) (a b : SrcV) (s : State) : execSlot (.minF32 u a b) s = execMinF32 u a b s := rfl
theorem execSlot_minBf16 (u : Pipe) (a b : SrcV) (s : State) : execSlot (.minBf16 u a b) s = execMinBf16 u a b s := rfl
theorem execSlot_minF16 (u : Pipe) (a b : SrcV) (s : State) : execSlot (.minF16 u a b) s = execMinF16 u a b s := rfl
theorem execSlot_maxF32 (u : Pipe) (a b : SrcV) (s : State) : execSlot (.maxF32 u a b) s = execMaxF32 u a b s := rfl
theorem execSlot_maxBf16 (u : Pipe) (a b : SrcV) (s : State) : execSlot (.maxBf16 u a b) s = execMaxBf16 u a b s := rfl
theorem execSlot_maxF16 (u : Pipe) (a b : SrcV) (s : State) : execSlot (.maxF16 u a b) s = execMaxF16 u a b s := rfl
theorem execSlot_rcpF32 (u : Pipe) (a : SrcV) (s : State) : execSlot (.rcpF32 u a) s = execRcpF32 u a s := rfl
theorem execSlot_rsqrtF32 (u : Pipe) (a : SrcV) (s : State) : execSlot (.rsqrtF32 u a) s = execRsqrtF32 u a s := rfl
theorem execSlot_exp2F32 (u : Pipe) (a : SrcV) (s : State) : execSlot (.exp2F32 u a) s = execExp2F32 u a s := rfl
theorem execSlot_log2F32 (u : Pipe) (a : SrcV) (s : State) : execSlot (.log2F32 u a) s = execLog2F32 u a s := rfl
theorem execSlot_addI32 (u : Pipe) (a b : SrcV) (s : State) : execSlot (.addI32 u a b) s = execAddI32 u a b s := rfl
theorem execSlot_subI32 (u : Pipe) (a b : SrcV) (s : State) : execSlot (.subI32 u a b) s = execSubI32 u a b s := rfl
theorem execSlot_mulI32 (u : Pipe) (a b : SrcV) (s : State) : execSlot (.mulI32 u a b) s = execMulI32 u a b s := rfl
theorem execSlot_addSatI32 (u : Pipe) (a b : SrcV) (s : State) : execSlot (.addSatI32 u a b) s = execAddSatI32 u a b s := rfl
theorem execSlot_subSatI32 (u : Pipe) (a b : SrcV) (s : State) : execSlot (.subSatI32 u a b) s = execSubSatI32 u a b s := rfl
theorem execSlot_minI32 (u : Pipe) (a b : SrcV) (s : State) : execSlot (.minI32 u a b) s = execMinI32 u a b s := rfl
theorem execSlot_minN32 (u : Pipe) (a b : SrcV) (s : State) : execSlot (.minN32 u a b) s = execMinN32 u a b s := rfl
theorem execSlot_maxI32 (u : Pipe) (a b : SrcV) (s : State) : execSlot (.maxI32 u a b) s = execMaxI32 u a b s := rfl
theorem execSlot_maxN32 (u : Pipe) (a b : SrcV) (s : State) : execSlot (.maxN32 u a b) s = execMaxN32 u a b s := rfl
theorem execSlot_vAnd (u : Pipe) (a b : SrcV) (s : State) : execSlot (.vAnd u a b) s = execVAnd u a b s := rfl
theorem execSlot_vOr (u : Pipe) (a b : SrcV) (s : State) : execSlot (.vOr u a b) s = execVOr u a b s := rfl
theorem execSlot_vXor (u : Pipe) (a b : SrcV) (s : State) : execSlot (.vXor u a b) s = execVXor u a b s := rfl
theorem execSlot_vAndn (u : Pipe) (a b : SrcV) (s : State) : execSlot (.vAndn u a b) s = execVAndn u a b s := rfl
theorem execSlot_vShl (u : Pipe) (a b : SrcV) (s : State) : execSlot (.vShl u a b) s = execVShl u a b s := rfl
theorem execSlot_shrN32 (u : Pipe) (a b : SrcV) (s : State) : execSlot (.shrN32 u a b) s = execShrN32 u a b s := rfl
theorem execSlot_shrI32 (u : Pipe) (a b : SrcV) (s : State) : execSlot (.shrI32 u a b) s = execShrI32 u a b s := rfl
theorem execSlot_ceqF32 (u : Pipe) (a b : SrcV) (s : State) : execSlot (.ceqF32 u a b) s = execCeqF32 u a b s := rfl
theorem execSlot_cltF32 (u : Pipe) (a b : SrcV) (s : State) : execSlot (.cltF32 u a b) s = execCltF32 u a b s := rfl
theorem execSlot_cleF32 (u : Pipe) (a b : SrcV) (s : State) : execSlot (.cleF32 u a b) s = execCleF32 u a b s := rfl
theorem execSlot_ceqI32 (u : Pipe) (a b : SrcV) (s : State) : execSlot (.ceqI32 u a b) s = execCeqI32 u a b s := rfl
theorem execSlot_cltI32 (u : Pipe) (a b : SrcV) (s : State) : execSlot (.cltI32 u a b) s = execCltI32 u a b s := rfl
theorem execSlot_cltN32 (u : Pipe) (a b : SrcV) (s : State) : execSlot (.cltN32 u a b) s = execCltN32 u a b s := rfl
theorem execSlot_vSel (u : Pipe) (a b : SrcV) (s : State) : execSlot (.vSel u a b) s = execVSel u a b s := rfl
theorem execSlot_vMov (u : Pipe) (a : SrcV) (s : State) : execSlot (.vMov u a) s = execVMov u a s := rfl
theorem execSlot_cvt (u : Pipe) (d : CvtFmt) (a : SrcV) (s : State) : execSlot (.cvt u d a) s = execCvt u d a s := rfl
theorem execSlot_cvtBf16F32Mode (u : Pipe) (a : SrcV) (m : Mode) (sat : Bool) (s : State) : execSlot (.cvtBf16F32Mode u a m sat) s = execCvtBf16F32Mode u a m sat s := rfl
theorem execSlot_cvtF16F32Mode (u : Pipe) (a : SrcV) (m : Mode) (sat : Bool) (s : State) : execSlot (.cvtF16F32Mode u a m sat) s = execCvtF16F32Mode u a m sat s := rfl
theorem execSlot_cvtE4m3F32Mode (u : Pipe) (a : SrcV) (m : Mode) (sat : Bool) (s : State) : execSlot (.cvtE4m3F32Mode u a m sat) s = execCvtE4m3F32Mode u a m sat s := rfl
theorem execSlot_cvtE5m2F32Mode (u : Pipe) (a : SrcV) (m : Mode) (sat : Bool) (s : State) : execSlot (.cvtE5m2F32Mode u a m sat) s = execCvtE5m2F32Mode u a m sat s := rfl
theorem execSlot_cvtI32F32Mode (u : Pipe) (a : SrcV) (m : Mode) (sat : Bool) (s : State) : execSlot (.cvtI32F32Mode u a m sat) s = execCvtI32F32Mode u a m sat s := rfl
theorem execSlot_cvtI8F32Mode (u : Pipe) (a : SrcV) (m : Mode) (sat : Bool) (s : State) : execSlot (.cvtI8F32Mode u a m sat) s = execCvtI8F32Mode u a m sat s := rfl
theorem execSlot_cvtF32Bf16 (u : Pipe) (a : SrcV) (s : State) : execSlot (.cvtF32Bf16 u a) s = execCvtF32Bf16 u a s := rfl
theorem execSlot_cvtF32F16 (u : Pipe) (a : SrcV) (s : State) : execSlot (.cvtF32F16 u a) s = execCvtF32F16 u a s := rfl
theorem execSlot_cvtF32E4m3 (u : Pipe) (a : SrcV) (s : State) : execSlot (.cvtF32E4m3 u a) s = execCvtF32E4m3 u a s := rfl
theorem execSlot_cvtF32E5m2 (u : Pipe) (a : SrcV) (s : State) : execSlot (.cvtF32E5m2 u a) s = execCvtF32E5m2 u a s := rfl
theorem execSlot_cvtF32I32 (u : Pipe) (a : SrcV) (s : State) : execSlot (.cvtF32I32 u a) s = execCvtF32I32 u a s := rfl
theorem execSlot_cvtF32I8 (u : Pipe) (a : SrcV) (s : State) : execSlot (.cvtF32I8 u a) s = execCvtF32I8 u a s := rfl
theorem execSlot_packNx2 (u : Pipe) (a : SrcV) (s : State) : execSlot (.packNx2 u a) s = execPackNx2 u a s := rfl
theorem execSlot_packNx4 (u : Pipe) (a : SrcV) (s : State) : execSlot (.packNx4 u a) s = execPackNx4 u a s := rfl
theorem execSlot_packNx7 (u : Pipe) (a : SrcV) (s : State) : execSlot (.packNx7 u a) s = execPackNx7 u a s := rfl
theorem execSlot_packNx2Mode (u : Pipe) (a : SrcV) (m : Mode) (sat : Bool) (s : State) : execSlot (.packNx2Mode u a m sat) s = execPackNx2Mode u a m sat s := rfl
theorem execSlot_packNx4Mode (u : Pipe) (a : SrcV) (m : Mode) (sat : Bool) (s : State) : execSlot (.packNx4Mode u a m sat) s = execPackNx4Mode u a m sat s := rfl
theorem execSlot_packNx7Mode (u : Pipe) (a : SrcV) (m : Mode) (sat : Bool) (s : State) : execSlot (.packNx7Mode u a m sat) s = execPackNx7Mode u a m sat s := rfl
theorem execSlot_unpkNx2 (u : Pipe) (a : SrcV) (s : State) : execSlot (.unpkNx2 u a) s = execUnpkNx2 u a s := rfl
theorem execSlot_unpkNx4 (u : Pipe) (a : SrcV) (s : State) : execSlot (.unpkNx4 u a) s = execUnpkNx4 u a s := rfl
theorem execSlot_unpkNx7 (u : Pipe) (a : SrcV) (s : State) : execSlot (.unpkNx7 u a) s = execUnpkNx7 u a s := rfl
theorem execSlot_redF32 (u : Pipe) (a : SrcV) (op : RedOp) (s : State) : execSlot (.redF32 u a op) s = execRedF32 u a op s := rfl
theorem execSlot_redI32 (u : Pipe) (a : SrcV) (op : RedOp) (s : State) : execSlot (.redI32 u a op) s = execRedI32 u a op s := rfl
theorem execSlot_scanF32 (u : Pipe) (a : SrcV) (op : RedOp) (ex : Bool) (s : State) : execSlot (.scanF32 u a op ex) s = execScanF32 u a op ex s := rfl
theorem execSlot_scanI32 (u : Pipe) (a : SrcV) (op : RedOp) (ex : Bool) (s : State) : execSlot (.scanI32 u a op ex) s = execScanI32 u a op ex s := rfl
theorem execSlot_perm (u : Pipe) (a : SrcV) (ix : IdxV) (s : State) : execSlot (.perm u a ix) s = execPerm u a ix s := rfl
theorem execSlot_vld (u : Pipe) (n : Fin 32) (a : SqG) (ix : OffV) (inc : Bool) (s : State) : execSlot (.vld u n a ix inc) s = execVld u n a ix inc s := rfl
theorem execSlot_vldS (u : Pipe) (n : Fin 32) (a : SqG) (ix : OffV) (inc : Bool) (s : State) : execSlot (.vldS u n a ix inc) s = execVldS u n a ix inc s := rfl
theorem execSlot_vldX (u : Pipe) (n : Fin 32) (a : SqG) (ix : IdxV) (s : State) : execSlot (.vldX u n a ix) s = execVldX u n a ix s := rfl
theorem execSlot_ldTr (u : Pipe) (n : Fin 32) (a : SqG) (ix : OffV) (inc : Bool) (s : State) : execSlot (.ldTr u n a ix inc) s = execLdTr u n a ix inc s := rfl
theorem execSlot_bcast (u : Pipe) (a : SrcV) (n : CntV) (s : State) : execSlot (.bcast u a n) s = execBcast u a n s := rfl
theorem execSlot_lrot (u : Pipe) (a : SrcV) (n : CntV) (s : State) : execSlot (.lrot u a n) s = execLrot u a n s := rfl
theorem execSlot_vst (u : Pipe) (a : SqG) (ix : OffV) (inc : Bool) (s : State) : execSlot (.vst u a ix inc) s = execVst u a ix inc s := rfl
theorem execSlot_vstS (u : Pipe) (a : SqG) (ix : OffV) (inc : Bool) (s : State) : execSlot (.vstS u a ix inc) s = execVstS u a ix inc s := rfl
theorem execSlot_vstX (u : Pipe) (a : SqG) (ix : IdxV) (s : State) : execSlot (.vstX u a ix) s = execVstX u a ix s := rfl
theorem execSlot_wrow (u : Pipe) (a : SrcV) (sel : CntV) (s : State) : execSlot (.wrow u a sel) s = execWrow u a sel s := rfl
theorem execSlot_vLatA (u : Pipe) (a : SrcV) (s : State) : execSlot (.vLatA u a) s = execVLatA u a s := rfl
theorem execSlot_vLatAb (u : Pipe) (a b : SrcV) (s : State) : execSlot (.vLatAb u a b) s = execVLatAb u a b s := rfl
theorem execSlot_vMovP (u : Pipe) (n : Fin 8) (a : SrcV) (s : State) : execSlot (.vMovP u n a) s = execVMovP u n a s := rfl
theorem execSlot_movV (u : Pipe) (n : Fin 32) (a : SrcV) (s : State) : execSlot (.movV u n a) s = execMovV u n a s := rfl
theorem execSlot_oclaim (n : Fin 32) (s : State) : execSlot (.oclaim n) s = execOclaim n s := rfl
theorem execSlot_orel (n : Fin 32) (s : State) : execSlot (.orel n) s = execOrel n s := rfl
theorem execSlot_azero (n : Fin 64) (s : State) : execSlot (.azero n) s = execAzero n s := rfl
theorem execSlot_ascale (n : Fin 64) (b : SqG) (s : State) : execSlot (.ascale n b) s = execAscale n b s := rfl
theorem execSlot_apin (n : Fin 64) (s : State) : execSlot (.apin n) s = execApin n s := rfl
theorem execSlot_aunpin (n : Fin 64) (s : State) : execSlot (.aunpin n) s = execAunpin n s := rfl
theorem execSlot_adrain (n : Fin 64) (q : Fin 4) (s : State) : execSlot (.adrain n q) s = execAdrain n q s := rfl
theorem execSlot_astat (n : Fin 64) (s : State) : execSlot (.astat n) s = execAstat n s := rfl
theorem execSlot_mma (f : Fmt) (n : Fin 64) (a b : Fin 32) (s : State) : execSlot (.mma f n a b) s = execMma f n a b s := rfl
theorem execSlot_mmz (f : Fmt) (n : Fin 64) (a b : Fin 32) (s : State) : execSlot (.mmz f n a b) s = execMmz f n a b s := rfl
theorem execSlot_ato (f : Fmt) (m : Mode) (sat : Bool) (o : Fin 32) (n : Fin 64) (s : State) : execSlot (.ato f m sat o n) s = execAto f m sat o n s := rfl
theorem execSlot_mckLatA (u : MckUnit) (a : Src) (s : State) : execSlot (.mckLatA u a) s = execMckLatA u a s := rfl
theorem execSlot_mckLatAb (u : MckUnit) (a b : Src) (s : State) : execSlot (.mckLatAb u a b) s = execMckLatAb u a b s := rfl
theorem execSlot_cpNest (e : Eng) (a : SqG) (s : State) : execSlot (.cpNest e a) s = execCpNest e a s := rfl
theorem execSlot_cpMcast (e : Eng) (a : SqG) (s : State) : execSlot (.cpMcast e a) s = execCpMcast e a s := rfl
theorem execSlot_cbClaim (e : Eng) (n : Fin 8) (b : SqG) (s : State) : execSlot (.cbClaim e n b) s = execCbClaim e n b s := rfl
theorem execSlot_cbCommit (e : Eng) (n : Fin 8) (b : SqG) (s : State) : execSlot (.cbCommit e n b) s = execCbCommit e n b s := rfl
theorem execSlot_cbAwait (e : Eng) (n : Fin 8) (b : SqG) (s : State) : execSlot (.cbAwait e n b) s = execCbAwait e n b s := rfl
theorem execSlot_cbRetire (e : Eng) (n : Fin 8) (b : SqG) (s : State) : execSlot (.cbRetire e n b) s = execCbRetire e n b s := rfl
theorem execSlot_barInit (e : Eng) (a b : SqG) (s : State) : execSlot (.barInit e a b) s = execBarInit e a b s := rfl
theorem execSlot_barArriveRel (e : Eng) (a b : SqG) (s : State) : execSlot (.barArriveRel e a b) s = execBarArriveRel e a b s := rfl
theorem execSlot_barArriveRlx (e : Eng) (a b : SqG) (s : State) : execSlot (.barArriveRlx e a b) s = execBarArriveRlx e a b s := rfl
theorem execSlot_barDrop (e : Eng) (a : SqG) (s : State) : execSlot (.barDrop e a) s = execBarDrop e a s := rfl
theorem execSlot_barTest (e : Eng) (a : SqG) (s : State) : execSlot (.barTest e a) s = execBarTest e a s := rfl
theorem execSlot_kSet (e : Eng) (n : Fin 16) (b : SqG) (s : State) : execSlot (.kSet e n b) s = execKSet e n b s := rfl
theorem execSlot_kAdd (e : Eng) (n : Fin 16) (b : SqG) (s : State) : execSlot (.kAdd e n b) s = execKAdd e n b s := rfl
theorem execSlot_wkArm (e : Eng) (w : Fin 8) (a b : SqG) (s : State) : execSlot (.wkArm e w a b) s = execWkArm e w a b s := rfl
theorem execSlot_wkDisarm (e : Eng) (w : Fin 8) (s : State) : execSlot (.wkDisarm e w) s = execWkDisarm e w s := rfl
theorem execSlot_stashPut (e : Eng) (a b : SqG) (s : State) : execSlot (.stashPut e a b) s = execStashPut e a b s := rfl
theorem execSlot_stashGet (e : Eng) (a b : SqG) (s : State) : execSlot (.stashGet e a b) s = execStashGet e a b s := rfl
theorem execSlot_stashPf (e : Eng) (a b : SqG) (s : State) : execSlot (.stashPf e a b) s = execStashPf e a b s := rfl
theorem execSlot_stashDrop (e : Eng) (a b : SqG) (s : State) : execSlot (.stashDrop e a b) s = execStashDrop e a b s := rfl
theorem execSlot_stashFree (e : Eng) (a b : SqG) (s : State) : execSlot (.stashFree e a b) s = execStashFree e a b s := rfl
theorem execSlot_wvCommit (e : Eng) (a b : SqG) (s : State) : execSlot (.wvCommit e a b) s = execWvCommit e a b s := rfl
theorem execSlot_send (c : Fin 11) (a : SendSrc) (s : State) : execSlot (.send c a) s = execSend c a s := rfl
theorem execSlot_sendM (c : Fin 11) (a : Src) (s : State) : execSlot (.sendM c a) s = execSendM c a s := rfl
theorem execSlot_chwin (c : Fin 11) (b : Src) (s : State) : execSlot (.chwin c b) s = execChwin c b s := rfl
theorem execSlot_colGo (a : Src) (s : State) : execSlot (.colGo a) s = execColGo a s := rfl
theorem execSlot_colAbort (a : Src) (s : State) : execSlot (.colAbort a) s = execColAbort a s := rfl
theorem execSlot_gzPut (a b : Src) (s : State) : execSlot (.gzPut a b) s = execGzPut a b s := rfl
theorem execSlot_gzDone (a : Src) (s : State) : execSlot (.gzDone a) s = execGzDone a s := rfl
theorem execSlot_trustQ (a : Src) (s : State) : execSlot (.trustQ a) s = execTrustQ a s := rfl
theorem execSlot_recvV (n : Fin 32) (c : Fin 11) (s : State) : execSlot (.recvV n c) s = execRecvV n c s := rfl
theorem execSlot_recvG (n : Fin 16) (c : Fin 11) (s : State) : execSlot (.recvG n c) s = execRecvG n c s := rfl
theorem execSlot_gzRd (n : Fin 16) (a : Src) (s : State) : execSlot (.gzRd n a) s = execGzRd n a s := rfl
theorem execSlot_recvaddF32 (n : Fin 32) (c : Fin 11) (s : State) : execSlot (.recvaddF32 n c) s = execRecvaddF32 n c s := rfl

/-- In a group a slot operation has the meaning that `exec` gives it. -/
theorem execSlot_eq_exec (i : Instr) (s : State) (h : isSlotOp i = true) : execSlot i s = exec i s := by
  cases i with
  | nop => exact (execSlot_nop s).trans (exec_nop s).symm
  | br d => exact (execSlot_br d s).trans (exec_br d s).symm
  | bz d => exact (execSlot_bz d s).trans (exec_bz d s).symm
  | bnz d => exact (execSlot_bnz d s).trans (exec_bnz d s).symm
  | call d => exact (execSlot_call d s).trans (exec_call d s).symm
  | ret a => exact (execSlot_ret a s).trans (exec_ret a s).symm
  | jr a => exact (execSlot_jr a s).trans (exec_jr a s).symm
  | loop a => exact (execSlot_loop a s).trans (exec_loop a s).symm
  | loopn a => exact (execSlot_loopn a s).trans (exec_loopn a s).symm
  | waitLt k b => exact (execSlot_waitLt k b s).trans (exec_waitLt k b s).symm
  | waitBar a b => exact (execSlot_waitBar a b s).trans (exec_waitBar a b s).symm
  | waitWake => exact (execSlot_waitWake s).trans (exec_waitWake s).symm
  | halt => exact (execSlot_halt s).trans (exec_halt s).symm
  | trap code => exact (execSlot_trap code s).trans (exec_trap code s).symm
  | sysret => exact (execSlot_sysret s).trans (exec_sysret s).symm
  | fence sc => exact (execSlot_fence sc s).trans (exec_fence sc s).symm
  | sbar rd wr mem => exact (execSlot_sbar rd wr mem s).trans (exec_sbar rd wr mem s).symm
  | ckpt a => exact (execSlot_ckpt a s).trans (exec_ckpt a s).symm
  | nextTile => exact (execSlot_nextTile s).trans (exec_nextTile s).symm
  | launch a => exact (execSlot_launch a s).trans (exec_launch a s).symm
  | sysrd w => exact (execSlot_sysrd w s).trans (exec_sysrd w s).symm
  | syswr w b => exact (execSlot_syswr w b s).trans (exec_syswr w b s).symm
  | li imm => exact (execSlot_li imm s).trans (exec_li imm s).symm
  | lih imm => exact (execSlot_lih imm s).trans (exec_lih imm s).symm
  | sMov a => exact (execSlot_sMov a s).trans (exec_sMov a s).symm
  | sSel a b => exact (execSlot_sSel a b s).trans (exec_sSel a b s).symm
  | addI64 a b => exact (execSlot_addI64 a b s).trans (exec_addI64 a b s).symm
  | subI64 a b => exact (execSlot_subI64 a b s).trans (exec_subI64 a b s).symm
  | mulI64 a b => exact (execSlot_mulI64 a b s).trans (exec_mulI64 a b s).symm
  | mulhI64 a b => exact (execSlot_mulhI64 a b s).trans (exec_mulhI64 a b s).symm
  | mulhN64 a b => exact (execSlot_mulhN64 a b s).trans (exec_mulhN64 a b s).symm
  | divI64 a b => exact (execSlot_divI64 a b s).trans (exec_divI64 a b s).symm
  | divN64 a b => exact (execSlot_divN64 a b s).trans (exec_divN64 a b s).symm
  | sAnd a b => exact (execSlot_sAnd a b s).trans (exec_sAnd a b s).symm
  | sOr a b => exact (execSlot_sOr a b s).trans (exec_sOr a b s).symm
  | sXor a b => exact (execSlot_sXor a b s).trans (exec_sXor a b s).symm
  | sAndn a b => exact (execSlot_sAndn a b s).trans (exec_sAndn a b s).symm
  | sShl a b => exact (execSlot_sShl a b s).trans (exec_sShl a b s).symm
  | shrN64 a b => exact (execSlot_shrN64 a b s).trans (exec_shrN64 a b s).symm
  | shrI64 a b => exact (execSlot_shrI64 a b s).trans (exec_shrI64 a b s).symm
  | rotl a b => exact (execSlot_rotl a b s).trans (exec_rotl a b s).symm
  | clz a => exact (execSlot_clz a s).trans (exec_clz a s).symm
  | popc a => exact (execSlot_popc a s).trans (exec_popc a s).symm
  | minI64 a b => exact (execSlot_minI64 a b s).trans (exec_minI64 a b s).symm
  | minN64 a b => exact (execSlot_minN64 a b s).trans (exec_minN64 a b s).symm
  | maxI64 a b => exact (execSlot_maxI64 a b s).trans (exec_maxI64 a b s).symm
  | maxN64 a b => exact (execSlot_maxN64 a b s).trans (exec_maxN64 a b s).symm
  | ceq a b => exact (execSlot_ceq a b s).trans (exec_ceq a b s).symm
  | cne a b => exact (execSlot_cne a b s).trans (exec_cne a b s).symm
  | cltI64 a b => exact (execSlot_cltI64 a b s).trans (exec_cltI64 a b s).symm
  | cltN64 a b => exact (execSlot_cltN64 a b s).trans (exec_cltN64 a b s).symm
  | cleI64 a b => exact (execSlot_cleI64 a b s).trans (exec_cleI64 a b s).symm
  | cleN64 a b => exact (execSlot_cleN64 a b s).trans (exec_cleN64 a b s).symm
  | st w a b inc => exact (execSlot_st w a b inc s).trans (exec_st w a b inc s).symm
  | amoAddI64 o a r => exact (execSlot_amoAddI64 o a r s).trans (exec_amoAddI64 o a r s).symm
  | amoAnd o a r => exact (execSlot_amoAnd o a r s).trans (exec_amoAnd o a r s).symm
  | amoOr o a r => exact (execSlot_amoOr o a r s).trans (exec_amoOr o a r s).symm
  | amoXor o a r => exact (execSlot_amoXor o a r s).trans (exec_amoXor o a r s).symm
  | amoMinI64 o a r => exact (execSlot_amoMinI64 o a r s).trans (exec_amoMinI64 o a r s).symm
  | amoMaxI64 o a r => exact (execSlot_amoMaxI64 o a r s).trans (exec_amoMaxI64 o a r s).symm
  | amoMinN64 o a r => exact (execSlot_amoMinN64 o a r s).trans (exec_amoMinN64 o a r s).symm
  | amoMaxN64 o a r => exact (execSlot_amoMaxN64 o a r s).trans (exec_amoMaxN64 o a r s).symm
  | amoSwap o a r => exact (execSlot_amoSwap o a r s).trans (exec_amoSwap o a r s).symm
  | amoCas o a r => exact (execSlot_amoCas o a r s).trans (exec_amoCas o a r s).symm
  | amoFaddF32 o a r => exact (execSlot_amoFaddF32 o a r s).trans (exec_amoFaddF32 o a r s).symm
  | lockL2 a b => exact (execSlot_lockL2 a b s).trans (exec_lockL2 a b s).symm
  | unlockL2 a b => exact (execSlot_unlockL2 a b s).trans (exec_unlockL2 a b s).symm
  | pref a => exact (execSlot_pref a s).trans (exec_pref a s).symm
  | ldI8 n a b inc => exact (execSlot_ldI8 n a b inc s).trans (exec_ldI8 n a b inc s).symm
  | ldN8 n a b inc => exact (execSlot_ldN8 n a b inc s).trans (exec_ldN8 n a b inc s).symm
  | ldI16 n a b inc => exact (execSlot_ldI16 n a b inc s).trans (exec_ldI16 n a b inc s).symm
  | ldN16 n a b inc => exact (execSlot_ldN16 n a b inc s).trans (exec_ldN16 n a b inc s).symm
  | ldI32 n a b inc => exact (execSlot_ldI32 n a b inc s).trans (exec_ldI32 n a b inc s).symm
  | ldN32 n a b inc => exact (execSlot_ldN32 n a b inc s).trans (exec_ldN32 n a b inc s).symm
  | ldN64 n a b inc => exact (execSlot_ldN64 n a b inc s).trans (exec_ldN64 n a b inc s).symm
  | sLatA a => exact (execSlot_sLatA a s).trans (exec_sLatA a s).symm
  | sLatAb a b => exact (execSlot_sLatAb a b s).trans (exec_sLatAb a b s).symm
  | sMovP n a => exact (execSlot_sMovP n a s).trans (exec_sMovP n a s).symm
  | movG n a => exact (execSlot_movG n a s).trans (exec_movG n a s).symm
  | addF32 u a b => exact (execSlot_addF32 u a b s).trans (exec_addF32 u a b s).symm
  | addBf16 u a b => exact (execSlot_addBf16 u a b s).trans (exec_addBf16 u a b s).symm
  | addF16 u a b => exact (execSlot_addF16 u a b s).trans (exec_addF16 u a b s).symm
  | subF32 u a b => exact (execSlot_subF32 u a b s).trans (exec_subF32 u a b s).symm
  | subBf16 u a b => exact (execSlot_subBf16 u a b s).trans (exec_subBf16 u a b s).symm
  | subF16 u a b => exact (execSlot_subF16 u a b s).trans (exec_subF16 u a b s).symm
  | mulF32 u a b => exact (execSlot_mulF32 u a b s).trans (exec_mulF32 u a b s).symm
  | mulBf16 u a b => exact (execSlot_mulBf16 u a b s).trans (exec_mulBf16 u a b s).symm
  | mulF16 u a b => exact (execSlot_mulF16 u a b s).trans (exec_mulF16 u a b s).symm
  | fmaF32 u a b => exact (execSlot_fmaF32 u a b s).trans (exec_fmaF32 u a b s).symm
  | fmaBf16 u a b => exact (execSlot_fmaBf16 u a b s).trans (exec_fmaBf16 u a b s).symm
  | fmaF16 u a b => exact (execSlot_fmaF16 u a b s).trans (exec_fmaF16 u a b s).symm
  | minF32 u a b => exact (execSlot_minF32 u a b s).trans (exec_minF32 u a b s).symm
  | minBf16 u a b => exact (execSlot_minBf16 u a b s).trans (exec_minBf16 u a b s).symm
  | minF16 u a b => exact (execSlot_minF16 u a b s).trans (exec_minF16 u a b s).symm
  | maxF32 u a b => exact (execSlot_maxF32 u a b s).trans (exec_maxF32 u a b s).symm
  | maxBf16 u a b => exact (execSlot_maxBf16 u a b s).trans (exec_maxBf16 u a b s).symm
  | maxF16 u a b => exact (execSlot_maxF16 u a b s).trans (exec_maxF16 u a b s).symm
  | rcpF32 u a => exact (execSlot_rcpF32 u a s).trans (exec_rcpF32 u a s).symm
  | rsqrtF32 u a => exact (execSlot_rsqrtF32 u a s).trans (exec_rsqrtF32 u a s).symm
  | exp2F32 u a => exact (execSlot_exp2F32 u a s).trans (exec_exp2F32 u a s).symm
  | log2F32 u a => exact (execSlot_log2F32 u a s).trans (exec_log2F32 u a s).symm
  | addI32 u a b => exact (execSlot_addI32 u a b s).trans (exec_addI32 u a b s).symm
  | subI32 u a b => exact (execSlot_subI32 u a b s).trans (exec_subI32 u a b s).symm
  | mulI32 u a b => exact (execSlot_mulI32 u a b s).trans (exec_mulI32 u a b s).symm
  | addSatI32 u a b => exact (execSlot_addSatI32 u a b s).trans (exec_addSatI32 u a b s).symm
  | subSatI32 u a b => exact (execSlot_subSatI32 u a b s).trans (exec_subSatI32 u a b s).symm
  | minI32 u a b => exact (execSlot_minI32 u a b s).trans (exec_minI32 u a b s).symm
  | minN32 u a b => exact (execSlot_minN32 u a b s).trans (exec_minN32 u a b s).symm
  | maxI32 u a b => exact (execSlot_maxI32 u a b s).trans (exec_maxI32 u a b s).symm
  | maxN32 u a b => exact (execSlot_maxN32 u a b s).trans (exec_maxN32 u a b s).symm
  | vAnd u a b => exact (execSlot_vAnd u a b s).trans (exec_vAnd u a b s).symm
  | vOr u a b => exact (execSlot_vOr u a b s).trans (exec_vOr u a b s).symm
  | vXor u a b => exact (execSlot_vXor u a b s).trans (exec_vXor u a b s).symm
  | vAndn u a b => exact (execSlot_vAndn u a b s).trans (exec_vAndn u a b s).symm
  | vShl u a b => exact (execSlot_vShl u a b s).trans (exec_vShl u a b s).symm
  | shrN32 u a b => exact (execSlot_shrN32 u a b s).trans (exec_shrN32 u a b s).symm
  | shrI32 u a b => exact (execSlot_shrI32 u a b s).trans (exec_shrI32 u a b s).symm
  | ceqF32 u a b => exact (execSlot_ceqF32 u a b s).trans (exec_ceqF32 u a b s).symm
  | cltF32 u a b => exact (execSlot_cltF32 u a b s).trans (exec_cltF32 u a b s).symm
  | cleF32 u a b => exact (execSlot_cleF32 u a b s).trans (exec_cleF32 u a b s).symm
  | ceqI32 u a b => exact (execSlot_ceqI32 u a b s).trans (exec_ceqI32 u a b s).symm
  | cltI32 u a b => exact (execSlot_cltI32 u a b s).trans (exec_cltI32 u a b s).symm
  | cltN32 u a b => exact (execSlot_cltN32 u a b s).trans (exec_cltN32 u a b s).symm
  | vSel u a b => exact (execSlot_vSel u a b s).trans (exec_vSel u a b s).symm
  | vMov u a => exact (execSlot_vMov u a s).trans (exec_vMov u a s).symm
  | cvt u d a => exact (execSlot_cvt u d a s).trans (exec_cvt u d a s).symm
  | cvtBf16F32Mode u a m sat => exact (execSlot_cvtBf16F32Mode u a m sat s).trans (exec_cvtBf16F32Mode u a m sat s).symm
  | cvtF16F32Mode u a m sat => exact (execSlot_cvtF16F32Mode u a m sat s).trans (exec_cvtF16F32Mode u a m sat s).symm
  | cvtE4m3F32Mode u a m sat => exact (execSlot_cvtE4m3F32Mode u a m sat s).trans (exec_cvtE4m3F32Mode u a m sat s).symm
  | cvtE5m2F32Mode u a m sat => exact (execSlot_cvtE5m2F32Mode u a m sat s).trans (exec_cvtE5m2F32Mode u a m sat s).symm
  | cvtI32F32Mode u a m sat => exact (execSlot_cvtI32F32Mode u a m sat s).trans (exec_cvtI32F32Mode u a m sat s).symm
  | cvtI8F32Mode u a m sat => exact (execSlot_cvtI8F32Mode u a m sat s).trans (exec_cvtI8F32Mode u a m sat s).symm
  | cvtF32Bf16 u a => exact (execSlot_cvtF32Bf16 u a s).trans (exec_cvtF32Bf16 u a s).symm
  | cvtF32F16 u a => exact (execSlot_cvtF32F16 u a s).trans (exec_cvtF32F16 u a s).symm
  | cvtF32E4m3 u a => exact (execSlot_cvtF32E4m3 u a s).trans (exec_cvtF32E4m3 u a s).symm
  | cvtF32E5m2 u a => exact (execSlot_cvtF32E5m2 u a s).trans (exec_cvtF32E5m2 u a s).symm
  | cvtF32I32 u a => exact (execSlot_cvtF32I32 u a s).trans (exec_cvtF32I32 u a s).symm
  | cvtF32I8 u a => exact (execSlot_cvtF32I8 u a s).trans (exec_cvtF32I8 u a s).symm
  | packNx2 u a => exact (execSlot_packNx2 u a s).trans (exec_packNx2 u a s).symm
  | packNx4 u a => exact (execSlot_packNx4 u a s).trans (exec_packNx4 u a s).symm
  | packNx7 u a => exact (execSlot_packNx7 u a s).trans (exec_packNx7 u a s).symm
  | packNx2Mode u a m sat => exact (execSlot_packNx2Mode u a m sat s).trans (exec_packNx2Mode u a m sat s).symm
  | packNx4Mode u a m sat => exact (execSlot_packNx4Mode u a m sat s).trans (exec_packNx4Mode u a m sat s).symm
  | packNx7Mode u a m sat => exact (execSlot_packNx7Mode u a m sat s).trans (exec_packNx7Mode u a m sat s).symm
  | unpkNx2 u a => exact (execSlot_unpkNx2 u a s).trans (exec_unpkNx2 u a s).symm
  | unpkNx4 u a => exact (execSlot_unpkNx4 u a s).trans (exec_unpkNx4 u a s).symm
  | unpkNx7 u a => exact (execSlot_unpkNx7 u a s).trans (exec_unpkNx7 u a s).symm
  | redF32 u a op => exact (execSlot_redF32 u a op s).trans (exec_redF32 u a op s).symm
  | redI32 u a op => exact (execSlot_redI32 u a op s).trans (exec_redI32 u a op s).symm
  | scanF32 u a op ex => exact (execSlot_scanF32 u a op ex s).trans (exec_scanF32 u a op ex s).symm
  | scanI32 u a op ex => exact (execSlot_scanI32 u a op ex s).trans (exec_scanI32 u a op ex s).symm
  | perm u a ix => exact (execSlot_perm u a ix s).trans (exec_perm u a ix s).symm
  | vld u n a ix inc => exact (execSlot_vld u n a ix inc s).trans (exec_vld u n a ix inc s).symm
  | vldS u n a ix inc => exact (execSlot_vldS u n a ix inc s).trans (exec_vldS u n a ix inc s).symm
  | vldX u n a ix => exact (execSlot_vldX u n a ix s).trans (exec_vldX u n a ix s).symm
  | ldTr u n a ix inc => exact (execSlot_ldTr u n a ix inc s).trans (exec_ldTr u n a ix inc s).symm
  | bcast u a n => exact (execSlot_bcast u a n s).trans (exec_bcast u a n s).symm
  | lrot u a n => exact (execSlot_lrot u a n s).trans (exec_lrot u a n s).symm
  | vst u a ix inc => exact (execSlot_vst u a ix inc s).trans (exec_vst u a ix inc s).symm
  | vstS u a ix inc => exact (execSlot_vstS u a ix inc s).trans (exec_vstS u a ix inc s).symm
  | vstX u a ix => exact (execSlot_vstX u a ix s).trans (exec_vstX u a ix s).symm
  | wrow u a sel => exact (execSlot_wrow u a sel s).trans (exec_wrow u a sel s).symm
  | vLatA u a => exact (execSlot_vLatA u a s).trans (exec_vLatA u a s).symm
  | vLatAb u a b => exact (execSlot_vLatAb u a b s).trans (exec_vLatAb u a b s).symm
  | vMovP u n a => exact (execSlot_vMovP u n a s).trans (exec_vMovP u n a s).symm
  | movV u n a => exact (execSlot_movV u n a s).trans (exec_movV u n a s).symm
  | oclaim n => exact (execSlot_oclaim n s).trans (exec_oclaim n s).symm
  | orel n => exact (execSlot_orel n s).trans (exec_orel n s).symm
  | azero n => exact (execSlot_azero n s).trans (exec_azero n s).symm
  | ascale n b => exact (execSlot_ascale n b s).trans (exec_ascale n b s).symm
  | apin n => exact (execSlot_apin n s).trans (exec_apin n s).symm
  | aunpin n => exact (execSlot_aunpin n s).trans (exec_aunpin n s).symm
  | adrain n q => exact (execSlot_adrain n q s).trans (exec_adrain n q s).symm
  | astat n => exact (execSlot_astat n s).trans (exec_astat n s).symm
  | mma f n a b => exact (execSlot_mma f n a b s).trans (exec_mma f n a b s).symm
  | mmz f n a b => exact (execSlot_mmz f n a b s).trans (exec_mmz f n a b s).symm
  | ato f m sat o n => exact (execSlot_ato f m sat o n s).trans (exec_ato f m sat o n s).symm
  | mckLatA u a => exact (execSlot_mckLatA u a s).trans (exec_mckLatA u a s).symm
  | mckLatAb u a b => exact (execSlot_mckLatAb u a b s).trans (exec_mckLatAb u a b s).symm
  | cpNest e a => exact (execSlot_cpNest e a s).trans (exec_cpNest e a s).symm
  | cpMcast e a => exact (execSlot_cpMcast e a s).trans (exec_cpMcast e a s).symm
  | cbClaim e n b => exact (execSlot_cbClaim e n b s).trans (exec_cbClaim e n b s).symm
  | cbCommit e n b => exact (execSlot_cbCommit e n b s).trans (exec_cbCommit e n b s).symm
  | cbAwait e n b => exact (execSlot_cbAwait e n b s).trans (exec_cbAwait e n b s).symm
  | cbRetire e n b => exact (execSlot_cbRetire e n b s).trans (exec_cbRetire e n b s).symm
  | barInit e a b => exact (execSlot_barInit e a b s).trans (exec_barInit e a b s).symm
  | barArriveRel e a b => exact (execSlot_barArriveRel e a b s).trans (exec_barArriveRel e a b s).symm
  | barArriveRlx e a b => exact (execSlot_barArriveRlx e a b s).trans (exec_barArriveRlx e a b s).symm
  | barDrop e a => exact (execSlot_barDrop e a s).trans (exec_barDrop e a s).symm
  | barTest e a => exact (execSlot_barTest e a s).trans (exec_barTest e a s).symm
  | kSet e n b => exact (execSlot_kSet e n b s).trans (exec_kSet e n b s).symm
  | kAdd e n b => exact (execSlot_kAdd e n b s).trans (exec_kAdd e n b s).symm
  | wkArm e w a b => exact (execSlot_wkArm e w a b s).trans (exec_wkArm e w a b s).symm
  | wkDisarm e w => exact (execSlot_wkDisarm e w s).trans (exec_wkDisarm e w s).symm
  | stashPut e a b => exact (execSlot_stashPut e a b s).trans (exec_stashPut e a b s).symm
  | stashGet e a b => exact (execSlot_stashGet e a b s).trans (exec_stashGet e a b s).symm
  | stashPf e a b => exact (execSlot_stashPf e a b s).trans (exec_stashPf e a b s).symm
  | stashDrop e a b => exact (execSlot_stashDrop e a b s).trans (exec_stashDrop e a b s).symm
  | stashFree e a b => exact (execSlot_stashFree e a b s).trans (exec_stashFree e a b s).symm
  | wvCommit e a b => exact (execSlot_wvCommit e a b s).trans (exec_wvCommit e a b s).symm
  | send c a => exact (execSlot_send c a s).trans (exec_send c a s).symm
  | sendM c a => exact (execSlot_sendM c a s).trans (exec_sendM c a s).symm
  | chwin c b => exact (execSlot_chwin c b s).trans (exec_chwin c b s).symm
  | colGo a => exact (execSlot_colGo a s).trans (exec_colGo a s).symm
  | colAbort a => exact (execSlot_colAbort a s).trans (exec_colAbort a s).symm
  | gzPut a b => exact (execSlot_gzPut a b s).trans (exec_gzPut a b s).symm
  | gzDone a => exact (execSlot_gzDone a s).trans (exec_gzDone a s).symm
  | trustQ a => exact (execSlot_trustQ a s).trans (exec_trustQ a s).symm
  | recvV n c => exact (execSlot_recvV n c s).trans (exec_recvV n c s).symm
  | recvG n c => exact (execSlot_recvG n c s).trans (exec_recvG n c s).symm
  | gzRd n a => exact (execSlot_gzRd n a s).trans (exec_gzRd n a s).symm
  | recvaddF32 n c => exact (execSlot_recvaddF32 n c s).trans (exec_recvaddF32 n c s).symm
  | instructionFetch _ _ => exact Bool.noConfusion h
  | bundleDecode _ => exact Bool.noConfusion h
  | groupIssue _ => exact Bool.noConfusion h
  | deferredSlotAcceptance _ => exact Bool.noConfusion h
  | resultReady _ => exact Bool.noConfusion h
  | loadDataArrival _ _ => exact Bool.noConfusion h
  | bundleComplete _ => exact Bool.noConfusion h
  | teamSave _ => exact Bool.noConfusion h
  | watchdogPeriod _ => exact Bool.noConfusion h
  | watchdog _ => exact Bool.noConfusion h
  | mmaStart _ => exact Bool.noConfusion h
  | mmaFinish _ => exact Bool.noConfusion h
  | tileOperationFinish _ => exact Bool.noConfusion h
  | adrainRowPresent _ => exact Bool.noConfusion h
  | wrowLand _ => exact Bool.noConfusion h
  | engineCommandStart _ _ => exact Bool.noConfusion h
  | engineTransfer _ _ _ => exact Bool.noConfusion h
  | engineCbClaim _ _ => exact Bool.noConfusion h
  | unitComplete _ _ => exact Bool.noConfusion h
  | barrierBankUpdate _ _ => exact Bool.noConfusion h
  | meshAccessArrival _ => exact Bool.noConfusion h
  | wakeTokenEnqueue _ => exact Bool.noConfusion h
  | homeAccess _ => exact Bool.noConfusion h
  | l2Fill _ => exact Bool.noConfusion h
  | dirtyWriteback _ _ => exact Bool.noConfusion h
  | routerCombine _ _ _ => exact Bool.noConfusion h
  | pageWalkStart _ => exact Bool.noConfusion h
  | pageWalkDone _ _ => exact Bool.noConfusion h
  | tlbInvalComplete _ => exact Bool.noConfusion h
  | lclkTick => exact Bool.noConfusion h
  | horizonRound => exact Bool.noConfusion h
  | scAtomicPerform => exact Bool.noConfusion h
  | weightRefreshSlot => exact Bool.noConfusion h
  | creditForward _ => exact Bool.noConfusion h
  | channelMessageDepart _ _ => exact Bool.noConfusion h
  | messageArrival _ _ _ => exact Bool.noConfusion h
  | messageLand _ _ => exact Bool.noConfusion h
  | receiveDelivery _ _ => exact Bool.noConfusion h
  | bindingMeet _ _ _ => exact Bool.noConfusion h
  | flitRetransmit _ => exact Bool.noConfusion h
  | linkRetrain _ => exact Bool.noConfusion h
  | linkRetrainDone _ => exact Bool.noConfusion h
  | linkDown _ => exact Bool.noConfusion h
  | frameRetransmit _ _ => exact Bool.noConfusion h
  | linkRekey _ => exact Bool.noConfusion h
  | chunkStart _ _ _ => exact Bool.noConfusion h
  | contributionArrival _ _ _ _ _ _ => exact Bool.noConfusion h
  | chunkSum _ _ _ => exact Bool.noConfusion h
  | chunkResultArrival _ _ _ _ _ => exact Bool.noConfusion h
  | memberLost _ _ _ => exact Bool.noConfusion h
  | completionRecordWrite _ _ => exact Bool.noConfusion h
  | abortTokenReceive _ _ _ _ => exact Bool.noConfusion h
  | gazetteerCycle _ => exact Bool.noConfusion h
  | orderedFoldSweep _ => exact Bool.noConfusion h
  | recordAgePromotion _ => exact Bool.noConfusion h
  | launchDispatch _ => exact Bool.noConfusion h
  | stageRemoval _ => exact Bool.noConfusion h
  | teamHaltComplete _ => exact Bool.noConfusion h
  | noticeInterrupt _ => exact Bool.noConfusion h
  | doorbell _ _ => exact Bool.noConfusion h
  | doorbellEnqueue _ => exact Bool.noConfusion h
  | stashAccept _ => exact Bool.noConfusion h
  | stashSourceReadDone _ _ => exact Bool.noConfusion h
  | stashStoreDone _ => exact Bool.noConfusion h
  | stashGetDone _ _ => exact Bool.noConfusion h
  | stashFetchDone _ => exact Bool.noConfusion h
  | stashRecordInsert _ => exact Bool.noConfusion h
  | wvCommitApply _ => exact Bool.noConfusion h
  | patrolScrub _ _ _ => exact Bool.noConfusion h
  | powerOn _ => exact Bool.noConfusion h
  | islandFreqChangeDone _ => exact Bool.noConfusion h
  | powerManagerPeriod _ => exact Bool.noConfusion h
  | droopStretch _ _ => exact Bool.noConfusion h
  | thermalCap _ => exact Bool.noConfusion h
  | islandCools _ => exact Bool.noConfusion h
  | thermalTrip => exact Bool.noConfusion h
  | surveyHourly => exact Bool.noConfusion h
  | surveyShutdown => exact Bool.noConfusion h
  | powerFail => exact Bool.noConfusion h
  | hostDma _ _ _ => exact Bool.noConfusion h
  | load _ _ => exact Bool.noConfusion h
  | getVersion => exact Bool.noConfusion h
  | getCapabilities => exact Bool.noConfusion h
  | negotiateAlgorithms _ _ _ _ => exact Bool.noConfusion h
  | getDigests => exact Bool.noConfusion h
  | getCertificate _ => exact Bool.noConfusion h
  | challenge _ => exact Bool.noConfusion h
  | getMeasurements _ _ => exact Bool.noConfusion h
  | keyExchange _ _ _ => exact Bool.noConfusion h
  | finish _ => exact Bool.noConfusion h
  | heartbeat _ => exact Bool.noConfusion h
  | keyUpdate _ => exact Bool.noConfusion h
  | endSession _ => exact Bool.noConfusion h
  | spdmUnsupportedRequest _ => exact Bool.noConfusion h
  | setJobKey _ _ => exact Bool.noConfusion h
  | setImageKey _ _ _ => exact Bool.noConfusion h
  | setTrustAnchor _ _ => exact Bool.noConfusion h
  | setReference _ _ _ => exact Bool.noConfusion h
  | release _ => exact Bool.noConfusion h
  | switchAdmit _ _ _ _ => exact Bool.noConfusion h
  | pathFirstEvaluation _ => exact Bool.noConfusion h
  | switchWithdraw _ => exact Bool.noConfusion h
  | switchSessionClose _ => exact Bool.noConfusion h
  | mctailWrite _ => exact Bool.noConfusion h
  | mcRingConfigWrite _ _ => exact Bool.noConfusion h
  | hostRegisterWrite _ _ => exact Bool.noConfusion h
  | mcUnknownCommand => exact Bool.noConfusion h
  | ctxCreate => exact Bool.noConfusion h
  | ctxDestroy => exact Bool.noConfusion h
  | ctxSetPageTableRoot => exact Bool.noConfusion h
  | ctxSetSaveRegion => exact Bool.noConfusion h
  | ctxSetStashRegion => exact Bool.noConfusion h
  | ctxSetSpillRegion => exact Bool.noConfusion h
  | ctxSetUndoRegion => exact Bool.noConfusion h
  | ctxSetPol => exact Bool.noConfusion h
  | ctxSetWatchdogLimit => exact Bool.noConfusion h
  | ctxSetLockQuota => exact Bool.noConfusion h
  | ctxSetTvec => exact Bool.noConfusion h
  | ctxSetSaveStride => exact Bool.noConfusion h
  | dieSetWayQuota => exact Bool.noConfusion h
  | dieSetScrubRate => exact Bool.noConfusion h
  | fwinWrite => exact Bool.noConfusion h
  | bind => exact Bool.noConfusion h
  | unbind => exact Bool.noConfusion h
  | groupWrite => exact Bool.noConfusion h
  | pathDefine => exact Bool.noConfusion h
  | pathRemove => exact Bool.noConfusion h
  | tlbInval => exact Bool.noConfusion h
  | wvSet => exact Bool.noConfusion h
  | stop => exact Bool.noConfusion h
  | resume => exact Bool.noConfusion h
  | fatal => exact Bool.noConfusion h
  | abortClose => exact Bool.noConfusion h
  | discard => exact Bool.noConfusion h
  | gzPurge => exact Bool.noConfusion h
  | stashPurge => exact Bool.noConfusion h
  | lockPurge => exact Bool.noConfusion h
  | flogRead => exact Bool.noConfusion h
  | flogClear => exact Bool.noConfusion h
  | surveyRead => exact Bool.noConfusion h
  | surveySnapshot => exact Bool.noConfusion h
  | islFreq => exact Bool.noConfusion h
  | plimSet => exact Bool.noConfusion h
  | portSetRingMode => exact Bool.noConfusion h
  | portSetUdpPort => exact Bool.noConfusion h
  | portSetRttTimer => exact Bool.noConfusion h
  | portSetRekeyInterval => exact Bool.noConfusion h
  | portSetOverflowStaging => exact Bool.noConfusion h
  | portSetHeartbeat => exact Bool.noConfusion h
  | linkReset => exact Bool.noConfusion h
  | moduleReset => exact Bool.noConfusion h
  | cbdefWrite _ _ _ => exact Bool.noConfusion h
  | cbptrWrite _ _ _ => exact Bool.noConfusion h
  | estatWrite _ _ _ => exact Bool.noConfusion h
  | ststatWrite _ _ => exact Bool.noConfusion h
  | seedWrite _ _ => exact Bool.noConfusion h

end Sys2Proof.Machine
end

