-- ==== Sys2Proof/Laws/Memory.lean ====
section
/-! SUPPORT. Every operation that changes global memory keeps its canonical form, and the operations beside it leave memory alone. -/
namespace Sys2Proof.Machine

/-! ### Memories as lists -/

theorem Memory.wf_slice {m : Mem} (h : Memory.wf m = true) (a n : Nat) : Memory.wf (memSlice m a n) = true := Memory.wf_filter h _

theorem Memory.wf_clear {m : Mem} (h : Memory.wf m = true) (a n : Nat) : Memory.wf (memClear m a n) = true := Memory.wf_filter h _

theorem Memory.wf_over : ∀ {l m : Mem}, Memory.wf m = true → Memory.wf (memOver m l) = true
  | [], _, h => h
  | p :: l, _, h => Memory.wf_over (l := l) (Memory.wf_put h p.1 p.2)

/-- A fold keeps the canonical form if each of its steps does. -/
theorem wf_foldl {α : Type} {f : State → α → State} (hf : ∀ s x, Memory.wf s.mem = true → Memory.wf (f s x).mem = true) :
    ∀ {l : List α} {s : State}, Memory.wf s.mem = true → Memory.wf (l.foldl f s).mem = true
  | [], _, h => h
  | x :: l, s, h => wf_foldl hf (l := l) (hf s x h)

/-- A fold leaves memory alone if each of its steps does. -/
theorem mem_foldl {α : Type} {f : State → α → State} (hf : ∀ s x, (f s x).mem = s.mem) :
    ∀ {l : List α} {s : State}, (l.foldl f s).mem = s.mem
  | [], _ => rfl
  | x :: l, s => (mem_foldl hf (l := l)).trans (hf s x)

/-! ### What leaves memory alone -/

@[simp] theorem State.modLine_mem (s : State) (l : Nat) (f : L2Line → L2Line) : (s.modLine l f).mem = s.mem := rfl

@[simp] theorem State.touch_mem (s : State) (l : Nat) : (s.touch l).mem = s.mem := by
  unfold State.touch; split <;> rfl

@[simp] theorem dirtyLine_mem (l : Nat) (s : State) : (dirtyLine l s).mem = s.mem := rfl

@[simp] theorem healLine_mem (l : Nat) (s : State) : (healLine l s).mem = s.mem := rfl

/-! ### What writes it -/

theorem putExt_wf (l k : Nat) (m : Mem) {s : State} (h : Memory.wf s.mem = true) : Memory.wf (putExt l k m s).mem = true := by
  unfold putExt
  split
  · exact h
  · exact Memory.wf_over (Memory.wf_clear h _ _)

theorem rekeyLine_wf (k l : Nat) {s : State} (h : Memory.wf s.mem = true) : Memory.wf (rekeyLine k l s).mem = true := by
  unfold rekeyLine
  split
  · exact h
  · split <;> exact putExt_wf _ _ _ h

theorem rawWrite_wf (pa : Nat) (bs : List Byte) {s : State} (h : Memory.wf s.mem = true) : Memory.wf (rawWrite pa bs s).mem = true :=
  wf_foldl (fun _ _ h => putExt_wf _ _ _ h) h

theorem undoAppend_wf (x l : Nat) {s : State} (h : Memory.wf s.mem = true) : Memory.wf (undoAppend x l s).mem = true := by
  simp only [undoAppend]
  split
  · split
    · simpa using h
    · simpa using rawWrite_wf _ _ h
  · exact h

theorem extWrite_wf (x : Nat) (bs : Mem) {s : State} (h : Memory.wf s.mem = true) : Memory.wf (extWrite x bs s).mem = true := by
  unfold extWrite
  exact Memory.wf_over (wf_foldl (fun s l h => rekeyLine_wf _ _ (undoAppend_wf _ _ h)) h)

theorem writeBack_wf (ev : Bool) (l : Nat) {s : State} (h : Memory.wf s.mem = true) : Memory.wf (writeBack ev l s).mem = true := by
  unfold writeBack
  split
  · exact h
  · split
    · exact h
    · split
      · exact h
      · split
        · split
          · simpa using h
          · cases ev
            · simpa using Memory.wf_write (extWrite_wf _ _ h)
            · simpa using extWrite_wf _ _ h
        · simpa using undoAppend_wf _ _ h

theorem evictLine_wf (l : Nat) {s : State} (h : Memory.wf s.mem = true) : Memory.wf (evictLine l s).mem = true := by
  have h1 := writeBack_wf true l h
  unfold evictLine
  simp only
  split
  · exact h1
  · split
    · exact Memory.wf_clear h1 _ _
    · split
      · exact putExt_wf _ _ _ h1
      · exact h1

theorem fillWith_wf (k : Nat) (x : BitVec 3) (c : BitVec 2) (l : Nat) {s : State} (h : Memory.wf s.mem = true) :
    Memory.wf (fillWith k x c l s).mem = true := by
  unfold fillWith
  split
  · simpa using h
  · extract_lets s1 src s2 s3
    have h1 : Memory.wf s1.mem = true := by
      show Memory.wf (match victim s l c with
        | none => s
        | some v => evictLine v s).mem = true
      split
      · exact h
      · exact evictLine_wf _ h
    have h2 : Memory.wf s2.mem = true := by
      show Memory.wf (ite _ s1 (List.foldl (fun s q => rekeyLine k q s) s1 src)).mem = true
      split
      · exact h1
      · exact wf_foldl (fun _ _ h => rekeyLine_wf _ _ h) h1
    show Memory.wf s3.mem = true
    show Memory.wf (match s.lineWindow l with
      | none => s2
      | some f => { s2 with mem := memWrite s2.mem (128 * l) (windowDecode s2 f l) }).mem = true
    split
    · exact h2
    · exact Memory.wf_write h2

theorem fillLine_wf (x : BitVec 3) (c : BitVec 2) (l : Nat) {s : State} (h : Memory.wf s.mem = true) :
    Memory.wf (fillLine x c l s).mem = true := fillWith_wf _ _ _ _ h

theorem homeWrite_wf (x : BitVec 3) (c : BitVec 2) (pa : Nat) (bs : List Byte) {s : State} (h : Memory.wf s.mem = true) :
    Memory.wf (homeWrite x c pa bs s).mem = true := by
  have h1 : Memory.wf (dirtyLine (lineOf pa) (fillLine x c (lineOf pa) s)).mem = true := by simpa using fillLine_wf x c _ h
  unfold homeWrite
  refine Memory.wf_write ?_
  split
  · simpa using h1
  · exact h1

theorem globalWrite_wf (x : BitVec 3) (c : BitVec 2) (pa : Nat) (bs : List Byte) {s : State} (h : Memory.wf s.mem = true) :
    Memory.wf (globalWrite x c pa bs s).mem = true :=
  wf_foldl (fun _ _ h => homeWrite_wf _ _ _ _ h) h

theorem systemWrite_wf (x pa : Nat) (bs : List Byte) {s : State} (h : Memory.wf s.mem = true) :
    Memory.wf (systemWrite x pa bs s).mem = true :=
  wf_foldl (fun s p h => by
    have h1 : Memory.wf (rekeyLine ((undoAppend x (lineOf p.1) s).ctxKey x) (lineOf p.1) (undoAppend x (lineOf p.1) s)).mem = true :=
      rekeyLine_wf _ _ (undoAppend_wf _ _ h)
    refine Memory.wf_write ?_
    split
    · simpa using h1
    · exact h1) h

theorem writeBackCtx_wf (x : BitVec 3) {s : State} (h : Memory.wf s.mem = true) : Memory.wf (writeBackCtx x s).mem = true :=
  wf_foldl (fun _ _ h => writeBack_wf _ _ h) h

theorem writeBackOf_wf (i : Nat) {s : State} (h : Memory.wf s.mem = true) : Memory.wf (writeBackOf i s).mem = true :=
  wf_foldl (fun _ _ h => writeBack_wf _ _ h) h

theorem handLine_wf (y : BitVec 3) (k l : Nat) {s : State} (h : Memory.wf s.mem = true) : Memory.wf (handLine y k l s).mem = true := by
  simpa [handLine] using writeBack_wf false l h

theorem zeroKey_wf (x : Nat) (k : Option Nat) {s : State} (h : Memory.wf s.mem = true) : Memory.wf (zeroKey x k s).mem = true := by
  unfold zeroKey
  simp only
  split
  · exact h
  · rw [State.modCtx_mem]
    refine wf_foldl (fun s y h => ?_) h
    split
    · exact evictLine_wf _ h
    · exact handLine_wf _ _ _ h

theorem restoreLine_wf (e : UndoRec) {s : State} (h : Memory.wf s.mem = true) : Memory.wf (restoreLine s e).mem = true :=
  putExt_wf _ _ _ h

theorem dmaLine_wf (p : Nat × List Byte) {s : State} (h : Memory.wf s.mem = true) : Memory.wf (dmaLine s p).mem = true := by
  unfold dmaLine
  extract_lets l o raw s1 s2
  have h1 : Memory.wf s1.mem = true := wf_foldl (fun _ _ h => undoAppend_wf _ _ h) h
  have h2 : Memory.wf s2.mem = true := putExt_wf _ _ _ (by split <;> exact h1)
  split
  · exact h2
  · exact Memory.wf_write h2

theorem storeCode_wf (l : List Byte) {s : State} (h : Memory.wf s.mem = true) : Memory.wf (storeCode l s).mem = true :=
  Memory.wf_write h

/-- Reset memory is canonical. -/
theorem reset_mem_wf : Memory.wf State.reset.mem = true := rfl

end Sys2Proof.Machine
end

