-- ==== Sys2Proof/Laws/PerInstr.lean ====
section
/-! SUPPORT. The family `Encoded`: an instruction's field decodes to it, one lemma per constructor. -/
namespace Sys2Proof.Laws.Encoded
open Sys2Proof Sys2Proof.Machine

/-- See `Machine.RoundTrip`. -/
def Statement (i : Instr) : Prop := RoundTrip i

theorem nop : Statement (.nop) :=
  roundTrip_fld _ rfl (by decide) (fun _ _ => rfl) rfl rfl ((instrOf_B (by decide) _ _ _).trans rfl)
theorem br (d : BitVec 16) : Statement (.br d) :=
  roundTrip_fld _ rfl (by decide) (fun _ _ => rfl) rfl rfl ((instrOf_B (by decide) _ _ _).trans (by show Instr.br (d.extractLsb' 8 8 ++ d.extractLsb' 0 8) = _; simp only [imm_halves]))
theorem bz (d : BitVec 16) : Statement (.bz d) :=
  roundTrip_fld _ rfl (by decide) (fun _ _ => rfl) rfl rfl ((instrOf_B (by decide) _ _ _).trans (by show Instr.bz (d.extractLsb' 8 8 ++ d.extractLsb' 0 8) = _; simp only [imm_halves]))
theorem bnz (d : BitVec 16) : Statement (.bnz d) :=
  roundTrip_fld _ rfl (by decide) (fun _ _ => rfl) rfl rfl ((instrOf_B (by decide) _ _ _).trans (by show Instr.bnz (d.extractLsb' 8 8 ++ d.extractLsb' 0 8) = _; simp only [imm_halves]))
theorem call (d : BitVec 16) : Statement (.call d) :=
  roundTrip_fld _ rfl (by decide) (fun _ _ => rfl) rfl rfl ((instrOf_B (by decide) _ _ _).trans (by show Instr.call (d.extractLsb' 8 8 ++ d.extractLsb' 0 8) = _; simp only [imm_halves]))
theorem ret (a : Src) : Statement (.ret a) :=
  roundTrip_fld _ rfl (by decide) (fun _ _ => rfl) (val_ok a) rfl ((instrOf_B (by decide) _ _ _).trans (by show Instr.ret (srcOf (encSrc a)) = _; simp only [srcOf_encSrc]))
theorem jr (a : Src) : Statement (.jr a) :=
  roundTrip_fld _ rfl (by decide) (fun _ _ => rfl) (val_ok a) rfl ((instrOf_B (by decide) _ _ _).trans (by show Instr.jr (srcOf (encSrc a)) = _; simp only [srcOf_encSrc]))
theorem loop (a : Src) : Statement (.loop a) :=
  roundTrip_fld _ rfl (by decide) (fun _ _ => rfl) (val_ok a) rfl ((instrOf_B (by decide) _ _ _).trans (by show Instr.loop (srcOf (encSrc a)) = _; simp only [srcOf_encSrc]))
theorem loopn (a : Src) : Statement (.loopn a) :=
  roundTrip_fld _ rfl (by decide) (fun _ _ => rfl) (val_ok a) rfl ((instrOf_B (by decide) _ _ _).trans (by show Instr.loopn (srcOf (encSrc a)) = _; simp only [srcOf_encSrc]))
theorem waitLt (k : Fin 16) (b : Src) : Statement (.waitLt k b) :=
  roundTrip_fld _ rfl (by decide) (fun _ _ => rfl) (ctrLit_ok k) (val_ok b) ((instrOf_B (by decide) _ _ _).trans (by show Instr.waitLt (lowFin 16 (BitVec.ofNat 8 k)) (srcOf (encSrc b)) = _; simp only [low16_lit, srcOf_encSrc]))
theorem waitBar (a : Src) (b : Src) : Statement (.waitBar a b) :=
  roundTrip_fld _ rfl (by decide) (fun _ _ => rfl) (val_ok a) (val_ok b) ((instrOf_B (by decide) _ _ _).trans (by show Instr.waitBar (srcOf (encSrc a)) (srcOf (encSrc b)) = _; simp only [srcOf_encSrc]))
theorem waitWake : Statement (.waitWake) :=
  roundTrip_fld _ rfl (by decide) (fun _ _ => rfl) rfl rfl ((instrOf_B (by decide) _ _ _).trans rfl)
theorem halt : Statement (.halt) :=
  roundTrip_fld _ rfl (by decide) (fun _ _ => rfl) rfl rfl ((instrOf_B (by decide) _ _ _).trans rfl)
theorem trap (c : BitVec 8) : Statement (.trap c) :=
  roundTrip_fld _ rfl (by decide) (fun _ _ => rfl) rfl rfl ((instrOf_B (by decide) _ _ _).trans rfl)
theorem sysret : Statement (.sysret) :=
  roundTrip_fld _ rfl (by decide) (fun tm h => (h.elim (fun h => by rw [h]; rfl) (fun h => absurd rfl h) : portInfo tm 0 0x1A = some {})) rfl rfl ((instrOf_B (by decide) _ _ _).trans rfl)
theorem fence (sc : FenceScope) : Statement (.fence sc) := by
  cases sc <;> exact roundTrip_fld _ rfl (by decide) (fun _ _ => rfl) rfl rfl ((instrOf_B (by decide) _ _ _).trans rfl)
theorem sbar (r w m : Bool) : Statement (.sbar r w m) := by
  intro h
  cases r <;> cases w <;> cases m <;> first
    | exact absurd h (by decide)
    | exact roundTrip_fld _ rfl (by decide) (fun _ _ => rfl) rfl rfl ((instrOf_B (by decide) _ _ _).trans rfl) h
theorem ckpt (a : Src) : Statement (.ckpt a) :=
  roundTrip_fld _ rfl (by decide) (fun _ _ => rfl) (val_ok a) rfl ((instrOf_B (by decide) _ _ _).trans (by show Instr.ckpt (srcOf (encSrc a)) = _; simp only [srcOf_encSrc]))
theorem nextTile : Statement (.nextTile) :=
  roundTrip_fld _ rfl (by decide) (fun _ _ => rfl) rfl rfl ((instrOf_B (by decide) _ _ _).trans rfl)
theorem launch (a : Src) : Statement (.launch a) :=
  roundTrip_fld _ rfl (by decide) (fun _ _ => rfl) (val_ok a) rfl ((instrOf_B (by decide) _ _ _).trans (by show Instr.launch (srcOf (encSrc a)) = _; simp only [srcOf_encSrc]))
theorem sysrd (w : Fin 64) : Statement (.sysrd w) :=
  roundTrip_fld _ rfl (by decide) (fun _ _ => rfl) (wordLit_ok w) rfl ((instrOf_B (by decide) _ _ _).trans (by show Instr.sysrd (lowFin 64 (BitVec.ofNat 8 w)) = _; simp only [low64_ac]))
theorem syswr (w : Fin 64) (b : Src) : Statement (.syswr w b) :=
  roundTrip_fld _ rfl (by decide) (fun _ _ => rfl) (wordLit_ok w) (val_ok b) ((instrOf_B (by decide) _ _ _).trans (by show Instr.syswr (lowFin 64 (BitVec.ofNat 8 w)) (srcOf (encSrc b)) = _; simp only [low64_ac, srcOf_encSrc]))
theorem li (i : BitVec 16) : Statement (.li i) :=
  roundTrip_fld _ rfl (by decide) (fun _ _ => rfl) rfl rfl ((instrOf_S (by decide) _ _ _).trans (by show Instr.li (i.extractLsb' 8 8 ++ i.extractLsb' 0 8) = _; simp only [imm_halves]))
theorem lih (i : BitVec 16) : Statement (.lih i) :=
  roundTrip_fld _ rfl (by decide) (fun _ _ => rfl) rfl rfl ((instrOf_S (by decide) _ _ _).trans (by show Instr.lih (i.extractLsb' 8 8 ++ i.extractLsb' 0 8) = _; simp only [imm_halves]))
theorem sMov (a : Src) : Statement (.sMov a) :=
  roundTrip_fld _ rfl (by decide) (fun _ _ => rfl) (val_ok a) rfl ((instrOf_S (by decide) _ _ _).trans (by show Instr.sMov (srcOf (encSrc a)) = _; simp only [srcOf_encSrc]))
theorem sSel (a : Src) (b : Src) : Statement (.sSel a b) :=
  roundTrip_fld _ rfl (by decide) (fun _ _ => rfl) (val_ok a) (val_ok b) ((instrOf_S (by decide) _ _ _).trans (by show Instr.sSel (srcOf (encSrc a)) (srcOf (encSrc b)) = _; simp only [srcOf_encSrc]))
theorem addI64 (a : Src) (b : Src) : Statement (.addI64 a b) :=
  roundTrip_fld _ rfl (by decide) (fun _ _ => rfl) (val_ok a) (val_ok b) ((instrOf_S (by decide) _ _ _).trans (by show Instr.addI64 (srcOf (encSrc a)) (srcOf (encSrc b)) = _; simp only [srcOf_encSrc]))
theorem subI64 (a : Src) (b : Src) : Statement (.subI64 a b) :=
  roundTrip_fld _ rfl (by decide) (fun _ _ => rfl) (val_ok a) (val_ok b) ((instrOf_S (by decide) _ _ _).trans (by show Instr.subI64 (srcOf (encSrc a)) (srcOf (encSrc b)) = _; simp only [srcOf_encSrc]))
theorem mulI64 (a : Src) (b : Src) : Statement (.mulI64 a b) :=
  roundTrip_fld _ rfl (by decide) (fun _ _ => rfl) (val_ok a) (val_ok b) ((instrOf_S (by decide) _ _ _).trans (by show Instr.mulI64 (srcOf (encSrc a)) (srcOf (encSrc b)) = _; simp only [srcOf_encSrc]))
theorem mulhI64 (a : Src) (b : Src) : Statement (.mulhI64 a b) :=
  roundTrip_fld _ rfl (by decide) (fun _ _ => rfl) (val_ok a) (val_ok b) ((instrOf_S (by decide) _ _ _).trans (by show Instr.mulhI64 (srcOf (encSrc a)) (srcOf (encSrc b)) = _; simp only [srcOf_encSrc]))
theorem mulhN64 (a : Src) (b : Src) : Statement (.mulhN64 a b) :=
  roundTrip_fld _ rfl (by decide) (fun _ _ => rfl) (val_ok a) (val_ok b) ((instrOf_S (by decide) _ _ _).trans (by show Instr.mulhN64 (srcOf (encSrc a)) (srcOf (encSrc b)) = _; simp only [srcOf_encSrc]))
theorem divI64 (a : Src) (b : Src) : Statement (.divI64 a b) :=
  roundTrip_fld _ rfl (by decide) (fun _ _ => rfl) (val_ok a) (val_ok b) ((instrOf_S (by decide) _ _ _).trans (by show Instr.divI64 (srcOf (encSrc a)) (srcOf (encSrc b)) = _; simp only [srcOf_encSrc]))
theorem divN64 (a : Src) (b : Src) : Statement (.divN64 a b) :=
  roundTrip_fld _ rfl (by decide) (fun _ _ => rfl) (val_ok a) (val_ok b) ((instrOf_S (by decide) _ _ _).trans (by show Instr.divN64 (srcOf (encSrc a)) (srcOf (encSrc b)) = _; simp only [srcOf_encSrc]))
theorem sAnd (a : Src) (b : Src) : Statement (.sAnd a b) :=
  roundTrip_fld _ rfl (by decide) (fun _ _ => rfl) (val_ok a) (val_ok b) ((instrOf_S (by decide) _ _ _).trans (by show Instr.sAnd (srcOf (encSrc a)) (srcOf (encSrc b)) = _; simp only [srcOf_encSrc]))
theorem sOr (a : Src) (b : Src) : Statement (.sOr a b) :=
  roundTrip_fld _ rfl (by decide) (fun _ _ => rfl) (val_ok a) (val_ok b) ((instrOf_S (by decide) _ _ _).trans (by show Instr.sOr (srcOf (encSrc a)) (srcOf (encSrc b)) = _; simp only [srcOf_encSrc]))
theorem sXor (a : Src) (b : Src) : Statement (.sXor a b) :=
  roundTrip_fld _ rfl (by decide) (fun _ _ => rfl) (val_ok a) (val_ok b) ((instrOf_S (by decide) _ _ _).trans (by show Instr.sXor (srcOf (encSrc a)) (srcOf (encSrc b)) = _; simp only [srcOf_encSrc]))
theorem sAndn (a : Src) (b : Src) : Statement (.sAndn a b) :=
  roundTrip_fld _ rfl (by decide) (fun _ _ => rfl) (val_ok a) (val_ok b) ((instrOf_S (by decide) _ _ _).trans (by show Instr.sAndn (srcOf (encSrc a)) (srcOf (encSrc b)) = _; simp only [srcOf_encSrc]))
theorem sShl (a : Src) (b : Src) : Statement (.sShl a b) :=
  roundTrip_fld _ rfl (by decide) (fun _ _ => rfl) (val_ok a) (val_ok b) ((instrOf_S (by decide) _ _ _).trans (by show Instr.sShl (srcOf (encSrc a)) (srcOf (encSrc b)) = _; simp only [srcOf_encSrc]))
theorem shrN64 (a : Src) (b : Src) : Statement (.shrN64 a b) :=
  roundTrip_fld _ rfl (by decide) (fun _ _ => rfl) (val_ok a) (val_ok b) ((instrOf_S (by decide) _ _ _).trans (by show Instr.shrN64 (srcOf (encSrc a)) (srcOf (encSrc b)) = _; simp only [srcOf_encSrc]))
theorem shrI64 (a : Src) (b : Src) : Statement (.shrI64 a b) :=
  roundTrip_fld _ rfl (by decide) (fun _ _ => rfl) (val_ok a) (val_ok b) ((instrOf_S (by decide) _ _ _).trans (by show Instr.shrI64 (srcOf (encSrc a)) (srcOf (encSrc b)) = _; simp only [srcOf_encSrc]))
theorem rotl (a : Src) (b : Src) : Statement (.rotl a b) :=
  roundTrip_fld _ rfl (by decide) (fun _ _ => rfl) (val_ok a) (val_ok b) ((instrOf_S (by decide) _ _ _).trans (by show Instr.rotl (srcOf (encSrc a)) (srcOf (encSrc b)) = _; simp only [srcOf_encSrc]))
theorem clz (a : Src) : Statement (.clz a) :=
  roundTrip_fld _ rfl (by decide) (fun _ _ => rfl) (val_ok a) rfl ((instrOf_S (by decide) _ _ _).trans (by show Instr.clz (srcOf (encSrc a)) = _; simp only [srcOf_encSrc]))
theorem popc (a : Src) : Statement (.popc a) :=
  roundTrip_fld _ rfl (by decide) (fun _ _ => rfl) (val_ok a) rfl ((instrOf_S (by decide) _ _ _).trans (by show Instr.popc (srcOf (encSrc a)) = _; simp only [srcOf_encSrc]))
theorem minI64 (a : Src) (b : Src) : Statement (.minI64 a b) :=
  roundTrip_fld _ rfl (by decide) (fun _ _ => rfl) (val_ok a) (val_ok b) ((instrOf_S (by decide) _ _ _).trans (by show Instr.minI64 (srcOf (encSrc a)) (srcOf (encSrc b)) = _; simp only [srcOf_encSrc]))
theorem minN64 (a : Src) (b : Src) : Statement (.minN64 a b) :=
  roundTrip_fld _ rfl (by decide) (fun _ _ => rfl) (val_ok a) (val_ok b) ((instrOf_S (by decide) _ _ _).trans (by show Instr.minN64 (srcOf (encSrc a)) (srcOf (encSrc b)) = _; simp only [srcOf_encSrc]))
theorem maxI64 (a : Src) (b : Src) : Statement (.maxI64 a b) :=
  roundTrip_fld _ rfl (by decide) (fun _ _ => rfl) (val_ok a) (val_ok b) ((instrOf_S (by decide) _ _ _).trans (by show Instr.maxI64 (srcOf (encSrc a)) (srcOf (encSrc b)) = _; simp only [srcOf_encSrc]))
theorem maxN64 (a : Src) (b : Src) : Statement (.maxN64 a b) :=
  roundTrip_fld _ rfl (by decide) (fun _ _ => rfl) (val_ok a) (val_ok b) ((instrOf_S (by decide) _ _ _).trans (by show Instr.maxN64 (srcOf (encSrc a)) (srcOf (encSrc b)) = _; simp only [srcOf_encSrc]))
theorem ceq (a : Src) (b : Src) : Statement (.ceq a b) :=
  roundTrip_fld _ rfl (by decide) (fun _ _ => rfl) (val_ok a) (val_ok b) ((instrOf_S (by decide) _ _ _).trans (by show Instr.ceq (srcOf (encSrc a)) (srcOf (encSrc b)) = _; simp only [srcOf_encSrc]))
theorem cne (a : Src) (b : Src) : Statement (.cne a b) :=
  roundTrip_fld _ rfl (by decide) (fun _ _ => rfl) (val_ok a) (val_ok b) ((instrOf_S (by decide) _ _ _).trans (by show Instr.cne (srcOf (encSrc a)) (srcOf (encSrc b)) = _; simp only [srcOf_encSrc]))
theorem cltI64 (a : Src) (b : Src) : Statement (.cltI64 a b) :=
  roundTrip_fld _ rfl (by decide) (fun _ _ => rfl) (val_ok a) (val_ok b) ((instrOf_S (by decide) _ _ _).trans (by show Instr.cltI64 (srcOf (encSrc a)) (srcOf (encSrc b)) = _; simp only [srcOf_encSrc]))
theorem cltN64 (a : Src) (b : Src) : Statement (.cltN64 a b) :=
  roundTrip_fld _ rfl (by decide) (fun _ _ => rfl) (val_ok a) (val_ok b) ((instrOf_S (by decide) _ _ _).trans (by show Instr.cltN64 (srcOf (encSrc a)) (srcOf (encSrc b)) = _; simp only [srcOf_encSrc]))
theorem cleI64 (a : Src) (b : Src) : Statement (.cleI64 a b) :=
  roundTrip_fld _ rfl (by decide) (fun _ _ => rfl) (val_ok a) (val_ok b) ((instrOf_S (by decide) _ _ _).trans (by show Instr.cleI64 (srcOf (encSrc a)) (srcOf (encSrc b)) = _; simp only [srcOf_encSrc]))
theorem cleN64 (a : Src) (b : Src) : Statement (.cleN64 a b) :=
  roundTrip_fld _ rfl (by decide) (fun _ _ => rfl) (val_ok a) (val_ok b) ((instrOf_S (by decide) _ _ _).trans (by show Instr.cleN64 (srcOf (encSrc a)) (srcOf (encSrc b)) = _; simp only [srcOf_encSrc]))
theorem st (w : StW) (a b : Src) (inc : Bool) : Statement (.st w a b inc) := by
  cases w
  · exact roundTrip_fld _ rfl (by decide) (fun _ _ => rfl) (val_ok a) (val_ok b) ((instrOf_S (by decide) _ _ _).trans (by
      show Instr.st .n8 (srcOf (encSrc a)) (srcOf (encSrc b)) inc = _; simp only [srcOf_encSrc]))
  · exact roundTrip_fld _ rfl (by decide) (fun _ _ => rfl) (val_ok a) (val_ok b) ((instrOf_S (by decide) _ _ _).trans (by
      show Instr.st .n16 (srcOf (encSrc a)) (srcOf (encSrc b)) inc = _; simp only [srcOf_encSrc]))
  · exact roundTrip_fld _ rfl (by decide) (fun _ _ => rfl) (val_ok a) (val_ok b) ((instrOf_S (by decide) _ _ _).trans (by
      show Instr.st .n32 (srcOf (encSrc a)) (srcOf (encSrc b)) inc = _; simp only [srcOf_encSrc]))
  · exact roundTrip_fld _ rfl (by decide) (fun _ _ => rfl) (val_ok a) (val_ok b) ((instrOf_S (by decide) _ _ _).trans (by
      show Instr.st .n64 (srcOf (encSrc a)) (srcOf (encSrc b)) inc = _; simp only [srcOf_encSrc]))
theorem amoAddI64 (o : AmoOrd) (a : Src) (r : Option (Fin 16)) : Statement (.amoAddI64 o a r) := by
  cases o <;> exact roundTrip_fld _ rfl (by decide) (fun _ _ => rfl) (val_ok a) (ret_ok r) ((instrOf_S (by decide) _ _ _).trans (by
    show Instr.amoAddI64 _ (srcOf (encSrc a)) (retOf (encRet r)) = _; simp only [srcOf_encSrc, retOf_encRet]; rfl))
theorem amoAnd (o : AmoOrd) (a : Src) (r : Option (Fin 16)) : Statement (.amoAnd o a r) := by
  cases o <;> exact roundTrip_fld _ rfl (by decide) (fun _ _ => rfl) (val_ok a) (ret_ok r) ((instrOf_S (by decide) _ _ _).trans (by
    show Instr.amoAnd _ (srcOf (encSrc a)) (retOf (encRet r)) = _; simp only [srcOf_encSrc, retOf_encRet]; rfl))
theorem amoOr (o : AmoOrd) (a : Src) (r : Option (Fin 16)) : Statement (.amoOr o a r) := by
  cases o <;> exact roundTrip_fld _ rfl (by decide) (fun _ _ => rfl) (val_ok a) (ret_ok r) ((instrOf_S (by decide) _ _ _).trans (by
    show Instr.amoOr _ (srcOf (encSrc a)) (retOf (encRet r)) = _; simp only [srcOf_encSrc, retOf_encRet]; rfl))
theorem amoXor (o : AmoOrd) (a : Src) (r : Option (Fin 16)) : Statement (.amoXor o a r) := by
  cases o <;> exact roundTrip_fld _ rfl (by decide) (fun _ _ => rfl) (val_ok a) (ret_ok r) ((instrOf_S (by decide) _ _ _).trans (by
    show Instr.amoXor _ (srcOf (encSrc a)) (retOf (encRet r)) = _; simp only [srcOf_encSrc, retOf_encRet]; rfl))
theorem amoMinI64 (o : AmoOrd) (a : Src) (r : Option (Fin 16)) : Statement (.amoMinI64 o a r) := by
  cases o <;> exact roundTrip_fld _ rfl (by decide) (fun _ _ => rfl) (val_ok a) (ret_ok r) ((instrOf_S (by decide) _ _ _).trans (by
    show Instr.amoMinI64 _ (srcOf (encSrc a)) (retOf (encRet r)) = _; simp only [srcOf_encSrc, retOf_encRet]; rfl))
theorem amoMaxI64 (o : AmoOrd) (a : Src) (r : Option (Fin 16)) : Statement (.amoMaxI64 o a r) := by
  cases o <;> exact roundTrip_fld _ rfl (by decide) (fun _ _ => rfl) (val_ok a) (ret_ok r) ((instrOf_S (by decide) _ _ _).trans (by
    show Instr.amoMaxI64 _ (srcOf (encSrc a)) (retOf (encRet r)) = _; simp only [srcOf_encSrc, retOf_encRet]; rfl))
theorem amoMinN64 (o : AmoOrd) (a : Src) (r : Option (Fin 16)) : Statement (.amoMinN64 o a r) := by
  cases o <;> exact roundTrip_fld _ rfl (by decide) (fun _ _ => rfl) (val_ok a) (ret_ok r) ((instrOf_S (by decide) _ _ _).trans (by
    show Instr.amoMinN64 _ (srcOf (encSrc a)) (retOf (encRet r)) = _; simp only [srcOf_encSrc, retOf_encRet]; rfl))
theorem amoMaxN64 (o : AmoOrd) (a : Src) (r : Option (Fin 16)) : Statement (.amoMaxN64 o a r) := by
  cases o <;> exact roundTrip_fld _ rfl (by decide) (fun _ _ => rfl) (val_ok a) (ret_ok r) ((instrOf_S (by decide) _ _ _).trans (by
    show Instr.amoMaxN64 _ (srcOf (encSrc a)) (retOf (encRet r)) = _; simp only [srcOf_encSrc, retOf_encRet]; rfl))
theorem amoSwap (o : AmoOrd) (a : Src) (r : Option (Fin 16)) : Statement (.amoSwap o a r) := by
  cases o <;> exact roundTrip_fld _ rfl (by decide) (fun _ _ => rfl) (val_ok a) (ret_ok r) ((instrOf_S (by decide) _ _ _).trans (by
    show Instr.amoSwap _ (srcOf (encSrc a)) (retOf (encRet r)) = _; simp only [srcOf_encSrc, retOf_encRet]; rfl))
theorem amoCas (o : AmoOrd) (a : Src) (r : Option (Fin 16)) : Statement (.amoCas o a r) := by
  cases o <;> exact roundTrip_fld _ rfl (by decide) (fun _ _ => rfl) (val_ok a) (ret_ok r) ((instrOf_S (by decide) _ _ _).trans (by
    show Instr.amoCas _ (srcOf (encSrc a)) (retOf (encRet r)) = _; simp only [srcOf_encSrc, retOf_encRet]; rfl))
theorem amoFaddF32 (o : AmoOrd) (a : Src) (r : Option (Fin 16)) : Statement (.amoFaddF32 o a r) := by
  cases o <;> exact roundTrip_fld _ rfl (by decide) (fun _ _ => rfl) (val_ok a) (ret_ok r) ((instrOf_S (by decide) _ _ _).trans (by
    show Instr.amoFaddF32 _ (srcOf (encSrc a)) (retOf (encRet r)) = _; simp only [srcOf_encSrc, retOf_encRet]; rfl))
theorem lockL2 (a : Src) (b : Src) : Statement (.lockL2 a b) :=
  roundTrip_fld _ rfl (by decide) (fun _ _ => rfl) (val_ok a) (val_ok b) ((instrOf_S (by decide) _ _ _).trans (by show Instr.lockL2 (srcOf (encSrc a)) (srcOf (encSrc b)) = _; simp only [srcOf_encSrc]))
theorem unlockL2 (a : Src) (b : Src) : Statement (.unlockL2 a b) :=
  roundTrip_fld _ rfl (by decide) (fun _ _ => rfl) (val_ok a) (val_ok b) ((instrOf_S (by decide) _ _ _).trans (by show Instr.unlockL2 (srcOf (encSrc a)) (srcOf (encSrc b)) = _; simp only [srcOf_encSrc]))
theorem pref (a : Src) : Statement (.pref a) :=
  roundTrip_fld _ rfl (by decide) (fun _ _ => rfl) (val_ok a) rfl ((instrOf_S (by decide) _ _ _).trans (by show Instr.pref (srcOf (encSrc a)) = _; simp only [srcOf_encSrc]))
theorem ldI8 (n : Fin 16) (a : Src) (b : Src) (x : Bool) : Statement (.ldI8 n a b x) :=
  roundTrip_fld _ rfl (by omega) (fun _ _ => infoS_ld (by omega) (by omega)) (val_ok a) (val_ok b)
    ((instrOf_S (by omega) _ _ _).trans ((instrS_ld (by omega) (by omega) _ _ _).trans (by
      rw [show 0x70 + n.val - 0x70 = 0 * 16 + n.val by omega]; exact instrLd_ldI8 n a b x)))
theorem ldN8 (n : Fin 16) (a : Src) (b : Src) (x : Bool) : Statement (.ldN8 n a b x) :=
  roundTrip_fld _ rfl (by omega) (fun _ _ => infoS_ld (by omega) (by omega)) (val_ok a) (val_ok b)
    ((instrOf_S (by omega) _ _ _).trans ((instrS_ld (by omega) (by omega) _ _ _).trans (by
      rw [show 0x80 + n.val - 0x70 = 1 * 16 + n.val by omega]; exact instrLd_ldN8 n a b x)))
theorem ldI16 (n : Fin 16) (a : Src) (b : Src) (x : Bool) : Statement (.ldI16 n a b x) :=
  roundTrip_fld _ rfl (by omega) (fun _ _ => infoS_ld (by omega) (by omega)) (val_ok a) (val_ok b)
    ((instrOf_S (by omega) _ _ _).trans ((instrS_ld (by omega) (by omega) _ _ _).trans (by
      rw [show 0x90 + n.val - 0x70 = 2 * 16 + n.val by omega]; exact instrLd_ldI16 n a b x)))
theorem ldN16 (n : Fin 16) (a : Src) (b : Src) (x : Bool) : Statement (.ldN16 n a b x) :=
  roundTrip_fld _ rfl (by omega) (fun _ _ => infoS_ld (by omega) (by omega)) (val_ok a) (val_ok b)
    ((instrOf_S (by omega) _ _ _).trans ((instrS_ld (by omega) (by omega) _ _ _).trans (by
      rw [show 0xa0 + n.val - 0x70 = 3 * 16 + n.val by omega]; exact instrLd_ldN16 n a b x)))
theorem ldI32 (n : Fin 16) (a : Src) (b : Src) (x : Bool) : Statement (.ldI32 n a b x) :=
  roundTrip_fld _ rfl (by omega) (fun _ _ => infoS_ld (by omega) (by omega)) (val_ok a) (val_ok b)
    ((instrOf_S (by omega) _ _ _).trans ((instrS_ld (by omega) (by omega) _ _ _).trans (by
      rw [show 0xb0 + n.val - 0x70 = 4 * 16 + n.val by omega]; exact instrLd_ldI32 n a b x)))
theorem ldN32 (n : Fin 16) (a : Src) (b : Src) (x : Bool) : Statement (.ldN32 n a b x) :=
  roundTrip_fld _ rfl (by omega) (fun _ _ => infoS_ld (by omega) (by omega)) (val_ok a) (val_ok b)
    ((instrOf_S (by omega) _ _ _).trans ((instrS_ld (by omega) (by omega) _ _ _).trans (by
      rw [show 0xc0 + n.val - 0x70 = 5 * 16 + n.val by omega]; exact instrLd_ldN32 n a b x)))
theorem ldN64 (n : Fin 16) (a : Src) (b : Src) (x : Bool) : Statement (.ldN64 n a b x) :=
  roundTrip_fld _ rfl (by omega) (fun _ _ => infoS_ld (by omega) (by omega)) (val_ok a) (val_ok b)
    ((instrOf_S (by omega) _ _ _).trans ((instrS_ld (by omega) (by omega) _ _ _).trans (by
      rw [show 0xd0 + n.val - 0x70 = 6 * 16 + n.val by omega]; exact instrLd_ldN64 n a b x)))
theorem sLatA (a : Src) : Statement (.sLatA a) :=
  roundTrip_fld _ rfl (by decide) (fun _ _ => rfl) (val_ok a) rfl ((instrOf_S (by decide) _ _ _).trans (by show Instr.sLatA (srcOf (encSrc a)) = _; simp only [srcOf_encSrc]))
theorem sLatAb (a : Src) (b : Src) : Statement (.sLatAb a b) :=
  roundTrip_fld _ rfl (by decide) (fun _ _ => rfl) (val_ok a) (val_ok b) ((instrOf_S (by decide) _ _ _).trans (by show Instr.sLatAb (srcOf (encSrc a)) (srcOf (encSrc b)) = _; simp only [srcOf_encSrc]))
theorem sMovP (n : Fin 8) (a : Src) : Statement (.sMovP n a) :=
  roundTrip_fld _ rfl (by omega) (fun tm _ => infoS_mov (by omega) (by omega)) (val_ok a) rfl
    ((instrOf_S (by omega) _ _ _).trans ((instrS_movP (by omega) (by omega) _ _ _).trans (by rw [fin_sub n (show _ = 0xE8 + n.val from rfl), srcOf_encSrc])))
theorem movG (n : Fin 16) (a : Src) : Statement (.movG n a) :=
  roundTrip_fld _ rfl (by omega) (fun tm _ => infoS_mov (by omega) (by omega)) (val_ok a) rfl
    ((instrOf_S (by omega) _ _ _).trans ((instrS_movG (by omega) _ _ _).trans (by rw [fin_sub n (show _ = 0xF0 + n.val from rfl), srcOf_encSrc])))
theorem addF32 (u : Pipe) (a : SrcV) (b : SrcV) : Statement (.addF32 u a b) :=
  roundTrip_fld _ rfl (by decide) (fun tm _ => (portInfo_V tm u 0x01).trans rfl) (vval_ok a) (vval_ok b) ((instrOf_V u (by decide) _ _ _).trans (by show Instr.addF32 u (srcVOf (encSrcV a)) (srcVOf (encSrcV b)) = _; simp only [srcVOf_encSrcV]))
theorem addBf16 (u : Pipe) (a : SrcV) (b : SrcV) : Statement (.addBf16 u a b) :=
  roundTrip_fld _ rfl (by decide) (fun tm _ => (portInfo_V tm u 0x02).trans rfl) (vval_ok a) (vval_ok b) ((instrOf_V u (by decide) _ _ _).trans (by show Instr.addBf16 u (srcVOf (encSrcV a)) (srcVOf (encSrcV b)) = _; simp only [srcVOf_encSrcV]))
theorem addF16 (u : Pipe) (a : SrcV) (b : SrcV) : Statement (.addF16 u a b) :=
  roundTrip_fld _ rfl (by decide) (fun tm _ => (portInfo_V tm u 0x03).trans rfl) (vval_ok a) (vval_ok b) ((instrOf_V u (by decide) _ _ _).trans (by show Instr.addF16 u (srcVOf (encSrcV a)) (srcVOf (encSrcV b)) = _; simp only [srcVOf_encSrcV]))
theorem subF32 (u : Pipe) (a : SrcV) (b : SrcV) : Statement (.subF32 u a b) :=
  roundTrip_fld _ rfl (by decide) (fun tm _ => (portInfo_V tm u 0x04).trans rfl) (vval_ok a) (vval_ok b) ((instrOf_V u (by decide) _ _ _).trans (by show Instr.subF32 u (srcVOf (encSrcV a)) (srcVOf (encSrcV b)) = _; simp only [srcVOf_encSrcV]))
theorem subBf16 (u : Pipe) (a : SrcV) (b : SrcV) : Statement (.subBf16 u a b) :=
  roundTrip_fld _ rfl (by decide) (fun tm _ => (portInfo_V tm u 0x05).trans rfl) (vval_ok a) (vval_ok b) ((instrOf_V u (by decide) _ _ _).trans (by show Instr.subBf16 u (srcVOf (encSrcV a)) (srcVOf (encSrcV b)) = _; simp only [srcVOf_encSrcV]))
theorem subF16 (u : Pipe) (a : SrcV) (b : SrcV) : Statement (.subF16 u a b) :=
  roundTrip_fld _ rfl (by decide) (fun tm _ => (portInfo_V tm u 0x06).trans rfl) (vval_ok a) (vval_ok b) ((instrOf_V u (by decide) _ _ _).trans (by show Instr.subF16 u (srcVOf (encSrcV a)) (srcVOf (encSrcV b)) = _; simp only [srcVOf_encSrcV]))
theorem mulF32 (u : Pipe) (a : SrcV) (b : SrcV) : Statement (.mulF32 u a b) :=
  roundTrip_fld _ rfl (by decide) (fun tm _ => (portInfo_V tm u 0x07).trans rfl) (vval_ok a) (vval_ok b) ((instrOf_V u (by decide) _ _ _).trans (by show Instr.mulF32 u (srcVOf (encSrcV a)) (srcVOf (encSrcV b)) = _; simp only [srcVOf_encSrcV]))
theorem mulBf16 (u : Pipe) (a : SrcV) (b : SrcV) : Statement (.mulBf16 u a b) :=
  roundTrip_fld _ rfl (by decide) (fun tm _ => (portInfo_V tm u 0x08).trans rfl) (vval_ok a) (vval_ok b) ((instrOf_V u (by decide) _ _ _).trans (by show Instr.mulBf16 u (srcVOf (encSrcV a)) (srcVOf (encSrcV b)) = _; simp only [srcVOf_encSrcV]))
theorem mulF16 (u : Pipe) (a : SrcV) (b : SrcV) : Statement (.mulF16 u a b) :=
  roundTrip_fld _ rfl (by decide) (fun tm _ => (portInfo_V tm u 0x09).trans rfl) (vval_ok a) (vval_ok b) ((instrOf_V u (by decide) _ _ _).trans (by show Instr.mulF16 u (srcVOf (encSrcV a)) (srcVOf (encSrcV b)) = _; simp only [srcVOf_encSrcV]))
theorem fmaF32 (u : Pipe) (a : SrcV) (b : SrcV) : Statement (.fmaF32 u a b) :=
  roundTrip_fld _ rfl (by decide) (fun tm _ => (portInfo_V tm u 0x0A).trans rfl) (vval_ok a) (vval_ok b) ((instrOf_V u (by decide) _ _ _).trans (by show Instr.fmaF32 u (srcVOf (encSrcV a)) (srcVOf (encSrcV b)) = _; simp only [srcVOf_encSrcV]))
theorem fmaBf16 (u : Pipe) (a : SrcV) (b : SrcV) : Statement (.fmaBf16 u a b) :=
  roundTrip_fld _ rfl (by decide) (fun tm _ => (portInfo_V tm u 0x0B).trans rfl) (vval_ok a) (vval_ok b) ((instrOf_V u (by decide) _ _ _).trans (by show Instr.fmaBf16 u (srcVOf (encSrcV a)) (srcVOf (encSrcV b)) = _; simp only [srcVOf_encSrcV]))
theorem fmaF16 (u : Pipe) (a : SrcV) (b : SrcV) : Statement (.fmaF16 u a b) :=
  roundTrip_fld _ rfl (by decide) (fun tm _ => (portInfo_V tm u 0x0C).trans rfl) (vval_ok a) (vval_ok b) ((instrOf_V u (by decide) _ _ _).trans (by show Instr.fmaF16 u (srcVOf (encSrcV a)) (srcVOf (encSrcV b)) = _; simp only [srcVOf_encSrcV]))
theorem minF32 (u : Pipe) (a : SrcV) (b : SrcV) : Statement (.minF32 u a b) :=
  roundTrip_fld _ rfl (by decide) (fun tm _ => (portInfo_V tm u 0x0D).trans rfl) (vval_ok a) (vval_ok b) ((instrOf_V u (by decide) _ _ _).trans (by show Instr.minF32 u (srcVOf (encSrcV a)) (srcVOf (encSrcV b)) = _; simp only [srcVOf_encSrcV]))
theorem minBf16 (u : Pipe) (a : SrcV) (b : SrcV) : Statement (.minBf16 u a b) :=
  roundTrip_fld _ rfl (by decide) (fun tm _ => (portInfo_V tm u 0x0E).trans rfl) (vval_ok a) (vval_ok b) ((instrOf_V u (by decide) _ _ _).trans (by show Instr.minBf16 u (srcVOf (encSrcV a)) (srcVOf (encSrcV b)) = _; simp only [srcVOf_encSrcV]))
theorem minF16 (u : Pipe) (a : SrcV) (b : SrcV) : Statement (.minF16 u a b) :=
  roundTrip_fld _ rfl (by decide) (fun tm _ => (portInfo_V tm u 0x0F).trans rfl) (vval_ok a) (vval_ok b) ((instrOf_V u (by decide) _ _ _).trans (by show Instr.minF16 u (srcVOf (encSrcV a)) (srcVOf (encSrcV b)) = _; simp only [srcVOf_encSrcV]))
theorem maxF32 (u : Pipe) (a : SrcV) (b : SrcV) : Statement (.maxF32 u a b) :=
  roundTrip_fld _ rfl (by decide) (fun tm _ => (portInfo_V tm u 0x10).trans rfl) (vval_ok a) (vval_ok b) ((instrOf_V u (by decide) _ _ _).trans (by show Instr.maxF32 u (srcVOf (encSrcV a)) (srcVOf (encSrcV b)) = _; simp only [srcVOf_encSrcV]))
theorem maxBf16 (u : Pipe) (a : SrcV) (b : SrcV) : Statement (.maxBf16 u a b) :=
  roundTrip_fld _ rfl (by decide) (fun tm _ => (portInfo_V tm u 0x11).trans rfl) (vval_ok a) (vval_ok b) ((instrOf_V u (by decide) _ _ _).trans (by show Instr.maxBf16 u (srcVOf (encSrcV a)) (srcVOf (encSrcV b)) = _; simp only [srcVOf_encSrcV]))
theorem maxF16 (u : Pipe) (a : SrcV) (b : SrcV) : Statement (.maxF16 u a b) :=
  roundTrip_fld _ rfl (by decide) (fun tm _ => (portInfo_V tm u 0x12).trans rfl) (vval_ok a) (vval_ok b) ((instrOf_V u (by decide) _ _ _).trans (by show Instr.maxF16 u (srcVOf (encSrcV a)) (srcVOf (encSrcV b)) = _; simp only [srcVOf_encSrcV]))
theorem rcpF32 (u : Pipe) (a : SrcV) : Statement (.rcpF32 u a) :=
  roundTrip_fld _ rfl (by decide) (fun tm _ => (portInfo_V tm u 0x13).trans rfl) (vval_ok a) rfl ((instrOf_V u (by decide) _ _ _).trans (by show Instr.rcpF32 u (srcVOf (encSrcV a)) = _; simp only [srcVOf_encSrcV]))
theorem rsqrtF32 (u : Pipe) (a : SrcV) : Statement (.rsqrtF32 u a) :=
  roundTrip_fld _ rfl (by decide) (fun tm _ => (portInfo_V tm u 0x14).trans rfl) (vval_ok a) rfl ((instrOf_V u (by decide) _ _ _).trans (by show Instr.rsqrtF32 u (srcVOf (encSrcV a)) = _; simp only [srcVOf_encSrcV]))
theorem exp2F32 (u : Pipe) (a : SrcV) : Statement (.exp2F32 u a) :=
  roundTrip_fld _ rfl (by decide) (fun tm _ => (portInfo_V tm u 0x15).trans rfl) (vval_ok a) rfl ((instrOf_V u (by decide) _ _ _).trans (by show Instr.exp2F32 u (srcVOf (encSrcV a)) = _; simp only [srcVOf_encSrcV]))
theorem log2F32 (u : Pipe) (a : SrcV) : Statement (.log2F32 u a) :=
  roundTrip_fld _ rfl (by decide) (fun tm _ => (portInfo_V tm u 0x16).trans rfl) (vval_ok a) rfl ((instrOf_V u (by decide) _ _ _).trans (by show Instr.log2F32 u (srcVOf (encSrcV a)) = _; simp only [srcVOf_encSrcV]))
theorem addI32 (u : Pipe) (a : SrcV) (b : SrcV) : Statement (.addI32 u a b) :=
  roundTrip_fld _ rfl (by decide) (fun tm _ => (portInfo_V tm u 0x18).trans rfl) (vval_ok a) (vval_ok b) ((instrOf_V u (by decide) _ _ _).trans (by show Instr.addI32 u (srcVOf (encSrcV a)) (srcVOf (encSrcV b)) = _; simp only [srcVOf_encSrcV]))
theorem subI32 (u : Pipe) (a : SrcV) (b : SrcV) : Statement (.subI32 u a b) :=
  roundTrip_fld _ rfl (by decide) (fun tm _ => (portInfo_V tm u 0x19).trans rfl) (vval_ok a) (vval_ok b) ((instrOf_V u (by decide) _ _ _).trans (by show Instr.subI32 u (srcVOf (encSrcV a)) (srcVOf (encSrcV b)) = _; simp only [srcVOf_encSrcV]))
theorem mulI32 (u : Pipe) (a : SrcV) (b : SrcV) : Statement (.mulI32 u a b) :=
  roundTrip_fld _ rfl (by decide) (fun tm _ => (portInfo_V tm u 0x1A).trans rfl) (vval_ok a) (vval_ok b) ((instrOf_V u (by decide) _ _ _).trans (by show Instr.mulI32 u (srcVOf (encSrcV a)) (srcVOf (encSrcV b)) = _; simp only [srcVOf_encSrcV]))
theorem addSatI32 (u : Pipe) (a : SrcV) (b : SrcV) : Statement (.addSatI32 u a b) :=
  roundTrip_fld _ rfl (by decide) (fun tm _ => (portInfo_V tm u 0x1B).trans rfl) (vval_ok a) (vval_ok b) ((instrOf_V u (by decide) _ _ _).trans (by show Instr.addSatI32 u (srcVOf (encSrcV a)) (srcVOf (encSrcV b)) = _; simp only [srcVOf_encSrcV]))
theorem subSatI32 (u : Pipe) (a : SrcV) (b : SrcV) : Statement (.subSatI32 u a b) :=
  roundTrip_fld _ rfl (by decide) (fun tm _ => (portInfo_V tm u 0x1C).trans rfl) (vval_ok a) (vval_ok b) ((instrOf_V u (by decide) _ _ _).trans (by show Instr.subSatI32 u (srcVOf (encSrcV a)) (srcVOf (encSrcV b)) = _; simp only [srcVOf_encSrcV]))
theorem minI32 (u : Pipe) (a : SrcV) (b : SrcV) : Statement (.minI32 u a b) :=
  roundTrip_fld _ rfl (by decide) (fun tm _ => (portInfo_V tm u 0x1D).trans rfl) (vval_ok a) (vval_ok b) ((instrOf_V u (by decide) _ _ _).trans (by show Instr.minI32 u (srcVOf (encSrcV a)) (srcVOf (encSrcV b)) = _; simp only [srcVOf_encSrcV]))
theorem minN32 (u : Pipe) (a : SrcV) (b : SrcV) : Statement (.minN32 u a b) :=
  roundTrip_fld _ rfl (by decide) (fun tm _ => (portInfo_V tm u 0x1E).trans rfl) (vval_ok a) (vval_ok b) ((instrOf_V u (by decide) _ _ _).trans (by show Instr.minN32 u (srcVOf (encSrcV a)) (srcVOf (encSrcV b)) = _; simp only [srcVOf_encSrcV]))
theorem maxI32 (u : Pipe) (a : SrcV) (b : SrcV) : Statement (.maxI32 u a b) :=
  roundTrip_fld _ rfl (by decide) (fun tm _ => (portInfo_V tm u 0x1F).trans rfl) (vval_ok a) (vval_ok b) ((instrOf_V u (by decide) _ _ _).trans (by show Instr.maxI32 u (srcVOf (encSrcV a)) (srcVOf (encSrcV b)) = _; simp only [srcVOf_encSrcV]))
theorem maxN32 (u : Pipe) (a : SrcV) (b : SrcV) : Statement (.maxN32 u a b) :=
  roundTrip_fld _ rfl (by decide) (fun tm _ => (portInfo_V tm u 0x20).trans rfl) (vval_ok a) (vval_ok b) ((instrOf_V u (by decide) _ _ _).trans (by show Instr.maxN32 u (srcVOf (encSrcV a)) (srcVOf (encSrcV b)) = _; simp only [srcVOf_encSrcV]))
theorem vAnd (u : Pipe) (a : SrcV) (b : SrcV) : Statement (.vAnd u a b) :=
  roundTrip_fld _ rfl (by decide) (fun tm _ => (portInfo_V tm u 0x21).trans rfl) (vval_ok a) (vval_ok b) ((instrOf_V u (by decide) _ _ _).trans (by show Instr.vAnd u (srcVOf (encSrcV a)) (srcVOf (encSrcV b)) = _; simp only [srcVOf_encSrcV]))
theorem vOr (u : Pipe) (a : SrcV) (b : SrcV) : Statement (.vOr u a b) :=
  roundTrip_fld _ rfl (by decide) (fun tm _ => (portInfo_V tm u 0x22).trans rfl) (vval_ok a) (vval_ok b) ((instrOf_V u (by decide) _ _ _).trans (by show Instr.vOr u (srcVOf (encSrcV a)) (srcVOf (encSrcV b)) = _; simp only [srcVOf_encSrcV]))
theorem vXor (u : Pipe) (a : SrcV) (b : SrcV) : Statement (.vXor u a b) :=
  roundTrip_fld _ rfl (by decide) (fun tm _ => (portInfo_V tm u 0x23).trans rfl) (vval_ok a) (vval_ok b) ((instrOf_V u (by decide) _ _ _).trans (by show Instr.vXor u (srcVOf (encSrcV a)) (srcVOf (encSrcV b)) = _; simp only [srcVOf_encSrcV]))
theorem vAndn (u : Pipe) (a : SrcV) (b : SrcV) : Statement (.vAndn u a b) :=
  roundTrip_fld _ rfl (by decide) (fun tm _ => (portInfo_V tm u 0x24).trans rfl) (vval_ok a) (vval_ok b) ((instrOf_V u (by decide) _ _ _).trans (by show Instr.vAndn u (srcVOf (encSrcV a)) (srcVOf (encSrcV b)) = _; simp only [srcVOf_encSrcV]))
theorem vShl (u : Pipe) (a : SrcV) (b : SrcV) : Statement (.vShl u a b) :=
  roundTrip_fld _ rfl (by decide) (fun tm _ => (portInfo_V tm u 0x25).trans rfl) (vval_ok a) (vval_ok b) ((instrOf_V u (by decide) _ _ _).trans (by show Instr.vShl u (srcVOf (encSrcV a)) (srcVOf (encSrcV b)) = _; simp only [srcVOf_encSrcV]))
theorem shrN32 (u : Pipe) (a : SrcV) (b : SrcV) : Statement (.shrN32 u a b) :=
  roundTrip_fld _ rfl (by decide) (fun tm _ => (portInfo_V tm u 0x26).trans rfl) (vval_ok a) (vval_ok b) ((instrOf_V u (by decide) _ _ _).trans (by show Instr.shrN32 u (srcVOf (encSrcV a)) (srcVOf (encSrcV b)) = _; simp only [srcVOf_encSrcV]))
theorem shrI32 (u : Pipe) (a : SrcV) (b : SrcV) : Statement (.shrI32 u a b) :=
  roundTrip_fld _ rfl (by decide) (fun tm _ => (portInfo_V tm u 0x27).trans rfl) (vval_ok a) (vval_ok b) ((instrOf_V u (by decide) _ _ _).trans (by show Instr.shrI32 u (srcVOf (encSrcV a)) (srcVOf (encSrcV b)) = _; simp only [srcVOf_encSrcV]))
theorem ceqF32 (u : Pipe) (a : SrcV) (b : SrcV) : Statement (.ceqF32 u a b) :=
  roundTrip_fld _ rfl (by decide) (fun tm _ => (portInfo_V tm u 0x28).trans rfl) (vval_ok a) (vval_ok b) ((instrOf_V u (by decide) _ _ _).trans (by show Instr.ceqF32 u (srcVOf (encSrcV a)) (srcVOf (encSrcV b)) = _; simp only [srcVOf_encSrcV]))
theorem cltF32 (u : Pipe) (a : SrcV) (b : SrcV) : Statement (.cltF32 u a b) :=
  roundTrip_fld _ rfl (by decide) (fun tm _ => (portInfo_V tm u 0x29).trans rfl) (vval_ok a) (vval_ok b) ((instrOf_V u (by decide) _ _ _).trans (by show Instr.cltF32 u (srcVOf (encSrcV a)) (srcVOf (encSrcV b)) = _; simp only [srcVOf_encSrcV]))
theorem cleF32 (u : Pipe) (a : SrcV) (b : SrcV) : Statement (.cleF32 u a b) :=
  roundTrip_fld _ rfl (by decide) (fun tm _ => (portInfo_V tm u 0x2A).trans rfl) (vval_ok a) (vval_ok b) ((instrOf_V u (by decide) _ _ _).trans (by show Instr.cleF32 u (srcVOf (encSrcV a)) (srcVOf (encSrcV b)) = _; simp only [srcVOf_encSrcV]))
theorem ceqI32 (u : Pipe) (a : SrcV) (b : SrcV) : Statement (.ceqI32 u a b) :=
  roundTrip_fld _ rfl (by decide) (fun tm _ => (portInfo_V tm u 0x2B).trans rfl) (vval_ok a) (vval_ok b) ((instrOf_V u (by decide) _ _ _).trans (by show Instr.ceqI32 u (srcVOf (encSrcV a)) (srcVOf (encSrcV b)) = _; simp only [srcVOf_encSrcV]))
theorem cltI32 (u : Pipe) (a : SrcV) (b : SrcV) : Statement (.cltI32 u a b) :=
  roundTrip_fld _ rfl (by decide) (fun tm _ => (portInfo_V tm u 0x2C).trans rfl) (vval_ok a) (vval_ok b) ((instrOf_V u (by decide) _ _ _).trans (by show Instr.cltI32 u (srcVOf (encSrcV a)) (srcVOf (encSrcV b)) = _; simp only [srcVOf_encSrcV]))
theorem cltN32 (u : Pipe) (a : SrcV) (b : SrcV) : Statement (.cltN32 u a b) :=
  roundTrip_fld _ rfl (by decide) (fun tm _ => (portInfo_V tm u 0x2D).trans rfl) (vval_ok a) (vval_ok b) ((instrOf_V u (by decide) _ _ _).trans (by show Instr.cltN32 u (srcVOf (encSrcV a)) (srcVOf (encSrcV b)) = _; simp only [srcVOf_encSrcV]))
theorem vSel (u : Pipe) (a : SrcV) (b : SrcV) : Statement (.vSel u a b) :=
  roundTrip_fld _ rfl (by decide) (fun tm _ => (portInfo_V tm u 0x2E).trans rfl) (vval_ok a) (vval_ok b) ((instrOf_V u (by decide) _ _ _).trans (by show Instr.vSel u (srcVOf (encSrcV a)) (srcVOf (encSrcV b)) = _; simp only [srcVOf_encSrcV]))
theorem vMov (u : Pipe) (a : SrcV) : Statement (.vMov u a) :=
  roundTrip_fld _ rfl (by decide) (fun tm _ => (portInfo_V tm u 0x2F).trans rfl) (vval_ok a) rfl ((instrOf_V u (by decide) _ _ _).trans (by show Instr.vMov u (srcVOf (encSrcV a)) = _; simp only [srcVOf_encSrcV]))
theorem cvt (u : Pipe) (d : CvtFmt) (a : SrcV) : Statement (.cvt u d a) := by
  cases d <;> exact roundTrip_fld _ rfl (by decide) (fun tm _ => (portInfo_V tm u _).trans rfl) (vval_ok a) rfl
    ((instrOf_V u (by decide) _ _ _).trans (by show Instr.cvt u _ (srcVOf (encSrcV a)) = _; rw [srcVOf_encSrcV]))
theorem cvtBf16F32Mode (u : Pipe) (a : SrcV) (m : Mode) (s : Bool) : Statement (.cvtBf16F32Mode u a m s) :=
  roundTrip_fld _ rfl (by decide) (fun tm _ => (portInfo_V tm u 0x36).trans rfl) (vval_ok a) (mode_ok m s) ((instrOf_V u (by decide) _ _ _).trans (by
    show Instr.cvtBf16F32Mode u (srcVOf (encSrcV a)) (modeOf ((encMode m s).toNat % 8)) ((encMode m s).getLsbD 3) = _
    rw [srcVOf_encSrcV, modeOf_encMode, sat_encMode]))
theorem cvtF16F32Mode (u : Pipe) (a : SrcV) (m : Mode) (s : Bool) : Statement (.cvtF16F32Mode u a m s) :=
  roundTrip_fld _ rfl (by decide) (fun tm _ => (portInfo_V tm u 0x37).trans rfl) (vval_ok a) (mode_ok m s) ((instrOf_V u (by decide) _ _ _).trans (by
    show Instr.cvtF16F32Mode u (srcVOf (encSrcV a)) (modeOf ((encMode m s).toNat % 8)) ((encMode m s).getLsbD 3) = _
    rw [srcVOf_encSrcV, modeOf_encMode, sat_encMode]))
theorem cvtE4m3F32Mode (u : Pipe) (a : SrcV) (m : Mode) (s : Bool) : Statement (.cvtE4m3F32Mode u a m s) :=
  roundTrip_fld _ rfl (by decide) (fun tm _ => (portInfo_V tm u 0x38).trans rfl) (vval_ok a) (mode_ok m s) ((instrOf_V u (by decide) _ _ _).trans (by
    show Instr.cvtE4m3F32Mode u (srcVOf (encSrcV a)) (modeOf ((encMode m s).toNat % 8)) ((encMode m s).getLsbD 3) = _
    rw [srcVOf_encSrcV, modeOf_encMode, sat_encMode]))
theorem cvtE5m2F32Mode (u : Pipe) (a : SrcV) (m : Mode) (s : Bool) : Statement (.cvtE5m2F32Mode u a m s) :=
  roundTrip_fld _ rfl (by decide) (fun tm _ => (portInfo_V tm u 0x39).trans rfl) (vval_ok a) (mode_ok m s) ((instrOf_V u (by decide) _ _ _).trans (by
    show Instr.cvtE5m2F32Mode u (srcVOf (encSrcV a)) (modeOf ((encMode m s).toNat % 8)) ((encMode m s).getLsbD 3) = _
    rw [srcVOf_encSrcV, modeOf_encMode, sat_encMode]))
theorem cvtI32F32Mode (u : Pipe) (a : SrcV) (m : Mode) (s : Bool) : Statement (.cvtI32F32Mode u a m s) :=
  roundTrip_fld _ rfl (by decide) (fun tm _ => (portInfo_V tm u 0x3A).trans rfl) (vval_ok a) (mode_ok m s) ((instrOf_V u (by decide) _ _ _).trans (by
    show Instr.cvtI32F32Mode u (srcVOf (encSrcV a)) (modeOf ((encMode m s).toNat % 8)) ((encMode m s).getLsbD 3) = _
    rw [srcVOf_encSrcV, modeOf_encMode, sat_encMode]))
theorem cvtI8F32Mode (u : Pipe) (a : SrcV) (m : Mode) (s : Bool) : Statement (.cvtI8F32Mode u a m s) :=
  roundTrip_fld _ rfl (by decide) (fun tm _ => (portInfo_V tm u 0x3B).trans rfl) (vval_ok a) (mode_ok m s) ((instrOf_V u (by decide) _ _ _).trans (by
    show Instr.cvtI8F32Mode u (srcVOf (encSrcV a)) (modeOf ((encMode m s).toNat % 8)) ((encMode m s).getLsbD 3) = _
    rw [srcVOf_encSrcV, modeOf_encMode, sat_encMode]))
theorem cvtF32Bf16 (u : Pipe) (a : SrcV) : Statement (.cvtF32Bf16 u a) :=
  roundTrip_fld _ rfl (by decide) (fun tm _ => (portInfo_V tm u 0x3C).trans rfl) (vval_ok a) rfl ((instrOf_V u (by decide) _ _ _).trans (by show Instr.cvtF32Bf16 u (srcVOf (encSrcV a)) = _; simp only [srcVOf_encSrcV]))
theorem cvtF32F16 (u : Pipe) (a : SrcV) : Statement (.cvtF32F16 u a) :=
  roundTrip_fld _ rfl (by decide) (fun tm _ => (portInfo_V tm u 0x3D).trans rfl) (vval_ok a) rfl ((instrOf_V u (by decide) _ _ _).trans (by show Instr.cvtF32F16 u (srcVOf (encSrcV a)) = _; simp only [srcVOf_encSrcV]))
theorem cvtF32E4m3 (u : Pipe) (a : SrcV) : Statement (.cvtF32E4m3 u a) :=
  roundTrip_fld _ rfl (by decide) (fun tm _ => (portInfo_V tm u 0x3E).trans rfl) (vval_ok a) rfl ((instrOf_V u (by decide) _ _ _).trans (by show Instr.cvtF32E4m3 u (srcVOf (encSrcV a)) = _; simp only [srcVOf_encSrcV]))
theorem cvtF32E5m2 (u : Pipe) (a : SrcV) : Statement (.cvtF32E5m2 u a) :=
  roundTrip_fld _ rfl (by decide) (fun tm _ => (portInfo_V tm u 0x3F).trans rfl) (vval_ok a) rfl ((instrOf_V u (by decide) _ _ _).trans (by show Instr.cvtF32E5m2 u (srcVOf (encSrcV a)) = _; simp only [srcVOf_encSrcV]))
theorem cvtF32I32 (u : Pipe) (a : SrcV) : Statement (.cvtF32I32 u a) :=
  roundTrip_fld _ rfl (by decide) (fun tm _ => (portInfo_V tm u 0x40).trans rfl) (vval_ok a) rfl ((instrOf_V u (by decide) _ _ _).trans (by show Instr.cvtF32I32 u (srcVOf (encSrcV a)) = _; simp only [srcVOf_encSrcV]))
theorem cvtF32I8 (u : Pipe) (a : SrcV) : Statement (.cvtF32I8 u a) :=
  roundTrip_fld _ rfl (by decide) (fun tm _ => (portInfo_V tm u 0x41).trans rfl) (vval_ok a) rfl ((instrOf_V u (by decide) _ _ _).trans (by show Instr.cvtF32I8 u (srcVOf (encSrcV a)) = _; simp only [srcVOf_encSrcV]))
theorem packNx2 (u : Pipe) (a : SrcV) : Statement (.packNx2 u a) :=
  roundTrip_fld _ rfl (by decide) (fun tm _ => (portInfo_V tm u 0x42).trans rfl) (vval_ok a) rfl ((instrOf_V u (by decide) _ _ _).trans (by show Instr.packNx2 u (srcVOf (encSrcV a)) = _; simp only [srcVOf_encSrcV]))
theorem packNx4 (u : Pipe) (a : SrcV) : Statement (.packNx4 u a) :=
  roundTrip_fld _ rfl (by decide) (fun tm _ => (portInfo_V tm u 0x43).trans rfl) (vval_ok a) rfl ((instrOf_V u (by decide) _ _ _).trans (by show Instr.packNx4 u (srcVOf (encSrcV a)) = _; simp only [srcVOf_encSrcV]))
theorem packNx7 (u : Pipe) (a : SrcV) : Statement (.packNx7 u a) :=
  roundTrip_fld _ rfl (by decide) (fun tm _ => (portInfo_V tm u 0x44).trans rfl) (vval_ok a) rfl ((instrOf_V u (by decide) _ _ _).trans (by show Instr.packNx7 u (srcVOf (encSrcV a)) = _; simp only [srcVOf_encSrcV]))
theorem packNx2Mode (u : Pipe) (a : SrcV) (m : Mode) (s : Bool) : Statement (.packNx2Mode u a m s) :=
  roundTrip_fld _ rfl (by decide) (fun tm _ => (portInfo_V tm u 0x45).trans rfl) (vval_ok a) (mode_ok m s) ((instrOf_V u (by decide) _ _ _).trans (by
    show Instr.packNx2Mode u (srcVOf (encSrcV a)) (modeOf ((encMode m s).toNat % 8)) ((encMode m s).getLsbD 3) = _
    rw [srcVOf_encSrcV, modeOf_encMode, sat_encMode]))
theorem packNx4Mode (u : Pipe) (a : SrcV) (m : Mode) (s : Bool) : Statement (.packNx4Mode u a m s) :=
  roundTrip_fld _ rfl (by decide) (fun tm _ => (portInfo_V tm u 0x46).trans rfl) (vval_ok a) (mode_ok m s) ((instrOf_V u (by decide) _ _ _).trans (by
    show Instr.packNx4Mode u (srcVOf (encSrcV a)) (modeOf ((encMode m s).toNat % 8)) ((encMode m s).getLsbD 3) = _
    rw [srcVOf_encSrcV, modeOf_encMode, sat_encMode]))
theorem packNx7Mode (u : Pipe) (a : SrcV) (m : Mode) (s : Bool) : Statement (.packNx7Mode u a m s) :=
  roundTrip_fld _ rfl (by decide) (fun tm _ => (portInfo_V tm u 0x47).trans rfl) (vval_ok a) (mode_ok m s) ((instrOf_V u (by decide) _ _ _).trans (by
    show Instr.packNx7Mode u (srcVOf (encSrcV a)) (modeOf ((encMode m s).toNat % 8)) ((encMode m s).getLsbD 3) = _
    rw [srcVOf_encSrcV, modeOf_encMode, sat_encMode]))
theorem unpkNx2 (u : Pipe) (a : SrcV) : Statement (.unpkNx2 u a) :=
  roundTrip_fld _ rfl (by decide) (fun tm _ => (portInfo_V tm u 0x48).trans rfl) (vval_ok a) rfl ((instrOf_V u (by decide) _ _ _).trans (by show Instr.unpkNx2 u (srcVOf (encSrcV a)) = _; simp only [srcVOf_encSrcV]))
theorem unpkNx4 (u : Pipe) (a : SrcV) : Statement (.unpkNx4 u a) :=
  roundTrip_fld _ rfl (by decide) (fun tm _ => (portInfo_V tm u 0x49).trans rfl) (vval_ok a) rfl ((instrOf_V u (by decide) _ _ _).trans (by show Instr.unpkNx4 u (srcVOf (encSrcV a)) = _; simp only [srcVOf_encSrcV]))
theorem unpkNx7 (u : Pipe) (a : SrcV) : Statement (.unpkNx7 u a) :=
  roundTrip_fld _ rfl (by decide) (fun tm _ => (portInfo_V tm u 0x4A).trans rfl) (vval_ok a) rfl ((instrOf_V u (by decide) _ _ _).trans (by show Instr.unpkNx7 u (srcVOf (encSrcV a)) = _; simp only [srcVOf_encSrcV]))
theorem redF32 (u : Pipe) (a : SrcV) (o : RedOp) : Statement (.redF32 u a o) :=
  roundTrip_fld _ rfl (by decide) (fun tm _ => (portInfo_V tm u 0x4B).trans rfl) (vval_ok a) (red_ok o) ((instrOf_V u (by decide) _ _ _).trans (by
    show Instr.redF32 u (srcVOf (encSrcV a)) (redOf (encRed o false)) = _; rw [srcVOf_encSrcV, redOf_encRed]))
theorem redI32 (u : Pipe) (a : SrcV) (o : RedOp) : Statement (.redI32 u a o) :=
  roundTrip_fld _ rfl (by decide) (fun tm _ => (portInfo_V tm u 0x4C).trans rfl) (vval_ok a) (red_ok o) ((instrOf_V u (by decide) _ _ _).trans (by
    show Instr.redI32 u (srcVOf (encSrcV a)) (redOf (encRed o false)) = _; rw [srcVOf_encSrcV, redOf_encRed]))
theorem scanF32 (u : Pipe) (a : SrcV) (o : RedOp) (x : Bool) : Statement (.scanF32 u a o x) :=
  roundTrip_fld _ rfl (by decide) (fun tm _ => (portInfo_V tm u 0x4D).trans rfl) (vval_ok a) (scan_ok o x) ((instrOf_V u (by decide) _ _ _).trans (by
    show Instr.scanF32 u (srcVOf (encSrcV a)) (redOf (encRed o x)) ((encRed o x).getLsbD 2) = _; rw [srcVOf_encSrcV, redOf_encRed, ex_encRed]))
theorem scanI32 (u : Pipe) (a : SrcV) (o : RedOp) (x : Bool) : Statement (.scanI32 u a o x) :=
  roundTrip_fld _ rfl (by decide) (fun tm _ => (portInfo_V tm u 0x4E).trans rfl) (vval_ok a) (scan_ok o x) ((instrOf_V u (by decide) _ _ _).trans (by
    show Instr.scanI32 u (srcVOf (encSrcV a)) (redOf (encRed o x)) ((encRed o x).getLsbD 2) = _; rw [srcVOf_encSrcV, redOf_encRed, ex_encRed]))
theorem perm (u : Pipe) (a : SrcV) (i : IdxV) : Statement (.perm u a i) :=
  roundTrip_fld _ rfl (by decide) (fun tm _ => (portInfo_V tm u 0x4F).trans rfl) (vval_ok a) (vidx_ok i) ((instrOf_V u (by decide) _ _ _).trans (by show Instr.perm u (srcVOf (encSrcV a)) (vidxOf (encIdx i)) = _; simp only [srcVOf_encSrcV, vidxOf_encIdx]))
theorem vld (u : Pipe) (n : Fin 32) (a : SqG) (i : OffV) (x : Bool) : Statement (.vld u n a i x) :=
  roundTrip_fld _ rfl (by omega) (fun tm _ => (portInfo_V tm u _).trans (infoV_mem (by omega))) (vbase_ok a) (voff_ok i)
    ((instrOf_V u (by omega) _ _ _).trans ((instrV_vld u (by omega) (by omega) _ _ _).trans (by rw [fin_sub n (show _ = 0x50 + n.val from rfl), vbaseOf_encBase, voffOf_encOff]; rfl)))
theorem vldS (u : Pipe) (n : Fin 32) (a : SqG) (i : OffV) (x : Bool) : Statement (.vldS u n a i x) :=
  roundTrip_fld _ rfl (by omega) (fun tm _ => (portInfo_V tm u _).trans (infoV_mem (by omega))) (vbase_ok a) (voff_ok i)
    ((instrOf_V u (by omega) _ _ _).trans ((instrV_vldS u (by omega) (by omega) _ _ _).trans (by rw [fin_sub n (show _ = 0x70 + n.val from rfl), vbaseOf_encBase, voffOf_encOff]; rfl)))
theorem vldX (u : Pipe) (n : Fin 32) (a : SqG) (i : IdxV) : Statement (.vldX u n a i) :=
  roundTrip_fld _ rfl (by omega) (fun tm _ => (portInfo_V tm u _).trans (infoV_idx (by omega) (by omega))) (vbase_ok a) (vidx_ok i)
    ((instrOf_V u (by omega) _ _ _).trans ((instrV_vldX u (by omega) (by omega) _ _ _).trans (by rw [fin_sub n (show _ = 0x90 + n.val from rfl), vbaseOf_encBase, vidxOf_encIdx])))
theorem ldTr (u : Pipe) (n : Fin 32) (a : SqG) (i : OffV) (x : Bool) : Statement (.ldTr u n a i x) :=
  roundTrip_fld _ rfl (by omega) (fun tm _ => (portInfo_V tm u _).trans (infoV_mem (by omega))) (vbase_ok a) (voff_ok i)
    ((instrOf_V u (by omega) _ _ _).trans ((instrV_ldTr u (by omega) (by omega) _ _ _).trans (by rw [fin_sub n (show _ = 0xB0 + n.val from rfl), vbaseOf_encBase, voffOf_encOff]; rfl)))
theorem bcast (u : Pipe) (a : SrcV) (n : CntV) : Statement (.bcast u a n) :=
  roundTrip_fld _ rfl (by decide) (fun tm _ => (portInfo_V tm u 0xD0).trans rfl) (vval_ok a) (vcnt_ok n) ((instrOf_V u (by decide) _ _ _).trans (by show Instr.bcast u (srcVOf (encSrcV a)) (vcntOf (encCnt n)) = _; simp only [srcVOf_encSrcV, vcntOf_encCnt]))
theorem lrot (u : Pipe) (a : SrcV) (n : CntV) : Statement (.lrot u a n) :=
  roundTrip_fld _ rfl (by decide) (fun tm _ => (portInfo_V tm u 0xD1).trans rfl) (vval_ok a) (vcnt_ok n) ((instrOf_V u (by decide) _ _ _).trans (by show Instr.lrot u (srcVOf (encSrcV a)) (vcntOf (encCnt n)) = _; simp only [srcVOf_encSrcV, vcntOf_encCnt]))
theorem vst (u : Pipe) (a : SqG) (i : OffV) (x : Bool) : Statement (.vst u a i x) :=
  roundTrip_fld _ rfl (by decide) (fun tm _ => (portInfo_V tm u 0xD2).trans rfl) (vbase_ok a) (voff_ok i) ((instrOf_V u (by decide) _ _ _).trans (by show Instr.vst u (vbaseOf (encBase a)) (voffOf (encOff i)) x = _; simp only [vbaseOf_encBase, voffOf_encOff]))
theorem vstS (u : Pipe) (a : SqG) (i : OffV) (x : Bool) : Statement (.vstS u a i x) :=
  roundTrip_fld _ rfl (by decide) (fun tm _ => (portInfo_V tm u 0xD3).trans rfl) (vbase_ok a) (voff_ok i) ((instrOf_V u (by decide) _ _ _).trans (by show Instr.vstS u (vbaseOf (encBase a)) (voffOf (encOff i)) x = _; simp only [vbaseOf_encBase, voffOf_encOff]))
theorem vstX (u : Pipe) (a : SqG) (i : IdxV) : Statement (.vstX u a i) :=
  roundTrip_fld _ rfl (by decide) (fun tm _ => (portInfo_V tm u 0xD4).trans rfl) (vbase_ok a) (vidx_ok i) ((instrOf_V u (by decide) _ _ _).trans (by show Instr.vstX u (vbaseOf (encBase a)) (vidxOf (encIdx i)) = _; simp only [vbaseOf_encBase, vidxOf_encIdx]))
theorem wrow (u : Pipe) (a : SrcV) (s : CntV) : Statement (.wrow u a s) :=
  roundTrip_fld _ rfl (by decide) (fun tm _ => (portInfo_V tm u 0xD5).trans rfl) (vval_ok a) (vcnt_ok s) ((instrOf_V u (by decide) _ _ _).trans (by show Instr.wrow u (srcVOf (encSrcV a)) (vcntOf (encCnt s)) = _; simp only [srcVOf_encSrcV, vcntOf_encCnt]))
theorem vLatA (u : Pipe) (a : SrcV) : Statement (.vLatA u a) :=
  roundTrip_fld _ rfl (by decide) (fun tm _ => (portInfo_V tm u 0xD6).trans rfl) (vval_ok a) rfl ((instrOf_V u (by decide) _ _ _).trans (by show Instr.vLatA u (srcVOf (encSrcV a)) = _; simp only [srcVOf_encSrcV]))
theorem vLatAb (u : Pipe) (a : SrcV) (b : SrcV) : Statement (.vLatAb u a b) :=
  roundTrip_fld _ rfl (by decide) (fun tm _ => (portInfo_V tm u 0xD7).trans rfl) (vval_ok a) (vval_ok b) ((instrOf_V u (by decide) _ _ _).trans (by show Instr.vLatAb u (srcVOf (encSrcV a)) (srcVOf (encSrcV b)) = _; simp only [srcVOf_encSrcV]))
theorem vMovP (u : Pipe) (n : Fin 8) (a : SrcV) : Statement (.vMovP u n a) :=
  roundTrip_fld _ rfl (by omega) (fun tm _ => (portInfo_V tm u _).trans (infoV_mov (by omega))) (vval_ok a) rfl
    ((instrOf_V u (by omega) _ _ _).trans ((instrV_movP u (by omega) (by omega) _ _ _).trans (by rw [fin_sub n (show _ = 0xD8 + n.val from rfl), srcVOf_encSrcV])))
theorem movV (u : Pipe) (n : Fin 32) (a : SrcV) : Statement (.movV u n a) :=
  roundTrip_fld _ rfl (by omega) (fun tm _ => (portInfo_V tm u _).trans (infoV_mov (by omega))) (vval_ok a) rfl
    ((instrOf_V u (by omega) _ _ _).trans ((instrV_movV u (by omega) _ _ _).trans (by rw [fin_sub n (show _ = 0xE0 + n.val from rfl), srcVOf_encSrcV])))
theorem oclaim (n : Fin 32) : Statement (.oclaim n) :=
  roundTrip_fld _ rfl (by decide) (fun _ _ => rfl) (ob_ok n) rfl ((instrOf_M (by decide) _ _ _).trans (by show Instr.oclaim (lowFin 32 (BitVec.ofNat 8 (0x40 + n))) = _; simp only [low32_ob]))
theorem orel (n : Fin 32) : Statement (.orel n) :=
  roundTrip_fld _ rfl (by decide) (fun _ _ => rfl) (ob_ok n) rfl ((instrOf_M (by decide) _ _ _).trans (by show Instr.orel (lowFin 32 (BitVec.ofNat 8 (0x40 + n))) = _; simp only [low32_ob]))
theorem azero (n : Fin 64) : Statement (.azero n) :=
  roundTrip_fld _ rfl (by decide) (fun _ _ => rfl) (ac_ok n) rfl ((instrOf_M (by decide) _ _ _).trans (by show Instr.azero (lowFin 64 (BitVec.ofNat 8 n)) = _; simp only [low64_ac]))
theorem ascale (n : Fin 64) (b : SqG) : Statement (.ascale n b) :=
  roundTrip_fld _ rfl (by decide) (fun _ _ => rfl) (ac_ok n) (sg_ok b) ((instrOf_M (by decide) _ _ _).trans (by show Instr.ascale (lowFin 64 (BitVec.ofNat 8 n)) (sgOf (encSg b)) = _; simp only [low64_ac, sgOf_encSg]))
theorem apin (n : Fin 64) : Statement (.apin n) :=
  roundTrip_fld _ rfl (by decide) (fun _ _ => rfl) (ac_ok n) rfl ((instrOf_M (by decide) _ _ _).trans (by show Instr.apin (lowFin 64 (BitVec.ofNat 8 n)) = _; simp only [low64_ac]))
theorem aunpin (n : Fin 64) : Statement (.aunpin n) :=
  roundTrip_fld _ rfl (by decide) (fun _ _ => rfl) (ac_ok n) rfl ((instrOf_M (by decide) _ _ _).trans (by show Instr.aunpin (lowFin 64 (BitVec.ofNat 8 n)) = _; simp only [low64_ac]))
theorem adrain (n : Fin 64) (q : Fin 4) : Statement (.adrain n q) :=
  roundTrip_fld _ rfl (by decide) (fun _ _ => rfl) (ac_ok n) (tq_ok q) ((instrOf_M (by decide) _ _ _).trans (by show Instr.adrain (lowFin 64 (BitVec.ofNat 8 n)) (lowFin 4 (BitVec.ofNat 8 (0x78 + q))) = _; simp only [low4_tq, low64_ac]))
theorem astat (n : Fin 64) : Statement (.astat n) :=
  roundTrip_fld _ rfl (by decide) (fun _ _ => rfl) (ac_ok n) rfl ((instrOf_M (by decide) _ _ _).trans (by show Instr.astat (lowFin 64 (BitVec.ofNat 8 n)) = _; simp only [low64_ac]))
theorem mma (f : Fmt) (n : Fin 64) (a b : Fin 32) : Statement (.mma f n a b) := by
  have hf := f.code_lt
  exact roundTrip_fld _ rfl (by omega) (fun _ _ => infoM_mma (by omega) (by omega)) (ac_ok n) rfl
    ((instrOf_M (by omega) _ _ _).trans (instrM_mma (by omega) (by omega) n f a b rfl))
theorem mmz (f : Fmt) (n : Fin 64) (a b : Fin 32) : Statement (.mmz f n a b) := by
  have hf := f.code_lt
  exact roundTrip_fld _ rfl (by omega) (fun _ _ => infoM_mma (by omega) (by omega)) (ac_ok n) rfl
    ((instrOf_M (by omega) _ _ _).trans (instrM_mmz (by omega) (by omega) n f a b rfl))
theorem ato (f : Fmt) (m : Mode) (s : Bool) (o : Fin 32) (n : Fin 64) : Statement (.ato f m s o n) := by
  have hf := f.code_lt
  have hm := m.code_lt
  have hs : (if s then 1 else 0) < 2 := by cases s <;> decide
  exact roundTrip_fld _ rfl (by omega) (fun _ _ => infoM_ato (by omega) (by omega)) (ac_ok n) (ob_ok o)
    ((instrOf_M (by omega) _ _ _).trans (instrM_ato f m s o n rfl))
theorem mckLatA (u : MckUnit) (a : Src) : Statement (.mckLatA u a) := by
  intro h
  cases u with
  | m => exact roundTrip_fld _ rfl (by decide) (fun _ _ => rfl) (sgSrc_ok a) rfl ((instrOf_M (by decide) _ _ _).trans (by
      show Instr.mckLatA .m (sgSrc (encSgSrc a)) = _; rw [sgSrc_encSgSrc (u := .m) (by decide) h])) h
  | c0 => exact roundTrip_fld _ rfl (by decide) (fun _ _ => rfl) (sgSrc_ok a) rfl ((instrOf_C .c0 (by decide) _ _ _).trans (by
      show Instr.mckLatA .c0 (sgSrc (encSgSrc a)) = _; rw [sgSrc_encSgSrc (u := .c0) (by decide) h])) h
  | c1 => exact roundTrip_fld _ rfl (by decide) (fun _ _ => rfl) (sgSrc_ok a) rfl ((instrOf_C .c1 (by decide) _ _ _).trans (by
      show Instr.mckLatA .c1 (sgSrc (encSgSrc a)) = _; rw [sgSrc_encSgSrc (u := .c1) (by decide) h])) h
  | k => exact roundTrip_fld _ rfl (by decide) (fun _ _ => rfl) (klat_ok h) rfl ((instrOf_K (by decide) _ _ _).trans (by
      show Instr.mckLatA .k (srcOf (encSrc a)) = _; rw [srcOf_encSrc])) h
theorem mckLatAb (u : MckUnit) (a b : Src) : Statement (.mckLatAb u a b) := by
  intro h
  have h' := Bool.and_eq_true_iff.mp h
  cases u with
  | m => exact roundTrip_fld _ rfl (by decide) (fun _ _ => rfl) (sgSrc_ok a) (sgSrc_ok b) ((instrOf_M (by decide) _ _ _).trans (by
      show Instr.mckLatAb .m (sgSrc (encSgSrc a)) (sgSrc (encSgSrc b)) = _
      rw [sgSrc_encSgSrc (u := .m) (by decide) h'.1, sgSrc_encSgSrc (u := .m) (by decide) h'.2])) h
  | c0 => exact roundTrip_fld _ rfl (by decide) (fun _ _ => rfl) (sgSrc_ok a) (sgSrc_ok b) ((instrOf_C .c0 (by decide) _ _ _).trans (by
      show Instr.mckLatAb .c0 (sgSrc (encSgSrc a)) (sgSrc (encSgSrc b)) = _
      rw [sgSrc_encSgSrc (u := .c0) (by decide) h'.1, sgSrc_encSgSrc (u := .c0) (by decide) h'.2])) h
  | c1 => exact roundTrip_fld _ rfl (by decide) (fun _ _ => rfl) (sgSrc_ok a) (sgSrc_ok b) ((instrOf_C .c1 (by decide) _ _ _).trans (by
      show Instr.mckLatAb .c1 (sgSrc (encSgSrc a)) (sgSrc (encSgSrc b)) = _
      rw [sgSrc_encSgSrc (u := .c1) (by decide) h'.1, sgSrc_encSgSrc (u := .c1) (by decide) h'.2])) h
  | k => exact roundTrip_fld _ rfl (by decide) (fun _ _ => rfl) (klat_ok h'.1) (klat_ok h'.2) ((instrOf_K (by decide) _ _ _).trans (by
      show Instr.mckLatAb .k (srcOf (encSrc a)) (srcOf (encSrc b)) = _; rw [srcOf_encSrc, srcOf_encSrc])) h
theorem cpNest (e : Eng) (a : SqG) : Statement (.cpNest e a) :=
  roundTrip_fld _ rfl (by decide) (fun tm _ => (portInfo_C tm e 0x01).trans rfl) (sg_ok a) rfl ((instrOf_C e (by decide) _ _ _).trans (by show Instr.cpNest e (sgOf (encSg a)) = _; simp only [sgOf_encSg]))
theorem cpMcast (e : Eng) (a : SqG) : Statement (.cpMcast e a) :=
  roundTrip_fld _ rfl (by decide) (fun tm _ => (portInfo_C tm e 0x02).trans rfl) (sg_ok a) rfl ((instrOf_C e (by decide) _ _ _).trans (by show Instr.cpMcast e (sgOf (encSg a)) = _; simp only [sgOf_encSg]))
theorem cbClaim (e : Eng) (n : Fin 8) (b : SqG) : Statement (.cbClaim e n b) :=
  roundTrip_fld _ rfl (by decide) (fun tm _ => (portInfo_C tm e 0x08).trans rfl) (cb_ok n) (sg_ok b) ((instrOf_C e (by decide) _ _ _).trans (by show Instr.cbClaim e (lowFin 8 (BitVec.ofNat 8 (0x70 + n))) (sgOf (encSg b)) = _; simp only [low8_cb, sgOf_encSg]))
theorem cbCommit (e : Eng) (n : Fin 8) (b : SqG) : Statement (.cbCommit e n b) :=
  roundTrip_fld _ rfl (by decide) (fun tm _ => (portInfo_C tm e 0x09).trans rfl) (cb_ok n) (sg_ok b) ((instrOf_C e (by decide) _ _ _).trans (by show Instr.cbCommit e (lowFin 8 (BitVec.ofNat 8 (0x70 + n))) (sgOf (encSg b)) = _; simp only [low8_cb, sgOf_encSg]))
theorem cbAwait (e : Eng) (n : Fin 8) (b : SqG) : Statement (.cbAwait e n b) :=
  roundTrip_fld _ rfl (by decide) (fun tm _ => (portInfo_C tm e 0x0A).trans rfl) (cb_ok n) (sg_ok b) ((instrOf_C e (by decide) _ _ _).trans (by show Instr.cbAwait e (lowFin 8 (BitVec.ofNat 8 (0x70 + n))) (sgOf (encSg b)) = _; simp only [low8_cb, sgOf_encSg]))
theorem cbRetire (e : Eng) (n : Fin 8) (b : SqG) : Statement (.cbRetire e n b) :=
  roundTrip_fld _ rfl (by decide) (fun tm _ => (portInfo_C tm e 0x0B).trans rfl) (cb_ok n) (sg_ok b) ((instrOf_C e (by decide) _ _ _).trans (by show Instr.cbRetire e (lowFin 8 (BitVec.ofNat 8 (0x70 + n))) (sgOf (encSg b)) = _; simp only [low8_cb, sgOf_encSg]))
theorem barInit (e : Eng) (a : SqG) (b : SqG) : Statement (.barInit e a b) :=
  roundTrip_fld _ rfl (by decide) (fun tm _ => (portInfo_C tm e 0x10).trans rfl) (sg_ok a) (sg_ok b) ((instrOf_C e (by decide) _ _ _).trans (by show Instr.barInit e (sgOf (encSg a)) (sgOf (encSg b)) = _; simp only [sgOf_encSg]))
theorem barArriveRel (e : Eng) (a : SqG) (b : SqG) : Statement (.barArriveRel e a b) :=
  roundTrip_fld _ rfl (by decide) (fun tm _ => (portInfo_C tm e 0x11).trans rfl) (sg_ok a) (sg_ok b) ((instrOf_C e (by decide) _ _ _).trans (by show Instr.barArriveRel e (sgOf (encSg a)) (sgOf (encSg b)) = _; simp only [sgOf_encSg]))
theorem barArriveRlx (e : Eng) (a : SqG) (b : SqG) : Statement (.barArriveRlx e a b) :=
  roundTrip_fld _ rfl (by decide) (fun tm _ => (portInfo_C tm e 0x12).trans rfl) (sg_ok a) (sg_ok b) ((instrOf_C e (by decide) _ _ _).trans (by show Instr.barArriveRlx e (sgOf (encSg a)) (sgOf (encSg b)) = _; simp only [sgOf_encSg]))
theorem barDrop (e : Eng) (a : SqG) : Statement (.barDrop e a) :=
  roundTrip_fld _ rfl (by decide) (fun tm _ => (portInfo_C tm e 0x13).trans rfl) (sg_ok a) rfl ((instrOf_C e (by decide) _ _ _).trans (by show Instr.barDrop e (sgOf (encSg a)) = _; simp only [sgOf_encSg]))
theorem barTest (e : Eng) (a : SqG) : Statement (.barTest e a) :=
  roundTrip_fld _ rfl (by decide) (fun tm _ => (portInfo_C tm e 0x14).trans rfl) (sg_ok a) rfl ((instrOf_C e (by decide) _ _ _).trans (by show Instr.barTest e (sgOf (encSg a)) = _; simp only [sgOf_encSg]))
theorem kSet (e : Eng) (n : Fin 16) (b : SqG) : Statement (.kSet e n b) :=
  roundTrip_fld _ rfl (by decide) (fun tm _ => (portInfo_C tm e 0x18).trans rfl) (kctr_ok n) (sg_ok b) ((instrOf_C e (by decide) _ _ _).trans (by show Instr.kSet e (lowFin 16 (BitVec.ofNat 8 (0x60 + n))) (sgOf (encSg b)) = _; simp only [low16_k, sgOf_encSg]))
theorem kAdd (e : Eng) (n : Fin 16) (b : SqG) : Statement (.kAdd e n b) :=
  roundTrip_fld _ rfl (by decide) (fun tm _ => (portInfo_C tm e 0x19).trans rfl) (kctr_ok n) (sg_ok b) ((instrOf_C e (by decide) _ _ _).trans (by show Instr.kAdd e (lowFin 16 (BitVec.ofNat 8 (0x60 + n))) (sgOf (encSg b)) = _; simp only [low16_k, sgOf_encSg]))
theorem wkArm (e : Eng) (w : Fin 8) (a b : SqG) : Statement (.wkArm e w a b) :=
  roundTrip_fld _ rfl (by omega) (fun tm _ => (portInfo_C tm e _).trans (infoC_wk w)) (sg_ok a) (sg_ok b)
    ((instrOf_C e (by omega) _ _ _).trans ((instrC_wkArm e w _ _).trans (by rw [sgOf_encSg, sgOf_encSg])))
theorem wkDisarm (e : Eng) (w : Fin 8) : Statement (.wkDisarm e w) :=
  roundTrip_fld _ rfl (by omega) (fun tm _ => (portInfo_C tm e _).trans (infoC_wk' w)) rfl rfl
    ((instrOf_C e (by omega) _ _ _).trans (instrC_wkDisarm e w _ _))
theorem stashPut (e : Eng) (a : SqG) (b : SqG) : Statement (.stashPut e a b) :=
  roundTrip_fld _ rfl (by decide) (fun tm _ => (portInfo_C tm e 0x30).trans rfl) (sg_ok a) (sg_ok b) ((instrOf_C e (by decide) _ _ _).trans (by show Instr.stashPut e (sgOf (encSg a)) (sgOf (encSg b)) = _; simp only [sgOf_encSg]))
theorem stashGet (e : Eng) (a : SqG) (b : SqG) : Statement (.stashGet e a b) :=
  roundTrip_fld _ rfl (by decide) (fun tm _ => (portInfo_C tm e 0x31).trans rfl) (sg_ok a) (sg_ok b) ((instrOf_C e (by decide) _ _ _).trans (by show Instr.stashGet e (sgOf (encSg a)) (sgOf (encSg b)) = _; simp only [sgOf_encSg]))
theorem stashPf (e : Eng) (a : SqG) (b : SqG) : Statement (.stashPf e a b) :=
  roundTrip_fld _ rfl (by decide) (fun tm _ => (portInfo_C tm e 0x32).trans rfl) (sg_ok a) (sg_ok b) ((instrOf_C e (by decide) _ _ _).trans (by show Instr.stashPf e (sgOf (encSg a)) (sgOf (encSg b)) = _; simp only [sgOf_encSg]))
theorem stashDrop (e : Eng) (a : SqG) (b : SqG) : Statement (.stashDrop e a b) :=
  roundTrip_fld _ rfl (by decide) (fun tm _ => (portInfo_C tm e 0x33).trans rfl) (sg_ok a) (sg_ok b) ((instrOf_C e (by decide) _ _ _).trans (by show Instr.stashDrop e (sgOf (encSg a)) (sgOf (encSg b)) = _; simp only [sgOf_encSg]))
theorem stashFree (e : Eng) (a : SqG) (b : SqG) : Statement (.stashFree e a b) :=
  roundTrip_fld _ rfl (by decide) (fun tm _ => (portInfo_C tm e 0x34).trans rfl) (sg_ok a) (sg_ok b) ((instrOf_C e (by decide) _ _ _).trans (by show Instr.stashFree e (sgOf (encSg a)) (sgOf (encSg b)) = _; simp only [sgOf_encSg]))
theorem wvCommit (e : Eng) (a : SqG) (b : SqG) : Statement (.wvCommit e a b) :=
  roundTrip_fld _ rfl (by decide) (fun tm _ => (portInfo_C tm e 0x38).trans rfl) (sg_ok a) (sg_ok b) ((instrOf_C e (by decide) _ _ _).trans (by show Instr.wvCommit e (sgOf (encSg a)) (sgOf (encSg b)) = _; simp only [sgOf_encSg]))
theorem send (c : Fin 11) (s : SendSrc) : Statement (.send c s) :=
  roundTrip_fld _ rfl (by decide) (fun _ _ => rfl) (ch_ok c) (send_ok s) ((instrOf_K (by decide) _ _ _).trans (by show Instr.send (chOf (encCh c)) (sendOf (encSend s)) = _; simp only [chOf_encCh, sendOf_encSend]))
theorem sendM (c : Fin 11) (a : Src) : Statement (.sendM c a) :=
  roundTrip_fld _ rfl (by decide) (fun _ _ => rfl) (ch_ok c) (kval_ok a) ((instrOf_K (by decide) _ _ _).trans (by show Instr.sendM (chOf (encCh c)) (srcOf (encSrc a)) = _; simp only [chOf_encCh, srcOf_encSrc]))
theorem chwin (c : Fin 11) (b : Src) : Statement (.chwin c b) :=
  roundTrip_fld _ rfl (by decide) (fun _ _ => rfl) (ch_ok c) (kval_ok b) ((instrOf_K (by decide) _ _ _).trans (by show Instr.chwin (chOf (encCh c)) (srcOf (encSrc b)) = _; simp only [chOf_encCh, srcOf_encSrc]))
theorem colGo (a : Src) : Statement (.colGo a) :=
  roundTrip_fld _ rfl (by decide) (fun _ _ => rfl) (kval_ok a) rfl ((instrOf_K (by decide) _ _ _).trans (by show Instr.colGo (srcOf (encSrc a)) = _; simp only [srcOf_encSrc]))
theorem colAbort (a : Src) : Statement (.colAbort a) :=
  roundTrip_fld _ rfl (by decide) (fun _ _ => rfl) (kval_ok a) rfl ((instrOf_K (by decide) _ _ _).trans (by show Instr.colAbort (srcOf (encSrc a)) = _; simp only [srcOf_encSrc]))
theorem gzPut (a : Src) (b : Src) : Statement (.gzPut a b) :=
  roundTrip_fld _ rfl (by decide) (fun _ _ => rfl) (kval_ok a) (kval_ok b) ((instrOf_K (by decide) _ _ _).trans (by show Instr.gzPut (srcOf (encSrc a)) (srcOf (encSrc b)) = _; simp only [srcOf_encSrc]))
theorem gzDone (a : Src) : Statement (.gzDone a) :=
  roundTrip_fld _ rfl (by decide) (fun _ _ => rfl) (kval_ok a) rfl ((instrOf_K (by decide) _ _ _).trans (by show Instr.gzDone (srcOf (encSrc a)) = _; simp only [srcOf_encSrc]))
theorem trustQ (a : Src) : Statement (.trustQ a) :=
  roundTrip_fld _ rfl (by decide) (fun _ _ => rfl) (kval_ok a) rfl ((instrOf_K (by decide) _ _ _).trans (by show Instr.trustQ (srcOf (encSrc a)) = _; simp only [srcOf_encSrc]))
theorem recvV (n : Fin 32) (c : Fin 11) : Statement (.recvV n c) :=
  roundTrip_fld _ rfl (by omega) (fun tm _ => infoK_recv (by omega)) (ch_ok c) rfl
    ((instrOf_K (by omega) _ _ _).trans ((instrK_recvV (by omega) (by omega) _ _).trans (by rw [fin_sub n (show _ = 0x40 + n.val from rfl), chOf_encCh])))
theorem recvG (n : Fin 16) (c : Fin 11) : Statement (.recvG n c) :=
  roundTrip_fld _ rfl (by omega) (fun tm _ => infoK_recv (by omega)) (ch_ok c) rfl
    ((instrOf_K (by omega) _ _ _).trans ((instrK_recvG (by omega) (by omega) _ _).trans (by rw [fin_sub n (show _ = 0x60 + n.val from rfl), chOf_encCh])))
theorem gzRd (n : Fin 16) (a : Src) : Statement (.gzRd n a) :=
  roundTrip_fld _ rfl (by omega) (fun tm _ => infoK_gzRd (by omega) (by omega)) (kval_ok a) rfl
    ((instrOf_K (by omega) _ _ _).trans ((instrK_gzRd (by omega) (by omega) _ _).trans (by rw [fin_sub n (show _ = 0x70 + n.val from rfl), srcOf_encSrc])))
theorem recvaddF32 (n : Fin 32) (c : Fin 11) : Statement (.recvaddF32 n c) :=
  roundTrip_fld _ rfl (by omega) (fun tm _ => infoK_recv (by omega)) (ch_ok c) rfl
    ((instrOf_K (by omega) _ _ _).trans ((instrK_recvadd (by omega) (by omega) _ _).trans (by rw [fin_sub n (show _ = 0x80 + n.val from rfl), chOf_encCh])))
theorem instructionFetch (c : CoreId) (ue : Bool) : Statement (.instructionFetch c ue) := roundTrip_none rfl
theorem bundleDecode (c : CoreId) : Statement (.bundleDecode c) := roundTrip_none rfl
theorem groupIssue (c : CoreId) : Statement (.groupIssue c) := roundTrip_none rfl
theorem deferredSlotAcceptance (c : CoreId) : Statement (.deferredSlotAcceptance c) := roundTrip_none rfl
theorem resultReady (c : CoreId) : Statement (.resultReady c) := roundTrip_none rfl
theorem loadDataArrival (c : CoreId) (ue : Bool) : Statement (.loadDataArrival c ue) := roundTrip_none rfl
theorem bundleComplete (c : CoreId) : Statement (.bundleComplete c) := roundTrip_none rfl
theorem teamSave (o : CoreId) : Statement (.teamSave o) := roundTrip_none rfl
theorem watchdogPeriod (c : CoreId) : Statement (.watchdogPeriod c) := roundTrip_none rfl
theorem watchdog (c : CoreId) : Statement (.watchdog c) := roundTrip_none rfl
theorem mmaStart (c : CoreId) : Statement (.mmaStart c) := roundTrip_none rfl
theorem mmaFinish (c : CoreId) : Statement (.mmaFinish c) := roundTrip_none rfl
theorem tileOperationFinish (c : CoreId) : Statement (.tileOperationFinish c) := roundTrip_none rfl
theorem adrainRowPresent (c : CoreId) : Statement (.adrainRowPresent c) := roundTrip_none rfl
theorem wrowLand (c : CoreId) : Statement (.wrowLand c) := roundTrip_none rfl
theorem engineCommandStart (c : CoreId) (e : Eng) : Statement (.engineCommandStart c e) := roundTrip_none rfl
theorem engineTransfer (c : CoreId) (e : Eng) (ue : Bool) : Statement (.engineTransfer c e ue) := roundTrip_none rfl
theorem engineCbClaim (c : CoreId) (e : Eng) : Statement (.engineCbClaim c e) := roundTrip_none rfl
theorem unitComplete (c : CoreId) (e : Eng) : Statement (.unitComplete c e) := roundTrip_none rfl
theorem barrierBankUpdate (c : CoreId) (off : BitVec 19) : Statement (.barrierBankUpdate c off) := roundTrip_none rfl
theorem meshAccessArrival (c : CoreId) : Statement (.meshAccessArrival c) := roundTrip_none rfl
theorem wakeTokenEnqueue (c : CoreId) : Statement (.wakeTokenEnqueue c) := roundTrip_none rfl
theorem homeAccess (sl : Fin 1024) : Statement (.homeAccess sl) := roundTrip_none rfl
theorem l2Fill (sl : Fin 1024) : Statement (.l2Fill sl) := roundTrip_none rfl
theorem dirtyWriteback (line : BitVec 41) (ue : Bool) : Statement (.dirtyWriteback line ue) := roundTrip_none rfl
theorem routerCombine (sl : Fin 1024) (ia ib : Fin 6) : Statement (.routerCombine sl ia ib) := roundTrip_none rfl
theorem pageWalkStart (d : Die) : Statement (.pageWalkStart d) := roundTrip_none rfl
theorem pageWalkDone (d : Die) (ue : Option (Fin 4)) : Statement (.pageWalkDone d ue) := roundTrip_none rfl
theorem tlbInvalComplete (x : CtxId) : Statement (.tlbInvalComplete x) := roundTrip_none rfl
theorem lclkTick : Statement (.lclkTick) := roundTrip_none rfl
theorem horizonRound : Statement (.horizonRound) := roundTrip_none rfl
theorem scAtomicPerform : Statement (.scAtomicPerform) := roundTrip_none rfl
theorem weightRefreshSlot : Statement (.weightRefreshSlot) := roundTrip_none rfl
theorem creditForward (b : Nat) : Statement (.creditForward b) := roundTrip_none rfl
theorem channelMessageDepart (c : CoreId) (ue : Bool) : Statement (.channelMessageDepart c ue) := roundTrip_none rfl
theorem messageArrival (b ti : Nat) (m : Option Msg) : Statement (.messageArrival b ti m) := roundTrip_none rfl
theorem messageLand (b ti : Nat) : Statement (.messageLand b ti) := roundTrip_none rfl
theorem receiveDelivery (c : CoreId) (ue : Bool) : Statement (.receiveDelivery c ue) := roundTrip_none rfl
theorem bindingMeet (b lw lh : Nat) : Statement (.bindingMeet b lw lh) := roundTrip_none rfl
theorem flitRetransmit (p : PortId) : Statement (.flitRetransmit p) := roundTrip_none rfl
theorem linkRetrain (p : PortId) : Statement (.linkRetrain p) := roundTrip_none rfl
theorem linkRetrainDone (p : PortId) : Statement (.linkRetrainDone p) := roundTrip_none rfl
theorem linkDown (p : PortId) : Statement (.linkDown p) := roundTrip_none rfl
theorem frameRetransmit (p : PortId) (fate : FrameFate) : Statement (.frameRetransmit p fate) := roundTrip_none rfl
theorem linkRekey (p : PortId) : Statement (.linkRekey p) := roundTrip_none rfl
theorem chunkStart (x : CtxId) (id : Nat) (chunk : ChunkRead) : Statement (.chunkStart x id chunk) := roundTrip_none rfl
theorem contributionArrival (x : CtxId) (id member chunk : Nat) (data : List Byte) (agrees : Bool) : Statement (.contributionArrival x id member chunk data agrees) := roundTrip_none rfl
theorem chunkSum (x : CtxId) (id : Nat) (chunk : ChunkRead) : Statement (.chunkSum x id chunk) := roundTrip_none rfl
theorem chunkResultArrival (x : CtxId) (id chunk : Nat) (data : List Byte) (lost : List Nat) : Statement (.chunkResultArrival x id chunk data lost) := roundTrip_none rfl
theorem memberLost (x : CtxId) (id member : Nat) : Statement (.memberLost x id member) := roundTrip_none rfl
theorem completionRecordWrite (x : CtxId) (id : Nat) : Statement (.completionRecordWrite x id) := roundTrip_none rfl
theorem abortTokenReceive (x : CtxId) (g : Fin 64) (sender : TokenFrom) (step : Word) : Statement (.abortTokenReceive x g sender step) := roundTrip_none rfl
theorem gazetteerCycle (d : Die) : Statement (.gazetteerCycle d) := roundTrip_none rfl
theorem orderedFoldSweep (d : Die) : Statement (.orderedFoldSweep d) := roundTrip_none rfl
theorem recordAgePromotion (d : Die) : Statement (.recordAgePromotion d) := roundTrip_none rfl
theorem launchDispatch (d : Die) : Statement (.launchDispatch d) := roundTrip_none rfl
theorem stageRemoval (d : Die) : Statement (.stageRemoval d) := roundTrip_none rfl
theorem teamHaltComplete (o : CoreId) : Statement (.teamHaltComplete o) := roundTrip_none rfl
theorem noticeInterrupt (x : CtxId) : Statement (.noticeInterrupt x) := roundTrip_none rfl
theorem doorbell (x : CtxId) (desc : BitVec 512) : Statement (.doorbell x desc) := roundTrip_none rfl
theorem doorbellEnqueue (x : CtxId) : Statement (.doorbellEnqueue x) := roundTrip_none rfl
theorem stashAccept (c : CoreId) : Statement (.stashAccept c) := roundTrip_none rfl
theorem stashSourceReadDone (d : Die) (ue : Bool) : Statement (.stashSourceReadDone d ue) := roundTrip_none rfl
theorem stashStoreDone (d : Die) : Statement (.stashStoreDone d) := roundTrip_none rfl
theorem stashGetDone (d : Die) (ue : Bool) : Statement (.stashGetDone d ue) := roundTrip_none rfl
theorem stashFetchDone (d : DieRead) : Statement (.stashFetchDone d) := roundTrip_none rfl
theorem stashRecordInsert (d : Die) : Statement (.stashRecordInsert d) := roundTrip_none rfl
theorem wvCommitApply (c : CoreId) : Statement (.wvCommitApply c) := roundTrip_none rfl
theorem patrolScrub (d : Die) (t : ScrubTarget) (r : ScrubResult) : Statement (.patrolScrub d t r) := roundTrip_none rfl
theorem powerOn (b : BootEvent) : Statement (.powerOn b) := roundTrip_none rfl
theorem islandFreqChangeDone (i : Fin 128) : Statement (.islandFreqChangeDone i) := roundTrip_none rfl
theorem powerManagerPeriod (watts : Nat) : Statement (.powerManagerPeriod watts) := roundTrip_none rfl
theorem droopStretch (i : Fin 128) (depthMv : Nat) : Statement (.droopStretch i depthMv) := roundTrip_none rfl
theorem thermalCap (i : Fin 128) : Statement (.thermalCap i) := roundTrip_none rfl
theorem islandCools (i : Fin 128) : Statement (.islandCools i) := roundTrip_none rfl
theorem thermalTrip : Statement (.thermalTrip) := roundTrip_none rfl
theorem surveyHourly : Statement (.surveyHourly) := roundTrip_none rfl
theorem surveyShutdown : Statement (.surveyShutdown) := roundTrip_none rfl
theorem powerFail : Statement (.powerFail) := roundTrip_none rfl
theorem hostDma (pa : BitVec 48) (len : Nat) (op : DmaOp) : Statement (.hostDma pa len op) := roundTrip_none rfl
theorem load (off : Option Word) (len : Word) : Statement (.load off len) := roundTrip_none rfl
theorem getVersion : Statement (.getVersion) := roundTrip_none rfl
theorem getCapabilities : Statement (.getCapabilities) := roundTrip_none rfl
theorem negotiateAlgorithms (peer : Nat) (rsa sha : Bool) (offer : SessOffer) : Statement (.negotiateAlgorithms peer rsa sha offer) := roundTrip_none rfl
theorem getDigests : Statement (.getDigests) := roundTrip_none rfl
theorem getCertificate (slot : Fin 8) : Statement (.getCertificate slot) := roundTrip_none rfl
theorem challenge (nonce : BitVec 256) : Statement (.challenge nonce) := roundTrip_none rfl
theorem getMeasurements (idx : BitVec 8) (signed : Bool) : Statement (.getMeasurements idx signed) := roundTrip_none rfl
theorem keyExchange (peer : Nat) (role : PeerRole) (auth : Option (List Byte)) : Statement (.keyExchange peer role auth) := roundTrip_none rfl
theorem finish (m : FinishMsg) : Statement (.finish m) := roundTrip_none rfl
theorem heartbeat (sess : Nat) : Statement (.heartbeat sess) := roundTrip_none rfl
theorem keyUpdate (sess : Nat) : Statement (.keyUpdate sess) := roundTrip_none rfl
theorem endSession (sess : Nat) : Statement (.endSession sess) := roundTrip_none rfl
theorem spdmUnsupportedRequest (code : BitVec 8) : Statement (.spdmUnsupportedRequest code) := roundTrip_none rfl
theorem setJobKey (sess : Nat) (key : BitVec 256) : Statement (.setJobKey sess key) := roundTrip_none rfl
theorem setImageKey (sess : Nat) (slot : Fin 4) (key : BitVec 4096) : Statement (.setImageKey sess slot key) := roundTrip_none rfl
theorem setTrustAnchor (sess : Nat) (cert : List Byte) : Statement (.setTrustAnchor sess cert) := roundTrip_none rfl
theorem setReference (sess : Nat) (idx : BitVec 8) (digest : BitVec 512) : Statement (.setReference sess idx digest) := roundTrip_none rfl
theorem release (sess : Nat) : Statement (.release sess) := roundTrip_none rfl
theorem switchAdmit (serial : Word) (root : List Byte) (meas : List (Nat × BitVec 512)) (ack : Bool) : Statement (.switchAdmit serial root meas ack) := roundTrip_none rfl
theorem pathFirstEvaluation (p : Fin 1024) : Statement (.pathFirstEvaluation p) := roundTrip_none rfl
theorem switchWithdraw (w : Withdrawal) : Statement (.switchWithdraw w) := roundTrip_none rfl
theorem switchSessionClose (serial : Word) : Statement (.switchSessionClose serial) := roundTrip_none rfl
theorem mctailWrite (v : Word) : Statement (.mctailWrite v) := roundTrip_none rfl
theorem mcRingConfigWrite (size : Bool) (v : Word) : Statement (.mcRingConfigWrite size v) := roundTrip_none rfl
theorem hostRegisterWrite (r : HostReg) (v : Word) : Statement (.hostRegisterWrite r v) := roundTrip_none rfl
theorem mcUnknownCommand : Statement (.mcUnknownCommand) := roundTrip_none rfl
theorem ctxCreate : Statement (.ctxCreate) := roundTrip_none rfl
theorem ctxDestroy : Statement (.ctxDestroy) := roundTrip_none rfl
theorem ctxSetPageTableRoot : Statement (.ctxSetPageTableRoot) := roundTrip_none rfl
theorem ctxSetSaveRegion : Statement (.ctxSetSaveRegion) := roundTrip_none rfl
theorem ctxSetStashRegion : Statement (.ctxSetStashRegion) := roundTrip_none rfl
theorem ctxSetSpillRegion : Statement (.ctxSetSpillRegion) := roundTrip_none rfl
theorem ctxSetUndoRegion : Statement (.ctxSetUndoRegion) := roundTrip_none rfl
theorem ctxSetPol : Statement (.ctxSetPol) := roundTrip_none rfl
theorem ctxSetWatchdogLimit : Statement (.ctxSetWatchdogLimit) := roundTrip_none rfl
theorem ctxSetLockQuota : Statement (.ctxSetLockQuota) := roundTrip_none rfl
theorem ctxSetTvec : Statement (.ctxSetTvec) := roundTrip_none rfl
theorem ctxSetSaveStride : Statement (.ctxSetSaveStride) := roundTrip_none rfl
theorem dieSetWayQuota : Statement (.dieSetWayQuota) := roundTrip_none rfl
theorem dieSetScrubRate : Statement (.dieSetScrubRate) := roundTrip_none rfl
theorem fwinWrite : Statement (.fwinWrite) := roundTrip_none rfl
theorem bind : Statement (.bind) := roundTrip_none rfl
theorem unbind : Statement (.unbind) := roundTrip_none rfl
theorem groupWrite : Statement (.groupWrite) := roundTrip_none rfl
theorem pathDefine : Statement (.pathDefine) := roundTrip_none rfl
theorem pathRemove : Statement (.pathRemove) := roundTrip_none rfl
theorem tlbInval : Statement (.tlbInval) := roundTrip_none rfl
theorem wvSet : Statement (.wvSet) := roundTrip_none rfl
theorem stop : Statement (.stop) := roundTrip_none rfl
theorem resume : Statement (.resume) := roundTrip_none rfl
theorem fatal : Statement (.fatal) := roundTrip_none rfl
theorem abortClose : Statement (.abortClose) := roundTrip_none rfl
theorem discard : Statement (.discard) := roundTrip_none rfl
theorem gzPurge : Statement (.gzPurge) := roundTrip_none rfl
theorem stashPurge : Statement (.stashPurge) := roundTrip_none rfl
theorem lockPurge : Statement (.lockPurge) := roundTrip_none rfl
theorem flogRead : Statement (.flogRead) := roundTrip_none rfl
theorem flogClear : Statement (.flogClear) := roundTrip_none rfl
theorem surveyRead : Statement (.surveyRead) := roundTrip_none rfl
theorem surveySnapshot : Statement (.surveySnapshot) := roundTrip_none rfl
theorem islFreq : Statement (.islFreq) := roundTrip_none rfl
theorem plimSet : Statement (.plimSet) := roundTrip_none rfl
theorem portSetRingMode : Statement (.portSetRingMode) := roundTrip_none rfl
theorem portSetUdpPort : Statement (.portSetUdpPort) := roundTrip_none rfl
theorem portSetRttTimer : Statement (.portSetRttTimer) := roundTrip_none rfl
theorem portSetRekeyInterval : Statement (.portSetRekeyInterval) := roundTrip_none rfl
theorem portSetOverflowStaging : Statement (.portSetOverflowStaging) := roundTrip_none rfl
theorem portSetHeartbeat : Statement (.portSetHeartbeat) := roundTrip_none rfl
theorem linkReset : Statement (.linkReset) := roundTrip_none rfl
theorem moduleReset : Statement (.moduleReset) := roundTrip_none rfl
theorem cbdefWrite (c : CoreId) (n : Fin 8) (v : Word) : Statement (.cbdefWrite c n v) := roundTrip_none rfl
theorem cbptrWrite (c : CoreId) (n : Fin 8) (v : Word) : Statement (.cbptrWrite c n v) := roundTrip_none rfl
theorem estatWrite (c : CoreId) (e : Eng) (v : Word) : Statement (.estatWrite c e v) := roundTrip_none rfl
theorem ststatWrite (c : CoreId) (v : Word) : Statement (.ststatWrite c v) := roundTrip_none rfl
theorem seedWrite (c : CoreId) (v : Word) : Statement (.seedWrite c v) := roundTrip_none rfl

end Sys2Proof.Laws.Encoded
end

