-- ==== Sys2Proof/Laws/Spad.lean ====
section
/-! SUPPORT. Scratchpads: what a write leaves and what it changes, with its tags; stores into the core's own scratchpad. -/
namespace Sys2Proof.Machine

/-- A change of a core that keeps its scratchpad keeps every scratchpad byte. -/
theorem spByte_modCore (s : State) (i : Nat) (f : Core → Core) (j b : Nat) (h : (f (s.core i)).sp = (s.core i).sp)
    (h' : (f (s.core i)).spFill = (s.core i).spFill) : (s.modCore i f).spByte j b = s.spByte j b := by
  by_cases hj : j = i
  · subst hj; simp [State.spByte, spKey, h, h']
  · simp [State.spByte, State.core_modCore_ne _ _ _ _ hj]

/-- Wake tokens change the wake queue and the comparators only. -/
theorem Core.wake_frame (c : Core) (k : Nat) (g : BitVec 13) :
    c.wake k g = { c with wakeq := (c.wake k g).wakeq, wcs := (c.wake k g).wcs } := by
  simp only [Core.wake]; split <;> rfl

theorem Core.wakeWrite_frame (c : Core) (off n : Nat) :
    c.wakeWrite off n = { c with wakeq := (c.wakeWrite off n).wakeq, wcs := (c.wakeWrite off n).wcs } := by
  unfold Core.wakeWrite
  generalize rangeFrom 0 8 = l
  induction l generalizing c with
  | nil => rfl
  | cons k l ih =>
    simp only [List.foldl_cons]
    split
    · exact ih c
    · rename_i g _
      rw [ih (c.wake k g), Core.wake_frame c k g]

@[simp] theorem Core.wakeWrite_sp (c : Core) (off n : Nat) : (c.wakeWrite off n).sp = c.sp := by rw [Core.wakeWrite_frame]
@[simp] theorem Core.wakeWrite_spFill (c : Core) (off n : Nat) : (c.wakeWrite off n).spFill = c.spFill := by
  rw [Core.wakeWrite_frame]
@[simp] theorem Core.wakeWrite_tags (c : Core) (off n : Nat) : (c.wakeWrite off n).tags = c.tags := by rw [Core.wakeWrite_frame]
@[simp] theorem Core.wakeWrite_team (c : Core) (off n : Nat) : (c.wakeWrite off n).team = c.team := by rw [Core.wakeWrite_frame]
@[simp] theorem Core.wakeWrite_rs (c : Core) (off n : Nat) : (c.wakeWrite off n).rs = c.rs := by rw [Core.wakeWrite_frame]

theorem Core.noteOld_frame (c : Core) (off n : Nat) : c.noteOld off n = { c with grpOld := (c.noteOld off n).grpOld } := by
  unfold Core.noteOld; split <;> rfl

@[simp] theorem Core.noteOld_sp (c : Core) (off n : Nat) : (c.noteOld off n).sp = c.sp := by rw [Core.noteOld_frame]
@[simp] theorem Core.noteOld_spFill (c : Core) (off n : Nat) : (c.noteOld off n).spFill = c.spFill := by rw [Core.noteOld_frame]
@[simp] theorem Core.noteOld_tags (c : Core) (off n : Nat) : (c.noteOld off n).tags = c.tags := by rw [Core.noteOld_frame]

/-- A byte that a scratchpad write covers. -/
theorem spByte_spWrite_inside (i off : Nat) (bs : List Byte) (s : State) (k : Nat) (h : k < bs.length) :
    (spWrite i off bs s).spByte i (off + k) = bs[k] := by
  simp [spWrite, State.spByte, memByte_write_inside bs _ _ k h]

/-- Every other byte of every scratchpad. -/
theorem spByte_spWrite_other (i off : Nat) (bs : List Byte) (s : State) (j b : Nat)
    (h : ¬(j = i ∧ off ≤ b ∧ b < off + bs.length)) : (spWrite i off bs s).spByte j b = s.spByte j b := by
  by_cases hj : j = i
  · subst hj
    simp only [spWrite, State.spByte, State.core_modCore_self, Core.wakeWrite_sp, Core.noteOld_sp, spKey, Core.wakeWrite_spFill,
      Core.noteOld_spFill]
    rw [memByte_write_other bs _ _ _ (by omega)]
    rfl
  · simp [spWrite, State.spByte, State.core_modCore_ne _ _ _ _ hj]

/-- The tag of a granule after a table of granules is tagged. -/
theorem tabGet_tagged (l : List Nat) (t : RaceTag) (m : Tab RaceTag) (g : Nat) :
    tabGet {} (l.foldl (fun m g => tabSet m g t) m) g = if g ∈ l then t else tabGet {} m g := by
  induction l generalizing m with
  | nil => simp
  | cons x l ih =>
    simp only [List.foldl_cons, ih, List.mem_cons]
    by_cases h1 : g ∈ l
    · simp [h1]
    · by_cases h2 : g = x
      · subst h2; simp [h1]
      · simp [h1, h2, tabGet_set_ne _ _ _ _ _ h2]

/-- The tags after a write's granules are tagged (R273). -/
theorem granTag_tagGranules (j off n : Nat) (t : RaceTag) (s : State) (i g : Nat) :
    (tagGranules j off n t s).granTag i g
      = if i = j ∧ 0 < n ∧ off / 64 ≤ g ∧ g ≤ (off + n - 1) / 64 then t else s.granTag i g := by
  unfold tagGranules
  by_cases hn : n = 0
  · simp [hn]
  · rw [if_neg hn]
    by_cases hi : i = j
    · subst hi
      simp only [State.granTag, State.core_modCore_self, tabGet_tagged, mem_rangeFrom]
      have : off / 64 ≤ (off + n - 1) / 64 := Nat.div_le_div_right (by omega)
      congr 1
      apply propext
      constructor
      · rintro ⟨h1, h2⟩; exact ⟨trivial, by omega, h1, by omega⟩
      · rintro ⟨_, _, h1, h2⟩; exact ⟨h1, by omega⟩
    · simp [State.granTag, State.core_modCore_ne _ _ _ _ hi, hi]

theorem State.setCore_setCore (s : State) (i : Nat) (c d : Core) : (s.setCore i c).setCore i d = s.setCore i d := by
  show ({ s with cores := tabSet (tabSet s.cores i c) i d } : State) = { s with cores := tabSet s.cores i d }
  rw [tabSet_set]

/-- Two changes of one core are one. -/
theorem State.modCore_modCore (s : State) (i : Nat) (f g : Core → Core) :
    (s.modCore i f).modCore i g = s.modCore i fun c => g (f c) := by
  show ((s.setCore i (f (s.core i))).setCore i (g ((s.modCore i f).core i))) = _
  rw [State.setCore_setCore, State.core_modCore_self]; rfl

/-- The core after a store of one element into its own scratchpad. -/
def Core.storeElem (c : Core) (off : Nat) (bs : List Byte) (t : RaceTag) : Core :=
  let d := ({ c.noteOld off bs.length with sp := memWrite (c.noteOld off bs.length).sp off bs } : Core).wakeWrite off bs.length
  if bs.length = 0 then d
  else { d with tags := (rangeFrom (off / 64) ((off + bs.length - 1) / 64 - off / 64 + 1)).foldl (fun m g => tabSet m g t) d.tags }

/-- What a store of one element changes: the scratchpad, its tags, its wake tokens and the old bytes of the group. -/
theorem Core.storeElem_frame (c : Core) (off : Nat) (bs : List Byte) (t : RaceTag) :
    c.storeElem off bs t = { c with sp := memWrite c.sp off bs, wakeq := (c.storeElem off bs t).wakeq, wcs := (c.storeElem off bs t).wcs,
                                    tags := (c.storeElem off bs t).tags, grpOld := (c.storeElem off bs t).grpOld } := by
  unfold Core.storeElem
  rw [Core.wakeWrite_frame, Core.noteOld_frame]
  simp only
  split <;> rfl

/-- A store of one element is a change of its core. -/
theorem storeElem_eq (i off : Nat) (bs : List Byte) (t : RaceTag) (s : State) :
    tagGranules i off bs.length t (spWrite i off bs s)
      = s.modCore i fun c => c.storeElem off bs t := by
  unfold tagGranules spWrite
  by_cases h : bs.length = 0
  · rw [if_pos h]
    simp only [Core.storeElem, if_pos h]
  · rw [if_neg h, State.modCore_modCore]
    simp only [Core.storeElem, if_neg h]

end Sys2Proof.Machine
end

