-- ==== Sys2Proof/Laws/Vector.lean ====
section
/-! SUPPORT. Elements and lanes of vectors: reading back what a vector was built from. -/
namespace Sys2Proof.Machine

/-- The number that a list of digits of base 2^w makes. -/
def digits (w : Nat) (l : List Nat) : Nat := l.foldr (fun x acc => x % 2 ^ w + 2 ^ w * acc) 0

theorem digits_lt (w : Nat) (l : List Nat) : digits w l < 2 ^ (w * l.length) := by
  induction l with
  | nil => simp [digits]
  | cons x l ih =>
    have hx : x % 2 ^ w < 2 ^ w := Nat.mod_lt _ (Nat.two_pow_pos w)
    have : digits w (x :: l) = x % 2 ^ w + 2 ^ w * digits w l := rfl
    rw [this, List.length_cons, Nat.mul_succ, Nat.pow_add, Nat.mul_comm (2 ^ (w * l.length))]
    calc x % 2 ^ w + 2 ^ w * digits w l < 2 ^ w + 2 ^ w * digits w l := by omega
      _ = 2 ^ w * (digits w l + 1) := by rw [Nat.mul_succ, Nat.add_comm]
      _ ≤ 2 ^ w * 2 ^ (w * l.length) := Nat.mul_le_mul_left _ ih

theorem digits_get (w : Nat) (l : List Nat) (e : Nat) : digits w l / 2 ^ (w * e) % 2 ^ w = l.getD e 0 % 2 ^ w := by
  induction l generalizing e with
  | nil => simp [digits]
  | cons x l ih =>
    have h : digits w (x :: l) = x % 2 ^ w + 2 ^ w * digits w l := rfl
    rw [h]
    cases e with
    | zero => simp
    | succ e =>
      rw [Nat.mul_succ, Nat.add_comm (w * e), Nat.pow_add, ← Nat.div_div_eq_div_mul,
        Nat.add_mul_div_left _ _ (Nat.two_pow_pos w), Nat.div_eq_of_lt (Nat.mod_lt _ (Nat.two_pow_pos w)), Nat.zero_add, ih]
      simp

/-- An element of a vector is the number it was built from, in its width. -/
theorem vElem_vOfElems {w : Nat} {l : List Nat} (h : w * l.length ≤ 2048) (e : Nat) :
    vElem w (vOfElems w l) e = l.getD e 0 % 2 ^ w := by
  have hlt : digits w l < 2 ^ 2048 := Nat.lt_of_lt_of_le (digits_lt w l) (Nat.pow_le_pow_right (by omega) h)
  have : vOfElems w l = BitVec.ofNat 2048 (digits w l) := rfl
  rw [vElem, this, BitVec.toNat_ofNat, Nat.mod_eq_of_lt hlt, digits_get]

theorem getD_map_rangeFrom (f : Nat → Nat) (a n e : Nat) (h : e < n) : ((rangeFrom a n).map f).getD e 0 = f (a + e) := by
  induction n generalizing a e with
  | zero => omega
  | succ n ih =>
    cases e with
    | zero => simp [rangeFrom]
    | succ e =>
      simp only [rangeFrom, List.map_cons, List.getD_cons_succ]
      rw [ih (a + 1) e (by omega)]
      congr 1; omega

/-- Elements beyond those given are zero. -/
theorem vElem_vOfElems_beyond {w : Nat} {l : List Nat} (h : w * l.length ≤ 2048) {e : Nat} (he : l.length ≤ e) :
    vElem w (vOfElems w l) e = 0 := by
  rw [vElem_vOfElems h]; simp [he]

theorem width_fits (w : Nat) (f : Nat → Nat) : w * ((rangeFrom 0 (2048 / w)).map f).length ≤ 2048 := by
  rw [List.length_map, length_rangeFrom]; exact Nat.mul_div_le 2048 w

theorem vElem_vMap1 (w : Nat) (f : Nat → Nat) (a : Vec) {e : Nat} (h : e < 2048 / w) :
    vElem w (vMap1 w f a) e = f (vElem w a e) % 2 ^ w := by
  rw [vMap1, vElem_vOfElems (width_fits w _), getD_map_rangeFrom _ _ _ _ h, Nat.zero_add]

theorem vElem_vMap2 (w : Nat) (f : Nat → Nat → Nat) (a b : Vec) {e : Nat} (h : e < 2048 / w) :
    vElem w (vMap2 w f a b) e = f (vElem w a e) (vElem w b e) % 2 ^ w := by
  rw [vMap2, vElem_vOfElems (width_fits w _), getD_map_rangeFrom _ _ _ _ h, Nat.zero_add]

theorem vElem_vMap3 (w : Nat) (f : Nat → Nat → Nat → Nat) (a b c : Vec) {e : Nat} (h : e < 2048 / w) :
    vElem w (vMap3 w f a b c) e = f (vElem w a e) (vElem w b e) (vElem w c e) % 2 ^ w := by
  rw [vMap3, vElem_vOfElems (width_fits w _), getD_map_rangeFrom _ _ _ _ h, Nat.zero_add]

/-- A lane of a vector made lane by lane. -/
theorem lane_vOfLanes (f : Nat → Nat) {e : Nat} (h : e < 64) : lane (vOfLanes f) e = f e % 2 ^ 32 := by
  rw [lane, vOfLanes, vElem_vOfElems (by simp [lanes64, length_rangeFrom]), lanes64, getD_map_rangeFrom _ _ _ _ h, Nat.zero_add]

/-- An element of a vector filled with one number. -/
theorem vElem_vFill (w x : Nat) {e : Nat} (h : e < 2048 / w) : vElem w (vFill w x) e = x % 2 ^ w := by
  rw [vFill, vElem_vOfElems (by rw [List.length_replicate]; exact Nat.mul_div_le 2048 w)]
  simp [h]

theorem lane_vFill (x : Nat) {e : Nat} (h : e < 64) : lane (vFill 32 x) e = x % 2 ^ 32 := vElem_vFill 32 x (by omega)

/-- Every element is below 2^w. -/
theorem vElem_lt (w : Nat) (v : Vec) (e : Nat) : vElem w v e < 2 ^ w := Nat.mod_lt _ (Nat.two_pow_pos w)

theorem lane_lt (v : Vec) (e : Nat) : lane v e < 2 ^ 32 := vElem_lt 32 v e

end Sys2Proof.Machine
end

