-- ==== Sys2Proof/Tests/Slice0.lean ====
section
/-! SUPPORT. The model's own tests: ill-formed terms that the check refuses, words written out from the encoding tables of the manual (R49, R50,
R53, R94 to R101) and its worked examples, and for each statement a state and operands that meet the hypotheses of each of its clauses. -/
namespace Sys2Proof.Tests
open Machine Claims
set_option Elab.async false

/-! ### Ill-formed terms are refused -/

theorem test_wf_sbar_empty : Instr.wf (.sbar false false false) = false := by decide
theorem test_wf_latch_m_imm : Instr.wf (.mckLatA .m (.imm 3)) = false := by decide
theorem test_wf_latch_k_p : Instr.wf (.mckLatAb .k (.sq 0) (.p 1)) = false := by decide
theorem test_wf_dma_length : Instr.wf (.hostDma 0 2 (.write [0])) = false := by decide
theorem test_wf_dma_window : Instr.wf (.hostDma 0 0 .openWindow) = false := by decide
theorem test_wf_sbar : Instr.wf (.sbar true false false) = true := by decide

/-! ### Decoding -/

/-- Each field, written 0xSBSAPP, decodes in its slot to its operation. -/
def decodesTo (l : List (Nat × BitVec 24 × Instr)) : Bool := l.all fun p => decide ((decodeField true p.1 p.2.1 false).toOption = some p.2.2)
/-- The code with which a field is refused outside a handler; none for a field that decodes. -/
def refusedWith (n : Nat) (f : BitVec 24) : Option (BitVec 8) := match decodeField false n f false with
  | .error c => some c
  | .ok _ => none

theorem test_decode_branches_and_system_1 : decodesTo [
    (0, 0x000000, .nop),
    (0, 0x123401, .br 0x1234),
    (0, 0xFFFE02, .bz 0xFFFE),
    (0, 0x800003, .bnz 0x8000),
    (0, 0x7FFF04, .call 0x7FFF),
    (0, 0x000005, .ret (.sq 0)),
    (0, 0x001F06, .jr (.g 15)),
    (0, 0x00BF08, .loop (.imm 63)),
    (0, 0x001109, .loopn (.g 1)),
    (0, 0x810F10, .waitLt 15 (.imm 1)),
    (0, 0x0F1211, .waitBar (.g 2) (.sq 15)),
    (0, 0x000012, .waitWake),
    (0, 0x000018, .halt),
    (0, 0x00A519, .trap 0xA5),
    (0, 0x00001A, .sysret),
    (0, 0x000020, .fence .core)] = true := by decide +kernel
theorem test_decode_branches_and_system_2 : decodesTo [
    (0, 0x000021, .fence .die),
    (0, 0x000022, .fence .mod),
    (0, 0x000023, .fence .sys),
    (0, 0x000524, .sbar true false true),
    (0, 0x002428, .ckpt .tag),
    (0, 0x000029, .nextTile),
    (0, 0x00132A, .launch (.g 3)),
    (0, 0x003F30, .sysrd 63),
    (0, 0x260731, .syswr 7 .rng)] = true := by decide +kernel
theorem test_decode_scalar_1 : decodesTo [
    (1, 0x80FF01, .li 0x80FF),
    (1, 0x020102, .lih 0x0201),
    (1, 0x002703, .sMov .zero),
    (1, 0x202F04, .sSel (.p 7) .tx),
    (1, 0x130008, .addI64 (.sq 0) (.g 3)),
    (1, 0x020109, .subI64 (.sq 1) (.sq 2)),
    (1, 0x80100A, .mulI64 (.g 0) (.imm 0)),
    (1, 0x22210B, .mulhI64 .ty .tw),
    (1, 0x24230C, .mulhN64 .th .tag),
    (1, 0x26250D, .divI64 .step .rng),
    (1, 0xC0FF0E, .divN64 (.imm 127) (.imm 64)),
    (1, 0x040310, .sAnd (.sq 3) (.sq 4)),
    (1, 0x060511, .sOr (.sq 5) (.sq 6)),
    (1, 0x080712, .sXor (.sq 7) (.sq 8)),
    (1, 0x0A0913, .sAndn (.sq 9) (.sq 10)),
    (1, 0x811114, .sShl (.g 1) (.imm 1))] = true := by decide +kernel
theorem test_decode_scalar_2 : decodesTo [
    (1, 0x821215, .shrN64 (.g 2) (.imm 2)),
    (1, 0x831316, .shrI64 (.g 3) (.imm 3)),
    (1, 0x841417, .rotl (.g 4) (.imm 4)),
    (1, 0x002818, .clz (.p 0)),
    (1, 0x000F19, .popc (.sq 15)),
    (1, 0x16151C, .minI64 (.g 5) (.g 6)),
    (1, 0x16151D, .minN64 (.g 5) (.g 6)),
    (1, 0x16151E, .maxI64 (.g 5) (.g 6)),
    (1, 0x16151F, .maxN64 (.g 5) (.g 6)),
    (1, 0x181720, .ceq (.g 7) (.g 8)),
    (1, 0x181721, .cne (.g 7) (.g 8)),
    (1, 0x181722, .cltI64 (.g 7) (.g 8)),
    (1, 0x181723, .cltN64 (.g 7) (.g 8)),
    (1, 0x181724, .cleI64 (.g 7) (.g 8)),
    (1, 0x181725, .cleN64 (.g 7) (.g 8))] = true := by decide +kernel
theorem test_decode_scalar_memory_1 : decodesTo [
    (1, 0x811930, .st .n8 (.g 9) (.imm 1) false),
    (1, 0x811931, .st .n16 (.g 9) (.imm 1) false),
    (1, 0x811932, .st .n32 (.g 9) (.imm 1) false),
    (1, 0x811933, .st .n64 (.g 9) (.imm 1) false),
    (1, 0x000040, .amoAddI64 .rlx (.sq 0) none),
    (1, 0x100145, .amoAnd .acq (.sq 1) (some 0)),
    (1, 0x1F024A, .amoOr .rel (.sq 2) (some 15)),
    (1, 0x0F034F, .amoXor .sc (.sq 3) none),
    (1, 0x110450, .amoMinI64 .rlx (.sq 4) (some 1)),
    (1, 0x120555, .amoMaxI64 .acq (.sq 5) (some 2)),
    (1, 0x13065A, .amoMinN64 .rel (.sq 6) (some 3)),
    (1, 0x14075F, .amoMaxN64 .sc (.sq 7) (some 4)),
    (1, 0x150860, .amoSwap .rlx (.sq 8) (some 5)),
    (1, 0x160965, .amoCas .acq (.sq 9) (some 6)),
    (1, 0x170A6B, .amoFaddF32 .sc (.sq 10) (some 7)),
    (1, 0x81106C, .lockL2 (.g 0) (.imm 1))] = true := by decide +kernel
theorem test_decode_scalar_memory_2 : decodesTo [
    (1, 0x81106D, .unlockL2 (.g 0) (.imm 1)),
    (1, 0x001A6E, .pref (.g 10)),
    (1, 0x271170, .ldI8 0 (.g 1) .zero false),
    (1, 0x271181, .ldN8 1 (.g 1) .zero false),
    (1, 0x271192, .ldI16 2 (.g 1) .zero false),
    (1, 0x2711A3, .ldN16 3 (.g 1) .zero false),
    (1, 0x2711B4, .ldI32 4 (.g 1) .zero false),
    (1, 0x2711C5, .ldN32 5 (.g 1) .zero false),
    (1, 0x2711DF, .ldN64 15 (.g 1) .zero false),
    (1, 0x0000E6, .sLatA (.sq 0)),
    (1, 0x1F01E7, .sLatAb (.sq 1) (.g 15)),
    (1, 0x0081EF, .sMovP 7 (.imm 1)),
    (1, 0x0082FF, .movG 15 (.imm 2))] = true := by decide +kernel
theorem test_decode_vector_float_1 : decodesTo [
    (2, 0x120001, .addF32 .v0 (.vq 0) (.v 2)),
    (2, 0x120002, .addBf16 .v0 (.vq 0) (.v 2)),
    (2, 0x120003, .addF16 .v0 (.vq 0) (.v 2)),
    (2, 0x120004, .subF32 .v0 (.vq 0) (.v 2)),
    (2, 0x120005, .subBf16 .v0 (.vq 0) (.v 2)),
    (2, 0x120006, .subF16 .v0 (.vq 0) (.v 2)),
    (2, 0x120007, .mulF32 .v0 (.vq 0) (.v 2)),
    (2, 0x120008, .mulBf16 .v0 (.vq 0) (.v 2)),
    (2, 0x120009, .mulF16 .v0 (.vq 0) (.v 2)),
    (2, 0x12000A, .fmaF32 .v0 (.vq 0) (.v 2)),
    (2, 0x12000B, .fmaBf16 .v0 (.vq 0) (.v 2)),
    (2, 0x12000C, .fmaF16 .v0 (.vq 0) (.v 2)),
    (2, 0x12000D, .minF32 .v0 (.vq 0) (.v 2)),
    (2, 0x12000E, .minBf16 .v0 (.vq 0) (.v 2)),
    (2, 0x12000F, .minF16 .v0 (.vq 0) (.v 2)),
    (2, 0x120010, .maxF32 .v0 (.vq 0) (.v 2))] = true := by decide +kernel
theorem test_decode_vector_float_2 : decodesTo [
    (2, 0x120011, .maxBf16 .v0 (.vq 0) (.v 2)),
    (2, 0x120012, .maxF16 .v0 (.vq 0) (.v 2)),
    (2, 0x002F13, .rcpF32 .v0 (.v 31)),
    (2, 0x002F14, .rsqrtF32 .v0 (.v 31)),
    (2, 0x002F15, .exp2F32 .v0 (.v 31)),
    (2, 0x002F16, .log2F32 .v0 (.v 31))] = true := by decide +kernel
theorem test_decode_vector_integer_1 : decodesTo [
    (3, 0x3F5818, .addI32 .v1 .lane (.sq 15)),
    (3, 0x4F5919, .subI32 .v1 .rng (.g 15)),
    (3, 0x575A1A, .mulI32 .v1 .tx (.p 7)),
    (3, 0x635B1B, .addSatI32 .v1 .ty (.tq 3)),
    (3, 0xFF5C1C, .subSatI32 .v1 .tag (.imm 31)),
    (3, 0x0F5D1D, .minI32 .v1 .zero (.vq 15)),
    (3, 0x3F581E, .minN32 .v1 .lane (.sq 15)),
    (3, 0x4F591F, .maxI32 .v1 .rng (.g 15)),
    (3, 0x575A20, .maxN32 .v1 .tx (.p 7)),
    (3, 0x635B21, .vAnd .v1 .ty (.tq 3)),
    (3, 0xFF5C22, .vOr .v1 .tag (.imm 31)),
    (3, 0x0F5D23, .vXor .v1 .zero (.vq 15)),
    (3, 0x3F5824, .vAndn .v1 .lane (.sq 15)),
    (3, 0x4F5925, .vShl .v1 .rng (.g 15)),
    (3, 0x575A26, .shrN32 .v1 .tx (.p 7)),
    (3, 0x635B27, .shrI32 .v1 .ty (.tq 3))] = true := by decide +kernel
theorem test_decode_vector_integer_2 : decodesTo [
    (3, 0xFF5C28, .ceqF32 .v1 .tag (.imm 31)),
    (3, 0x0F5D29, .cltF32 .v1 .zero (.vq 15)),
    (3, 0x3F582A, .cleF32 .v1 .lane (.sq 15)),
    (3, 0x4F592B, .ceqI32 .v1 .rng (.g 15)),
    (3, 0x575A2C, .cltI32 .v1 .tx (.p 7)),
    (3, 0x635B2D, .cltN32 .v1 .ty (.tq 3)),
    (3, 0xFF5C2E, .vSel .v1 .tag (.imm 31)),
    (3, 0x00E12F, .vMov .v1 (.imm 1))] = true := by decide +kernel
theorem test_decode_vector_conversions_1 : decodesTo [
    (2, 0x000130, .cvt .v0 .bf16 (.vq 1)),
    (2, 0x000131, .cvt .v0 .f16 (.vq 1)),
    (2, 0x000132, .cvt .v0 .e4m3 (.vq 1)),
    (2, 0x000133, .cvt .v0 .e5m2 (.vq 1)),
    (2, 0x000134, .cvt .v0 .i32 (.vq 1)),
    (2, 0x000135, .cvt .v0 .i8 (.vq 1)),
    (2, 0x000236, .cvtBf16F32Mode .v0 (.vq 2) .dflt false),
    (2, 0x090237, .cvtF16F32Mode .v0 (.vq 2) .rn true),
    (2, 0x020238, .cvtE4m3F32Mode .v0 (.vq 2) .rna false),
    (2, 0x0B0239, .cvtE5m2F32Mode .v0 (.vq 2) .rz true),
    (2, 0x04023A, .cvtI32F32Mode .v0 (.vq 2) .sr false),
    (2, 0x08023B, .cvtI8F32Mode .v0 (.vq 2) .dflt true),
    (2, 0x00033C, .cvtF32Bf16 .v0 (.vq 3)),
    (2, 0x00033D, .cvtF32F16 .v0 (.vq 3)),
    (2, 0x00033E, .cvtF32E4m3 .v0 (.vq 3)),
    (2, 0x00033F, .cvtF32E5m2 .v0 (.vq 3))] = true := by decide +kernel
theorem test_decode_vector_conversions_2 : decodesTo [
    (2, 0x000340, .cvtF32I32 .v0 (.vq 3)),
    (2, 0x000341, .cvtF32I8 .v0 (.vq 3)),
    (2, 0x000442, .packNx2 .v0 (.vq 4)),
    (2, 0x000443, .packNx4 .v0 (.vq 4)),
    (2, 0x000444, .packNx7 .v0 (.vq 4)),
    (2, 0x040545, .packNx2Mode .v0 (.vq 5) .sr false),
    (2, 0x030546, .packNx4Mode .v0 (.vq 5) .rz false),
    (2, 0x0A0547, .packNx7Mode .v0 (.vq 5) .rna true),
    (2, 0x000648, .unpkNx2 .v0 (.vq 6)),
    (2, 0x000649, .unpkNx4 .v0 (.vq 6)),
    (2, 0x00064A, .unpkNx7 .v0 (.vq 6)),
    (2, 0x00074B, .redF32 .v0 (.vq 7) .add),
    (2, 0x01084C, .redI32 .v0 (.vq 8) .max),
    (2, 0x05144D, .scanF32 .v0 (.v 4) .max true),
    (2, 0x02094E, .scanI32 .v0 (.vq 9) .min false),
    (2, 0x61134F, .perm .v0 (.v 3) (.tq 1))] = true := by decide +kernel
theorem test_decode_vector_memory : decodesTo [
    (3, 0x40306F, .vld .v1 31 (.sq 0) (.g 0) false),
    (3, 0xE44171, .vldS .v1 1 (.g 1) (.imm 4) false),
    (3, 0x114292, .vldX .v1 2 (.g 2) (.v 1)),
    (3, 0x5D43B3, .ldTr .v1 3 (.g 3) .zero false),
    (3, 0xFF13D0, .bcast .v1 (.v 3) (.imm 31)),
    (3, 0x3100D1, .lrot .v1 (.vq 0) (.sq 1)),
    (3, 0x5D41D2, .vst .v1 (.g 1) .zero false),
    (3, 0x3244D3, .vstS .v1 (.g 4) (.sq 2) false),
    (3, 0x6045D4, .vstX .v1 (.g 5) (.tq 0)),
    (3, 0x461FD5, .wrow .v1 (.v 15) (.g 6)),
    (3, 0x0010D6, .vLatA .v1 (.v 0)),
    (3, 0x1211D7, .vLatAb .v1 (.v 1) (.v 2)),
    (3, 0x000ADF, .vMovP .v1 7 (.vq 10)),
    (3, 0x000BFF, .movV .v1 31 (.vq 11))] = true := by decide +kernel
theorem test_decode_matrix : decodesTo [
    (4, 0x005F01, .oclaim 31),
    (4, 0x004002, .orel 0),
    (4, 0x003F08, .azero 63),
    (4, 0x810109, .ascale 1 (.sq 1)),
    (4, 0x00020A, .apin 2),
    (4, 0x00030B, .aunpin 3),
    (4, 0x7B040C, .adrain 4 3),
    (4, 0x00050D, .astat 5),
    (4, 0x32094A, .mma .e4m3 9 18 3),
    (4, 0xF03F7D, .mmz .nx2 63 0 31),
    (4, 0x450C9D, .ato .e4m3 .sr true 5 12),
    (4, 0x0082FE, .mckLatA .m (.sq 2)),
    (4, 0x9483FF, .mckLatAb .m (.sq 3) (.g 4))] = true := by decide +kernel
theorem test_decode_engines_1 : decodesTo [
    (5, 0x008001, .cpNest .c0 (.sq 0)),
    (5, 0x009F02, .cpMcast .c0 (.g 15)),
    (5, 0x917008, .cbClaim .c0 0 (.g 1)),
    (5, 0x927109, .cbCommit .c0 1 (.g 2)),
    (5, 0x93720A, .cbAwait .c0 2 (.g 3)),
    (5, 0x94770B, .cbRetire .c0 7 (.g 4)),
    (5, 0x828110, .barInit .c0 (.sq 1) (.sq 2)),
    (5, 0x848311, .barArriveRel .c0 (.sq 3) (.sq 4)),
    (5, 0x868512, .barArriveRlx .c0 (.sq 5) (.sq 6)),
    (5, 0x008713, .barDrop .c0 (.sq 7)),
    (5, 0x008814, .barTest .c0 (.sq 8)),
    (5, 0x956018, .kSet .c0 0 (.g 5)),
    (5, 0x956219, .kAdd .c0 2 (.g 5)),
    (5, 0x919027, .wkArm .c0 7 (.g 0) (.g 1)),
    (5, 0x000028, .wkDisarm .c0 0),
    (5, 0x818030, .stashPut .c0 (.sq 0) (.sq 1))] = true := by decide +kernel
theorem test_decode_engines_2 : decodesTo [
    (5, 0x818031, .stashGet .c0 (.sq 0) (.sq 1)),
    (5, 0x818032, .stashPf .c0 (.sq 0) (.sq 1)),
    (5, 0x818033, .stashDrop .c0 (.sq 0) (.sq 1)),
    (5, 0x818034, .stashFree .c0 (.sq 0) (.sq 1)),
    (5, 0x838238, .wvCommit .c0 (.sq 2) (.sq 3)),
    (5, 0x0096FE, .mckLatA .c0 (.g 6)),
    (5, 0x9897FF, .mckLatAb .c0 (.g 7) (.g 8))] = true := by decide +kernel
theorem test_decode_engines_c1 : decodesTo [
    (6, 0x008001, .cpNest .c1 (.sq 0)),
    (6, 0x009F02, .cpMcast .c1 (.g 15)),
    (6, 0x917008, .cbClaim .c1 0 (.g 1)),
    (6, 0x927109, .cbCommit .c1 1 (.g 2))] = true := by decide +kernel
theorem test_decode_channels : decodesTo [
    (7, 0x313601, .send 2 (.tq 1)),
    (7, 0x113402, .sendM 0 (.g 1)),
    (7, 0x843E08, .chwin 10 (.imm 4)),
    (7, 0x000010, .colGo (.sq 0)),
    (7, 0x000111, .colAbort (.sq 1)),
    (7, 0x131218, .gzPut (.g 2) (.g 3)),
    (7, 0x001419, .gzDone (.g 4)),
    (7, 0x00801A, .trustQ (.imm 0)),
    (7, 0x00355F, .recvV 31 1),
    (7, 0x00366F, .recvG 15 2),
    (7, 0x008870, .gzRd 0 (.imm 8)),
    (7, 0x00379F, .recvaddF32 31 3),
    (7, 0x0024FE, .mckLatA .k .tag),
    (7, 0x0685FF, .mckLatAb .k (.imm 5) (.sq 6))] = true := by decide +kernel

/-- R37: an operation that the slot does not have, an operand of a kind that the source does not take, and `sysret` outside a handler. -/
theorem test_decode_rejects : refusedWith 0 0x00000F = some 0x03 ∧ refusedWith 1 0x00006F = some 0x03 ∧ refusedWith 1 0x003008 = some 0x04
    ∧ refusedWith 4 0x000001 = some 0x05 ∧ refusedWith 0 0x00001A = some 0x03 ∧ refusedWith 0 0x000000 = none := by decide +kernel
/-- The worked bundle of 17 bytes, after a bundle whose C0 field is `k.add k2, sq0`: its C0 slot repeats that with the next counter. -/
theorem test_decode_bundle : (decodeBundle false [none, none, none, none, none, some 0x806219, none, none] [0x54, 0x0C, 0x04, 0x84, 0x91, 0x60, 0x00, 0x00, 0x08, 0x13, 0x14, 0x0A, 0x12, 0x01,
    0x30, 0x17, 0x00]).toOption.map (fun d => (d.len, d.stall, d.groups))
    = some (17, 3, [[(1, .addI64 (.g 3) (.g 4)), (2, .fmaF32 .v0 (.v 2) (.vq 1))], [(3, .cvt .v1 .bf16 (.v 7)), (5, .kAdd .c0 3 (.sq 0))]]) := by decide +kernel
/-- The worked pair of bundles: the second repeats its slot M by a delta. -/
theorem test_decode_mma : (decodeBundle false (List.replicate 8 none) (natBytes 8 0x5000000500 ++ natBytes 3 0x32094A ++ natBytes 3 0x956219)).toOption.map
    (fun d => (d.len, d.groups)) = some (14, [[(4, .mma .e4m3 9 18 3), (5, .kAdd .c0 2 (.g 5))]]) := by decide +kernel
theorem test_decode_repeat : (decodeBundle false [none, none, none, none, some 0x32094A, some 0x956219, none, none] (natBytes 8 0x200000000300)).toOption.map
    (fun d => (d.len, d.stall, d.groups)) = some (8, 1, [[(4, .mma .e4m3 10 18 3)]]) := by decide +kernel
theorem test_decode_operations : decodesTo [(4, 0x450C9D, .ato .e4m3 .sr true 5 12), (2, 0x05144D, .scanF32 .v0 (.v 4) .max true)] = true := by
  decide +kernel

/-! ### Ciphers, against the published vectors of their standards (R424, R426, R433) -/

/-- FIPS 180-4: the digest of "abc". -/
theorem test_sha512 : sha512Bytes [0x61, 0x62, 0x63] = beBytes 64
    (0xDDAF35A193617ABACC417349AE20413112E6FA4E89A97EA20A9EEEE64B55D39A * 2 ^ 256
      + 0x2192992A274FC1A836BA3C23A3FEEBBD454D4423643CE80E2A9AC94FA54CA49F) := by decide +kernel
/-- The GCM specification's test cases 13 and 14: key and nonce 0, no data and a block of zeros. -/
theorem test_gcm : gcmSeal (natBytes 32 0) (natBytes 12 0) [] [] = beBytes 16 0x530F8AFBC74536B9A963B4F1C4CB738B
    ∧ gcmSeal (natBytes 32 0) (natBytes 12 0) [] (natBytes 16 0)
      = beBytes 32 0xCEA7403D4D606B6E074EC5D3BAF39D18D0D1C8A799996BF0265B98B5D48AB919 := by decide +kernel
/-- IEEE 1619's vector 10: the first block of data unit 0xFF, and back. -/
theorem test_xts : (xtsEnc (BitVec.ofNat 512 (bytesNat (beBytes 32 0x2718281828459045235360287471352662497757247093699959574966967627
      ++ beBytes 32 0x3141592653589793238462643383279502884197169399375105820974944592))) 0xFF (beBytes 16 0x000102030405060708090A0B0C0D0E0F))
      = beBytes 16 0x1C3B3A102F770386E4836C99E370CF9B
    ∧ (xtsDec (BitVec.ofNat 512 (bytesNat (beBytes 32 0x2718281828459045235360287471352662497757247093699959574966967627
      ++ beBytes 32 0x3141592653589793238462643383279502884197169399375105820974944592))) 0xFF (beBytes 16 0x1C3B3A102F770386E4836C99E370CF9B))
      = beBytes 16 0x000102030405060708090A0B0C0D0E0F := by decide +kernel

/-! ### States and operands that meet the hypotheses of the statements -/

/-! ### Witnesses: the hypotheses of the statements are met together

Each theorem gives operands and a small state for the hypotheses of one statement, or of one clause of it. -/

/-- Module reset, with core 0 changed. -/
abbrev coreW (f : Core → Core) : State := State.reset.upd f
/-- Registers g0 and g1 of core 0. -/
abbrev gW (x y : Word) : State := coreW fun c => { c with g := [(0, x), (1, y)] }

theorem wit_ScalarArithmetic : ∃ i lat f a b s, scalar2Of i = some (lat, f, a, b) ∧ SrcReady s a ∧ SrcReady s b :=
  ⟨.rotl (.sq 15) (.g 15), _, _, _, _, State.reset, rfl, rfl, rfl⟩
theorem wit_ScalarUnary_sel : ∃ a b s, SrcReady s a ∧ SrcReady s b := ⟨.p 7, .imm 127, State.reset, trivial, trivial⟩
theorem wit_ScalarUnary_clz_zero : ∃ a s, SrcReady s a ∧ readSrc s a = 0 := ⟨.zero, State.reset, trivial, by decide⟩
theorem wit_ScalarUnary_clz_sign : ∃ a s, SrcReady s a ∧ readSrc s a ≠ 0 := ⟨.imm 64, State.reset, trivial, by decide⟩
theorem wit_ScalarUnary_lih : ∃ s, SqReady s 0 := ⟨State.reset, rfl⟩
theorem wit_VectorArithmetic : ∃ i u lat ef f a b s, vector2Of i = some (u, lat, ef, f, a, b) ∧ SrcVReady s a ∧ SrcVReady s b :=
  ⟨.addF32 .v1 (.vq 15) (.v 31), _, _, _, _, _, _, State.reset, rfl, rfl, rfl⟩
theorem wit_VectorArithmetic_tq : ∃ i u lat ef f a b s, vector2Of i = some (u, lat, ef, f, a, b) ∧ SrcVReady s a ∧ SrcVReady s b :=
  ⟨.shrI32 .v0 (.tq 3) (.imm 31), _, _, _, _, _, _, coreW fun c => { c with tqs := [(3, { rows := [0] })] }, rfl, rfl, trivial⟩
theorem wit_VectorWithLatch : ∃ i u lat ef f a b s, vector3Of i = some (u, lat, ef, f, a, b) ∧ SrcVReady s a ∧ SrcVReady s b :=
  ⟨.vSel .v0 (.sq 15) .lane, _, _, _, _, _, _, State.reset, rfl, rfl, trivial⟩
theorem wit_VectorUnary : ∃ i u lat ef f a s, vector1Of i = some (u, lat, ef, f, a) ∧ SrcVReady s a :=
  ⟨.cvtF32I8 .v1 (.vq 0), _, _, _, _, _, State.reset, rfl, rfl⟩
theorem wit_VectorUnary_unpk : ∃ i u k a s, unpkOf i = some (u, k, a) ∧ SrcVReady s a :=
  ⟨.unpkNx7 .v0 (.g 0), _, _, _, State.reset, rfl, rfl⟩
theorem wit_VectorNarrowing : ∃ i u d m sat a s, cvtOf i = some (u, d, m, sat, a) ∧ SrcVReady s a :=
  ⟨.cvtI8F32Mode .v1 (.v 0) .sr true, _, _, _, _, _, State.reset, rfl, rfl⟩
theorem wit_VectorNarrowing_pack : ∃ i u k m a s, packOf i = some (u, k, m, a) ∧ SrcVReady s a :=
  ⟨.packNx2Mode .v0 (.v 0) .rz false, _, _, _, _, State.reset, rfl, rfl⟩
theorem wit_VectorReduction : ∃ a s, SrcVReady s a := ⟨.v 31, State.reset, rfl⟩
theorem wit_VectorScan : ∃ a s, SrcVReady s a := ⟨.vq 15, State.reset, rfl⟩
theorem wit_VectorPermute : ∃ a i n s, SrcVReady s a ∧ IdxReady s i ∧ CntReady s n := ⟨.v 0, .v 31, .sq 15, State.reset, rfl, rfl, rfl⟩
theorem wit_LatchesAndMoves : ∃ a b s, SrcReady s a ∧ SrcReady s b ∧ GClear s 15 := ⟨.sq 15, .g 15, State.reset, rfl, rfl, rfl⟩
theorem wit_LatchesAndMoves_v : ∃ a b k s, SrcVReady s a ∧ SrcVReady s b ∧ VClear s 31 ∧ CntReady s k :=
  ⟨.vq 15, .v 31, .g 15, State.reset, rfl, rfl, rfl, rfl⟩

theorem wit_ScalarLoads : ∃ i k sx n a b inc s, loadOf i = some (k, sx, n, a, b, inc) ∧ SrcReady s a ∧ SrcReady s b ∧ GClear s n ∧ AccFree s
    ∧ LocalOk s (readSrc s a + readSrc s b) k k .read :=
  ⟨.ldN64 15 (.g 0) (.imm 120) true, _, _, _, _, _, _, gW 0x60000 0, rfl, rfl, trivial, rfl, by decide, by decide⟩
theorem wit_ScalarLoads_banks : ∃ s : State, s.me.grpBanks = [] := ⟨State.reset, rfl⟩
theorem wit_ScalarStores : ∃ w a b s, SrcReady s a ∧ SrcReady s b ∧ AccFree s
    ∧ LocalOk s (readSrc s a + readSrc s b) (stBytes w) (stBytes w) .write :=
  ⟨.n64, .g 0, .imm 120, gW 0x60000 0, rfl, trivial, by decide, by decide⟩
theorem wit_LocalAtomics : ∃ i op o a r s x, amoOf i = some (op, o, a, r) ∧ o ≠ .sc ∧ (o = .rel → s.me.accPending = false) ∧ SrcReady s a
    ∧ (∀ n, r = some n → GClear s n) ∧ AccFree s ∧ x = { op := op, ord := o, v := s.me.bank.lat.sA, c := s.me.bank.lat.sB }
    ∧ LocalOk s (readSrc s a) (amoSize op) (amoSize op) (.atomic x) ∧ s.me.grpBanks = [] ∧ r ≠ none :=
  ⟨.amoCas .rel (.g 0) (some 15), _, _, _, _, gW 0x5FFF8 0, _, rfl, by decide, fun _ => rfl, rfl, fun _ h => by cases h; rfl, by decide, rfl,
    by decide, rfl, by decide⟩
theorem wit_LocalAtomics_drop : ∃ i op o a r s x, amoOf i = some (op, o, a, r) ∧ o ≠ .sc ∧ (o = .rel → s.me.accPending = false) ∧ SrcReady s a
    ∧ AccFree s ∧ x = { op := op, ord := o, v := s.me.bank.lat.sA, c := s.me.bank.lat.sB }
    ∧ LocalOk s (readSrc s a) (amoSize op) (amoSize op) (.atomic x) ∧ r = none :=
  ⟨.amoFaddF32 .rlx (.imm 4) none, _, _, _, _, State.reset, _, rfl, by decide, fun _ => rfl, trivial, by decide, rfl, by decide, rfl⟩
theorem wit_RemoteAccessesWait_load : ∃ i k sx n a b inc s, loadOf i = some (k, sx, n, a, b, inc) ∧ SrcReady s a ∧ SrcReady s b ∧ GClear s n
    ∧ s.me.acqPending = false ∧ Remote (readSrc s a + readSrc s b) ∧ (readSrc s a + readSrc s b).toNat % k = 0 :=
  ⟨.ldN64 0 (.g 0) (.imm 0x78) false, _, _, _, _, _, _, gW 0x1000000000000 0, rfl, rfl, trivial, rfl, rfl, .inl (by decide), by decide⟩
theorem wit_RemoteAccessesWait_peer : ∃ i k sx n a b inc s, loadOf i = some (k, sx, n, a, b, inc) ∧ SrcReady s a ∧ SrcReady s b ∧ GClear s n
    ∧ s.me.acqPending = false ∧ Remote (readSrc s a + readSrc s b) ∧ (readSrc s a + readSrc s b).toNat % k = 0 :=
  ⟨.ldN64 0 (.g 0) (.imm 0x78) false, _, _, _, _, _, _, gW 0x4080080 0, rfl, rfl, trivial, rfl, rfl, .inr ⟨1, 0, 0x78, by decide +kernel⟩, by decide⟩
theorem wit_RemoteAccessesWait_store : ∃ w a b s, SrcReady s a ∧ SrcReady s b ∧ s.me.acqPending = false
    ∧ Remote (readSrc s a + readSrc s b) ∧ (readSrc s a + readSrc s b).toNat % stBytes w = 0 :=
  ⟨.n64, .g 0, .zero, gW 0x10000000 0, rfl, trivial, rfl, .inl (by decide), by decide⟩
theorem wit_RemoteAccessesWait_amo : ∃ i op o a r s, amoOf i = some (op, o, a, r) ∧ SrcReady s a ∧ (∀ n, r = some n → GClear s n)
    ∧ s.me.acqPending = false ∧ (o = .rel ∨ o = .sc → s.me.accPending = false) ∧ Remote (readSrc s a) ∧ (readSrc s a).toNat % amoSize op = 0 :=
  ⟨.amoSwap .sc (.g 0) (some 0), _, _, _, _, gW 0x10000000 0, rfl, rfl, fun _ h => by cases h; rfl, rfl, fun _ => rfl, .inl (by decide), by decide⟩
theorem wit_RemoteAccessesWait_local_sc : ∃ i op o a r s, amoOf i = some (op, o, a, r) ∧ SrcReady s a ∧ (∀ n, r = some n → GClear s n)
    ∧ s.me.acqPending = false ∧ (o = .rel ∨ o = .sc → s.me.accPending = false) ∧ o = .sc ∧ s.me.selfPending s.cur = false
    ∧ LocalOk s (readSrc s a) (amoSize op) (amoSize op) (.atomic { op := op, ord := o, v := s.me.bank.lat.sA, c := s.me.bank.lat.sB }) :=
  ⟨.amoCas .sc (.g 0) (some 15), _, _, _, _, gW 0x5FFF8 0, rfl, rfl, fun _ h => by cases h; rfl, rfl, fun _ => rfl, rfl, rfl, by decide⟩

theorem all_lanes {s : State} {i : Instr} {k : AccKind} (h : ((List.range 64).all fun e => match laneAddr s e i with
    | none => true
    | some w => decide (LocalOk s w 4 4 k)) = true) : ∀ e w, e < 64 → laneAddr s e i = some w → LocalOk s w 4 4 k := fun e w he hw => by
  have := List.all_eq_true.mp h e (List.mem_range.mpr he)
  rw [hw] at this
  exact of_decide_eq_true this
/-- The hypotheses of `VectorLoads`, of `VectorStores` as they stand for accesses of a kind. -/
abbrev VAccOk (i : Instr) (a : SqG) (s : State) (k : AccKind) : Prop :=
  SgReady s a ∧ SecondReady s i ∧ AccFree s ∧ (readSg s a).toNat < 0x60000 ∧ IndicesOk s i
    ∧ ∀ e w, e < 64 → laneAddr s e i = some w → LocalOk s w 4 4 k
theorem wit_VectorLoads : ∃ i u n a inc k s, vAccessOf i = some (u, some n, a, inc, k) ∧ VClear s n ∧ VAccOk i a s .read :=
  ⟨.vld .v0 31 (.g 0) .zero true, _, _, _, _, _, gW 0x5FF00 0, rfl, rfl, rfl, trivial, by decide, by decide, trivial,
    all_lanes (by decide +kernel)⟩
theorem wit_VectorLoads_indexed : ∃ i u n a inc k s, vAccessOf i = some (u, some n, a, inc, k) ∧ VClear s n ∧ VAccOk i a s .read :=
  ⟨.vldX .v0 0 (.g 0) (.v 0), _, _, _, _, _, (gW 0 0).upd fun c => { c with v := [(0, 0xFFFFFFFF)] }, rfl, rfl, rfl, rfl, by decide, by decide,
    by show ∀ e, e < 64 → _ → _; decide +kernel, all_lanes (by decide +kernel)⟩
theorem wit_VectorStores : ∃ i u a inc k s, vAccessOf i = some (u, none, a, inc, k) ∧ VAccOk i a s .write :=
  ⟨.vstS .v1 (.sq 15) .zero false, _, _, _, _, State.reset, rfl, rfl, trivial, by decide, by decide, trivial,
    all_lanes (by decide +kernel)⟩
theorem wit_TransposeLoad : ∃ (n : Fin 32) (a : SqG) (i : OffV) (s : State) (sz : Nat) (row : Nat → Word), SgReady s a ∧ OffReady s i ∧ VClear s n
    ∧ AccFree s ∧ (readOff s i).toNat % 4 ≠ 3 ∧ sz = 4 / 2 ^ ((readOff s i).toNat % 4)
    ∧ (∀ r, row r = readSg s a + BitVec.ofNat 64 r * (readOff s i &&& ~~~3#64)) ∧ ∀ r, r < 4 → LocalOk s (row r) 64 4 .read :=
  ⟨31, .g 0, .g 1, gW 0x5FF00 0x42, 1, _, rfl, rfl, rfl, by decide, by decide, by decide, fun _ => rfl, by decide⟩
/-- Core 0 knows the page of the address in g0. -/
abbrev knowW (x y : Word) : State := (gW x y).upd fun c => { c with tlb := [codePage] }
theorem wit_LineLocks : ∃ (a b : Src) (s : State) (p : Nat × BitVec 2), SrcReady s a ∧ SrcReady s b ∧ PagesKnown s (lockUses (readSrc s a) (readSrc s b))
    ∧ lockRange (withPages 1 (lockUses (readSrc s a) (readSrc s b)) s) s.cur (readSrc s a) (readSrc s b) = .ok [p] :=
  ⟨.g 0, .g 1, knowW 0x10000080 1, (0x10000080 / 128, 0), rfl, rfl, by decide +kernel, rfl⟩
theorem wit_LineLocks_aligned : ∃ (a b : Src) (s : State), SrcReady s a ∧ SrcReady s b ∧ PagesKnown s (lockUses (readSrc s a) (readSrc s b))
    ∧ (readSrc s a).toNat % 128 ≠ 0 := ⟨.imm 1, .imm 1, State.reset, trivial, trivial, by decide, by decide⟩
theorem wit_LineLocks_count : ∃ (a b : Src) (s : State), SrcReady s a ∧ SrcReady s b ∧ PagesKnown s (lockUses (readSrc s a) (readSrc s b))
    ∧ (readSrc s a).toNat % 128 = 0 ∧ 4096 < (readSrc s b).toNat := ⟨.zero, .g 1, gW 0 4097, trivial, rfl, by decide +kernel, by decide, by decide⟩
theorem wit_LineLocks_space : ∃ (a b : Src) (s : State), SrcReady s a ∧ SrcReady s b ∧ PagesKnown s (lockUses (readSrc s a) (readSrc s b))
    ∧ lockRange (withPages 1 (lockUses (readSrc s a) (readSrc s b)) s) s.cur (readSrc s a) (readSrc s b) = .error 4 :=
  ⟨.zero, .imm 1, State.reset, trivial, trivial, by decide, rfl⟩
theorem wit_LineLocks_pref : ∃ (a : Src) (s : State), SrcReady s a ∧ PagesKnown s (prefUses (readSrc s a)) ∧ (prefLine s (readSrc s a)).isSome = true :=
  ⟨.g 0, knowW 0x1000FFFF 0, rfl, by decide +kernel, by decide +kernel⟩
theorem wit_LineLocks_asks : ∃ (a b : Src) (s : State), SrcReady s a ∧ SrcReady s b ∧ s.me.issuing = false
    ∧ missesOf s (.slot s.cur) (s.team s.cur).ctx (lockUses (readSrc s a) (readSrc s b)) ≠ [] :=
  ⟨.g 0, .g 1, gW 0x10000080 1, rfl, rfl, rfl, by decide +kernel⟩

/-- A page of 1 GiB that holds every address below it, with every permission. -/
abbrev pageW : TlbEnt := { ctx := 0, lg := 30, vpn := 0, base := 0, r := true, w := true, x := true, chk := false, cls := 0, ncmb := false }
/-- A number at a byte offset of a block. -/
abbrev at_ (off v : Nat) : Nat := v * 2 ^ (8 * off)
/-- Core 0 with `n` bytes of its scratchpad written from address 0. -/
abbrev spW (n x : Nat) : State := coreW fun c => { c with sp := memWrite [] 0 (natBytes n x) }

theorem wit_SlotsAndPins : ∃ (n : Fin 32) (s : State), (s.me.obs n).st ≠ .releasing := ⟨31, State.reset, by decide⟩
theorem wit_TileOperations : ∃ (n : Fin 64) (b : SqG) (q : Fin 4) (s : State), s.me.tileBusy n = false ∧ SgReady s b
    ∧ (s.me.tq q).rows.length + (s.me.tq q).due.length + 64 ≤ 128 :=
  ⟨63, .sq 15, 3, coreW fun c => { c with tqs := [(3, { due := (rangeFrom 0 64).map fun r => (r, none) })] }, rfl, rfl, by decide +kernel⟩
theorem wit_TileOperations_ato : ∃ (n : Fin 64) (m : Mode) (o : Fin 32) (s : State), s.me.tileBusy n = false ∧ s.me.pendingWork o = false
    ∧ (s.me.obs o).st = .claimed ∧ modeDraws m = true := ⟨0, .sr, 31, coreW fun c => { c with ob := [(31, { st := .claimed })] }, rfl, rfl, rfl, rfl⟩
theorem wit_TileOperations_mma : ∃ (n : Fin 64) (a b : Fin 32) (s : State) (p : Nat), s.me.otherBusy n = false ∧ s.me.atoOn a = false
    ∧ s.me.atoOn b = false ∧ s.me.mmaWaiting < 2 ∧ (s.me.obs a).st = .claimed ∧ (s.me.obs b).st = .claimed ∧ s.me.lastMma = some p :=
  ⟨63, 0, 0, coreW fun c => { c with ob := [(0, { st := .claimed })], lastMma := some 5 }, 5, rfl, rfl, rfl, by decide, rfl, rfl, rfl⟩
theorem wit_CountersAndComparators : ∃ (n : Fin 16) (b : SqG) (s : State) (v : Int), SgReady s b ∧ v = (((readSg s b).setWidth 32).toInt : Int)
    ∧ (s.me.getK n).toNat + v < 2 ^ 32 ∧ (s.me.getK n).toNat + v < 0 := ⟨15, .g 0, gW 0x80000000 0, _, rfl, rfl, by decide, by decide⟩
theorem wit_CountersAndComparators_arm : ∃ (a b : SqG) (s : State), SgReady s a ∧ SgReady s b ∧ (readSg s a).toNat < (readSg s b).toNat
    ∧ (readSg s b).toNat ≤ 0x60000 := ⟨.g 0, .g 1, gW 0x5FFFF 0x60000, rfl, rfl, by decide, by decide⟩
/-- A buffer of 4 granules, one of them claimed, committed and awaited, one more claimed. -/
abbrev cbW : CircBuf := { en := true, size := 4, base := 6140, clm := 2, cmt := 1, awt := 1, head := 3 }
theorem wit_BufferOperations : ∃ (n : Fin 8) (b : SqG) (k : Nat) (q : CircBuf) (s : State), SgReady s b ∧ q = s.me.cb n ∧ q.en = true
    ∧ k = (readSg s b).toNat ∧ k < 2 ^ 13 ∧ k ≤ q.size.toNat ∧ q.clm.toNat + k ≤ q.size.toNat ∧ aheadOfOwn q.claims = false :=
  ⟨7, .g 0, 2, cbW, (gW 2 0).upd fun c => { c with cbs := [(7, cbW)] }, rfl, rfl, rfl, rfl, by decide, by decide, by decide, rfl⟩
theorem wit_BufferOperations_commit : ∃ (n : Fin 8) (b : SqG) (k : Nat) (q : CircBuf) (s : State), SgReady s b ∧ q = s.me.cb n ∧ q.en = true
    ∧ k = (readSg s b).toNat ∧ k < 2 ^ 13 ∧ k ≤ q.clm.toNat - q.cmt.toNat ∧ k ≤ q.awt.toNat ∧ k ≠ 0 ∧ s.me.accPending = false :=
  ⟨7, .g 0, 1, cbW, (gW 1 0).upd fun c => { c with cbs := [(7, cbW)] }, rfl, rfl, rfl, rfl, by decide, by decide, by decide, by decide, rfl⟩
/-- A load of 8 bytes into g15 that is under way, all of whose requests but `n` have been performed. -/
abbrev flightW (n : Nat) : Flight := { id := 1, dest := .g 15 8 false, addr := 0x10000000, write := false, glob := true, left := n, data := [(0, 7)] }
theorem wit_BufferOperations_commit_held : ∃ (n : Fin 8) (b : SqG) (k : Nat) (q : CircBuf) (s : State), SgReady s b ∧ q = s.me.cb n ∧ q.en = true
    ∧ k = (readSg s b).toNat ∧ k < 2 ^ 13 ∧ k ≤ q.clm.toNat - q.cmt.toNat ∧ k ≠ 0 ∧ s.me.accPending = true :=
  ⟨7, .g 0, 1, cbW, (gW 1 0).upd fun c => { c with cbs := [(7, cbW)], flights := [flightW 1] }, rfl, rfl, rfl, rfl, by decide, by decide, by decide, rfl⟩
theorem wit_BufferOperations_await : ∃ (n : Fin 8) (b : SqG) (k : Nat) (q : CircBuf) (s : State), SgReady s b ∧ q = s.me.cb n ∧ q.en = true
    ∧ k = (readSg s b).toNat ∧ k < 2 ^ 13 ∧ k ≤ q.size.toNat ∧ q.awt.toNat + k ≤ q.cmt.toNat ∧ aheadOfOwn q.awaits = false ∧ k ≠ 0 :=
  ⟨0, .g 0, 1, { cbW with cmt := 2 }, (gW 1 0).upd fun c => { c with cbs := [(0, { cbW with cmt := 2 })] }, rfl, rfl, rfl, rfl, by decide, by decide,
    by decide, rfl, by decide⟩
theorem wit_BufferOperations_held : ∃ (n : Fin 8) (b : SqG) (k : Nat) (q : CircBuf) (s : State), SgReady s b ∧ q = s.me.cb n ∧ q.en = true
    ∧ k = (readSg s b).toNat ∧ s.me.issuing = false ∧ k ≠ 0 ∧ k ≤ q.size.toNat ∧ q.size.toNat < q.clm.toNat + k ∧ q.cmt.toNat < q.awt.toNat + k :=
  ⟨7, .g 0, 4, cbW, (gW 4 0).upd fun c => { c with cbs := [(7, cbW)] }, rfl, rfl, rfl, rfl, rfl, by decide, by decide, by decide, by decide⟩
theorem wit_BufferOperations_none : ∃ (n : Fin 8) (b : SqG) (k : Nat) (q : CircBuf) (s : State), SgReady s b ∧ q = s.me.cb n ∧ q.en = true
    ∧ k = (readSg s b).toNat ∧ k = 0 := ⟨0, .g 0, 0, cbW, (gW 0 0).upd fun c => { c with cbs := [(0, cbW)] }, rfl, rfl, rfl, rfl, rfl⟩
theorem wit_Barriers_init : ∃ (a b : SqG) (s : State) (v : Word), SgReady s a ∧ SgReady s b ∧ (readSg s a).toNat + 16 ≤ 0x60000
    ∧ (readSg s a).toNat % 16 = 0 ∧ v = readSg s b ∧ v.getLsbD 36 = false ∧ v.toNat % 2 ^ 16 ≠ 0 :=
  ⟨.g 0, .g 1, gW 0x5FFF0 0xFFFF, _, rfl, rfl, by decide, by decide, rfl, by decide, by decide⟩
theorem wit_Barriers_init_bytes : ∃ (e : Eng) (a b : SqG) (s : State) (v : Word), SgReady s a ∧ SgReady s b ∧ (readSg s a).toNat + 16 ≤ 0x60000
    ∧ (readSg s a).toNat % 16 = 0 ∧ v = readSg s b ∧ v.getLsbD 36 = true ∧ (engLatA s.me e).toNat % 2 ^ 32 ≠ 0 :=
  ⟨.c1, .g 0, .g 1, (gW 0 0x1000000000).upd fun c => { c with prog := { lat := { c1A := 1 } } }, _, rfl, rfl, by decide, by decide, rfl, by decide,
    by decide⟩
theorem wit_Barriers_arrive : ∃ (a b : SqG) (s : State), SgReady s a ∧ SgReady s b ∧ (readSg s a).toNat + 16 ≤ 0x60000
    ∧ (readSg s a).toNat % 16 = 0 ∧ (readSg s b).toNat ≠ 0 ∧ (readSg s b).toNat < 2 ^ 32 :=
  ⟨.g 0, .g 1, gW 0x5FFF0 0xFFFFFFFF, rfl, rfl, by decide, by decide, by decide, by decide⟩
theorem wit_CopyCommands : ∃ (e : Eng) (a : SqG) (s : State) (b : BitVec 1024), SgReady s a ∧ CmdOk s (readSg s a) 128
    ∧ b = BitVec.ofNat 1024 (spNatBefore s (readSg s a).toNat 128) ∧ (s.me.eng e).q.length < 8
    ∧ (∀ p ∈ nbChecks s.me (s.team s.cur) false b, p.2 = false) ∧ (nbDkind b = 1 → (s.me.atStart.obs (nbOb b)).st = .claimed) :=
  ⟨.c0, .g 0, spW 128 (at_ 0x16 3 + at_ 0x18 2 + at_ 0x20 4), _, rfl, by decide +kernel, rfl, by decide, by decide +kernel, by decide +kernel⟩
theorem wit_CopyCommands_mcast : ∃ (e : Eng) (a : SqG) (s : State) (b : BitVec 1024), SgReady s a ∧ CmdOk s (readSg s a) 128
    ∧ b = BitVec.ofNat 1024 (spNatBefore s (readSg s a).toNat 128) ∧ (s.me.eng e).q.length < 8
    ∧ (∀ p ∈ nbChecks s.me (s.team s.cur) true b, p.2 = false) ∧ (nbDkind b = 1 → (s.me.atStart.obs (nbOb b)).st = .claimed) :=
  ⟨.c1, .g 0, spW 128 (at_ 0x14 32), _, rfl, by decide +kernel, rfl, by decide, by decide +kernel, by decide +kernel⟩
theorem wit_StashCommands : ∃ i e op a b s d, stashOf i = some (e, op, a, b) ∧ SgReady s a ∧ SgReady s b ∧ CmdOk s (readSg s a) 32
    ∧ d = descAt s (readSg s a) 32 ∧ s.me.stash.q.length + s.me.grpStash < 4 ∧ (s.team s.cur).kind ≠ 3 ∧ sdBad op d = false
    ∧ (s.me.getK ((d.extractLsb' 128 4).toNat)).toNat + 1 < 2 ^ 32 :=
  ⟨.stashPut .c0 (.g 0) (.g 1), _, _, _, _,
    ({ spW 32 (at_ 8 64) with teams := [(0, { loneTeam 0 with kind := 0 })] } : State).upd fun c => { c with team := some 0 }, _, rfl, rfl, rfl,
    by decide +kernel, rfl, by decide, by decide, by decide +kernel, by decide +kernel⟩
theorem wit_StashCommands_wv : ∃ (a b : SqG) (s : State) (d : BitVec 256), SgReady s a ∧ SgReady s b ∧ CmdOk s (readSg s a) 16
    ∧ d = descAt s (readSg s a) 16 ∧ s.me.stash.q.length + s.me.grpStash < 4 ∧ wvBad d = false ∧ (readSg s b).toNat ≤ 3
    ∧ (s.me.getK ((d.extractLsb' 72 4).toNat)).toNat + 1 < 2 ^ 32 :=
  ⟨.g 0, .g 1, (spW 16 0).upd fun c => { c with g := [(1, 3)] }, _, rfl, rfl, by decide +kernel, rfl, by decide, by decide +kernel, by decide,
    by decide +kernel⟩
/-- A binding of core 0 over ch0 that has met. -/
abbrev bindW : Binding := { ctx := 0, ch := 0, loc := { rect := true }, met := true, cred := 1024 }
/-- A neighbour's session on port 0. -/
abbrev nbW : Cart := { sessions := [{ id := 1, role := .neighbour, peer := 0, open_ := true }] }
/-- Module reset with a binding of core 0 and the session that keys it. -/
abbrev chW (b : Binding) : State := { State.reset with binds := [(0, b)], cart := nbW }
theorem wit_ChannelSends : ∃ (ch : Fin 11) (x : Src) (q : Fin 4) (s : State), (s.bound s.cur ch).isSome ∧ s.me.chq.q.length < 4 ∧ SrcReady s x
    ∧ TqFull s q := ⟨0, .sq 0, 0, (chW bindW).upd fun c => { c with tqs := [(0, { rows := [0] })] }, rfl, by decide, rfl, rfl⟩
theorem wit_ChannelSends_m : ∃ (ch : Fin 11) (a : Src) (s : State) (land len : Word), SrcReady s a ∧ s.me.chq.q.length < 4
    ∧ land = s.me.bank.lat.kB ∧ len = s.me.bank.lat.kA ∧ (∀ p ∈ sendMChecks s ch (readSrc s a) land len, p.2 = false)
    ∧ land.getLsbD 61 = true ∧ (s.me.getK (land.extractLsb' 57 4).toNat).toNat + 1 < 2 ^ 32 :=
  ⟨0, .zero, (chW bindW).upd fun c => { c with prog := { lat := { kA := 0x60000, kB := 0x6000000000000000 } } }, _, _, trivial, by decide, rfl, rfl,
    by decide +kernel, by decide, by decide⟩
theorem wit_ChannelSends_win : ∃ (ch : Fin 11) (b : Src) (s : State) (n : Nat) (x : Binding), SrcReady s b ∧ s.bound s.cur ch = some (n, x)
    ∧ tabGet? s.binds n = some x ∧ (readSrc s b).toNat < 2 ^ 16 := ⟨0, .g 0, (chW bindW).upd fun c => { c with g := [(0, 65535)] }, 0, bindW, rfl, rfl, rfl, by decide⟩
theorem wit_ChannelReceives : ∃ (ch : Fin 11) (s : State), (s.bound s.cur ch).isSome ∧ GClear s 15 ∧ VClear s 31 := ⟨0, chW bindW, rfl, rfl, rfl⟩
/-- A collective block of one core's subgroup: one i32 element. -/
abbrev colW : Nat := at_ 2 9 + at_ 5 2 + at_ 8 0x40000000 + at_ 0xC 1 + at_ 0x20 1 + at_ 0x28 4096
theorem wit_Collectives : ∃ (a : Src) (s : State) (x : Nat) (b : BitVec 1024), SrcReady s a ∧ x = (s.team s.cur).ctx.toNat
    ∧ (readSrc s a).toNat + 128 ≤ 0x60000 ∧ (readSrc s a).toNat % 16 = 0 ∧ granRace s s.cur s.cur (readSrc s a).toNat 128 .read = none
    ∧ b = BitVec.ofNat 1024 (spNatBefore s (readSrc s a).toNat 128) ∧ cbBad s x (s.team s.cur) s.cur b = none
    ∧ (s.me.getK (cbKctr b)).toNat + 1 < 2 ^ 32 ∧ s.me.accPending = false ∧ (s.ctx x).colls.length < 16
    ∧ (cbMembers s x (s.team s.cur) s.cur b).isSome :=
  ⟨.zero, spW 128 colW, 0, _, trivial, rfl, by decide, by decide, by decide +kernel, rfl, by decide +kernel, by decide +kernel, rfl, by decide, by decide +kernel⟩
/-- What a member that issues the same collective later learns. -/
abbrev failW : ColFail := { ctx := 0, team := none, group := BitVec.ofNat 32 (cbGroup (BitVec.ofNat 1024 colW)), step := cbStep (BitVec.ofNat 1024 colW), status := 2, fcode := 9, left := [0] }
theorem wit_Collectives_failed : ∃ (s : State) (x : Nat) (b : BitVec 1024) (f : ColFail), x = (s.team s.cur).ctx.toNat
    ∧ b = BitVec.ofNat 1024 (spNatBefore s 0 128) ∧ (s.ctx x).colls = [] ∧ s.me.accPending = false ∧ (cbMembers s x (s.team s.cur) s.cur b).isSome
    ∧ (s.die (coreDie s.cur)).colFails.find? (fun f => f.ctx.toNat == x && f.team == s.me.team
      && f.group.toNat == cbGroup b && f.step == cbStep b && f.left.contains 0) = some f :=
  ⟨{ spW 128 colW with dies := [(0, { colFails := [failW] })] }, 0, _, failW, rfl, rfl, rfl, rfl, by decide +kernel, by decide +kernel⟩
/-- A collective of that block. -/
abbrev collW : Coll := { id := 0, core := 0, die := 0, blk := BitVec.ofNat 1024 colW, baddr := 0, n := 1, member := 0 }
theorem wit_Collectives_abort : ∃ (a : Src) (s : State) (x : Nat) (step : Word) (c : Coll), SrcReady s a ∧ x = (s.team s.cur).ctx.toNat
    ∧ (readSrc s a).toNat + 128 ≤ 0x60000 ∧ (readSrc s a).toNat % 16 = 0 ∧ granRace s s.cur s.cur ((readSrc s a).toNat + 0x30) 8 .read = none
    ∧ step = BitVec.ofNat 64 (spNatBefore s ((readSrc s a).toNat + 0x30) 8)
    ∧ (s.ctx x).colls.find? (fun c => c.baddr == readSrc s a && c.core == s.cur && cbStep c.blk == step && !c.ended) = some c :=
  by refine ⟨.zero, { spW 128 colW with ctxs := [(0, { colls := [collW] })] }, 0, 0, collW, trivial, rfl, by decide, by decide, ?_, ?_, ?_⟩ <;> decide +kernel
theorem wit_Collectives_none : ∃ (a : Src) (s : State) (x : Nat) (step : Word), SrcReady s a ∧ x = (s.team s.cur).ctx.toNat
    ∧ (readSrc s a).toNat + 128 ≤ 0x60000 ∧ (readSrc s a).toNat % 16 = 0 ∧ granRace s s.cur s.cur ((readSrc s a).toNat + 0x30) 8 .read = none
    ∧ step = BitVec.ofNat 64 (spNatBefore s ((readSrc s a).toNat + 0x30) 8)
    ∧ (s.ctx x).colls.find? (fun c => c.baddr == readSrc s a && c.core == s.cur && cbStep c.blk == step && !c.ended) = none :=
  ⟨.g 0, gW 0x5FF80 0, 0, _, rfl, rfl, by decide, by decide, rfl, rfl, rfl⟩
/-- A stage, which nothing but its number describes. -/
abbrev stageW : Stage := { num := 0, ctx := 0, x0 := 0, y0 := 0, lw := 0, lh := 0, blk := 0 }
/-- Die 0 with that stage and class 0 defined. -/
abbrev gzW : DieSt := { stages := [stageW], classTab := [(0, 0x8030000000000000)] }
/-- What each clause of `GazetteerSlots` asks of a `gz.put`. -/
abbrev PutOk (a b : Src) (s : State) (key : BitVec 48) (idx : BitVec 16) : Prop :=
  SrcReady s a ∧ SrcReady s b ∧ (readSrc s a).toNat < 2 ^ 48 ∧ (readSrc s b).toNat + 64 ≤ 0x60000 ∧ (readSrc s b).toNat % 64 = 0
    ∧ granRace s s.cur s.cur (readSrc s b).toNat 64 .read = none ∧ AccFree s ∧ s.me.accPending = false ∧ key = (readSrc s a).setWidth 48
    ∧ idx = s.me.bank.lat.kA.extractLsb' 32 16
theorem wit_GazetteerSlots_granted : ∃ a b s key idx, PutOk a b s key idx ∧ s.me.gzGrant = true
    ∧ (s.die (coreDie s.cur)).gzRefuses key idx.toNat = false :=
  by refine ⟨.zero, .g 0, ({ gW 0x5FFC0 0 with dies := [(0, gzW)] } : State).upd fun c => { c with gzGrant := true }, _, _,
    ⟨trivial, rfl, by decide, by decide, by decide, by decide, by decide, rfl, rfl, rfl⟩, rfl, ?_⟩; decide +kernel
theorem wit_GazetteerSlots_asks : ∃ a b s key idx, PutOk a b s key idx ∧ s.me.gzGrant = false ∧ s.me.issuing = false :=
  ⟨.zero, .g 0, gW 0x5FFC0 0, _, _, ⟨trivial, rfl, by decide, by decide, by decide, by decide, by decide, rfl, rfl, rfl⟩, rfl, rfl⟩
theorem wit_GazetteerSlots_waits : ∃ a b s key idx, PutOk a b s key idx ∧ s.me.gzGrant = false ∧ s.me.issuing = true :=
  ⟨.zero, .g 0, (gW 0x5FFC0 0).upd fun c => { c with issuing := true }, _, _,
    ⟨trivial, rfl, by decide, by decide, by decide, by decide, by decide, rfl, rfl, rfl⟩, rfl, rfl⟩
/-- A team of core 0 with a current record. -/
abbrev recW (r : Bool) : State := { coreW (fun c => { c with team := some 0 }) with
  teams := [(0, { loneTeam 0 with kind := 0, crec := some 0, recId := some 0, retired := r })] }
theorem wit_GazetteerSlots_done : ∃ (a : Src) (s : State) (o : Nat) (tm : Team) (im : BitVec 1024), SrcReady s a ∧ s.me.team = some o
    ∧ tabGet? s.teams o = some tm ∧ tm.crec = some im ∧ readSrc s a = (im.extractLsb' 512 48).setWidth 64 ∧ tm.retired = false ∧ tm.rcmp = false :=
  ⟨.zero, recW false, 0, _, 0, trivial, rfl, rfl, rfl, by decide +kernel, rfl, rfl⟩
theorem wit_GazetteerSlots_retired : ∃ (a : Src) (s : State) (o : Nat) (tm : Team) (im : BitVec 1024), SrcReady s a ∧ s.me.team = some o
    ∧ tabGet? s.teams o = some tm ∧ tm.crec = some im ∧ readSrc s a = (im.extractLsb' 512 48).setWidth 64 ∧ (tm.retired = true ∨ tm.rcmp = true) :=
  ⟨.zero, recW true, 0, _, 0, trivial, rfl, rfl, rfl, by decide +kernel, .inl rfl⟩
theorem wit_GazetteerSlots_rd : ∃ (n : Fin 16) (a : Src) (s : State), SrcReady s a ∧ GClear s n ∧ (readSrc s a).toNat % 8 = 0
    ∧ (readSrc s a).toNat ≤ 120 := ⟨15, .g 0, gW 120 0, rfl, rfl, by decide, by decide⟩
theorem wit_GazetteerSlots_trust : ∃ (a : Src) (s : State) (p : PathDef), SrcReady s a ∧ tabGet? s.cart.paths ((readSrc s a).toNat % 65536) = some p :=
  ⟨.g 0, { gW 1023 0 with cart := { paths := [(1023, { switches := [] })] } }, _, rfl, rfl⟩
theorem wit_GazetteerSlots_no_path : ∃ (a : Src) (s : State), SrcReady s a ∧ tabGet? s.cart.paths ((readSrc s a).toNat % 65536) = none :=
  ⟨.zero, State.reset, trivial, rfl⟩

theorem wit_Branches : ∃ (a : Src) (s : State), SqReady s 0 ∧ (s.me.sqAt 0).val = 0 ∧ SrcReady s a ∧ readSrc s a ≠ 0 :=
  ⟨.imm 127, State.reset, rfl, rfl, trivial, by decide⟩
theorem wit_Branches_no_pass : ∃ (a : Src) (s : State), SqReady s 0 ∧ (s.me.sqAt 0).val ≠ 0 ∧ SrcReady s a ∧ readSrc s a = 0 :=
  ⟨.zero, coreW fun c => { c with prog := { sq := [{ val := 1 }] } }, rfl, by decide, trivial, by decide⟩
theorem wit_Branches_skips : ∃ s : State, (skipBody s.cur 16 s.nextPc s).wait = none := ⟨State.reset, by decide +kernel⟩
theorem wit_Branches_skip_waits : ∃ (s : State) (w : ReadWait), (skipBody s.cur 16 s.nextPc s).wait = some w ∧ s.me.issuing = false :=
  ⟨coreW fun c => { c with pc := 0x10000000 }, .walks [{ who := .fetch 0, va := 0x10000008, perm := { x := true } }], by decide +kernel, rfl⟩
theorem wit_Branches_nest : ∃ (a : Src) (s : State) (n : Nat), SrcReady s a ∧ CmdOk s (readSrc s a) 128
    ∧ n = (rangeFrom 0 6).foldl (fun n d => n * (spNatBefore s ((readSrc s a).toNat + 0x20 + 12 * d) 2)) 1 :=
  ⟨.g 0, gW 0x5FF80 0, _, rfl, by decide +kernel, rfl⟩
theorem wit_Waits_lt : ∃ (k : Fin 16) (b : Src) (s : State), SrcReady s b ∧ (s.me.getK k).toNat < (readSrc s b).toNat
    ∧ unitFault s.me (some (BitVec.ofNat 4 k)) = none ∧ s.me.nft.contains (BitVec.ofNat 4 k.val) = false :=
  ⟨15, .g 0, (gW 0x100000000 0).upd fun c => { c with k := [(15, 0xFFFFFFFF)] }, rfl, by decide, rfl, rfl⟩
/-- Core 0 with a barrier object of one expected arrival at address 0 in phase `ph`, to which it is bound at phase 0. -/
abbrev barW (ph : Nat) : State := (spW 16 (at_ 0 1 + at_ 4 ph + at_ 6 1)).upd fun c => { c with binds := [(0, 0)], wbT := 5 }
theorem wit_Waits_bar : ∃ (a b : Src) (s : State) (p : BitVec 4), SrcReady s a ∧ SrcReady s b ∧ s.me.bindingOf (readSrc s a) = some p
    ∧ (readSrc s a).toNat + 16 ≤ 0x60000 ∧ (readSrc s a).toNat % 16 = 0 ∧ (s.barAt s.cur (readSrc s a).toNat).ph ≠ p :=
  ⟨.zero, .zero, barW 15, 0, trivial, trivial, rfl, by decide, by decide, by decide +kernel⟩
theorem wit_Waits_bar_limit : ∃ (a b : Src) (s : State) (p : BitVec 4), SrcReady s a ∧ SrcReady s b ∧ s.me.bindingOf (readSrc s a) = some p
    ∧ (readSrc s a).toNat + 16 ≤ 0x60000 ∧ (readSrc s a).toNat % 16 = 0 ∧ (s.barAt s.cur (readSrc s a).toNat).ph = p
    ∧ (readSrc s b).toNat ≤ s.me.wbT := ⟨.zero, .imm 5, barW 0, 0, trivial, trivial, rfl, by decide, by decide, by decide +kernel, by decide⟩
theorem wit_Waits_unbound : ∃ (a b : Src) (s : State), SrcReady s a ∧ SrcReady s b ∧ s.me.bindingOf (readSrc s a) = none
    ∧ (readSrc s a).toNat + 16 ≤ 0x60000 ∧ (readSrc s a).toNat % 16 = 0 :=
  ⟨.g 0, .zero, gW 0x5FFF0 0, rfl, trivial, rfl, by decide, by decide⟩
theorem wit_Waits_wake : ∃ (s : State) (w : BitVec 3) (g : BitVec 13) (l : List (BitVec 3 × BitVec 13)), s.me.wakeq = (w, g) :: l :=
  ⟨coreW fun c => { c with wakeq := [(7, 6143)] }, _, _, _, rfl⟩
theorem wit_HaltTrapSysret : ∃ s : State, s.me.tm = false ∧ unitFault s.me none = none ∧ s.me.outstanding = false := ⟨State.reset, rfl, rfl, rfl⟩
theorem wit_HaltTrapSysret_handler : ∃ s : State, s.me.tm = true ∧ s.me.e0.frz = false ∧ s.me.e1.frz = false ∧ s.me.stash.frz = false
    ∧ s.me.chq.frz = false ∧ s.me.colFaults = [] ∧ s.me.outstanding = false := ⟨coreW fun c => { c with tm := true }, rfl, rfl, rfl, rfl, rfl, rfl, rfl⟩
theorem wit_FencesAndTiles : ∃ (a : Src) (s : State), s.me.accPending = false ∧ s.streamsBusy s.cur true true true = false ∧ SrcReady s a
    ∧ s.me.writesPending = false := ⟨.g 15, State.reset, rfl, rfl, rfl, rfl⟩
theorem wit_FencesAndTiles_row : ∃ s : State, s.me.spos.toNat < s.me.slen.toNat := ⟨coreW fun c => { c with slen := 256, spos := 255 }, by decide⟩
theorem wit_FencesAndTiles_past : ∃ s : State, s.me.slen.toNat ≤ s.me.spos.toNat := ⟨coreW fun c => { c with slen := 256, spos := 256 }, by decide⟩
/-- Context 0 with an entry at address 0 for kernels. -/
abbrev ctxW : Ctx := { live := true, entries := [{ addr := 0, kind := 3, img := 0, tw := 0, th := 0 }] }
/-- What the first clause of `LaunchSlot` asks. -/
abbrev LaunchOk (a : Src) (s : State) (d : BitVec 512) (blk : Option SBlk) : Prop :=
  SrcReady s a ∧ s.me.accPending = false ∧ s.me.acqPending = false ∧ (readSrc s a).toNat + 64 ≤ 0x60000 ∧ (readSrc s a).toNat % 16 = 0
    ∧ granRace s s.cur s.cur (readSrc s a).toNat 64 .read = none ∧ d = BitVec.ofNat 512 (spNatBefore s (readSrc s a).toNat 64)
    ∧ queueFull s (launchDie (.core s.cur (readSrc s a)) d) = false ∧ (ldKind d = 1 → (ldEntry d).toNat + 320 ≤ 0x60000 ∧ (ldEntry d).toNat % 16 = 0
      ∧ granRace s s.cur s.cur (ldEntry d).toNat 320 .read = none)
    ∧ blk = (if ldKind d = 1 then some (BitVec.ofNat 2560 (spNatBefore s (ldEntry d).toNat 320)) else none)
theorem wit_LaunchSlot : ∃ a s d blk, LaunchOk a s d blk ∧ refusal s (.core s.cur (readSrc s a)) d blk = 0 :=
  ⟨.zero, { spW 64 (at_ 9 0xFF + at_ 0xF 3) with ctxs := [(0, ctxW)] }, _, _,
    ⟨trivial, rfl, rfl, by decide, by decide, by decide +kernel, rfl, by decide +kernel, by decide +kernel, rfl⟩, by decide +kernel⟩
theorem wit_LaunchSlot_refused : ∃ a s d blk, LaunchOk a s d blk ∧ refusal s (.core s.cur (readSrc s a)) d blk ≠ 0 ∧ ldScope d ≠ 4
    ∧ bitOf (ldNotify d) 1 = false ∧ ldKind d = 1 :=
  ⟨.zero, coreW (fun c => { c with sp := (natBytes 320 (at_ 8 1 + at_ 0xF 2 + at_ 0x39 1)).zipIdx.map fun p => (p.2, p.1) }), _, _,
    ⟨trivial, rfl, rfl, by decide, by decide, by decide +kernel, rfl, by decide +kernel, by decide +kernel, rfl⟩,
    by decide +kernel, by decide +kernel, by decide +kernel, by decide +kernel⟩
theorem wit_LaunchSlot_notifies : ∃ a s d blk, LaunchOk a s d blk ∧ bitOf (ldNotify d) 1 = true :=
  ⟨.zero, spW 64 (at_ 0x38 2), _, _,
    ⟨trivial, rfl, rfl, by decide, by decide, by decide +kernel, rfl, by decide +kernel, by decide +kernel, rfl⟩, by decide +kernel⟩
/-- Core 0 knows the page of a descriptor in memory, which L2 holds. -/
abbrev ldescW : State := { knowW 0x10000000 0 with
  mem := memWrite [] 0x10000000 (natBytes 64 (at_ 9 0xFF + at_ 0xF 3)), ctxs := [(0, ctxW)], l2 := [{ line := 0x200000, ctx := 0 }] }
theorem wit_LaunchSlot_global : ∃ (a : Src) (s : State) (d : BitVec 512) (ad : Word) (va : Nat), SrcReady s a ∧ ad = readSrc s a
    ∧ decodeEa ad = .global va ∧ PagesKnown s (gUses ad 64 { r := true })
    ∧ readDesc (bringIn (.slot s.cur) (s.team s.cur).ctx ad 64 s) s.cur ad = .ok d ∧ gAwaits s (.slot s.cur) (s.team s.cur).ctx ad 64 = false
    ∧ s.me.accPending = false ∧ s.me.acqPending = false ∧ queueFull s (launchDie (.core s.cur ad) d) = false ∧ ldKind d ≠ 1
    ∧ refusal s (.core s.cur ad) d none = 0 :=
  ⟨.g 0, ldescW, _, _, 0x10000000, rfl, rfl, by decide +kernel, by decide +kernel, rfl, by decide +kernel, rfl, rfl, by decide +kernel,
    by decide +kernel, by decide +kernel⟩
theorem wit_SystemWords : ∃ (w : Fin 64) (b : Src) (s : State), w.val ≠ 15 ∧ SrcReady s b ∧ readOnlyWord w = true := ⟨63, .sq 15, State.reset, by decide, rfl, rfl⟩
theorem wit_SystemWords_handler : ∃ (b : Src) (s : State), SrcReady s b ∧ s.me.tm = true := ⟨.imm 0, coreW fun c => { c with tm := true }, trivial, rfl⟩
/-- A core in its handler whose engine 0 and stash queue are frozen. -/
abbrev frzW : State := coreW fun c => { c with tm := true, e0 := { frz := true }, stash := { frz := true } }
theorem wit_SystemWords_estat : ∃ (c : CoreId) (e : Eng) (v : Word) (s : State), (s.core c).tm = true ∧ v.getLsbD 31 = false
    ∧ ((s.core c).eng e).frz = true ∧ (s.core c).stash.frz = true := ⟨0, .c0, 0, frzW, rfl, rfl, rfl, rfl⟩
theorem wit_SystemWords_estat_kept : ∃ (c : CoreId) (e : Eng) (v : Word) (s : State), (s.core c).tm = true
    ∧ (v.getLsbD 31 = true ∨ ((s.core c).eng e).frz = false) := ⟨0, .c1, 0, frzW, rfl, .inr rfl⟩
theorem wit_SystemWords_cbdef : ∃ (c : CoreId) (n : Fin 8) (s : State), ((s.core c).cb n).claims = [] ∧ ((s.core c).cb n).awaits = []
    ∧ ∀ p ∈ s.cores, p.2.e0.q = [] ∧ p.2.e1.q = [] := ⟨511, 7, State.reset, rfl, rfl, by decide⟩
theorem wit_SystemWords_cbptr : ∃ (c : CoreId) (n : Fin 8) (v : Word) (s : State), (s.core c).tm = true ∧ ((s.core c).cb n).en = true
    ∧ (v.extractLsb' 0 13).toNat < ((s.core c).cb n).size.toNat ∧ (v.extractLsb' 13 13).toNat ≤ (v.extractLsb' 26 13).toNat
    ∧ (v.extractLsb' 26 13).toNat ≤ (v.extractLsb' 39 13).toNat ∧ (v.extractLsb' 39 13).toNat ≤ ((s.core c).cb n).size.toNat :=
  ⟨0, 7, 3, coreW fun c => { c with tm := true, cbs := [(7, cbW)] }, rfl, rfl, by decide, by decide, by decide, by decide⟩

theorem wit_SystemWords_ststat : ∃ (c : CoreId) (v : Word) (s : State), (s.core c).tm = true ∧ (s.core c).stash.frz = true ∧ v.getLsbD 31 = false :=
  ⟨0, 0, frzW, rfl, rfl, rfl⟩
theorem wit_SystemWords_ststat_kept : ∃ (c : CoreId) (v : Word) (s : State), (s.core c).tm = false ∨ (s.core c).stash.frz = false ∨ v.getLsbD 31 = true :=
  ⟨0, 0, State.reset, .inl rfl⟩

/-- Core 0 with one event of its calendar due. -/
abbrev dueW (e : CalEv) : State := coreW fun c => { c with cal := [(0, e)] }
theorem wit_ResultsAndData : ∃ (c : CoreId) (s : State) (h : Bool) (n : Nat) (l : List (Nat × CalEv)), DueFirst s c (.sqReady h n) l :=
  ⟨0, dueW (.sqReady true 1), true, 1, [], 0, rfl, Nat.le_refl _⟩
theorem wit_ResultsAndData_vq : ∃ (c : CoreId) (s : State) (h : Bool) (n : Nat) (l : List (Nat × CalEv)), DueFirst s c (.vqReady h n) l :=
  ⟨0, dueW (.vqReady false 1), false, 1, [], 0, rfl, Nat.le_refl _⟩
theorem wit_ResultsAndData_g : ∃ (c : CoreId) (s : State) (n : Fin 16) (v a : Word) (l : List (Nat × CalEv)), DueFirst s c (.gData n v a) l :=
  ⟨0, dueW (.gData 15 1 2), 15, 1, 2, [], 0, rfl, Nat.le_refl _⟩
theorem wit_ResultsAndData_v : ∃ (c : CoreId) (s : State) (n : Fin 32) (v : Vec) (a : Word) (l : List (Nat × CalEv)), DueFirst s c (.vData n v a) l :=
  ⟨0, dueW (.vData 31 0 2), 31, 0, 2, [], 0, rfl, Nat.le_refl _⟩
theorem wit_TilesFinish_wrow : ∃ (c : CoreId) (s : State) (n r : Fin 64) (v : Vec) (l : List (Nat × CalEv)), DueFirst s c (.wrow n r v) l
    ∧ (s.core c).wrowBlocked n = false := ⟨0, dueW (.wrow 63 63 0), 63, 63, 0, [], ⟨0, rfl, Nat.le_refl _⟩, rfl⟩
theorem wit_TilesFinish_drain : ∃ (c : CoreId) (s : State) (n : Fin 64) (q : Fin 4) (r : Nat) (l : List (Nat × CalEv)) (d : List (Nat × Option Row)),
    DueFirst s c (.drain n q r) l ∧ r < 64 ∧ ((s.core c).tq q).due = (r, none) :: d ∧ ∀ p x, d.head? ≠ some (p, some x) :=
  ⟨0, (dueW (.drain 0 3 63)).upd fun c => { c with tqs := [(3, { due := [(63, none), (0, none)] })] }, 0, 3, 63, [], [(0, none)],
    ⟨0, rfl, Nat.le_refl _⟩, by decide, rfl, fun _ _ h => by cases h⟩
theorem wit_TilesFinish_drain_behind : ∃ (c : CoreId) (s : State) (n : Fin 64) (q : Fin 4) (r : Nat) (l : List (Nat × CalEv)) (p : Nat)
    (d : List (Nat × Option Row)), DueFirst s c (.drain n q r) l ∧ r < 64 ∧ ((s.core c).tq q).due = (p, none) :: d ∧ p ≠ r :=
  ⟨0, (dueW (.drain 0 3 0)).upd fun c => { c with tqs := [(3, { due := [(63, none), (0, none)] })] }, 0, 3, 0, [], 63, [(0, none)],
    ⟨0, rfl, Nat.le_refl _⟩, by decide, rfl, by decide⟩
theorem wit_TilesFinish_azero : ∃ (c : CoreId) (s : State) (n : Fin 64) (l : List (Nat × CalEv)), DueFirst s c (.azero n) l :=
  ⟨0, dueW (.azero 0), 0, [], 0, rfl, Nat.le_refl _⟩
theorem wit_TilesFinish_ascale : ∃ (c : CoreId) (s : State) (n : Fin 64) (x : BitVec 32) (l : List (Nat × CalEv)), DueFirst s c (.ascale n x) l :=
  ⟨0, dueW (.ascale 63 0), 63, 0, [], 0, rfl, Nat.le_refl _⟩
theorem wit_TilesFinish_ato : ∃ (c : CoreId) (s : State) (f : Fmt) (m : Mode) (sat : Bool) (o : Fin 32) (n : Fin 64) (h : BitVec 2) (ws : List (BitVec 32))
    (l : List (Nat × CalEv)), DueFirst s c (.ato f m sat o n h ws) l ∧ 64 * h.toNat < fmtDepth f ∧ nxOf f = none :=
  ⟨0, dueW (.ato .bf16 .rz true 31 63 0 []), .bf16, .rz, true, 31, 63, 0, [], [], ⟨0, rfl, Nat.le_refl _⟩, by decide, rfl⟩
theorem wit_TilesFinish_ato_nx : ∃ (c : CoreId) (s : State) (f : Fmt) (m : Mode) (sat : Bool) (o : Fin 32) (n : Fin 64) (h : BitVec 2) (ws : List (BitVec 32))
    (l : List (Nat × CalEv)) (k : Nat), DueFirst s c (.ato f m sat o n h ws) l ∧ 64 * h.toNat < fmtDepth f ∧ nxOf f = some k :=
  ⟨0, dueW (.ato .nx2 .sr false 31 63 3 []), .nx2, .sr, false, 31, 63, 3, [], [], _, ⟨0, rfl, Nat.le_refl _⟩, by decide, rfl⟩
theorem wit_TilesFinish_ato_past : ∃ (c : CoreId) (s : State) (f : Fmt) (m : Mode) (sat : Bool) (o : Fin 32) (n : Fin 64) (h : BitVec 2) (ws : List (BitVec 32))
    (l : List (Nat × CalEv)), DueFirst s c (.ato f m sat o n h ws) l ∧ fmtDepth f ≤ 64 * h.toNat :=
  ⟨0, dueW (.ato .bf16 .rna true 31 63 3 []), .bf16, .rna, true, 31, 63, 3, [], [], ⟨0, rfl, Nat.le_refl _⟩, by decide⟩
/-- A multiply that waits for the array, or runs on rows. -/
abbrev mmaW (r : Option (List ObRow × List ObRow)) : MmaOp := { f := .bf16, tile := 63, a := 31, b := 0, zero := false, start := 0, rows := r }
theorem wit_MatrixMultiply : ∃ (c : CoreId) (s : State) (m : MmaOp) (ms : List MmaOp) (l : List (Nat × CalEv)), DueFirst s c .mmaStart l
    ∧ (s.core c).mmas = m :: ms ∧ m.rows = none :=
  ⟨0, (dueW .mmaStart).upd fun c => { c with mmas := [mmaW none] }, mmaW none, [], [], ⟨0, rfl, Nat.le_refl _⟩, rfl, rfl⟩
theorem wit_MatrixMultiply_finish : ∃ (c : CoreId) (s : State) (m : MmaOp) (ms : List MmaOp) (as bs : List ObRow) (l : List (Nat × CalEv)),
    DueFirst s c .mmaFinish l ∧ (s.core c).mmas = m :: ms ∧ m.rows = some (as, bs) :=
  ⟨0, (dueW .mmaFinish).upd fun c => { c with mmas := [mmaW (some ([], []))] }, mmaW (some ([], [])), [], [], [], [], ⟨0, rfl, Nat.le_refl _⟩, rfl, rfl⟩

/-- Core 0 runs at 0x10000000, where 8 zero bytes stand: the header of a bundle of no slot. -/
abbrev runW (f : Core → Core) : State := { coreW (fun c => f { c with run := .running, pc := 0x10000000, tlb := [pageW] }) with
  mem := memWrite [] 0x10000000 (natBytes 8 0) }
/-- A bundle in issue. -/
abbrev bunW (gs : List (List (Nat × Instr))) : Bundle :=
  { npc := 0x10000008, lend := false, yld := false, stall := 0, fields := [], groups := gs }
/-- What core `c` finds as it fetches. -/
abbrev fetchW (s : State) (c : CoreId) : FetchNow × State := fetchNow { s with cur := c } c
theorem wit_BundleSteps_fetch : ∃ (c : CoreId) (s : State) (l : List Byte), (s.core c).run = .running ∧ (s.core c).bun = none
    ∧ (s.core c).fetched = none ∧ (fetchW s c).1 = .bytes l ∧ codeUe (fetchW s c).2 c (s.core c).pc l.length = false :=
  ⟨0, runW id, natBytes 8 0, rfl, rfl, rfl, by decide +kernel, by decide +kernel⟩
theorem wit_BundleSteps_fetch_ue : ∃ (c : CoreId) (s : State) (l : List Byte), (s.core c).run = .running ∧ (s.core c).bun = none
    ∧ (s.core c).fetched = none ∧ (fetchW s c).1 = .bytes l ∧ codeUe (fetchW s c).2 c (s.core c).pc l.length = true ∧ (s.core c).reent = none :=
  ⟨0, { runW id with ueLines := [0x200000] }, natBytes 8 0, rfl, rfl, rfl, by decide +kernel, by decide +kernel, rfl⟩
theorem wit_BundleSteps_fetch_fault : ∃ (c : CoreId) (s : State) (f : TFault), (s.core c).run = .running ∧ (s.core c).bun = none
    ∧ (s.core c).fetched = none ∧ (fetchW s c).1 = .fault f ∧ (s.core c).reent = none :=
  ⟨0, runW fun c => { c with tlb := [{ codePage with x := false }] }, { reason := 5 }, rfl, rfl, rfl, by decide +kernel, rfl⟩
theorem wit_BundleSteps_fetch_walks : ∃ (c : CoreId) (s : State) (l : List Miss), (s.core c).run = .running ∧ (s.core c).bun = none
    ∧ (s.core c).fetched = none ∧ (fetchW s c).1 = .waits (.walks l) :=
  ⟨0, runW fun c => { c with tlb := [] }, [{ who := .fetch 0, va := 0x10000000, perm := { x := true } }], rfl, rfl, rfl, by decide +kernel⟩
theorem wit_BundleSteps_decode : ∃ (c : CoreId) (s : State) (l : List Byte) (d : Decoded), (s.core c).run = .running
    ∧ (s.core c).fetched = some l ∧ (s.core c).reent = none ∧ decodeBundle (s.core c).tm (s.core c).hist l = .ok d :=
  ⟨0, runW fun c => { c with fetched := some (natBytes 8 0) }, _, _, rfl, rfl, rfl, rfl⟩
/-- What the clause of `BundleSteps` about a group asks. -/
abbrev GroupOf (c : CoreId) (s v u : State) (b : Bundle) (tm inc : Bool) (n : Nat) (f : BitVec 24) (i : Instr) (gs : List (List (Nat × Instr))) : Prop :=
  v = { s with cur := c } ∧ (s.core c).run = .running ∧ (s.core c).defer = none ∧ (s.core c).bun = some b ∧ b.groups = [(n, i)] :: gs
    ∧ n < 8 ∧ decodeField tm n f inc = .ok i ∧ (s.core c).token = false ∧ (s.core c).wdDue = false ∧ exec i (trying v) = .next u
theorem wit_BundleSteps_issue : ∃ c s v u t b tm inc n f i gs, GroupOf c s v u b tm inc n f i gs ∧ u.me.held = {} ∧ exec i (issuedState n i v) = .next t
    ∧ t.me.bun ≠ none ∧ t.me.defer = none :=
  by
    refine ⟨0, runW fun c => { c with bun := some (bunW [[(0, .nop)]]) }, _, _, _, _, false, false, 0, 0, .nop, [],
      ⟨rfl, rfl, rfl, rfl, rfl, by decide, rfl, rfl, rfl, rfl⟩, ?_, rfl, ?_, ?_⟩ <;> decide +kernel
theorem wit_BundleSteps_issue_defers : ∃ c s v u t b tm inc n f i gs, GroupOf c s v u b tm inc n f i gs ∧ u.me.held = {} ∧ exec i (issuedState n i v) = .next t
    ∧ t.me.bun ≠ none ∧ t.me.defer ≠ none :=
  by
    refine ⟨0, runW fun c => { c with g := [(0, 0x10000000)], bun := some (bunW [[(1, .st .n64 (.g 0) .zero false)]]) }, _, _, _, _, false, false, 1, 0x271033,
      .st .n64 (.g 0) .zero false, [], ⟨rfl, rfl, rfl, rfl, rfl, by decide, rfl, rfl, rfl, rfl⟩, ?_, rfl, ?_, ?_⟩ <;> decide +kernel
theorem wit_BundleSteps_issue_held : ∃ c s v u b tm inc n f i gs, GroupOf c s v u b tm inc n f i gs ∧ u.me.held.other = true :=
  by
    refine ⟨0, runW fun c => { c with flights := [flightW 1], bun := some (bunW [[(0, .fence .die)]]) }, _, _, _, false, false, 0, 0x000021,
      .fence .die, [], ⟨rfl, rfl, rfl, rfl, rfl, by decide, rfl, rfl, rfl, rfl⟩, ?_⟩; decide +kernel
theorem wit_BundleSteps_finish : ∃ (t : State) (b : Bundle), t.me.bun = some b ∧ t.me.grpSys = [] :=
  ⟨runW fun c => { c with bun := some (bunW [[]]) }, _, rfl, rfl⟩
/-- A deferred store of 8 bytes to the word at an address, which lies in L2's reach. -/
abbrev accW (a : Word) : Access := { kind := .write, cls := .global, elems := [{ ea := a, rep := a, len := 8, data := natBytes 8 0 }], dest := .drop }
abbrev deferW (a : Word) : State := runW fun c => { c with bun := some (bunW [[(0, .nop)]]), defer := some { slot := 1, op := .access (accW a) } }
theorem wit_BundleSteps_access : ∃ (c : CoreId) (s v w : State) (b : Bundle) (d : Defer) (a : Access) (e : Elem) (va pa : Nat) (pg : TlbEnt),
    v = { s with cur := c } ∧ (s.core c).run = .running ∧ (s.core c).bun = some b ∧ (s.core c).defer = some d ∧ d.op = .access a
    ∧ missesOf v (.slot c) (s.team c).ctx (accUses v c a) = [] ∧ w = learnPages (.slot c) (s.team c).ctx (accUses v c a) v
    ∧ homeTrap w c a = none ∧ a.elems = [e] ∧ decodeEa e.ea = .global va
    ∧ translate w (.slot c) (s.team c).ctx va e.len a.kind.perm = .ok (pg, pa) ∧ (s.core c).rest = [] ∧ (s.core c).grpSys = [] :=
  by
    refine ⟨0, deferW 0x10000000, _, _, _, _, accW 0x10000000, _, 0x10000000, 0x10000000, pageW, rfl, rfl, rfl, rfl, rfl, ?_, rfl, ?_, rfl, ?_, rfl, rfl, rfl⟩
      <;> decide +kernel
theorem wit_BundleSteps_access_trap : ∃ (c : CoreId) (s v w : State) (b : Bundle) (d : Defer) (a : Access) (t : Trap),
    v = { s with cur := c } ∧ (s.core c).run = .running ∧ (s.core c).bun = some b ∧ (s.core c).defer = some d ∧ d.op = .access a
    ∧ missesOf v (.slot c) (s.team c).ctx (accUses v c a) = [] ∧ w = learnPages (.slot c) (s.team c).ctx (accUses v c a) v
    ∧ homeTrap w c a = some t :=
  by
    refine ⟨0, (deferW 0x10000000).upd fun c => { c with tlb := [codePage] }, _, _, _, _, accW 0x10000000, _, rfl, rfl, rfl, rfl, rfl, ?_, rfl, rfl⟩
    decide +kernel
theorem wit_BundleSteps_accept : ∃ (c : CoreId) (s : State) (b : Bundle) (d : Defer) (k : ArrKind) (a : Word) (n : BitVec 32),
    (s.core c).run = .running ∧ (s.core c).bun = some b ∧ (s.core c).defer = some d ∧ d.op = .barrier k a n ∧ d.ans = some true
    ∧ (s.core c).rest = [] ∧ (s.core c).grpSys = [] :=
  ⟨0, runW fun c => { c with bun := some (bunW [[(0, .nop)]]), defer := some { slot := 5, op := .barrier .drop 0 1, ans := some true } }, _, _, .drop, 0,
    1, rfl, rfl, rfl, rfl, rfl, rfl, rfl⟩
theorem wit_BundleSteps_complete : ∃ (c : CoreId) (s : State) (b : Bundle) (target : Word), (s.core c).run = .running ∧ (s.core c).bun = some b
    ∧ b.groups = [] ∧ (s.core c).defer = none ∧ (s.core c).sret = false ∧ (s.core c).bank.lp.act = false ∧ b.yld = false
    ∧ (s.core c).pend = some { kind := 0, arg := target } :=
  ⟨0, runW fun c => { c with bun := some (bunW []), pend := some { kind := 0, arg := 8 } }, _, 8, rfl, rfl, rfl, rfl, rfl, rfl, rfl, rfl⟩
theorem wit_BundleSteps_complete_next : ∃ (c : CoreId) (s : State) (b : Bundle), (s.core c).run = .running ∧ (s.core c).bun = some b
    ∧ b.groups = [] ∧ (s.core c).defer = none ∧ (s.core c).sret = false ∧ (s.core c).bank.lp.act = false ∧ b.yld = false
    ∧ (s.core c).pend = none := ⟨0, runW fun c => { c with bun := some (bunW []) }, _, rfl, rfl, rfl, rfl, rfl, rfl, rfl, rfl⟩
theorem wit_BundleSteps_sysret : ∃ (c : CoreId) (s : State) (b : Bundle), (s.core c).run = .running ∧ (s.core c).bun = some b
    ∧ b.groups = [] ∧ (s.core c).defer = none ∧ (s.core c).sret = true :=
  ⟨0, runW fun c => { c with bun := some (bunW []), sret := true }, _, rfl, rfl, rfl, rfl, rfl⟩
theorem wit_BundleSteps_watchdog : ∃ (c : CoreId) (s : State) (b : Bundle) (g : List (Nat × Instr)) (gs : List (List (Nat × Instr))),
    (s.core c).run = .running ∧ (s.core c).wdDue = true ∧ (s.core c).defer = none ∧ (s.core c).bun = some b ∧ b.groups = g :: gs
    ∧ (s.core c).token = false ∧ (s.core c).tm = false ∧ tvecEn (s.core c).tvec = true ∧ (s.core c).regUe = false ∧ (s.core c).grpSys = []
    ∧ firstSlot g < 16 :=
  ⟨0, runW fun c => { c with bun := some (bunW [[]]), wdDue := true, tvec := 0x8000000000000000 }, _, [], [], rfl, rfl, rfl, rfl, rfl, rfl, rfl, rfl, rfl,
    rfl, by decide⟩

/-- A copy of one element of format 0, from address 0 to address 2, in one unit, to buffer 0 if `k` is 2. -/
abbrev blkW (k : Nat) : BitVec 1024 := BitVec.ofNat 1024 (at_ 8 2 + at_ 0x13 k + at_ 0x18 1 + at_ 0x20 1 + at_ 0x2C 1 + at_ 0x38 1 + at_ 0x44 1
  + at_ 0x50 1 + at_ 0x5C 1 + at_ 0x6C 0xFFFFFFFF + at_ 0x74 1)
/-- Core 0 whose engine 0 has that command. -/
abbrev engW (m : EngCmd) : State := (spW 4 0).upd fun c => { c with run := .running, e0 := { q := [m] }, k := [(0, 1)] }
theorem wit_EnginesAndBanks_start : ∃ (c : CoreId) (e : Eng) (s : State) (m : EngCmd) (q : List EngCmd), ((s.core c).eng e).q = m :: q
    ∧ ((s.core c).eng e).frz = false ∧ (s.core c).live = true ∧ m.started = false ∧ nbN m.blk ≠ 0 ∧ nbDkind m.blk ≠ 2 ∧ nbSkind m.blk ≠ 2 :=
  ⟨0, .c0, engW { blk := blkW 0 }, _, _, rfl, rfl, rfl, rfl, by decide +kernel, by decide +kernel, by decide +kernel⟩
theorem wit_EnginesAndBanks_start_cb : ∃ (c : CoreId) (e : Eng) (s : State) (m : EngCmd) (q : List EngCmd), ((s.core c).eng e).q = m :: q
    ∧ ((s.core c).eng e).frz = false ∧ (s.core c).live = true ∧ m.started = false ∧ nbN m.blk ≠ 0 ∧ nbDkind m.blk = 2 :=
  ⟨0, .c0, engW { blk := blkW 2 }, _, _, rfl, rfl, rfl, rfl, by decide +kernel, by decide +kernel⟩
theorem wit_EnginesAndBanks_claim : ∃ (c : CoreId) (e : Eng) (s : State) (m : EngCmd) (q : List EngCmd) (o : Nat) (b : CircBuf),
    ((s.core c).eng e).q = m :: q ∧ ((s.core c).eng e).frz = false ∧ (s.core c).live = true ∧ o = nbCbCore (s.team c) m.blk
    ∧ b = (s.core o).cb (nbCb m.blk) ∧ m.waitsCb = true ∧ nbDkind m.blk = 2 ∧ b.claims.head? = some (.eng c.val e) ∧ b.en = true
    ∧ b.clm.toNat + nbCbg m.blk ≤ b.size.toNat :=
  by refine ⟨0, .c0, (engW { blk := blkW 2, started := true }).upd fun c => { c with cbs := [(0, { cbW with claims := [.eng 0 .c0] })] }, _, _, _, _, rfl, rfl, rfl,
    rfl, rfl, ?_, ?_, ?_, ?_, ?_⟩ <;> decide +kernel
/-- What every clause of `EnginesAndBanks` about a run asks. -/
abbrev RunOk (c : CoreId) (e : Eng) (s u : State) (m : EngCmd) (q : List EngCmd) : Prop :=
  ((s.core c).eng e).q = m :: q ∧ ((s.core c).eng e).frz = false ∧ (s.core c).live = true ∧ m.canWalk = true ∧ (s.core c).obWait m = false
    ∧ missesOf s (.eng c e) (s.team c).ctx (runPages m) = [] ∧ u = learnPages (.eng c e) (s.team c).ctx (runPages m) s
theorem runOk {m : EngCmd} (h : m.canWalk = true ∧ ((engW m).core 0).obWait m = false ∧ missesOf (engW m) (.eng 0 .c0) ((engW m).team 0).ctx (runPages m) = []) :
    ∃ u, RunOk 0 .c0 (engW m) u m [] := ⟨_, rfl, rfl, rfl, h.1, h.2.1, h.2.2, rfl⟩
/-- The command, in the middle of its walk. -/
abbrev runningW : EngCmd := { blk := blkW 0, started := true }
set_option exponentiation.threshold 1024 in
theorem wit_EnginesAndBanks_run : ∃ c e s u m q row t ws o, RunOk c e s u m q ∧ runStarts s c e m ≠ [] ∧ engRow (s.core c) m = some (.ok (row, false))
    ∧ runSteps c e m row false (runStarts s c e m) u = (t, ws, o) ∧ o = none :=
  ⟨0, .c0, engW runningW, _, runningW, [], 0, _, _, none, ⟨rfl, rfl, rfl, by decide +kernel, by decide +kernel, by decide +kernel, rfl⟩, by decide +kernel,
    rfl, Prod.ext rfl (Prod.ext rfl (by decide +kernel)), rfl⟩
set_option exponentiation.threshold 1024 in
theorem wit_EnginesAndBanks_run_ue : ∃ c e s u m q x l ps off, RunOk c e s u m q ∧ runStarts s c e m = x :: l ∧ nbSkind m.blk = 0
    ∧ codeNx (nbSfmt m.blk) = none ∧ codeNx (nbDfmt m.blk) = none ∧ nbInb m.blk (nbIndex m.blk x) = true ∧ off = nbSoff m.blk (nbIndex m.blk x)
    ∧ srcPlaces (stepFill c e m x u) c e m (codeAlign (nbSfmt m.blk)) (codeBytes (nbSfmt m.blk)) off = .ok ps :=
  ⟨0, .c0, engW runningW, _, runningW, [], 0, [], _, _, ⟨rfl, rfl, rfl, by decide +kernel, by decide +kernel, by decide +kernel, rfl⟩, by decide +kernel,
    by decide +kernel, by decide +kernel, by decide +kernel, by decide +kernel, rfl, rfl⟩
/-- A write of 8 bytes, to a scratchpad or to memory. -/
abbrev reqW (sp : Option Nat) (a : Word) : Req :=
  { flight := 1, core := 0, kind := .write, elems := [{ ea := a, rep := a, len := 8, data := natBytes 8 0 }], spad := sp }
/-- A write of the walk that waits: one by the core's own peer address is still on its way to the destination. -/
theorem wit_EnginesAndBanks_run_waits : ∃ c e s u m q, RunOk c e s u m q ∧ runStarts s c e m = [] :=
  ⟨0, .c0, (engW runningW).upd fun c => { c with mesh := [reqW (some 0) 0] }, _, runningW, [], ⟨rfl, rfl, rfl, by decide +kernel, by decide +kernel, by decide +kernel, rfl⟩,
    by decide +kernel⟩
theorem wit_EnginesAndBanks_element : ∃ c e s u m q x so d, RunOk c e s u m q ∧ runStarts s c e m = [x] ∧ nbSkind m.blk = 0 ∧ nbDkind m.blk = 0
    ∧ nbFlag m.blk 5 = false ∧ codeNx (nbSfmt m.blk) = none ∧ codeNx (nbDfmt m.blk) = none
    ∧ walkAddr (blkBytes m.blk 8 8) (nbDoff m.blk (nbIndex m.blk x)) = BitVec.ofNat 64 d ∧ d + codeBytes (nbDfmt m.blk) ≤ 0x60000
    ∧ d % codeAlign (nbDfmt m.blk) = 0 ∧ granRace s c c d (codeBytes (nbDfmt m.blk)) .write = none ∧ nbInb m.blk (nbIndex m.blk x) = true
    ∧ walkAddr (blkBytes m.blk 0 8) (nbSoff m.blk (nbIndex m.blk x)) = BitVec.ofNat 64 so ∧ so + codeBytes (nbSfmt m.blk) ≤ 0x60000
    ∧ so % codeAlign (nbSfmt m.blk) = 0 ∧ granRace s c c so (codeBytes (nbSfmt m.blk)) .read = none :=
  by
    refine ⟨0, .c0, engW runningW, _, runningW, [], 0, 0, 2, ⟨rfl, rfl, rfl, ?_, ?_, ?_, rfl⟩, ?_, ?_, ?_, ?_, ?_, ?_, ?_, ?_, ?_, ?_, ?_, ?_, ?_, ?_, ?_⟩ <;> decide +kernel
/-- The same copy with its element beyond the bounds of its source. -/
abbrev outW : EngCmd := { runningW with blk := blkW 0 ||| BitVec.ofNat 1024 (at_ 0x14 16) }
theorem wit_EnginesAndBanks_zero : ∃ c e s u m q x d, RunOk c e s u m q ∧ runStarts s c e m = [x] ∧ nbSkind m.blk = 0 ∧ nbDkind m.blk = 0
    ∧ nbFlag m.blk 5 = false ∧ codeNx (nbSfmt m.blk) = none ∧ codeNx (nbDfmt m.blk) = none
    ∧ walkAddr (blkBytes m.blk 8 8) (nbDoff m.blk (nbIndex m.blk x)) = BitVec.ofNat 64 d ∧ d + codeBytes (nbDfmt m.blk) ≤ 0x60000
    ∧ d % codeAlign (nbDfmt m.blk) = 0 ∧ granRace s c c d (codeBytes (nbDfmt m.blk)) .write = none ∧ nbInb m.blk (nbIndex m.blk x) = false
    ∧ nbFlag m.blk 1 = false :=
  by
    refine ⟨0, .c0, engW outW, _, outW, [], 0, 2, ⟨rfl, rfl, rfl, ?_, ?_, ?_, rfl⟩, ?_, ?_, ?_, ?_, ?_, ?_, ?_, ?_, ?_, ?_, ?_, ?_⟩ <;> decide +kernel
/-- A copy of four elements in two units, which count at the barrier object at address 0x5FFF0. -/
abbrev barBlkW : EngCmd := { started := true, pos := 2, blk := BitVec.ofNat 1024 (at_ 8 2 + at_ 0x18 2 + at_ 0x20 4 + at_ 0x2C 1 + at_ 0x38 1 + at_ 0x44 1
  + at_ 0x50 1 + at_ 0x5C 1 + at_ 0x6C 0x5FFF0 + at_ 0x74 1) }
theorem wit_EnginesAndBanks_unit_counts : ∃ (c : CoreId) (e : Eng) (s : State) (m : EngCmd) (q : List EngCmd) (off : Nat), ((s.core c).eng e).q = m :: q
    ∧ ((s.core c).eng e).frz = false ∧ (s.core c).live = true ∧ m.unitDone = true ∧ m.units < nbUnits m.blk ∧ nbN m.blk ≠ 0
    ∧ nbScope m.blk ≠ 4 ∧ nbDkind m.blk ≠ 2 ∧ nbSkind m.blk ≠ 2 ∧ m.obRows = [] ∧ m.arrs = none ∧ nbBar m.blk = some off ∧ off % 16 = 0 ∧ off + 16 ≤ 0x60000 :=
  by refine ⟨0, .c0, engW barBlkW, _, _, 0x5FFF0, rfl, rfl, rfl, ?_, ?_, ?_, ?_, ?_, ?_, rfl, rfl, ?_, ?_, ?_⟩ <;> decide +kernel
theorem wit_EnginesAndBanks_unit_answered : ∃ (c : CoreId) (e : Eng) (s : State) (m : EngCmd) (q : List EngCmd), ((s.core c).eng e).q = m :: q
    ∧ ((s.core c).eng e).frz = false ∧ (s.core c).live = true ∧ m.unitDone = true ∧ m.units < nbUnits m.blk ∧ nbN m.blk ≠ 0
    ∧ nbScope m.blk ≠ 4 ∧ nbDkind m.blk ≠ 2 ∧ nbSkind m.blk ≠ 2 ∧ m.obRows = [] ∧ m.arrs = some 0 ∧ m.ovr = false ∧ (s.core c).getK (nbKctr m.blk) ≠ 0 :=
  by refine ⟨0, .c0, engW { barBlkW with arrs := some 0 }, _, _, rfl, rfl, rfl, ?_, ?_, ?_, ?_, ?_, ?_, rfl, rfl, rfl, ?_⟩ <;> decide +kernel
theorem wit_EnginesAndBanks_unit : ∃ (c : CoreId) (e : Eng) (s : State) (m : EngCmd) (q : List EngCmd), ((s.core c).eng e).q = m :: q
    ∧ ((s.core c).eng e).frz = false ∧ (s.core c).live = true ∧ m.unitDone = true ∧ m.units < nbUnits m.blk ∧ nbN m.blk ≠ 0
    ∧ nbScope m.blk ≠ 4 ∧ nbDkind m.blk ≠ 2 ∧ nbSkind m.blk ≠ 2 ∧ m.obRows = [] ∧ m.arrs = none ∧ nbBar m.blk = none ∧ (s.core c).getK (nbKctr m.blk) ≠ 0 :=
  by refine ⟨0, .c0, engW { blk := blkW 0, started := true, pos := 1 }, _, _, rfl, rfl, rfl, ?_, ?_, ?_, ?_, ?_, ?_, rfl, rfl, ?_, ?_⟩ <;> decide +kernel
/-- Core 0 with a barrier object of two expected arrivals at address 0, and an arrival of `n` at its bank. -/
abbrev arrW (n : BitVec 32) : State := (spW 16 (at_ 0 2 + at_ 6 2)).upd fun c => { c with barArrs := [{ off := 0, kind := .core false, who := 0, n := n }] }
theorem wit_EnginesAndBanks_arrive : ∃ (c : CoreId) (s : State) (r : BarArr) (o : BarObj), (s.core c).barArrs = [r] ∧ r.may s = true
    ∧ r.off < 2 ^ 19 ∧ r.kind ≠ .drop ∧ o = s.barAt c r.off ∧ o.bm = false ∧ o.arr.toNat + r.n.toNat < o.exp.toNat :=
  ⟨0, arrW 1, _, _, rfl, rfl, by decide, by decide, rfl, by decide +kernel, by decide +kernel⟩
theorem wit_EnginesAndBanks_phase : ∃ (c : CoreId) (s : State) (r : BarArr) (o : BarObj), (s.core c).barArrs = [r] ∧ r.may s = true
    ∧ r.off < 2 ^ 19 ∧ r.kind ≠ .drop ∧ o = s.barAt c r.off ∧ o.bm = false ∧ o.arr.toNat + r.n.toNat = o.exp.toNat :=
  ⟨0, arrW 2, _, _, rfl, rfl, by decide, by decide, rfl, by decide +kernel, by decide +kernel⟩
theorem wit_EnginesAndBanks_over : ∃ (c : CoreId) (s : State) (r : BarArr) (o : BarObj), (s.core c).barArrs = [r] ∧ r.may s = true
    ∧ r.off < 2 ^ 19 ∧ r.kind ≠ .drop ∧ o = s.barAt c r.off ∧ o.bm = false ∧ o.exp.toNat < o.arr.toNat + r.n.toNat :=
  ⟨0, arrW 3, _, _, rfl, rfl, by decide, by decide, rfl, by decide +kernel, by decide +kernel⟩
theorem wit_EnginesAndBanks_token : ∃ (c : CoreId) (s : State) (w : Nat) (x : Comparator) (g : BitVec 13) (l : Tab Comparator),
    (s.core c).wcs = (w, x) :: l ∧ x.pend = some g ∧ (s.core c).wakeq.length < 16 :=
  ⟨0, coreW fun c => { c with wcs := [(7, { armed := true, pend := some 1 })], wakeq := List.replicate 15 (0, 0) }, _, _, 1, _, rfl, rfl, by decide⟩
theorem wit_EnginesAndBanks_mesh : ∃ (c : CoreId) (s : State) (r : Req) (e : Elem), (s.core c).mesh = [r] ∧ r.spad = some c.val
    ∧ r.kind = .write ∧ r.elems = [e] ∧ r.grp = false ∧ s.scHeld = [] :=
  ⟨0, coreW fun c => { c with mesh := [reqW (some 0) 0x5FFF8] }, _, _, rfl, rfl, rfl, rfl, rfl, rfl⟩

/-- A line of memory that L2 holds dirty. -/
abbrev lineW (l : Nat) : L2Line := { line := l, ctx := 0, dirty := true }
theorem wit_HomesAndWalks_access : ∃ (s : State) (r : Req) (e : Elem), s.home = [r] ∧ r.spad = none ∧ r.kind = .write ∧ r.elems = [e]
    ∧ r.grp = false ∧ s.scHeld = [] ∧ (s.l2At (lineOf e.ea.toNat)).isSome :=
  ⟨{ State.reset with home := [reqW none 0x10000000], l2 := [lineW 0x200000] }, _, _, rfl, rfl, rfl, rfl, rfl, rfl, by decide⟩
/-- A read of 8 bytes of memory for the load that is under way. -/
abbrev readReqW : Req := { flight := 1, core := 0, kind := .read, elems := [{ ea := 0x10000000, rep := 0x10000000, len := 8 }] }
theorem wit_HomesAndWalks_load : ∃ (s : State) (r : Req) (e : Elem) (f : Flight) (l : List Flight), s.home = [r] ∧ r.spad = none ∧ r.kind = .read
    ∧ r.elems = [e] ∧ e.dst = 0 ∧ (s.core r.core).flights = f :: l ∧ f.id = r.flight ∧ (∀ g ∈ l, g.id ≠ r.flight) ∧ f.dest ≠ .drop
    ∧ (s.l2At (lineOf e.ea.toNat)).isSome :=
  ⟨{ coreW (fun c => { c with flights := [flightW 1] }) with home := [readReqW], l2 := [lineW 0x200000] }, _, _, _, [], rfl, rfl, rfl, rfl, rfl, rfl, rfl,
    by decide, by decide, by decide⟩
/-- What every clause of `HomesAndWalks` about the data of a load asks. -/
abbrev DataCame (c : CoreId) (s : State) (f : Flight) (l : List Flight) : Prop :=
  (s.core c).flights = f :: l ∧ (∀ g ∈ l, g.id ≠ f.id) ∧ f.left = 0 ∧ f.banks = []
    ∧ (∀ x ∈ (s.core c).cal, x.1 ≤ (s.core c).cyc → x.2.isData = false) ∧ f.ord ≠ .acq ∧ f.ord ≠ .sc
theorem wit_HomesAndWalks_data : ∃ c s f l n k sx, DataCame c s f l ∧ f.dest = .g n k sx ∧ f.ue = false :=
  ⟨0, coreW fun c => { c with flights := [flightW 0] }, _, [], 15, 8, false, ⟨rfl, by decide, rfl, rfl, by decide, by decide, by decide⟩, rfl, rfl⟩
theorem wit_HomesAndWalks_data_v : ∃ c s f l n, DataCame c s f l ∧ f.dest = .v n ∧ f.ue = false :=
  ⟨0, coreW fun c => { c with flights := [{ flightW 0 with dest := .v 31 }] }, _, [], 31, ⟨rfl, by decide, rfl, rfl, by decide, by decide, by decide⟩, rfl, rfl⟩
theorem wit_HomesAndWalks_data_ue : ∃ c s f l n k sx, DataCame c s f l ∧ f.dest = .g n k sx ∧ f.ue = true :=
  ⟨0, coreW fun c => { c with flights := [{ flightW 0 with ue := true }] }, _, [], 15, 8, false, ⟨rfl, by decide, rfl, rfl, by decide, by decide, by decide⟩, rfl, rfl⟩
theorem wit_HomesAndWalks_fill : ∃ (sl : Fin 1024) (s : State) (x : BitVec 3) (c : BitVec 2) (l : Nat) (ws : List (BitVec 3 × BitVec 2 × Nat)),
    wantedLines s sl = (x, c, l) :: ws := ⟨1023, { State.reset with prefs := [(7, 3, 1023)] }, 7, 3, 1023, [], rfl⟩
theorem wit_HomesAndWalks_back : ∃ (line : BitVec 41) (s : State) (y : L2Line), s.l2At line.toNat = some y ∧ y.dirty = true
    ∧ y.ue = false ∧ paAperture (128 * line.toNat) = false := ⟨0, { State.reset with l2 := [lineW 0] }, _, rfl, rfl, rfl, by decide⟩
/-- A relaxed addition that drops what it reads. -/
abbrev addW (c : Nat) : Req := { flight := 1, core := c, kind := .atomic { op := .addI64, ord := .rlx, v := 1, c := 0 }, elems := [{ ea := 0, rep := 0, len := 8 }] }
theorem wit_HomesAndWalks_merge : ∃ (sl : Fin 1024) (s : State) (a b : Req) (x y : Amo), s.home = [a, b] ∧ a ≠ b ∧ a.kind = .atomic x
    ∧ b.kind = .atomic y ∧ x.op = .addI64 ∧ y.op = .addI64 ∧ a.combinable s = true ∧ b.combinable s = true ∧ homeSlice a.unit = sl.val
    ∧ b.unit = a.unit ∧ a.elems.map (·.ea) = b.elems.map (·.ea) :=
  ⟨0, { State.reset with home := [addW 0, addW 1] }, addW 0, addW 1, _, _, rfl, by decide, rfl, rfl, rfl, rfl, rfl, rfl, rfl, rfl, rfl⟩
theorem wit_HomesAndWalks_sc : ∃ (s : State) (r : Req) (e : Elem) (x : Amo), s.scHeld = [r] ∧ r.kind = .atomic x ∧ r.elems = [e] ∧ r.spad = none
    ∧ x.ts.toNat ≤ s.horizon.toNat ∧ e.len = amoSize x.op ∧ (s.l2At (lineOf e.ea.toNat)).isSome ∧ r.meetsUe s = false :=
  ⟨{ State.reset with scHeld := [addW 0], l2 := [lineW 0] }, _, _, _, rfl, rfl, rfl, rfl, by decide, rfl, by decide, rfl⟩
/-- A walk of context 0 for the page of address 0x10000000. -/
abbrev walkW (b : Bool) : Walk := { ctx := 0, page := 0x1000, started := b, waiters := [{ who := .fetch 0, va := 0x10000000, perm := { x := true } }] }
theorem wit_HomesAndWalks_walk : ∃ (d : Die) (s : State) (w : Walk) (ws : List Walk), (s.die d).walks = w :: ws ∧ w.started = false
    ∧ (ws.filter (·.started)).length < 32 :=
  ⟨3, { State.reset with dies := [(3, { walks := walkW false :: List.replicate 31 (walkW true) })] }, _, _, rfl, rfl, by decide⟩
/-- Die 0 with that walk under way, and a root table, with its lines in L2. -/
abbrev tabW (root : Nat) : State := { State.reset with
  dies := [(0, { walks := [walkW true] })], ctxs := [(0, { ptRoot := 0x1000 })], l2 := [{ line := 32, ctx := 0 }, { line := 64, ctx := 0 }]
  mem := memWrite (memWrite [] 0x1000 (natBytes 8 root)) 0x2000 (natBytes 8 0xF800000000000000) }
/-- The state in which the walk has read its lines. -/
abbrev readW (s : State) : State := walkReads 0 0x10000000 s
theorem wit_HomesAndWalks_page : ∃ (d : Die) (s u : State) (w : Walk) (ws : List Walk) (p : TlbEnt), (s.die d).walks = w :: ws ∧ w.started = true
    ∧ u = walkReads w.ctx (w.page * 2 ^ 16) s ∧ walkUe u w.ctx (w.page * 2 ^ 16) = none ∧ walkPage u w.ctx (w.page * 2 ^ 16) = .ok p
    ∧ ∀ m ∈ w.waiters, foundFault u p m = none :=
  ⟨0, tabW 0x8000000000002000, _, _, [], pageW, rfl, rfl, rfl, by decide +kernel, rfl, by decide +kernel⟩
theorem wit_HomesAndWalks_fault : ∃ (d : Die) (s u : State) (w : Walk) (ws : List Walk) (f : TFault), (s.die d).walks = w :: ws ∧ w.started = true
    ∧ u = walkReads w.ctx (w.page * 2 ^ 16) s ∧ walkUe u w.ctx (w.page * 2 ^ 16) = none ∧ walkPage u w.ctx (w.page * 2 ^ 16) = .error f :=
  ⟨0, tabW 0, _, _, [], _, rfl, rfl, rfl, by decide +kernel, rfl⟩
theorem wit_HomesAndWalks_ue : ∃ (d : Die) (s u : State) (w : Walk) (ws : List Walk) (l : Fin 4), (s.die d).walks = w :: ws ∧ w.started = true
    ∧ u = walkReads w.ctx (w.page * 2 ^ 16) s ∧ 4 ≤ (walkLines u w.ctx (w.page * 2 ^ 16) 3 (s.ctx w.ctx.toNat).ptRoot).length + l.val :=
  ⟨0, tabW 0, _, _, [], 3, rfl, rfl, rfl, by decide +kernel⟩
theorem wit_Clocks : ∃ (s : State) (i : Nat) (c : Core) (v : Nat), tabGet? s.cores i = some c ∧ (∃ p ∈ s.cores, p.2.runs = true ∧ horizonReport s p.1 = v)
    ∧ ∀ p ∈ s.cores, p.2.runs = true → v ≤ horizonReport s p.1 :=
  ⟨coreW fun c => { c with run := .running, lclk := 7 }, 0, _, 7, rfl, ⟨_, .head _, rfl, rfl⟩, by decide⟩

/-- The first frame under a key finds a number. -/
theorem room_of {s : State} {p n : Nat} (h : (s.port p).frames = 0) (hn : n ≤ 4096) : s.frameRoom p 1 n = true :=
  decide_eq_true (by rw [h]; unfold keyFrames; omega)
/-- The head command of a core may leave. -/
theorem depart_of {s : State} {i n : Nat} {b : Binding} {m : ChanCmd} {q : List ChanCmd} (hq : (s.core i).chq.q = m :: q)
    (hb : s.bound i m.chan = some (n, b)) (hf : (s.core i).chq.frz = false) (hl : (s.core i).live = true) (hc : (s.core i).chq.first ≤ (s.core i).cyc)
    (hp : s.linkUp b.port = true) (hr : (s.port b.port).frames = 0) (hu : m.units ≤ b.cred) : s.canDepart i = some (n, b, m) := by
  unfold State.canDepart
  simp only [hq, hb, hf, hl, hp, room_of hr (Nat.le_refl 4096)]
  simp [hc, hu]
/-- A port of a module whose cores are one. -/
theorem ready_one {s : State} {p : Nat} {k : Nat × Core} (h : s.cores = [k]) : (s.readyBinds p).length ≤ 1 := by
  unfold State.readyBinds
  simp only [h, List.filterMap_cons, List.filterMap_nil]
  split
  · decide
  · simp [List.eraseDups_cons]
/-- A port that the bindings of two cores wait for. -/
theorem ready_two {s : State} {p : Nat} {i j : Nat} {k l : Core} {x y : Nat × Binding × ChanCmd} (h : s.cores = [(i, k), (j, l)])
    (hk : s.canDepart i = some x) (hl : s.canDepart j = some y) (hx : x.2.1.port = p) (hy : y.2.1.port = p) (hn : (y.1 == x.1) = false) : s.readyBinds p = [x.1, y.1] := by
  simp only [State.readyBinds, h, List.filterMap_cons, List.filterMap_nil, hk, hl, Option.bind_some, hx, hy, if_true]
  simp [List.eraseDups_cons, hn]
theorem wit_MessagesLeave_credit : ∃ (s : State) (n : Nat) (b : Binding), tabGet? s.binds n = some b ∧ n < 2 ^ 32 ∧ s.farEnd b = true
    ∧ s.linkUp b.port = true ∧ 0 < b.pend ∧ s.frameRoom b.port 1 0 = true ∧ b.park + b.infl + 64 ≤ 1024 ∧ b.ch.val < 8 :=
  ⟨chW { bindW with pend := 1, park := 960 }, 0, _, rfl, by decide, rfl, rfl, by decide, room_of rfl (by decide), by decide, by decide⟩
/-- Two ends of ch8 and of the channel that answers it, on dies 0 and 1. -/
abbrev endW (d : Nat) : Binding := { ctx := 0, ch := 8, loc := { rect := true, die := d }, rem := { rect := true, die := 1 - d } }
/-- Module reset with both ends. -/
abbrev pairW (b : Binding) : State := { State.reset with binds := [(0, b), (1, endW 1)] }
theorem wit_MessagesLeave_pair : ∃ (s : State) (n m : Nat) (b : Binding), tabGet? s.binds n = some b ∧ n < 2 ^ 32 ∧ s.farEnd b = true
    ∧ s.linkUp b.port = true ∧ 0 < b.pend ∧ s.frameRoom b.port 1 0 = true ∧ b.park + b.infl + 64 ≤ 1024 ∧ 8 ≤ b.ch.val ∧ s.partner b = some m ∧ m ≠ n :=
  ⟨pairW { endW 0 with pend := 1, infl := 960 }, 0, 1, _, rfl, by decide, rfl, rfl, by decide, room_of rfl (by decide), by decide, by decide, rfl, by decide⟩
theorem wit_MessagesLeave_far : ∃ (s : State) (n : Nat) (b : Binding), tabGet? s.binds n = some b ∧ n < 2 ^ 32 ∧ s.farEnd b = true
    ∧ s.linkUp b.port = true ∧ b.ch.val < 8 ∧ b.cred + 64 ≤ 1024 ∧ s.frameRoom b.port 1 0 = true :=
  ⟨chW { bindW with cred := 960 }, 0, _, rfl, by decide, rfl, rfl, by decide, by decide, room_of rfl (by decide)⟩
theorem wit_MessagesLeave_message : ∃ (c : CoreId) (s : State) (ch : Fin 11) (m : Msg) (q : List ChanCmd) (n : Nat) (b : Binding),
    (s.core c).chq.q = .send ch m :: q ∧ s.bound c ch = some (n, b) ∧ tabGet? s.binds n = some b ∧ PortFree s c n b ∧ msgUnits m ≤ b.cred :=
  ⟨0, (chW { bindW with cred := 4 }).upd fun c => { c with run := .running, chq := { q := [.send 0 (.vector 0)] } }, 0, _, _, 0, _, rfl, rfl, rfl,
    ⟨rfl, rfl, by decide, rfl, rfl, ready_one rfl, room_of rfl (by decide)⟩, by decide⟩
/-- A `send.m` of two segments into buffer 7, to be counted by k1. -/
abbrev sendW : ChanCmd := .sendM 0 0 8192 0 0x6200000000000007 0
theorem wit_MessagesLeave_memory : ∃ (c : CoreId) (s : State) (ch : Fin 11) (a land : Word) (len idx sent k : Nat) (q : List ChanCmd) (n : Nat)
    (b : Binding), (s.core c).chq.q = .sendM ch a len idx land sent :: q ∧ s.bound c ch = some (n, b) ∧ tabGet? s.binds n = some b
    ∧ PortFree s c n b ∧ (ChanCmd.sendM ch a len idx land sent).units ≤ b.cred
    ∧ k = (if lkind land = 1 then min 4096 (len - sent) else len) ∧ granRace s c c (a.toNat + sent) k .read = none ∧ sent + k < len :=
  ⟨0, (chW { bindW with cred := 64 }).upd fun c => { c with run := .running, chq := { q := [sendW] } }, 0, _, _, _, _, _, 4096, _, 0, _, rfl, rfl, rfl,
    ⟨rfl, rfl, by decide, rfl, rfl, ready_one rfl, room_of rfl (by decide)⟩, by decide, by decide, by decide, by decide⟩
theorem wit_MessagesLeave_last : ∃ (c : CoreId) (s : State) (ch : Fin 11) (a land : Word) (len idx sent k : Nat) (q : List ChanCmd) (n : Nat)
    (b : Binding), (s.core c).chq.q = .sendM ch a len idx land sent :: q ∧ s.bound c ch = some (n, b) ∧ tabGet? s.binds n = some b
    ∧ PortFree s c n b ∧ (ChanCmd.sendM ch a len idx land sent).units ≤ b.cred
    ∧ k = (if lkind land = 1 then min 4096 (len - sent) else len) ∧ granRace s c c (a.toNat + sent) k .read = none ∧ len ≤ sent + k
    ∧ land.getLsbD 61 = true ∧ (s.core c).getK (land.extractLsb' 57 4).toNat ≠ 0 :=
  ⟨0, (chW { bindW with cred := 64 }).upd fun c => { c with run := .running, k := [(1, 1)], chq := { q := [.sendM 0 0 8192 0 0x6200000000000007 4096] } }, 0,
    _, _, _, _, _, 4096, _, 0, _, rfl, rfl, rfl,
    ⟨rfl, rfl, by decide, rfl, rfl, ready_one rfl, room_of rfl (by decide)⟩, by decide, by decide, by decide, by decide, by decide, by decide⟩
/-- Granule 0 was written by core 1, of which core 0 knows nothing. -/
abbrev tagW : Tab RaceTag := [(0, { hs := 1, wcore := 1, ent := 0, wser := 5 })]
theorem wit_MessagesLeave_race : ∃ (c : CoreId) (s : State) (ch : Fin 11) (a land : Word) (len idx sent k : Nat) (q : List ChanCmd) (n : Nat)
    (b : Binding), (s.core c).chq.q = .sendM ch a len idx land sent :: q ∧ s.bound c ch = some (n, b) ∧ tabGet? s.binds n = some b
    ∧ PortFree s c n b ∧ (ChanCmd.sendM ch a len idx land sent).units ≤ b.cred
    ∧ k = (if lkind land = 1 then min 4096 (len - sent) else len) ∧ granRace s c c (a.toNat + sent) k .read ≠ none :=
  ⟨0, (chW { bindW with cred := 64 }).upd fun c => { c with run := .running, chq := { q := [sendW] }, tags := tagW }, 0, _, _, _, _, _, 4096, _, 0, _, rfl,
    rfl, rfl, ⟨rfl, rfl, by decide, rfl, rfl, ready_one rfl, room_of rfl (by decide)⟩, by decide, by decide, by decide⟩
/-- Cores 0 and 1, each with a vector to send over port 0, by bindings 0 and 1. -/
abbrev twoW : State := { State.reset with
  cores := [(0, { run := .running, chq := { q := [.send 0 (.vector 0)] } }), (1, { run := .running, chq := { q := [.send 0 (.vector 0)] } })]
  binds := [(0, { bindW with cred := 4 }), (1, { bindW with cred := 4, loc := { rect := true, x0 := 1 } })], cart := nbW }
theorem two_depart_0 : twoW.canDepart 0 = some (0, { bindW with cred := 4 }, .send 0 (.vector 0)) := depart_of rfl rfl rfl rfl (by decide) rfl rfl (by decide)
theorem two_depart_1 : twoW.canDepart 1 = some (1, { bindW with cred := 4, loc := { rect := true, x0 := 1 } }, .send 0 (.vector 0)) :=
  depart_of rfl rfl rfl rfl (by decide) rfl rfl (by decide)
theorem two_ready : twoW.readyBinds 0 = [0, 1] := ready_two (i := 0) (j := 1) rfl two_depart_0 two_depart_1 rfl rfl rfl
theorem wit_MessagesLeave_not_its_turn : ∃ (c : CoreId) (s : State) (n : Nat) (b : Binding) (m : ChanCmd), s.canDepart c = some (n, b, m)
    ∧ tabGet? (s.port b.port).served n = none ∧ 2 ≤ (s.readyBinds b.port).length ∧ nextBind (s.port b.port).last (s.readyBinds b.port) ≠ some n :=
  ⟨0, twoW, 0, _, _, two_depart_0, rfl, show 2 ≤ (twoW.readyBinds 0).length by rw [two_ready]; decide,
    show nextBind (twoW.port 0).last (twoW.readyBinds 0) ≠ some 0 by rw [two_ready]; decide⟩
theorem wit_MessagesLeave_its_turn : ∃ (c : CoreId) (s : State) (n : Nat) (b : Binding) (m : ChanCmd), s.canDepart c = some (n, b, m)
    ∧ tabGet? (s.port b.port).served n = none ∧ 2 ≤ (s.readyBinds b.port).length ∧ nextBind (s.port b.port).last (s.readyBinds b.port) = some n
    ∧ 2 ≤ m.units := ⟨1, twoW, 1, _, _, two_depart_1, rfl, show 2 ≤ (twoW.readyBinds 0).length by rw [two_ready]; decide,
    show nextBind (twoW.port 0).last (twoW.readyBinds 0) = some 1 by rw [two_ready]; decide, by decide⟩

theorem wit_MessagesArrive_parks : ∃ (s : State) (n ti : Nat) (m : Msg) (b : Binding), tabGet? s.binds n = some b ∧ s.linkUp b.port = true
    ∧ s.farEnd b = true ∧ b.ch.val < 8 ∧ msgOk m = true ∧ ti < 2 ^ (b.loc.lw + b.loc.lh) ∧ msgUnits m ≤ b.infl
    ∧ ((∀ k l, m ≠ .segment k l) ∨ b.stream ti ≠ []) :=
  ⟨chW { bindW with infl := 4 }, 0, 0, .vector 0, _, rfl, rfl, rfl, by decide, rfl, by decide, by decide, .inl fun _ _ h => by cases h⟩
theorem wit_MessagesArrive_beyond : ∃ (s : State) (n ti : Nat) (m : Msg) (b : Binding), tabGet? s.binds n = some b ∧ s.linkUp b.port = true
    ∧ s.farEnd b = true ∧ b.ch.val < 8 ∧ msgOk m = true ∧ ti < 2 ^ (b.loc.lw + b.loc.lh) ∧ b.infl < msgUnits m :=
  ⟨chW { bindW with infl := 3 }, 0, 0, .vector 0, _, rfl, rfl, rfl, by decide, rfl, by decide, by decide⟩
theorem wit_MessagesArrive_wire : ∃ (s : State) (n ti : Nat) (m : Msg) (w : List (Nat × Msg)) (b : Binding), tabGet? s.binds n = some b
    ∧ s.linkUp b.port = true ∧ 8 ≤ b.ch.val ∧ b.wire = (ti, m) :: w ∧ msgUnits m ≤ b.infl ∧ ((∀ k l, m ≠ .segment k l) ∨ b.stream ti ≠ []) :=
  ⟨pairW { endW 0 with infl := 1, wire := [(0, .scalar 0)] }, 0, 0, _, _, _, rfl, rfl, by decide, rfl, by decide, .inl fun _ _ h => by cases h⟩
/-- A segment of one granule is parked for core 0, whose buffer 7 has `n` granules. -/
abbrev segW (n : BitVec 13) : State :=
  ({ chW { bindW with park := 1, parked := [(0, [.segment 7 (List.replicate 64 0)])] } with teams := [(0, loneTeam 0)] } : State).upd fun c =>
    { c with run := .running, team := some 0, cbs := [(7, { en := true, size := n, base := 6143 })] }
theorem wit_MessagesArrive_lands : ∃ (s : State) (n ti k j g : Nat) (l : List Byte) (r : List Msg) (b : Binding) (tm : Team) (q : CircBuf),
    tabGet? s.binds n = some b ∧ b.stream ti = .segment k l :: r ∧ canLand s b ti (.segment k l) = true ∧ s.teamAt b = some tm
    ∧ j = tm.coreOf ti ∧ q = (s.core j).cb k ∧ l.length = 64 * g ∧ q.cmt.toNat + g ≤ q.clm.toNat + g
    ∧ (q.head.toNat + q.clm.toNat) % q.size.toNat + g ≤ q.size.toNat :=
  by refine ⟨segW 1, 0, 0, 7, 0, 1, List.replicate 64 0, [], _, _, { en := true, size := 1, base := 6143 }, rfl, rfl, ?_, rfl, ?_,
    ?_, by decide, by decide, by decide⟩ <;> decide +kernel
theorem wit_MessagesArrive_stays : ∃ (s : State) (n ti : Nat) (m : Msg) (r : List Msg) (b : Binding), tabGet? s.binds n = some b
    ∧ b.stream ti = m :: r ∧ canLand s b ti m = false := ⟨segW 0, 0, 0, .segment 7 (List.replicate 64 0), [], _, rfl, rfl, by decide +kernel⟩
theorem wit_MessagesArrive_meet : ∃ (s : State) (n : Nat) (b : Binding), tabGet? s.binds n = some b ∧ b.ch.val < 8 ∧ b.met = false
    ∧ b.refused = false ∧ s.linkUp b.port = true := ⟨chW { bindW with met := false, ch := 7 }, 0, _, rfl, by decide, rfl, rfl, rfl⟩
/-- Core 0 waits for a message, and one is there. -/
abbrev waitW (d : Dest) (o : Option Vec) (m : Msg) : State :=
  (chW { bindW with park := 4, parked := [(0, [m])] }).upd fun c => { c with recvs := [{ ch := 0, dest := d, add := o }] }
theorem wit_MessagesArrive_scalar : ∃ (c : CoreId) (s : State) (r : RecvReq) (l : List RecvReq) (n : Nat) (b : Binding) (m : Msg) (q : List Msg)
    (k : Fin 16) (v : Word), (s.core c).recvs = r :: l ∧ s.bound c r.ch = some (n, b) ∧ tabGet? s.binds n = some b
    ∧ b.stream ((s.team c).index c) = m :: q ∧ msgIsReg m = true ∧ r.dest = .g k 8 false ∧ m = .scalar v :=
  ⟨0, waitW (.g 15 8 false) none (.scalar 7), _, _, 0, _, _, _, 15, 7, rfl, rfl, rfl, rfl, rfl, rfl, rfl⟩
theorem wit_MessagesArrive_adds : ∃ (c : CoreId) (s : State) (r : RecvReq) (l : List RecvReq) (n : Nat) (b : Binding) (m : Msg) (q : List Msg)
    (k : Fin 32) (v o : Vec), (s.core c).recvs = r :: l ∧ s.bound c r.ch = some (n, b) ∧ tabGet? s.binds n = some b
    ∧ b.stream ((s.team c).index c) = m :: q ∧ msgIsReg m = true ∧ r.dest = .v k ∧ m = .vector v ∧ r.add = some o :=
  ⟨0, waitW (.v 31) (some 0) (.vector 0), _, _, 0, _, _, _, 31, 0, 0, rfl, rfl, rfl, rfl, rfl, rfl, rfl, rfl⟩
theorem wit_MessagesArrive_other_kind : ∃ (c : CoreId) (s : State) (r : RecvReq) (l : List RecvReq) (n : Nat) (b : Binding) (m : Msg) (q : List Msg)
    (k : Fin 16) (v : Vec), (s.core c).recvs = r :: l ∧ s.bound c r.ch = some (n, b) ∧ tabGet? s.binds n = some b
    ∧ b.stream ((s.team c).index c) = m :: q ∧ msgIsReg m = true ∧ r.dest = .g k 8 false ∧ m = .vector v :=
  ⟨0, waitW (.g 0 8 false) none (.vector 0), _, _, 0, _, _, _, 0, 0, rfl, rfl, rfl, rfl, rfl, rfl, rfl⟩
theorem wit_MessagesArrive_kind_v : ∃ (c : CoreId) (s : State) (r : RecvReq) (l : List RecvReq) (n : Nat) (b : Binding) (m : Msg) (q : List Msg)
    (k : Fin 32) (v : Word), (s.core c).recvs = r :: l ∧ s.bound c r.ch = some (n, b) ∧ tabGet? s.binds n = some b
    ∧ b.stream ((s.team c).index c) = m :: q ∧ msgIsReg m = true ∧ r.dest = .v k ∧ m = .scalar v :=
  ⟨0, waitW (.v 0) none (.scalar 0), _, _, 0, _, _, _, 0, 0, rfl, rfl, rfl, rfl, rfl, rfl, rfl⟩

theorem wit_Links_again : ∃ (p : PortId) (s : State), s.linkUp p.val = true ∧ (s.port p.val).retx < 16 :=
  ⟨13, { State.reset with ports := [(13, { retx := 15 })] }, rfl, by decide⟩
theorem wit_Links_retrain : ∃ (p : PortId) (s : State), s.linkUp p.val = true ∧ (s.port p.val).retx = 16 :=
  ⟨13, { State.reset with ports := [(13, { retx := 16 })] }, rfl, rfl⟩
theorem wit_Links_ends : ∃ (p : PortId) (s : State), (s.port p.val).retrain = true := ⟨0, { State.reset with ports := [(0, { retrain := true })] }, rfl⟩
theorem wit_Links_keys : ∃ (p : PortId) (s : State), p.val < 8 ∧ (s.port p.val).rekey = .installed :=
  ⟨0, { State.reset with ports := [(0, { rekey := .installed })] }, by decide, rfl⟩
theorem wit_Links_key : ∃ (p : PortId) (s : State) (x : PortSt), p.val < 8 ∧ x = s.port p.val ∧ x.rekey = .none
    ∧ (x.interval.toNat = 0 ∨ x.flits < x.interval.toNat) ∧ x.frames + 2 ^ 30 ≤ 2 ^ 32 :=
  ⟨7, { State.reset with ports := [(7, { interval := 2, flits := 1 })] }, _, by decide, rfl, rfl, .inr (by decide), by decide⟩
theorem wit_Links_key_sent : ∃ (p : PortId) (s : State), p.val < 8 ∧ (s.port p.val).rekey = .sending :=
  ⟨0, { State.reset with ports := [(0, { rekey := .sending })] }, by decide, rfl⟩
theorem wit_Links_key_due : ∃ (p : PortId) (s : State) (x : PortSt), p.val < 8 ∧ x = s.port p.val ∧ x.rekey = .none ∧ 0 < x.interval.toNat
    ∧ x.interval.toNat ≤ x.flits := ⟨0, { State.reset with ports := [(0, { interval := 1, flits := 1 })] }, _, by decide, rfl, rfl, by decide, by decide⟩
theorem wit_Links_key_used : ∃ (p : PortId) (s : State) (x : PortSt), p.val < 8 ∧ x = s.port p.val ∧ x.rekey = .none
    ∧ Config.nonceLimit + 2 ^ 32 ≤ x.frames :=
  ⟨0, { State.reset with ports := [(0, { frames := Config.nonceLimit + 2 ^ 32 })] }, _, by decide, rfl, rfl, Nat.le_refl _⟩
theorem wit_Links_frame : ∃ (p : PortId) (k : Nat) (s : State), p.val < 8 ∧ s.linkUp p.val = true ∧ (p.val = 6 ∨ p.val = 7)
    ∧ (s.port p.val).holds k = false := ⟨6, 2, State.reset, by decide, rfl, .inl rfl, rfl⟩
theorem wit_Links_frame_sent : ∃ (p : PortId) (s : State), p.val < 8 ∧ s.linkUp p.val = true ∧ (s.port p.val).rekey = .sending :=
  ⟨7, { State.reset with ports := [(7, { rekey := .sending })] }, by decide, rfl, rfl⟩
/-- A frame of the wide-area mode that has left by port 7. -/
abbrev frameW : Frame := { port := 7, keyNo := 0, ctr := 0, udp := some 4791, head := .credit, data := [], time := 0 }
theorem wit_Links_frame_lost : ∃ (p : PortId) (s : State) (n : Nat) (l r : List Frame) (f : Frame), p.val < 8 ∧ s.linkUp p.val = true
    ∧ s.outbox = l ++ f :: r ∧ (l.filter fun q => q.port == p.val).length = n ∧ f.port = p.val ∧ f.udp.isSome = true
    ∧ f.time + 1600 * (s.port p.val).rtt.toNat ≤ s.meshCyc :=
  ⟨7, { State.reset with outbox := [{ frameW with port := 0 }, frameW, frameW], meshCyc := 1600, ports := [(7, { rtt := 1 })] }, 1,
    [{ frameW with port := 0 }, frameW], [], frameW, by decide, rfl, rfl, rfl, rfl, rfl, by decide⟩
theorem wit_Links_frames : ∃ (s : State) (p : Nat) (b : Option Nat) (_ : FrameHead) (l key : List Byte), key = s.frameKey p b (s.port p).keyNo
    ∧ (s.port p).wide = true ∧ l ≠ [] := ⟨{ State.reset with ports := [(7, { wide := true })] }, 7, none, .credit, [0], _, rfl, rfl, by decide⟩
theorem wit_Links_frame_key : ∃ (s : State) (n : Nat) (b : Binding) (x : Sess), tabGet? s.binds n = some b
    ∧ s.cart.sessions.find? (fun y => y.role == .neighbour && y.open_ && y.peer == b.ch.val) = some x := ⟨chW bindW, 0, _, _, rfl, rfl⟩

theorem ok_of {ε α : Type} (r : Except ε α) (a : α) (h : r.toOption = some a) : r = .ok a := by
  cases r with
  | error => nomatch h
  | ok => exact congrArg _ (Option.some.inj h)
theorem error_of {ε α : Type} [DecidableEq ε] (r : Except ε α) (f : ε) (h : (match r with
    | .error e => decide (e = f)
    | .ok _ => false) = true) : r = .error f := by
  cases r with
  | error => exact congrArg _ (of_decide_eq_true h)
  | ok => nomatch h
/-- The block of a sum of one i32 element over group 0, with a fault policy and a root: 0 to all, 4 to the root. -/
abbrev sumW (op fpol root key : Nat) : BitVec 1024 := BitVec.ofNat 1024 (at_ 0 op + at_ 2 9 + at_ 5 2 + at_ 6 fpol + at_ 7 1 + at_ 0x10 0x10000000
  + at_ 0x18 0x10001000 + at_ 0x20 1 + at_ 0x28 4096 + at_ 0x40 root + at_ 0x48 key)
/-- A collective of that block, of two members. -/
abbrev collOfW (b : BitVec 1024) : Coll := { id := 0, core := 0, die := 0, blk := b, baddr := 0, n := 2, member := 0 }
/-- Module reset with a collective, whose die knows the page of its buffers. -/
abbrev inW (c : Coll) : State :=
  { coreW (fun c => { c with k := [(1, 1)] }) with
    ctxs := [(0, { colls := [c] })]
    dies := [(0, { tlb := [pageW] })]
    mem := memWrite [] 0x10000000 (natBytes 4 7) }
/-- A payload can leave while few frames have left under the key of its port. -/
theorem send_of {s : State} {x al j k : Nat} {c : Coll} (hl : s.linkUp (colPorts s x c al j).2 = true) (hf : (s.port (colPorts s x c al j).2).frames = 0)
    (hk : k * (c.wireLen j / 64 + 1) ≤ 2 ^ 32) : canSend s x c al j k = true := by
  have h : s.frameRoom (colPorts s x c al j).2 k (c.wireLen j) = true := by
    refine decide_eq_true ?_
    rw [hf]
    unfold keyFrames
    omega
  simp [canSend, hl, h]
theorem read_of {x : Nat} {c : Coll} {ps : List (TlbEnt × Nat × Nat)} {a n : Nat} {s : State} {b : Bool} (h : (bufBytes x c ps a n s).2.2 = b) :
    ∃ s0 l, bufBytes x c ps a n s = (s0, l, b) := ⟨_, _, by rw [← h]⟩
/-- A chunk of a collective that is still to start at this member. -/
abbrev StartOk (x : CtxId) (id j : Nat) (s : State) (c : Coll) : Prop :=
  s.coll x id = some c ∧ c.ended = false ∧ (c.chunk j).sent = false ∧ j ∈ allChunks c ∧ cbOp c.blk ≠ 5
/-- This member's contribution to a sum, `n` bytes from `a`, which can leave and finds its staging. -/
abbrev SendOk (x : CtxId) (j a n : Nat) (s : State) (c : Coll) : Prop :=
  c.keeps = false ∧ c.sends j = true ∧ summed c.blk = true ∧ c.snap = none ∧ c.lost = [] ∧ a = cbSbuf c.blk + chunkPart c.blk j * cbChunk c.blk
    ∧ n = chunkElems c.blk (chunkPart c.blk j) * cbSize c.blk ∧ canSend s x c (chunkAlgo s x c).1 j (ownCopies c (chunkAlgo s x c).1 j) = true
    ∧ (cbSub c.blk = true → dieRoom s x c j = true)
    ∧ (cbSub c.blk = false → sumPlace c j = c.member → (chunkAlgo s x c).1 ≠ 4 → portRoom s x c (chunkAlgo s x c).1 j = true)
/-- The pieces of that contribution's four bytes. -/
abbrev partW : List (TlbEnt × Nat × Nat) := [(pageW, 0x10000000, 4)]
/-- A sum in place of its own source, which keeps its source. -/
abbrev keepsW : Coll := collOfW (sumW 1 0 0 0 - BitVec.ofNat 1024 (at_ 0x18 0x1000))
theorem wit_CollectiveSteps_keeps : ∃ (x : CtxId) (id j : Nat) (s : State) (c : Coll) (ps : List (TlbEnt × Nat × Nat)),
    StartOk x id j s c ∧ c.keeps = true ∧ c.snap = none ∧ bufRead s x c (cbSbuf c.blk) (cbElems c.blk * cbSize c.blk) = .ready ps
    ∧ (∃ s0 l, bufBytes x c ps (cbSbuf c.blk) (cbElems c.blk * cbSize c.blk) s = (s0, l, false)) :=
  ⟨0, 0, 0, inW keepsW, _, partW, ⟨rfl, rfl, rfl, by decide +kernel, by decide +kernel⟩, by decide +kernel, rfl, by decide +kernel,
    read_of (by decide +kernel)⟩
theorem wit_CollectiveSteps_kept : ∃ (x : CtxId) (id j : Nat) (s : State) (c : Coll), StartOk x id j s c ∧ c.snap.isSome = true ∧ c.sends j = false :=
  ⟨0, 0, 0, inW { collOfW (sumW 3 0 1 0) with snap := some [] }, _, ⟨rfl, rfl, rfl, by decide +kernel, by decide +kernel⟩, rfl, by decide +kernel⟩
theorem wit_CollectiveSteps_start_moves_none : ∃ (x : CtxId) (id j : Nat) (s : State) (c : Coll), StartOk x id j s c ∧ c.keeps = false ∧ c.sends j = false :=
  ⟨0, 0, 0, inW (collOfW (sumW 3 0 1 0)), _, ⟨rfl, rfl, rfl, by decide +kernel, by decide +kernel⟩, by decide +kernel, by decide +kernel⟩
theorem wit_CollectiveSteps_start : ∃ (x : CtxId) (id j a n : Nat) (s : State) (c : Coll), StartOk x id j s c ∧ SendOk x j a n s c
    ∧ bufRead s x c a n = .ready partW ∧ (∃ s0 l, bufBytes x c partW a n s = (s0, l, false)) ∧ sumPlace c j = c.member ∧ (chunkAlgo s x c).1 ≠ 4 :=
  ⟨0, 0, 0, _, _, inW (collOfW (sumW 0 0 0 0)), _, ⟨rfl, rfl, rfl, by decide +kernel, by decide +kernel⟩,
    ⟨by decide +kernel, by decide +kernel, by decide +kernel, rfl, rfl, rfl, rfl, by decide +kernel, by decide +kernel, by decide +kernel⟩,
    by decide +kernel, read_of (by decide +kernel), by decide +kernel, by decide +kernel⟩
theorem wit_CollectiveSteps_start_copies : ∃ (x : CtxId) (id j a n : Nat) (s : State) (c : Coll), StartOk x id j s c ∧ SendOk x j a n s c
    ∧ bufRead s x c a n = .ready partW ∧ (∃ s0 l, bufBytes x c partW a n s = (s0, l, false)) ∧ ownCopies c (chunkAlgo s x c).1 j ≠ 0
    ∧ (colPorts s x c (chunkAlgo s x c).1 j).2 < 8 :=
  ⟨0, 0, 0, _, _, inW { collOfW (sumW 0 0 0 0) with member := 1 }, _, ⟨rfl, rfl, rfl, by decide +kernel, by decide +kernel⟩,
    ⟨by decide +kernel, by decide +kernel, by decide +kernel, rfl, rfl, rfl, rfl, send_of (by decide +kernel) (by decide +kernel) (by decide +kernel),
      by decide +kernel, by decide +kernel⟩,
    by decide +kernel, read_of (by decide +kernel), by decide +kernel, by decide +kernel⟩
theorem wit_CollectiveSteps_start_error : ∃ (x : CtxId) (id j a n : Nat) (s : State) (c : Coll), StartOk x id j s c ∧ SendOk x j a n s c
    ∧ bufRead s x c a n = .ready partW ∧ (∃ s0 l, bufBytes x c partW a n s = (s0, l, true)) :=
  ⟨0, 0, 0, _, _, { inW (collOfW (sumW 0 0 0 0)) with ueLines := [0x200000] }, _, ⟨rfl, rfl, rfl, by decide +kernel, by decide +kernel⟩,
    ⟨by decide +kernel, by decide +kernel, by decide +kernel, rfl, rfl, rfl, rfl, by decide +kernel, by decide +kernel, by decide +kernel⟩,
    by decide +kernel, read_of (by decide +kernel)⟩
theorem wit_CollectiveSteps_start_sub : ∃ (x : CtxId) (id j a n : Nat) (s : State) (c : Coll), StartOk x id j s c ∧ SendOk x j a n s c
    ∧ bufRead s x c a n = .ready partW ∧ (∃ s0 l, bufBytes x c partW a n s = (s0, l, false)) ∧ cbSub c.blk = true ∧ sumPlace c j ≠ c.member :=
  ⟨0, 0, 0, _, _, inW { collOfW (sumW 0 0 0 0 + BitVec.ofNat 1024 (at_ 8 0x40000080)) with member := 1 }, _,
    ⟨rfl, rfl, rfl, by decide +kernel, by decide +kernel⟩,
    ⟨by decide +kernel, by decide +kernel, by decide +kernel, rfl, rfl, rfl, rfl, by decide +kernel, by decide +kernel, by decide +kernel⟩,
    by decide +kernel, read_of (by decide +kernel), by decide +kernel, by decide +kernel⟩
theorem wit_CollectiveSteps_start_fault : ∃ (x : CtxId) (id j a n : Nat) (s : State) (c : Coll) (f : BitVec 32), StartOk x id j s c ∧ SendOk x j a n s c
    ∧ bufRead s x c a n = .fault f :=
  ⟨0, 0, 0, _, _, inW { collW with blk := BitVec.ofNat 1024 (colW + at_ 0x18 0x1000) }, _, 3, ⟨rfl, rfl, rfl, by decide +kernel, by decide +kernel⟩,
    ⟨by decide +kernel, by decide +kernel, by decide +kernel, rfl, rfl, rfl, rfl, by decide +kernel, by decide +kernel, by decide +kernel⟩, by decide +kernel⟩
/-- A barrier of two members. -/
abbrev flitW (m : Nat) : Coll := { collOfW (sumW 5 0 0 0) with member := m }
theorem wit_CollectiveSteps_barrier : ∃ (x : CtxId) (id al : Nat) (s : State) (c : Coll), s.coll x id = some c ∧ c.ended = false ∧ cbOp c.blk = 5
    ∧ (c.chunk c.member).sent = false ∧ al = (chunkAlgo s x c).1 ∧ canSend s x c al c.member (ownCopies c al c.member) = true
    ∧ ownCopies c al c.member ≠ 0 ∧ (colPorts s x c al c.member).2 < 8 :=
  ⟨0, 0, _, inW (flitW 1), _, rfl, rfl, by decide +kernel, rfl, rfl, send_of (by decide +kernel) (by decide +kernel) (by decide +kernel), by decide +kernel,
    by decide +kernel⟩
theorem wit_CollectiveSteps_barrier_arrives : ∃ (x : CtxId) (id m al : Nat) (s : State) (c : Coll), s.coll x id = some c ∧ c.ended = false ∧ cbOp c.blk = 5
    ∧ m < c.n ∧ m ∉ c.lost ∧ m ∉ c.seen ∧ cbSub c.blk = false ∧ al = c.algoOf s x m ∧ s.linkUp (colPorts s x c al m).1 = true
    ∧ canSend s x c al m (resCopies c al m) = true :=
  ⟨0, 0, 1, _, inW (flitW 0), _, rfl, rfl, by decide +kernel, by decide, by decide, by decide, by decide +kernel, rfl, by decide +kernel,
    send_of (by decide +kernel) (by decide +kernel) (by decide +kernel)⟩
/-- What brings a contribution of member `m` to this member's port. -/
abbrev ComesOk (x : CtxId) (id m j al : Nat) (s : State) (c : Coll) : Prop :=
  s.coll x id = some c ∧ c.ended = false ∧ m < c.n ∧ c.lost = [] ∧ cbSub c.blk = false ∧ al = c.algoOf s x j
    ∧ s.linkUp (colPorts s x c al j).1 = true
theorem wit_CollectiveSteps_arrives : ∃ (x : CtxId) (id m j al : Nat) (data : List Byte) (s : State) (c : Coll), ComesOk x id m j al s c ∧ summed c.blk = true
    ∧ data.length = c.wireLen j ∧ j ∈ allChunks c ∧ c.sumsHere j = true ∧ portRoom s x c al j = true :=
  ⟨7, 0, 1, 0, _, List.replicate ((collOfW (sumW 0 0 0 0)).wireLen 0) 0, { State.reset with ctxs := [(7, { colls := [collOfW (sumW 0 0 0 0)] })] }, _,
    ⟨rfl, rfl, by decide, rfl, by decide +kernel, rfl, by decide +kernel⟩, by decide +kernel, List.length_replicate, by decide +kernel, by decide +kernel,
    by decide +kernel⟩
/-- Member 1 of four of a tree whose chunk 0 is summed at member 0. -/
abbrev treeW : Coll := { collOfW (sumW 0 0 0 0 + BitVec.ofNat 1024 (at_ 4 3)) with n := 4, member := 1 }
/-- What the clause about passing on asks besides. -/
abbrev PassOk (x m j al : Nat) (data : List Byte) (s : State) (c : Coll) : Prop :=
  summed c.blk = true ∧ data.length = c.wireLen j ∧ j ∈ allChunks c ∧ c.sumsHere j = false ∧ m ∉ (c.chunk j).fwd
    ∧ canSend s x c al j (fwdCopies c al j m) = true
theorem wit_CollectiveSteps_passes : ∃ (x : CtxId) (id m j al : Nat) (data : List Byte) (s : State) (c : Coll), ComesOk x id m j al s c
    ∧ PassOk x m j al data s c ∧ fwdCopies c al j m ≠ 0 :=
  ⟨0, 0, 3, 0, _, List.replicate (treeW.wireLen 0) 0, inW treeW, _, ⟨rfl, rfl, by decide, rfl, by decide +kernel, rfl, by decide +kernel⟩,
    ⟨by decide +kernel, List.length_replicate, by decide +kernel, by decide +kernel, by decide, send_of (by decide +kernel) (by decide +kernel) (by decide +kernel)⟩,
    by decide +kernel⟩
theorem wit_CollectiveSteps_passes_none : ∃ (x : CtxId) (id m j al : Nat) (data : List Byte) (s : State) (c : Coll), ComesOk x id m j al s c
    ∧ PassOk x m j al data s c ∧ fwdCopies c al j m = 0 :=
  ⟨0, 0, 2, 0, _, List.replicate (treeW.wireLen 0) 0, inW treeW, _, ⟨rfl, rfl, by decide, rfl, by decide +kernel, rfl, by decide +kernel⟩,
    ⟨by decide +kernel, List.length_replicate, by decide +kernel, by decide +kernel, by decide, send_of (by decide +kernel) (by decide +kernel) (by decide +kernel)⟩,
    by decide +kernel⟩
/-- A chunk of a sum whose every contribution is here, and whose result can leave. -/
abbrev SumOk (x : CtxId) (id j n : Nat) (s : State) (c : Coll) : Prop :=
  s.coll x id = some c ∧ c.ended = false ∧ c.sumsHere j = true ∧ (c.chunk j).sent = true ∧ (c.chunk j).result = none ∧ j ∈ allChunks c
    ∧ (∀ m, m < c.n → m ∉ c.lost → (tabGet? (c.chunk j).parts m).isSome = true)
    ∧ canSend s x c (c.chunk j).algo j (resCopies c (c.chunk j).algo j) = true ∧ n = chunkElems c.blk (chunkPart c.blk j)
/-- Two contributions to chunk 0. -/
abbrev partsW : Tab Chunk := [(0, { sent := true, algo := 2, parts := [(0, natBytes 4 1), (1, natBytes 4 2)] })]
theorem wit_CollectiveSteps_sum : ∃ (x : CtxId) (id j n : Nat) (s : State) (c : Coll), SumOk x id j n s c
    ∧ resultNow s x c j (n * cbSize c.blk) = .ready [] ∧ c.writes j = false :=
  ⟨0, 0, 0, _, inW { collOfW (sumW 4 0 1 0) with chunks := partsW }, _,
    ⟨rfl, rfl, by decide +kernel, rfl, rfl, by decide +kernel, by decide, send_of (by decide +kernel) (by decide +kernel) (by decide +kernel), rfl⟩,
    by decide +kernel, by decide +kernel⟩
theorem wit_CollectiveSteps_sum_written : ∃ (x : CtxId) (id j n : Nat) (s : State) (c : Coll), SumOk x id j n s c
    ∧ resultNow s x c j (n * cbSize c.blk) = .ready [(pageW, 0x10001000, 4)] :=
  ⟨0, 0, 0, _, inW { collOfW (sumW 0 0 0 0) with chunks := partsW }, _,
    ⟨rfl, rfl, by decide +kernel, rfl, rfl, by decide +kernel, by decide, send_of (by decide +kernel) (by decide +kernel) (by decide +kernel), rfl⟩, by decide +kernel⟩
/-- A block of a sum whose buffers are in no global memory. -/
abbrev nowhereW (op root : Nat) : BitVec 1024 := BitVec.ofNat 1024 (colW - at_ 8 0x40000000 + at_ 0 op + at_ 0x40 root)
theorem wit_CollectiveSteps_sum_fault : ∃ (x : CtxId) (id j n : Nat) (s : State) (c : Coll), SumOk x id j n s c
    ∧ resultNow s x c j (n * cbSize c.blk) = .fault 3 :=
  ⟨0, 0, 0, _, inW { collOfW (nowhereW 0 0) with chunks := partsW }, _,
    ⟨rfl, rfl, by decide +kernel, rfl, rfl, by decide +kernel, by decide, send_of (by decide +kernel) (by decide +kernel) (by decide +kernel), rfl⟩, by decide +kernel⟩
theorem wit_CollectiveSteps_i32 : ∃ (b : Blk) (ps : List (List Byte)) (n e : Nat), cbDtype b = 9 ∧ cbRop b = 0 ∧ ps ≠ [] ∧ (∀ p ∈ ps, p.length = 4 * n)
    ∧ e < n := by refine ⟨sumW 0 0 0 0, [natBytes 4 1, natBytes 4 0xFFFFFFFF], 1, 0, ?_, ?_, by decide, by decide, by decide⟩ <;> decide +kernel
/-- A result that comes to a member whose chunk has started, and that can go on. -/
abbrev ResultOk (x : CtxId) (id j n : Nat) (data : List Byte) (lost : List Nat) (s : State) (c : Coll) : Prop :=
  s.coll x id = some c ∧ c.ended = false ∧ (c.chunk j).written = false ∧ summed c.blk = true ∧ c.sumsHere j = false ∧ j ∈ allChunks c
    ∧ (c.chunk j).sent = true ∧ cbSub c.blk = false ∧ s.linkUp (colPorts s x c (c.chunk j).algo j).1 = true ∧ data.length = c.wireLen j
    ∧ n = chunkElems c.blk (chunkPart c.blk j) * cbSize c.blk
    ∧ canSend s x c (c.chunk j).algo j (resCopies { c with lost := (c.lost ++ lost).eraseDups } (c.chunk j).algo j) = true
/-- Members that take a result. -/
abbrev takesW : Coll := { collOfW (sumW 0 2 0 0) with n := 3, member := 2, chunks := partsW }
/-- See `takesW`. -/
abbrev takesNowhereW : Coll := { collOfW (nowhereW 0 0) with member := 1, chunks := partsW }
theorem wit_CollectiveSteps_result : ∃ (x : CtxId) (id j n : Nat) (data : List Byte) (lost : List Nat) (s : State) (c : Coll), ResultOk x id j n data lost s c
    ∧ resultNow s x c j n = .ready [(pageW, 0x10001000, 4)] ∧ lost ≠ [] :=
  ⟨0, 0, 0, _, List.replicate (takesW.wireLen 0) 9, [1], inW takesW, _,
    ⟨rfl, rfl, rfl, by decide +kernel, by decide +kernel, by decide +kernel, rfl, by decide +kernel, by decide +kernel, List.length_replicate, rfl,
      send_of (by decide +kernel) (by decide +kernel) (by decide +kernel)⟩, by decide +kernel, by decide⟩
theorem wit_CollectiveSteps_result_fault : ∃ (x : CtxId) (id j n : Nat) (data : List Byte) (lost : List Nat) (s : State) (c : Coll), ResultOk x id j n data lost s c
    ∧ resultNow s x c j n = .fault 3 :=
  ⟨0, 0, 0, _, List.replicate (takesNowhereW.wireLen 0) 9, [], inW takesNowhereW, _,
    ⟨rfl, rfl, rfl, by decide +kernel, by decide +kernel, by decide +kernel, rfl, by decide +kernel, by decide +kernel, List.length_replicate, rfl,
      send_of (by decide +kernel) (by decide +kernel) (by decide +kernel)⟩, by decide +kernel⟩
theorem wit_CollectiveSteps_lost : ∃ (x : CtxId) (id m : Nat) (s : State) (c : Coll), s.coll x id = some c ∧ c.ended = false ∧ m < c.n ∧ m ∉ c.lost
    ∧ c.misses m = true ∧ cbFpol c.blk % 4 = 2 := ⟨0, 0, 1, inW (collOfW (sumW 0 6 0 0)), _, rfl, rfl, by decide, by decide, by decide +kernel, by decide +kernel⟩
theorem wit_CollectiveSteps_lost_ends : ∃ (x : CtxId) (id m : Nat) (s : State) (c : Coll), s.coll x id = some c ∧ c.ended = false ∧ m < c.n ∧ m ∉ c.lost
    ∧ c.misses m = true ∧ cbFpol c.blk % 4 ≠ 2 := ⟨0, 0, 1, inW (collOfW (sumW 0 1 0 0)), _, rfl, rfl, by decide, by decide, by decide +kernel, by decide +kernel⟩
theorem wit_CollectiveSteps_misses : ∃ (c : Coll) (m : Nat), m = c.member ∨ m ∉ c.seen := ⟨collOfW (sumW 0 0 0 0), 0, .inl rfl⟩
/-- Such a block with its record's address. -/
abbrev crecW (b : BitVec 1024) : BitVec 1024 := b + BitVec.ofNat 1024 (at_ 0x38 0x10002000)
theorem wit_CollectiveSteps_record : ∃ (x : CtxId) (id : Nat) (s : State) (c : Coll), s.coll x id = some c
    ∧ bufNow s x c (cbCrec c.blk) 64 { w := true } = .ready [(pageW, 0x10002000, 64)] ∧ c.ended = false ∧ c.done = true
    ∧ (s.core c.core).getK (cbKctr c.blk) ≠ 0 ∧ bitOf (cbGzkey c.blk) 63 = true :=
  ⟨0, 0, inW { collOfW (crecW (sumW 0 0 0 (2 ^ 63))) with chunks := [(0, { sent := true, written := true })] }, _, rfl, by decide +kernel, rfl,
    by decide +kernel, by decide +kernel, by decide +kernel⟩
theorem wit_CollectiveSteps_ended : ∃ (x : CtxId) (id : Nat) (s : State) (c : Coll), s.coll x id = some c
    ∧ bufNow s x c (cbCrec c.blk) 64 { w := true } = .ready [(pageW, 0x10002000, 64)] ∧ c.ended = true :=
  ⟨0, 0, inW { collOfW (crecW (sumW 0 0 0 0)) with ended := true, status := 2, fcode := 1 }, _, rfl, by decide +kernel, rfl⟩
theorem wit_CollectiveSteps_record_fault : ∃ (x : CtxId) (id : Nat) (s : State) (c : Coll), s.coll x id = some c
    ∧ bufNow s x c (cbCrec c.blk) 64 { w := true } = .fault 3 ∧ c.done = true ∧ (s.core c.core).getK (cbKctr c.blk) ≠ 0 :=
  ⟨0, 0, inW { collOfW (sumW 0 0 0 0) with chunks := [(0, { sent := true, written := true })] }, _, rfl, by decide +kernel, by decide +kernel,
    by decide +kernel⟩
theorem wit_CollectiveSteps_token : ∃ (x : CtxId) (job : Nat) (g : Fin 64) (s : State) (gr : Group) (c : Coll), tabGet? (s.ctx x).groups g = some gr
    ∧ job = ((s.ctx x).job).getD 0 ∧ (s.ctx x).abp = false ∧ gr.n = 2 ∧ c ∈ (s.ctx x).colls ∧ cbGroup c.blk = g.val ∧ c.ended = false :=
  ⟨0, 5, 0, { State.reset with ctxs := [(0, { job := some 5, groups := [(0, { n := 2, member := 0 })], colls := [collOfW (sumW 0 0 0 0)] })] }, _,
    collOfW (sumW 0 0 0 0), rfl, rfl, rfl, rfl, .head _, by decide +kernel, rfl⟩

/-- An entry of class 0, stage 0 and tag 1 in a Gazetteer. -/
abbrev entW : GzEnt := { id := 7, key := 0x10000 }
theorem wit_GazetteerSteps_retires : ∃ (d : Die) (s : State) (e : GzEnt), QuietDie s d ∧ (∀ p ∈ s.cores, p.2.defer = none ∧ p.2.gzAsk = none) ∧ e ∈ (s.die d).gz
    ∧ e.st = .retired := ⟨3, { State.reset with dies := [(3, { gz := [{ entW with st := .retired }] })] }, _, by decide, by decide, .head _, rfl⟩
theorem wit_GazetteerSteps_put : ∃ (d : Die) (i : Nat) (k : Core) (q : Defer) (key : BitVec 48) (idx : BitVec 16) (p : BitVec 512) (draws : Bool) (s : State),
    QuietDie s d ∧ s.cores = [(i, k)] ∧ coreDie i = d ∧ k.defer = some q ∧ q.op = .gzPut key idx p draws ∧ q.sent = true ∧ q.ans = none
    ∧ (∀ e ∈ (s.die d).gz, e.st ≠ .retired) ∧ (s.die d).gzRefuses key idx.toNat = false ∧ (s.die d).gzRoom (s.gzKept d none) key = true :=
  ⟨0, 239, { defer := some { slot := 7, op := .gzPut 0 0 1 false, sent := true } }, _, 0, 0, 1, false,
    { State.reset with cores := [(239, { defer := some { slot := 7, op := .gzPut 0 0 1 false, sent := true } })], dies := [(0, gzW)] },
    by decide, rfl, by decide, rfl, rfl, rfl, rfl, by decide, by decide, by decide⟩
theorem wit_GazetteerSteps_entry : ∃ (k : BitVec 48) (x : DieSt), clsOrd (x.cls k) = false ∧ x.gzWaiting k = none := ⟨0, gzW, by decide, by decide⟩
theorem wit_GazetteerSteps_fold : ∃ (k : BitVec 48) (x : DieSt) (e : GzEnt), clsOrd (x.cls k) = false ∧ x.gzWaiting k = some e ∧ e.ncon ≠ 0xFFFFFFFF
    ∧ clsOp (x.cls k) = 3 := ⟨0x10000, { gzW with gz := [{ entW with ncon := 0xFFFFFFFE }] }, _, by decide, rfl, by decide, by decide⟩
/-- An ordered i32 class of two sources. -/
abbrev ordW (e : GzEnt) : State := { State.reset with dies := [(0, { gz := [e], classTab := [(0, 0xC030000000020000)] })] }
theorem wit_GazetteerSteps_sweep : ∃ (d : Die) (s : State) (e : GzEnt) (w : Word), e ∈ (s.die d).gz ∧ w = (s.die d).cls e.key ∧ clsOrd w = true
    ∧ e.elig = none ∧ e.st = .waiting ∧ e.slots.length = clsNexp w ∧ clsOp w = 3 ∧ e.sweep = 0 :=
  ⟨0, ordW { entW with slots := [(0, 1), (1, 2)] }, _, _, .head _, rfl, by decide, rfl, rfl, by decide, by decide, rfl⟩
theorem wit_GazetteerSteps_sweep_last : ∃ (d : Die) (s : State) (e : GzEnt) (w : Word), e ∈ (s.die d).gz ∧ w = (s.die d).cls e.key ∧ clsOrd w = true
    ∧ e.elig = none ∧ e.st = .waiting ∧ e.slots.length = clsNexp w ∧ clsOp w = 3 ∧ e.sweep ≠ 0 ∧ e.sweep + 1 = clsNexp w :=
  ⟨0, ordW { entW with slots := [(0, 1), (1, 2)], sweep := 1 }, _, _, .head _, rfl, by decide, rfl, rfl, by decide, by decide, by decide, by decide⟩
/-- A stage with one rule, valid for every class, of kind 0, whose records are promoted after a unit of age. -/
abbrev ruleW : Stage := { stageW with blk := BitVec.ofNat 2560 (at_ 0xA0 0x80FF000000000000 + at_ 4 1), due := true }

/-- Die 0 with that stage and a record of it that came at cycle 0. -/
abbrev duesW (cyc : Nat) : State := { State.reset with meshCyc := cyc, dies := [(0, { stages := [ruleW], gz := [{ entW with elig := some 0 }], classTab := [(0, 0x8030000000000000)] })] }
theorem wit_GazetteerSteps_promotes : ∃ (d : Die) (s : State) (g : Stage) (p : GzEnt × Judge), g ∈ (s.die d).stages ∧ p ∈ eligible s d g
    ∧ promoted s.meshCyc g p.1 = true := ⟨0, duesW 2048, ruleW, ({ entW with elig := some 0 }, .go), .head _, by decide +kernel, by decide +kernel⟩
theorem wit_GazetteerSteps_not_yet : ∃ (d : Die) (s : State) (g : Stage), g ∈ (s.die d).stages
    ∧ ∀ g ∈ (s.die d).stages, ∀ p ∈ eligible s d g, promoted s.meshCyc g p.1 = false :=
  ⟨0, duesW 2047, ruleW, .head _, by decide +kernel⟩

/-- The host's launch of a descriptor. -/
abbrev hostW (d : BitVec 512) : Launch := { desc := d, by_ := .host, ctx := 0, die := 0 }
theorem wit_TeamsAndLaunches_stage_first : ∃ (d : Die) (s : State), (s.die d).arb = false ∧ (s.die d).stages.any (stageReady s d) = true :=
  ⟨0, duesW 0, rfl, by decide +kernel⟩
theorem wit_TeamsAndLaunches_once : ∃ (d : Die) (s : State), (s.die d).arb = true := ⟨3, { State.reset with dies := [(3, { arb := true })] }, rfl⟩
/-- A launch at the head of a queue, in a cycle of the arbiter that no stage uses. -/
abbrev HeadOk (d : Die) (s : State) (l : Launch) (r : List Launch) : Prop :=
  (s.die d).lq = l :: r ∧ bitOf (ldNotify l.desc) 1 = false ∧ (s.die d).arb = false ∧ (s.die d).stages.any (stageReady s d) = false
    ∧ s.ownJob (ldCtx l.desc) = true
theorem wit_TeamsAndLaunches_kernel : ∃ (d : Die) (s : State) (l : Launch) (r : List Launch), HeadOk d s l r
    ∧ ldKind l.desc = 0 ∧ s.rectBusy d (ldRect l.desc) = false ∧ (s.ctx (BitVec.ofNat 3 (ldCtx l.desc)).toNat).abp = false ∧ ldSched l.desc = 0
    ∧ (launchReady d l s).ok = true :=
  ⟨0, { State.reset with dies := [(0, { lq := [hostW (BitVec.ofNat 512 (at_ 0xA 0xF + at_ 0xB 7))] })] }, _, _,
    ⟨rfl, by decide +kernel, rfl, by decide +kernel, by decide +kernel⟩, by decide +kernel, by decide +kernel, by decide +kernel, by decide +kernel,
    by decide +kernel⟩
theorem wit_TeamsAndLaunches_kernel_waits : ∃ (d : Die) (s : State) (l : Launch) (r : List Launch), HeadOk d s l r
    ∧ ldKind l.desc = 0 ∧ s.rectBusy d (ldRect l.desc) = false ∧ (launchReady d l s).ok = false :=
  ⟨0, { State.reset with dies := [(0, { lq := [hostW (BitVec.ofNat 512 (at_ 0x28 0x10000000))] })] }, _, _,
    ⟨rfl, by decide +kernel, rfl, by decide +kernel, by decide +kernel⟩, by decide +kernel, by decide +kernel, by decide +kernel⟩
theorem wit_TeamsAndLaunches_other_job : ∃ (d : Die) (s : State) (l : Launch), (s.die d).lq = [l] ∧ (s.die d).arb = false
    ∧ (s.die d).stages.any (stageReady s d) = false ∧ s.ownJob (ldCtx l.desc) = false :=
  ⟨0, { State.reset with ctxs := [(0, { job := some 5 })], dies := [(0, { lq := [hostW 0] })] }, _, rfl, rfl, by decide +kernel, by decide +kernel⟩
theorem wit_TeamsAndLaunches_stage : ∃ (d : Die) (s : State) (l : Launch) (r : List Launch), HeadOk d s l r
    ∧ ldKind l.desc = 1 ∧ ldScope l.desc ≠ 4 ∧ sbKeep l.blk = false ∧ s.rectBusy d (ldRect l.desc) = false :=
  ⟨0, { State.reset with dies := [(0, { lq := [hostW (BitVec.ofNat 512 (at_ 8 1))] })] }, _, _, ⟨rfl, by decide +kernel, rfl, by decide +kernel, by decide +kernel⟩,
    by decide +kernel, by decide +kernel, by decide +kernel, by decide +kernel⟩
theorem wit_TeamsAndLaunches_remove : ∃ (d : Die) (s : State) (l : Launch) (r : List Launch), HeadOk d s l r
    ∧ ldKind l.desc = 2 ∧ (s.die d).hasStage (ldStage l.desc) = true :=
  ⟨0, { State.reset with dies := [(0, { stages := [stageW], lq := [hostW (BitVec.ofNat 512 (at_ 8 2))] })] }, _, _,
    ⟨rfl, by decide +kernel, rfl, by decide +kernel, by decide +kernel⟩, by decide +kernel, by decide +kernel⟩
theorem wit_TeamsAndLaunches_remove_none : ∃ (d : Die) (s : State) (l : Launch) (r : List Launch), HeadOk d s l r
    ∧ ldKind l.desc = 2 ∧ (s.die d).hasStage (ldStage l.desc) = false ∧ ldScope l.desc ≠ 4 :=
  ⟨0, { State.reset with dies := [(0, { lq := [hostW (BitVec.ofNat 512 (at_ 8 2))] })] }, _, _,
    ⟨rfl, by decide +kernel, rfl, by decide +kernel, by decide +kernel⟩, by decide +kernel, by decide +kernel, by decide +kernel⟩
theorem wit_TeamsAndLaunches_removal : ∃ (d : Die) (s : State) (g : Stage) (l : Launch), (s.die d).stages = [g] ∧ g.removing = [l] ∧ g.pick = none ∧ s.teams = []
    ∧ (s.die d).susp = [] ∧ (∀ p ∈ s.cores, p.2.gzKeep = none) ∧ bitOf (ldNotify l.desc) 1 = false ∧ ldScope l.desc ≠ 4 :=
  ⟨3, { State.reset with dies := [(3, { stages := [{ stageW with removing := [hostW (BitVec.ofNat 512 (at_ 8 2))] }] })] }, _, _, rfl, rfl, rfl, rfl, rfl,
    by decide, by decide +kernel, by decide +kernel⟩
theorem wit_TeamsAndLaunches_winner : ∃ (d : Die) (s : State) (g : Stage) (e : GzEnt) (r : Word), (s.die d).stages = [g] ∧ g.due = true
    ∧ g.removing = [] ∧ g.winner = none ∧ g.pick = none ∧ s.ownJob g.ctx.toNat = true ∧ (s.die d).gz.find? (fun q => q.id == e.id) = some e ∧ s.teams = [] ∧ s.binds = [] ∧ (s.die d).susp = [] ∧ (s.die d).gzAgent = [] ∧ (s.die d).gzRet = []
    ∧ (s.die d).regCols = [] ∧ (s.die d).ueGz = [] ∧ (∀ p ∈ s.cores, p.2.defer = none ∧ p.2.gzAsk = none) ∧ (∀ q ∈ (s.die d).gz, q.st ≠ .retired) ∧ (s.ctx g.ctx.toNat).abp = false
    ∧ clsNft ((s.die d).cls e.key) = false ∧ evaluate s d g = some (e, .go, r, false) :=
  ⟨0, duesW 0, _, { entW with elig := some 0 }, 0x80FF000000000000, rfl, rfl, rfl, rfl, rfl, by decide +kernel, rfl, rfl, rfl, rfl, rfl, rfl, rfl, rfl, by decide, by decide, rfl, by decide,
    by decide +kernel⟩
/-- Core 0 as its team's only core. -/
abbrev teamW (r : RunState) (f : Team → Team) : State :=
  { coreW (fun c => { c with run := r, team := some 0 }) with teams := [(0, f { loneTeam 0 with cores := [0] })] }
theorem wit_TeamsAndLaunches_ends : ∃ (o : CoreId) (s : State) (tm : Team), tabGet? s.teams o = some tm ∧ allHalted s tm = true ∧ tm.launch = none
    ∧ tm.stop = none ∧ tm.recId = none ∧ tm.kind = 3 := ⟨0, teamW .halted id, _, rfl, by decide, rfl, rfl, rfl, rfl⟩
theorem wit_TeamsAndLaunches_retires : ∃ (o : CoreId) (s : State) (tm : Team) (id : Nat) (e : GzEnt), tabGet? s.teams o = some tm ∧ allHalted s tm = true
    ∧ tm.launch = none ∧ tm.stop = none ∧ tm.recId = some id ∧ tm.kind = 0 ∧ tm.retired = false ∧ tm.rcmp = false ∧ e ∈ (s.die tm.die).gz ∧ e.id = id :=
  ⟨0, { teamW .halted fun t => { t with kind := 0, recId := some 7 } with dies := [(0, { gz := [{ entW with st := .dispatched }] })] }, _, 7, _, rfl,
    by decide, rfl, rfl, rfl, rfl, rfl, rfl, .head _, rfl⟩
theorem wit_TeamsAndLaunches_save : ∃ (o : CoreId) (s : State) (tm : Team) (r : StopReq), tabGet? s.teams o = some tm ∧ tm.stop = some r
    ∧ tm.recId = none ∧ tm.cores ≠ [] ∧ (∀ i ∈ tm.cores, (s.core i).run = .stopping ∧ drained s i = true) ∧ (∀ i ∈ tm.rect, (s.core i).regUe = false)
    ∧ s.mc.wait = none :=
  ⟨0, teamW .stopping fun t => { t with stop := some { byRule := false, bySoft := true, slot := 0 } }, _, _, rfl, rfl, rfl, by decide, by decide, by decide, rfl⟩
theorem wit_TeamsAndLaunches_doorbell : ∃ (x : CtxId) (s : State), (s.ctx x).db.pend ≠ none :=
  ⟨7, { State.reset with ctxs := [(7, { db := { pend := some 0 } })] }, by decide⟩
theorem wit_TeamsAndLaunches_enqueue : ∃ (x : CtxId) (d : BitVec 512) (s : State), (s.ctx x).db.pend = some d ∧ queueFull s (ldDie d) = false
    ∧ ldKind d ≠ 1 ∧ refusal s .host d none = 0 ∧ bitOf (ldNotify d) 1 = true :=
  ⟨0, BitVec.ofNat 512 (at_ 0xF 3 + at_ 0x38 2), { State.reset with ctxs := [(0, { ctxW with db := { pend := some (BitVec.ofNat 512 (at_ 0xF 3 + at_ 0x38 2)) } })] },
    rfl, by decide +kernel, by decide +kernel, by decide +kernel, by decide +kernel⟩
theorem wit_TeamsAndLaunches_refused : ∃ (x : CtxId) (d : BitVec 512) (s : State), (s.ctx x).db.pend = some d ∧ queueFull s (ldDie d) = false
    ∧ ldKind d ≠ 1 ∧ refusal s .host d none ≠ 0 ∧ bitOf (ldNotify d) 1 = true :=
  ⟨7, BitVec.ofNat 512 (at_ 0x38 2), { State.reset with ctxs := [(7, { db := { pend := some (BitVec.ofNat 512 (at_ 0x38 2)) } })] }, rfl,
    by decide +kernel, by decide +kernel, by decide +kernel, by decide +kernel⟩
theorem wit_TeamsAndLaunches_notice : ∃ (x : CtxId) (s : State), (s.ctx x).db.window = true :=
  ⟨0, { State.reset with ctxs := [(0, { db := { window := true } })] }, rfl⟩

/-- Core 0 with one stash command, the entries of its die, and what its engine has accepted. -/
abbrev stW (op : StashOp) (es : List StashEnt) : State :=
  { coreW (fun c => { c with stash := { q := [{ op := op, desc := BitVec.ofNat 256 (at_ 8 64), tag := 0 }] } }) with dies := [(0, { stash := es })] }
/-- The entry of that command. -/
abbrev seW (st : StashState) : StashEnt := { ctx := 0, stage := 0, tag := 0, sid := 0, st := st, bytes := 64, lens := [64], data := natBytes 64 0 }
theorem wit_StashEngine_put : ∃ (c : CoreId) (s : State) (m : StashCmd), OneCommand s c m ∧ m.op = .put
    ∧ (s.die (coreDie c)).entryOf (jobOf s c m) = none ∧ (s.die (coreDie c)).stash.length < 8192 ∧ sdPolicy m.desc ≠ 3 :=
  ⟨0, stW .put [], _, ⟨rfl, rfl, rfl, rfl, rfl, rfl⟩, rfl, by decide +kernel, by decide, by decide +kernel⟩
theorem wit_StashEngine_get_none : ∃ (c : CoreId) (s : State) (m : StashCmd), OneCommand s c m ∧ m.op = .get
    ∧ (s.die (coreDie c)).entryOf (jobOf s c m) = none := ⟨0, stW .get [], _, ⟨rfl, rfl, rfl, rfl, rfl, rfl⟩, rfl, by decide +kernel⟩
theorem wit_StashEngine_free : ∃ (c : CoreId) (s : State) (m : StashCmd) (e : StashEnt), OneCommand s c m ∧ m.op = .free
    ∧ (s.die (coreDie c)).entryOf (jobOf s c m) = some e ∧ e.st = .resident ∧ (s.core c).getK (m.desc.extractLsb' 128 4).toNat ≠ 0 :=
  ⟨0, (stW .free [seW .resident]).upd fun c => { c with k := [(0, 1)] }, _, seW .resident, ⟨rfl, rfl, rfl, rfl, rfl, rfl⟩, rfl, by decide +kernel, rfl,
    by decide +kernel⟩
/-- Die 0 with an accepted command whose data are moving. -/
abbrev jobW (op : StashOp) (es : List StashEnt) : State := { State.reset with dies := [(0, { stash := es, jobs :=
  [{ core := 0, ctx := 0, stage := 0, op := op, desc := BitVec.ofNat 256 (at_ 0 0x5FFC0 + at_ 8 64), tag := 0, id := 0, moving := true }] })] }
theorem wit_StashEngine_read : ∃ (d : Die) (s : State) (j : StashJob) (k off : Nat) (e : StashEnt), (s.die d).jobs = [j] ∧ j.moving = true ∧ j.op = .put
    ∧ e ∈ (s.die d).stash ∧ e.is j = true ∧ s.jobRuns j = true ∧ stPlace s j .read = .ready (.sp k off) :=
  ⟨0, jobW .put [seW .writing], _, 0, 0x5FFC0, _, rfl, rfl, rfl, .head _, by decide +kernel, by decide +kernel, by decide +kernel⟩
/-- That command with its source at 256 MiB of global memory, whose page no TLB holds. -/
abbrev farW : State := { State.reset with dies := [(0, { stash := [seW .writing], jobs :=
  [{ core := 0, ctx := 0, stage := 0, op := .put, desc := BitVec.ofNat 256 (at_ 0 0x10000000 + at_ 8 64), tag := 0, id := 0, moving := true }] })] }
theorem wit_StashEngine_read_waits : ∃ (d : Die) (s : State) (j : StashJob) (e : StashEnt) (l : List Miss), (s.die d).jobs = [j] ∧ j.moving = true
    ∧ j.op = .put ∧ e ∈ (s.die d).stash ∧ e.is j = true ∧ s.jobRuns j = true ∧ stPlace s j .read = .wait l :=
  ⟨0, farW, _, _, [{ who := .stash 0, va := 0x10000000, perm := { r := true } }], rfl, rfl, rfl, .head _, by decide +kernel, by decide +kernel,
    by decide +kernel⟩
theorem wit_StashEngine_store : ∃ (d : Die) (s : State) (e : StashEnt), (s.die d).stash = [e] ∧ e.st = .writing ∧ e.read = true ∧ e.policy = 2
    ∧ (s.ctx e.ctx.toNat).fatal = false
    ∧ s.regionUsed e.ctx (s.entRegion e) + e.stored ≤ (s.entRegion e).size :=
  ⟨0, { jobW .drop [{ seW .writing with read := true, policy := 2 }] with ctxs := [(0, { spill := { size := 4096 } })] }, _, rfl, rfl, rfl, rfl, rfl,
    by decide +kernel⟩
theorem wit_StashEngine_resident : ∃ (d : Die) (s : State) (e : StashEnt), (s.die d).stash = [e] ∧ e.st = .writing ∧ e.read = true ∧ e.policy ≠ 2
    ∧ (s.ctx e.ctx.toNat).fatal = false
    ∧ s.regionUsed e.ctx (s.entRegion e) + e.stored ≤ (s.entRegion e).size :=
  ⟨0, { jobW .drop [{ seW .writing with read := true }] with ctxs := [(0, { stash := { size := 4096 } })] }, _, rfl, rfl, rfl, by decide, rfl,
    by decide +kernel⟩
theorem wit_StashEngine_frozen : ∃ (d : Die) (s : State) (e : StashEnt), (s.die d).stash = [e] ∧ e.st = .writing ∧ e.read = true
    ∧ (s.ctx e.ctx.toNat).fatal = true :=
  ⟨0, { jobW .drop [{ seW .writing with read := true }] with ctxs := [(0, { fatal := true })] }, _, rfl, rfl, rfl, rfl⟩
theorem wit_StashEngine_no_room : ∃ (d : Die) (s : State) (e : StashEnt), (s.die d).stash = [e] ∧ e.st = .writing ∧ e.read = true
    ∧ (s.entRegion e).size < s.regionUsed e.ctx (s.entRegion e) + e.stored :=
  ⟨0, { jobW .drop [{ seW .writing with read := true }] with ctxs := [(0, { stash := { size := 63 } })] }, _, rfl, rfl, rfl, by decide +kernel⟩
/-- A stash entry whose fetch has room; its spilled form is in line 0x400000. -/
abbrev FetchOk (d : Die) (s : State) (e : StashEnt) : Prop := (s.die d).stash = [e] ∧ e.st = .fetching ∧ (s.ctx e.ctx.toNat).fatal = false
  ∧ s.regionUsed e.ctx (s.ctx e.ctx.toNat).stash + e.stored ≤ (s.ctx e.ctx.toNat).stash.size
/-- See `FetchOk`. -/
abbrev fetchStW : State := { jobW .get [{ seW .fetching with place := [(0x20000000, 64)] }] with ctxs := [(0, { stash := { size := 4096 } })] }
theorem wit_StashEngine_fetch : ∃ (d : Die) (s : State) (e : StashEnt), FetchOk d s e ∧ e.place.any (fun q => s.ueExt q.1 q.2) = false :=
  ⟨0, fetchStW, _, ⟨rfl, rfl, rfl, by decide +kernel⟩, by decide +kernel⟩
theorem wit_StashEngine_fetch_error : ∃ (d : Die) (s : State) (e : StashEnt) (j : StashJob), FetchOk d s e ∧ e.place.any (fun q => s.ueExt q.1 q.2) = true
    ∧ (s.die d).jobs.find? (fun j => e.is j) = some j ∧ j.op = .get ∧ (s.core j.core).stash.q.any (fun m => m.id == j.id) = true
    ∧ (s.core j.core).stash.frz = false :=
  ⟨0, ({ fetchStW with ueLines := [0x400000] } : State).upd fun c => { c with stash := { q := [{ op := .get, desc := 0, tag := 0, sent := true }] } }, _, _,
    ⟨rfl, rfl, rfl, by decide +kernel⟩, by decide +kernel, rfl, rfl, rfl, rfl⟩
/-- Die 0 with a `stash.get` whose entry is resident. -/
abbrev getW : State := (jobW .get [{ seW .resident with data := [], place := [(0x20000000, 64)] }]).upd fun c =>
  { c with stash := { q := [{ op := .get, desc := 0, tag := 0, sent := true }] } }
/-- A `stash.get` whose data are moving to a scratchpad. -/
abbrev GetOk (d : Die) (s : State) (j : StashJob) (k off : Nat) (e : StashEnt) : Prop :=
  (s.die d).jobs = [j] ∧ j.moving = true ∧ j.op = .get ∧ (s.die d).entryOf j = some e ∧ s.jobRuns j = true ∧ stPlace s j .write = .ready (.sp k off)
    ∧ (s.core j.core).stash.q.any (fun m => m.id == j.id) = true ∧ (s.core j.core).stash.frz = false
theorem wit_StashEngine_get : ∃ (d : Die) (s : State) (j : StashJob) (k off : Nat) (e : StashEnt), GetOk d s j k off e
    ∧ e.place.any (fun q => s.ueExt q.1 q.2) = false :=
  ⟨0, getW, _, 0, 0x5FFC0, _, ⟨rfl, rfl, rfl, rfl, by decide +kernel, by decide +kernel, rfl, rfl⟩, by decide +kernel⟩
theorem wit_StashEngine_get_error : ∃ (d : Die) (s : State) (j : StashJob) (k off : Nat) (e : StashEnt), GetOk d s j k off e
    ∧ e.place.any (fun q => s.ueExt q.1 q.2) = true :=
  ⟨0, { getW with ueLines := [0x400000] }, _, 0, 0x5FFC0, _, ⟨rfl, rfl, rfl, rfl, by decide +kernel, by decide +kernel, rfl, rfl⟩, by decide +kernel⟩
theorem wit_StashEngine_record : ∃ (d : Die) (s : State) (r : AgentRec) (l : List AgentRec), (s.die d).stRecs = r :: l :=
  ⟨3, { State.reset with dies := [(3, { stRecs := [{ coll := false, core := 0, key := 0, idx := 0, payload := 0 }] })] }, _, _, rfl⟩
/-- Core 0 with a `wv.commit` of version 3 of tensor 4095, which is STAGED or not, while version 0 is current. -/
abbrev wvW (st : BitVec 2) : State :=
  { coreW (fun c => { c with stash := { q := [{ op := .wvCommit, desc := 0xFFFFFFFF00000FFF, tag := 3 }] } }) with
    dies := [(0, { wdir := [(16380, { st := 2 }), (16383, { st := st, len := 64 })] })] }
theorem wit_StashEngine_version : ∃ (c : CoreId) (s : State) (m : StashCmd) (n v : Nat) (e : WVer), OneCommand s c m ∧ m.op = .wvCommit
    ∧ n = sdBytes m.desc 0 4 ∧ sdBytes m.desc 4 4 = 0xFFFFFFFF ∧ v = m.tag.toNat % 4 ∧ n < 4096
    ∧ tabGet? (s.die (coreDie c)).wdir (4 * n + v) = some e ∧ e.st = 1 :=
  ⟨0, wvW 1, _, 4095, 3, { st := 1, len := 64 }, ⟨rfl, rfl, rfl, rfl, rfl, rfl⟩, rfl, by decide +kernel, by decide +kernel, by decide +kernel, by decide, rfl, rfl⟩
theorem wit_StashEngine_no_version : ∃ (c : CoreId) (s : State) (m : StashCmd) (n v : Nat) (e : WVer), OneCommand s c m ∧ m.op = .wvCommit
    ∧ n = sdBytes m.desc 0 4 ∧ sdBytes m.desc 4 4 = 0xFFFFFFFF ∧ v = m.tag.toNat % 4 ∧ n < 4096
    ∧ tabGet? (s.die (coreDie c)).wdir (4 * n + v) = some e ∧ e.st ≠ 1 :=
  ⟨0, wvW 3, _, 4095, 3, { st := 3, len := 64 }, ⟨rfl, rfl, rfl, rfl, rfl, rfl⟩, rfl, by decide +kernel, by decide +kernel, by decide +kernel, by decide, rfl, by decide⟩

theorem wit_PowerAndSurvey_scrub : ∃ (d : Die) (a : BitVec 48) (s : State), (s.die d).scrub ≠ 0 ∧ paHole a.toNat = false ∧ paAperture a.toNat = false
    ∧ (s.die d).flog.length < 1024 := ⟨3, 0x5FFFFFFF80, { State.reset with dies := [(3, { scrub := 1 })] }, by decide, by decide, by decide, by decide⟩
theorem wit_PowerAndSurvey_scrub_off : ∃ (d : Die) (a : BitVec 48) (s : State), (s.die d).scrub = 0 ∧ paHole a.toNat = false ∧ paAperture a.toNat = false :=
  ⟨3, 0x5FFFFFFF80, State.reset, rfl, by decide, by decide⟩
theorem wit_PowerAndSurvey_corrects : ∃ (d : Die) (tg tw : ScrubTarget), (∀ a, tg = .global a → paHole a.toNat = false ∧ paAperture a.toNat = false)
    ∧ (∃ a, tg = .global a) ∧ (∀ e o, tw = .weightStore e o → e = d) ∧ ∃ e o, tw = .weightStore e o :=
  ⟨3, .global 0, .weightStore 3 0, (fun _ h => by cases h; decide), ⟨_, rfl⟩, (fun _ _ h => by cases h; rfl), _, _, rfl⟩
theorem wit_PowerAndSurvey_l2 : ∃ (l : BitVec 41) (s : State) (y : L2Line), s.l2At l.toNat = some y :=
  ⟨5, { State.reset with l2 := [lineW 5] }, _, rfl⟩
theorem wit_PowerAndSurvey_island : ∃ (i : Fin 128) (s : State), (s.island i).busy = true ∧ (s.island i).hot = false :=
  ⟨127, { State.reset with isles := [(127, { req := 3200, busy := true })] }, rfl, rfl⟩
theorem wit_PowerAndSurvey_rail : ∃ s : State, s.rail ≠ 0 ∧ (∀ p ∈ s.isles, p.2.freq ≤ 3000) ∧ s.isles ≠ [] :=
  ⟨{ State.reset with rail := 400, isles := [(0, { freq := 3000 })] }, by decide, by decide, by decide⟩
theorem wit_PowerAndSurvey_trip : ∃ (x : Nat) (s : State), s.tripped = false ∧ s.survey.recs.length < 65536 ∧ (s.ctx x).live = true :=
  ⟨7, { State.reset with ctxs := [(7, { live := true })] }, rfl, by decide, rfl⟩
/-- Bring-up at a step, while the ring waits for what is given. -/
abbrev bootW (n : Nat) (w : Option McWait) : State := { State.reset with mc := { boot := some n, wait := w } }
theorem wit_PowerAndSurvey_boot : ∃ n s v, (s : State).mc.boot = some n ∧ bootRefused n = false ∧ n < 9 ∧ n = 5 ∧ (v : State).mc.boot = some 8
    ∧ bootRefused 8 = false := ⟨5, bootW 5 none, bootW 8 none, rfl, rfl, by decide, rfl, rfl, rfl⟩
/-- Where the manual's two vendor keys do not check the Cartouche's firmware. -/
theorem wit_PowerAndSurvey_boot_refused (h : bootRefused 2 = true) : ∃ n s, (s : State).mc.boot = some n ∧ bootRefused n = true := ⟨2, bootW 2 none, rfl, h⟩
theorem wit_PowerAndSurvey_boot_ends : ∃ s v : State, s.mc.boot = some 9 ∧ s.mc.wait = none ∧ v.mc.boot = some 9 ∧ v.mc.wait = some .reset :=
  ⟨bootW 9 none, bootW 9 (some .reset), rfl, rfl, rfl, rfl⟩

/-- A module that is ready, with a Cartouche. -/
abbrev cartW (c : Cart) : State := { State.reset with ready := true, cart := c }
theorem wit_HostRequests : ∃ (peer : Nat) (c : BitVec 8) (s : State), s.pcieUp = true ∧ s.cart.sessions.length < 64 ∧ peer ∉ s.cart.negFailed
    ∧ (∀ v, s.cart.job = some v → v = peer) ∧ s.cart.loading = none ∧ (c ≠ 0x86 ∨ s.cart.large = none) :=
  ⟨0, 0x86, cartW {}, rfl, by decide, by decide, (fun _ h => nomatch h), rfl, .inr rfl⟩
theorem wit_HostRequests_chunk : ∃ (l : List Byte) (n : Nat) (s : State), s.pcieUp = true ∧ s.cart.large = some l ∧ n = Config.doeSize + 1 :=
  ⟨[1, 2], _, cartW { large := some [1, 2] }, rfl, rfl, rfl⟩
theorem wit_HostRequests_measurement : ∃ i : BitVec 8, (1 ≤ i.toNat ∧ i.toNat ≤ 4) ∨ (0x10 ≤ i.toNat ∧ i.toNat ≤ 0x17) := ⟨0x17, by decide⟩
theorem wit_HostRequests_no_measurement : ∃ i : BitVec 8, ¬((1 ≤ i.toNat ∧ i.toNat ≤ 4) ∨ (0x10 ≤ i.toNat ∧ i.toNat ≤ 0x17)) := ⟨5, by decide⟩
theorem wit_HostRequests_refused : ∃ (peer : Nat) (s : State), s.pcieUp = true ∧ s.cart.sessions.length < 64 ∧ peer ∈ s.cart.negFailed :=
  ⟨7, cartW { negFailed := [7] }, rfl, by decide, by decide⟩
theorem wit_HostRequests_other_job : ∃ (peer : Nat) (s : State), s.pcieUp = true ∧ s.cart.sessions.length < 64 ∧ ∃ v, s.cart.job = some v ∧ v ≠ peer :=
  ⟨7, cartW { job := some 3 }, rfl, by decide, 3, rfl, by decide⟩
theorem wit_HostRequests_full : ∃ s : State, s.pcieUp = true ∧ 64 ≤ s.cart.sessions.length :=
  ⟨cartW { sessions := List.replicate 64 { id := 1, role := .verifier, peer := 0 } }, rfl, by decide⟩
/-- Session 1 of a verifier. -/
abbrev sessW : Sess := { id := 1, role := .verifier, peer := 0, open_ := true }
theorem wit_HostRequests_session : ∃ (n : Nat) (s : State) (x : Sess), s.pcieUp = true ∧ s.cart.sess n = some x ∧ x.open_ = true :=
  ⟨1, cartW { sessions := [sessW] }, _, rfl, rfl, rfl⟩
theorem wit_HostRequests_unopened : ∃ (n : Nat) (s : State) (x : Sess), s.pcieUp = true ∧ s.cart.sess n = some x ∧ x.open_ = false :=
  ⟨1, cartW { sessions := [{ sessW with open_ := false }] }, _, rfl, rfl, rfl⟩
/-- An element of DER, its length in four bytes. -/
abbrev derW (t : Byte) (l : List Byte) : List Byte := [t, 0x84] ++ beBytes 4 l.length ++ l
/-- A certificate of the key of 4,096 ones, with exponent 1. -/
abbrev certW : List Byte := derW 0x30 (derW 0x30 (derW 0xA0 [] ++ derW 2 [7] ++ derW 0x30 [] ++ derW 0x30 [] ++ derW 0x30 [] ++ derW 0x30 []
  ++ derW 0x30 (derW 0x30 [] ++ derW 3 (0 :: derW 0x30 (derW 2 (List.replicate 512 0xFF) ++ derW 2 [1])))) ++ derW 0x30 [] ++ derW 3 [0])
theorem leaf_certW : leafKey certW = some (BitVec.allOnes 4096, 1) := by decide +kernel
/-- What ends the exchange of a peer with that certificate. -/
abbrev finW (x : Sess) : FinishMsg :=
  { sess := x.id, meas := [(4, 7)], sig := BitVec.ofNat 4096 (bytesNat (pssEncode (finishText x) (List.replicate 64 0)))
    mac := BitVec.ofNat 512 (bytesNat (hmac512 (natBytes 64 (Config.finishKey x.id).toNat) (sessCtx x.id))) }
theorem finish_of (x : Sess) (h : x.chain = certW) : finishOk x (finW x) = true := by
  have hm := natBytes_digest _ (hmac512_length (natBytes 64 (Config.finishKey x.id).toNat) (sessCtx x.id))
  have hs := pssVerify_one (finishText x) (List.replicate 64 0) List.length_replicate
  simp only [finishOk, h, leaf_certW, hm, hs, beq_self_eq_true, Bool.and_true]
/-- A session with a peer of that certificate that is not open yet. -/
abbrev keyedW (r : PeerRole) : Sess := { id := 1, role := r, peer := 9, chain := certW }
theorem wit_HostRequests_finish (r : PeerRole) : ∃ (f : FinishMsg) (s : State) (x : Sess), s.pcieUp = true ∧ s.cart.sess f.sess = some x ∧ x.open_ = false
    ∧ finishOk x f = true ∧ x.role = r := ⟨finW (keyedW r), cartW { sessions := [keyedW r] }, keyedW r, rfl, rfl, rfl, finish_of _ rfl, rfl⟩
theorem wit_HostRequests_finish_fails : ∃ (f : FinishMsg) (s : State) (x : Sess), s.pcieUp = true ∧ s.cart.sess f.sess = some x ∧ x.open_ = false
    ∧ finishOk x f = false := ⟨finW { sessW with open_ := false }, cartW { sessions := [{ sessW with open_ := false }] }, _, rfl, rfl, rfl, rfl⟩
theorem wit_HostRequests_busy : ∃ s : State, s.pcieUp = true ∧ s.cart.loading ≠ none :=
  ⟨cartW { loading := some { off := 0, len := 31 } }, rfl, by decide⟩
theorem wit_HostRequests_unsealed : ∃ (q : LoadReq) (s u : State), s.cart.loading = some q ∧ u = { s with cart := { s.cart with loading := none } }
    ∧ openSeal q.len (s.cart.windowBytes q.off q.len) u = none := ⟨_, cartW { loading := some { off := 0, len := 31 } }, _, rfl, rfl, rfl⟩
theorem wit_HostRequests_changed : ∃ (q : LoadReq) (s u : State), s.cart.loading = some q ∧ u = { s with cart := { s.cart with loading := none } }
    ∧ q.changed = true := ⟨_, cartW { loading := some { off := 0, len := 31, changed := true } }, _, rfl, rfl, rfl⟩
/-- A module that loads an image of one byte 0, sealed by AES-256-GCM under key 0 with nonce 0. -/
abbrev sealW : State := { cartW { jobKey := some 0, loading := some { off := 0, len := 33 }
                                  window := memWrite [] 0 (natBytes 16 0 ++ natBytes 17 0x935D1DE0D4E872EEF73E17E5AB94E44DCE) } with ctxs := [(0, ctxW)] }
theorem wit_HostRequests_sealed : ∃ (q : LoadReq) (x : BitVec 3) (l : List Byte) (s u v : State), s.cart.loading = some q
    ∧ u = { s with cart := { s.cart with loading := none } } ∧ q.changed = false
    ∧ openSeal q.len (s.cart.windowBytes q.off q.len) u = some (x, l, v) ∧ imgSigned s.cart.imgKeys l = false :=
  ⟨_, 0, [0], sealW, _, { sealW with cart := { sealW.cart with loading := none, nonces := [(0, 0)] } }, rfl, rfl, rfl, by decide +kernel,
    by decide +kernel⟩
/-- A window on the last 256 bytes of HBM4E. -/
abbrev winW : State := { State.reset with dmaWins := [{ base := 0x5FFFFFFF00, size := 0x100 }] }
theorem wit_HostRequests_dma : ∃ (pa : BitVec 48) (n : Nat) (s : State), 0 < n ∧ pa.toNat + n ≤ 0x6000000000
    ∧ (∃ w ∈ s.dmaWins, w.base ≤ pa.toNat ∧ pa.toNat + n ≤ w.base + w.size) ∧ pa.toNat % 128 + n ≤ 128 :=
  ⟨0x5FFFFFFFFF, 1, winW, by decide, by decide, ⟨_, .head _, by decide⟩, by decide⟩
theorem wit_HostRequests_no_window : ∃ (pa : BitVec 48) (n : Nat) (s : State), 0 < n ∧ pa.toNat + n ≤ 0x6000000000
    ∧ ∀ w ∈ s.dmaWins, ¬(w.base ≤ pa.toNat ∧ pa.toNat + n ≤ w.base + w.size) := ⟨0x5FFFFFFEFF, 2, winW, by decide, by decide, by decide⟩
theorem wit_HostRequests_write : ∃ (pa : BitVec 48) (l : List Byte) (s : State), 0 < l.length ∧ pa.toNat % 128 + l.length ≤ 128
    ∧ pa.toNat + l.length ≤ 0x6000000000 ∧ Memory.wf s.mem = true ∧ ∃ w ∈ s.dmaWins, w.base ≤ pa.toNat ∧ pa.toNat + l.length ≤ w.base + w.size :=
  ⟨0x5FFFFFFFF0, natBytes 16 7, winW, by decide, by decide, by decide, by decide, _, .head _, by decide⟩

/-- A verifier's session in the module. -/
theorem wit_Cartouche : ∃ (n : Nat) (s : State), Verifier s n ∧ s.cart.jobKey = none ∧ s.cart.anchors.length < 8 ∧ s.cart.refs.length < 16
    ∧ (∀ w ∈ s.cart.switches, w.admitted = false) ∧ s.cart.switches ≠ [] ∧ ∀ y ∈ s.cart.sessions, y.role = .switch → y.open_ = false :=
  ⟨1, cartW { sessions := [sessW], anchors := List.replicate 7 [], refs := (rangeFrom 0 15).map fun i => (i, 0)
              switches := [{ serial := 9, admitted := false }] },
    ⟨rfl, _, rfl, rfl, rfl⟩, rfl, by decide, by decide, by decide, by decide, by decide⟩
theorem wit_Cartouche_key_again : ∃ (n : Nat) (s : State), Verifier s n ∧ s.cart.jobKey.isSome = true ∧ s.ctxs ≠ [] ∧ ∀ p ∈ s.ctxs, p.2.live = false :=
  ⟨1, { cartW { sessions := [sessW], jobKey := some 0 } with ctxs := [(0, {})] }, ⟨rfl, _, rfl, rfl, rfl⟩, rfl, by decide, by decide⟩
theorem wit_Cartouche_key_refused : ∃ (n : Nat) (s : State), Verifier s n ∧ s.cart.jobKey.isSome = true ∧ ∃ p ∈ s.ctxs, p.2.live = true :=
  ⟨1, { cartW { sessions := [sessW], jobKey := some 0 } with ctxs := [(0, { live := true })] }, ⟨rfl, _, rfl, rfl, rfl⟩, rfl, _, .head _, rfl⟩
theorem wit_Cartouche_full : ∃ (n : Nat) (i : BitVec 8) (s : State), Verifier s n ∧ 8 ≤ s.cart.anchors.length ∧ 16 ≤ s.cart.refs.length
    ∧ tabGet? s.cart.refs i.toNat = none :=
  ⟨1, 16, cartW { sessions := [sessW], anchors := List.replicate 8 [], refs := (rangeFrom 0 16).map fun i => (i, 0) }, ⟨rfl, _, rfl, rfl, rfl⟩, by decide,
    by decide, by decide⟩
/-- A switch with a session, in the lowest of three paths, an anchor and one reference. -/
abbrev swW (ws : List Switch) (paths : Tab PathDef) : Cart :=
  { jobKey := some 0, anchors := [certW], refs := [(4, 7)], switches := ws, paths := paths
    sessions := [sessW, { id := 2, role := .switch, peer := 9, open_ := true }] }
/-- That switch, admitted. -/
abbrev inSwW : Switch := { serial := 9, admitted := true, meas := [(4, 7)], key := some 0 }
/-- Three paths of which two hold it. -/
abbrev pathsW (b : Bool) : Tab PathDef := [(0, { switches := [9], att := b, eval := true }), (5, { switches := [] }), (1023, { switches := [9], att := b, eval := true })]
/-- A new key goes to it, and what it has is not the new one; a new reference that it does not meet. -/
theorem wit_Cartouche_reassess : ∃ (n : Nat) (s : State) (w : Switch) (y : Sess), Verifier s n ∧ (∀ p ∈ s.ctxs, p.2.live = false) ∧ w ∈ s.cart.switches
    ∧ w.admitted = true ∧ s.cart.hasSwitch w.serial = true ∧ s.cart.refsMet w.meas = true ∧ w.key = s.cart.jobKey ∧ y ∈ s.cart.sessions
    ∧ y.role = .switch ∧ y.open_ = true :=
  ⟨1, cartW (swW [inSwW] []), _, _, ⟨rfl, _, rfl, rfl, rfl⟩, by decide, .head _, rfl, by decide, by decide +kernel, rfl, .tail _ (.head _), rfl, rfl⟩
theorem wit_Cartouche_admit : ∃ (serial : Word) (root : List Byte) (meas : List (Nat × BitVec 512)) (s : State), keysFrom 0 s.cart.paths = true
    ∧ s.cart.toWrite = [] ∧ (∀ w ∈ s.cart.switches, w.serial ≠ serial) ∧ s.cart.hasSwitch serial = true ∧ (∀ r ∈ s.cart.refs, r ∈ meas)
    ∧ s.cart.jobKey.isSome = true ∧ ∃ a ∈ s.cart.anchors, chains a root = true :=
  ⟨9, certW, [(4, 7)], cartW (swW [] (pathsW false)), by decide, rfl, by decide, by decide, by decide +kernel, rfl, certW, .head _, by decide +kernel⟩
theorem wit_Cartouche_admit_no_anchor : ∃ (serial : Word) (root : List Byte) (meas : List (Nat × BitVec 512)) (s : State), keysFrom 0 s.cart.paths = true
    ∧ s.cart.toWrite = [] ∧ (∀ w ∈ s.cart.switches, w.serial ≠ serial) ∧ s.cart.hasSwitch serial = true ∧ (∀ r ∈ s.cart.refs, r ∈ meas)
    ∧ s.cart.jobKey.isSome = true ∧ ∀ a ∈ s.cart.anchors, chains a root = false :=
  ⟨9, [], [(4, 7)], cartW (swW [] (pathsW false)), by decide, rfl, by decide, by decide, by decide +kernel, rfl, by decide +kernel⟩
theorem wit_Cartouche_not_met : ∃ (a b : Cart) (meas : List (Nat × BitVec 512)) (serial : Word), a.hasSwitch serial = false ∧ (∃ r ∈ b.refs, r ∉ meas)
    ∧ a.jobKey = none := ⟨{}, swW [] [], [(4, 8)], 9, by decide, ⟨_, .head _, by decide +kernel⟩, rfl⟩
theorem wit_Cartouche_withdraw : ∃ (serial : Word) (s : State), keysFrom 0 s.cart.paths = true ∧ s.cart.toWrite = [] ∧ s.cart.admitted serial = true
    ∧ ∃ (i : BitVec 8) (g r : BitVec 512), tabGet? s.cart.refs i.toNat = some r ∧ r ≠ g :=
  ⟨9, cartW (swW [inSwW] (pathsW true)), by decide, rfl, by decide, 4, 8, 7, rfl, by decide +kernel⟩
theorem wit_HostRequests_switch_ends : ∃ (n : Nat) (s : State) (x : Sess) (serial : Word), s.pcieUp = true ∧ s.cart.sess n = some x ∧ x.open_ = true
    ∧ x.role = .switch ∧ serial = BitVec.ofNat 64 x.peer ∧ (∀ y ∈ s.cart.sessions, y.id ≠ n → ¬(y.role = .switch ∧ y.peer = serial.toNat))
    ∧ s.cart.admitted serial = true ∧ s.cart.toWrite = [] ∧ keysFrom 0 s.cart.paths = true :=
  ⟨2, cartW (swW [inSwW] (pathsW true)), _, 9, rfl, rfl, rfl, rfl, rfl, by decide, by decide, rfl, by decide⟩
theorem wit_Cartouche_next : ∃ (c : Cart) (p : Nat) (d : PathDef) (l : List Nat), c.toWrite = p :: l ∧ tabGet? c.paths p = some d :=
  ⟨{ swW [] (pathsW true) with toWrite := [1023] }, _, _, _, rfl, rfl⟩
theorem wit_Cartouche_heartbeats : ∃ n m : Nat, 3 ≤ n ∧ m < 3 := ⟨3, 2, by decide, by decide⟩
theorem wit_Cartouche_path : ∃ (p : Fin 1024) (s : State) (d : PathDef), tabGet? s.cart.paths p = some d ∧ d.eval = false :=
  ⟨1023, cartW { paths := [(1023, { switches := [] })] }, _, rfl, rfl⟩
/-- The switch, withdrawn. -/
abbrev outSwW : Cart := swW [{ inSwW with admitted := false }] (pathsW true)
theorem wit_Cartouche_closes : ∃ (serial : Word) (s : State) (w : Switch), w ∈ s.cart.switches ∧ w.serial = serial ∧ w.admitted = false
    ∧ s.cart.mustWrite serial = false ∧ chunkInSwitch s serial = false ∧ (s.cart.sessions.map (·.id)).Nodup :=
  ⟨9, cartW outSwW, _, .head _, rfl, rfl, rfl, rfl, by decide⟩
theorem wit_Cartouche_stays : ∃ (serial : Word) (s v : State) (w : Switch), w ∈ s.cart.switches ∧ w.serial = serial ∧ w.admitted = false
    ∧ s.cart.mustWrite serial = true ∧ w ∈ v.cart.switches ∧ chunkInSwitch v serial = true :=
  ⟨9, cartW { outSwW with toWrite := [1023] },
    { cartW outSwW with ctxs := [(0, { colls := [{ collW with chunks := [(0, { sent := true, via := [9] })] }] })] }, _, .head _, rfl, rfl, by decide,
    .head _, by decide +kernel⟩

/-- A module whose ring, at host address 0, holds one entry, with a payload of `n` bytes at address 64. -/
abbrev mcW (e p n : Nat) (s : State) : State :=
  { s with ready := true, mc := { size := 1, tail := 1 }, hostMem := (rangeFrom 0 (64 + n)).zip (natBytes 64 e ++ natBytes n p) }
/-- An entry: operation, context and A0 to A4. -/
abbrev entry (opc x a0 a1 a2 a3 a4 : Nat) : Nat := at_ 0 opc + at_ 2 x + at_ 8 a0 + at_ 16 a1 + at_ 24 a2 + at_ 32 a3 + at_ 40 a4
/-- A module with one context that exists. -/
abbrev liveW (x : Nat) : State := { State.reset with ctxs := [(x, { live := true })] }
theorem wit_ContextCommands_ring : ∃ s : State, s.mc.head = s.mc.tail := ⟨State.reset, rfl⟩
theorem wit_ContextCommands_busy : ∃ s : State, s.mc.head ≠ s.mc.tail := ⟨mcW 0 0 0 State.reset, by decide⟩
theorem wit_ContextCommands_unknown : ∃ (s : State) (e : Nat), McStarts s e ∧ 0x30 < mcOpc e := ⟨mcW 0x31 0 0 State.reset, 0x31, by decide +kernel, by decide⟩
theorem wit_ContextCommands_gaps : ∃ (s u v w : State) (a b c d : Nat), McStarts s a ∧ mcOpc a = 0xF ∧ McStarts u b ∧ mcOpc b = 0x1C ∧ McStarts v c ∧ mcOpc c = 0x2F
    ∧ McStarts w d ∧ mcOpc d = 0 :=
  by refine ⟨mcW 0xF 0 0 State.reset, mcW 0x1C 0 0 State.reset, mcW 0x2F 0 0 State.reset, mcW 0 0 0 State.reset, 0xF, 0x1C, 0x2F, 0, ?_, ?_, ?_, ?_, ?_, ?_,
    ?_, ?_⟩ <;> decide +kernel
theorem wit_ContextCommands_items : ∃ (s u : State) (a b : Nat), McStarts s a ∧ mcOpc a = 4 ∧ 2 < mcArg a 1 ∧ McStarts u b ∧ mcOpc b = 0x22 ∧ 6 < mcArg b 1 :=
  by refine ⟨mcW (entry 4 0 0 3 0 0 0) 0 0 State.reset, mcW (entry 0x22 0 0 7 0 0 0) 0 0 State.reset, entry 4 0 0 3 0 0 0, entry 0x22 0 0 7 0 0 0, ?_, ?_, ?_,
    ?_, ?_, ?_⟩ <;> decide +kernel
theorem wit_ContextCommands_size : ∃ v w x y : Word, 4 ≤ v.toNat ∧ v.toNat ≤ 12 ∧ 12 < w.toNat ∧ w.toNat ≤ 16 ∧ 16 < x.toNat ∧ y.toNat < 4 :=
  ⟨12, 16, 17, 3, by decide, by decide, by decide, by decide, by decide, by decide⟩
theorem wit_ContextCommands_item : ∃ (s : State) (e : Nat), McStarts s e ∧ mcOpc e = 3 ∧ 10 < mcArg e 0 :=
  ⟨mcW (entry 3 0 11 0 0 0 0) 0 0 State.reset, entry 3 0 11 0 0 0 0, by decide +kernel, by decide +kernel, by decide +kernel⟩
/-- What CTX_CREATE asks of a state and an entry. -/
abbrev Creates (s : State) (e : Nat) : Prop := McStarts s e ∧ mcOpc e = 1 ∧ mcCtx e ≤ 7 ∧ (s.ctx (mcCtx e)).live = false
/-- A module at a CTX_CREATE of context 7, in a job, at a key step. -/
abbrev createW (n : Nat) : State := { mcW (entry 1 7 0 0 0 0 0) 0 0 State.reset with cart := { job := some 0 }, fresh := n }
theorem wit_ContextCommands_create : ∃ (s : State) (e : Nat), Creates s e ∧ s.cart.job ≠ none ∧ keyRefused s.fresh = false :=
  ⟨createW Config.keyStep, entry 1 7 0 0 0 0 0, by decide +kernel, by decide, by simp [keyRefused]⟩
/-- Where the Cartouche refuses a key step at all. -/
theorem wit_ContextCommands_create_refused (n : Nat) (h : keyRefused n = true) : ∃ (s : State) (e : Nat), Creates s e ∧ s.cart.job ≠ none
    ∧ keyRefused s.fresh = true :=
  have f : Creates (createW 0) (entry 1 7 0 0 0 0 0) := by decide +kernel
  ⟨createW n, entry 1 7 0 0 0 0 0, f, nofun, h⟩
theorem wit_ContextCommands_create_no_job : ∃ (s : State) (e : Nat), Creates s e ∧ s.cart.job = none :=
  ⟨mcW (entry 1 7 0 0 0 0 0) 0 0 State.reset, entry 1 7 0 0 0 0 0, by decide +kernel, rfl⟩
theorem wit_ContextCommands_destroy : ∃ (s : State) (e : Nat), McStarts s e ∧ mcOpc e = 2 ∧ mcCtx e ≤ 7 ∧ (s.ctx (mcCtx e)).live = true
    ∧ ∀ p ∈ s.teams, p.2.ctx.toNat ≠ mcCtx e :=
  by refine ⟨mcW (entry 2 7 0 0 0 0 0) 0 0 (liveW 7), entry 2 7 0 0 0 0 0, ?_, ?_, ?_, ?_, by decide⟩ <;> decide +kernel
theorem wit_ContextCommands_destroy_waits : ∃ (s : State) (e : Nat), McStarts s e ∧ mcOpc e = 2 ∧ mcCtx e ≤ 7 ∧ (s.ctx (mcCtx e)).live = true
    ∧ ∃ p ∈ s.teams, p.2.ctx.toNat = mcCtx e :=
  ⟨mcW (entry 2 0 0 0 0 0 0) 0 0 { liveW 0 with teams := [(0, loneTeam 0)] }, entry 2 0 0 0 0 0 0, by decide +kernel, by decide +kernel, by decide +kernel,
    by decide +kernel, _, .head _, by decide +kernel⟩
/-- What CTX_SET asks of a state and an entry, its item's own condition apart. -/
abbrev Sets (s : State) (e item : Nat) : Prop := McStarts s e ∧ mcOpc e = 3 ∧ mcArg e 0 = item ∧ mcCtx e ≤ 7 ∧ (s.ctx (mcCtx e)).live = true
  ∧ ∀ p ∈ s.teams, p.2.ctx.toNat ≠ mcCtx e
/-- A module at a CTX_SET of context 7. -/
abbrev setsW (item a b : Nat) : State := mcW (entry 3 7 item a b 0 0) 0 0 (liveW 7)
theorem wit_ContextCommands_root : ∃ s e, Sets s e 1 ∧ mcArg e 1 % 4096 = 0 ∧ mcArg e 1 + 4096 ≤ 0x6000000000 :=
  ⟨setsW 1 0x5FFFFFF000 0, entry 3 7 1 0x5FFFFFF000 0 0 0, by decide +kernel, by decide +kernel, by decide +kernel⟩
theorem wit_ContextCommands_root_lpddr : ∃ s e, Sets s e 1 ∧ mcArg e 1 % 4096 = 0 ∧ 0x8000000000 ≤ mcArg e 1 ∧ mcArg e 1 + 4096 ≤ 0x10000000000 :=
  ⟨setsW 1 0xFFFFFFF000 0, entry 3 7 1 0xFFFFFFF000 0 0 0, by decide +kernel, by decide +kernel, by decide +kernel, by decide +kernel⟩
theorem wit_ContextCommands_save : ∃ s e, Sets s e 2 ∧ (∀ d, d < 4 → (s.die d).susp = []) ∧ mcArg e 1 + mcArg e 2 ≤ 0x6000000000 :=
  ⟨setsW 2 0 0x6000000000, entry 3 7 2 0 0x6000000000 0 0, by decide +kernel, by decide, by decide +kernel⟩
theorem wit_ContextCommands_stash : ∃ s e, Sets s e 3 ∧ mcArg e 1 + mcArg e 2 ≤ 0x6000000000 :=
  ⟨setsW 3 0x5FFFFFFFFF 1, entry 3 7 3 0x5FFFFFFFFF 1 0 0, by decide +kernel, by decide +kernel⟩
theorem wit_ContextCommands_spill : ∃ s e, Sets s e 4 ∧ 0x8000000000 ≤ mcArg e 1 ∧ mcArg e 1 + mcArg e 2 ≤ 0x10000000000 :=
  ⟨setsW 4 0x8000000000 0x8000000000, entry 3 7 4 0x8000000000 0x8000000000 0 0, by decide +kernel, by decide +kernel, by decide +kernel⟩
theorem wit_ContextCommands_undo : ∃ s e, Sets s e 5 ∧ mcArg e 1 + mcArg e 2 ≤ 0x6000000000 ∧ mcArg e 2 ≤ 2 ^ 33 :=
  ⟨setsW 5 0 0x200000000, entry 3 7 5 0 0x200000000 0 0, by decide +kernel, by decide +kernel, by decide +kernel⟩
theorem wit_ContextCommands_pol : ∃ s e, Sets s e 6 ∧ mcArg e 1 ≤ 1 := ⟨setsW 6 1 0, entry 3 7 6 1 0 0 0, by decide +kernel, by decide +kernel⟩
theorem wit_ContextCommands_watchdog : ∃ s e, Sets s e 7 ∧ mcArg e 1 < 2 ^ 32 := ⟨setsW 7 0xFFFFFFFF 0, entry 3 7 7 0xFFFFFFFF 0 0 0, by decide +kernel, by decide +kernel⟩
theorem wit_ContextCommands_locks : ∃ s e, Sets s e 8 ∧ mcArg e 1 < 2 ^ 24 ∧ mcArg e 2 ≤ 12 :=
  ⟨setsW 8 0xFFFFFF 12, entry 3 7 8 0xFFFFFF 12 0 0, by decide +kernel, by decide +kernel, by decide +kernel⟩
theorem wit_ContextCommands_tvec : ∃ s e, Sets s e 9 ∧ mcArg e 1 / 2 ^ 48 % 2 ^ 15 = 0 ∧ mcArg e 1 % 64 = 0 :=
  ⟨setsW 9 0x8000FFFFFFFFFFC0 0, entry 3 7 9 0x8000FFFFFFFFFFC0 0 0 0, by decide +kernel, by decide +kernel, by decide +kernel⟩
theorem wit_ContextCommands_stride : ∃ s e, Sets s e 10 ∧ (∀ d, d < 4 → (s.die d).susp = []) ∧ mcArg e 1 % 4096 = 0 :=
  ⟨setsW 10 0x1000 0, entry 3 7 10 0x1000 0 0 0, by decide +kernel, by decide, by decide +kernel⟩

theorem wit_ModuleCommands_ways : ∃ s e, McStarts s e ∧ mcOpc e = 4 ∧ mcArg e 1 = 1 ∧ mcArg e 0 ≤ 3 ∧ mcArg e 2 / 2 ^ 10 = 0
    ∧ mcArg e 2 / 2 ^ 5 % 2 ^ 3 = 0 ∧ 1 ≤ mcArg e 2 % 32 ∧ mcArg e 2 % 32 ≤ 16 :=
  by refine ⟨mcW (entry 4 0 3 1 0x310 0 0) 0 0 State.reset, entry 4 0 3 1 0x310 0 0, ?_, ?_, ?_, ?_,
    ?_, ?_, ?_, ?_⟩ <;> decide +kernel
theorem wit_ModuleCommands_ways_reserved : ∃ s e, McStarts s e ∧ mcOpc e = 4 ∧ mcArg e 1 = 1 ∧ mcArg e 2 / 2 ^ 5 % 2 ^ 3 ≠ 0 :=
  by refine ⟨mcW (entry 4 0 3 1 0x90 0 0) 0 0 State.reset, entry 4 0 3 1 0x90 0 0, ?_, ?_, ?_, ?_⟩ <;> decide +kernel
theorem wit_ModuleCommands_scrub : ∃ s e, McStarts s e ∧ mcOpc e = 4 ∧ mcArg e 1 = 2 ∧ mcArg e 0 ≤ 3 :=
  ⟨mcW (entry 4 0 3 2 1 0 0) 0 0 State.reset, entry 4 0 3 2 1 0 0, by decide +kernel, by decide +kernel, by decide +kernel, by decide +kernel⟩
/-- A window of the last 2 MiB of expanded space, of 7-bit elements at address 0. -/
abbrev fwinW : Nat := at_ 0 (2 ^ 63 + 2 ^ 60 + 0x1FFFFE00000) + at_ 8 0x200000
theorem wit_ModuleCommands_fwin : ∃ s e, McStarts s e ∧ mcOpc e = 5 ∧ fwinResv s e = false ∧ s.teams = [] ∧ mcArg e 0 ≤ 31 ∧ (fwinOf s e).en = true
    ∧ fwinBad s e = false ∧ (tabGet {} s.fwins (mcArg e 0) : Fwin).en = false :=
  by refine ⟨mcW (entry 5 0 31 64 0 0 0) fwinW 64 State.reset, entry 5 0 31 64 0 0 0, ?_, ?_, ?_, rfl, ?_, ?_, ?_, ?_⟩ <;> decide +kernel
theorem wit_ModuleCommands_fwin_again : ∃ s e, McStarts s e ∧ mcOpc e = 5 ∧ fwinResv s e = false ∧ s.teams = [] ∧ mcArg e 0 ≤ 31
    ∧ (tabGet {} s.fwins (mcArg e 0) : Fwin).en = true ∧ (s.l2.map (·.line)).Nodup ∧ s.l2 ≠ [] :=
  by refine ⟨mcW (entry 5 0 31 64 0 0 0) 0 64 { State.reset with fwins := [(31, { en := true, sfmt := 1, ebase := 0x1FFFFE00000, esize := 0x200000 })]
                                                                 l2 := [lineW 0x3FFFC000] }, entry 5 0 31 64 0 0 0, ?_, ?_, ?_, rfl, ?_, ?_, ?_, ?_⟩ <;> decide +kernel
theorem wit_ModuleCommands_fwin_bad : ∃ s e, McStarts s e ∧ mcOpc e = 5 ∧ fwinResv s e = false ∧ s.teams = [] ∧ mcArg e 0 ≤ 31 ∧ (fwinOf s e).en = true
    ∧ fwinBad s e = true :=
  by refine ⟨mcW (entry 5 0 31 64 0 0 0) (fwinW + at_ 8 1) 64 State.reset, entry 5 0 31 64 0 0 0, ?_, ?_, ?_, rfl, ?_, ?_, ?_⟩ <;> decide +kernel
theorem wit_ModuleCommands_fwin_reserved : ∃ s e, McStarts s e ∧ mcOpc e = 5 ∧ fwinResv s e = true :=
  by refine ⟨mcW (entry 5 0 31 64 0 0 0) (at_ 7 8) 64 State.reset, entry 5 0 31 64 0 0 0, ?_, ?_, ?_⟩ <;> decide +kernel
theorem wit_ModuleCommands_fwin_busy : ∃ s e, McStarts s e ∧ mcOpc e = 5 ∧ fwinResv s e = false ∧ s.teams ≠ [] :=
  by refine ⟨mcW (entry 5 0 31 64 0 0 0) fwinW 64 { State.reset with teams := [(0, loneTeam 0)] }, entry 5 0 31 64 0 0 0, ?_, ?_, ?_, ?_⟩ <;> decide +kernel
/-- What BIND asks of a state, an entry and a payload. -/
abbrev Binds (s : State) (e p : Nat) : Prop := McStarts s e ∧ mcOpc e = 6 ∧ mcCtx e ≤ 7 ∧ (s.ctx (mcCtx e)).live = true ∧ p = payload s (mcArg e 0) 32
  ∧ bindResv p = false
/-- A binding of ch8 between (die 0) and (die 1), whose rectangles have these shapes. -/
abbrev bind8W (l r : Nat) : Nat := at_ 0 8 + at_ 1 1 + at_ 6 l + at_ 12 1 + at_ 13 1 + at_ 17 r
/-- A module at a BIND in context 7. -/
abbrev bindsW (p : Nat) (s : State) : State := mcW (entry 6 7 64 0 0 0 0) p 32 s
theorem wit_ModuleCommands_bind : ∃ s e p, Binds s e p ∧ (∀ q ∈ s.teams, q.2.ctx.toNat ≠ mcCtx e) ∧ bindRange p = false
    ∧ hasBind s (mcX e) (payAt p 0 1) (bindLoc p) = false ∧ payAt p 0 1 < 8 :=
  by refine ⟨bindsW (at_ 0 7) (liveW 7), entry 6 7 64 0 0 0 0, at_ 0 7, ?_, ?_, ?_, ?_, ?_⟩ <;> decide +kernel
theorem wit_ModuleCommands_bind_dies : ∃ s e p q, Binds s e p ∧ bindRange p = false ∧ hasBind s (mcX e) (payAt p 0 1) (bindLoc p) = false ∧ 8 ≤ payAt p 0 1
    ∧ (bindLoc p).lw = (bindRem p).lw ∧ (bindLoc p).lh = (bindRem p).lh ∧ Binds (bindsW q (liveW 7)) e q ∧ bindRange q = false ∧ 8 ≤ payAt q 0 1
    ∧ (bindLoc q).lw ≠ (bindRem q).lw :=
  by refine ⟨bindsW (bind8W 1 1) (liveW 7), entry 6 7 64 0 0 0 0, bind8W 1 1, bind8W 1 0, ?_, ?_, ?_, ?_, ?_, ?_, ?_, ?_, ?_, ?_⟩ <;> decide +kernel
theorem wit_ModuleCommands_bind_full : ∃ s e p, Binds s e p ∧ bindRange p = false ∧ hasBind s (mcX e) (payAt p 0 1) (bindLoc p) = false
    ∧ 64 ≤ (s.binds.filter fun q => q.2.port == bindW.port).length :=
  by refine ⟨bindsW (at_ 0 7) { liveW 7 with binds := (rangeFrom 0 64).map fun n => (n, bindW) }, entry 6 7 64 0 0 0 0, at_ 0 7, ?_, ?_, ?_, ?_⟩ <;> decide +kernel
theorem wit_ModuleCommands_bind_twice : ∃ s e p, Binds s e p ∧ bindRange p = false ∧ hasBind s (mcX e) (payAt p 0 1) (bindLoc p) = true :=
  by refine ⟨bindsW (at_ 0 8 + at_ 1 1 + at_ 12 1 + at_ 13 1) { liveW 7 with binds := [(0, { bindW with ctx := 7, ch := 8 })] }, entry 6 7 64 0 0 0 0,
    at_ 0 8 + at_ 1 1 + at_ 12 1 + at_ 13 1, ?_, ?_, ?_⟩ <;> decide +kernel
theorem wit_ModuleCommands_bind_busy : ∃ s e p, Binds s e p ∧ ∃ q ∈ s.teams, q.2.ctx.toNat = mcCtx e :=
  ⟨mcW (entry 6 0 64 0 0 0 0) 0 32 { liveW 0 with teams := [(0, loneTeam 0)] }, entry 6 0 64 0 0 0 0, 0, by decide +kernel, _, .head _, by decide +kernel⟩
theorem wit_ModuleCommands_unbind : ∃ s e b, McStarts s e ∧ mcOpc e = 7 ∧ mcCtx e ≤ 7 ∧ (s.ctx (mcCtx e)).live = true ∧ (∀ q ∈ s.teams, q.2.ctx.toNat ≠ mcCtx e)
    ∧ tabGet? s.binds (mcArg e 0) = some b ∧ b.ctx = mcX e :=
  ⟨mcW (entry 7 0 5 0 0 0 0) 0 0 { liveW 0 with binds := [(5, bindW)] }, entry 7 0 5 0 0 0 0, bindW, by decide +kernel, by decide +kernel, by decide +kernel,
    by decide +kernel, by decide, by decide +kernel, by decide +kernel⟩
theorem wit_ModuleCommands_group : ∃ (s : State) (e p : Nat) (g : Group), McStarts s e ∧ mcOpc e = 8 ∧ mcCtx e ≤ 7 ∧ (s.ctx (mcCtx e)).live = true
    ∧ mcArg e 0 ≤ 63 ∧ p = payload s (mcArg e 1) 64 ∧ g = groupOf p ∧ payAt p 4 1 / 2 = 0 ∧ payAt p 5 3 = 0 ∧ payAt p 41 7 = 0 ∧ 2 ≤ g.n ∧ g.n ≤ 4096
    ∧ g.member < g.n ∧ payAt p 40 1 ≤ 8 ∧ ∀ k ∈ g.paths, k ≤ 1023 :=
  by refine ⟨mcW (entry 8 7 63 64 0 0 0) (at_ 0 4096 + at_ 2 4095 + at_ 40 1 + at_ 48 1023) 64 (liveW 7), entry 8 7 63 64 0 0 0,
    at_ 0 4096 + at_ 2 4095 + at_ 40 1 + at_ 48 1023, _, ?_, ?_, ?_, ?_, ?_,
    ?_, rfl, ?_, ?_, ?_, ?_, ?_, ?_, ?_,
    ?_⟩ <;> decide +kernel
theorem wit_ModuleCommands_path : ∃ s e p, McStarts s e ∧ mcOpc e = 9 ∧ mcArg e 0 ≤ 1023 ∧ p = payload s (mcArg e 1) 72
    ∧ payAt (payload s (mcArg e 1) 8) 0 1 = payAt p 0 1 ∧ payAt (payload s (mcArg e 1) 8) 1 7 = 0 ∧ payAt p 0 1 = 8 :=
  by refine ⟨mcW (entry 9 0 1023 64 0 0 0) (at_ 0 8 + at_ 64 9) 72 State.reset, entry 9 0 1023 64 0 0 0, at_ 0 8 + at_ 64 9, ?_, ?_, ?_, ?_, ?_,
    ?_, ?_⟩ <;> decide +kernel
theorem wit_ModuleCommands_path_gone : ∃ s e, McStarts s e ∧ mcOpc e = 0xA ∧ (tabGet? s.cart.paths (mcArg e 0)).isSome = true :=
  ⟨{ mcW (entry 0xA 0 0 0 0 0 0) 0 0 State.reset with cart := swW [] (pathsW true) }, entry 0xA 0 0 0 0 0 0, by decide +kernel, by decide +kernel, by decide +kernel⟩
theorem wit_ModuleCommands_inval : ∃ s e, McStarts s e ∧ mcOpc e = 0xB ∧ mcCtx e ≤ 7 ∧ (s.ctx (mcCtx e)).live = true ∧ mcArg e 0 = 2 ^ 64 - 1 :=
  by refine ⟨mcW (entry 0xB 7 0xFFFFFFFFFFFFFFFF 0 0 0 0) 0 0 (liveW 7), entry 0xB 7 0xFFFFFFFFFFFFFFFF 0 0 0 0, ?_, ?_, ?_,
    ?_, ?_⟩ <;> decide +kernel
theorem wit_ModuleCommands_inval_page : ∃ s e, McStarts s e ∧ mcOpc e = 0xB ∧ mcCtx e ≤ 7 ∧ (s.ctx (mcCtx e)).live = true ∧ mcArg e 0 < 2 ^ 48 ∧ mcArg e 1 = 2 ^ 30 :=
  by refine ⟨mcW (entry 0xB 7 0xFFFFFFFFFFFF 0x40000000 0 0 0) 0 0 (liveW 7), entry 0xB 7 0xFFFFFFFFFFFF 0x40000000 0 0 0, ?_, ?_, ?_, ?_,
    ?_, ?_⟩ <;> decide +kernel
/-- What WV_SET asks of a state and an entry for the states that it can set. -/
abbrev Weighs (s : State) (e st : Nat) : Prop := McStarts s e ∧ mcOpc e = 0xC ∧ mcArg e 2 / 2 ^ 10 = 0 ∧ mcArg e 2 / 2 ^ 2 % 2 ^ 6 = 0
  ∧ (∀ q ∈ s.teams, q.2.die = mcArg e 0 → tabGet? q.2.wver (mcArg e 1) = none) ∧ mcArg e 0 ≤ 3 ∧ mcArg e 1 ≤ 4095 ∧ mcArg e 3 % 2 ^ 18 = 0
  ∧ mcArg e 3 + mcArg e 4 ≤ 2 ^ 31 ∧ mcArg e 2 / 2 ^ 8 = st
/-- A module at a WV_SET of version 3 of tensor 4095 of die 3. -/
abbrev weighsW (a2 : Nat) : Nat := entry 0xC 0 3 4095 a2 0x7FFC0000 0x40000
theorem wit_ModuleCommands_weights : ∃ s u v, Weighs s (weighsW 3) 0 ∧ Weighs u (weighsW 0x103) 1 ∧ Weighs v (weighsW 0x203) 2 :=
  by refine ⟨mcW (weighsW 3) 0 0 State.reset, mcW (weighsW 0x103) 0 0 State.reset, mcW (weighsW 0x203) 0 0 State.reset, ?_, ?_, ?_⟩ <;> decide +kernel
theorem wit_ModuleCommands_weights_range : ∃ s, Weighs s (weighsW 0x303) 3 :=
  ⟨mcW (weighsW 0x303) 0 0 State.reset, by decide +kernel⟩
theorem wit_ModuleCommands_weights_reserved : ∃ s e, McStarts s e ∧ mcOpc e = 0xC ∧ mcArg e 2 / 2 ^ 2 % 2 ^ 6 ≠ 0 :=
  by refine ⟨mcW (weighsW 0x83) 0 0 State.reset, weighsW 0x83, ?_, ?_, ?_⟩ <;> decide +kernel
theorem wit_ModuleCommands_weights_busy : ∃ s e, McStarts s e ∧ mcOpc e = 0xC ∧ mcArg e 2 / 2 ^ 10 = 0 ∧ mcArg e 2 / 2 ^ 2 % 2 ^ 6 = 0
    ∧ ∃ q ∈ s.teams, q.2.die = mcArg e 0 ∧ (tabGet? q.2.wver (mcArg e 1)).isSome = true :=
  ⟨mcW (entry 0xC 0 0 4095 0 0 0) 0 0 { State.reset with teams := [(0, { loneTeam 0 with wver := [(4095, 0)] })] }, entry 0xC 0 0 4095 0 0 0,
    by decide +kernel, by decide +kernel, by decide +kernel, by decide +kernel, _, .head _, by decide +kernel, by decide +kernel⟩
/-- What STOP asks of a state and an entry. -/
abbrev Stops (s : State) (e : Nat) : Prop := McStarts s e ∧ mcOpc e = 0x10 ∧ stopResv (mcArg e 1) = false ∧ mcCtx e ≤ 7 ∧ (s.ctx (mcCtx e)).live = true
  ∧ mcArg e 0 ≤ 3
/-- A module at a STOP of die 0's kernel at (0, 0), a team of core 0, in a context with a save region of a size. -/
abbrev stopsW (n : Nat) (f : Team → Team) : State := mcW 0x10 0 0 { State.reset with
  ctxs := [(0, { live := true, save := { size := n }, stride := 0x183000 })], teams := [(0, f (loneTeam 0))] }
theorem wit_ModuleCommands_stop_none : ∃ s e, Stops s e ∧ stopTeam s e = none :=
  by refine ⟨mcW (entry 0x10 7 3 0 0 0 0) 0 0 (liveW 7), entry 0x10 7 3 0 0 0 0, ?_, ?_⟩ <;> decide +kernel
theorem wit_ModuleCommands_stop : ∃ s e tm k, Stops s e ∧ stopTeam s e = some tm ∧ tm.stop = none ∧ stopRoom s tm = some k :=
  by refine ⟨stopsW 0x1000000 id, 0x10, loneTeam 0, 0, ?_, ?_, rfl, ?_⟩ <;> decide +kernel
theorem wit_ModuleCommands_stop_full : ∃ s e tm, Stops s e ∧ stopTeam s e = some tm ∧ tm.stop = none ∧ stopRoom s tm = none :=
  by refine ⟨stopsW 0 id, 0x10, loneTeam 0, ?_, ?_, rfl, ?_⟩ <;> decide +kernel
theorem wit_ModuleCommands_stop_joins : ∃ s e tm r, Stops s e ∧ stopTeam s e = some tm ∧ tm.stop = some r :=
  by refine ⟨stopsW 0 fun t => { t with stop := some { byRule := true, bySoft := false, slot := 0 } }, 0x10, _, _, ?_, rfl, rfl⟩; decide +kernel
theorem wit_ModuleCommands_stop_reserved : ∃ s e, McStarts s e ∧ mcOpc e = 0x10 ∧ stopResv (mcArg e 1) = true :=
  by refine ⟨mcW (entry 0x10 0 0 0x1000000 0 0 0) 0 0 State.reset, entry 0x10 0 0 0x1000000 0 0 0, ?_, ?_, ?_⟩ <;> decide +kernel
/-- What RESUME asks of a state and an entry. -/
abbrev Resumes (s : State) (e : Nat) (q : Susp) : Prop := McStarts s e ∧ mcOpc e = 0x11 ∧ mcCtx e ≤ 7 ∧ (s.ctx (mcCtx e)).live = true ∧ mcArg e 1 ≤ 3
  ∧ mcArg e 2 < 2 ^ 16 ∧ suspAt s (mcX e) (mcArg e 0) = some q
/-- A module at a RESUME of a kernel in slot 5, to a place on a die. -/
abbrev resumesW (d : Nat) (x : Ctx) (f : Team → Team) : State := mcW (entry 0x11 0 5 d 0x070F 0 0) 0 0 { State.reset with
  ctxs := [(0, x)], dies := [(0, { susp := [{ team := f (loneTeam 0), slot := 5, soft := true }] })] }
theorem record_of (q : Susp) (s : State) (h : s.ueLines = []) : recordUe q s = false := by
  have f : ∀ a n, s.ueExt a n = false := fun a n => by simp [State.ueExt, h]
  simp [recordUe, f]
set_option exponentiation.threshold 1024 in
theorem wit_ModuleCommands_resume : ∃ s e q, Resumes s e q ∧ s.ownJob (mcCtx e) = true
    ∧ resumeOk s q (mcArg e 1) (mcArg e 2 % 256) (mcArg e 2 / 2 ^ 8 % 256) = true
    ∧ (tableReady (q.placed (mcArg e 1) (mcArg e 2 % 256) (mcArg e 2 / 2 ^ 8 % 256)) s).ok = true ∧ (s.ctx q.team.ctx.toNat).abp = false
    ∧ recordUe q (tableReady (q.placed (mcArg e 1) (mcArg e 2 % 256) (mcArg e 2 / 2 ^ 8 % 256)) s).st = false :=
  by refine ⟨resumesW 3 { live := true } id, entry 0x11 0 5 3 0x070F 0 0, _, ⟨?_, ?_, ?_, ?_, ?_, ?_, rfl⟩, ?_, ?_, ?_, ?_, record_of _ _ ?_⟩ <;> decide +kernel
set_option exponentiation.threshold 1024 in
theorem wit_ModuleCommands_resume_waits : ∃ s e q, Resumes s e q ∧ s.ownJob (mcCtx e) = true
    ∧ resumeOk s q (mcArg e 1) (mcArg e 2 % 256) (mcArg e 2 / 2 ^ 8 % 256) = true
    ∧ (tableReady (q.placed (mcArg e 1) (mcArg e 2 % 256) (mcArg e 2 / 2 ^ 8 % 256)) s).ok = false :=
  by refine ⟨resumesW 3 { live := true } fun t => { t with sched := 0x10000000 }, entry 0x11 0 5 3 0x070F 0 0, _, ⟨?_, ?_, ?_, ?_, ?_, ?_, rfl⟩, ?_, ?_,
    ?_⟩ <;> decide +kernel
set_option exponentiation.threshold 1024 in
theorem wit_ModuleCommands_resume_other_job : ∃ s e q, Resumes s e q ∧ s.ownJob (mcCtx e) = false :=
  by refine ⟨resumesW 3 { live := true, job := some 5 } id, entry 0x11 0 5 3 0x070F 0 0, _, ⟨?_, ?_, ?_, ?_, ?_, ?_, rfl⟩, ?_⟩ <;> decide +kernel
set_option exponentiation.threshold 1024 in
theorem wit_ModuleCommands_resume_no_place : ∃ s e q, Resumes s e q ∧ s.ownJob (mcCtx e) = true
    ∧ resumeOk s q (mcArg e 1) (mcArg e 2 % 256) (mcArg e 2 / 2 ^ 8 % 256) = false :=
  by refine ⟨resumesW 3 { live := true } fun t => { t with kind := 0 }, entry 0x11 0 5 3 0x070F 0 0, _, ⟨?_, ?_, ?_, ?_, ?_, ?_, rfl⟩, ?_, ?_⟩ <;> decide +kernel
theorem wit_ModuleCommands_resume_reserved : ∃ s e, McStarts s e ∧ mcOpc e = 0x11 ∧ 2 ^ 16 ≤ mcArg e 2 :=
  by refine ⟨mcW (entry 0x11 0 0 0 0x10000 0 0) 0 0 State.reset, entry 0x11 0 0 0 0x10000 0 0, ?_, ?_, ?_⟩ <;> decide +kernel
theorem wit_ModuleCommands_context : ∃ s e, McStarts s e ∧ mcOpc e = 0x12 ∧ mcCtx e ≤ 7 ∧ (s.ctx (mcCtx e)).live = true :=
  ⟨mcW (entry 0x12 7 0 0 0 0 0) 0 0 (liveW 7), entry 0x12 7 0 0 0 0 0, by decide +kernel, by decide +kernel, by decide +kernel, by decide +kernel⟩
theorem wit_ModuleCommands_discard : ∃ s e, McStarts s e ∧ mcOpc e = 0x14 ∧ mcCtx e ≤ 7 ∧ (s.ctx (mcCtx e)).live = true ∧ s.teams = []
    ∧ ∀ d, d < 4 → ∀ q ∈ (s.die d).susp, q.team.recId = none :=
  ⟨mcW (entry 0x14 0 0 0 0 0 0) 0 0 { liveW 0 with dies := [(0, { susp := [{ team := loneTeam 0, slot := 5, soft := true }] })] }, entry 0x14 0 0 0 0 0 0,
    by decide +kernel, by decide +kernel, by decide +kernel, by decide +kernel, rfl, by decide +kernel⟩
theorem wit_ModuleCommands_purge : ∃ s e, McStarts s e ∧ mcOpc e = 0x15 ∧ mcArg e 0 ≤ 3 ∧ mcArg e 1 ≤ 255
    ∧ (s.die (mcArg e 0)).hasStage (BitVec.ofNat 8 (mcArg e 1)) = false :=
  by refine ⟨mcW (entry 0x15 0 3 255 0 0 0) 0 0 State.reset, entry 0x15 0 3 255 0 0 0, ?_, ?_, ?_, ?_,
    ?_⟩ <;> decide +kernel
theorem wit_ModuleCommands_survey : ∃ s e r, McStarts s e ∧ mcOpc e = 0x1A ∧ mcArg e 0 = 2 ^ 64 - 1 ∧ s.survey.recs.getLast? = some r :=
  ⟨{ mcW (entry 0x1A 0 0xFFFFFFFFFFFFFFFF 0 0 0 0) 0 0 State.reset with survey := { recs := [{ seq := 0, kind := 0, cnt := {}, prev := 0, sig := 0 }] } },
    entry 0x1A 0 0xFFFFFFFFFFFFFFFF 0 0 0 0, _, by decide +kernel, by decide +kernel, by decide +kernel, rfl⟩
/-- A module at a SURVEY_READ of a number, with one record. -/
abbrev surveyW (n : Nat) : State :=
  { mcW (entry 0x1A 0 n 0 0 0 0) 0 0 State.reset with survey := { recs := [{ seq := 6, kind := 0, cnt := {}, prev := 0, sig := 0 }] } }
set_option exponentiation.threshold 1024 in
theorem wit_ModuleCommands_survey_number : ∃ s e r, McStarts s e ∧ mcOpc e = 0x1A ∧ mcArg e 0 ≠ 2 ^ 64 - 1
    ∧ s.survey.recs.find? (fun q => q.seq == mcArg e 0) = some r :=
  ⟨surveyW 6, entry 0x1A 0 6 0 0 0 0, _, by decide +kernel, by decide +kernel, by decide +kernel, rfl⟩
theorem wit_ModuleCommands_survey_none : ∃ s e, McStarts s e ∧ mcOpc e = 0x1A ∧ (∀ r ∈ s.survey.recs, r.seq ≠ mcArg e 0)
    ∧ mcArg e 0 ≠ 2 ^ 64 - 1 := ⟨surveyW 7, entry 0x1A 0 7 0 0 0 0, by decide +kernel, by decide +kernel, by decide +kernel, by decide +kernel⟩
theorem wit_ModuleCommands_frequencies : ∃ s e, McStarts s e ∧ mcOpc e = 0x20 ∧ mcArg e 0 = 2 ^ 64 - 1 ∧ 600 ≤ mcArg e 1 ∧ mcArg e 1 ≤ 3200 ∧ mcArg e 1 % 50 = 0 :=
  by refine ⟨mcW (entry 0x20 0 (2 ^ 64 - 1) 600 0 0 0) 0 0 State.reset, entry 0x20 0 (2 ^ 64 - 1) 600 0 0 0, ?_, ?_, ?_, ?_, ?_, ?_⟩ <;> decide +kernel
theorem wit_ModuleCommands_frequency : ∃ s e, McStarts s e ∧ mcOpc e = 0x20 ∧ mcArg e 0 < 128 ∧ 600 ≤ mcArg e 1 ∧ mcArg e 1 ≤ 3200 ∧ mcArg e 1 % 50 = 0 :=
  by refine ⟨mcW (entry 0x20 0 127 3200 0 0 0) 0 0 State.reset, entry 0x20 0 127 3200 0 0 0, ?_, ?_, ?_, ?_,
    ?_, ?_⟩ <;> decide +kernel
theorem wit_ModuleCommands_limit : ∃ s e, McStarts s e ∧ mcOpc e = 0x21 ∧ 2000 ≤ mcArg e 0 ∧ mcArg e 0 ≤ 8000 :=
  ⟨mcW (entry 0x21 0 2000 0 0 0 0) 0 0 State.reset, entry 0x21 0 2000 0 0 0 0, by decide +kernel, by decide +kernel, by decide +kernel, by decide +kernel⟩
theorem wit_ModuleCommands_link : ∃ s e, McStarts s e ∧ mcOpc e = 0x23 ∧ mcArg e 0 ≤ 13 ∧ (s.port (mcArg e 0)).down = true :=
  ⟨{ mcW (entry 0x23 0 13 0 0 0 0) 0 0 State.reset with ports := [(13, { down := true })] }, entry 0x23 0 13 0 0 0 0, by decide +kernel, by decide +kernel,
    by decide +kernel, by decide +kernel⟩
theorem wit_ModuleCommands_reset : ∃ s e, McStarts s e ∧ mcOpc e = 0x30 := ⟨mcW 0x30 0 0 State.reset, 0x30, by decide +kernel, by decide⟩
theorem wit_ModuleCommands_resets : ∃ s : State, s.mc.wait = some .reset := ⟨{ State.reset with mc := { wait := some .reset } }, rfl⟩
theorem wit_ModuleCommands_invalidated : ∃ (x : CtxId) (y : BitVec 3) (va : Option Nat) (lg : Nat) (s : State), s.mc.wait = some (.inval y va lg)
    ∧ y.toNat = x.val ∧ s.home = [] ∧ s.scHeld = [] ∧ ∀ p ∈ s.cores, s.coreIn x p.1 = false :=
  ⟨7, 7, none, 16, { State.reset with mc := { wait := some (.inval 7 none 16) } }, rfl, rfl, rfl, rfl, by decide⟩
/-- What PORT_SET asks of a state and an entry, its item's own condition apart. -/
abbrev PSets (s : State) (e item lo : Nat) : Prop := McStarts s e ∧ mcOpc e = 0x22 ∧ mcArg e 1 = item ∧ lo ≤ mcArg e 0 ∧ mcArg e 0 ≤ 7
/-- A module at a PORT_SET. -/
abbrev psetW (p item a b : Nat) : State := mcW (entry 0x22 0 p item a b 0) 0 0 State.reset
theorem wit_ModuleCommands_mode : ∃ s e, PSets s e 1 6 ∧ mcArg e 2 ≤ 1 := ⟨psetW 6 1 1 0, entry 0x22 0 6 1 1 0 0, by decide +kernel, by decide +kernel⟩
theorem wit_ModuleCommands_udp : ∃ s e, PSets s e 2 6 ∧ mcArg e 2 ≤ 65535 := ⟨psetW 7 2 65535 0, entry 0x22 0 7 2 65535 0 0, by decide +kernel, by decide +kernel⟩
theorem wit_ModuleCommands_rtt : ∃ s e, PSets s e 3 6 ∧ mcArg e 2 ≤ 1000000 :=
  ⟨psetW 7 3 1000000 0, entry 0x22 0 7 3 1000000 0 0, by decide +kernel, by decide +kernel⟩
theorem wit_ModuleCommands_rekey : ∃ s e, PSets s e 4 0 ∧ 1 ≤ mcArg e 2 ∧ mcArg e 2 ≤ 2 ^ 32 :=
  ⟨psetW 0 4 (2 ^ 32) 0, entry 0x22 0 0 4 (2 ^ 32) 0 0, by decide +kernel, by decide +kernel, by decide +kernel⟩
theorem wit_ModuleCommands_staging : ∃ s e, PSets s e 5 6 ∧ mcArg e 3 ≤ 2 ^ 32 ∧ mcArg e 2 + mcArg e 3 ≤ 0x6000000000 :=
  ⟨psetW 6 5 0x5F00000000 (2 ^ 32), entry 0x22 0 6 5 0x5F00000000 (2 ^ 32) 0, by decide +kernel, by decide +kernel, by decide +kernel⟩
theorem wit_ModuleCommands_heartbeat : ∃ s e, PSets s e 6 0 ∧ 1 ≤ mcArg e 2 ∧ mcArg e 2 ≤ 60 :=
  ⟨psetW 0 6 60 0, entry 0x22 0 0 6 60 0 0, by decide +kernel, by decide +kernel, by decide +kernel⟩

theorem wit_EncodeDecode : ∃ (slot : Nat) (f : BitVec 24) (i : Instr), slot < 8 ∧ decodeField false slot f false = .ok i :=
  ⟨7, 0x003E5F, .recvV 31 10, by decide, rfl⟩
theorem wit_EncodeDecode_wf : ∃ (i : Instr) (f : BitVec 24), i.wf = true ∧ encode i = some (7, f) := ⟨.recvV 31 10, 0x003E5F, by decide, rfl⟩

/-- Module reset with a bundle where core 0 runs it. -/
abbrev putW (l : List Byte) : State := startCore false (storeCode l State.reset)
/-- What core 0 holds as it is about to run the instruction `i` of slot `n`, its fetch done. -/
abbrev atW (s : State) (d : Decoded) : State := fetchedState (fetchNow s s.cur).2 (some (bundleOf d s.me.pc d.groups))
/-- A step is about to run instruction `i` of slot `n`; its trial and its issue answer states of which `p` and `q` hold. -/
abbrev Runs (s : State) (n : Nat) (i : Instr) (p q : State → Bool) : Prop := ∃ (l : List Byte) (d : Decoded) (u t : State), AboutToFetch s
  ∧ (fetchNow s s.cur).1 = .bytes l ∧ codeUe (fetchNow s s.cur).2 s.cur s.me.pc l.length = false ∧ decodeBundle s.me.tm s.me.hist l = .ok d
  ∧ d.groups = [[(n, i)]] ∧ exec i (trying (atW s d)) = .next u ∧ exec i (issuedState n i (atW s d)) = .next t ∧ p u = true ∧ q t = true
theorem next_of (r : Out) (p : State → Bool) (h : (match r with
    | .next u => p u
    | _ => false) = true) : ∃ u, r = .next u ∧ p u = true := by
  split at h
  · exact ⟨_, rfl, h⟩
  · nomatch h
/-- The bundle of one field of a slot, decoded. -/
abbrev decW (n : Nat) (f : BitVec 24) (i : Instr) : Decoded := ⟨11, false, false, 0, (List.replicate 8 none).set n (some f), [[(n, i)]]⟩
theorem runs_of (n : Nat) (w : BitVec 24) (s : State) (i : Instr) (p q : State → Bool) (h : AboutToFetch s)
    (hf : (fetchNow s s.cur).1 = .bytes (bundleBytesOf n w)) (hu : codeUe (fetchNow s s.cur).2 s.cur s.me.pc (bundleBytesOf n w).length = false)
    (hd : (decodeBundle s.me.tm s.me.hist (bundleBytesOf n w)).toOption = some (decW n w i))
    (hp : (match exec i (trying (atW s (decW n w i))) with
      | .next u => p u
      | _ => false) = true)
    (hq : (match exec i (issuedState n i (atW s (decW n w i))) with
      | .next t => q t
      | _ => false) = true) : Runs s n i p q :=
  have ⟨u, eu, pu⟩ := next_of _ p hp
  have ⟨t, et, qt⟩ := next_of _ q hq
  ⟨_, decW n w i, u, t, h, hf, hu, ok_of _ _ hd, rfl, eu, et, pu, qt⟩
theorem wit_StepRunsDecoded_completes : Runs (putW (bundleBytesOf 1 0x130008)) 1 (.addI64 (.sq 0) (.g 3)) (fun u => u.me.held == {})
    fun t => t.me.bun.isSome && t.me.defer.isNone :=
  runs_of _ 0x130008 _ _ _ _ (by decide) (by decide +kernel) (by decide +kernel) (by decide +kernel) (by decide +kernel) (by decide +kernel)
theorem wit_StepRunsDecoded_deferred : Runs ((putW (bundleBytesOf 1 0x271181)).upd fun c => { c with g := [(1, 0x10000000)] }) 1 (.ldN8 1 (.g 1) .zero false)
    (fun u => u.me.held == {}) fun t => t.me.bun.isSome && t.me.defer.isSome :=
  runs_of _ 0x271181 _ _ _ _ (by decide) (by decide +kernel) (by decide +kernel) (by decide +kernel) (by decide +kernel) (by decide +kernel)
theorem wit_StepRunsDecoded_traps : Runs ((putW (bundleBytesOf 1 0x2711B4)).upd fun c => { c with tvec := 0x8000000010000000, g := [(1, 1)] }) 1
    (.ldI32 4 (.g 1) .zero false) (fun u => u.me.held == {}) fun t => t.me.bun.isNone :=
  runs_of _ 0x2711B4 _ _ _ _ (by decide) (by decide +kernel) (by decide +kernel) (by decide +kernel) (by decide +kernel) (by decide +kernel)
theorem wit_StepRunsDecoded_waits : Runs ((putW (bundleBytesOf 0 0x810010)).upd fun c => { c with k := [(0, 1)] }) 0 (.waitLt 0 (.imm 1))
    (fun u => u.me.held.other) fun _ => true :=
  runs_of _ 0x810010 _ _ _ _ (by decide) (by decide +kernel) (by decide +kernel) (by decide +kernel) (by decide +kernel) (by decide +kernel)
theorem wit_StepRunsDecoded_queue : Runs ((putW (bundleBytesOf 1 0x130008)).upd fun c => { c with prog := { sq := [{ ready := false }] } }) 1
    (.addI64 (.sq 0) (.g 3)) (fun u => !u.me.held.other && u.me.held.queue && !u.me.sct) fun _ => true :=
  runs_of _ 0x130008 _ _ _ _ (by decide) (by decide +kernel) (by decide +kernel) (by decide +kernel) (by decide +kernel) (by decide +kernel)
theorem wit_StepRunsDecoded_contract : Runs ((putW (bundleBytesOf 1 0x130008)).upd fun c => { c with sct := true, prog := { sq := [{ ready := false }] } }) 1
    (.addI64 (.sq 0) (.g 3)) (fun u => !u.me.held.other && u.me.held.queue && u.me.sct) fun _ => true :=
  runs_of _ 0x130008 _ _ _ _ (by decide) (by decide +kernel) (by decide +kernel) (by decide +kernel) (by decide +kernel) (by decide +kernel)
theorem wit_StepRunsDecoded_no_fetch : ∃ (s : State) (f : TFault), AboutToFetch s ∧ (fetchNow s s.cur).1 = .fault f :=
  ⟨(putW []).upd fun c => { c with tlb := [{ codePage with x := false }] }, { reason := 5 }, by decide, by decide +kernel⟩
theorem wit_StepRunsDecoded_walks : ∃ (s : State) (m : List Miss), AboutToFetch s ∧ (fetchNow s s.cur).1 = .waits (.walks m) :=
  ⟨(putW []).upd fun c => { c with tlb := [] }, [{ who := .fetch 0, va := 0x10000000, perm := { x := true } }], by decide, by decide +kernel⟩
theorem wit_StepRunsDecoded_awaits : ∃ s : State, AboutToFetch s ∧ (fetchNow s s.cur).1 = .waits .awaits :=
  ⟨{ putW (natBytes 8 0) with home := [reqW none 0x10000000] }, by decide, by decide +kernel⟩
theorem wit_StepRunsDecoded_error : ∃ (s : State) (l : List Byte), AboutToFetch s ∧ (fetchNow s s.cur).1 = .bytes l
    ∧ codeUe (fetchNow s s.cur).2 s.cur s.me.pc l.length = true :=
  ⟨{ putW (natBytes 8 0) with ueLines := [0x200000] }, natBytes 8 0, by decide, by decide +kernel, by decide +kernel⟩
theorem wit_StepRunsDecoded_illegal : ∃ (s : State) (l : List Byte) (code : BitVec 8) (n : Nat), AboutToFetch s ∧ (fetchNow s s.cur).1 = .bytes l
    ∧ codeUe (fetchNow s s.cur).2 s.cur s.me.pc l.length = false ∧ decodeBundle s.me.tm s.me.hist l = .error (.illegal code n) :=
  ⟨putW (natBytes 8 (2 ^ 50)), natBytes 8 (2 ^ 50), 1, 8, by decide, by decide +kernel, by decide +kernel, error_of _ _ (by decide +kernel)⟩
theorem wit_StepRunsDecoded_agenda : ∃ (s : State) (e : Event) (l : List Event), s.lostLines = [] ∧ s.agenda = e :: l :=
  ⟨{ State.reset with agenda := [.lclkTick] }, _, _, rfl, rfl⟩
theorem wit_StepRunsDecoded_lost : ∃ (s : State) (p : BitVec 3 × Nat) (l : List (BitVec 3 × Nat)), s.lostLines = p :: l :=
  ⟨{ State.reset with lostLines := [(7, 0x200000)] }, _, _, rfl⟩

theorem wit_Traps : ∃ (i slot : Nat) (s : State), (s.core i).regUe = false ∧ (s.core i).tm = false ∧ tvecEn (s.core i).tvec = true ∧ slot < 16 ∧ (s.core i).pend = none :=
  ⟨0, 15, coreW fun c => { c with tvec := 0x8000000010000000 }, rfl, rfl, by decide, by decide, rfl⟩
theorem wit_Traps_pending : ∃ (i : Nat) (s : State) (p : Pend), (s.core i).regUe = false ∧ (s.core i).tm = false ∧ tvecEn (s.core i).tvec = true ∧ (s.core i).pend = some p :=
  ⟨0, coreW fun c => { c with tvec := 0x8000000010000000, pend := some { kind := 0, arg := 8 } }, _, rfl, rfl, by decide, rfl⟩
theorem wit_Traps_double : ∃ (i j : Nat) (s : State), (s.core i).regUe = false ∧ (s.core i).tm = true ∧ j ≠ i ∧ s.coreIn (s.team i).ctx.toNat j = true
    ∧ (tabGet? s.cores j).isSome = true ∧ (s.core j).run ≠ .double :=
  ⟨0, 1, { State.reset with cores := [(0, { tm := true, run := .running, team := some 0 }), (1, { run := .running, team := some 0 })],
                            teams := [(0, { loneTeam 0 with lw := 1, cores := [0, 1] })] }, rfl, rfl, by decide, by decide, rfl, by decide⟩
theorem wit_Traps_registers : ∃ (i : Nat) (s : State), (s.core i).regUe = true ∧ s.coreIn (s.team i).ctx.toNat i = true
    ∧ (tabGet? s.cores i).isSome = true ∧ (s.core i).run ≠ .double :=
  ⟨0, { State.reset with cores := [(0, { regUe := true, run := .running, team := some 0 })], teams := [(0, loneTeam 0)] }, rfl, by decide, rfl, by decide⟩

theorem wit_MemoryStaysCanonical : ∃ s t : State, Memory.wf s.mem = true ∧ s.mem ≠ [] ∧ step s = .next t :=
  ⟨{ putW (natBytes 8 0) with agenda := [.lclkTick] }, _, by decide +kernel, by decide +kernel, rfl⟩
theorem wit_MemoryStaysCanonical_stores : ∃ s t : State, StoresOk s ∧ s.me.sp ≠ [] ∧ s.hostMem ≠ [] ∧ step s = .next t :=
  ⟨{ spW 4 7 with agenda := [.lclkTick], hostMem := [(0, 1)] }, _, ⟨by decide +kernel, by decide +kernel, by decide +kernel, by decide +kernel⟩,
    by decide +kernel, by decide, rfl⟩

end Sys2Proof.Tests
end

section
/-! PROOFS. The sequencer and the scalar instructions (R54, R125 to R133). -/
namespace Sys2Proof.Machine
open Sys2Proof.Claims

/-! ### Results of slot S in the spec's terms (R132) -/

theorem toNat_and_63 (y : Word) : (y &&& 63).toNat = y.toNat % 64 := by
  rw [BitVec.toNat_and]
  exact Nat.and_two_pow_sub_one_eq_mod y.toNat 6

theorem sub_eq_ofInt (x y : Word) : x - y = BitVec.ofInt 64 (x.toNat - y.toNat) := by
  apply BitVec.eq_of_toInt_eq
  rw [BitVec.toInt_sub, BitVec.toInt_ofInt, BitVec.toInt_eq_toNat_bmod, BitVec.toInt_eq_toNat_bmod, Int.sub_bmod_bmod, Int.bmod_sub_bmod]

theorem mul_eq_ofNat (x y : Word) : x * y = BitVec.ofNat 64 (x.toNat * y.toNat) := by
  apply BitVec.eq_of_toNat_eq
  rw [BitVec.toNat_mul, BitVec.toNat_ofNat]

/-- The truncated quotient of the integers wraps where `sdiv` does, at -2^63 by -1. -/
theorem divS_eq_sdiv (x y : Word) : divS x y = if y = 0 then BitVec.allOnes 64 else x.sdiv y := by
  have h : BitVec.ofInt 64 (x.toInt.tdiv y.toInt) = x.sdiv y := by
    rw [← BitVec.toInt_inj, BitVec.toInt_sdiv, BitVec.toInt_ofInt]
  rw [divS, h]

theorem divU_eq_udiv (x y : Word) : divU x y = if y = 0 then BitVec.allOnes 64 else x / y := by
  rw [divU, BitVec.udiv_def]

theorem shiftLeft_low6 (x y : Word) : x <<< (y.toNat % 64) = BitVec.ofNat 64 (x.toNat * 2 ^ (y &&& 63).toNat) := by
  rw [toNat_and_63]
  apply BitVec.eq_of_toNat_eq
  rw [BitVec.toNat_shiftLeft, BitVec.toNat_ofNat, Nat.shiftLeft_eq]

theorem ushiftRight_low6 (x y : Word) : x >>> (y.toNat % 64) = BitVec.ofNat 64 (x.toNat / 2 ^ (y &&& 63).toNat) := by
  rw [toNat_and_63]
  apply BitVec.eq_of_toNat_eq
  rw [BitVec.toNat_ushiftRight, BitVec.toNat_ofNat, Nat.shiftRight_eq_div_pow,
    Nat.mod_eq_of_lt (Nat.lt_of_le_of_lt (Nat.div_le_self _ _) x.isLt)]

theorem sshiftRight_low6 (x y : Word) :
    x.sshiftRight (y.toNat % 64) = BitVec.ofInt 64 (x.toInt / 2 ^ (y &&& 63).toNat) := by
  rw [toNat_and_63, BitVec.sshiftRight, Int.shiftRight_eq_div_pow]
  norm_cast

theorem rotateLeft_low6 (x y : Word) :
    x.rotateLeft (y.toNat % 64) = x <<< (y &&& 63).toNat ||| x >>> (64 - (y &&& 63).toNat) := by
  rw [toNat_and_63, BitVec.rotateLeft_def, Nat.mod_mod]

/-! The comparisons of bit vectors are those of the numbers they stand for, and of two equal sources either is the smaller and the larger. -/

theorem minS_eq_slt (x y : Word) : (if y.toInt < x.toInt then y else x) = if x.slt y then x else y := by
  simp only [BitVec.slt_iff_toInt_lt]
  rcases Int.lt_trichotomy x.toInt y.toInt with h | h | h
  · rw [if_neg (by omega), if_pos h]
  · rw [BitVec.eq_of_toInt_eq h, ite_self]
  · rw [if_pos h, if_neg (by omega)]

theorem maxS_eq_slt (x y : Word) : (if x.toInt < y.toInt then y else x) = if x.slt y then y else x := by
  simp only [BitVec.slt_iff_toInt_lt]

theorem minU_eq_ult (x y : Word) : (if y.toNat < x.toNat then y else x) = if x.ult y then x else y := by
  simp only [BitVec.ult_iff_toNat_lt]
  rcases Nat.lt_trichotomy x.toNat y.toNat with h | h | h
  · rw [if_neg (by omega), if_pos h]
  · rw [BitVec.eq_of_toNat_eq h, ite_self]
  · rw [if_pos h, if_neg (by omega)]

theorem maxU_eq_ult (x y : Word) : (if x.toNat < y.toNat then y else x) = if x.ult y then y else x := by
  simp only [BitVec.ult_iff_toNat_lt]

theorem bool64_eq (x y : Word) : bool64 (x == y) = if x = y then 1 else 0 := by
  simp only [bool64, beq_iff_eq]

theorem bool64_ne (x y : Word) : bool64 (x != y) = if x = y then 0 else 1 := by
  simp only [bool64, bne_iff_ne, ite_not]

/-! ### A scalar operation with its sources readable -/

/-- A one-source operation of slot S whose source can be read pushes its result (R131, R133). -/
theorem scalar1_of_ready {lat : Nat} {f : Word → Word} {a : Src} {s : State} (ha : SrcReady s a) :
    scalar1 lat f a s = .next (pushSqAt 1 lat (f (readSrc s a)) (srcDraws a) s) := by
  rw [scalar1, gateSrc_of_ready ha, runSlot_free, readSrc_atSlot, pushSqAt]

/-- A two-source operation of slot S whose sources can be read pushes its result (R131, R132). -/
theorem scalar2_of_ready {lat : Nat} {f : Word → Word → Word} {a b : Src} {s : State} (ha : SrcReady s a) (hb : SrcReady s b) :
    scalar2 lat f a b s = .next (pushSqAt 1 lat (f (readSrc s a) (readSrc s b)) (srcDraws a || srcDraws b) s) := by
  rw [scalar2, gateSrc_of_ready ha, gateSrc_of_ready hb, Gate.and_empty, runSlot_free, readSrc_atSlot, readSrc_atSlot, pushSqAt]

/-- Two functions with the same results make the same operation. -/
theorem scalar2_congr {lat : Nat} {f g : Word → Word → Word} {a b : Src} {s : State} (h : ∀ x y, f x y = g x y) :
    scalar2 lat f a b s = scalar2 lat g a b s := by
  rw [show f = g from funext fun x => funext (h x)]

/-- Every two-source operation of slot S is the shared operation with the latency, result and sources of the table (R108, R132). -/
theorem exec_eq_scalar2 {i : Instr} {lat : Nat} {f : Word → Word → Word} {a b : Src} (h : scalar2Of i = some (lat, f, a, b)) (s : State) :
    exec i s = scalar2 lat f a b s := by
  cases i with
  | addI64 => cases h; exact scalar2_congr fun x y => BitVec.add_def x y
  | subI64 => cases h; exact scalar2_congr sub_eq_ofInt
  | mulI64 => cases h; exact scalar2_congr mul_eq_ofNat
  | mulhI64 => cases h; exact scalar2_congr fun _ _ => rfl
  | mulhN64 => cases h; exact scalar2_congr fun _ _ => rfl
  | divI64 => cases h; exact scalar2_congr divS_eq_sdiv
  | divN64 => cases h; exact scalar2_congr divU_eq_udiv
  | sAnd => cases h; rfl
  | sOr => cases h; rfl
  | sXor => cases h; rfl
  | sAndn => cases h; rfl
  | sShl => cases h; exact scalar2_congr shiftLeft_low6
  | shrN64 => cases h; exact scalar2_congr ushiftRight_low6
  | shrI64 => cases h; exact scalar2_congr sshiftRight_low6
  | rotl => cases h; exact scalar2_congr rotateLeft_low6
  | minI64 => cases h; exact scalar2_congr minS_eq_slt
  | minN64 => cases h; exact scalar2_congr minU_eq_ult
  | maxI64 => cases h; exact scalar2_congr maxS_eq_slt
  | maxN64 => cases h; exact scalar2_congr maxU_eq_ult
  | ceq => cases h; exact scalar2_congr bool64_eq
  | cne => cases h; exact scalar2_congr bool64_ne
  | cltI64 => cases h; rfl
  | cltN64 => cases h; rfl
  | cleI64 => cases h; rfl
  | cleN64 => cases h; rfl
  | _ => cases h

/-- Settles O1: the operation is the shared two-source operation, which pushes its result where both sources can be read. -/
theorem scalarArithmetic : Obligations.ScalarArithmetic := by
  intro i lat f a b s h ha hb
  rw [exec_eq_scalar2 h, scalar2_of_ready ha hb]

/-! ### Counts of bits (R133) and literals (R54) -/

/-- The number of leading zeros of a word that is not zero names the highest bit that is set. -/
theorem bitLen_bounds {x : Nat} (h0 : x ≠ 0) (h : x < 2 ^ 64) :
    1 ≤ bitLen x ∧ bitLen x ≤ 64 ∧ 2 ^ (bitLen x - 1) ≤ x ∧ x < 2 ^ bitLen x := by
  rw [bitLen, if_neg h0]
  exact ⟨by omega, (Nat.log2_lt h0).2 h, Nat.log2_self_le h0, Nat.lt_log2_self⟩

theorem rangeFrom_eq_range' (a n : Nat) : rangeFrom a n = List.range' a n := by
  induction n generalizing a with
  | zero => rfl
  | succ n ih => rw [rangeFrom, ih, List.range'_succ]

theorem popc64_eq_countP (x : Word) : popc64 x = BitVec.ofNat 64 ((List.range 64).countP fun i => x.getLsbD i) := by
  rw [popc64, rangeFrom_eq_range', ← List.range_eq_range', List.countP_eq_length_filter]

/-- A literal fills the 16 bits that a shift by 16 has cleared (R54). -/
theorem shiftLeft_16_or (x : Word) (imm : BitVec 16) :
    x <<< 16 ||| imm.setWidth 64 = BitVec.ofNat 64 (x.toNat * 2 ^ 16 + imm.toNat) := by
  have disjoint : x <<< 16 &&& imm.setWidth 64 = 0#64 := by
    ext i hi
    by_cases h : i < 16
    · simp [h]
    · simp [h, imm.getLsbD_of_ge i (by omega)]
  rw [← BitVec.add_eq_or_of_and_eq_zero _ _ disjoint]
  apply BitVec.eq_of_toNat_eq
  simp [Nat.shiftLeft_eq]

/-- Two changes of the acting core that agree on it are the same. -/
theorem State.upd_congr {s : State} {f g : Core → Core} (h : f s.me = g s.me) : s.upd f = s.upd g :=
  congrArg (s.setCore s.cur) h

theorem exec_li_next (imm : BitVec 16) (s : State) : exec (.li imm) s = .next (pushSqAt 1 1 (BitVec.ofInt 64 imm.toInt) false s) := by
  rw [exec_li, execLi, runSlot_free]
  rfl

theorem exec_lih_of_ready {imm : BitVec 16} {s : State} (h : SqReady s 0) :
    exec (.lih imm) s = .next (pushSqAt 1 1 ((s.me.sqAt 0).val <<< 16 ||| imm.setWidth 64) false s) := by
  have hg : gateSq s.me 0 = {} := gateSq_of_ready h
  rw [exec_lih, execLih, hg, runSlot_free]
  refine congrArg Host.Outcome.next (State.upd_congr ?_)
  rw [atSlot_me]
  rfl

theorem exec_clz_of_ready {a : Src} {s : State} (ha : SrcReady s a) : ∃ n : Nat,
    exec (.clz a) s = .next (pushSqAt 1 1 (BitVec.ofNat 64 n) (srcDraws a) s)
      ∧ (readSrc s a = 0 → n = 64)
      ∧ (readSrc s a ≠ 0 → n ≤ 63 ∧ 2 ^ (63 - n) ≤ (readSrc s a).toNat ∧ (readSrc s a).toNat < 2 ^ (64 - n)) := by
  refine ⟨64 - bitLen (readSrc s a).toNat, scalar1_of_ready ha, fun h => ?_, fun h => ?_⟩
  · rw [h]
    rfl
  · obtain ⟨hpos, hle, hlo, hhi⟩ := bitLen_bounds (mt (BitVec.eq_of_toNat_eq (y := 0#64)) h) (readSrc s a).isLt
    refine ⟨by omega, ?_, ?_⟩
    · rwa [show 63 - (64 - bitLen (readSrc s a).toNat) = bitLen (readSrc s a).toNat - 1 by omega]
    · rwa [Nat.sub_sub_self hle]

theorem exec_sSel_of_ready {a b : Src} {s : State} (ha : SrcReady s a) (hb : SrcReady s b) :
    exec (.sSel a b) s
      = .next (pushSqAt 1 1 (if s.me.bank.lat.sA = 0 then readSrc s b else readSrc s a) (srcDraws a || srcDraws b) s) := by
  refine (scalar2_of_ready ha hb).trans ?_
  rw [ite_not]

/-- Settles O2: each operation is a shared operation with its result, and a literal is pushed as it is. -/
theorem scalarUnary : Obligations.ScalarUnary := by
  refine ⟨fun a s ha => scalar1_of_ready ha, fun a b s ha hb => exec_sSel_of_ready ha hb, fun a s ha => exec_clz_of_ready ha,
    fun a s ha => ?_, exec_li_next, fun imm s h => ?_⟩
  · rw [← popc64_eq_countP]
    exact scalar1_of_ready ha
  · rw [← shiftLeft_16_or]
    exact exec_lih_of_ready h

/-! ### What a write-back leaves alone -/

/-- A fold keeps the acting core if each of its steps does. -/
theorem me_foldl {α : Type} {f : State → α → State} (hf : ∀ s x, (f s x).me = s.me) :
    ∀ (l : List α) (s : State), (l.foldl f s).me = s.me
  | [], _ => rfl
  | x :: l, s => (me_foldl hf l (f s x)).trans (hf s x)

@[simp] theorem putExt_me (l k : Nat) (m : Mem) (s : State) : (putExt l k m s).me = s.me := by
  unfold putExt
  split <;> rfl

@[simp] theorem rekeyLine_me (k l : Nat) (s : State) : (rekeyLine k l s).me = s.me := by
  unfold rekeyLine
  split
  · rfl
  · split <;> exact putExt_me _ _ _ _

@[simp] theorem rawWrite_me (pa : Nat) (bs : List Byte) (s : State) : (rawWrite pa bs s).me = s.me :=
  me_foldl (fun _ _ => putExt_me _ _ _ _) _ _

@[simp] theorem undoAppend_me (x l : Nat) (s : State) : (undoAppend x l s).me = s.me := by
  simp only [undoAppend]
  split
  · split
    · rfl
    · rw [State.me_modCtx, rawWrite_me]
  · rfl

@[simp] theorem extWrite_me (x : Nat) (bs : Mem) (s : State) : (extWrite x bs s).me = s.me :=
  me_foldl (fun s l => (rekeyLine_me _ _ _).trans (undoAppend_me x l s)) _ s

@[simp] theorem writeBack_me (ev : Bool) (l : Nat) (s : State) : (writeBack ev l s).me = s.me := by
  unfold writeBack
  split
  · rfl
  · split
    · rfl
    · split
      · rfl
      · split
        · split
          · rfl
          · cases ev <;> exact extWrite_me _ _ s
        · exact undoAppend_me _ l s

@[simp] theorem writeBackCtx_me (x : BitVec 3) (s : State) : (writeBackCtx x s).me = s.me :=
  me_foldl (fun s l => writeBack_me false l s) _ s

/-! ### Fences, checkpoints and tiles (R125 to R128) -/

theorem Core.drawIf_eq (c : Core) (b : Bool) : c.drawIf b = { c with seed := if b then advance c.seed else c.seed } := by
  cases b <;> rfl

theorem exec_fence_of_idle {sc : FenceScope} {s : State} (h : s.me.accPending = false) :
    exec (.fence sc) s = .next (if sc = .sys then writeBackOf s.cur (atSlot 0 s) else atSlot 0 s) := by
  rw [exec_fence, execFence, h, Gate.holdIf_false, runSlot_free, atSlot_cur]

theorem exec_sbar_of_idle {rd wr mem : Bool} {s : State} (h : s.streamsBusy s.cur rd wr mem = false) :
    exec (.sbar rd wr mem) s = .next (atSlot 0 s) := by
  rw [exec_sbar, execSbar, h, Gate.holdIf_false, runSlot_free, id]

/-- The state after a checkpoint of step `v` by a core of context `x`: the context's dirty lines are written back, its undo interval is closed
and the step recorded (R127). -/
def checkpointed (x : BitVec 3) (v : Word) (s : State) : State :=
  (writeBackCtx x s).modCtx x.toNat fun c => { c with cstep := v, ulog := [], ufull := false }

theorem exec_ckpt_of_ready {a : Src} {s : State} (ha : SrcReady s a) (h : s.me.writesPending = false) :
    exec (.ckpt a) s
      = .next ((checkpointed (s.team s.cur).ctx (readSrc s a) (atSlot 0 s)).upd fun c => c.drawIf (srcDraws a)) := by
  rw [exec_ckpt, execCkpt, gateSrc_of_ready ha, h, Gate.holdIf_false, Gate.and_empty, runSlot_free]
  simp only [atSlot_cur, atSlot_team, readSrc_atSlot, checkpointed]

@[simp] theorem checkpointed_me (x : BitVec 3) (v : Word) (s : State) : (checkpointed x v s).me = s.me := by
  rw [checkpointed, State.me_modCtx, writeBackCtx_me]

theorem checkpointed_ctx (x : BitVec 3) (v : Word) (s : State) :
    (checkpointed x v s).ctx x.toNat = { (writeBackCtx x s).ctx x.toNat with cstep := v, ulog := [], ufull := false } :=
  State.ctx_modCtx_self _ _ _

theorem exec_nextTile_of_row {s : State} (h : s.me.spos.toNat < s.me.slen.toNat) :
    exec .nextTile s
      = .next (coreAt 0 false (fun c => { c.pushSq 2 (s.me.sched.getD s.me.spos.toNat 0) with spos := s.me.spos + 1 }) s) := by
  rw [exec_nextTile, execNextTile, runSlot_free]
  refine congrArg Host.Outcome.next (State.upd_congr ?_)
  rw [atSlot_me, if_pos h]
  rfl

theorem exec_nextTile_past {s : State} (h : s.me.slen.toNat ≤ s.me.spos.toNat) :
    exec .nextTile s = .next (pushSqAt 0 2 (BitVec.allOnes 64) false s) := by
  rw [exec_nextTile, execNextTile, runSlot_free]
  refine congrArg Host.Outcome.next (State.upd_congr ?_)
  rw [atSlot_me, if_neg (Nat.not_lt.2 h)]
  rfl

/-- Settles O33: nothing holds the operations, and a write-back leaves the acting core alone. -/
theorem fencesAndTiles : Obligations.FencesAndTiles := by
  refine ⟨fun sc s h => exec_fence_of_idle h, fun rd wr mem s h => exec_sbar_of_idle h, fun a s ha h => ?_,
    fun s => ⟨exec_nextTile_of_row, exec_nextTile_past⟩⟩
  refine ⟨_, exec_ckpt_of_ready ha h, ?_⟩
  rw [State.ctx_upd, checkpointed_ctx, State.me_upd, checkpointed_me, atSlot_me, Core.drawIf_eq]
  exact ⟨rfl, rfl, rfl, rfl⟩

end Sys2Proof.Machine
end

section
/-! PROOFS. The two-source operations of slots V0 and V1 (R147, R149, R150). -/
namespace Sys2Proof.Machine
open Sys2Proof.Claims

/-! ### Lanes as signed and natural numbers (R149) -/

theorem sintOf_toNat (x : BitVec 32) : sintOf 32 x.toNat = x.toInt := by
  have hx := x.isLt
  simp only [sintOf, bitOf, beq_iff_eq, BitVec.toInt_eq_toNat_cond]
  split <;> split <;> omega

theorem ofNat_intBits (z : Int) : BitVec.ofNat 32 (intBits 32 z) = BitVec.ofInt 32 z := by
  apply BitVec.eq_of_toNat_eq
  rw [intBits, BitVec.toNat_ofNat, BitVec.toNat_ofInt]
  omega

theorem clamp32_eq_ofNat (z : Int) : clamp32 z = BitVec.ofNat 32 (clampBits z) := by
  rw [clampBits, ofNat_intBits, clamp32]
  split
  · congr 1; omega
  · split <;> congr 1 <;> omega

theorem toNat_mask32 (b : Bool) : (mask32 b).toNat = onesIf b := by cases b <;> rfl

theorem eq_ofNat_of_toNat {x : BitVec 32} {n : Nat} (h : x.toNat = n) : x = BitVec.ofNat 32 n := by
  rw [← h, BitVec.ofNat_toNat, BitVec.setWidth_eq]

/-! ### Integer results of a lane in the spec's terms (R149, R150) -/

theorem sub32_eq_ofNat (x y : BitVec 32) : x - y = BitVec.ofNat 32 (x.toNat + (2 ^ 32 - y.toNat)) := by
  rw [BitVec.sub_def, Nat.add_comm]

theorem mul32_eq_ofNat (x y : BitVec 32) : x * y = BitVec.ofNat 32 (x.toNat * y.toNat) := by
  apply BitVec.eq_of_toNat_eq
  rw [BitVec.toNat_mul, BitVec.toNat_ofNat]

theorem addSat32_eq_ofNat (x y : BitVec 32) :
    clamp32 (x.toInt + y.toInt) = BitVec.ofNat 32 (clampBits (sintOf 32 x.toNat + sintOf 32 y.toNat)) := by
  rw [clamp32_eq_ofNat, sintOf_toNat, sintOf_toNat]

theorem subSat32_eq_ofNat (x y : BitVec 32) :
    clamp32 (x.toInt - y.toInt) = BitVec.ofNat 32 (clampBits (sintOf 32 x.toNat - sintOf 32 y.toNat)) := by
  rw [clamp32_eq_ofNat, sintOf_toNat, sintOf_toNat]

theorem minI32_eq_ofNat (x y : BitVec 32) : (if y.toInt < x.toInt then y else x)
    = BitVec.ofNat 32 (if sintOf 32 x.toNat ≤ sintOf 32 y.toNat then x.toNat else y.toNat) := by
  apply eq_ofNat_of_toNat
  rw [apply_ite BitVec.toNat, sintOf_toNat, sintOf_toNat]
  split <;> split <;> omega

theorem minN32_eq_ofNat (x y : BitVec 32) : (if y.toNat < x.toNat then y else x) = BitVec.ofNat 32 (min x.toNat y.toNat) := by
  apply eq_ofNat_of_toNat
  rw [apply_ite BitVec.toNat]
  split <;> omega

/-- Of two equal lanes either is the larger. -/
theorem maxI32_eq_ofNat (x y : BitVec 32) : (if x.toInt < y.toInt then y else x)
    = BitVec.ofNat 32 (if sintOf 32 x.toNat ≤ sintOf 32 y.toNat then y.toNat else x.toNat) := by
  apply eq_ofNat_of_toNat
  rw [sintOf_toNat, sintOf_toNat]
  rcases Int.lt_trichotomy x.toInt y.toInt with h | h | h
  · rw [if_pos h, if_pos (by omega)]
  · rw [BitVec.eq_of_toInt_eq h, ite_self, ite_self]
  · rw [if_neg (by omega), if_neg (by omega)]

theorem maxN32_eq_ofNat (x y : BitVec 32) : (if x.toNat < y.toNat then y else x) = BitVec.ofNat 32 (max x.toNat y.toNat) := by
  apply eq_ofNat_of_toNat
  rw [apply_ite BitVec.toNat]
  split <;> omega

theorem andn32_eq_ofNat (x y : BitVec 32) : x &&& ~~~y = BitVec.ofNat 32 (x.toNat &&& (2 ^ 32 - 1 - y.toNat)) :=
  eq_ofNat_of_toNat (by rw [BitVec.toNat_and, BitVec.toNat_not])

theorem shl32_eq_ofNat (x y : BitVec 32) : x <<< (y.toNat % 32) = BitVec.ofNat 32 (x.toNat * 2 ^ (y.toNat % 32)) := by
  apply BitVec.eq_of_toNat_eq
  rw [BitVec.toNat_shiftLeft, BitVec.toNat_ofNat, Nat.shiftLeft_eq]

theorem shrN32_eq_ofNat (x y : BitVec 32) : x >>> (y.toNat % 32) = BitVec.ofNat 32 (x.toNat / 2 ^ (y.toNat % 32)) :=
  eq_ofNat_of_toNat (by rw [BitVec.toNat_ushiftRight, Nat.shiftRight_eq_div_pow])

theorem shrI32_eq_ofNat (x y : BitVec 32) :
    x.sshiftRight (y.toNat % 32) = BitVec.ofNat 32 (intBits 32 (sintOf 32 x.toNat / 2 ^ (y.toNat % 32))) := by
  rw [ofNat_intBits, sintOf_toNat, BitVec.sshiftRight, Int.shiftRight_eq_div_pow]
  norm_cast

theorem ceqI32_eq_ofNat (x y : BitVec 32) : mask32 (x == y) = BitVec.ofNat 32 (onesIf (decide (x.toNat = y.toNat))) := by
  apply eq_ofNat_of_toNat
  rw [toNat_mask32, Bool.beq_eq_decide_eq, decide_eq_decide.2 BitVec.toNat_inj.symm]

theorem cltI32_eq_ofNat (x y : BitVec 32) : mask32 (decide (x.toInt < y.toInt))
    = BitVec.ofNat 32 (onesIf (decide (sintOf 32 x.toNat < sintOf 32 y.toNat))) := by
  rw [sintOf_toNat, sintOf_toNat]
  exact eq_ofNat_of_toNat (toNat_mask32 _)

/-! ### A vector operation with its sources readable -/

/-- A two-source operation whose sources can be read pushes its result (R147, R149, R150). -/
theorem vector2_of_ready {u : Pipe} {lat : Nat} {ef : ElemFmt} {f : Vec → Vec → Vec} {a b : SrcV} {s : State}
    (ha : SrcVReady s a) (hb : SrcVReady s b) :
    vector2 u lat ef f a b s
      = .next (pushVqAt u lat (f (readV s ef a) (readV s ef b)) (vPops a) (vPops b) (vDraws a || vDraws b) s) := by
  rw [vector2, gateV2, gateV1_of_ready ha, gateV1_of_ready hb, Gate.and_empty, runSlot_free, readV_atSlot, readV_atSlot, pushVqAt]

/-- Two functions that agree in the width of the elements make the same vector. -/
theorem vMap2_congr {w : Nat} {f g : Nat → Nat → Nat} (h : ∀ x y, x < 2 ^ w → y < 2 ^ w → f x y % 2 ^ w = g x y % 2 ^ w)
    (v v' : Vec) : vMap2 w f v v' = vMap2 w g v v' := by
  have elements (e : Nat) := h _ _ (vElem_lt w v e) (vElem_lt w v' e)
  simp only [vMap2, vOfElems, List.foldr_map, elements]

/-- An integer operation maps the lanes as the numbers that they hold (R149). -/
theorem intOp_eq_vector2 {u : Pipe} {f : BitVec 32 → BitVec 32 → BitVec 32} {g : Nat → Nat → Nat} {a b : SrcV} {s : State}
    (h : ∀ x y : BitVec 32, f x y = BitVec.ofNat 32 (g x.toNat y.toNat)) :
    intOp u f a b s = vector2 u 2 efI32 (vMap2 32 g) a b s := by
  refine congrArg (fun r => vector2 u 2 efI32 r a b s) (funext fun v => funext (vMap2_congr (fun x y hx hy => ?_) v))
  rw [h, BitVec.toNat_ofNat, Nat.mod_mod, BitVec.toNat_ofNat, BitVec.toNat_ofNat, Nat.mod_eq_of_lt hx, Nat.mod_eq_of_lt hy]

/-- A floating operation maps the elements of its format, rounded RNE (R147). -/
theorem floatOp_eq_vector2 (u : Pipe) (ef : ElemFmt) (g : FF) (f : FpNum → FpNum → FpNum) (a b : SrcV) (s : State) :
    floatOp u ef g f a b s = vector2 u 4 ef (vMap2 ef.w (floatElem g f)) a b s := rfl

/-- A floating compare maps the lanes to the numbers of its masks (R150). -/
theorem cmpF32_eq_vector2 (u : Pipe) (r : FpNum → FpNum → Bool) (a b : SrcV) (s : State) :
    cmpF32 u r a b s = vector2 u 2 efF32 (vMap2 32 fun x y => onesIf (r (f32 x) (f32 y))) a b s := by
  simp only [cmpF32, toNat_mask32]

/-- Every two-source operation is the shared operation on elements, with the latency, format, result and sources of the table (R146, R147, R149,
R150). -/
theorem exec_eq_vector2 {i : Instr} {u : Pipe} {lat : Nat} {ef : ElemFmt} {f : Nat → Nat → Nat} {a b : SrcV}
    (h : vector2Of i = some (u, lat, ef, f, a, b)) (s : State) : exec i s = vector2 u lat ef (vMap2 ef.w f) a b s := by
  cases i with
  | addF32 => cases h; exact floatOp_eq_vector2 ..
  | addBf16 => cases h; exact floatOp_eq_vector2 ..
  | addF16 => cases h; exact floatOp_eq_vector2 ..
  | subF32 => cases h; exact floatOp_eq_vector2 ..
  | subBf16 => cases h; exact floatOp_eq_vector2 ..
  | subF16 => cases h; exact floatOp_eq_vector2 ..
  | mulF32 => cases h; exact floatOp_eq_vector2 ..
  | mulBf16 => cases h; exact floatOp_eq_vector2 ..
  | mulF16 => cases h; exact floatOp_eq_vector2 ..
  | minF32 => cases h; exact floatOp_eq_vector2 ..
  | minBf16 => cases h; exact floatOp_eq_vector2 ..
  | minF16 => cases h; exact floatOp_eq_vector2 ..
  | maxF32 => cases h; exact floatOp_eq_vector2 ..
  | maxBf16 => cases h; exact floatOp_eq_vector2 ..
  | maxF16 => cases h; exact floatOp_eq_vector2 ..
  | addI32 => cases h; exact (exec_addI32 ..).trans (intOp_eq_vector2 fun x y => BitVec.add_def x y)
  | subI32 => cases h; exact (exec_subI32 ..).trans (intOp_eq_vector2 sub32_eq_ofNat)
  | mulI32 => cases h; exact (exec_mulI32 ..).trans (intOp_eq_vector2 mul32_eq_ofNat)
  | addSatI32 => cases h; exact (exec_addSatI32 ..).trans (intOp_eq_vector2 addSat32_eq_ofNat)
  | subSatI32 => cases h; exact (exec_subSatI32 ..).trans (intOp_eq_vector2 subSat32_eq_ofNat)
  | minI32 => cases h; exact (exec_minI32 ..).trans (intOp_eq_vector2 minI32_eq_ofNat)
  | minN32 => cases h; exact (exec_minN32 ..).trans (intOp_eq_vector2 minN32_eq_ofNat)
  | maxI32 => cases h; exact (exec_maxI32 ..).trans (intOp_eq_vector2 maxI32_eq_ofNat)
  | maxN32 => cases h; exact (exec_maxN32 ..).trans (intOp_eq_vector2 maxN32_eq_ofNat)
  | vAnd => cases h; exact (exec_vAnd ..).trans (intOp_eq_vector2 fun x y => eq_ofNat_of_toNat (BitVec.toNat_and x y))
  | vOr => cases h; exact (exec_vOr ..).trans (intOp_eq_vector2 fun x y => eq_ofNat_of_toNat (BitVec.toNat_or x y))
  | vXor => cases h; exact (exec_vXor ..).trans (intOp_eq_vector2 fun x y => eq_ofNat_of_toNat (BitVec.toNat_xor x y))
  | vAndn => cases h; exact (exec_vAndn ..).trans (intOp_eq_vector2 andn32_eq_ofNat)
  | vShl => cases h; exact (exec_vShl ..).trans (intOp_eq_vector2 shl32_eq_ofNat)
  | shrN32 => cases h; exact (exec_shrN32 ..).trans (intOp_eq_vector2 shrN32_eq_ofNat)
  | shrI32 => cases h; exact (exec_shrI32 ..).trans (intOp_eq_vector2 shrI32_eq_ofNat)
  | ceqF32 => cases h; exact cmpF32_eq_vector2 ..
  | cltF32 => cases h; exact cmpF32_eq_vector2 ..
  | cleF32 => cases h; exact cmpF32_eq_vector2 ..
  | ceqI32 => cases h; exact (exec_ceqI32 ..).trans (intOp_eq_vector2 ceqI32_eq_ofNat)
  | cltI32 => cases h; exact (exec_cltI32 ..).trans (intOp_eq_vector2 cltI32_eq_ofNat)
  | cltN32 => cases h; exact (exec_cltN32 ..).trans (intOp_eq_vector2 fun _ _ => eq_ofNat_of_toNat (toNat_mask32 _))
  | _ => cases h

/-- Settles O3: the operation is the shared two-source operation on elements, which pushes the vector of their results where both sources can
be read. -/
theorem vectorArithmetic : Obligations.VectorArithmetic := by
  intro i u lat ef f a b s h ha hb
  refine ⟨vMap2 ef.w f (readV s ef a) (readV s ef b), ?_, fun e he => vElem_vMap2 ef.w f _ _ he⟩
  rw [exec_eq_vector2 h, vector2_of_ready ha hb]

end Sys2Proof.Machine
end
